-- ==== Sys2Proof/Word.lean ====
section
/-!
DEFINITION. The word types of the H9 and the sparse maps in which its State is written.
-/

namespace Sys2Proof

/-- A byte. -/
abbrev Byte := BitVec 8
/-- A 64-bit word: a general register, an address as an instruction forms it. -/
abbrev Word := BitVec 64
/-- A 512-bit vector register or 64-byte line; byte i is bits [8i+7:8i] (R293, R5). -/
abbrev Line := BitVec 512

/-- A sparse map: pairs of a key and a value, the keys strictly rising. -/
abbrev FMap (α : Type) := List (Nat × α)

/-- A set of numbers, strictly rising. -/
abbrev NSet := List Nat

end Sys2Proof
end

