-- ==== Sys2Proof/Config.lean ====
section
/-!
DEFINITION. What the specification leaves open or leaves to the part: free values, which nothing in Lean can evaluate, so that a
statement about them holds for every value. Each is named in the assumption log (notes/assumptions).
-/

namespace Sys2Proof.Config

/-- A free 64-bit value, read with the counter of free values of State and never twice with one counter. -/
opaque freeWord : Nat → BitVec 64

/-- The subcode of a trap cause for which the specification states none: ALIGN, LSEG, EMPTY. -/
opaque openSub : (cause : BitVec 8) → BitVec 8
/-- XVAL of a trap for which the specification states none: PRIV. -/
opaque openXval : (cause sub : BitVec 8) → BitVec 64
/-- The local segment base, in units of 64 bytes, that a launch assigns to a seat (R15, R172; the base is not stated). -/
opaque segmentBase : (launch seat : Nat) → BitVec 18

/-- The signed offset, in units of the last place, of the part's f32 VRCP from the correctly rounded result, per operand (R307: the
result lies within 1 ulp and is a fixed function of the operand). The meaning keeps it within the bound. -/
opaque rcpUlp : BitVec 32 → Int
/-- The same for VRSQ (within 2 ulp). -/
opaque rsqUlp : BitVec 32 → Int
/-- The same for VEX2 (within 2 ulp). -/
opaque ex2Ulp : BitVec 32 → Int
/-- The same for VLG2 (within 2 ulp). -/
opaque lg2Ulp : BitVec 32 → Int

/-- The ROM revision (R460). -/
opaque romRev : BitVec 16
/-- The P-384 public identity key, X then Y, 48 bytes each (R462, R466). -/
opaque publicKeyByte : Nat → BitVec 8
/-- The 16-byte fuse serial (R462). -/
opaque fuseSerialByte : Nat → BitVec 8
/-- SHA-384 of the fuse bank without the key (R466). -/
opaque fuseHashByte : Nat → BitVec 8
/-- The 96 bytes r and s of an ECDSA P-384 signature over a SHA-384 digest given as a number (R466). -/
opaque signatureByte : (digest : Nat) → (counter : Nat) → Nat → BitVec 8
/-- Whether a host frame lies in the DMA range that a function permits (R462). -/
opaque dmaPermits : (function : Nat) → (frame : Nat) → Bool
/-- Whether memory for a new table, frame or index storage can be allocated, by a counter (R80, R462). -/
opaque allocates : Nat → Bool
/-- The frame that the firmware allocates for a page of a tier, before it is aligned to the page (R462). -/
opaque frameAlloc : (tier : Nat) → (counter : Nat) → Nat
/-- The station that QUEUE_CREATE picks when any may be picked (R462). -/
opaque pickStation : Nat → Nat
/-- The ASID that CTX_CREATE assigns, before it is checked to be free (R462). -/
opaque pickAsid : Nat → BitVec 16
end Sys2Proof.Config
end

