-- ==== Sys2Proof/Syntax/Operands.lean ====
section
/-!
DEFINITION. The operands of the instructions, one structure for each shape of operand fields (R225 to R228), and the
operand of the event SOFT_ERROR. `g` is the guard G of R223; every other field bears the name of its strip.
-/

namespace Sys2Proof

/-- Only the guard. -/
structure OpG where
  g : BitVec 3
  deriving DecidableEq, Repr

/-- Format R with D, A, B, TA, TB. -/
structure OpR where
  d : BitVec 6
  a : BitVec 6
  b : BitVec 6
  ta : Bool
  tb : Bool
  g : BitVec 3
  deriving DecidableEq, Repr

/-- Format R with D, A, TA; B and TB reserved. -/
structure OpRDA where
  d : BitVec 6
  a : BitVec 6
  ta : Bool
  g : BitVec 3
  deriving DecidableEq, Repr

/-- Format R with A, TA; D and B reserved. -/
structure OpRA where
  a : BitVec 6
  ta : Bool
  g : BitVec 3
  deriving DecidableEq, Repr

/-- Format R of CMP: mode and predicate in D (R261). -/
structure OpCmp where
  mode : BitVec 3
  p : BitVec 3
  a : BitVec 6
  b : BitVec 6
  ta : Bool
  tb : Bool
  g : BitVec 3
  deriving DecidableEq, Repr

/-- Format R of RED: `.nc` in D (R278). -/
structure OpRed where
  nc : Bool
  a : BitVec 6
  b : BitVec 6
  ta : Bool
  tb : Bool
  g : BitVec 3
  deriving DecidableEq, Repr

/-- PRD with three predicates (R263). -/
structure OpP3 where
  pd : BitVec 3
  pa : BitVec 3
  pb : BitVec 3
  g : BitVec 3
  deriving DecidableEq, Repr

/-- PNOT (R263). -/
structure OpP2 where
  pd : BitVec 3
  pa : BitVec 3
  g : BitVec 3
  deriving DecidableEq, Repr

/-- KMOV (R263). -/
structure OpK2 where
  kd : BitVec 2
  ka : BitVec 2
  g : BitVec 3
  deriving DecidableEq, Repr

/-- Format I (R256). -/
structure OpI where
  d : BitVec 6
  a : BitVec 6
  ta : Bool
  imm : BitVec 10
  g : BitVec 3
  deriving DecidableEq, Repr

/-- Format I of SHI (R257). -/
structure OpShi where
  d : BitVec 6
  a : BitVec 6
  ta : Bool
  n : BitVec 6
  g : BitVec 3
  deriving DecidableEq, Repr

/-- Format I of CMPI (R261). -/
structure OpCmpi where
  mode : BitVec 3
  p : BitVec 3
  a : BitVec 6
  ta : Bool
  imm : BitVec 7
  g : BitVec 3
  deriving DecidableEq, Repr

/-- Format L (R258, R260). -/
structure OpL where
  d : BitVec 6
  imm : BitVec 17
  g : BitVec 3
  deriving DecidableEq, Repr

/-- Format L of MOVH (R259). -/
structure OpL16 where
  d : BitVec 6
  imm : BitVec 16
  g : BitVec 3
  deriving DecidableEq, Repr

/-- Format B (R264). -/
structure OpB where
  off : BitVec 23
  g : BitVec 3
  deriving DecidableEq, Repr

/-- Format BF; `len1` is LEN - 1 (R255). -/
structure OpBF where
  d : BitVec 6
  a : BitVec 6
  pos : BitVec 6
  len1 : BitVec 5
  g : BitVec 3
  deriving DecidableEq, Repr

/-- REPF; `times1` is TIMES - 1 and `len1` is LEN - 1 (R229). -/
structure OpRepf where
  times1 : BitVec 6
  sd : BitVec 2
  sa : BitVec 2
  sb : BitVec 2
  len1 : BitVec 4
  g : BitVec 3
  deriving DecidableEq, Repr

/-- Format M with SZ; `ta` is bit 13 (R227). -/
structure OpM where
  d : BitVec 6
  a : BitVec 6
  ta : Bool
  sz : BitVec 2
  off : BitVec 8
  g : BitVec 3
  deriving DecidableEq, Repr

/-- Format M of SYNC and RMT. -/
structure OpMS where
  d : BitVec 6
  a : BitVec 6
  ta : Bool
  off : BitVec 8
  g : BitVec 3
  deriving DecidableEq, Repr

/-- SETE. -/
structure OpMA where
  a : BitVec 6
  ta : Bool
  off : BitVec 8
  g : BitVec 3
  deriving DecidableEq, Repr

/-- STGM; the byte mask in OFF8. -/
structure OpStgm where
  d : BitVec 6
  a : BitVec 6
  mask : BitVec 8
  g : BitVec 3
  deriving DecidableEq, Repr

/-- FENCE (R283). -/
structure OpFence where
  kind : BitVec 2
  scope : BitVec 5
  g : BitVec 3
  deriving DecidableEq, Repr

/-- BAR (R284). -/
structure OpBar where
  level : BitVec 3
  g : BitVec 3
  deriving DecidableEq, Repr

/-- QBIND (R287). -/
structure OpQbind where
  a : BitVec 6
  kind : BitVec 3
  qn : BitVec 4
  g : BitVec 3
  deriving DecidableEq, Repr

/-- QSTAT, QFLUSH, QUNBIND (R287). -/
structure OpQd where
  d : BitVec 6
  qn : BitVec 4
  g : BitVec 3
  deriving DecidableEq, Repr

/-- Format VM (R297). -/
structure OpVM where
  vd : BitVec 4
  a : BitVec 6
  off : BitVec 5
  k : BitVec 2
  g : BitVec 3
  deriving DecidableEq, Repr

/-- Format VM of VLDB. -/
structure OpVMb where
  vd : BitVec 4
  a : BitVec 6
  off : BitVec 5
  k : BitVec 2
  m3 : BitVec 3
  g : BitVec 3
  deriving DecidableEq, Repr

/-- Format V with M3. -/
structure OpV where
  vd : BitVec 4
  va : BitVec 4
  vb : BitVec 4
  t : BitVec 3
  k : BitVec 2
  m3 : BitVec 3
  g : BitVec 3
  deriving DecidableEq, Repr

/-- Format V, M3 zero. -/
structure OpVt where
  vd : BitVec 4
  va : BitVec 4
  vb : BitVec 4
  t : BitVec 3
  k : BitVec 2
  g : BitVec 3
  deriving DecidableEq, Repr

/-- VABS, VNEG. -/
structure OpVabs where
  vd : BitVec 4
  va : BitVec 4
  t : BitVec 3
  k : BitVec 2
  g : BitVec 3
  deriving DecidableEq, Repr

/-- VCMP (R300). -/
structure OpVcmp where
  mode : BitVec 2
  kt : BitVec 2
  va : BitVec 4
  vb : BitVec 4
  t : BitVec 3
  k : BitVec 2
  m3 : BitVec 3
  g : BitVec 3
  deriving DecidableEq, Repr

/-- VCMP.UNORD. -/
structure OpVcmpU where
  mode : BitVec 2
  kt : BitVec 2
  va : BitVec 4
  vb : BitVec 4
  t : BitVec 3
  k : BitVec 2
  g : BitVec 3
  deriving DecidableEq, Repr

/-- VREDADD (R301). -/
structure OpVredadd where
  d : BitVec 6
  va : BitVec 4
  k : BitVec 2
  t : BitVec 3
  rnd : BitVec 3
  g : BitVec 3
  deriving DecidableEq, Repr

/-- VREDMAX, VREDMIN, VBCST. -/
structure OpVred where
  d : BitVec 6
  va : BitVec 4
  k : BitVec 2
  t : BitVec 3
  g : BitVec 3
  deriving DecidableEq, Repr

/-- VEXT, VINS. -/
structure OpVidx where
  d : BitVec 6
  va : BitVec 4
  t : BitVec 3
  imm : BitVec 5
  g : BitVec 3
  deriving DecidableEq, Repr

/-- VDOT8. -/
structure OpVdot where
  d : BitVec 6
  va : BitVec 4
  k : BitVec 2
  g : BitVec 3
  deriving DecidableEq, Repr

/-- VPOPK. -/
structure OpVpopk where
  d : BitVec 6
  k : BitVec 2
  t : BitVec 3
  g : BitVec 3
  deriving DecidableEq, Repr

/-- VSEL, VAND, VOR, VXOR (T = 010). -/
structure OpVlog where
  vd : BitVec 4
  va : BitVec 4
  vb : BitVec 4
  k : BitVec 2
  g : BitVec 3
  deriving DecidableEq, Repr

/-- Format V with one source and M3. -/
structure OpVcvt where
  vd : BitVec 4
  va : BitVec 4
  t : BitVec 3
  k : BitVec 2
  m3 : BitVec 3
  g : BitVec 3
  deriving DecidableEq, Repr

/-- QBLK; `typ` is the block type. -/
structure OpQblk where
  vd : BitVec 4
  va : BitVec 4
  t : BitVec 3
  typ : BitVec 2
  g : BitVec 3
  deriving DecidableEq, Repr

/-- DQBLK. -/
structure OpDqblk where
  vd : BitVec 4
  va : BitVec 4
  t : BitVec 3
  g : BitVec 3
  deriving DecidableEq, Repr

/-- MLDW, MMA, MMAZ: `acc` is the accumulator, for MLDW the mode; `arg` is steps - 1. -/
structure OpMx where
  acc : BitVec 2
  slot : BitVec 4
  a : BitVec 6
  arg : BitVec 7
  g : BitVec 3
  deriving DecidableEq, Repr

/-- MST. -/
structure OpMst where
  acc : BitVec 2
  a : BitVec 6
  clr : Bool
  g : BitVec 3
  deriving DecidableEq, Repr

/-- MHINT. -/
structure OpMhint where
  arg : BitVec 7
  g : BitVec 3
  deriving DecidableEq, Repr

/-- MFMT. -/
structure OpMfmt where
  n : BitVec 2
  a : BitVec 6
  g : BitVec 3
  deriving DecidableEq, Repr

/-- MRD. -/
structure OpMrd where
  acc : BitVec 2
  vd : BitVec 4
  row : BitVec 4
  g : BitVec 3
  deriving DecidableEq, Repr

/-- ESET (R322). -/
structure OpEset where
  a : BitVec 6
  eng : BitVec 2
  field : BitVec 5
  g : BitVec 3
  deriving DecidableEq, Repr

/-- EGO, ECAN. -/
structure OpEng where
  eng : BitVec 2
  g : BitVec 3
  deriving DecidableEq, Repr

/-- ESTAT. -/
structure OpEstat where
  d : BitVec 6
  eng : BitVec 2
  g : BitVec 3
  deriving DecidableEq, Repr

/-- SEND, ENQ. -/
structure OpSend where
  d : BitVec 6
  a : BitVec 6
  rel : Bool
  g : BitVec 3
  deriving DecidableEq, Repr

/-- Format X with D and A. -/
structure OpDA where
  d : BitVec 6
  a : BitVec 6
  g : BitVec 3
  deriving DecidableEq, Repr

/-- One destination. -/
structure OpD where
  d : BitVec 6
  g : BitVec 3
  deriving DecidableEq, Repr

/-- One source. -/
structure OpA where
  a : BitVec 6
  g : BitVec 3
  deriving DecidableEq, Repr

/-- WIDF. -/
structure OpWidf where
  d : BitVec 6
  e : Bool
  j : BitVec 3
  g : BitVec 3
  deriving DecidableEq, Repr

/-- LDNEAR. -/
structure OpLdnear where
  d : BitVec 6
  a : BitVec 6
  x : Bool
  qn : BitVec 4
  g : BitVec 3
  deriving DecidableEq, Repr

/-- IXSTAT. -/
structure OpAq where
  a : BitVec 6
  qn : BitVec 4
  g : BitVec 3
  deriving DecidableEq, Repr

/-- NEIGH. -/
structure OpDAq where
  d : BitVec 6
  a : BitVec 6
  qn : BitVec 4
  g : BitVec 3
  deriving DecidableEq, Repr

/-- TRAP. -/
structure OpTrap where
  imm : BitVec 7
  g : BitVec 3
  deriving DecidableEq, Repr

/-- CSRR. -/
structure OpCsrr where
  d : BitVec 6
  csr : BitVec 7
  g : BitVec 3
  deriving DecidableEq, Repr

/-- CSRW, CSRS, CSRC. -/
structure OpCsrw where
  d : BitVec 6
  a : BitVec 6
  csr : BitVec 7
  g : BitVec 3
  deriving DecidableEq, Repr

/-- CTXSAVE. -/
structure OpCtxsave where
  d : BitVec 6
  a : BitVec 6
  parts : BitVec 5
  g : BitVec 3
  deriving DecidableEq, Repr

/-- CTXLOAD. -/
structure OpCtxload where
  d : BitVec 6
  a : BitVec 6
  go : Bool
  parts : BitVec 5
  g : BitVec 3
  deriving DecidableEq, Repr

/-- The arrays that an uncorrectable error can strike (R406, R407, R392, R393, R142), with the place struck. -/
inductive SoftErr where
  /-- A corrected error in an array of the seat's core: counted only (R406). -/
  | corrected (seat : Nat)
  /-- The scratchpad word at a cluster offset. -/
  | scratchpad (cluster off : Nat)
  /-- A general register of the thread on a seat. -/
  | gReg (seat : Nat) (n : Nat)
  /-- A vector register of the thread on a seat. -/
  | vReg (seat : Nat) (n : Nat)
  /-- The predicate word of the thread on a seat. -/
  | pwReg (seat : Nat)
  /-- A word of a home slice or of DRAM, by tier and physical address. -/
  | home (tier pa : Nat)
  /-- A word of a near-cache line. -/
  | nearCache (cluster : Nat) (asid : BitVec 16) (va : Nat)
  /-- A Ladder entry record, by index number and insert ordinal. -/
  | ladderEntry (index ord : Nat)
  /-- A weight slot of a tile. -/
  | weightSlot (tile slot : Nat)
  /-- A context in the context cache of a core, by its place in the run queue. -/
  | contextCache (core pos : Nat)
  /-- An instruction-cache line. -/
  | icacheLine (core : Nat) (asid : BitVec 16) (va : Nat)
  /-- A translation-cache entry of a station. -/
  | translation (station : Nat) (asid : BitVec 16) (va : Nat)
  /-- A head-cache entry of a queue (R392). -/
  | headCache (queue : Nat)
  /-- A queue record (R392). -/
  | queueRecord (queue : Nat)
  /-- A dependence counter of a die (R393). -/
  | depCounter (die ctr : Nat)
  /-- A record of a combining point, by its entry and its place in it (R142). -/
  | hoistRecord (entry pos : Nat)
  deriving DecidableEq, Repr

end Sys2Proof
end

