-- ==== Sys2Proof/Syntax.lean ====
section
/-!
DEFINITION. The instructions: one constructor for each row of spec/opcode_table.json, in its order. The 231 rows with an
encoding take the operands of their format; the other rows are the steps of the machine that no instruction word names
(events), and their operands say on what they act.
-/

namespace Sys2Proof

/-- One step of the H9 for each row of the opcode table. -/
inductive Instr where
  /-- ADD (R251): Adds two general registers modulo 2^64. -/
  | add (o : OpR)
  /-- SUB (R251): Subtracts g[B] from g[A] modulo 2^64. -/
  | sub (o : OpR)
  /-- AND (R251): Bitwise AND of two registers. -/
  | and (o : OpR)
  /-- OR (R251): Bitwise OR of two registers. -/
  | or (o : OpR)
  /-- XOR (R251): Bitwise XOR of two registers. -/
  | xor (o : OpR)
  /-- ANDN (R251): g[A] AND NOT g[B]. -/
  | andn (o : OpR)
  /-- ORN (R251): g[A] OR NOT g[B]. -/
  | orn (o : OpR)
  /-- XNOR (R251): NOT (g[A] XOR g[B]). -/
  | xnor (o : OpR)
  /-- SHL (R251): Logical shift left by g[B][5:0]. -/
  | shl (o : OpR)
  /-- SHR (R251): Logical shift right by g[B][5:0]. -/
  | shr (o : OpR)
  /-- SAR (R251): Arithmetic shift right by g[B][5:0]. -/
  | sar (o : OpR)
  /-- ROL (R251): Rotate left by g[B][5:0]. -/
  | rol (o : OpR)
  /-- MIN (R251): Signed minimum of two registers. -/
  | min (o : OpR)
  /-- MAX (R251): Signed maximum of two registers. -/
  | max (o : OpR)
  /-- MINU (R251): Unsigned minimum of two registers. -/
  | minu (o : OpR)
  /-- MAXU (R251): Unsigned maximum of two registers. -/
  | maxu (o : OpR)
  /-- MUL (R251): Low 64 bits of the product. -/
  | mul (o : OpR)
  /-- MULH (R251): High 64 bits of the signed product. -/
  | mulh (o : OpR)
  /-- MULHU (R251): High 64 bits of the unsigned product. -/
  | mulhu (o : OpR)
  /-- MULHSU (R251): High 64 bits of the signed-by-unsigned product. -/
  | mulhsu (o : OpR)
  /-- DIV (R252): Signed division truncated toward zero, with fixed corner cases. -/
  | div (o : OpR)
  /-- DIVU (R252): Unsigned division, with fixed corner cases. -/
  | divu (o : OpR)
  /-- REM (R252): Signed remainder carrying the dividend's sign. -/
  | rem (o : OpR)
  /-- REMU (R252): Unsigned remainder. -/
  | remu (o : OpR)
  /-- CLZ (R253): Counts the leading zero bits. -/
  | clz (o : OpRDA)
  /-- CTZ (R253): Counts the trailing zero bits. -/
  | ctz (o : OpRDA)
  /-- POPC (R253): Counts the one bits. -/
  | popc (o : OpRDA)
  /-- BREV (R253): Reverses the bit order. -/
  | brev (o : OpRDA)
  /-- BSWAP (R253): Reverses the byte order. -/
  | bswap (o : OpRDA)
  /-- SEXT (R253): Sign-extends g[A] from bit g[B][5:0]. -/
  | sext (o : OpR)
  /-- ZEXT (R253): Zero-extends g[A] from bit g[B][5:0]. -/
  | zext (o : OpR)
  /-- ABS (R253): Absolute value, wrapping at the most negative value. -/
  | abs (o : OpRDA)
  /-- CMP_EQ (R261): Writes a predicate from g[A] = g[B] under the mode. -/
  | cmpEq (o : OpCmp)
  /-- CMP_NE (R261): Writes a predicate from g[A] != g[B] under the mode. -/
  | cmpNe (o : OpCmp)
  /-- CMP_LT (R261): Writes a predicate from a signed less-than. -/
  | cmpLt (o : OpCmp)
  /-- CMP_GE (R261): Writes a predicate from a signed greater-or-equal. -/
  | cmpGe (o : OpCmp)
  /-- CMP_LTU (R261): Writes a predicate from an unsigned less-than. -/
  | cmpLtu (o : OpCmp)
  /-- CMP_GEU (R261): Writes a predicate from an unsigned greater-or-equal. -/
  | cmpGeu (o : OpCmp)
  /-- CMP_TST (R261): Writes a predicate from (g[A] and g[B]) != 0. -/
  | cmpTst (o : OpCmp)
  /-- CMP_TSTN (R261): Writes a predicate from (g[A] and g[B]) = 0. -/
  | cmpTstn (o : OpCmp)
  /-- LEA1 (R254): g[A] + g[B] modulo 2^64. -/
  | lea1 (o : OpR)
  /-- LEA2 (R254): g[A] + 2 g[B] modulo 2^64. -/
  | lea2 (o : OpR)
  /-- LEA4 (R254): g[A] + 4 g[B] modulo 2^64. -/
  | lea4 (o : OpR)
  /-- LEA8 (R254): g[A] + 8 g[B] modulo 2^64. -/
  | lea8 (o : OpR)
  /-- ADDS (R254): Signed saturating add, counting clamps in SATCNT. -/
  | adds (o : OpR)
  /-- SUBS (R254): Signed saturating subtract. -/
  | subs (o : OpR)
  /-- ADDUS (R254): Unsigned saturating add. -/
  | addus (o : OpR)
  /-- SUBUS (R254): Unsigned saturating subtract. -/
  | subus (o : OpR)
  /-- BFS (R255): Extracts a bit field and sign-extends it. -/
  | bfs (o : OpBF)
  /-- BFX (R255): Extracts a bit field and zero-extends it. -/
  | bfx (o : OpBF)
  /-- ADDI (R256): Adds a sign-extended 10-bit immediate. -/
  | addi (o : OpI)
  /-- ANDI (R256): ANDs with a sign-extended immediate. -/
  | andi (o : OpI)
  /-- ORI (R256): ORs with a sign-extended immediate. -/
  | ori (o : OpI)
  /-- XORI (R256): XORs with a sign-extended immediate. -/
  | xori (o : OpI)
  /-- MULI (R256): Multiplies by a sign-extended immediate. -/
  | muli (o : OpI)
  /-- SHLI (R257): Shift left by an immediate amount. -/
  | shli (o : OpShi)
  /-- SHRI (R257): Logical shift right by an immediate amount. -/
  | shri (o : OpShi)
  /-- SARI (R257): Arithmetic shift right by an immediate amount. -/
  | sari (o : OpShi)
  /-- ROLI (R257): Rotate left by an immediate amount. -/
  | roli (o : OpShi)
  /-- CMPI_EQ (R261): Predicate from equality with a 7-bit immediate. -/
  | cmpiEq (o : OpCmpi)
  /-- CMPI_NE (R261): Predicate from inequality with an immediate. -/
  | cmpiNe (o : OpCmpi)
  /-- CMPI_LT (R261): Predicate from a signed less-than an immediate. -/
  | cmpiLt (o : OpCmpi)
  /-- CMPI_GE (R261): Predicate from a signed greater-or-equal an immediate. -/
  | cmpiGe (o : OpCmpi)
  /-- CMPI_LTU (R261): Predicate from an unsigned less-than an immediate. -/
  | cmpiLtu (o : OpCmpi)
  /-- CMPI_GEU (R261): Predicate from an unsigned greater-or-equal an immediate. -/
  | cmpiGeu (o : OpCmpi)
  /-- CMPI_TST (R261): Predicate from a non-zero AND with an immediate. -/
  | cmpiTst (o : OpCmpi)
  /-- CMPI_TSTN (R261): Predicate from a zero AND with an immediate. -/
  | cmpiTstn (o : OpCmpi)
  /-- MOVI (R258): Writes a sign-extended 17-bit immediate. -/
  | movi (o : OpL)
  /-- MOVH (R259): Shifts g[D] left 16 bits and inserts a 16-bit immediate. -/
  | movh (o : OpL16)
  /-- PCREL (R260): Writes PC plus four times a sign-extended immediate. -/
  | pcrel (o : OpL)
  /-- BR (R264): Branches PC-relative after the target check. -/
  | br (o : OpB)
  /-- CALL (R264): Writes the link to g23 and branches PC-relative. -/
  | call (o : OpB)
  /-- JR (R265): Jumps to the address in g[A]. -/
  | jr (o : OpRA)
  /-- JALR (R265): Jumps to g[A] and writes the link to g[D]. -/
  | jalr (o : OpRDA)
  /-- RET (R265): Jumps to the address in g23. -/
  | ret (o : OpG)
  /-- REPF (R229): Captures the next LEN instructions and runs them TIMES times with strided register fields. -/
  | repf (o : OpRepf)
  /-- PAND (R263): ANDs two predicates. -/
  | pand (o : OpP3)
  /-- POR (R263): ORs two predicates. -/
  | por (o : OpP3)
  /-- PXOR (R263): XORs two predicates. -/
  | pxor (o : OpP3)
  /-- PNOT (R263): Inverts a predicate. -/
  | pnot (o : OpP2)
  /-- PGET (R263): Copies pw into a register. -/
  | pget (o : OpD)
  /-- PSET (R263): Writes pw from a register, keeping p0 and the reserved byte. -/
  | pset (o : OpRA)
  /-- KMOV (R263): Copies one lane mask to another. -/
  | kmov (o : OpK2)
  /-- LDL (R273): Loads 1-8 bytes of local space, zero-extended. -/
  | ldl (o : OpM)
  /-- LDLS (R273): Loads 1-4 bytes of local space, sign-extended. -/
  | ldls (o : OpM)
  /-- STL (R273): Stores 1-8 bytes to local space. -/
  | stl (o : OpM)
  /-- LDG (R274): Loads global memory, zero-extended, through the near cache when anchored. -/
  | ldg (o : OpM)
  /-- LDGS (R274): Loads global memory, sign-extended. -/
  | ldgs (o : OpM)
  /-- STG (R274): Stores to global memory, merging into the near cache when anchored. -/
  | stg (o : OpM)
  /-- LDW (R46): Waits until a local word is full and reads it, leaving it full. -/
  | ldw (o : OpMS)
  /-- LDE (R46): Waits until a local word is full, reads it and sets it empty. -/
  | lde (o : OpMS)
  /-- STF (R46): Waits until a local word is empty, writes it and sets it full. -/
  | stf (o : OpMS)
  /-- SETE (R46): Sets a local word empty. -/
  | sete (o : OpMA)
  /-- LDR (R277): Reads a word of a cluster's scratchpad by mesh address. -/
  | ldr (o : OpMS)
  /-- STR (R277): Writes a word of a cluster's scratchpad by mesh address. -/
  | str (o : OpMS)
  /-- LDRE (R51): Sends an LDE to a remote word, waiting at the owner. -/
  | ldre (o : OpMS)
  /-- STRF (R51): Sends an STF to a remote word, waiting at the owner. -/
  | strf (o : OpMS)
  /-- STGM (R275): Writes the masked bytes of a global word at its home station. -/
  | stgm (o : OpStgm)
  /-- FAAL (R279): Local fetch-and-add in one bank cycle. -/
  | faal (o : OpR)
  /-- SWAPL (R279): Local swap in one bank cycle. -/
  | swapl (o : OpR)
  /-- CASL (R279): Local compare-and-swap in one bank cycle. -/
  | casl (o : OpR)
  /-- FANDL (R279): Local fetch-and-AND. -/
  | fandl (o : OpR)
  /-- FORL (R279): Local fetch-and-OR. -/
  | forl (o : OpR)
  /-- FXORL (R279): Local fetch-and-XOR. -/
  | fxorl (o : OpR)
  /-- FMINL (R279): Local fetch-and-signed-minimum. -/
  | fminl (o : OpR)
  /-- FMAXL (R279): Local fetch-and-signed-maximum. -/
  | fmaxl (o : OpR)
  /-- FAA (R280): Combinable global fetch-and-add performed at the home slice. -/
  | faa (o : OpR)
  /-- SWAP (R280): Global swap at the home slice. -/
  | swap (o : OpR)
  /-- CAS (R280): Global compare-and-swap at the home slice. -/
  | cas (o : OpR)
  /-- LR (R131): Requests a reservation on a global word and reads it when granted. -/
  | lr (o : OpRDA)
  /-- SC (R132): Writes a reserved word and releases it if the reservation is live. -/
  | sc (o : OpR)
  /-- AMAX (R280): Global fetch-and-signed-maximum. -/
  | amax (o : OpR)
  /-- WAITRS (R133): Watches up to four global granules and reports the first written. -/
  | waitrs (o : OpR)
  /-- RSVREL (R132): Releases the thread's reservation without writing. -/
  | rsvrel (o : OpRA)
  /-- RADD_I64 (R128): Global integer add reduction. -/
  | raddI64 (o : OpRed)
  /-- RADD_F32 (R128): Global binary32 add reduction on the low half. -/
  | raddF32 (o : OpRed)
  /-- RADD_F64 (R128): Global binary64 add reduction. -/
  | raddF64 (o : OpRed)
  /-- RMIN (R128): Global signed minimum reduction. -/
  | rmin (o : OpRed)
  /-- RMAX (R128): Global signed maximum reduction. -/
  | rmax (o : OpRed)
  /-- RAND (R128): Global bitwise AND reduction. -/
  | rand (o : OpRed)
  /-- ROR (R128): Global bitwise OR reduction. -/
  | ror (o : OpRed)
  /-- RXOR (R128): Global bitwise XOR reduction. -/
  | rxor (o : OpRed)
  /-- FENCE (R283): Performs a release, an acquire or both at the named scope. -/
  | fence (o : OpFence)
  /-- BAR (R285): Barrier over the level-L group with a full fence. -/
  | bar (o : OpBar)
  /-- QBIND (R288): Binds a queue register of the core to a kind. -/
  | qbind (o : OpQbind)
  /-- QSTAT (R290): Reads the status word of a queue register. -/
  | qstat (o : OpQd)
  /-- QFLUSH (R291): Discards the visible and spilled words of a queue register. -/
  | qflush (o : OpQd)
  /-- QUNBIND (R291): Flushes and unbinds a queue register. -/
  | qunbind (o : OpQd)
  /-- VLDL (R297): Loads 64 bytes of local space into a vector register. -/
  | vldl (o : OpVM)
  /-- VSTL (R297): Stores the active granules of a vector register to local space. -/
  | vstl (o : OpVM)
  /-- VLDG (R297): Loads a 64-byte global granule into a vector register. -/
  | vldg (o : OpVM)
  /-- VSTG (R297): Byte-masked 64-byte global store. -/
  | vstg (o : OpVM)
  /-- VGATL (R298): Gathers 16 local 32-bit lanes by index. -/
  | vgatl (o : OpVM)
  /-- VSCAL (R298): Scatters 16 32-bit lanes to local space by index. -/
  | vscal (o : OpVM)
  /-- VLDB (R297): Loads 64 local bytes and replicates their first P bytes. -/
  | vldb (o : OpVMb)
  /-- VFA_VADD (R299): Floating vector add, rounded by M3. -/
  | vfaVadd (o : OpV)
  /-- VFA_VSUB (R299): Floating vector subtract. -/
  | vfaVsub (o : OpV)
  /-- VFA_VMUL (R299): Floating vector multiply. -/
  | vfaVmul (o : OpV)
  /-- VFMA (R299): Floating fused multiply-add with one rounding. -/
  | vfma (o : OpV)
  /-- VFA_VMIN (R299): Floating minimumNumber per element. -/
  | vfaVmin (o : OpVt)
  /-- VFA_VMAX (R299): Floating maximumNumber per element. -/
  | vfaVmax (o : OpVt)
  /-- VABS (R299): Clears the sign bit of each element. -/
  | vabs (o : OpVabs)
  /-- VNEG (R299): Inverts the sign bit of each element. -/
  | vneg (o : OpVabs)
  /-- VIA_VADD (R299): Integer vector add. -/
  | viaVadd (o : OpVt)
  /-- VIA_VSUB (R299): Integer vector subtract. -/
  | viaVsub (o : OpVt)
  /-- VIA_VMUL (R299): Integer vector multiply, low bits. -/
  | viaVmul (o : OpVt)
  /-- VMAD (R299): Integer multiply-add into the destination. -/
  | vmad (o : OpVt)
  /-- VIA_VMIN (R299): Integer minimum, signed or unsigned by M3. -/
  | viaVmin (o : OpV)
  /-- VIA_VMAX (R299): Integer maximum, signed or unsigned by M3. -/
  | viaVmax (o : OpV)
  /-- VADDS (R299): Integer saturating add counted in SATCNT. -/
  | vadds (o : OpV)
  /-- VSHL (R299): Integer shift left by element. -/
  | vshl (o : OpVt)
  /-- VCMP_EQ (R300): Writes a lane mask from elementwise equality. -/
  | vcmpEq (o : OpVcmp)
  /-- VCMP_NE (R300): Writes a lane mask from elementwise inequality. -/
  | vcmpNe (o : OpVcmp)
  /-- VCMP_LT (R300): Writes a lane mask from less-than. -/
  | vcmpLt (o : OpVcmp)
  /-- VCMP_LE (R300): Writes a lane mask from less-or-equal. -/
  | vcmpLe (o : OpVcmp)
  /-- VCMP_GT (R300): Writes a lane mask from greater-than. -/
  | vcmpGt (o : OpVcmp)
  /-- VCMP_GE (R300): Writes a lane mask from greater-or-equal. -/
  | vcmpGe (o : OpVcmp)
  /-- VCMP_UNORD (R300): Writes a lane mask from an unordered floating comparison. -/
  | vcmpUnord (o : OpVcmpU)
  /-- VREDADD (R301): Sums the elements by the fixed tree into a general register. -/
  | vredadd (o : OpVredadd)
  /-- VREDMAX (R301): Maximum of the elements by the tree. -/
  | vredmax (o : OpVred)
  /-- VREDMIN (R301): Minimum of the elements by the tree. -/
  | vredmin (o : OpVred)
  /-- VEXT (R301): Extracts one element into a general register. -/
  | vext (o : OpVidx)
  /-- VINS (R301): Inserts a general register into one element. -/
  | vins (o : OpVidx)
  /-- VBCST (R301): Broadcasts a general register into active elements. -/
  | vbcst (o : OpVred)
  /-- VDOT8 (R301): Accumulates an i8 dot product into a general register. -/
  | vdot8 (o : OpVdot)
  /-- VPOPK (R301): Counts the elements that a mask makes active. -/
  | vpopk (o : OpVpopk)
  /-- VSEL (R302): Selects granules of two registers by mask. -/
  | vsel (o : OpVlog)
  /-- VSHUF (R302): Permutes elements by index. -/
  | vshuf (o : OpVt)
  /-- VZIP (R302): Interleaves halves of two registers. -/
  | vzip (o : OpV)
  /-- VUNZIP (R302): De-interleaves even or odd elements. -/
  | vunzip (o : OpV)
  /-- VAND (R302): Bitwise AND on active granules. -/
  | vand (o : OpVlog)
  /-- VOR (R302): Bitwise OR on active granules. -/
  | vor (o : OpVlog)
  /-- VXOR (R302): Bitwise XOR on active granules. -/
  | vxor (o : OpVlog)
  /-- VSHR (R302): Logical or arithmetic shift right by element. -/
  | vshr (o : OpV)
  /-- CVT (R303): Converts elements to the format named by M3. -/
  | cvt (o : OpVcvt)
  /-- QBLK (R304): Quantises 32 inputs into one 4-bit block. -/
  | qblk (o : OpQblk)
  /-- DQBLK (R305): Dequantises a 4-bit block into 32 values. -/
  | dqblk (o : OpDqblk)
  /-- VRND (R306): Rounds each element to an integral value. -/
  | vrnd (o : OpVcvt)
  /-- VRCP (R307): Reciprocal of each element. -/
  | vrcp (o : OpVcvt)
  /-- VRSQ (R307): Reciprocal square root of each element. -/
  | vrsq (o : OpVcvt)
  /-- VEX2 (R307): Base-2 exponential of each element. -/
  | vex2 (o : OpVcvt)
  /-- VLG2 (R307): Base-2 logarithm of each element. -/
  | vlg2 (o : OpVcvt)
  /-- VSQRT (R307): Square root of each element. -/
  | vsqrt (o : OpVcvt)
  /-- MLDW (R314): Loads a weight slot from local memory in one of three modes. -/
  | mldw (o : OpMx)
  /-- MMA (R315): Accumulates K-steps of A and a weight slot into an accumulator. -/
  | mma (o : OpMx)
  /-- MMAZ (R315): As MMA after zeroing the accumulator. -/
  | mmaz (o : OpMx)
  /-- MST (R318): Stores an accumulator, scaled and converted, with a saturation count. -/
  | mst (o : OpMst)
  /-- MHINT (R317): Opens a hold window of the matrix unit, ramping it from IDLE. -/
  | mhint (o : OpMhint)
  /-- MFMT (R312): Reads a format descriptor and sets a format shadow. -/
  | mfmt (o : OpMfmt)
  /-- MRD (R319): Copies one accumulator row into a vector register. -/
  | mrd (o : OpMrd)
  /-- ESET (R323): Writes one field of the seat's shadow for an engine. -/
  | eset (o : OpEset)
  /-- EGO (R327): Checks the shadow, releases and commits it to the engine. -/
  | ego (o : OpEng)
  /-- ESTAT (R328): Reads the seat's status at an engine. -/
  | estat (o : OpEstat)
  /-- ECAN (R329): Cancels the seat's committed and active operations at an engine. -/
  | ecan (o : OpEng)
  /-- SEND (R331): Sends eight words to a seat's core inbox as a class 3 packet. -/
  | send (o : OpSend)
  /-- RECV (R332): Takes an inbox entry into eight registers and acquires. -/
  | recv (o : OpDA)
  /-- ENQ (R333): Sends a work packet to a dispatch queue. -/
  | enq (o : OpSend)
  /-- SPAWN (R334): Writes a task packet into the issuing launch's queue. -/
  | spawn (o : OpD)
  /-- EXIT (R335): Releases, drops reservations and square, frees the seat and ends the thread. -/
  | exit (o : OpG)
  /-- WIDF (R336): Reads a work-identifier field or its extent. -/
  | widf (o : OpWidf)
  /-- IBXS (R337): Reads the inbox status for the seat. -/
  | ibxs (o : OpD)
  /-- STVEC (R341): Inserts a vector and payload into a Ladder index. -/
  | stvec (o : OpDA)
  /-- LDNEAR (R342): Searches an index for the nearest entries into a result stream. -/
  | ldnear (o : OpLdnear)
  /-- DELVEC (R343): Deletes the entry of an insert ordinal. -/
  | delvec (o : OpDA)
  /-- IXPIN (R344): Takes an explicit pin at the highest committed ordinal. -/
  | ixpin (o : OpDA)
  /-- IXUNPIN (R344): Releases one explicit pin of a snapshot. -/
  | ixunpin (o : OpDA)
  /-- IXSTAT (R345): Delivers the nine index state words to a result stream. -/
  | ixstat (o : OpAq)
  /-- SETPOS (R349): Sets the board position and moves the thread's square entry, migrating if needed. -/
  | setpos (o : OpDA)
  /-- NEIGH (R350): Enumerates threads within a radius into a result stream. -/
  | neigh (o : OpDAq)
  /-- CELLQ (R351): Reads the status of the thread's square. -/
  | cellq (o : OpD)
  /-- MIGR (R352): Migrates the thread to a core of the launch. -/
  | migr (o : OpA)
  /-- ANCHOR (R353): Makes the thread anchored, granting weight slots. -/
  | anchor (o : OpG)
  /-- UNANCHOR (R353): Makes an anchored thread roaming or position-bound, freeing matrix state. -/
  | unanchor (o : OpG)
  /-- CELLSYNC (R354): Launch-wide barrier that merges split squares. -/
  | cellsync (o : OpG)
  /-- ILL (R245): Traps ILLOP subcode 0x05. -/
  | ill
  /-- NOP (R358): Does nothing but advance PC. -/
  | nop (o : OpG)
  /-- IFENCE (R359): Releases at scope 6 and invalidates the ASID's instruction-cache lines. -/
  | ifence (o : OpG)
  /-- ERET (R369): Returns from a trap, recapturing a frame if one is active. -/
  | eret (o : OpG)
  /-- HALT (R361): Sets the seat's HALT bit so it issues no more. -/
  | halt (o : OpG)
  /-- WFE (R360): Waits for the thread's EVENT bit or the wait limit. -/
  | wfe (o : OpG)
  /-- DBGBRK (R362): Break-halts if armed, otherwise traps BREAK. -/
  | dbgbrk (o : OpG)
  /-- TRAP (R358): Traps TRAPI with the immediate as subcode. -/
  | trap (o : OpTrap)
  /-- CSRR (R364): Reads a CSR. -/
  | csrr (o : OpCsrr)
  /-- CSRW (R364): Writes a CSR and returns its old value. -/
  | csrw (o : OpCsrw)
  /-- CSRS (R364): Sets CSR bits and returns the old value. -/
  | csrs (o : OpCsrw)
  /-- CSRC (R364): Clears CSR bits and returns the old value. -/
  | csrc (o : OpCsrw)
  /-- CTXSAVE (R374): Saves selected parts of a stopped seat's thread to a save area. -/
  | ctxsave (o : OpCtxsave)
  /-- CTXLOAD (R376): Loads a saved context into an empty stopped seat, optionally starting it. -/
  | ctxload (o : OpCtxload)
  /-- SEATCTL_STAT (R371): Reads the status word of a seat of the core. -/
  | seatctlStat (o : OpDA)
  /-- SEATCTL_STOP (R371): Stops a seat, or its whole role group. -/
  | seatctlStop (o : OpDA)
  /-- SEATCTL_START (R371): Clears STOP, HALT and TSTOP of a seat. -/
  | seatctlStart (o : OpDA)
  /-- SEATCTL_WAKE (R371): Sets the target thread's EVENT bit. -/
  | seatctlWake (o : OpDA)
  /-- TIMER (R370): The seat timer reaches zero and TIMER is taken before the next issue. -/
  | timer (seat : Nat)
  /-- WAITLIM_EXPIRY (R49): A parked SYNC attempt finds WAITED above LIMIT and traps WAITLIM at the next turn. -/
  | waitlimExpiry (seat : Nat)
  /-- BARRIER_WAIT_LIMIT (R285): A parked BAR or CELLSYNC exceeds its limit, withdraws its arrival and traps WAITLIM. -/
  | barrierWaitLimit (seat : Nat)
  /-- BANK_SERVICE (R37): A bank serves its earliest waiting access, performing it in one cycle. -/
  | bankService (bank : Nat)
  /-- MESH_REQUEST_ACCEPT (R20): The target interface checks a mesh request against the block owner table and performs or refuses it. -/
  | meshRequestAccept (req : Nat)
  /-- WAIT_TABLE_ATTEMPT (R52): A change of a word's state makes a new attempt for the oldest remote waiter on it. -/
  | waitTableAttempt (cluster : Nat) (off : Nat)
  /-- WAIT_BUDGET_BOUNDARY (R52): At each 1,024-cycle boundary an exhausted wait-table entry is answered with a limit reply, others lose one unit. -/
  | waitBudgetBoundary (cluster : Nat) (req : Nat)
  /-- NACK_RESEND (R152): A NACKed request is resent 128 cycles after the NACK arrives. -/
  | nackResend (req : Nat)
  /-- REGISTER_FILL (R196): An answer fills a pending register full or poisoned wherever the context resides. -/
  | registerFill (req : Nat)
  /-- ACKNOWLEDGEMENT (R78): An acknowledgement or fault reply of a store-class request reaches the requester. -/
  | acknowledgement (req : Nat)
  /-- LIMIT_REPLY (R54): A limit reply reaches LDRE as a marker or STRF as a deferred fault. -/
  | limitReply (req : Nat)
  /-- HELD_NOTICE (R140): A class 0 held notice stops the requester's NOREPLY timer for the request. -/
  | heldNotice (req : Nat)
  /-- COMBINED_NOTICE (R140): A combined notice restarts the requester's timer at 131,072 cycles. -/
  | combinedNotice (req : Nat)
  /-- NOREPLY (R141): A requester's NOREPLY timer expires and the request is reported lost. -/
  | noreply (req : Nat)
  /-- VALLOST (R142): The timer of a requester behind a damaged combining record expires and VALLOST is reported. -/
  | vallost (req : Nat)
  /-- COMBINING_POINT_TIMEOUT (R141): A combining point's timer on a combined request expires and it answers all its requesters as timed out. -/
  | combiningPointTimeout (entry : Nat)
  /-- FLIT_LOSS (R141): A flit that fails forward error correction drops its whole packet without notice. -/
  | flitLoss (req : Nat)
  /-- STATION_REQUEST (R63): A request arrives at its home station, is translated, checked by R64 and performed or held. -/
  | stationRequest (req : Nat)
  /-- TABLE_WALK (R63): A page-table walk completes and its merged misses are checked and performed. -/
  | tableWalk (req : Nat)
  /-- HELD_REPLAY (R66): Held requests of a page are replayed in arrival order after its leaf change completes. -/
  | heldReplay (station : Nat) (asid : BitVec 16) (va : Nat)
  /-- RSVTIME_REVOCATION (R132): A reservation held RSVTIME cycles is revoked and the queued writes are performed. -/
  | rsvtimeRevocation (station : Nat) (va : Nat)
  /-- WAITRS_REPORT (R133): The first slot report reaching the requester fills g[D] and cancels the other watches. -/
  | waitrsReport (req : Nat) (slot : Nat)
  /-- WAITRS_LIMIT (R133): No report within (LIMIT+1)x1,024 cycles fills g[D] with -1. -/
  | waitrsLimit (req : Nat)
  /-- TIER_PIECE_COPY (R71): The tier copy engine copies one 4 KiB piece once no reservation is live on it. -/
  | tierPieceCopy (move : Nat)
  /-- NEAR_CACHE_PROBE (R65): A class 5 probe writes back and invalidates a cluster's near-cache lines of a range. -/
  | nearCacheProbe (cluster : Nat) (asid : BitVec 16) (va : Nat) (size : Nat)
  /-- TRANSLATION_INVALIDATE (R65): A station invalidates a translation entry and reports when old requests are performed. -/
  | translationInvalidate (station : Nat) (asid : BitVec 16) (va : Nat) (size : Nat)
  /-- NEAR_CACHE_FILL (R75): A 64-byte fill reply arrives and the line is allocated or the data returned. -/
  | nearCacheFill (req : Nat)
  /-- WRITE_BACK_LOSS (R470): A write-back's 65,536-cycle timer expires; the dirty bytes are dropped and a fatal record written. -/
  | writeBackLoss (req : Nat)
  /-- COMBINER_MERGE (R135): A combinable request arriving at the cluster combiner opens or joins an entry. -/
  | combinerMerge (req : Nat)
  /-- COMBINER_SEND (R135): A combiner entry is sent as one request after 16 cycles. -/
  | combinerSend (entry : Nat)
  /-- ROUTER_COMBINE (R136): A router merges two combinable flits meeting in one network cycle. -/
  | routerCombine (reqA : Nat) (reqB : Nat) (router : Nat)
  /-- REPLY_SPLIT (R137): A reply reaching a combining point is split among its requesters. -/
  | replySplit (entry : Nat)
  /-- ENGINE_SHADOW_TAKE (R144): An engine takes a committed shadow into its active set in EGO order. -/
  | engineShadowTake (eng : Nat)
  /-- STREAM_PUSH (R145): A copy engine pushes a stream element when the queue has room, or to the overflow area. -/
  | streamPush (eng : Nat)
  /-- COLLECTIVE_START (R146): A collective operation starts when every participant has committed. -/
  | collectiveStart (op : Nat)
  /-- COLLECTIVE_JOIN_TIMEOUT (R146): The join limit passes and the joined participants receive TIMEOUT. -/
  | collectiveJoinTimeout (op : Nat)
  /-- ENGINE_COMPLETION (R148): An operation ends and the engine sends its completion message to the completion core. -/
  | engineCompletion (eng : Nat)
  /-- COMPLETION_DROP (R155): A completion refused for 65,536 cycles is dropped with a fatal record. -/
  | completionDrop (eng : Nat)
  /-- INBOX_ARRIVAL (R158): A class 3 message or completion arrives at a core's inbox and is written, held or NACKed. -/
  | inboxArrival (msg : Nat)
  /-- INBOX_HELD_WRITE (R158): A held message or trap notice is written once ring space frees. -/
  | inboxHeldWrite (core : Nat)
  /-- PORT_WORD_ARRIVAL (R292): A port word arrives and is accepted, refused or NACKed by the receiving core. -/
  | portWordArrival (msg : Nat)
  /-- ENQ_ADMISSION (R163): A work packet arrives at a dispatch station and is written, refused, NACKed or dropped. -/
  | enqAdmission (msg : Nat)
  /-- RING_PACKET_FETCH (R379): A packet not in the head cache is fetched from the ring, or dropped on a fault. -/
  | ringPacketFetch (queue : Nat)
  /-- DISPATCH_SELECTION (R381): Each cycle a station selects one packet by priority and round-robin. -/
  | dispatchSelection (station : Nat)
  /-- EXPANSION (R382): A selected packet is expanded into threads and placed in run queues as space allows. -/
  | expansion (station : Nat) (slot : Nat)
  /-- RUN_QUEUE_ARRIVAL (R174): A thread context arrives at a core and enters its run queue or is NACKed. -/
  | runQueueArrival (mig : Nat)
  /-- SEAT_TAKE (R384): An empty unstopped seat takes the best context from the run queue at its turn. -/
  | seatTake (seat : Nat)
  /-- PARKSWAP (R385): A thread parked PARKSWAP cycles is swapped out for a ready context. -/
  | parkswap (seat : Nat)
  /-- INSTRUCTION_FETCH_FILL (R222): A missed instruction-cache line arrives and the seat may issue. -/
  | instructionFetchFill (req : Nat)
  /-- DESCRIPTOR_ARRIVAL (R311): A format descriptor word arrives and fills the shadow copy or traps. -/
  | descriptorArrival (req : Nat)
  /-- DEPENDENCE_DECREMENT (R388): A retiring task, launch completion or firmware decrements a dependence counter. -/
  | dependenceDecrement (die : Nat) (ctr : Nat)
  /-- SWEEP_PENNANT (R193): A sweep pennant gathers idle states and packet sums and may end a launch. -/
  | sweepPennant (launch : Nat)
  /-- LAUNCH_COMPLETION_DROP (R472): A launch completion refused for 65,536 cycles is dropped with a fatal record. -/
  | launchCompletionDrop (msg : Nat)
  /-- CANCEL_BROADCAST (R390): A job cancel reaches a station or core, recording the id and setting JOB.CANCELLED. -/
  | cancelBroadcast (job : Nat) (dest : Nat)
  /-- CANCEL (R391): After the grace period each seat of the job takes CANCEL. -/
  | cancel (seat : Nat)
  /-- TRAP_NOTICE (R397): The firmware records a trap notice and removes the thread from its seat. -/
  | trapNotice (seat : Nat)
  /-- SQUARE_HANDOVER (R187): A destination core admits an arriving position-bound thread into its new square. -/
  | squareHandover (mig : Nat)
  /-- DEPARTING_REMOVAL (R187): A class 0 notice removes a thread's departing entry from its old square. -/
  | departingRemoval (launch : Nat) (tid : Nat) (sq : Nat)
  /-- ADMISSION (R190): A thread in an admission queue is admitted as an occupant leaves. -/
  | admission (launch : Nat) (sq : Nat)
  /-- NEIGH_SQUARE_QUERY (R350): The interface asks the next square's owner for entries once the stream has room. -/
  | neighSquareQuery (req : Nat)
  /-- LADDER_ADMISSION (R86): The sequencer admits an index request in arrival order or NACKs it. -/
  | ladderAdmission (req : Nat)
  /-- INSERT_COMMIT (R88): An insert's entry and list changes are in place and STVEC's destination is filled. -/
  | insertCommit (req : Nat)
  /-- QUERY_PACKET (R102): A query packet reaches a Ladder engine and continues the traversal. -/
  | queryPacket (req : Nat)
  /-- RECLAMATION (R101): The sequencer reclaims a tombstone below the minimum live pin. -/
  | reclamation (index : Nat) (ord : Nat)
  /-- SAMPLED_RERUN (R104): A sampled search is re-run exhaustively and the recall words updated. -/
  | sampledRerun (req : Nat)
  /-- MATRIX_UNIT_TAKE (R315): The matrix unit takes an MMA after earlier unit instructions and checks it. -/
  | matrixUnitTake (tile : Nat)
  /-- K_STEP (R315): The unit takes one K-step once its operands are buffered and its state allows. -/
  | kStep (tile : Nat)
  /-- MATRIX_COMPLETION (R309): A matrix instruction completes and its seat rejoins the rotation. -/
  | matrixCompletion (tile : Nat)
  /-- RAMP_END (R317): After 64 cycles of RAMP the unit enters FULL. -/
  | rampEnd (tile : Nat)
  /-- HOLD_WINDOW_END (R317): A hold window expires and an idle unit goes to DOWN. -/
  | holdWindowEnd (tile : Nat)
  /-- DOWN_END (R317): After 64 filler cycles the unit goes to IDLE. -/
  | downEnd (tile : Nat)
  /-- CHECKPOINT (R410): A doublet compares states, writes the image and sends held global stores. -/
  | checkpoint (core : Nat) (seat : Nat)
  /-- CHECKPOINT_COMMIT (R410): Every store sent at a checkpoint is acknowledged and the checkpoint commits. -/
  | checkpointCommit (core : Nat) (seat : Nat)
  /-- DOUBLET_MISMATCH (R412): A doublet mismatch undoes the log and re-executes, or traps DOUBLET on repetition. -/
  | doubletMismatch (core : Nat) (seat : Nat)
  /-- BRIDGE_PACKET (R166): A fabric bridge accepts, routes or NACKs a packet. -/
  | bridgePacket (req : Nat)
  /-- DEVICE_RESET (R43): Device reset; the firmware sets every scratchpad word zero and full. -/
  | deviceReset
  /-- POWER_MEASUREMENT (R465): Every 100 us the firmware measures power and sets the throttle or stops all seats. -/
  | powerMeasurement (watts : Nat) (junction : Nat)
  /-- CMDTAIL_DOORBELL (R457): A host write of CMDTAIL makes the service core fetch new command entries. -/
  | cmdtailDoorbell (fn : Nat) (q : Nat) (val : BitVec 64)
  /-- QUEUE_ENABLE (R457): EN changing binds a command queue to its service core or stops its fetching. -/
  | queueEnable (fn : Nat) (q : Nat) (val : BitVec 64)
  /-- CPLHEAD_WRITE (R457): The host frees completion entries, letting held commands and notices proceed. -/
  | cplheadWrite (fn : Nat) (q : Nat) (val : BitVec 64)
  /-- EVLOST_CLEAR (R456): Writing one to EVLOST clears it. -/
  | evlostClear (fn : Nat) (q : Nat) (val : BitVec 64)
  /-- HOST_REGISTER_WRITE (R456): A host write to a queue register field without behaviour of its own. -/
  | hostRegisterWrite (fn : Nat) (off : Nat) (val : BitVec 64)
  /-- IDENT (R462): Writes the offered feature words, public key and fuse serial. -/
  | ident (fn : Nat) (q : Nat)
  /-- NEGOTIATE (R460): Accepts a feature set and enables exactly it. -/
  | negotiate (fn : Nat) (q : Nat)
  /-- DEVICE_SET (R462): Sets RSVTIME. -/
  | deviceSet (fn : Nat) (q : Nat)
  /-- POWER_CAP (R465): Sets the package power cap. -/
  | powerCap (fn : Nat) (q : Nat)
  /-- ATTEST (R466): Measures a range and writes a signed quote. -/
  | attest (fn : Nat) (q : Nat)
  /-- CTX_CREATE (R462): Creates a context with its flags, delegation mask and fault queue. -/
  | ctxCreate (fn : Nat) (q : Nat)
  /-- CTX_DESTROY (R461): Destroys a context. -/
  | ctxDestroy (fn : Nat) (q : Nat)
  /-- MAP (R462): Validates and installs leaves by R65, releasing held requests. -/
  | map (fn : Nat) (q : Nat)
  /-- UNMAP (R462): Makes pages invalid or not present. -/
  | unmap (fn : Nat) (q : Nat)
  /-- PAGE_MOVE (R70): Moves a 64 KiB page to another tier. -/
  | pageMove (fn : Nat) (q : Nat)
  /-- BLOCK_SET (R22): Changes a block owner entry, clearing a granted block and ending its remote waits. -/
  | blockSet (fn : Nat) (q : Nat)
  /-- MEM_COPY (R462): Copies between host memory and device global memory. -/
  | memCopy (fn : Nat) (q : Nat)
  /-- QUEUE_CREATE (R462): Creates a dispatch queue record and copies its template and core list. -/
  | queueCreate (fn : Nat) (q : Nat)
  /-- QUEUE_DESTROY (R462): Destroys a dispatch queue. -/
  | queueDestroy (fn : Nat) (q : Nat)
  /-- QUEUE_SUBMIT (R462): Admits a work packet as an ENQ. -/
  | queueSubmit (fn : Nat) (q : Nat)
  /-- SCOPE_SET (R462): Writes or clears a programmable scope entry. -/
  | scopeSet (fn : Nat) (q : Nat)
  /-- BOARD_SET (R462): Registers a board descriptor. -/
  | boardSet (fn : Nat) (q : Nat)
  /-- INDEX_CREATE (R80): Creates a Ladder index and maps its storage. -/
  | indexCreate (fn : Nat) (q : Nat)
  /-- INDEX_DESTROY (R82): Destroys an index after its admitted requests are answered. -/
  | indexDestroy (fn : Nat) (q : Nat)
  /-- GRAPH_CREATE (R462): Creates a task graph template. -/
  | graphCreate (fn : Nat) (q : Nat)
  /-- GRAPH_PATCH (R389): Patches a node of a graph version, blocking if both are live. -/
  | graphPatch (fn : Nat) (q : Nat)
  /-- GRAPH_REPLAY (R389): Replays a graph, loading counters and writing root packets. -/
  | graphReplay (fn : Nat) (q : Nat)
  /-- JOB_CANCEL (R390): Broadcasts a job cancel with a grace period. -/
  | jobCancel (fn : Nat) (q : Nat)
  /-- DEBUG_HALT (R414): Halts a seat. -/
  | debugHalt (fn : Nat) (q : Nat)
  /-- DEBUG_RESUME (R414): Resumes a halted seat. -/
  | debugResume (fn : Nat) (q : Nat)
  /-- DEBUG_REGREAD (R413): Reads a register or CSR of a seat. -/
  | debugRegread (fn : Nat) (q : Nat)
  /-- DEBUG_REGWRITE (R415): Writes a register, making it full and discarding older fills. -/
  | debugRegwrite (fn : Nat) (q : Nat)
  /-- DEBUG_LOCALREAD (R413): Reads a seat's local segment. -/
  | debugLocalread (fn : Nat) (q : Nat)
  /-- DEBUG_LOCALWRITE (R413): Writes a seat's local segment. -/
  | debugLocalwrite (fn : Nat) (q : Nat)
  /-- DEBUG_BREAKARM (R362): Arms break-halts for DBGBRK. -/
  | debugBreakarm (fn : Nat) (q : Nat)
  /-- DEBUG_BREAKOFF (R362): Disarms break-halts. -/
  | debugBreakoff (fn : Nat) (q : Nat)
  /-- UNASSIGNED_ENCODING (R243): Issue of a word that is no instruction: an unassigned major, reserved minor, illegal sub-field, non-zero reserved field or guarded ILL, which traps ILLOP or retires under a false guard. -/
  | unassignedEncoding (w : BitVec 32)
  /-- BADOP (R463): A command entry whose OPCODE is not in R462 is taken by a service core and completed with status BADOP. -/
  | badop (fn : Nat) (q : Nat)
  /-- HOST_LINK_DOWN (R64): The PCI Express host link goes down, after which host-tier accesses fault with GFAULT 0x14. -/
  | hostLinkDown
  /-- HOST_LINK_UP (R64): The PCI Express host link comes back up, and host-tier pages are served again. -/
  | hostLinkUp
  /-- HOST_ACCESS_COMPLETION (R59): The host link completes a forwarded host-tier access at a station, which then acknowledges or answers the device request. -/
  | hostAccessCompletion (req : Nat)
  /-- SOFT_ERROR (R407): A bit error arises in an SRAM or DRAM array: it is corrected and counted, or the word, register, record, entry or context is poisoned or lost as R407 gives. -/
  | softError (err : SoftErr)
  /-- ENGINE_ACCESS_REPLY (R148): A reply or acknowledgement to one access of an engine operation reaches its engine, which writes the data onward, advances DONE or stops on a failure. -/
  | engineAccessReply (eng : Nat)
  /-- RESULT_STREAM_ARRIVAL (R200): A result word of a search, state delivery or enumeration reaches the requester's core and is written into its result stream or spill area. -/
  | resultStreamArrival (req : Nat)
  deriving DecidableEq, Repr

end Sys2Proof
end

