-- ==== Sys2Proof/WellFormed.lean ====
section
/-!
DEFINITION. Which instruction terms are instructions: the legal values of CSR numbers, of T and M3, and of every sub-field
(R204, R205, R228, R242, and the description of each instruction). Each check bears the subcode of R243 that its failure takes.
-/

namespace Sys2Proof

/-- A CSR number of R205. -/
def csrAssigned (n : BitVec 7) : Bool := n ≤ 0x29 || (0x40 ≤ n && n ≤ 0x50)

/-- T is an integer type (R228). -/
def tInt (t : BitVec 3) : Bool := t ≤ 3
/-- T is a floating type (R228). -/
def tFloat (t : BitVec 3) : Bool := 4 ≤ t
/-- T is f16, bf16 or f32. -/
def tShort (t : BitVec 3) : Bool := 4 ≤ t && t ≤ 6
/-- The element count of T (R293). -/
def elemCount (t : BitVec 3) : Nat :=
  match t.toNat with
  | 0 => 64
  | 1 | 4 | 5 => 32
  | 2 | 6 => 16
  | _ => 8

/-- A reserved CSR number: subcode 0x06. -/
def Instr.csrBad : Instr → Bool
  | .csrr o => !csrAssigned o.csr
  | .csrw o | .csrs o | .csrc o => !csrAssigned o.csr
  | _ => false

/-- An M3 that a special function refuses: 111 always, and for f32 all but 000 and 001 (R307). -/
def sfuM3Bad (o : OpVcvt) : Bool := o.m3 == 7 || (o.t == 6 && !(o.m3 ≤ 1))

/-- A T or M3 value that the operation does not accept: subcode 0x03 (R228, R242, R297 to R307). -/
def Instr.typeBad : Instr → Bool
  | .vfaVadd o | .vfaVsub o | .vfaVmul o | .vfma o => !tFloat o.t || o.m3 == 7
  | .vfaVmin o | .vfaVmax o => !tFloat o.t
  | .vabs o | .vneg o => !tFloat o.t
  | .viaVadd o | .viaVsub o | .viaVmul o | .vmad o | .vshl o => !tInt o.t
  | .viaVmin o | .viaVmax o | .vadds o | .vshr o => !tInt o.t || !(o.m3 ≤ 1)
  | .vcmpEq o | .vcmpNe o | .vcmpLt o | .vcmpLe o | .vcmpGt o | .vcmpGe o =>
    if tFloat o.t then o.m3 != 0 else !(o.m3 ≤ 1)
  | .vcmpUnord o => !tFloat o.t
  | .vredadd o => if tFloat o.t then o.rnd == 7 else o.rnd != 0
  | .vzip o | .vunzip o => !(o.m3 ≤ 1)
  | .vldb o => !(o.m3 ≤ 4)
  | .qblk o => !tShort o.t
  | .dqblk o => !tShort o.t
  | .vrnd o => !tFloat o.t || o.m3 == 7
  | .vrcp o | .vrsq o | .vex2 o | .vlg2 o => !tShort o.t || sfuM3Bad o
  | .vsqrt o => !tShort o.t || o.m3 == 7
  | _ => false

/-- The field index that each engine defines (R322). -/
def esetFieldOk (eng : BitVec 2) (f : BitVec 5) : Bool :=
  match eng.toNat with
  | 0 => f ≤ 9
  | 1 => f ≤ 4 || f == 7 || f == 8
  | 2 => f ≤ 8
  | _ => false

/-- A sub-field outside its legal set: subcode 0x07 (R242 and the descriptions). -/
def Instr.subFieldBad : Instr → Bool
  | .cmpEq o | .cmpNe o | .cmpLt o | .cmpGe o | .cmpLtu o | .cmpGeu o | .cmpTst o | .cmpTstn o => !(o.mode ≤ 3)
  | .cmpiEq o | .cmpiNe o | .cmpiLt o | .cmpiGe o | .cmpiLtu o | .cmpiGeu o | .cmpiTst o | .cmpiTstn o => !(o.mode ≤ 3)
  | .bfs o | .bfx o => decide (64 < o.pos.toNat + o.len1.toNat + 1)
  | .ldls o | .ldgs o => o.sz == 3
  | .kmov o => o.kd == 0
  | .fence o => o.kind == 3
  | .bar o => o.level == 7
  | .qbind o => !(o.kind ≤ 4)
  | .vcmpEq o | .vcmpNe o | .vcmpLt o | .vcmpLe o | .vcmpGt o | .vcmpGe o => o.mode == 3 || o.kt == 0
  | .vcmpUnord o => o.mode == 3 || o.kt == 0
  | .vext o | .vins o => decide (elemCount o.t ≤ o.imm.toNat)
  | .vscal o => o.vd == 15
  | .qblk o => o.t == 6 && o.va == 15
  | .dqblk o => o.t == 6 && o.vd == 15
  | .mldw o => o.acc == 3
  | .eset o => !esetFieldOk o.eng o.field
  | .ego o | .ecan o => o.eng == 3
  | .estat o => o.eng == 3
  | .widf o => !(o.j ≤ 5)
  | .ctxsave o => o.parts == 0
  | .ctxload o => !o.parts.getLsbD 0
  | _ => false

/-- A QBIND of a kind without a parameter names no register (R287): subcode 0x04. -/
def Instr.unusedFieldBad : Instr → Bool
  | .qbind o => (o.kind != 2 && o.kind != 4) && o.a != 0
  | _ => false

/-- Steps of the machine that no word of an assigned encoding names. -/
def Instr.isEvent : Instr → Bool
  | .timer _ => true
  | .waitlimExpiry _ => true
  | .barrierWaitLimit _ => true
  | .bankService _ => true
  | .meshRequestAccept _ => true
  | .waitTableAttempt _ _ => true
  | .waitBudgetBoundary _ _ => true
  | .nackResend _ => true
  | .registerFill _ => true
  | .acknowledgement _ => true
  | .limitReply _ => true
  | .heldNotice _ => true
  | .combinedNotice _ => true
  | .noreply _ => true
  | .vallost _ => true
  | .combiningPointTimeout _ => true
  | .flitLoss _ => true
  | .stationRequest _ => true
  | .tableWalk _ => true
  | .heldReplay _ _ _ => true
  | .rsvtimeRevocation _ _ => true
  | .waitrsReport _ _ => true
  | .waitrsLimit _ => true
  | .tierPieceCopy _ => true
  | .nearCacheProbe _ _ _ _ => true
  | .translationInvalidate _ _ _ _ => true
  | .nearCacheFill _ => true
  | .writeBackLoss _ => true
  | .combinerMerge _ => true
  | .combinerSend _ => true
  | .routerCombine _ _ _ => true
  | .replySplit _ => true
  | .engineShadowTake _ => true
  | .streamPush _ => true
  | .collectiveStart _ => true
  | .collectiveJoinTimeout _ => true
  | .engineCompletion _ => true
  | .completionDrop _ => true
  | .inboxArrival _ => true
  | .inboxHeldWrite _ => true
  | .portWordArrival _ => true
  | .enqAdmission _ => true
  | .ringPacketFetch _ => true
  | .dispatchSelection _ => true
  | .expansion _ _ => true
  | .runQueueArrival _ => true
  | .seatTake _ => true
  | .parkswap _ => true
  | .instructionFetchFill _ => true
  | .descriptorArrival _ => true
  | .dependenceDecrement _ _ => true
  | .sweepPennant _ => true
  | .launchCompletionDrop _ => true
  | .cancelBroadcast _ _ => true
  | .cancel _ => true
  | .trapNotice _ => true
  | .squareHandover _ => true
  | .departingRemoval _ _ _ => true
  | .admission _ _ => true
  | .neighSquareQuery _ => true
  | .ladderAdmission _ => true
  | .insertCommit _ => true
  | .queryPacket _ => true
  | .reclamation _ _ => true
  | .sampledRerun _ => true
  | .matrixUnitTake _ => true
  | .kStep _ => true
  | .matrixCompletion _ => true
  | .rampEnd _ => true
  | .holdWindowEnd _ => true
  | .downEnd _ => true
  | .checkpoint _ _ => true
  | .checkpointCommit _ _ => true
  | .doubletMismatch _ _ => true
  | .bridgePacket _ => true
  | .deviceReset => true
  | .powerMeasurement _ _ => true
  | .cmdtailDoorbell _ _ _ => true
  | .queueEnable _ _ _ => true
  | .cplheadWrite _ _ _ => true
  | .evlostClear _ _ _ => true
  | .hostRegisterWrite _ _ _ => true
  | .ident _ _ => true
  | .negotiate _ _ => true
  | .deviceSet _ _ => true
  | .powerCap _ _ => true
  | .attest _ _ => true
  | .ctxCreate _ _ => true
  | .ctxDestroy _ _ => true
  | .map _ _ => true
  | .unmap _ _ => true
  | .pageMove _ _ => true
  | .blockSet _ _ => true
  | .memCopy _ _ => true
  | .queueCreate _ _ => true
  | .queueDestroy _ _ => true
  | .queueSubmit _ _ => true
  | .scopeSet _ _ => true
  | .boardSet _ _ => true
  | .indexCreate _ _ => true
  | .indexDestroy _ _ => true
  | .graphCreate _ _ => true
  | .graphPatch _ _ => true
  | .graphReplay _ _ => true
  | .jobCancel _ _ => true
  | .debugHalt _ _ => true
  | .debugResume _ _ => true
  | .debugRegread _ _ => true
  | .debugRegwrite _ _ => true
  | .debugLocalread _ _ => true
  | .debugLocalwrite _ _ => true
  | .debugBreakarm _ _ => true
  | .debugBreakoff _ _ => true
  | .unassignedEncoding _ => true
  | .badop _ _ => true
  | .hostLinkDown => true
  | .hostLinkUp => true
  | .hostAccessCompletion _ => true
  | .softError _ => true
  | .engineAccessReply _ => true
  | .resultStreamArrival _ => true
  | _ => false

/-- An instruction that the encoding of revision 1 admits: it has a word, and every field holds a legal value. -/
def Instr.wellFormed (i : Instr) : Bool :=
  !i.isEvent && !i.csrBad && !i.typeBad && !i.subFieldBad && !i.unusedFieldBad

end Sys2Proof
end

