-- ==== Sys2Proof/Decode.lean ====
section
/-!
DEFINITION. The decoder of R223, steps 1 and 2, with the subcodes of R243, total on every word and on every list of bytes; and after
it the encoder. A word goes to its family by the major (R240), to its row by the minor (R241); the fields of the row are read; then
the checks of step 2 are made in the order of R243. Step 3 (register fields) and step 4 (privilege) are made when the instruction
issues (Machine/Operands.lean), because R224 makes them only under a true guard.
-/

namespace Sys2Proof

/-- Why a word is no instruction: the conditions of R243 that lie in the word. -/
inductive DecodeError where
  /-- Unassigned major: subcode 0x01. -/
  | unassignedMajor
  /-- Reserved minor: subcode 0x02. -/
  | reservedMinor
  /-- T or M3 value that the operation does not accept: subcode 0x03. -/
  | badType
  /-- Non-zero reserved field: subcode 0x04. -/
  | reservedField
  /-- ILL under a guard: subcode 0x05 (R245). -/
  | ill
  /-- Reserved CSR number: subcode 0x06. -/
  | reservedCsr
  /-- Sub-field value outside its legal set: subcode 0x07. -/
  | badSubField
  /-- Fewer than four bytes. -/
  | truncated
  deriving DecidableEq, Repr

/-- The subcode of R243. -/
def DecodeError.subcode : DecodeError → BitVec 8
  | .unassignedMajor => 0x01
  | .reservedMinor => 0x02
  | .badType => 0x03
  | .reservedField => 0x04
  | .ill => 0x05
  | .reservedCsr => 0x06
  | .badSubField => 0x07
  | .truncated => 0x01

/-- A row of the opcode map as it is met in a word: the instruction read, the row's fixed bits, and the masks of the bits that must
equal them, by the subcode of R243 that a difference takes (the rest of R242 is checked on the instruction). -/
structure Row where
  instr : Instr
  base : BitVec 32
  zero3 : BitVec 32
  zero7 : BitVec 32
  zero4 : BitVec 32

/-! ## Reading the fields of a shape (R225) -/

def readOpG (w : BitVec 32) : OpG := ⟨w.extractLsb' 0 3⟩
def readOpR (w : BitVec 32) : OpR := ⟨w.extractLsb' 20 6, w.extractLsb' 14 6, w.extractLsb' 8 6, w.getLsbD 7, w.getLsbD 6, w.extractLsb' 0 3⟩
def readOpRDA (w : BitVec 32) : OpRDA := ⟨w.extractLsb' 20 6, w.extractLsb' 14 6, w.getLsbD 7, w.extractLsb' 0 3⟩
def readOpRA (w : BitVec 32) : OpRA := ⟨w.extractLsb' 14 6, w.getLsbD 7, w.extractLsb' 0 3⟩
def readOpCmp (w : BitVec 32) : OpCmp := ⟨w.extractLsb' 23 3, w.extractLsb' 20 3, w.extractLsb' 14 6, w.extractLsb' 8 6, w.getLsbD 7, w.getLsbD 6, w.extractLsb' 0 3⟩
def readOpRed (w : BitVec 32) : OpRed := ⟨w.getLsbD 20, w.extractLsb' 14 6, w.extractLsb' 8 6, w.getLsbD 7, w.getLsbD 6, w.extractLsb' 0 3⟩
def readOpP3 (w : BitVec 32) : OpP3 := ⟨w.extractLsb' 20 3, w.extractLsb' 14 3, w.extractLsb' 8 3, w.extractLsb' 0 3⟩
def readOpP2 (w : BitVec 32) : OpP2 := ⟨w.extractLsb' 20 3, w.extractLsb' 14 3, w.extractLsb' 0 3⟩
def readOpK2 (w : BitVec 32) : OpK2 := ⟨w.extractLsb' 20 2, w.extractLsb' 14 2, w.extractLsb' 0 3⟩
def readOpI (w : BitVec 32) : OpI := ⟨w.extractLsb' 20 6, w.extractLsb' 14 6, w.getLsbD 13, w.extractLsb' 3 10, w.extractLsb' 0 3⟩
def readOpShi (w : BitVec 32) : OpShi := ⟨w.extractLsb' 20 6, w.extractLsb' 14 6, w.getLsbD 13, w.extractLsb' 3 6, w.extractLsb' 0 3⟩
def readOpCmpi (w : BitVec 32) : OpCmpi := ⟨w.extractLsb' 23 3, w.extractLsb' 20 3, w.extractLsb' 14 6, w.getLsbD 13, w.extractLsb' 3 7, w.extractLsb' 0 3⟩
def readOpL (w : BitVec 32) : OpL := ⟨w.extractLsb' 20 6, w.extractLsb' 3 17, w.extractLsb' 0 3⟩
def readOpL16 (w : BitVec 32) : OpL16 := ⟨w.extractLsb' 20 6, w.extractLsb' 3 16, w.extractLsb' 0 3⟩
def readOpB (w : BitVec 32) : OpB := ⟨w.extractLsb' 3 23, w.extractLsb' 0 3⟩
def readOpBF (w : BitVec 32) : OpBF := ⟨w.extractLsb' 20 6, w.extractLsb' 14 6, w.extractLsb' 8 6, w.extractLsb' 3 5, w.extractLsb' 0 3⟩
def readOpRepf (w : BitVec 32) : OpRepf := ⟨w.extractLsb' 20 6, w.extractLsb' 18 2, w.extractLsb' 16 2, w.extractLsb' 14 2, w.extractLsb' 10 4, w.extractLsb' 0 3⟩
def readOpM (w : BitVec 32) : OpM := ⟨w.extractLsb' 20 6, w.extractLsb' 14 6, w.getLsbD 13, w.extractLsb' 11 2, w.extractLsb' 3 8, w.extractLsb' 0 3⟩
def readOpMS (w : BitVec 32) : OpMS := ⟨w.extractLsb' 20 6, w.extractLsb' 14 6, w.getLsbD 13, w.extractLsb' 3 8, w.extractLsb' 0 3⟩
def readOpMA (w : BitVec 32) : OpMA := ⟨w.extractLsb' 14 6, w.getLsbD 13, w.extractLsb' 3 8, w.extractLsb' 0 3⟩
def readOpStgm (w : BitVec 32) : OpStgm := ⟨w.extractLsb' 20 6, w.extractLsb' 14 6, w.extractLsb' 3 8, w.extractLsb' 0 3⟩
def readOpFence (w : BitVec 32) : OpFence := ⟨w.extractLsb' 8 2, w.extractLsb' 3 5, w.extractLsb' 0 3⟩
def readOpBar (w : BitVec 32) : OpBar := ⟨w.extractLsb' 7 3, w.extractLsb' 0 3⟩
def readOpQbind (w : BitVec 32) : OpQbind := ⟨w.extractLsb' 14 6, w.extractLsb' 7 3, w.extractLsb' 3 4, w.extractLsb' 0 3⟩
def readOpQd (w : BitVec 32) : OpQd := ⟨w.extractLsb' 20 6, w.extractLsb' 3 4, w.extractLsb' 0 3⟩
def readOpVM (w : BitVec 32) : OpVM := ⟨w.extractLsb' 22 4, w.extractLsb' 16 6, w.extractLsb' 11 5, w.extractLsb' 6 2, w.extractLsb' 0 3⟩
def readOpVMb (w : BitVec 32) : OpVMb := ⟨w.extractLsb' 22 4, w.extractLsb' 16 6, w.extractLsb' 11 5, w.extractLsb' 6 2, w.extractLsb' 3 3, w.extractLsb' 0 3⟩
def readOpV (w : BitVec 32) : OpV := ⟨w.extractLsb' 22 4, w.extractLsb' 18 4, w.extractLsb' 14 4, w.extractLsb' 11 3, w.extractLsb' 6 2, w.extractLsb' 3 3, w.extractLsb' 0 3⟩
def readOpVt (w : BitVec 32) : OpVt := ⟨w.extractLsb' 22 4, w.extractLsb' 18 4, w.extractLsb' 14 4, w.extractLsb' 11 3, w.extractLsb' 6 2, w.extractLsb' 0 3⟩
def readOpVabs (w : BitVec 32) : OpVabs := ⟨w.extractLsb' 22 4, w.extractLsb' 18 4, w.extractLsb' 11 3, w.extractLsb' 6 2, w.extractLsb' 0 3⟩
def readOpVcmp (w : BitVec 32) : OpVcmp := ⟨w.extractLsb' 24 2, w.extractLsb' 22 2, w.extractLsb' 18 4, w.extractLsb' 14 4, w.extractLsb' 11 3, w.extractLsb' 6 2, w.extractLsb' 3 3, w.extractLsb' 0 3⟩
def readOpVcmpU (w : BitVec 32) : OpVcmpU := ⟨w.extractLsb' 24 2, w.extractLsb' 22 2, w.extractLsb' 18 4, w.extractLsb' 14 4, w.extractLsb' 11 3, w.extractLsb' 6 2, w.extractLsb' 0 3⟩
def readOpVredadd (w : BitVec 32) : OpVredadd := ⟨w.extractLsb' 20 6, w.extractLsb' 16 4, w.extractLsb' 14 2, w.extractLsb' 11 3, w.extractLsb' 3 3, w.extractLsb' 0 3⟩
def readOpVred (w : BitVec 32) : OpVred := ⟨w.extractLsb' 20 6, w.extractLsb' 16 4, w.extractLsb' 14 2, w.extractLsb' 11 3, w.extractLsb' 0 3⟩
def readOpVidx (w : BitVec 32) : OpVidx := ⟨w.extractLsb' 20 6, w.extractLsb' 16 4, w.extractLsb' 11 3, w.extractLsb' 3 5, w.extractLsb' 0 3⟩
def readOpVdot (w : BitVec 32) : OpVdot := ⟨w.extractLsb' 20 6, w.extractLsb' 16 4, w.extractLsb' 14 2, w.extractLsb' 0 3⟩
def readOpVpopk (w : BitVec 32) : OpVpopk := ⟨w.extractLsb' 20 6, w.extractLsb' 14 2, w.extractLsb' 11 3, w.extractLsb' 0 3⟩
def readOpVlog (w : BitVec 32) : OpVlog := ⟨w.extractLsb' 22 4, w.extractLsb' 18 4, w.extractLsb' 14 4, w.extractLsb' 6 2, w.extractLsb' 0 3⟩
def readOpVcvt (w : BitVec 32) : OpVcvt := ⟨w.extractLsb' 22 4, w.extractLsb' 18 4, w.extractLsb' 11 3, w.extractLsb' 6 2, w.extractLsb' 3 3, w.extractLsb' 0 3⟩
def readOpQblk (w : BitVec 32) : OpQblk := ⟨w.extractLsb' 22 4, w.extractLsb' 18 4, w.extractLsb' 11 3, w.extractLsb' 3 2, w.extractLsb' 0 3⟩
def readOpDqblk (w : BitVec 32) : OpDqblk := ⟨w.extractLsb' 22 4, w.extractLsb' 18 4, w.extractLsb' 11 3, w.extractLsb' 0 3⟩
def readOpMx (w : BitVec 32) : OpMx := ⟨w.extractLsb' 24 2, w.extractLsb' 20 4, w.extractLsb' 14 6, w.extractLsb' 3 7, w.extractLsb' 0 3⟩
def readOpMst (w : BitVec 32) : OpMst := ⟨w.extractLsb' 24 2, w.extractLsb' 14 6, w.getLsbD 3, w.extractLsb' 0 3⟩
def readOpMhint (w : BitVec 32) : OpMhint := ⟨w.extractLsb' 3 7, w.extractLsb' 0 3⟩
def readOpMfmt (w : BitVec 32) : OpMfmt := ⟨w.extractLsb' 20 2, w.extractLsb' 14 6, w.extractLsb' 0 3⟩
def readOpMrd (w : BitVec 32) : OpMrd := ⟨w.extractLsb' 24 2, w.extractLsb' 20 4, w.extractLsb' 3 4, w.extractLsb' 0 3⟩
def readOpEset (w : BitVec 32) : OpEset := ⟨w.extractLsb' 14 6, w.extractLsb' 8 2, w.extractLsb' 3 5, w.extractLsb' 0 3⟩
def readOpEng (w : BitVec 32) : OpEng := ⟨w.extractLsb' 8 2, w.extractLsb' 0 3⟩
def readOpEstat (w : BitVec 32) : OpEstat := ⟨w.extractLsb' 20 6, w.extractLsb' 8 2, w.extractLsb' 0 3⟩
def readOpSend (w : BitVec 32) : OpSend := ⟨w.extractLsb' 20 6, w.extractLsb' 14 6, w.getLsbD 3, w.extractLsb' 0 3⟩
def readOpDA (w : BitVec 32) : OpDA := ⟨w.extractLsb' 20 6, w.extractLsb' 14 6, w.extractLsb' 0 3⟩
def readOpD (w : BitVec 32) : OpD := ⟨w.extractLsb' 20 6, w.extractLsb' 0 3⟩
def readOpA (w : BitVec 32) : OpA := ⟨w.extractLsb' 14 6, w.extractLsb' 0 3⟩
def readOpWidf (w : BitVec 32) : OpWidf := ⟨w.extractLsb' 20 6, w.getLsbD 6, w.extractLsb' 3 3, w.extractLsb' 0 3⟩
def readOpLdnear (w : BitVec 32) : OpLdnear := ⟨w.extractLsb' 20 6, w.extractLsb' 14 6, w.getLsbD 7, w.extractLsb' 3 4, w.extractLsb' 0 3⟩
def readOpAq (w : BitVec 32) : OpAq := ⟨w.extractLsb' 14 6, w.extractLsb' 3 4, w.extractLsb' 0 3⟩
def readOpDAq (w : BitVec 32) : OpDAq := ⟨w.extractLsb' 20 6, w.extractLsb' 14 6, w.extractLsb' 3 4, w.extractLsb' 0 3⟩
def readOpTrap (w : BitVec 32) : OpTrap := ⟨w.extractLsb' 3 7, w.extractLsb' 0 3⟩
def readOpCsrr (w : BitVec 32) : OpCsrr := ⟨w.extractLsb' 20 6, w.extractLsb' 3 7, w.extractLsb' 0 3⟩
def readOpCsrw (w : BitVec 32) : OpCsrw := ⟨w.extractLsb' 20 6, w.extractLsb' 14 6, w.extractLsb' 3 7, w.extractLsb' 0 3⟩
def readOpCtxsave (w : BitVec 32) : OpCtxsave := ⟨w.extractLsb' 20 6, w.extractLsb' 14 6, w.extractLsb' 3 5, w.extractLsb' 0 3⟩
def readOpCtxload (w : BitVec 32) : OpCtxload := ⟨w.extractLsb' 20 6, w.extractLsb' 14 6, w.getLsbD 8, w.extractLsb' 3 5, w.extractLsb' 0 3⟩

/-! ## The families (R241) -/

/-- Major 0x00. -/
def decodeSysMisc (w : BitVec 32) : Except DecodeError Row :=
  match (w.extractLsb' 3 7).toNat with
  | 0 => if w = 0 then .ok ⟨ .ill, 0x00000000, 0x00000000, 0x00000000, 0x03FFC007 ⟩
         else if w.extractLsb' 14 12 = 0 then .error .ill else .error .reservedField
  | 1 => .ok ⟨ .nop (readOpG w), 0x00000008, 0x00000000, 0x00000000, 0x03FFC000 ⟩
  | 2 => .ok ⟨ .ifence (readOpG w), 0x00000010, 0x00000000, 0x00000000, 0x03FFC000 ⟩
  | 3 => .ok ⟨ .eret (readOpG w), 0x00000018, 0x00000000, 0x00000000, 0x03FFC000 ⟩
  | 4 => .ok ⟨ .halt (readOpG w), 0x00000020, 0x00000000, 0x00000000, 0x03FFC000 ⟩
  | 5 => .ok ⟨ .wfe (readOpG w), 0x00000028, 0x00000000, 0x00000000, 0x03FFC000 ⟩
  | 6 => .ok ⟨ .dbgbrk (readOpG w), 0x00000030, 0x00000000, 0x00000000, 0x03FFC000 ⟩
  | _ => .error .reservedMinor

/-- SEATCTL: the operation in ARG7[2:0] (R371). -/
def decodeSeatctl (w : BitVec 32) : Except DecodeError Row :=
  match (w.extractLsb' 3 3).toNat with
  | 0 => .ok ⟨ .seatctlStat (readOpDA w), 0x00002000, 0x00000000, 0x00000000, 0x000003C0 ⟩
  | 1 => .ok ⟨ .seatctlStop (readOpDA w), 0x00002008, 0x00000000, 0x00000000, 0x000003C0 ⟩
  | 2 => .ok ⟨ .seatctlStart (readOpDA w), 0x00002010, 0x00000000, 0x00000000, 0x000003C0 ⟩
  | 3 => .ok ⟨ .seatctlWake (readOpDA w), 0x00002018, 0x00000000, 0x00000000, 0x000003C0 ⟩
  | _ => .error .badSubField

/-- Major 0x00. -/
def decodeSys (w : BitVec 32) : Except DecodeError Row :=
  match (w.extractLsb' 10 4).toNat with
  | 0 => decodeSysMisc w
  | 1 => .ok ⟨ .trap (readOpTrap w), 0x00000400, 0x00000000, 0x00000000, 0x03FFC000 ⟩
  | 2 => .ok ⟨ .csrr (readOpCsrr w), 0x00000800, 0x00000000, 0x00000000, 0x000FC000 ⟩
  | 3 => .ok ⟨ .csrw (readOpCsrw w), 0x00000C00, 0x00000000, 0x00000000, 0x00000000 ⟩
  | 4 => .ok ⟨ .csrs (readOpCsrw w), 0x00001000, 0x00000000, 0x00000000, 0x00000000 ⟩
  | 5 => .ok ⟨ .csrc (readOpCsrw w), 0x00001400, 0x00000000, 0x00000000, 0x00000000 ⟩
  | 6 => .ok ⟨ .ctxsave (readOpCtxsave w), 0x00001800, 0x00000000, 0x00000000, 0x00000300 ⟩
  | 7 => .ok ⟨ .ctxload (readOpCtxload w), 0x00001C00, 0x00000000, 0x00000000, 0x00000200 ⟩
  | 8 => decodeSeatctl w
  | _ => .error .reservedMinor

/-- Major 0x01. -/
def decodeAlu (w : BitVec 32) : Except DecodeError Row :=
  match (w.extractLsb' 3 3).toNat with
  | 0 => .ok ⟨ .add (readOpR w), 0x04000000, 0x00000000, 0x00000000, 0x00000000 ⟩
  | 1 => .ok ⟨ .sub (readOpR w), 0x04000008, 0x00000000, 0x00000000, 0x00000000 ⟩
  | 2 => .ok ⟨ .and (readOpR w), 0x04000010, 0x00000000, 0x00000000, 0x00000000 ⟩
  | 3 => .ok ⟨ .or (readOpR w), 0x04000018, 0x00000000, 0x00000000, 0x00000000 ⟩
  | 4 => .ok ⟨ .xor (readOpR w), 0x04000020, 0x00000000, 0x00000000, 0x00000000 ⟩
  | 5 => .ok ⟨ .andn (readOpR w), 0x04000028, 0x00000000, 0x00000000, 0x00000000 ⟩
  | 6 => .ok ⟨ .orn (readOpR w), 0x04000030, 0x00000000, 0x00000000, 0x00000000 ⟩
  | _ => .ok ⟨ .xnor (readOpR w), 0x04000038, 0x00000000, 0x00000000, 0x00000000 ⟩

/-- Major 0x02. -/
def decodeShm (w : BitVec 32) : Except DecodeError Row :=
  match (w.extractLsb' 3 3).toNat with
  | 0 => .ok ⟨ .shl (readOpR w), 0x08000000, 0x00000000, 0x00000000, 0x00000000 ⟩
  | 1 => .ok ⟨ .shr (readOpR w), 0x08000008, 0x00000000, 0x00000000, 0x00000000 ⟩
  | 2 => .ok ⟨ .sar (readOpR w), 0x08000010, 0x00000000, 0x00000000, 0x00000000 ⟩
  | 3 => .ok ⟨ .rol (readOpR w), 0x08000018, 0x00000000, 0x00000000, 0x00000000 ⟩
  | 4 => .ok ⟨ .min (readOpR w), 0x08000020, 0x00000000, 0x00000000, 0x00000000 ⟩
  | 5 => .ok ⟨ .max (readOpR w), 0x08000028, 0x00000000, 0x00000000, 0x00000000 ⟩
  | 6 => .ok ⟨ .minu (readOpR w), 0x08000030, 0x00000000, 0x00000000, 0x00000000 ⟩
  | _ => .ok ⟨ .maxu (readOpR w), 0x08000038, 0x00000000, 0x00000000, 0x00000000 ⟩

/-- Major 0x03. -/
def decodeMul (w : BitVec 32) : Except DecodeError Row :=
  match (w.extractLsb' 3 3).toNat with
  | 0 => .ok ⟨ .mul (readOpR w), 0x0C000000, 0x00000000, 0x00000000, 0x00000000 ⟩
  | 1 => .ok ⟨ .mulh (readOpR w), 0x0C000008, 0x00000000, 0x00000000, 0x00000000 ⟩
  | 2 => .ok ⟨ .mulhu (readOpR w), 0x0C000010, 0x00000000, 0x00000000, 0x00000000 ⟩
  | 3 => .ok ⟨ .mulhsu (readOpR w), 0x0C000018, 0x00000000, 0x00000000, 0x00000000 ⟩
  | 4 => .ok ⟨ .div (readOpR w), 0x0C000020, 0x00000000, 0x00000000, 0x00000000 ⟩
  | 5 => .ok ⟨ .divu (readOpR w), 0x0C000028, 0x00000000, 0x00000000, 0x00000000 ⟩
  | 6 => .ok ⟨ .rem (readOpR w), 0x0C000030, 0x00000000, 0x00000000, 0x00000000 ⟩
  | _ => .ok ⟨ .remu (readOpR w), 0x0C000038, 0x00000000, 0x00000000, 0x00000000 ⟩

/-- Major 0x04. -/
def decodeBit (w : BitVec 32) : Except DecodeError Row :=
  match (w.extractLsb' 3 3).toNat with
  | 0 => .ok ⟨ .clz (readOpRDA w), 0x10000000, 0x00000000, 0x00000000, 0x00003F40 ⟩
  | 1 => .ok ⟨ .ctz (readOpRDA w), 0x10000008, 0x00000000, 0x00000000, 0x00003F40 ⟩
  | 2 => .ok ⟨ .popc (readOpRDA w), 0x10000010, 0x00000000, 0x00000000, 0x00003F40 ⟩
  | 3 => .ok ⟨ .brev (readOpRDA w), 0x10000018, 0x00000000, 0x00000000, 0x00003F40 ⟩
  | 4 => .ok ⟨ .bswap (readOpRDA w), 0x10000020, 0x00000000, 0x00000000, 0x00003F40 ⟩
  | 5 => .ok ⟨ .sext (readOpR w), 0x10000028, 0x00000000, 0x00000000, 0x00000000 ⟩
  | 6 => .ok ⟨ .zext (readOpR w), 0x10000030, 0x00000000, 0x00000000, 0x00000000 ⟩
  | _ => .ok ⟨ .abs (readOpRDA w), 0x10000038, 0x00000000, 0x00000000, 0x00003F40 ⟩

/-- Major 0x05. -/
def decodeCmp (w : BitVec 32) : Except DecodeError Row :=
  match (w.extractLsb' 3 3).toNat with
  | 0 => .ok ⟨ .cmpEq (readOpCmp w), 0x14000000, 0x00000000, 0x00000000, 0x00000000 ⟩
  | 1 => .ok ⟨ .cmpNe (readOpCmp w), 0x14000008, 0x00000000, 0x00000000, 0x00000000 ⟩
  | 2 => .ok ⟨ .cmpLt (readOpCmp w), 0x14000010, 0x00000000, 0x00000000, 0x00000000 ⟩
  | 3 => .ok ⟨ .cmpGe (readOpCmp w), 0x14000018, 0x00000000, 0x00000000, 0x00000000 ⟩
  | 4 => .ok ⟨ .cmpLtu (readOpCmp w), 0x14000020, 0x00000000, 0x00000000, 0x00000000 ⟩
  | 5 => .ok ⟨ .cmpGeu (readOpCmp w), 0x14000028, 0x00000000, 0x00000000, 0x00000000 ⟩
  | 6 => .ok ⟨ .cmpTst (readOpCmp w), 0x14000030, 0x00000000, 0x00000000, 0x00000000 ⟩
  | _ => .ok ⟨ .cmpTstn (readOpCmp w), 0x14000038, 0x00000000, 0x00000000, 0x00000000 ⟩

/-- Major 0x06. -/
def decodeAdr (w : BitVec 32) : Except DecodeError Row :=
  match (w.extractLsb' 3 3).toNat with
  | 0 => .ok ⟨ .lea1 (readOpR w), 0x18000000, 0x00000000, 0x00000000, 0x00000000 ⟩
  | 1 => .ok ⟨ .lea2 (readOpR w), 0x18000008, 0x00000000, 0x00000000, 0x00000000 ⟩
  | 2 => .ok ⟨ .lea4 (readOpR w), 0x18000010, 0x00000000, 0x00000000, 0x00000000 ⟩
  | 3 => .ok ⟨ .lea8 (readOpR w), 0x18000018, 0x00000000, 0x00000000, 0x00000000 ⟩
  | 4 => .ok ⟨ .adds (readOpR w), 0x18000020, 0x00000000, 0x00000000, 0x00000000 ⟩
  | 5 => .ok ⟨ .subs (readOpR w), 0x18000028, 0x00000000, 0x00000000, 0x00000000 ⟩
  | 6 => .ok ⟨ .addus (readOpR w), 0x18000030, 0x00000000, 0x00000000, 0x00000000 ⟩
  | _ => .ok ⟨ .subus (readOpR w), 0x18000038, 0x00000000, 0x00000000, 0x00000000 ⟩

/-- Major 0x0C. -/
def decodeShi (w : BitVec 32) : Except DecodeError Row :=
  match (w.extractLsb' 10 3).toNat with
  | 0 => .ok ⟨ .shli (readOpShi w), 0x30000000, 0x00000000, 0x00000000, 0x00000200 ⟩
  | 1 => .ok ⟨ .shri (readOpShi w), 0x30000400, 0x00000000, 0x00000000, 0x00000200 ⟩
  | 2 => .ok ⟨ .sari (readOpShi w), 0x30000800, 0x00000000, 0x00000000, 0x00000200 ⟩
  | 3 => .ok ⟨ .roli (readOpShi w), 0x30000C00, 0x00000000, 0x00000000, 0x00000200 ⟩
  | _ => .error .reservedMinor

/-- Major 0x0D. -/
def decodeCmpi (w : BitVec 32) : Except DecodeError Row :=
  match (w.extractLsb' 10 3).toNat with
  | 0 => .ok ⟨ .cmpiEq (readOpCmpi w), 0x34000000, 0x00000000, 0x00000000, 0x00000000 ⟩
  | 1 => .ok ⟨ .cmpiNe (readOpCmpi w), 0x34000400, 0x00000000, 0x00000000, 0x00000000 ⟩
  | 2 => .ok ⟨ .cmpiLt (readOpCmpi w), 0x34000800, 0x00000000, 0x00000000, 0x00000000 ⟩
  | 3 => .ok ⟨ .cmpiGe (readOpCmpi w), 0x34000C00, 0x00000000, 0x00000000, 0x00000000 ⟩
  | 4 => .ok ⟨ .cmpiLtu (readOpCmpi w), 0x34001000, 0x00000000, 0x00000000, 0x00000000 ⟩
  | 5 => .ok ⟨ .cmpiGeu (readOpCmpi w), 0x34001400, 0x00000000, 0x00000000, 0x00000000 ⟩
  | 6 => .ok ⟨ .cmpiTst (readOpCmpi w), 0x34001800, 0x00000000, 0x00000000, 0x00000000 ⟩
  | _ => .ok ⟨ .cmpiTstn (readOpCmpi w), 0x34001C00, 0x00000000, 0x00000000, 0x00000000 ⟩

/-- Major 0x16. -/
def decodeJmp (w : BitVec 32) : Except DecodeError Row :=
  match (w.extractLsb' 3 3).toNat with
  | 0 => .ok ⟨ .jr (readOpRA w), 0x58000000, 0x00000000, 0x00000000, 0x03F03F40 ⟩
  | 1 => .ok ⟨ .jalr (readOpRDA w), 0x58000008, 0x00000000, 0x00000000, 0x00003F40 ⟩
  | 2 => .ok ⟨ .ret (readOpG w), 0x58000010, 0x00000000, 0x00000000, 0x03FFFFC0 ⟩
  | _ => .error .reservedMinor

/-- Major 0x18. -/
def decodePrd (w : BitVec 32) : Except DecodeError Row :=
  match (w.extractLsb' 3 3).toNat with
  | 0 => .ok ⟨ .pand (readOpP3 w), 0x60000000, 0x00000000, 0x00000000, 0x038E38C0 ⟩
  | 1 => .ok ⟨ .por (readOpP3 w), 0x60000008, 0x00000000, 0x00000000, 0x038E38C0 ⟩
  | 2 => .ok ⟨ .pxor (readOpP3 w), 0x60000010, 0x00000000, 0x00000000, 0x038E38C0 ⟩
  | 3 => .ok ⟨ .pnot (readOpP2 w), 0x60000018, 0x00000000, 0x00000000, 0x038E3FC0 ⟩
  | 4 => .ok ⟨ .pget (readOpD w), 0x60000020, 0x00000000, 0x00000000, 0x000FFFC0 ⟩
  | 5 => .ok ⟨ .pset (readOpRA w), 0x60000028, 0x00000000, 0x00000000, 0x03F03F40 ⟩
  | 6 => .ok ⟨ .kmov (readOpK2 w), 0x60000030, 0x00000000, 0x00000000, 0x03CF3FC0 ⟩
  | _ => .error .reservedMinor

/-- Major 0x26. -/
def decodeSync (w : BitVec 32) : Except DecodeError Row :=
  match (w.extractLsb' 11 2).toNat with
  | 0 => .ok ⟨ .ldw (readOpMS w), 0x98000000, 0x00000000, 0x00000000, 0x00000000 ⟩
  | 1 => .ok ⟨ .lde (readOpMS w), 0x98000800, 0x00000000, 0x00000000, 0x00000000 ⟩
  | 2 => .ok ⟨ .stf (readOpMS w), 0x98001000, 0x00000000, 0x00000000, 0x00000000 ⟩
  | _ => .ok ⟨ .sete (readOpMA w), 0x98001800, 0x00000000, 0x00000000, 0x03F00000 ⟩

/-- Major 0x27. -/
def decodeRmt (w : BitVec 32) : Except DecodeError Row :=
  match (w.extractLsb' 11 2).toNat with
  | 0 => .ok ⟨ .ldr (readOpMS w), 0x9C000000, 0x00000000, 0x00000000, 0x00000000 ⟩
  | 1 => .ok ⟨ .str (readOpMS w), 0x9C000800, 0x00000000, 0x00000000, 0x00000000 ⟩
  | 2 => .ok ⟨ .ldre (readOpMS w), 0x9C001000, 0x00000000, 0x00000000, 0x00000000 ⟩
  | _ => .ok ⟨ .strf (readOpMS w), 0x9C001800, 0x00000000, 0x00000000, 0x00000000 ⟩

/-- Major 0x28. -/
def decodeAtl (w : BitVec 32) : Except DecodeError Row :=
  match (w.extractLsb' 3 3).toNat with
  | 0 => .ok ⟨ .faal (readOpR w), 0xA0000000, 0x00000000, 0x00000000, 0x00000000 ⟩
  | 1 => .ok ⟨ .swapl (readOpR w), 0xA0000008, 0x00000000, 0x00000000, 0x00000000 ⟩
  | 2 => .ok ⟨ .casl (readOpR w), 0xA0000010, 0x00000000, 0x00000000, 0x00000000 ⟩
  | 3 => .ok ⟨ .fandl (readOpR w), 0xA0000018, 0x00000000, 0x00000000, 0x00000000 ⟩
  | 4 => .ok ⟨ .forl (readOpR w), 0xA0000020, 0x00000000, 0x00000000, 0x00000000 ⟩
  | 5 => .ok ⟨ .fxorl (readOpR w), 0xA0000028, 0x00000000, 0x00000000, 0x00000000 ⟩
  | 6 => .ok ⟨ .fminl (readOpR w), 0xA0000030, 0x00000000, 0x00000000, 0x00000000 ⟩
  | _ => .ok ⟨ .fmaxl (readOpR w), 0xA0000038, 0x00000000, 0x00000000, 0x00000000 ⟩

/-- Major 0x29. -/
def decodeAtg (w : BitVec 32) : Except DecodeError Row :=
  match (w.extractLsb' 3 3).toNat with
  | 0 => .ok ⟨ .faa (readOpR w), 0xA4000000, 0x00000000, 0x00000000, 0x00000000 ⟩
  | 1 => .ok ⟨ .swap (readOpR w), 0xA4000008, 0x00000000, 0x00000000, 0x00000000 ⟩
  | 2 => .ok ⟨ .cas (readOpR w), 0xA4000010, 0x00000000, 0x00000000, 0x00000000 ⟩
  | 3 => .ok ⟨ .lr (readOpRDA w), 0xA4000018, 0x00000000, 0x00000000, 0x00003F40 ⟩
  | 4 => .ok ⟨ .sc (readOpR w), 0xA4000020, 0x00000000, 0x00000000, 0x00000000 ⟩
  | 5 => .ok ⟨ .amax (readOpR w), 0xA4000028, 0x00000000, 0x00000000, 0x00000000 ⟩
  | 6 => .ok ⟨ .waitrs (readOpR w), 0xA4000030, 0x00000000, 0x00000000, 0x00000000 ⟩
  | _ => .ok ⟨ .rsvrel (readOpRA w), 0xA4000038, 0x00000000, 0x00000000, 0x03F03F40 ⟩

/-- Major 0x2A. -/
def decodeRed (w : BitVec 32) : Except DecodeError Row :=
  match (w.extractLsb' 3 3).toNat with
  | 0 => .ok ⟨ .raddI64 (readOpRed w), 0xA8000000, 0x00000000, 0x03E00000, 0x00000000 ⟩
  | 1 => .ok ⟨ .raddF32 (readOpRed w), 0xA8000008, 0x00000000, 0x03E00000, 0x00000000 ⟩
  | 2 => .ok ⟨ .raddF64 (readOpRed w), 0xA8000010, 0x00000000, 0x03E00000, 0x00000000 ⟩
  | 3 => .ok ⟨ .rmin (readOpRed w), 0xA8000018, 0x00000000, 0x03E00000, 0x00000000 ⟩
  | 4 => .ok ⟨ .rmax (readOpRed w), 0xA8000020, 0x00000000, 0x03E00000, 0x00000000 ⟩
  | 5 => .ok ⟨ .rand (readOpRed w), 0xA8000028, 0x00000000, 0x03E00000, 0x00000000 ⟩
  | 6 => .ok ⟨ .ror (readOpRed w), 0xA8000030, 0x00000000, 0x03E00000, 0x00000000 ⟩
  | _ => .ok ⟨ .rxor (readOpRed w), 0xA8000038, 0x00000000, 0x03E00000, 0x00000000 ⟩

/-- Major 0x2B. -/
def decodeFen (w : BitVec 32) : Except DecodeError Row :=
  match (w.extractLsb' 10 4).toNat with
  | 0 => .ok ⟨ .fence (readOpFence w), 0xAC000000, 0x00000000, 0x00000000, 0x03FFC000 ⟩
  | 1 => .ok ⟨ .bar (readOpBar w), 0xAC000400, 0x00000000, 0x00000000, 0x03FFC078 ⟩
  | _ => .error .reservedMinor

/-- Major 0x2C. -/
def decodeQop (w : BitVec 32) : Except DecodeError Row :=
  match (w.extractLsb' 10 4).toNat with
  | 0 => .ok ⟨ .qbind (readOpQbind w), 0xB0000000, 0x00000000, 0x00000000, 0x03F00000 ⟩
  | 1 => .ok ⟨ .qstat (readOpQd w), 0xB0000400, 0x00000000, 0x00000000, 0x000FC380 ⟩
  | 2 => .ok ⟨ .qflush (readOpQd w), 0xB0000800, 0x00000000, 0x00000000, 0x000FC380 ⟩
  | 3 => .ok ⟨ .qunbind (readOpQd w), 0xB0000C00, 0x00000000, 0x00000000, 0x000FC380 ⟩
  | _ => .error .reservedMinor

/-- Major 0x30. -/
def decodeVmem (w : BitVec 32) : Except DecodeError Row :=
  match (w.extractLsb' 8 3).toNat with
  | 0 => .ok ⟨ .vldl (readOpVM w), 0xC0000000, 0x00000038, 0x00000000, 0x00000000 ⟩
  | 1 => .ok ⟨ .vstl (readOpVM w), 0xC0000100, 0x00000038, 0x00000000, 0x00000000 ⟩
  | 2 => .ok ⟨ .vldg (readOpVM w), 0xC0000200, 0x00000038, 0x00000000, 0x00000000 ⟩
  | 3 => .ok ⟨ .vstg (readOpVM w), 0xC0000300, 0x00000038, 0x00000000, 0x00000000 ⟩
  | 4 => .ok ⟨ .vgatl (readOpVM w), 0xC0000400, 0x00000038, 0x00000000, 0x00000000 ⟩
  | 5 => .ok ⟨ .vscal (readOpVM w), 0xC0000500, 0x00000038, 0x00000000, 0x00000000 ⟩
  | 6 => .ok ⟨ .vldb (readOpVMb w), 0xC0000600, 0x00000000, 0x00000000, 0x00000000 ⟩
  | _ => .error .reservedMinor

/-- Major 0x31. -/
def decodeVfa (w : BitVec 32) : Except DecodeError Row :=
  match (w.extractLsb' 8 3).toNat with
  | 0 => .ok ⟨ .vfaVadd (readOpV w), 0xC4000000, 0x00000000, 0x00000000, 0x00000000 ⟩
  | 1 => .ok ⟨ .vfaVsub (readOpV w), 0xC4000100, 0x00000000, 0x00000000, 0x00000000 ⟩
  | 2 => .ok ⟨ .vfaVmul (readOpV w), 0xC4000200, 0x00000000, 0x00000000, 0x00000000 ⟩
  | 3 => .ok ⟨ .vfma (readOpV w), 0xC4000300, 0x00000000, 0x00000000, 0x00000000 ⟩
  | 4 => .ok ⟨ .vfaVmin (readOpVt w), 0xC4000400, 0x00000038, 0x00000000, 0x00000000 ⟩
  | 5 => .ok ⟨ .vfaVmax (readOpVt w), 0xC4000500, 0x00000038, 0x00000000, 0x00000000 ⟩
  | 6 => .ok ⟨ .vabs (readOpVabs w), 0xC4000600, 0x00000038, 0x00000000, 0x0003C000 ⟩
  | _ => .ok ⟨ .vneg (readOpVabs w), 0xC4000700, 0x00000038, 0x00000000, 0x0003C000 ⟩

/-- Major 0x32. -/
def decodeVia (w : BitVec 32) : Except DecodeError Row :=
  match (w.extractLsb' 8 3).toNat with
  | 0 => .ok ⟨ .viaVadd (readOpVt w), 0xC8000000, 0x00000038, 0x00000000, 0x00000000 ⟩
  | 1 => .ok ⟨ .viaVsub (readOpVt w), 0xC8000100, 0x00000038, 0x00000000, 0x00000000 ⟩
  | 2 => .ok ⟨ .viaVmul (readOpVt w), 0xC8000200, 0x00000038, 0x00000000, 0x00000000 ⟩
  | 3 => .ok ⟨ .vmad (readOpVt w), 0xC8000300, 0x00000038, 0x00000000, 0x00000000 ⟩
  | 4 => .ok ⟨ .viaVmin (readOpV w), 0xC8000400, 0x00000000, 0x00000000, 0x00000000 ⟩
  | 5 => .ok ⟨ .viaVmax (readOpV w), 0xC8000500, 0x00000000, 0x00000000, 0x00000000 ⟩
  | 6 => .ok ⟨ .vadds (readOpV w), 0xC8000600, 0x00000000, 0x00000000, 0x00000000 ⟩
  | _ => .ok ⟨ .vshl (readOpVt w), 0xC8000700, 0x00000038, 0x00000000, 0x00000000 ⟩

/-- Major 0x33. -/
def decodeVcmp (w : BitVec 32) : Except DecodeError Row :=
  match (w.extractLsb' 8 3).toNat with
  | 0 => .ok ⟨ .vcmpEq (readOpVcmp w), 0xCC000000, 0x00000000, 0x00000000, 0x00000000 ⟩
  | 1 => .ok ⟨ .vcmpNe (readOpVcmp w), 0xCC000100, 0x00000000, 0x00000000, 0x00000000 ⟩
  | 2 => .ok ⟨ .vcmpLt (readOpVcmp w), 0xCC000200, 0x00000000, 0x00000000, 0x00000000 ⟩
  | 3 => .ok ⟨ .vcmpLe (readOpVcmp w), 0xCC000300, 0x00000000, 0x00000000, 0x00000000 ⟩
  | 4 => .ok ⟨ .vcmpGt (readOpVcmp w), 0xCC000400, 0x00000000, 0x00000000, 0x00000000 ⟩
  | 5 => .ok ⟨ .vcmpGe (readOpVcmp w), 0xCC000500, 0x00000000, 0x00000000, 0x00000000 ⟩
  | 6 => .ok ⟨ .vcmpUnord (readOpVcmpU w), 0xCC000600, 0x00000038, 0x00000000, 0x00000000 ⟩
  | _ => .error .reservedMinor

/-- Major 0x34. -/
def decodeVxs (w : BitVec 32) : Except DecodeError Row :=
  match (w.extractLsb' 8 3).toNat with
  | 0 => .ok ⟨ .vredadd (readOpVredadd w), 0xD0000000, 0x00000000, 0x00000000, 0x000000C0 ⟩
  | 1 => .ok ⟨ .vredmax (readOpVred w), 0xD0000100, 0x00000000, 0x00000000, 0x000000F8 ⟩
  | 2 => .ok ⟨ .vredmin (readOpVred w), 0xD0000200, 0x00000000, 0x00000000, 0x000000F8 ⟩
  | 3 => .ok ⟨ .vext (readOpVidx w), 0xD0000300, 0x00000000, 0x00000000, 0x0000C000 ⟩
  | 4 => .ok ⟨ .vins (readOpVidx w), 0xD0000400, 0x00000000, 0x00000000, 0x0000C000 ⟩
  | 5 => .ok ⟨ .vbcst (readOpVred w), 0xD0000500, 0x00000000, 0x00000000, 0x000000F8 ⟩
  | 6 => .ok ⟨ .vdot8 (readOpVdot w), 0xD0000600, 0x00003800, 0x00000000, 0x000000F8 ⟩
  | _ => .ok ⟨ .vpopk (readOpVpopk w), 0xD0000700, 0x00000000, 0x00000000, 0x000F00F8 ⟩

/-- Major 0x35. -/
def decodeVprm (w : BitVec 32) : Except DecodeError Row :=
  match (w.extractLsb' 8 3).toNat with
  | 0 => .ok ⟨ .vsel (readOpVlog w), 0xD4001000, 0x00003838, 0x00000000, 0x00000000 ⟩
  | 1 => .ok ⟨ .vshuf (readOpVt w), 0xD4000100, 0x00000038, 0x00000000, 0x00000000 ⟩
  | 2 => .ok ⟨ .vzip (readOpV w), 0xD4000200, 0x00000000, 0x00000000, 0x00000000 ⟩
  | 3 => .ok ⟨ .vunzip (readOpV w), 0xD4000300, 0x00000000, 0x00000000, 0x00000000 ⟩
  | 4 => .ok ⟨ .vand (readOpVlog w), 0xD4001400, 0x00003838, 0x00000000, 0x00000000 ⟩
  | 5 => .ok ⟨ .vor (readOpVlog w), 0xD4001500, 0x00003838, 0x00000000, 0x00000000 ⟩
  | 6 => .ok ⟨ .vxor (readOpVlog w), 0xD4001600, 0x00003838, 0x00000000, 0x00000000 ⟩
  | _ => .ok ⟨ .vshr (readOpV w), 0xD4000700, 0x00000000, 0x00000000, 0x00000000 ⟩

/-- Major 0x36. -/
def decodeVcvt (w : BitVec 32) : Except DecodeError Row :=
  match (w.extractLsb' 8 3).toNat with
  | 0 => .ok ⟨ .cvt (readOpVcvt w), 0xD8000000, 0x00000000, 0x00000000, 0x0003C000 ⟩
  | 1 => .ok ⟨ .qblk (readOpQblk w), 0xD8000100, 0x00000020, 0x00000000, 0x0003C0C0 ⟩
  | 2 => .ok ⟨ .dqblk (readOpDqblk w), 0xD8000200, 0x00000038, 0x00000000, 0x0003C0C0 ⟩
  | 3 => .ok ⟨ .vrnd (readOpVcvt w), 0xD8000300, 0x00000000, 0x00000000, 0x0003C000 ⟩
  | _ => .error .reservedMinor

/-- Major 0x37. -/
def decodeVsfu (w : BitVec 32) : Except DecodeError Row :=
  match (w.extractLsb' 8 3).toNat with
  | 0 => .ok ⟨ .vrcp (readOpVcvt w), 0xDC000000, 0x00000000, 0x00000000, 0x0003C000 ⟩
  | 1 => .ok ⟨ .vrsq (readOpVcvt w), 0xDC000100, 0x00000000, 0x00000000, 0x0003C000 ⟩
  | 2 => .ok ⟨ .vex2 (readOpVcvt w), 0xDC000200, 0x00000000, 0x00000000, 0x0003C000 ⟩
  | 3 => .ok ⟨ .vlg2 (readOpVcvt w), 0xDC000300, 0x00000000, 0x00000000, 0x0003C000 ⟩
  | 4 => .ok ⟨ .vsqrt (readOpVcvt w), 0xDC000400, 0x00000000, 0x00000000, 0x0003C000 ⟩
  | _ => .error .reservedMinor

/-- Major 0x38. -/
def decodeMx (w : BitVec 32) : Except DecodeError Row :=
  match (w.extractLsb' 10 4).toNat with
  | 0 => .ok ⟨ .mldw (readOpMx w), 0xE0000000, 0x00000000, 0x00000000, 0x00000000 ⟩
  | 1 => .ok ⟨ .mma (readOpMx w), 0xE0000400, 0x00000000, 0x00000000, 0x00000000 ⟩
  | 2 => .ok ⟨ .mmaz (readOpMx w), 0xE0000800, 0x00000000, 0x00000000, 0x00000000 ⟩
  | 3 => .ok ⟨ .mst (readOpMst w), 0xE0000C00, 0x00000000, 0x00000000, 0x00F003F0 ⟩
  | 4 => .ok ⟨ .mhint (readOpMhint w), 0xE0001000, 0x00000000, 0x00000000, 0x03FFC000 ⟩
  | 5 => .ok ⟨ .mfmt (readOpMfmt w), 0xE0001400, 0x00000000, 0x00000000, 0x03C003F8 ⟩
  | 6 => .ok ⟨ .mrd (readOpMrd w), 0xE0001800, 0x00000000, 0x00000000, 0x000FC380 ⟩
  | _ => .error .reservedMinor

/-- Major 0x3A. -/
def decodeEng (w : BitVec 32) : Except DecodeError Row :=
  match (w.extractLsb' 10 4).toNat with
  | 0 => .ok ⟨ .eset (readOpEset w), 0xE8000000, 0x00000000, 0x00000000, 0x03F00000 ⟩
  | 1 => .ok ⟨ .ego (readOpEng w), 0xE8000400, 0x00000000, 0x00000000, 0x03FFC0F8 ⟩
  | 2 => .ok ⟨ .estat (readOpEstat w), 0xE8000800, 0x00000000, 0x00000000, 0x000FC0F8 ⟩
  | 3 => .ok ⟨ .ecan (readOpEng w), 0xE8000C00, 0x00000000, 0x00000000, 0x03FFC0F8 ⟩
  | _ => .error .reservedMinor

/-- Major 0x3B. -/
def decodeMsg (w : BitVec 32) : Except DecodeError Row :=
  match (w.extractLsb' 10 4).toNat with
  | 0 => .ok ⟨ .send (readOpSend w), 0xEC000000, 0x00000000, 0x00000000, 0x000003F0 ⟩
  | 1 => .ok ⟨ .recv (readOpDA w), 0xEC000400, 0x00000000, 0x00000000, 0x000003F8 ⟩
  | 2 => .ok ⟨ .enq (readOpSend w), 0xEC000800, 0x00000000, 0x00000000, 0x000003F0 ⟩
  | 3 => .ok ⟨ .spawn (readOpD w), 0xEC000C00, 0x00000000, 0x00000000, 0x000FC3F8 ⟩
  | 4 => .ok ⟨ .exit (readOpG w), 0xEC001000, 0x00000000, 0x00000000, 0x03FFC3F8 ⟩
  | 5 => .ok ⟨ .widf (readOpWidf w), 0xEC001400, 0x00000000, 0x00000000, 0x000FC380 ⟩
  | 6 => .ok ⟨ .ibxs (readOpD w), 0xEC001800, 0x00000000, 0x00000000, 0x000FC3F8 ⟩
  | _ => .error .reservedMinor

/-- Major 0x3C. -/
def decodeIdx (w : BitVec 32) : Except DecodeError Row :=
  match (w.extractLsb' 10 4).toNat with
  | 0 => .ok ⟨ .stvec (readOpDA w), 0xF0000000, 0x00000000, 0x00000000, 0x000003F8 ⟩
  | 1 => .ok ⟨ .ldnear (readOpLdnear w), 0xF0000400, 0x00000000, 0x00000000, 0x00000300 ⟩
  | 2 => .ok ⟨ .delvec (readOpDA w), 0xF0000800, 0x00000000, 0x00000000, 0x000003F8 ⟩
  | 3 => .ok ⟨ .ixpin (readOpDA w), 0xF0000C00, 0x00000000, 0x00000000, 0x000003F8 ⟩
  | 4 => .ok ⟨ .ixunpin (readOpDA w), 0xF0001000, 0x00000000, 0x00000000, 0x000003F8 ⟩
  | 5 => .ok ⟨ .ixstat (readOpAq w), 0xF0001400, 0x00000000, 0x00000000, 0x03F00380 ⟩
  | _ => .error .reservedMinor

/-- Major 0x3D. -/
def decodePos (w : BitVec 32) : Except DecodeError Row :=
  match (w.extractLsb' 10 4).toNat with
  | 0 => .ok ⟨ .setpos (readOpDA w), 0xF4000000, 0x00000000, 0x00000000, 0x000003F8 ⟩
  | 1 => .ok ⟨ .neigh (readOpDAq w), 0xF4000400, 0x00000000, 0x00000000, 0x00000380 ⟩
  | 2 => .ok ⟨ .cellq (readOpD w), 0xF4000800, 0x00000000, 0x00000000, 0x000FC3F8 ⟩
  | 3 => .ok ⟨ .migr (readOpA w), 0xF4000C00, 0x00000000, 0x00000000, 0x03F003F8 ⟩
  | 4 => .ok ⟨ .anchor (readOpG w), 0xF4001000, 0x00000000, 0x00000000, 0x03FFC3F8 ⟩
  | 5 => .ok ⟨ .unanchor (readOpG w), 0xF4001400, 0x00000000, 0x00000000, 0x03FFC3F8 ⟩
  | 6 => .ok ⟨ .cellsync (readOpG w), 0xF4001800, 0x00000000, 0x00000000, 0x03FFC3F8 ⟩
  | _ => .error .reservedMinor

/-- Steps 1 and 2 of R223 up to the minor: the family of the major (R240). -/
def decodeRow (w : BitVec 32) : Except DecodeError Row :=
  match (w.extractLsb' 26 6).toNat with
  | 0x00 => decodeSys w
  | 0x01 => decodeAlu w
  | 0x02 => decodeShm w
  | 0x03 => decodeMul w
  | 0x04 => decodeBit w
  | 0x05 => decodeCmp w
  | 0x06 => decodeAdr w
  | 0x07 => .ok ⟨ .bfs (readOpBF w), 0x1C000000, 0x00000000, 0x00000000, 0x00000000 ⟩
  | 0x08 => .ok ⟨ .addi (readOpI w), 0x20000000, 0x00000000, 0x00000000, 0x00000000 ⟩
  | 0x09 => .ok ⟨ .andi (readOpI w), 0x24000000, 0x00000000, 0x00000000, 0x00000000 ⟩
  | 0x0A => .ok ⟨ .ori (readOpI w), 0x28000000, 0x00000000, 0x00000000, 0x00000000 ⟩
  | 0x0B => .ok ⟨ .xori (readOpI w), 0x2C000000, 0x00000000, 0x00000000, 0x00000000 ⟩
  | 0x0C => decodeShi w
  | 0x0D => decodeCmpi w
  | 0x0E => .ok ⟨ .muli (readOpI w), 0x38000000, 0x00000000, 0x00000000, 0x00000000 ⟩
  | 0x0F => .ok ⟨ .bfx (readOpBF w), 0x3C000000, 0x00000000, 0x00000000, 0x00000000 ⟩
  | 0x10 => .ok ⟨ .movi (readOpL w), 0x40000000, 0x00000000, 0x00000000, 0x00000000 ⟩
  | 0x11 => .ok ⟨ .movh (readOpL16 w), 0x44000000, 0x00000000, 0x00000000, 0x00080000 ⟩
  | 0x12 => .ok ⟨ .pcrel (readOpL w), 0x48000000, 0x00000000, 0x00000000, 0x00000000 ⟩
  | 0x14 => .ok ⟨ .br (readOpB w), 0x50000000, 0x00000000, 0x00000000, 0x00000000 ⟩
  | 0x15 => .ok ⟨ .call (readOpB w), 0x54000000, 0x00000000, 0x00000000, 0x00000000 ⟩
  | 0x16 => decodeJmp w
  | 0x17 => .ok ⟨ .repf (readOpRepf w), 0x5C000000, 0x00000000, 0x00000000, 0x000003F8 ⟩
  | 0x18 => decodePrd w
  | 0x20 => .ok ⟨ .ldl (readOpM w), 0x80000000, 0x00000000, 0x00000000, 0x00000000 ⟩
  | 0x21 => .ok ⟨ .ldls (readOpM w), 0x84000000, 0x00000000, 0x00000000, 0x00000000 ⟩
  | 0x22 => .ok ⟨ .stl (readOpM w), 0x88000000, 0x00000000, 0x00000000, 0x00000000 ⟩
  | 0x23 => .ok ⟨ .ldg (readOpM w), 0x8C000000, 0x00000000, 0x00000000, 0x00000000 ⟩
  | 0x24 => .ok ⟨ .ldgs (readOpM w), 0x90000000, 0x00000000, 0x00000000, 0x00000000 ⟩
  | 0x25 => .ok ⟨ .stg (readOpM w), 0x94000000, 0x00000000, 0x00000000, 0x00000000 ⟩
  | 0x26 => decodeSync w
  | 0x27 => decodeRmt w
  | 0x28 => decodeAtl w
  | 0x29 => decodeAtg w
  | 0x2A => decodeRed w
  | 0x2B => decodeFen w
  | 0x2C => decodeQop w
  | 0x2D => .ok ⟨ .stgm (readOpStgm w), 0xB4001800, 0x00000000, 0x00000000, 0x00003800 ⟩
  | 0x30 => decodeVmem w
  | 0x31 => decodeVfa w
  | 0x32 => decodeVia w
  | 0x33 => decodeVcmp w
  | 0x34 => decodeVxs w
  | 0x35 => decodeVprm w
  | 0x36 => decodeVcvt w
  | 0x37 => decodeVsfu w
  | 0x38 => decodeMx w
  | 0x3A => decodeEng w
  | 0x3B => decodeMsg w
  | 0x3C => decodeIdx w
  | 0x3D => decodePos w
  | _ => .error .unassignedMajor

/-- The checks of step 2 on a row, in the order of R243. -/
def Row.check (w : BitVec 32) (r : Row) : Except DecodeError Instr :=
  if r.instr.csrBad then .error .reservedCsr
  else if r.instr.typeBad || ((w ^^^ r.base) &&& r.zero3 != 0) then .error .badType
  else if r.instr.subFieldBad || ((w ^^^ r.base) &&& r.zero7 != 0) then .error .badSubField
  else if r.instr.unusedFieldBad || ((w ^^^ r.base) &&& r.zero4 != 0) then .error .reservedField
  else .ok r.instr

/-- The decoder: a word is an instruction, or is rejected by the first failing check of R223 steps 1 and 2. -/
def decode (w : BitVec 32) : Except DecodeError Instr :=
  match decodeRow w with
  | .error e => .error e
  | .ok r => r.check w

/-- The instruction word of four bytes, little-endian (R222, R5). -/
def wordOfBytes (b0 b1 b2 b3 : BitVec 8) : BitVec 32 := b3 ++ b2 ++ b1 ++ b0

/-- The decoder on any bytes: the first four are the word; the rest is returned. -/
def decodeBytes : List (BitVec 8) → Except DecodeError (Instr × List (BitVec 8))
  | b0 :: b1 :: b2 :: b3 :: rest =>
    match decode (wordOfBytes b0 b1 b2 b3) with
    | .ok i => .ok (i, rest)
    | .error e => .error e
  | _ => .error .truncated

/-- The four bytes of a word, the first at the lowest address. -/
def bytesOfWord (w : BitVec 32) : List (BitVec 8) :=
  [w.extractLsb' 0 8, w.extractLsb' 8 8, w.extractLsb' 16 8, w.extractLsb' 24 8]

/-- The instruction the decoder reads from an instruction whose bits are `w`, bit 0 the least significant of its one word. -/
def decodeTableWord (nbits w : Nat) : Option Instr :=
  match decodeBytes (bytesOfWord (BitVec.ofNat 32 (w % 2 ^ nbits))) with
  | .ok (i, _) => some i
  | .error _ => none

/-! ## The encoder -/

/-- One bit of a strip. -/
def bit (b : Bool) : BitVec 1 := BitVec.ofBool b

def packOpG (o : OpG) : BitVec 32 := (0 : BitVec 29) ++ o.g
def packOpR (o : OpR) : BitVec 32 := (0 : BitVec 6) ++ o.d ++ o.a ++ o.b ++ bit o.ta ++ bit o.tb ++ (0 : BitVec 3) ++ o.g
def packOpRDA (o : OpRDA) : BitVec 32 := (0 : BitVec 6) ++ o.d ++ o.a ++ (0 : BitVec 6) ++ bit o.ta ++ (0 : BitVec 4) ++ o.g
def packOpRA (o : OpRA) : BitVec 32 := (0 : BitVec 12) ++ o.a ++ (0 : BitVec 6) ++ bit o.ta ++ (0 : BitVec 4) ++ o.g
def packOpCmp (o : OpCmp) : BitVec 32 := (0 : BitVec 6) ++ o.mode ++ o.p ++ o.a ++ o.b ++ bit o.ta ++ bit o.tb ++ (0 : BitVec 3) ++ o.g
def packOpRed (o : OpRed) : BitVec 32 := (0 : BitVec 11) ++ bit o.nc ++ o.a ++ o.b ++ bit o.ta ++ bit o.tb ++ (0 : BitVec 3) ++ o.g
def packOpP3 (o : OpP3) : BitVec 32 := (0 : BitVec 9) ++ o.pd ++ (0 : BitVec 3) ++ o.pa ++ (0 : BitVec 3) ++ o.pb ++ (0 : BitVec 5) ++ o.g
def packOpP2 (o : OpP2) : BitVec 32 := (0 : BitVec 9) ++ o.pd ++ (0 : BitVec 3) ++ o.pa ++ (0 : BitVec 11) ++ o.g
def packOpK2 (o : OpK2) : BitVec 32 := (0 : BitVec 10) ++ o.kd ++ (0 : BitVec 4) ++ o.ka ++ (0 : BitVec 11) ++ o.g
def packOpI (o : OpI) : BitVec 32 := (0 : BitVec 6) ++ o.d ++ o.a ++ bit o.ta ++ o.imm ++ o.g
def packOpShi (o : OpShi) : BitVec 32 := (0 : BitVec 6) ++ o.d ++ o.a ++ bit o.ta ++ (0 : BitVec 4) ++ o.n ++ o.g
def packOpCmpi (o : OpCmpi) : BitVec 32 := (0 : BitVec 6) ++ o.mode ++ o.p ++ o.a ++ bit o.ta ++ (0 : BitVec 3) ++ o.imm ++ o.g
def packOpL (o : OpL) : BitVec 32 := (0 : BitVec 6) ++ o.d ++ o.imm ++ o.g
def packOpL16 (o : OpL16) : BitVec 32 := (0 : BitVec 6) ++ o.d ++ (0 : BitVec 1) ++ o.imm ++ o.g
def packOpB (o : OpB) : BitVec 32 := (0 : BitVec 6) ++ o.off ++ o.g
def packOpBF (o : OpBF) : BitVec 32 := (0 : BitVec 6) ++ o.d ++ o.a ++ o.pos ++ o.len1 ++ o.g
def packOpRepf (o : OpRepf) : BitVec 32 := (0 : BitVec 6) ++ o.times1 ++ o.sd ++ o.sa ++ o.sb ++ o.len1 ++ (0 : BitVec 7) ++ o.g
def packOpM (o : OpM) : BitVec 32 := (0 : BitVec 6) ++ o.d ++ o.a ++ bit o.ta ++ o.sz ++ o.off ++ o.g
def packOpMS (o : OpMS) : BitVec 32 := (0 : BitVec 6) ++ o.d ++ o.a ++ bit o.ta ++ (0 : BitVec 2) ++ o.off ++ o.g
def packOpMA (o : OpMA) : BitVec 32 := (0 : BitVec 12) ++ o.a ++ bit o.ta ++ (0 : BitVec 2) ++ o.off ++ o.g
def packOpStgm (o : OpStgm) : BitVec 32 := (0 : BitVec 6) ++ o.d ++ o.a ++ (0 : BitVec 3) ++ o.mask ++ o.g
def packOpFence (o : OpFence) : BitVec 32 := (0 : BitVec 22) ++ o.kind ++ o.scope ++ o.g
def packOpBar (o : OpBar) : BitVec 32 := (0 : BitVec 22) ++ o.level ++ (0 : BitVec 4) ++ o.g
def packOpQbind (o : OpQbind) : BitVec 32 := (0 : BitVec 12) ++ o.a ++ (0 : BitVec 4) ++ o.kind ++ o.qn ++ o.g
def packOpQd (o : OpQd) : BitVec 32 := (0 : BitVec 6) ++ o.d ++ (0 : BitVec 13) ++ o.qn ++ o.g
def packOpVM (o : OpVM) : BitVec 32 := (0 : BitVec 6) ++ o.vd ++ o.a ++ o.off ++ (0 : BitVec 3) ++ o.k ++ (0 : BitVec 3) ++ o.g
def packOpVMb (o : OpVMb) : BitVec 32 := (0 : BitVec 6) ++ o.vd ++ o.a ++ o.off ++ (0 : BitVec 3) ++ o.k ++ o.m3 ++ o.g
def packOpV (o : OpV) : BitVec 32 := (0 : BitVec 6) ++ o.vd ++ o.va ++ o.vb ++ o.t ++ (0 : BitVec 3) ++ o.k ++ o.m3 ++ o.g
def packOpVt (o : OpVt) : BitVec 32 := (0 : BitVec 6) ++ o.vd ++ o.va ++ o.vb ++ o.t ++ (0 : BitVec 3) ++ o.k ++ (0 : BitVec 3) ++ o.g
def packOpVabs (o : OpVabs) : BitVec 32 := (0 : BitVec 6) ++ o.vd ++ o.va ++ (0 : BitVec 4) ++ o.t ++ (0 : BitVec 3) ++ o.k ++ (0 : BitVec 3) ++ o.g
def packOpVcmp (o : OpVcmp) : BitVec 32 := (0 : BitVec 6) ++ o.mode ++ o.kt ++ o.va ++ o.vb ++ o.t ++ (0 : BitVec 3) ++ o.k ++ o.m3 ++ o.g
def packOpVcmpU (o : OpVcmpU) : BitVec 32 := (0 : BitVec 6) ++ o.mode ++ o.kt ++ o.va ++ o.vb ++ o.t ++ (0 : BitVec 3) ++ o.k ++ (0 : BitVec 3) ++ o.g
def packOpVredadd (o : OpVredadd) : BitVec 32 := (0 : BitVec 6) ++ o.d ++ o.va ++ o.k ++ o.t ++ (0 : BitVec 5) ++ o.rnd ++ o.g
def packOpVred (o : OpVred) : BitVec 32 := (0 : BitVec 6) ++ o.d ++ o.va ++ o.k ++ o.t ++ (0 : BitVec 8) ++ o.g
def packOpVidx (o : OpVidx) : BitVec 32 := (0 : BitVec 6) ++ o.d ++ o.va ++ (0 : BitVec 2) ++ o.t ++ (0 : BitVec 3) ++ o.imm ++ o.g
def packOpVdot (o : OpVdot) : BitVec 32 := (0 : BitVec 6) ++ o.d ++ o.va ++ o.k ++ (0 : BitVec 11) ++ o.g
def packOpVpopk (o : OpVpopk) : BitVec 32 := (0 : BitVec 6) ++ o.d ++ (0 : BitVec 4) ++ o.k ++ o.t ++ (0 : BitVec 8) ++ o.g
def packOpVlog (o : OpVlog) : BitVec 32 := (0 : BitVec 6) ++ o.vd ++ o.va ++ o.vb ++ (0 : BitVec 6) ++ o.k ++ (0 : BitVec 3) ++ o.g
def packOpVcvt (o : OpVcvt) : BitVec 32 := (0 : BitVec 6) ++ o.vd ++ o.va ++ (0 : BitVec 4) ++ o.t ++ (0 : BitVec 3) ++ o.k ++ o.m3 ++ o.g
def packOpQblk (o : OpQblk) : BitVec 32 := (0 : BitVec 6) ++ o.vd ++ o.va ++ (0 : BitVec 4) ++ o.t ++ (0 : BitVec 6) ++ o.typ ++ o.g
def packOpDqblk (o : OpDqblk) : BitVec 32 := (0 : BitVec 6) ++ o.vd ++ o.va ++ (0 : BitVec 4) ++ o.t ++ (0 : BitVec 8) ++ o.g
def packOpMx (o : OpMx) : BitVec 32 := (0 : BitVec 6) ++ o.acc ++ o.slot ++ o.a ++ (0 : BitVec 4) ++ o.arg ++ o.g
def packOpMst (o : OpMst) : BitVec 32 := (0 : BitVec 6) ++ o.acc ++ (0 : BitVec 4) ++ o.a ++ (0 : BitVec 10) ++ bit o.clr ++ o.g
def packOpMhint (o : OpMhint) : BitVec 32 := (0 : BitVec 22) ++ o.arg ++ o.g
def packOpMfmt (o : OpMfmt) : BitVec 32 := (0 : BitVec 10) ++ o.n ++ o.a ++ (0 : BitVec 11) ++ o.g
def packOpMrd (o : OpMrd) : BitVec 32 := (0 : BitVec 6) ++ o.acc ++ o.vd ++ (0 : BitVec 13) ++ o.row ++ o.g
def packOpEset (o : OpEset) : BitVec 32 := (0 : BitVec 12) ++ o.a ++ (0 : BitVec 4) ++ o.eng ++ o.field ++ o.g
def packOpEng (o : OpEng) : BitVec 32 := (0 : BitVec 22) ++ o.eng ++ (0 : BitVec 5) ++ o.g
def packOpEstat (o : OpEstat) : BitVec 32 := (0 : BitVec 6) ++ o.d ++ (0 : BitVec 10) ++ o.eng ++ (0 : BitVec 5) ++ o.g
def packOpSend (o : OpSend) : BitVec 32 := (0 : BitVec 6) ++ o.d ++ o.a ++ (0 : BitVec 10) ++ bit o.rel ++ o.g
def packOpDA (o : OpDA) : BitVec 32 := (0 : BitVec 6) ++ o.d ++ o.a ++ (0 : BitVec 11) ++ o.g
def packOpD (o : OpD) : BitVec 32 := (0 : BitVec 6) ++ o.d ++ (0 : BitVec 17) ++ o.g
def packOpA (o : OpA) : BitVec 32 := (0 : BitVec 12) ++ o.a ++ (0 : BitVec 11) ++ o.g
def packOpWidf (o : OpWidf) : BitVec 32 := (0 : BitVec 6) ++ o.d ++ (0 : BitVec 13) ++ bit o.e ++ o.j ++ o.g
def packOpLdnear (o : OpLdnear) : BitVec 32 := (0 : BitVec 6) ++ o.d ++ o.a ++ (0 : BitVec 6) ++ bit o.x ++ o.qn ++ o.g
def packOpAq (o : OpAq) : BitVec 32 := (0 : BitVec 12) ++ o.a ++ (0 : BitVec 7) ++ o.qn ++ o.g
def packOpDAq (o : OpDAq) : BitVec 32 := (0 : BitVec 6) ++ o.d ++ o.a ++ (0 : BitVec 7) ++ o.qn ++ o.g
def packOpTrap (o : OpTrap) : BitVec 32 := (0 : BitVec 22) ++ o.imm ++ o.g
def packOpCsrr (o : OpCsrr) : BitVec 32 := (0 : BitVec 6) ++ o.d ++ (0 : BitVec 10) ++ o.csr ++ o.g
def packOpCsrw (o : OpCsrw) : BitVec 32 := (0 : BitVec 6) ++ o.d ++ o.a ++ (0 : BitVec 4) ++ o.csr ++ o.g
def packOpCtxsave (o : OpCtxsave) : BitVec 32 := (0 : BitVec 6) ++ o.d ++ o.a ++ (0 : BitVec 6) ++ o.parts ++ o.g
def packOpCtxload (o : OpCtxload) : BitVec 32 := (0 : BitVec 6) ++ o.d ++ o.a ++ (0 : BitVec 5) ++ bit o.go ++ o.parts ++ o.g

/-- The word of an instruction (R225, R240, R241): the fixed bits of its row and its fields in their strip. An unassigned encoding is
its own word; a step without an encoding has the word 0. -/
def encode : Instr → BitVec 32
  | .add o => 0x04000000 ||| packOpR o
  | .sub o => 0x04000008 ||| packOpR o
  | .and o => 0x04000010 ||| packOpR o
  | .or o => 0x04000018 ||| packOpR o
  | .xor o => 0x04000020 ||| packOpR o
  | .andn o => 0x04000028 ||| packOpR o
  | .orn o => 0x04000030 ||| packOpR o
  | .xnor o => 0x04000038 ||| packOpR o
  | .shl o => 0x08000000 ||| packOpR o
  | .shr o => 0x08000008 ||| packOpR o
  | .sar o => 0x08000010 ||| packOpR o
  | .rol o => 0x08000018 ||| packOpR o
  | .min o => 0x08000020 ||| packOpR o
  | .max o => 0x08000028 ||| packOpR o
  | .minu o => 0x08000030 ||| packOpR o
  | .maxu o => 0x08000038 ||| packOpR o
  | .mul o => 0x0C000000 ||| packOpR o
  | .mulh o => 0x0C000008 ||| packOpR o
  | .mulhu o => 0x0C000010 ||| packOpR o
  | .mulhsu o => 0x0C000018 ||| packOpR o
  | .div o => 0x0C000020 ||| packOpR o
  | .divu o => 0x0C000028 ||| packOpR o
  | .rem o => 0x0C000030 ||| packOpR o
  | .remu o => 0x0C000038 ||| packOpR o
  | .clz o => 0x10000000 ||| packOpRDA o
  | .ctz o => 0x10000008 ||| packOpRDA o
  | .popc o => 0x10000010 ||| packOpRDA o
  | .brev o => 0x10000018 ||| packOpRDA o
  | .bswap o => 0x10000020 ||| packOpRDA o
  | .sext o => 0x10000028 ||| packOpR o
  | .zext o => 0x10000030 ||| packOpR o
  | .abs o => 0x10000038 ||| packOpRDA o
  | .cmpEq o => 0x14000000 ||| packOpCmp o
  | .cmpNe o => 0x14000008 ||| packOpCmp o
  | .cmpLt o => 0x14000010 ||| packOpCmp o
  | .cmpGe o => 0x14000018 ||| packOpCmp o
  | .cmpLtu o => 0x14000020 ||| packOpCmp o
  | .cmpGeu o => 0x14000028 ||| packOpCmp o
  | .cmpTst o => 0x14000030 ||| packOpCmp o
  | .cmpTstn o => 0x14000038 ||| packOpCmp o
  | .lea1 o => 0x18000000 ||| packOpR o
  | .lea2 o => 0x18000008 ||| packOpR o
  | .lea4 o => 0x18000010 ||| packOpR o
  | .lea8 o => 0x18000018 ||| packOpR o
  | .adds o => 0x18000020 ||| packOpR o
  | .subs o => 0x18000028 ||| packOpR o
  | .addus o => 0x18000030 ||| packOpR o
  | .subus o => 0x18000038 ||| packOpR o
  | .bfs o => 0x1C000000 ||| packOpBF o
  | .bfx o => 0x3C000000 ||| packOpBF o
  | .addi o => 0x20000000 ||| packOpI o
  | .andi o => 0x24000000 ||| packOpI o
  | .ori o => 0x28000000 ||| packOpI o
  | .xori o => 0x2C000000 ||| packOpI o
  | .muli o => 0x38000000 ||| packOpI o
  | .shli o => 0x30000000 ||| packOpShi o
  | .shri o => 0x30000400 ||| packOpShi o
  | .sari o => 0x30000800 ||| packOpShi o
  | .roli o => 0x30000C00 ||| packOpShi o
  | .cmpiEq o => 0x34000000 ||| packOpCmpi o
  | .cmpiNe o => 0x34000400 ||| packOpCmpi o
  | .cmpiLt o => 0x34000800 ||| packOpCmpi o
  | .cmpiGe o => 0x34000C00 ||| packOpCmpi o
  | .cmpiLtu o => 0x34001000 ||| packOpCmpi o
  | .cmpiGeu o => 0x34001400 ||| packOpCmpi o
  | .cmpiTst o => 0x34001800 ||| packOpCmpi o
  | .cmpiTstn o => 0x34001C00 ||| packOpCmpi o
  | .movi o => 0x40000000 ||| packOpL o
  | .movh o => 0x44000000 ||| packOpL16 o
  | .pcrel o => 0x48000000 ||| packOpL o
  | .br o => 0x50000000 ||| packOpB o
  | .call o => 0x54000000 ||| packOpB o
  | .jr o => 0x58000000 ||| packOpRA o
  | .jalr o => 0x58000008 ||| packOpRDA o
  | .ret o => 0x58000010 ||| packOpG o
  | .repf o => 0x5C000000 ||| packOpRepf o
  | .pand o => 0x60000000 ||| packOpP3 o
  | .por o => 0x60000008 ||| packOpP3 o
  | .pxor o => 0x60000010 ||| packOpP3 o
  | .pnot o => 0x60000018 ||| packOpP2 o
  | .pget o => 0x60000020 ||| packOpD o
  | .pset o => 0x60000028 ||| packOpRA o
  | .kmov o => 0x60000030 ||| packOpK2 o
  | .ldl o => 0x80000000 ||| packOpM o
  | .ldls o => 0x84000000 ||| packOpM o
  | .stl o => 0x88000000 ||| packOpM o
  | .ldg o => 0x8C000000 ||| packOpM o
  | .ldgs o => 0x90000000 ||| packOpM o
  | .stg o => 0x94000000 ||| packOpM o
  | .ldw o => 0x98000000 ||| packOpMS o
  | .lde o => 0x98000800 ||| packOpMS o
  | .stf o => 0x98001000 ||| packOpMS o
  | .sete o => 0x98001800 ||| packOpMA o
  | .ldr o => 0x9C000000 ||| packOpMS o
  | .str o => 0x9C000800 ||| packOpMS o
  | .ldre o => 0x9C001000 ||| packOpMS o
  | .strf o => 0x9C001800 ||| packOpMS o
  | .stgm o => 0xB4001800 ||| packOpStgm o
  | .faal o => 0xA0000000 ||| packOpR o
  | .swapl o => 0xA0000008 ||| packOpR o
  | .casl o => 0xA0000010 ||| packOpR o
  | .fandl o => 0xA0000018 ||| packOpR o
  | .forl o => 0xA0000020 ||| packOpR o
  | .fxorl o => 0xA0000028 ||| packOpR o
  | .fminl o => 0xA0000030 ||| packOpR o
  | .fmaxl o => 0xA0000038 ||| packOpR o
  | .faa o => 0xA4000000 ||| packOpR o
  | .swap o => 0xA4000008 ||| packOpR o
  | .cas o => 0xA4000010 ||| packOpR o
  | .lr o => 0xA4000018 ||| packOpRDA o
  | .sc o => 0xA4000020 ||| packOpR o
  | .amax o => 0xA4000028 ||| packOpR o
  | .waitrs o => 0xA4000030 ||| packOpR o
  | .rsvrel o => 0xA4000038 ||| packOpRA o
  | .raddI64 o => 0xA8000000 ||| packOpRed o
  | .raddF32 o => 0xA8000008 ||| packOpRed o
  | .raddF64 o => 0xA8000010 ||| packOpRed o
  | .rmin o => 0xA8000018 ||| packOpRed o
  | .rmax o => 0xA8000020 ||| packOpRed o
  | .rand o => 0xA8000028 ||| packOpRed o
  | .ror o => 0xA8000030 ||| packOpRed o
  | .rxor o => 0xA8000038 ||| packOpRed o
  | .fence o => 0xAC000000 ||| packOpFence o
  | .bar o => 0xAC000400 ||| packOpBar o
  | .qbind o => 0xB0000000 ||| packOpQbind o
  | .qstat o => 0xB0000400 ||| packOpQd o
  | .qflush o => 0xB0000800 ||| packOpQd o
  | .qunbind o => 0xB0000C00 ||| packOpQd o
  | .vldl o => 0xC0000000 ||| packOpVM o
  | .vstl o => 0xC0000100 ||| packOpVM o
  | .vldg o => 0xC0000200 ||| packOpVM o
  | .vstg o => 0xC0000300 ||| packOpVM o
  | .vgatl o => 0xC0000400 ||| packOpVM o
  | .vscal o => 0xC0000500 ||| packOpVM o
  | .vldb o => 0xC0000600 ||| packOpVMb o
  | .vfaVadd o => 0xC4000000 ||| packOpV o
  | .vfaVsub o => 0xC4000100 ||| packOpV o
  | .vfaVmul o => 0xC4000200 ||| packOpV o
  | .vfma o => 0xC4000300 ||| packOpV o
  | .vfaVmin o => 0xC4000400 ||| packOpVt o
  | .vfaVmax o => 0xC4000500 ||| packOpVt o
  | .vabs o => 0xC4000600 ||| packOpVabs o
  | .vneg o => 0xC4000700 ||| packOpVabs o
  | .viaVadd o => 0xC8000000 ||| packOpVt o
  | .viaVsub o => 0xC8000100 ||| packOpVt o
  | .viaVmul o => 0xC8000200 ||| packOpVt o
  | .vmad o => 0xC8000300 ||| packOpVt o
  | .viaVmin o => 0xC8000400 ||| packOpV o
  | .viaVmax o => 0xC8000500 ||| packOpV o
  | .vadds o => 0xC8000600 ||| packOpV o
  | .vshl o => 0xC8000700 ||| packOpVt o
  | .vcmpEq o => 0xCC000000 ||| packOpVcmp o
  | .vcmpNe o => 0xCC000100 ||| packOpVcmp o
  | .vcmpLt o => 0xCC000200 ||| packOpVcmp o
  | .vcmpLe o => 0xCC000300 ||| packOpVcmp o
  | .vcmpGt o => 0xCC000400 ||| packOpVcmp o
  | .vcmpGe o => 0xCC000500 ||| packOpVcmp o
  | .vcmpUnord o => 0xCC000600 ||| packOpVcmpU o
  | .vredadd o => 0xD0000000 ||| packOpVredadd o
  | .vredmax o => 0xD0000100 ||| packOpVred o
  | .vredmin o => 0xD0000200 ||| packOpVred o
  | .vext o => 0xD0000300 ||| packOpVidx o
  | .vins o => 0xD0000400 ||| packOpVidx o
  | .vbcst o => 0xD0000500 ||| packOpVred o
  | .vdot8 o => 0xD0000600 ||| packOpVdot o
  | .vpopk o => 0xD0000700 ||| packOpVpopk o
  | .vsel o => 0xD4001000 ||| packOpVlog o
  | .vshuf o => 0xD4000100 ||| packOpVt o
  | .vzip o => 0xD4000200 ||| packOpV o
  | .vunzip o => 0xD4000300 ||| packOpV o
  | .vand o => 0xD4001400 ||| packOpVlog o
  | .vor o => 0xD4001500 ||| packOpVlog o
  | .vxor o => 0xD4001600 ||| packOpVlog o
  | .vshr o => 0xD4000700 ||| packOpV o
  | .cvt o => 0xD8000000 ||| packOpVcvt o
  | .qblk o => 0xD8000100 ||| packOpQblk o
  | .dqblk o => 0xD8000200 ||| packOpDqblk o
  | .vrnd o => 0xD8000300 ||| packOpVcvt o
  | .vrcp o => 0xDC000000 ||| packOpVcvt o
  | .vrsq o => 0xDC000100 ||| packOpVcvt o
  | .vex2 o => 0xDC000200 ||| packOpVcvt o
  | .vlg2 o => 0xDC000300 ||| packOpVcvt o
  | .vsqrt o => 0xDC000400 ||| packOpVcvt o
  | .mldw o => 0xE0000000 ||| packOpMx o
  | .mma o => 0xE0000400 ||| packOpMx o
  | .mmaz o => 0xE0000800 ||| packOpMx o
  | .mst o => 0xE0000C00 ||| packOpMst o
  | .mhint o => 0xE0001000 ||| packOpMhint o
  | .mfmt o => 0xE0001400 ||| packOpMfmt o
  | .mrd o => 0xE0001800 ||| packOpMrd o
  | .eset o => 0xE8000000 ||| packOpEset o
  | .ego o => 0xE8000400 ||| packOpEng o
  | .estat o => 0xE8000800 ||| packOpEstat o
  | .ecan o => 0xE8000C00 ||| packOpEng o
  | .send o => 0xEC000000 ||| packOpSend o
  | .recv o => 0xEC000400 ||| packOpDA o
  | .enq o => 0xEC000800 ||| packOpSend o
  | .spawn o => 0xEC000C00 ||| packOpD o
  | .exit o => 0xEC001000 ||| packOpG o
  | .widf o => 0xEC001400 ||| packOpWidf o
  | .ibxs o => 0xEC001800 ||| packOpD o
  | .stvec o => 0xF0000000 ||| packOpDA o
  | .ldnear o => 0xF0000400 ||| packOpLdnear o
  | .delvec o => 0xF0000800 ||| packOpDA o
  | .ixpin o => 0xF0000C00 ||| packOpDA o
  | .ixunpin o => 0xF0001000 ||| packOpDA o
  | .ixstat o => 0xF0001400 ||| packOpAq o
  | .setpos o => 0xF4000000 ||| packOpDA o
  | .neigh o => 0xF4000400 ||| packOpDAq o
  | .cellq o => 0xF4000800 ||| packOpD o
  | .migr o => 0xF4000C00 ||| packOpA o
  | .anchor o => 0xF4001000 ||| packOpG o
  | .unanchor o => 0xF4001400 ||| packOpG o
  | .cellsync o => 0xF4001800 ||| packOpG o
  | .ill => 0x00000000
  | .nop o => 0x00000008 ||| packOpG o
  | .ifence o => 0x00000010 ||| packOpG o
  | .eret o => 0x00000018 ||| packOpG o
  | .halt o => 0x00000020 ||| packOpG o
  | .wfe o => 0x00000028 ||| packOpG o
  | .dbgbrk o => 0x00000030 ||| packOpG o
  | .trap o => 0x00000400 ||| packOpTrap o
  | .csrr o => 0x00000800 ||| packOpCsrr o
  | .csrw o => 0x00000C00 ||| packOpCsrw o
  | .csrs o => 0x00001000 ||| packOpCsrw o
  | .csrc o => 0x00001400 ||| packOpCsrw o
  | .ctxsave o => 0x00001800 ||| packOpCtxsave o
  | .ctxload o => 0x00001C00 ||| packOpCtxload o
  | .seatctlStat o => 0x00002000 ||| packOpDA o
  | .seatctlStop o => 0x00002008 ||| packOpDA o
  | .seatctlStart o => 0x00002010 ||| packOpDA o
  | .seatctlWake o => 0x00002018 ||| packOpDA o
  | .timer _ => 0
  | .waitlimExpiry _ => 0
  | .barrierWaitLimit _ => 0
  | .bankService _ => 0
  | .meshRequestAccept _ => 0
  | .waitTableAttempt _ _ => 0
  | .waitBudgetBoundary _ _ => 0
  | .nackResend _ => 0
  | .registerFill _ => 0
  | .acknowledgement _ => 0
  | .limitReply _ => 0
  | .heldNotice _ => 0
  | .combinedNotice _ => 0
  | .noreply _ => 0
  | .vallost _ => 0
  | .combiningPointTimeout _ => 0
  | .flitLoss _ => 0
  | .stationRequest _ => 0
  | .tableWalk _ => 0
  | .heldReplay _ _ _ => 0
  | .rsvtimeRevocation _ _ => 0
  | .waitrsReport _ _ => 0
  | .waitrsLimit _ => 0
  | .tierPieceCopy _ => 0
  | .nearCacheProbe _ _ _ _ => 0
  | .translationInvalidate _ _ _ _ => 0
  | .nearCacheFill _ => 0
  | .writeBackLoss _ => 0
  | .combinerMerge _ => 0
  | .combinerSend _ => 0
  | .routerCombine _ _ _ => 0
  | .replySplit _ => 0
  | .engineShadowTake _ => 0
  | .streamPush _ => 0
  | .collectiveStart _ => 0
  | .collectiveJoinTimeout _ => 0
  | .engineCompletion _ => 0
  | .completionDrop _ => 0
  | .inboxArrival _ => 0
  | .inboxHeldWrite _ => 0
  | .portWordArrival _ => 0
  | .enqAdmission _ => 0
  | .ringPacketFetch _ => 0
  | .dispatchSelection _ => 0
  | .expansion _ _ => 0
  | .runQueueArrival _ => 0
  | .seatTake _ => 0
  | .parkswap _ => 0
  | .instructionFetchFill _ => 0
  | .descriptorArrival _ => 0
  | .dependenceDecrement _ _ => 0
  | .sweepPennant _ => 0
  | .launchCompletionDrop _ => 0
  | .cancelBroadcast _ _ => 0
  | .cancel _ => 0
  | .trapNotice _ => 0
  | .squareHandover _ => 0
  | .departingRemoval _ _ _ => 0
  | .admission _ _ => 0
  | .neighSquareQuery _ => 0
  | .ladderAdmission _ => 0
  | .insertCommit _ => 0
  | .queryPacket _ => 0
  | .reclamation _ _ => 0
  | .sampledRerun _ => 0
  | .matrixUnitTake _ => 0
  | .kStep _ => 0
  | .matrixCompletion _ => 0
  | .rampEnd _ => 0
  | .holdWindowEnd _ => 0
  | .downEnd _ => 0
  | .checkpoint _ _ => 0
  | .checkpointCommit _ _ => 0
  | .doubletMismatch _ _ => 0
  | .bridgePacket _ => 0
  | .deviceReset => 0
  | .powerMeasurement _ _ => 0
  | .cmdtailDoorbell _ _ _ => 0
  | .queueEnable _ _ _ => 0
  | .cplheadWrite _ _ _ => 0
  | .evlostClear _ _ _ => 0
  | .hostRegisterWrite _ _ _ => 0
  | .ident _ _ => 0
  | .negotiate _ _ => 0
  | .deviceSet _ _ => 0
  | .powerCap _ _ => 0
  | .attest _ _ => 0
  | .ctxCreate _ _ => 0
  | .ctxDestroy _ _ => 0
  | .map _ _ => 0
  | .unmap _ _ => 0
  | .pageMove _ _ => 0
  | .blockSet _ _ => 0
  | .memCopy _ _ => 0
  | .queueCreate _ _ => 0
  | .queueDestroy _ _ => 0
  | .queueSubmit _ _ => 0
  | .scopeSet _ _ => 0
  | .boardSet _ _ => 0
  | .indexCreate _ _ => 0
  | .indexDestroy _ _ => 0
  | .graphCreate _ _ => 0
  | .graphPatch _ _ => 0
  | .graphReplay _ _ => 0
  | .jobCancel _ _ => 0
  | .debugHalt _ _ => 0
  | .debugResume _ _ => 0
  | .debugRegread _ _ => 0
  | .debugRegwrite _ _ => 0
  | .debugLocalread _ _ => 0
  | .debugLocalwrite _ _ => 0
  | .debugBreakarm _ _ => 0
  | .debugBreakoff _ _ => 0
  | .unassignedEncoding w => w
  | .badop _ _ => 0
  | .hostLinkDown => 0
  | .hostLinkUp => 0
  | .hostAccessCompletion _ => 0
  | .softError _ => 0
  | .engineAccessReply _ => 0
  | .resultStreamArrival _ => 0

/-- The guard field of the word of an instruction (R223). -/
def guardOf (w : BitVec 32) : BitVec 3 := w.extractLsb' 0 3

end Sys2Proof
end

