-- ==== Sys2Proof/Machine/State.lean ====
section
/-!
DEFINITION. The state of one H9 package, its fabric neighbours seen through packets only, and its host's memory: plain data.
Every structure names the rules of the specification that give it. Addresses of memory cells, cycles and internal numbers are
natural numbers; registers and fields that programs see are bit vectors.
-/

namespace Sys2Proof.Machine

/-! ## Threads -/

/-- Full, pending or poisoned, for the registers whose poison record is not held in the register (R295, R407). -/
inductive RegState where
  | full
  | pending
  | poisoned
  deriving DecidableEq, Repr

/-- Thread kinds (R171). -/
inductive Kind where
  | roaming
  | anchored
  | bound
  deriving DecidableEq, Repr

/-- The registers that the portable context holds (R172, R195, R196, R202). A register gn is full when bit n of `full` is set;
otherwise bit 63 of its word tells pending (0) from poisoned (1), and a poisoned word is the record of R199. -/
structure Regs where
  g : Vector Word 24
  full : BitVec 24
  pw : Word
  /-- The poison record of pw (R407). -/
  pwPoison : Option Word
  xy : Word
  zw : Word
  wid : Word
  pc : Word
  deriving DecidableEq, Repr

/-- XSTAT (R204). -/
structure Xstat where
  te : Bool
  uh : Bool
  sys : Bool
  /-- 1 is supervisor. -/
  pmode : Bool
  mode : Bool
  deriving DecidableEq, Repr

/-- The thread-scope CSRs of R205 other than WAITLIM, ASID and LAUNCH. -/
structure SysRegs where
  xstat : Xstat
  xcause : BitVec 16
  xval : Word
  xpc : Word
  frm : BitVec 3
  fflags : BitVec 5
  srseed : Word
  satcnt : Word
  framest : Word
  uxvec : Word
  /-- [32] CANCELLED, [31:0] job id. -/
  job : BitVec 33
  widshape : BitVec 42
  fs : Vector Word 4
  board : Word
  faultq : Word
  deriving DecidableEq, Repr

/-- The seat's copy of a descriptor's word 0 (R311): invalid, with the fault of the read when it met one; pending; or the word. -/
inductive FsCopy where
  | invalid
  | faulted (subcode : BitVec 8)
  | pending
  | word (w : Word)
  deriving DecidableEq, Repr

/-- Accumulator type tags (R203). -/
inductive AccTag where
  | fp32
  | int32
  | fp64
  deriving DecidableEq, Repr

/-- What only an anchored thread holds (R203): vector registers with their states, accumulators and tags. A poisoned vector
register holds its record in bits [63:0] (R295). -/
structure VecState where
  v : Vector Line 16
  vst : Vector RegState 16
  acc : Vector (BitVec 8192) 4
  tag : Vector AccTag 4
  deriving DecidableEq, Repr

/-- The words of STATE that concern barriers and events (R373), and the EVENT bit (R360). -/
structure BarState where
  barr : Bool
  carr : Bool
  blev : BitVec 3
  bgen : BitVec 32
  event : Bool
  deriving DecidableEq, Repr

/-- Where an answer goes: a general register, a vector register under its mask of active bytes, or nowhere. -/
inductive Dest where
  | none
  | g (n : Nat)
  | v (n : Nat) (bytes : BitVec 64)
  deriving DecidableEq, Repr

/-- The classes of R109 and R270. -/
inductive AnsClass where
  | load
  | store
  /-- A write-back made for a release (R76) or for R114. -/
  | writeBack
  deriving DecidableEq, Repr

/-- The unit of same-granule order that a request occupies (R78, R119), or an index (R100), or nothing. -/
inductive Granule where
  | none
  | global (va : Nat)
  | mesh (block : Nat)
  | index (n : Nat)
  deriving DecidableEq, Repr

/-- An answer that is owed to a thread (R109, R373 OUTST). -/
structure Owed where
  req : Nat
  cls : AnsClass
  gran : List Granule
  dest : Dest
  /-- The destination has been written by a debugger since issue, so the fill is discarded (R415). -/
  stale : Bool
  deriving DecidableEq, Repr

/-- The shadow sets of the copy, gather and collective engines (R144, R324 to R326): field f of engine e is word 32e + f; and
the mark of a field written since the last EGO to the engine (R323). -/
structure Shadows where
  fields : Vector Word 96
  dirty : BitVec 3
  deriving DecidableEq, Repr

/-- The dirty-line list of a seat (R76). -/
structure DirtyList where
  lines : List Nat
  ovf : Bool
  deriving DecidableEq, Repr

/-- A wait of the thread at its instruction: since when it has been parked (R385), and for a SYNC, BAR, CELLSYNC or WFE the cycles
that it has waited while holding a seat (R48, R49). -/
structure Park where
  parked : Bool
  since : Nat
  /-- The waiting instruction's count is running. -/
  counting : Bool
  /-- Cycles waited before `countSince`. -/
  waited : Nat
  countSince : Nat
  /-- The thread has no seat, or its seat is halted by a debugger, so that no cycle counts (R48, R414). -/
  held : Bool
  deriving DecidableEq, Repr

/-- The captured frame of a REPF (R229 to R231): the REPF word and the words that follow it. FRAMEST holds the place in it. -/
structure Frame where
  repf : BitVec 32
  words : List (BitVec 32)
  deriving DecidableEq, Repr

/-- Where the context of a thread resides (R172, R197). -/
inductive Loc where
  | seat (n : Nat)
  | runQueue (core : Nat)
  /-- Carried by a migration. -/
  | moving (mig : Nat)
  /-- In transit on its seat: it waits for its answers, for a destination or for admission (R174, R355). -/
  | transit (seat : Nat)
  /-- Removed by the firmware; it counts as exited once its answers have arrived (R397). -/
  | gone
  deriving DecidableEq, Repr

/-- How dispatch started the thread (R180, R334, R388): its task, and the queue address that started it. -/
structure Origin where
  task : Option Nat
  queue : Option Nat
  deriving DecidableEq, Repr

/-- A thread (R172, R205, R207). -/
structure Thread where
  regs : Regs
  kind : Kind
  prio : BitVec 2
  placed : Bool
  role : Bool
  asid : BitVec 16
  launch : BitVec 32
  limit : BitVec 16
  defer : Word
  sys : SysRegs
  fsCopy : Vector FsCopy 4
  vec : VecState
  bar : BarState
  owed : List Owed
  shadows : Shadows
  dirtyLines : DirtyList
  park : Park
  frame : Option Frame
  origin : Origin
  loc : Loc
  /-- The thread has held a seat since its dispatch (R180, R311). -/
  started : Bool
  /-- The thread has taken its CANCEL (R391). -/
  cancelTaken : Bool
  /-- An acquire that the thread performs before it issues again, and whether it is wide: that of its start, of a restore or of a RECV
  (R111). -/
  acquireDue : Option Bool
  /-- The acquire that is due is that of its start (R111). -/
  startDue : Bool
  deriving DecidableEq, Repr

/-! ## Seats and local accesses -/

/-- What a bank access does to its word (R40, R41, R44, R46). -/
inductive BankOp where
  /-- A plain read. -/
  | read
  /-- A plain write of the bytes that the mask enables. -/
  | write (mask : BitVec 8) (data : Word)
  /-- A local atomic, by the minor F of R126. -/
  | atomic (f : BitVec 3) (b : Word) (expected : Word)
  /-- A synchronising attempt, by OP of R45. -/
  | sync (op : BitVec 2) (data : Word)
  /-- A word of a discardable region becomes zero and empty (R404). -/
  | clear
  /-- A rollback puts back a word and its full/empty bit (R412). -/
  | restore (full : Bool) (w : Word)
  deriving DecidableEq, Repr

/-- One word access of a local access: the word's cluster offset, and what it does. `lane` is its place in the instruction. -/
structure BankPart where
  off : Nat
  op : BankOp
  lane : Nat
  deriving DecidableEq, Repr

/-- What a store has replaced at a bank, so that a trap of its instruction can take it back (R394): the word's cluster offset, the bytes of it that nobody
has written since, the word and its poison mark. -/
structure Undo where
  off : Nat
  mask : BitVec 8
  word : Word
  poison : Bool
  deriving DecidableEq, Repr

/-- What the completion of a local access writes (R38, R273, R279, R297, R298, R332). -/
inductive LocalKind where
  /-- The words of an inbox view or of a spill area that the sources of the instruction at PC pop (R200): it issues once they have been read. -/
  | pop
  | load (d : BitVec 6) (size : Nat) (signed : Bool) (lo : Nat)
  | store
  | atomic (d : BitVec 6)
  | sync (op : BitVec 2) (d : BitVec 6)
  | vload (vd : BitVec 4) (bytes : BitVec 64)
  | vbcast (vd : BitVec 4) (bytes : BitVec 64) (period : Nat)
  | gather (vd : BitVec 4)
  | vstore
  /-- The nine words of the entry that a RECV takes (R332): where the payload and the header go, and the entry's index. -/
  | recv (d a : BitVec 6) (idx : Nat)
  /-- The block moves of a CTXSAVE or a CTXLOAD of a seat (R374, R376): the thread saved or loaded, if it is known, and the place of its area. A load
clears the discardable regions once it has read the area (R404). -/
  | save (seat uid place : Nat) (parts : BitVec 5)
  | restore (seat place : Nat) (uid : Option Nat) (parts : BitVec 5) (go : Bool) (clearing : Bool)
  /-- A doublet puts back what its log holds (R412). -/
  | rollback
  deriving DecidableEq, Repr

/-- A local access in progress (R38, R39): its kind, the offset for a trap, the accesses not yet served, the words read by lane, and
what went wrong. -/
structure LocalOp where
  uid : Nat
  kind : LocalKind
  /-- The segment offset o, and g[A]-based offsets of lanes for a poisoned word. -/
  off : Word
  /-- LBASE at issue: a word's segment offset is its cluster offset less this. -/
  base : Nat
  remaining : Nat
  /-- What the stores performed, or the header access of a RECV, have replaced, the latest first (R394). -/
  undo : List Undo
  got : List (Nat × Word)
  /-- The segment offset of a poisoned word met (R407). -/
  poison : Option Word
  /-- A synchronising attempt that did not succeed. -/
  failed : Bool
  /-- The cycle in which the latest part completes. -/
  done : Nat
  deriving DecidableEq, Repr

/-- A word that a source of the seat's instruction has popped (R201): the queue register, its binder, the word with the cycle of its push,
and for an inbox view the entry (R183), and whether the word was its eighth. -/
structure PopRec where
  q : Nat
  asid : BitVec 16
  word : Word
  stamp : Nat
  entry : Option Nat
  last : Bool
  deriving DecidableEq, Repr

/-- A trap that is taken at the seat's next turn (R49, R315, R407). -/
structure DueTrap where
  cause : BitVec 8
  sub : BitVec 8
  xval : Word
  deriving DecidableEq, Repr

/-- Why a seat has left the rotation. -/
inductive OffReason where
  /-- A matrix unit instruction is outstanding (R309). -/
  | matrix
  /-- A fetch misses (R222). -/
  | fetch (req : Nat)
  /-- A descriptor read is outstanding (R311, R312). -/
  | descriptor (req : Nat)
  /-- The turns after a PARKSWAP (R385). -/
  | swap (untilCycle : Nat)
  /-- A CTXSAVE or CTXLOAD moves its blocks (R374, R376). -/
  | context
  /-- A SEATCTL.stop waits until the seats that it stops have stopped; the register for the status (R371). -/
  | stopping (seat : Nat) (d : BitVec 6)
  /-- A CTXSAVE that has passed its checks waits for the thread's matrix operation, its release or a route: the seat and its thread, the area's offset
  and place (R374, R375). -/
  | saving (seat uid : Nat) (off : Word) (place : Nat) (parts : BitVec 5)
  deriving DecidableEq, Repr

/-- A seat (R3, R205, R371): its seat-scope CSRs and what belongs to the slot and not to its thread. -/
structure Seat where
  /-- The thread that holds the seat, by its internal number. -/
  occ : Option Nat
  xvec : Word
  sscr : Vector Word 4
  quantum : BitVec 32
  /-- The timer counter (R370) and the cycle at which it was last brought up to date. -/
  timer : BitVec 32
  timerAt : Nat
  timerDue : Bool
  lbase : Word
  llim : Word
  wbseg : BitVec 16
  disc : Vector Word 4
  doubletc : Word
  deleg : Word
  pmc : Vector Word 16
  pmcsel : Word
  stop : Bool
  halt : Bool
  tstop : Bool
  /-- Halted by a debugger (R414). -/
  dbgHalt : Bool
  /-- ASID and mode of the last thread that held the seat (R160). -/
  last : Option (BitVec 16 × Bool)
  /-- The send queue (R153): messages by number, oldest first. -/
  sendq : List Nat
  /-- Shadows committed and not yet taken, per engine (R144). -/
  committed : BitVec 3
  /-- SUBCODE and STATUS of the latest completion, per engine (R328). -/
  engStatus : Vector (BitVec 16) 3
  localOp : Option LocalOp
  /-- The first cycle in which the seat's earlier local accesses have completed (R38). -/
  localDone : Nat
  off : Option OffReason
  due : Option DueTrap
  /-- The words that the instruction in progress has popped, the latest first: they go back if it traps or parks (R201, R394). -/
  pops : List PopRec
  /-- Words that banks have read for the pops of the instruction at PC, by cluster offset (R37, R200). -/
  fetched : List (Nat × Word)
  /-- No turn of the seat before this cycle is left. -/
  nextTurn : Nat
  deriving DecidableEq, Repr

/-! ## Cores -/

/-- Kinds of a bound queue register (R200, R287). -/
inductive QKind where
  | fifo
  | stream
  | port
  | inbox
  | result
  deriving DecidableEq, Repr

/-- A bound queue register (R200): kind, binder's ASID, parameter g[A], the words held with the cycle of their push, and for a result
stream the words spilled (count since binding, and those not yet popped by their area index), the segment of the binder at
the binding, the producer that feeds it, and how many payload words of an inbox entry have been popped. -/
structure Queue where
  kind : QKind
  asid : BitVec 16
  param : Word
  words : List (Word × Nat)
  /-- The thread that bound it (R201). -/
  binder : Nat
  spilledTotal : Nat
  spilled : List Nat
  base : Nat
  feeder : Option Nat
  popped : Nat
  /-- Words of the context's overflow area, by index (R403). -/
  overflow : List Nat
  /-- Spilled words whose write waits at its bank: its number and the index of the word (R200, R37). -/
  unwritten : List (Nat × Nat)
  deriving DecidableEq, Repr

/-- A context in a run queue (R384). -/
structure RunEntry where
  uid : Nat
  since : Nat
  deriving DecidableEq, Repr

/-- An instruction-cache line (R222); a marked word came poisoned, and is fetched again before it is used (R407). -/
structure ILine where
  asid : BitVec 16
  va : Nat
  data : Line
  poison : BitVec 8
  deriving DecidableEq, Repr

/-- The route of a saved context's answers (R375): the thread's former number, the area's cluster offset, the answers owed. -/
structure Route where
  uid : Nat
  area : Nat
  asid : BitVec 16
  launch : BitVec 32
  owed : List Owed
  /-- Part C was saved, so that word 57 of the area holds OUTST. -/
  partC : Bool
  deriving DecidableEq, Repr

/-- A trap notice that waits for room in the inbox (R368). -/
structure Notice where
  seat : Nat
  asid : BitVec 16
  payload : List Word
  deriving DecidableEq, Repr

/-- An entry that is being written into an inbox (R158): its index, its payload and header, the words not yet served, and the cycle from which
TAIL may count it once all are. -/
structure InWrite where
  idx : Nat
  payload : List Word
  header : Word
  left : Nat
  ready : Nat
  /-- The SEND that is acknowledged once the entry is written (R125). -/
  msg : Option Nat
  deriving DecidableEq, Repr

/-- A core (R3, R156, R200, R222, R375, R384). -/
structure Core where
  inboxb : Word
  inboxp : Word
  /-- The cycle in which a CSR instruction last wrote INBOXB or INBOXP, and both before it: the interface sees the write from the next cycle on (R364,
  R365). -/
  before : Option (Nat × Word × Word)
  prioAging : BitVec 16
  parkswap : BitVec 16
  qs : Vector (Option Queue) 16
  runq : List RunEntry
  /-- Messages held at a full ring, payload, header and the SEND that brought it, oldest first (R158). -/
  held : List (List Word × Word × Option Nat)
  /-- Entries in writing, in the order of their indexes (R158). -/
  writing : List InWrite
  notices : List Notice
  /-- Trap stops whose notice the core has still to write or to send, with the thread (R368). -/
  stops : List (Nat × Notice)
  /-- OVF has changed from 0 to 1: the seat that takes INBOX at its next turn (R158). -/
  ovfDue : Option Nat
  icache : List ILine
  routes : List Route
  deriving DecidableEq, Repr

/-! ## Tiles and the matrix unit -/

/-- A weight slot's record (R314). -/
structure SlotRec where
  fmt : BitVec 4
  mode : BitVec 2
  kcnt : Nat
  /-- Unexpanded contents, byte by byte from 0. -/
  bytes : List Byte
  /-- An uncorrectable error (R407). -/
  damaged : Bool
  deriving DecidableEq, Repr

/-- A weight slot: its record when valid. The seats' WBSEG says to whom it is granted. -/
structure Slot where
  content : Option SlotRec
  deriving DecidableEq, Repr

/-- States of the matrix unit (R317). `ramp n`: n cycles have passed; `full`; `down n`. -/
inductive MuState where
  | idle
  | ramp (since : Nat)
  | full
  | down (since : Nat)
  deriving DecidableEq, Repr

/-- A matrix instruction taken at issue (R309, R314, R315, R318). -/
inductive MuOp where
  | mldw (mode : BitVec 2) (slot : Nat) (steps : Nat) (fmt : BitVec 4) (word : BitVec 32)
  | mma (zero : Bool) (acc : Nat) (slot : Nat) (steps : Nat) (fmtA : BitVec 4) (splane : Nat) (word : BitVec 32)
  | mst (acc : Nat) (clr : Bool) (fmt : BitVec 4) (scale : BitVec 32)
  deriving DecidableEq, Repr

/-- A matrix instruction at the unit: the seat, its thread, the source or destination as an offset and as a cluster offset, the
segment limit at issue, and the steps, words or bytes done. -/
structure MuJob where
  seat : Nat
  uid : Nat
  op : MuOp
  off : Word
  base : Nat
  segLen : Nat
  step : Nat
  /-- The unit has taken the job. -/
  taken : Bool
  issued : Nat
  /-- The cycle in which the job completes, once known. -/
  completes : Option Nat
  /-- Words of its batch that wait at the banks; those served, by place; the first of them that was poisoned, as a cluster offset; and of an MMA
  the step whose operand the batch is (R316). -/
  asked : Nat
  got : List (Nat × Word)
  badOff : Option Nat
  fetch : Option Nat
  /-- What an MST has replaced in memory, the latest first (R394). -/
  undo : List Undo
  deriving DecidableEq, Repr

/-- An entry of the A-operand buffer (R316): the extents of its data and of its scale bytes, and its format. Its bytes are those that
the banks hold, since a write to any of them invalidates it. -/
structure AEntry where
  off : Nat
  len : Nat
  scaleOff : Nat
  scaleLen : Nat
  fmt : BitVec 4
  /-- The first poisoned word that its fetch met, as a cluster offset (R407). -/
  poison : Option Nat
  deriving DecidableEq, Repr

/-- A tile (R3, R308, R314 to R317). -/
structure Tile where
  slots : Vector Slot 16
  mu : MuState
  /-- Cycle since which the unit has been idle. -/
  idleSince : Nat
  lastKStep : Nat
  /-- End of the hold window in force. -/
  windowEnd : Nat
  /-- A hold window of this many cycles starts when RAMP ends. -/
  pendingWindow : Nat
  jobs : List MuJob
  abuf : List AEntry
  /-- K-steps taken in the last cycles, for the throttle of R465. -/
  recentSteps : List Nat
  deriving DecidableEq, Repr

/-! ## Clusters -/

/-- A block owner entry (R19). -/
structure BlockOwner where
  v : Bool
  w : Bool
  owner : BitVec 16
  deriving DecidableEq, Repr

/-- A wait-table entry (R52). -/
structure WaitEntry where
  req : Nat
  off : Nat
  made : Nat
  budget : Nat
  deriving DecidableEq, Repr

/-- A near-cache line (R73, R75, R69). Byte i of `valid` and `dirty` concerns byte i; bit j of `poison` marks word j. -/
structure NLine where
  asid : BitVec 16
  va : Nat
  data : Line
  valid : BitVec 64
  dirty : BitVec 64
  wok : Bool
  poison : BitVec 8
  used : Nat
  deriving DecidableEq, Repr

/-- Who makes a word access (R37): a seat; the interface for a mesh request that it has accepted, for an attempt of a remote wait, or for a
word of an inbox entry, its header or a payload word; a matrix unit for the job that a seat issued in a cycle; a copy or gather engine, by its
number, for a unit of its operation; the Ladder engine of a cluster for a block that a request names; or a core for what it writes beside its
instructions' own accesses. -/
inductive BankUser where
  | seat (n : Nat)
  | mesh (req : Nat)
  | attempt (req : Nat)
  | inbox (core idx : Nat) (header : Bool)
  /-- A result word that spills (R200), by the number of its write; an answer to a saved context (R375), of a core for a thread's former number. -/
  | spill (core q id : Nat)
  | route (core uid : Nat)
  /-- The log and the image of a doublet, by its primary's seat (R410, R411); the TAKEN mark that the eighth pop of an inbox view sets (R200), by the entry. -/
  | doublet (seat : Nat)
  | taken (core idx : Nat)
  | matrix (tile seat issued : Nat)
  | engine (eng unit : Nat)
  | ladder (req : Nat)
  deriving DecidableEq, Repr

/-- An access that waits at a bank, or is on its way to it: its arrival, its user, the transit of its answer, and what it does (R36 to R38). -/
structure BankWait where
  arrival : Nat
  user : BankUser
  transit : Nat
  part : BankPart
  deriving DecidableEq, Repr

/-- A bank (R37, R38): the accesses waiting, and the first cycle in which it is free. -/
structure Bank where
  waiting : List BankWait
  free : Nat
  deriving DecidableEq, Repr

/-- A cluster (R3, R19, R52, R73). -/
structure Cluster where
  owners : FMap BlockOwner
  waits : List WaitEntry
  ncache : List NLine
  deriving DecidableEq, Repr

/-! ## Memory -/

/-- Bytes of memory by address, in one canonical form: addresses strictly rising, no entry equal to 0, which is what an unlisted
address reads as (the notes/assumptions entry on unwritten memory). -/
abbrev Mem := List Host.Cell

/-- Memories (R35, R43, R56, R408). A scratchpad byte lies at cluster × 2^24 + offset; a byte behind the stations or of the host at
tier × 2^52 + address, tiers 0 HBM4E, 1 LPDDR-6, 2 host (R61). Words are numbered address / 8. A scratchpad word is full unless
it is listed in `empty`. -/
structure Memory where
  spad : Mem
  spadEmpty : NSet
  spadPoison : NSet
  phys : Mem
  physPoison : NSet
  deriving DecidableEq, Repr

/-- The page tables (R60, R61), in the HBM4E that is reserved to the firmware: the entries that are not 0, by address / 8; the addresses of the
tables of levels 2 and 3; and the 64 KiB pages that hold Ladder storage, at key ASID × 2^32 + VA / 2^16 (R81). -/
structure Tables where
  entries : FMap Word
  used : NSet
  ladder : NSet
  deriving DecidableEq, Repr

/-! ## Requests -/

/-- Fetching operations of ATG, by the minor of R126 (0 FAA, 1 SWAP, 2 CAS, 5 AMAX). -/
abbrev AtomF := BitVec 3
/-- Reductions of RED, by the minor of R126. -/
abbrev RedF := BitVec 3

/-- Why a format descriptor is read (R311, R312). -/
inductive DescrUse where
  /-- At the start of its thread: never held. -/
  | start
  /-- By an MFMT. -/
  | mfmt
  /-- By an instruction that found its copy pending. -/
  | again
  deriving DecidableEq, Repr

/-- What a request asks. -/
inductive ReqOp where
  | load
  | store
  | stgm
  | atom (f : AtomF) (b : Word) (expected : Word)
  | lr
  | sc (b : Word)
  | rsvrel
  | red (f : RedF) (b : Word) (nc : Bool)
  /-- The WAITRS itself: its slots (address, expected) that are used, by index. -/
  | waitrs (slots : List (Nat × Nat × Word))
  /-- The registration of one slot of a WAITRS. -/
  | watch (parent : Nat) (slot : Nat) (expected : Word)
  | ldr
  | str
  | ldre
  | strf
  | writeBack (cluster : Nat)
  /-- A write-back that its near cache no longer waits for (R470). -/
  | lateBack (cluster : Nat)
  | ifetch
  | descr (fs : Nat) (use : DescrUse)
  | stvec
  | ldnear (exhaustive : Bool) (q : Nat)
  | delvec (ord : Word)
  | ixpin
  | ixunpin (s : Word)
  | ixstat (q : Nat)
  | neigh (rho : Word) (q : Nat)
  /-- The read of the next packet of a dispatch queue's ring, by the queue's key (R379). -/
  | ring (queue : Nat)
  /-- An access of an engine (its number) for a unit of its operation, to global memory or to the mesh (R148). -/
  | eng (key unit : Nat) (write mesh : Bool)
  deriving DecidableEq, Repr

/-- Where a request stands. -/
inductive Stage where
  /-- Not yet sent: a write-back that its near cache keeps until the one before it of its granule has been acknowledged (R75, R115), or the move of a
  thread that is pinned to its seat (R189, R191). -/
  | queued
  /-- On its way to its destination. -/
  | going
  /-- NACKed; the source resends it at the cycle given (R63, R152). -/
  | nacked (resend : Nat)
  /-- In a table or queue of its destination: miss table, hold buffer, reservation queue, wait table, admitted by a sequencer. -/
  | waiting
  /-- Its answer is on its way. -/
  | answered
  /-- Its packet or its answer was lost (R141). -/
  | lost
  /-- No answer will come: the record of its combining point that names it is damaged (R142). -/
  | silent
  deriving DecidableEq, Repr

/-- An answer. -/
inductive Answer where
  | data (d : Line) (poison : BitVec 8) (r w nc : Bool)
  | word (w : Word)
  | ack (w nc : Bool)
  /-- A fault reply: cause, subcode. -/
  | fault (cause sub : BitVec 8)
  /-- The page is not present and the read is not held (R311). -/
  | absent
  | limit
  deriving DecidableEq, Repr

/-- The holder key of a reservation (R130). -/
structure HolderKey where
  asid : BitVec 16
  launch : BitVec 32
  wid : Word
  deriving DecidableEq, Repr

/-- A request in the machine (R140, R150). -/
structure Req where
  op : ReqOp
  asid : BitVec 16
  /-- VA, mesh address, or index number. -/
  addr : Nat
  /-- The segment offset of the block of an index request; the VA that a fetch wants; the units of its budget that a remote wait has used up
  before it was sent again (R53). -/
  off : Nat
  size : Nat
  signed : Bool
  mask : BitVec 64
  data : Line
  /-- The thread to which the answer is owed, and the seat from which it was issued. -/
  uid : Option Nat
  seat : Nat
  anchored : Bool
  noAlloc : Bool
  /-- Bytes of its granule that its answer may no longer make valid in the near cache (R75, R110). -/
  aged : BitVec 64
  key : HolderKey
  /-- Segment base and length carried by an index request (R340). -/
  segBase : Nat
  segLen : Nat
  /-- Words of the block of an index request that wait at the banks, once the engine has asked for them (R340). -/
  reading : Option Nat
  issued : Nat
  /-- The cycle at which the NOREPLY timer expires; none while it is stopped (R140). -/
  deadline : Option Nat
  budget : Nat
  /-- W and NC of the leaf under which its station checked it (R65, R73). -/
  flags : Bool × Bool := (false, true)
  stage : Stage
  answer : Option Answer
  /-- The combining entry to which the reply goes, or the entry that holds this request (R135, R136). -/
  comb : Option Nat
  /-- Results of a search not yet delivered, and how many were. -/
  results : List Word
  delivered : Nat
  /-- The payload of an insert, the snapshot of a search (R96), the next square of an enumeration (R350), or the words that a write-back poisons
  (R407). -/
  snap : Word
  /-- The vector of an insert or a search, the slots answered of a WAITRS (R133), or the tids reported by an enumeration (R350). -/
  seen : List Nat
  deriving DecidableEq, Repr

/-- A record of a combining point (R135, R136): the requester and, for an FAA, the addend sum before it. -/
structure HoistRec where
  req : Nat
  before : Word
  damaged : Bool
  deriving DecidableEq, Repr

/-- A pending entry of a combiner, or the records of a router for one combined request. -/
structure CombEntry where
  /-- The cluster whose combiner holds it, or none for a router. -/
  cluster : Option Nat
  router : Nat
  asid : BitVec 16
  va : Nat
  isRed : Bool
  f : BitVec 3
  sum : Word
  first : Nat
  recs : List HoistRec
  opened : Nat
  sent : Option Nat
  deadline : Option Nat
  deriving DecidableEq, Repr

/-! ## Stations -/

/-- A translation-cache entry (R63). -/
structure TEntry where
  asid : BitVec 16
  level : Nat
  page : Nat
  entry : Word
  deriving DecidableEq, Repr

/-- The queue of a reserved word (R131), by the physical address of the word: holder with the cycle of the grant, and waiting
requests in order of arrival. -/
structure RsvWord where
  pa : Nat
  holder : Option (HolderKey × Nat)
  queue : List Nat
  deriving DecidableEq, Repr

/-- A watched granule (R133): its physical granule and the registration. -/
structure Watch where
  pa : Nat
  req : Nat
  deriving DecidableEq, Repr

/-- A request of a station's hold buffer (R66), with the page that is not present: its first 64 KiB block. -/
structure Hold where
  req : Nat
  asid : BitVec 16
  page : Nat
  deriving DecidableEq, Repr

/-- A memory-edge station (R56, R63, R66, R130, R133). -/
structure Station where
  tcache : List TEntry
  misses : List Nat
  holds : List Hold
  /-- Pages for which a replayable record has been written since their leaf last changed, by their first 64 KiB block, with their number of blocks. -/
  recorded : List (BitVec 16 × Nat × Nat)
  rsv : List RsvWord
  watches : List Watch
  /-- Host accesses on their way (R59, R168). -/
  hostWait : List Nat
  deriving DecidableEq, Repr

/-- A tier move in progress (R70, R71), and the function and queue of its command. -/
structure Move where
  asid : BitVec 16
  va : Nat
  oldEntry : Word
  newEntry : Word
  current : Nat
  copying : Bool
  /-- Requests held until the piece lands, in their order of arrival. -/
  waiting : List Nat
  fn : Nat
  q : Nat
  deriving DecidableEq, Repr

/-! ## Engines and messages -/

/-- Kinds of engines (R143). -/
inductive EngKind where
  | copy
  | gather
  | collective
  deriving DecidableEq, Repr

/-- A committed operation of an engine (R144, R148): issuing seat, ASID, launch, the shadow fields, the segment at the EGO, and the
completion core. -/
structure EngOp where
  kind : EngKind
  seat : Nat
  uid : Nat
  asid : BitVec 16
  launch : BitVec 32
  fields : List Word
  segBase : Nat
  segLen : Nat
  ccore : Nat
  committedAt : Nat
  /-- Units performed, in the order of R324 or R325; those performed out of that order; those begun and not yet performed. -/
  done : Nat
  doneSet : NSet
  started : NSet
  /-- STATUS, SUBCODE and FADDR once the operation has failed (R148). -/
  status : Option (BitVec 8 × BitVec 8 × Word)
  cancelled : Bool
  /-- A stream word that waits for room. -/
  word : Option Word
  deriving DecidableEq, Repr

/-- An engine (R143, R144). -/
structure Engine where
  committed : List EngOp
  active : Option EngOp
  deriving DecidableEq, Repr

/-- A collective operation (R146): the package cores covered, whether the scope covers other devices, those joined with their
operations; and once it has started, the element in work, the inputs that have arrived, and the elements performed. -/
structure Collective where
  asid : BitVec 16
  ctag : Word
  cores : NSet
  others : Bool
  joined : List (Nat × EngOp)
  joinDeadline : Option Nat
  /-- The cycle in which the last participant joined. -/
  ready : Option Nat
  started : Bool
  elem : Nat
  writing : Bool
  got : List (Nat × Word)
  done : Nat
  doneSet : NSet
  status : Option (BitVec 8 × BitVec 8 × Word)
  cancelled : Bool
  deriving DecidableEq, Repr

/-- Class 3 packets (R150, R330 to R334, R292, R155, R472). -/
inductive MsgKind where
  | send
  | enq
  | spawn
  | port (q : Nat)
  | completion (eng : Nat)
  | launchDone
  | firmware
  deriving DecidableEq, Repr

/-- A class 3 packet. -/
structure Msg where
  kind : MsgKind
  /-- Target word, queue address, or completion core. -/
  dst : Word
  payload : List Word
  seat : Nat
  uid : Option Nat
  asid : BitVec 16
  launch : BitVec 32
  budget : Nat
  sentAt : Nat
  /-- Injected into the network; until then it waits in a send queue (R153). -/
  injected : Bool
  stage : Stage
  answer : Option Answer
  /-- Its receiver has counted it (R192). -/
  counted : Bool
  deadline : Option Nat
  deriving DecidableEq, Repr

/-- Why a context moves (R173, R174, R187, R189, R191, R382). -/
inductive MigKind where
  | migr
  | setpos (xy zw : Word)
  | access
  | split
  | merge
  | place
  deriving DecidableEq, Repr

/-- A context on its way to a core (class 2). -/
structure Mig where
  uid : Nat
  kind : MigKind
  src : Nat
  dst : Nat
  stage : Stage
  /-- It waits in the admission queue of its destination (R190). -/
  admission : Bool
  deriving DecidableEq, Repr

/-! ## Dispatch, launches and the board -/

/-- A queue record (R378), with the header copy and core list copy (R177) and the head cache. -/
structure QueueRec where
  v : Bool
  trig : Bool
  stopped : Bool
  depv : Bool
  depctr : BitVec 12
  log2n : BitVec 5
  prio : BitVec 2
  asid : BitVec 16
  ring : Nat
  tail : BitVec 32
  head : BitVec 32
  template : Nat
  hdr : List Word
  coreList : List Nat
  /-- The head cache: up to 4 packets of the ring, each with its index. -/
  headCache : List (Nat × List Word)
  /-- Ring packets written by SPAWN: index and launch (R334, R382). -/
  spawned : List (Nat × BitVec 32)
  /-- Indexes of the packets that a firmware command releases (R380), and of those that a replay has discarded (R393). -/
  released : List Nat
  dropped : List Nat
  deriving DecidableEq, Repr

/-- A packet in expansion (R382). -/
structure Slot4 where
  queue : Nat
  packet : List Word
  launch : BitVec 32
  job : BitVec 32
  task : Nat
  next : Nat
  nextWid : Word
  exhausted : Bool
  lastPlaced : Nat
  deriving DecidableEq, Repr

/-- A dispatch station (R377, R381, R382, R390). -/
structure DispStation where
  pointers : Vector (BitVec 13) 4
  slots : List Slot4
  nextSeq : BitVec 28
  cancelled : List (BitVec 32)
  deriving DecidableEq, Repr

/-- A dependence counter (R387). -/
structure DepCtr where
  v : Bool
  under : Bool
  graph : BitVec 12
  node : BitVec 16
  reload : BitVec 32
  count : BitVec 32
  deriving DecidableEq, Repr

/-- A node of a graph template (R389, R462). -/
structure Node where
  packet : List Word
  queue : Nat
  preds : BitVec 32
  succ : BitVec 16
  deriving DecidableEq, Repr

/-- A replay in progress (R389, R393): its version, the nodes not yet dispatched, those of them whose packet is to be written next, the
packets written (node, queue, ring index), the node of a lost counter, and the command (function × 8 + queue) that completes with it. -/
structure Replay where
  version : Bool
  undispatched : List Nat
  toWrite : List Nat
  written : List (Nat × Nat × Nat)
  aborted : Option Nat
  cmd : Nat
  deriving DecidableEq, Repr

/-- A graph template (R389): two versions, CUR, and the live replays. -/
structure Graph where
  asid : BitVec 16
  v0 : List Node
  v1 : List Node
  cur : Bool
  replays : List Replay
  deriving DecidableEq, Repr

/-- A task (R179, R180): threads not yet retired, and its dependence counter with the die of its station. -/
structure Task where
  launch : BitVec 32
  live : Nat
  allStarted : Bool
  depctr : Option (Nat × BitVec 12)
  fps : List Word
  job : BitVec 32
  /-- Clusters at whose near cache the start of the packet's threads has acted (R111). -/
  acted : NSet
  deriving DecidableEq, Repr

/-- An entry of a square (R187). -/
structure SqEntry where
  uid : Nat
  tid : Word
  xy : Word
  zw : Word
  departing : Bool
  deriving DecidableEq, Repr

/-- A square or a half of a split square (R185, R189): its Morton index, the halves taken from the whole square down to it (true for the
upper half), its owner, its entries, and its admission queue (R190). A square that no entry lists is whole, empty and owned by R185. -/
structure Half where
  morton : Nat
  path : List Bool
  owner : Nat
  entries : List SqEntry
  admission : List Nat
  deriving DecidableEq, Repr

/-- The board of a launch (R184, R185, R189): per axis the exponent of the edge, the number of squares and the origin; the cores that hold
squares, the pool of spare cores in list order, and those of the pool that are free. -/
structure Board where
  dims : Nat
  edge : List Nat
  count : List Nat
  origin : List Int
  cores : List Nat
  halves : List Half
  pool : List Nat
  spare : List Nat
  deriving DecidableEq, Repr

/-- A barrier (R285), named by level and the fields L to 5 of the work identifier; CELLSYNC is level 7 here. -/
structure Barrier where
  level : Nat
  group : Nat
  count : Nat
  gen : BitVec 32
  deriving DecidableEq, Repr

/-- A launch (R173, R177, R192, R193). -/
structure Launch where
  asid : BitVec 16
  hdr : List Word
  coreList : List Nat
  job : BitVec 32
  station : Nat
  queue : Nat
  /-- The launch's cores (R173). -/
  cores : NSet
  /-- The units to which bound groups have been given: level, group, unit (R383). -/
  units : List (Nat × Nat × Nat)
  /-- Threads not yet exited, by internal number; and pending tasks. -/
  live : NSet
  pendingTasks : Nat
  /-- Identifiers of the members that have exited (R285). -/
  exited : List Word
  barriers : List Barrier
  board : Option Board
  sent : FMap Nat
  received : FMap Nat
  lastSweep : Option (Nat × Nat)
  cancelled : Bool
  deriving DecidableEq, Repr

/-- What the package knows of a saved context beside its save area, until it is loaded: the thread's number and its task, the marks of its
shadows and the poison of its predicate word, whether it has taken a CANCEL, and an acquire that it owes (R111, R374, R391, R407). -/
structure Saved where
  uid : Nat
  /-- The core that saved it (R375). -/
  core : Nat
  asid : BitVec 16
  launch : BitVec 32
  wid : Word
  origin : Origin
  dirty : BitVec 3
  pwPoison : Option Word
  cancelled : Bool
  /-- An acquire that the thread owed (R111). -/
  acquire : Option Bool
  deriving DecidableEq, Repr

/-- The dispatch world. -/
structure Dispatch where
  stations : FMap DispStation
  /-- Queue records at key station × 8192 + queue. -/
  queues : FMap QueueRec
  /-- Dependence counters at key die × 4096 + counter. -/
  deps : FMap DepCtr
  graphs : FMap Graph
  launches : FMap Launch
  tasks : FMap Task
  saved : List Saved
  deriving DecidableEq, Repr

/-! ## The Ladder -/

/-- An entry of an index (R83). Adjacency lists hold insert ordinals. -/
structure LEntry where
  vec : List Nat
  payload : Word
  del : Option Nat
  square : Nat
  lower : List Nat
  upper : Option (List Nat)
  damaged : Bool
  deriving DecidableEq, Repr

/-- An index (R80 to R105). -/
structure LIndex where
  asid : BitVec 16
  dim : Nat
  fmt : BitVec 4
  metric : Nat
  m : Nat
  bIns : Nat
  sb : Nat
  ethr : Nat
  cap : Nat
  storage : Nat
  size : Nat
  srn : Nat
  clusters : BitVec 32
  n0 : Nat
  n1 : Nat
  /-- o0, o1, h0, h1 and the projection, FP32 bit patterns. -/
  offsets : List (BitVec 32)
  proj : List (BitVec 32)
  entries : FMap LEntry
  /-- The next ordinal; the highest committed one is one less. -/
  next : Nat
  pins : List Word
  implicitPins : List (Nat × Word)
  searches : Nat
  sampled : Word
  samplek : Word
  misses : Word
  delmiss : Word
  admitted : List Nat
  /-- Searches whose results await a sampled re-run: request, query, snapshot, k, delivered ordinals. -/
  reruns : List (Nat × List Nat × Word × Nat × List Nat)
  /-- The entries as an admitted search found them (R99), by its request, until it runs. -/
  graphs : FMap (FMap LEntry)
  /-- The engines that the packets of a search or an insert have still to reach, by its request (R102): owner clusters in order. -/
  travels : FMap (List Nat)
  destroying : Bool
  deriving DecidableEq, Repr

/-! ## Firmware and host -/

/-- A context (R60, R107, R398, R400, R462). -/
structure Context where
  fn : Nat
  /-- The address of its level-1 table. -/
  table1 : Nat
  sys : Bool
  debug : Bool
  deleg : Word
  faultq : Word
  fatalovf : Bool
  fqfail : Bool
  /-- Programmable scope entries with V = 1 (R107). -/
  scopes : FMap (BitVec 2304)
  boards : List Nat
  dying : Bool
  breakArmed : Bool
  deriving DecidableEq, Repr

/-- The firmware's own state (R132, R389 to R391, R460, R465). -/
structure Firmware where
  contexts : FMap Context
  /-- Accepted feature word 1 by function; absent before NEGOTIATE (R460). -/
  features : FMap Word
  rsvtime : Nat
  powerCap : Nat
  throttle : Nat
  /-- Jobs being cancelled: id, and the cycle at which the grace period ends at the cores. -/
  cancels : List (BitVec 32 × Nat)
  /-- Launches of cancelled jobs that have ended while another launch of the job goes on: number and record (R390). -/
  ended : List (Nat × Launch)
  moves : List Move
  /-- The commands in progress, by function × 8 + queue: the entry's words, and the phase that a command of several has reached as word 16. -/
  running : FMap (List Word)
  /-- The service cores that execute them, by the same key (R461). -/
  serving : FMap Nat
  deriving DecidableEq, Repr

/-- The registers of a host queue pair (R456, R457). `svc` and ring registers in force are those latched when EN rose. -/
structure HostQueue where
  cmd : Word
  /-- The register as it stood when EN last rose: ring and service core in force. -/
  latched : Word
  cmdtail : BitVec 16
  cmdhead : BitVec 16
  cpl : Word
  cplhead : BitVec 16
  /-- Completion entries written since PEN rose. -/
  cpltail : Nat
  waitingNotices : List (List Word)
  deriving DecidableEq, Repr

/-- The host side (R64, R456). -/
structure HostSide where
  queues : FMap HostQueue
  linkUp : Bool
  deriving DecidableEq, Repr

/-! ## Doublets -/

/-- A doublet seat pair (R409 to R412), by the primary's seat: when the interval began, the local-store log (word offset, old
value, old full bit), held global stores, those sent at the checkpoint and not yet acknowledged, the image and the primary's seat as it gives
part C, the place of a mismatch in this interval, and whether a checkpoint is asked for before its time. -/
structure Doublet where
  since : Nat
  log : List (Nat × Word × Bool)
  held : List Nat
  committing : List Nat
  image : Option Thread
  seatImage : Option Seat
  lastMismatch : Option Word
  wanted : Bool
  deriving DecidableEq, Repr

/-! ## The schedule -/

/-- The steps of units and of the outside that are no instruction words: the rows of the opcode table without an encoding, each with the
operands of its constructor of `Instr`. Work in flight and the schedule name them. -/
inductive Ev where
  | timer (seat : Nat)
  | waitlimExpiry (seat : Nat)
  | barrierWaitLimit (seat : Nat)
  | bankService (bank : Nat)
  | meshRequestAccept (req : Nat)
  | waitTableAttempt (cluster : Nat) (off : Nat)
  | waitBudgetBoundary (cluster : Nat) (req : Nat)
  | nackResend (req : Nat)
  | registerFill (req : Nat)
  | acknowledgement (req : Nat)
  | limitReply (req : Nat)
  | heldNotice (req : Nat)
  | combinedNotice (req : Nat)
  | noreply (req : Nat)
  | vallost (req : Nat)
  | combiningPointTimeout (entry : Nat)
  | flitLoss (req : Nat)
  | stationRequest (req : Nat)
  | tableWalk (req : Nat)
  | heldReplay (station : Nat) (asid : BitVec 16) (va : Nat)
  | rsvtimeRevocation (station : Nat) (va : Nat)
  | waitrsReport (req : Nat) (slot : Nat)
  | waitrsLimit (req : Nat)
  | tierPieceCopy (move : Nat)
  | nearCacheProbe (cluster : Nat) (asid : BitVec 16) (va : Nat) (size : Nat)
  | translationInvalidate (station : Nat) (asid : BitVec 16) (va : Nat) (size : Nat)
  | nearCacheFill (req : Nat)
  | writeBackLoss (req : Nat)
  | combinerMerge (req : Nat)
  | combinerSend (entry : Nat)
  | routerCombine (reqA : Nat) (reqB : Nat) (router : Nat)
  | replySplit (entry : Nat)
  | engineShadowTake (eng : Nat)
  | streamPush (eng : Nat)
  | collectiveStart (op : Nat)
  | collectiveJoinTimeout (op : Nat)
  | engineCompletion (eng : Nat)
  | completionDrop (eng : Nat)
  | inboxArrival (msg : Nat)
  | inboxHeldWrite (core : Nat)
  | portWordArrival (msg : Nat)
  | enqAdmission (msg : Nat)
  | ringPacketFetch (queue : Nat)
  | dispatchSelection (station : Nat)
  | expansion (station : Nat) (slot : Nat)
  | runQueueArrival (mig : Nat)
  | seatTake (seat : Nat)
  | parkswap (seat : Nat)
  | instructionFetchFill (req : Nat)
  | descriptorArrival (req : Nat)
  | dependenceDecrement (die : Nat) (ctr : Nat)
  | sweepPennant (launch : Nat)
  | launchCompletionDrop (msg : Nat)
  | cancelBroadcast (job : Nat) (dest : Nat)
  | cancel (seat : Nat)
  | trapNotice (seat : Nat)
  | squareHandover (mig : Nat)
  | departingRemoval (launch : Nat) (tid : Nat) (sq : Nat)
  | admission (launch : Nat) (sq : Nat)
  | neighSquareQuery (req : Nat)
  | ladderAdmission (req : Nat)
  | insertCommit (req : Nat)
  | queryPacket (req : Nat)
  | reclamation (index : Nat) (ord : Nat)
  | sampledRerun (req : Nat)
  | matrixUnitTake (tile : Nat)
  | kStep (tile : Nat)
  | matrixCompletion (tile : Nat)
  | rampEnd (tile : Nat)
  | holdWindowEnd (tile : Nat)
  | downEnd (tile : Nat)
  | checkpoint (core : Nat) (seat : Nat)
  | checkpointCommit (core : Nat) (seat : Nat)
  | doubletMismatch (core : Nat) (seat : Nat)
  | bridgePacket (req : Nat)
  | deviceReset
  | powerMeasurement (watts : Nat) (junction : Nat)
  | cmdtailDoorbell (fn : Nat) (q : Nat) (val : BitVec 64)
  | queueEnable (fn : Nat) (q : Nat) (val : BitVec 64)
  | cplheadWrite (fn : Nat) (q : Nat) (val : BitVec 64)
  | evlostClear (fn : Nat) (q : Nat) (val : BitVec 64)
  | hostRegisterWrite (fn : Nat) (off : Nat) (val : BitVec 64)
  | ident (fn : Nat) (q : Nat)
  | negotiate (fn : Nat) (q : Nat)
  | deviceSet (fn : Nat) (q : Nat)
  | powerCap (fn : Nat) (q : Nat)
  | attest (fn : Nat) (q : Nat)
  | ctxCreate (fn : Nat) (q : Nat)
  | ctxDestroy (fn : Nat) (q : Nat)
  | map (fn : Nat) (q : Nat)
  | unmap (fn : Nat) (q : Nat)
  | pageMove (fn : Nat) (q : Nat)
  | blockSet (fn : Nat) (q : Nat)
  | memCopy (fn : Nat) (q : Nat)
  | queueCreate (fn : Nat) (q : Nat)
  | queueDestroy (fn : Nat) (q : Nat)
  | queueSubmit (fn : Nat) (q : Nat)
  | scopeSet (fn : Nat) (q : Nat)
  | boardSet (fn : Nat) (q : Nat)
  | indexCreate (fn : Nat) (q : Nat)
  | indexDestroy (fn : Nat) (q : Nat)
  | graphCreate (fn : Nat) (q : Nat)
  | graphPatch (fn : Nat) (q : Nat)
  | graphReplay (fn : Nat) (q : Nat)
  | jobCancel (fn : Nat) (q : Nat)
  | debugHalt (fn : Nat) (q : Nat)
  | debugResume (fn : Nat) (q : Nat)
  | debugRegread (fn : Nat) (q : Nat)
  | debugRegwrite (fn : Nat) (q : Nat)
  | debugLocalread (fn : Nat) (q : Nat)
  | debugLocalwrite (fn : Nat) (q : Nat)
  | debugBreakarm (fn : Nat) (q : Nat)
  | debugBreakoff (fn : Nat) (q : Nat)
  | badop (fn : Nat) (q : Nat)
  | hostLinkDown
  | hostLinkUp
  | hostAccessCompletion (req : Nat)
  | softError (err : SoftErr)
  | engineAccessReply (eng : Nat)
  | resultStreamArrival (req : Nat)
  deriving DecidableEq, Repr

/-- Which agent acts in a step. -/
inductive Choice where
  /-- The next turn of a seat. -/
  | turn (seat : Nat)
  /-- An entry of the list of work, by position. -/
  | work (pos : Nat)
  /-- A step from outside the machine, or a step of a unit named directly. -/
  | event (e : Ev)
  /-- A packet of classes 1 to 4, by its number, meets a full ejection buffer (R152). -/
  | full (id : Nat)
  deriving DecidableEq, Repr

/-- Work in flight: a step of a unit that falls due. -/
structure WorkItem where
  due : Nat
  ev : Ev
  deriving DecidableEq, Repr

/-- The ordering codes (R1). -/
inductive Part where
  | hm9p
  | hm9m1
  | hm9m2
  deriving DecidableEq, Repr

/-! ## State -/

/-- The threads, seats, cores, tiles, clusters and banks. -/
structure Fabric where
  threads : FMap Thread
  /-- Seat core × 8 + seat. -/
  seats : FMap Seat
  cores : FMap Core
  /-- Tile cluster × 16 + tile. -/
  tiles : FMap Tile
  clusters : FMap Cluster
  /-- Bank (cluster × 16 + tile) × 32 + bank. -/
  banks : FMap Bank
  engines : FMap Engine
  collectives : FMap Collective
  doublets : FMap Doublet
  deriving DecidableEq, Repr

/-- Packets, requests and stations. -/
structure Net where
  reqs : FMap Req
  combs : FMap CombEntry
  msgs : FMap Msg
  migs : FMap Mig
  stations : FMap Station
  /-- The next internal number for a thread, request, message, migration, entry or task. -/
  nextId : Nat
  /-- The route tables of the 12 bridges (R165): the port that bridge b's entry for device d names, under 256 b + d; an entry that names no port is not
  listed. -/
  routes : FMap Nat
  deriving DecidableEq, Repr

/-- The machine. -/
structure State where
  part : Part
  device : BitVec 8
  /-- 1 GHz cycles since reset (R4, CYCLE). -/
  cycle : Nat
  /-- The seat whose instruction or turn event `exec` performs. -/
  cur : Nat
  fab : Fabric
  mem : Memory
  tables : Tables
  net : Net
  disp : Dispatch
  indexes : FMap LIndex
  fw : Firmware
  host : HostSide
  /-- The schedule: who acts next; when it is empty, the order of Step.lean. -/
  sched : List Choice
  /-- Free choices of a unit among the pieces of its work. -/
  picks : List Nat
  work : List WorkItem
  /-- The counter of free values. -/
  freeCtr : Nat
  deriving DecidableEq, Repr

/-! ## Reset -/

/-- Every bank, seat, core, tile, cluster, station, engine and queue is at its reset value: none is listed. The one command whose
effect has no reset value of its own in a map is RSVTIME, 4,096 (R132); the throttle is 16 (R465). -/
def State.reset : State where
  part := .hm9p
  device := 0
  cycle := 0
  cur := 0
  fab := { threads := [], seats := [], cores := [], tiles := [], clusters := [], banks := [], engines := [], collectives := [], doublets := [] }
  mem := { spad := [], spadEmpty := [], spadPoison := [], phys := [], physPoison := [] }
  tables := { entries := [], used := [], ladder := [] }
  net := { reqs := [], combs := [], msgs := [], migs := [], stations := [], nextId := 1, routes := [] }
  disp := { stations := [], queues := [], deps := [], graphs := [], launches := [], tasks := [], saved := [] }
  indexes := []
  fw := { contexts := [], features := [], rsvtime := 4096, powerCap := 2300, throttle := 16, cancels := [], ended := [], moves := [], running := [], serving := [] }
  host := { queues := [], linkUp := true }
  sched := []
  picks := []
  work := []
  freeCtr := 0

/-! ## Stops -/

/-- Why a step stops with a fault. -/
inductive Fault where
  /-- Raised by every seat instruction and turn event when the seat named by `cur` holds no thread. A step never asks this: it runs an
  instruction only on an occupied seat (R169). Safe: nothing is claimed of such a state. -/
  | emptySeat (seat : Nat)
  deriving DecidableEq, Repr

/-- Why a step is refused. -/
inductive Refusal where
  /-- Raised by an arm of `exec` whose instruction has no meaning yet. Safe: nothing can be proved of what it does. -/
  | notModelled (mnemonic : String)
  deriving DecidableEq, Repr

end Sys2Proof.Machine
end

