-- ==== Sys2Proof/Machine/Store.lean ====
section
/-!
DEFINITION. The operations on sparse maps, on sets of numbers and on bytes of memory (R5), and the fields of words and lines.
-/

namespace Sys2Proof.Machine

/-! ## Sparse maps -/

/-- The value at a key. -/
def FMap.find? {α : Type} : FMap α → Nat → Option α
  | [], _ => none
  | (k, v) :: rest, n => if n = k then some v else FMap.find? rest n

/-- Sets the value at a key, keeping the keys in order. -/
def FMap.insert {α : Type} : FMap α → Nat → α → FMap α
  | [], n, x => [(n, x)]
  | (k, v) :: rest, n, x =>
    if n < k then (n, x) :: (k, v) :: rest
    else if n = k then (n, x) :: rest
    else (k, v) :: FMap.insert rest n x

/-- Removes a key. -/
def FMap.erase {α : Type} : FMap α → Nat → FMap α
  | [], _ => []
  | (k, v) :: rest, n => if n = k then rest else (k, v) :: FMap.erase rest n

/-- Keys strictly rising. -/
def FMap.sorted {α : Type} : FMap α → Bool
  | [] => true
  | [_] => true
  | (k, _) :: (k', v') :: rest => decide (k < k') && FMap.sorted ((k', v') :: rest)

/-- Changes the value at a key when it is there. -/
def FMap.modify {α : Type} (m : FMap α) (n : Nat) (f : α → α) : FMap α :=
  match FMap.find? m n with
  | some v => FMap.insert m n (f v)
  | none => m

def NSet.has (s : NSet) (n : Nat) : Bool := s.contains n

/-- Adds a number, keeping the order. -/
def NSet.add : NSet → Nat → NSet
  | [], n => [n]
  | k :: rest, n => if n < k then n :: k :: rest else if n = k then k :: rest else k :: NSet.add rest n

/-- Removes a number. -/
def NSet.del : NSet → Nat → NSet
  | [], _ => []
  | k :: rest, n => if n = k then rest else k :: NSet.del rest n

/-- Adds or removes. -/
def NSet.put (s : NSet) (n : Nat) (b : Bool) : NSet := if b then NSet.add s n else NSet.del s n

/-- The canonical form of a set: numbers strictly rising. -/
def NSet.wf : NSet → Bool
  | [] => true
  | [_] => true
  | k :: k' :: rest => decide (k < k') && NSet.wf (k' :: rest)

/-! ## Bytes of memory -/

/-- The byte at an address; an address that is not listed reads as 0. -/
def Mem.read : Mem → Nat → Byte
  | [], _ => 0
  | (k, v) :: rest, n => if n = k then v else Mem.read rest n

/-- Writes a byte. Writing 0, which an unlisted address reads as, removes the entry. -/
def Mem.write : Mem → Nat → Byte → Mem
  | [], n, x => if x = 0 then [] else [(n, x)]
  | (k, v) :: rest, n, x =>
    if n < k then (if x = 0 then (k, v) :: rest else (n, x) :: (k, v) :: rest)
    else if n = k then (if x = 0 then rest else (n, x) :: rest)
    else (k, v) :: Mem.write rest n x

/-- The canonical form: addresses strictly rising, no entry equal to 0. -/
def Mem.wf : Mem → Bool
  | [] => true
  | [(_, v)] => v != 0
  | (k, v) :: (k', v') :: rest => decide (k < k') && v != 0 && Mem.wf ((k', v') :: rest)

/-- n bytes from an address, the first in the low bits (R5). -/
def Mem.readNat (m : Mem) (a : Nat) : Nat → Nat
  | 0 => 0
  | n + 1 => (Mem.read m a).toNat + 256 * Mem.readNat m (a + 1) n

/-- Writes the low n bytes of a number, the first from the low bits (R5). -/
def Mem.writeNat (m : Mem) (a : Nat) : Nat → Nat → Mem
  | 0, _ => m
  | n + 1, x => Mem.writeNat (Mem.write m a (BitVec.ofNat 8 x)) (a + 1) n (x / 256)

/-- Writes the bytes that a mask enables, bit i for byte i of the number. -/
def Mem.writeMask (m : Mem) (a : Nat) : Nat → (mask x : Nat) → Mem
  | 0, _, _ => m
  | n + 1, k, x =>
    Mem.writeMask (if k % 2 = 1 then Mem.write m a (BitVec.ofNat 8 x) else m) (a + 1) n (k / 2) (x / 256)

/-- The 8-byte word at an address. -/
def Mem.read64 (m : Mem) (a : Nat) : Word := BitVec.ofNat 64 (Mem.readNat m a 8)
/-- Writes an 8-byte word. -/
def Mem.write64 (m : Mem) (a : Nat) (w : Word) : Mem := Mem.writeNat m a 8 w.toNat
/-- The 64-byte line at an address. -/
def Mem.readLine (m : Mem) (a : Nat) : Line := BitVec.ofNat 512 (Mem.readNat m a 64)

/-- Both memories, the words that are empty and the words that are poisoned are in canonical form. -/
def Memory.wf (m : Memory) : Bool :=
  Mem.wf m.spad && Mem.wf m.phys && NSet.wf m.spadEmpty && NSet.wf m.spadPoison && NSet.wf m.physPoison

/-! ## Fields of words and lines -/

/-- Bits [lo+n-1:lo] of a word as a number. -/
def bitsOf (w : Word) (lo n : Nat) : Nat := (w.toNat >>> lo) % 2 ^ n

/-- Replaces bits [lo+n-1:lo]. -/
def setBits (w : Word) (lo n : Nat) (x : Nat) : Word :=
  (w &&& ~~~ (BitVec.ofNat 64 ((2 ^ n - 1) <<< lo))) ||| BitVec.ofNat 64 ((x % 2 ^ n) <<< lo)

/-- Sets or clears bit n. -/
def putBit {w : Nat} (x : BitVec w) (n : Nat) (b : Bool) : BitVec w :=
  if b then x ||| BitVec.ofNat w (2 ^ n) else x &&& ~~~ (BitVec.ofNat w (2 ^ n))

/-- A Bool as a bit of a number. -/
def b2n (b : Bool) : Nat := if b then 1 else 0

/-- Word j of a line. -/
def lineWord (l : Line) (j : Nat) : Word := l.extractLsb' (64 * j) 64

/-- n bits of a line from a bit position. -/
def lineBits (l : Line) (lo n : Nat) : Nat := (l.toNat >>> lo) % 2 ^ n

/-- The line with its bytes replaced where the mask is set. -/
def lineMerge (old new : Line) (mask : BitVec 64) : Line :=
  (List.range 64).foldl (fun acc i =>
    if mask.getLsbD i then
      (acc &&& ~~~ (BitVec.ofNat 512 (255 <<< (8 * i)))) ||| (new &&& BitVec.ofNat 512 (255 <<< (8 * i)))
    else acc) old

/-- A mask of n bytes from byte lo. -/
def byteMask (lo n : Nat) : BitVec 64 := BitVec.ofNat 64 ((2 ^ n - 1) <<< lo)

/-- The words of a line that hold a byte of a mask, as bits. -/
def maskWords (mask : BitVec 64) : BitVec 8 :=
  BitVec.ofNat 8 ((List.range 8).foldl (fun acc j => acc + if mask.extractLsb' (8 * j) 8 = 0 then 0 else 2 ^ j) 0)

/-- The words of a line all of whose bytes a mask covers, as bits. -/
def maskFullWords (mask : BitVec 64) : BitVec 8 :=
  BitVec.ofNat 8 ((List.range 8).foldl (fun acc j => acc + if mask.extractLsb' (8 * j) 8 = 255 then 2 ^ j else 0) 0)

/-- A word from its low n bits, as two's complement (n at least 1). -/
def signExt (n : Nat) (x : Nat) : Word :=
  if x % 2 ^ n < 2 ^ (n - 1) then BitVec.ofNat 64 (x % 2 ^ n) else BitVec.ofInt 64 ((x % 2 ^ n : Int) - 2 ^ n)

/-- An integer from the low n bits of a number, as two's complement. -/
def toSigned (n : Nat) (x : Nat) : Int :=
  if x % 2 ^ n < 2 ^ (n - 1) then ((x % 2 ^ n : Nat) : Int) else ((x % 2 ^ n : Nat) : Int) - (2 ^ n : Nat)

/-- The elements of a list from a place. -/
def listSet {α : Type} : List α → Nat → α → List α
  | [], _, _ => []
  | _ :: r, 0, x => x :: r
  | y :: r, n + 1, x => y :: listSet r n x

/-- The first element that a test accepts is removed. -/
def listErase {α : Type} (p : α → Bool) : List α → List α
  | [] => []
  | x :: r => if p x then r else x :: listErase p r

/-- The element of a vector, or a default beyond its end. -/
def vget {α : Type} {n : Nat} (v : Vector α n) (i : Nat) (d : α) : α := v[i]?.getD d

/-- The vector with one element replaced; unchanged beyond its end. -/
def vset {α : Type} {n : Nat} (v : Vector α n) (i : Nat) (x : α) : Vector α n := v.setIfInBounds i x

end Sys2Proof.Machine
end

