-- ==== Sys2Proof/Machine/Ops.lean ====
section
/-!
DEFINITION. The named operations over the state: the units by number, the registers of a thread with their full, pending and poisoned
states (R195 to R199), the answers owed to a thread, taking a trap (R366 to R368) and returning from one (R369).
-/

namespace Sys2Proof.Machine

/-- Outcome of a step of this machine. -/
abbrev Out := Host.Outcome State Fault Refusal

/-! ## Reset values of the units -/

/-- The registers of a new thread (R180): every g full and 0, pw 1. -/
def Regs.init : Regs where
  g := Vector.replicate 24 0
  full := BitVec.allOnes 24
  pw := 1
  pwPoison := none
  xy := 0
  zw := 0
  wid := 0
  pc := 0

def Xstat.init : Xstat := ⟨false, false, false, false, false⟩

/-- Thread-scope CSRs at reset (R205). -/
def SysRegs.init : SysRegs where
  xstat := Xstat.init
  xcause := 0
  xval := 0
  xpc := 0
  frm := 0
  fflags := 0
  srseed := 0
  satcnt := 0
  framest := 0
  uxvec := 0
  job := 0
  widshape := 0
  fs := Vector.replicate 4 0
  board := 0
  faultq := 0

/-- Vector and matrix state after ANCHOR: zero and full, tags FP32 (R203, R353). -/
def VecState.init : VecState where
  v := Vector.replicate 16 0
  vst := Vector.replicate 16 .full
  acc := Vector.replicate 4 0
  tag := Vector.replicate 4 .fp32

def BarState.init : BarState := ⟨false, false, 0, 0, false⟩
def Shadows.init : Shadows := ⟨Vector.replicate 96 0, 0⟩
def DirtyList.init : DirtyList := ⟨[], false⟩
def Park.init : Park := ⟨false, 0, false, 0, 0, false⟩

/-- A thread with every field at its start value and no identity. -/
def Thread.init : Thread where
  regs := Regs.init
  kind := .roaming
  prio := 0
  placed := false
  role := false
  asid := 0
  launch := 0
  limit := 0
  defer := 0
  sys := SysRegs.init
  fsCopy := Vector.replicate 4 .invalid
  vec := VecState.init
  bar := BarState.init
  owed := []
  shadows := Shadows.init
  dirtyLines := DirtyList.init
  park := Park.init
  frame := none
  origin := ⟨none, none⟩
  loc := .seat 0
  started := true
  cancelTaken := false
  acquireDue := none
  startDue := false

/-- A seat at device reset: empty, every CSR 0 (R205). -/
def Seat.init : Seat where
  occ := none
  xvec := 0
  sscr := Vector.replicate 4 0
  quantum := 0
  timer := 0
  timerAt := 0
  timerDue := false
  lbase := 0
  llim := 0
  wbseg := 0
  disc := Vector.replicate 4 0
  doubletc := 0
  deleg := 0
  pmc := Vector.replicate 16 0
  pmcsel := 0
  stop := false
  halt := false
  tstop := false
  dbgHalt := false
  last := none
  sendq := []
  committed := 0
  engStatus := Vector.replicate 3 0xFF
  localOp := none
  pops := []
  fetched := []
  localDone := 0
  off := none
  due := none
  nextTurn := 0

/-- A core at device reset; PARKSWAP is 256 (R205). -/
def Core.init : Core where
  inboxb := 0
  inboxp := 0
  before := none
  prioAging := 0
  parkswap := 256
  qs := Vector.replicate 16 none
  runq := []
  held := []
  writing := []
  notices := []
  stops := []
  ovfDue := none
  icache := []
  routes := []

def Tile.init : Tile where
  slots := Vector.replicate 16 ⟨none⟩
  mu := .idle
  idleSince := 0
  lastKStep := 0
  windowEnd := 0
  pendingWindow := 0
  jobs := []
  abuf := []
  recentSteps := []

def Cluster.init : Cluster := ⟨[], [], []⟩
def Bank.init : Bank := ⟨[], 0⟩
def Engine.init : Engine := ⟨[], none⟩
def Station.init : Station := ⟨[], [], [], [], [], [], []⟩
def DispStation.init : DispStation := ⟨Vector.replicate 4 0, [], 1, []⟩
def HostQueue.init : HostQueue := ⟨0, 0, 0, 0, 0, 0, 0, []⟩
def BlockOwner.init : BlockOwner := ⟨false, false, 0⟩
def DepCtr.init : DepCtr := ⟨false, false, 0, 0, 0, 0⟩
def QueueRec.init : QueueRec where
  v := false
  trig := false
  stopped := false
  depv := false
  depctr := 0
  log2n := 0
  prio := 0
  asid := 0
  ring := 0
  tail := 0
  head := 0
  template := 0
  hdr := []
  coreList := []
  headCache := []
  spawned := []
  released := []
  dropped := []

/-! ## Units by number -/

def State.thread? (s : State) (uid : Nat) : Option Thread := FMap.find? s.fab.threads uid
def State.setThread (s : State) (uid : Nat) (t : Thread) : State :=
  { s with fab := { s.fab with threads := FMap.insert s.fab.threads uid t } }
def State.modThread (s : State) (uid : Nat) (f : Thread → Thread) : State :=
  { s with fab := { s.fab with threads := FMap.modify s.fab.threads uid f } }
def State.dropThread (s : State) (uid : Nat) : State :=
  { s with fab := { s.fab with threads := FMap.erase s.fab.threads uid } }

def State.seat (s : State) (n : Nat) : Seat := (FMap.find? s.fab.seats n).getD Seat.init
def State.setSeat (s : State) (n : Nat) (x : Seat) : State :=
  { s with fab := { s.fab with seats := FMap.insert s.fab.seats n x } }
def State.modSeat (s : State) (n : Nat) (f : Seat → Seat) : State := s.setSeat n (f (s.seat n))

def State.core (s : State) (n : Nat) : Core := (FMap.find? s.fab.cores n).getD Core.init
def State.setCore (s : State) (n : Nat) (x : Core) : State :=
  { s with fab := { s.fab with cores := FMap.insert s.fab.cores n x } }
def State.modCore (s : State) (n : Nat) (f : Core → Core) : State := s.setCore n (f (s.core n))

def State.tile (s : State) (n : Nat) : Tile := (FMap.find? s.fab.tiles n).getD Tile.init
def State.setTile (s : State) (n : Nat) (x : Tile) : State :=
  { s with fab := { s.fab with tiles := FMap.insert s.fab.tiles n x } }
def State.modTile (s : State) (n : Nat) (f : Tile → Tile) : State := s.setTile n (f (s.tile n))

def State.cluster (s : State) (n : Nat) : Cluster := (FMap.find? s.fab.clusters n).getD Cluster.init
def State.setCluster (s : State) (n : Nat) (x : Cluster) : State :=
  { s with fab := { s.fab with clusters := FMap.insert s.fab.clusters n x } }
def State.modCluster (s : State) (n : Nat) (f : Cluster → Cluster) : State := s.setCluster n (f (s.cluster n))

def State.bank (s : State) (n : Nat) : Bank := (FMap.find? s.fab.banks n).getD Bank.init
def State.setBank (s : State) (n : Nat) (x : Bank) : State :=
  { s with fab := { s.fab with banks := FMap.insert s.fab.banks n x } }

def State.engine (s : State) (n : Nat) : Engine := (FMap.find? s.fab.engines n).getD Engine.init
def State.setEngine (s : State) (n : Nat) (x : Engine) : State :=
  { s with fab := { s.fab with engines := FMap.insert s.fab.engines n x } }

def State.station (s : State) (n : Nat) : Station := (FMap.find? s.net.stations n).getD Station.init
def State.setStation (s : State) (n : Nat) (x : Station) : State :=
  { s with net := { s.net with stations := FMap.insert s.net.stations n x } }
def State.modStation (s : State) (n : Nat) (f : Station → Station) : State := s.setStation n (f (s.station n))

def State.req? (s : State) (n : Nat) : Option Req := FMap.find? s.net.reqs n
def State.setReq (s : State) (n : Nat) (x : Req) : State :=
  { s with net := { s.net with reqs := FMap.insert s.net.reqs n x } }
def State.dropReq (s : State) (n : Nat) : State :=
  { s with net := { s.net with reqs := FMap.erase s.net.reqs n } }

def State.msg? (s : State) (n : Nat) : Option Msg := FMap.find? s.net.msgs n
def State.setMsg (s : State) (n : Nat) (x : Msg) : State :=
  { s with net := { s.net with msgs := FMap.insert s.net.msgs n x } }
def State.dropMsg (s : State) (n : Nat) : State :=
  { s with net := { s.net with msgs := FMap.erase s.net.msgs n } }

def State.mig? (s : State) (n : Nat) : Option Mig := FMap.find? s.net.migs n
def State.setMig (s : State) (n : Nat) (x : Mig) : State :=
  { s with net := { s.net with migs := FMap.insert s.net.migs n x } }
def State.dropMig (s : State) (n : Nat) : State :=
  { s with net := { s.net with migs := FMap.erase s.net.migs n } }

def State.disp? (s : State) (n : Nat) : DispStation := (FMap.find? s.disp.stations n).getD DispStation.init
def State.setDisp (s : State) (n : Nat) (x : DispStation) : State :=
  { s with disp := { s.disp with stations := FMap.insert s.disp.stations n x } }
def State.queue? (s : State) (n : Nat) : Option QueueRec := FMap.find? s.disp.queues n
def State.setQueue (s : State) (n : Nat) (x : QueueRec) : State :=
  { s with disp := { s.disp with queues := FMap.insert s.disp.queues n x } }
def State.launch? (s : State) (n : Nat) : Option Launch := FMap.find? s.disp.launches n
def State.setLaunch (s : State) (n : Nat) (x : Launch) : State :=
  { s with disp := { s.disp with launches := FMap.insert s.disp.launches n x } }
def State.modLaunch (s : State) (n : Nat) (f : Launch → Launch) : State :=
  { s with disp := { s.disp with launches := FMap.modify s.disp.launches n f } }
def State.context? (s : State) (asid : BitVec 16) : Option Context := FMap.find? s.fw.contexts asid.toNat
def State.setContext (s : State) (asid : BitVec 16) (x : Context) : State :=
  { s with fw := { s.fw with contexts := FMap.insert s.fw.contexts asid.toNat x } }
def State.index? (s : State) (n : Nat) : Option LIndex := FMap.find? s.indexes n
def State.setIndex (s : State) (n : Nat) (x : LIndex) : State := { s with indexes := FMap.insert s.indexes n x }

/-! ## Numbering (R3, R108) -/

/-- The package core of a seat. -/
def coreOf (seat : Nat) : Nat := seat / 8
/-- The cluster of a core, 0 to 31. -/
def clusterOf (core : Nat) : Nat := core / 64
/-- The tile of a core, 0 to 511. -/
def tileOf (core : Nat) : Nat := core / 4
/-- The die of a core. -/
def dieOf (core : Nat) : Nat := core / 512
/-- SEATID (R205): [23:16] device, [13:3] package core, [2:0] seat. -/
def State.seatId (s : State) (seat : Nat) : Word := BitVec.ofNat 64 (s.device.toNat * 65536 + seat % 16384)
/-- The seat of a mesh address's cluster: die and cluster of [55:51]. -/
def meshCluster (ma : Nat) : Nat := (ma >>> 51) % 32

/-! ## Work, numbers and free values -/

def State.addWork (s : State) (delay : Nat) (ev : Ev) : State :=
  { s with work := s.work ++ [⟨s.cycle + delay, ev⟩] }

/-- A new internal number. -/
def State.fresh (s : State) : Nat × State :=
  (s.net.nextId, { s with net := { s.net with nextId := s.net.nextId + 1 } })

/-- A value that the specification does not state: nothing in the model evaluates it. -/
def State.freeW (s : State) : Word × State := (Config.freeWord s.freeCtr, { s with freeCtr := s.freeCtr + 1 })

/-- The next free choice among n: from `picks`, or the first. -/
def State.pick (s : State) (n : Nat) : Nat × State :=
  match s.picks with
  | [] => (0, s)
  | p :: rest => (if n = 0 then 0 else p % n, { s with picks := rest })

/-! ## Performance counters (R206) -/

/-- Counter i after an event: it counts when PMCSEL selects the event. -/
def pmcCount (sel : Word) (v : Word) (i ev n : Nat) : Word :=
  if bitsOf sel (4 * i) 4 = ev then v + BitVec.ofNat 64 n else v

/-- Adds n to every counter of a seat that selects an event. -/
def Seat.count (x : Seat) (ev n : Nat) : Seat :=
  if x.pmcsel = 0 then x
  else { x with pmc := x.pmc.mapFinIdx (fun i v _ => pmcCount x.pmcsel v i ev n) }

/-- An event that both seats of a doublet have, since both issue every instruction (R206, R409): retired instructions, lost and parked turns, traps. -/
def bothCount (ev : Nat) : Bool := ev == 2 || ev == 3 || ev == 4 || ev == 13

def State.countAt (s : State) (seat ev n : Nat) : State :=
  if (s.seat seat).pmcsel = 0 then s else s.modSeat seat fun x => x.count ev n

/-- Counts an event of a seat, and of its doublet's other seat where that has it too. -/
def State.countEv (s : State) (seat ev n : Nat) : State :=
  if bothCount ev && (FMap.find? s.fab.doublets seat).isSome then (s.countAt seat ev n).countAt (seat + 8) ev n else s.countAt seat ev n

/-! ## General registers (R195 to R199) -/

/-- The state of a general register. -/
inductive GView where
  | full (v : Word)
  | pending
  | poisoned (rec : Word)
  deriving DecidableEq, Repr

def Regs.view (r : Regs) (n : Nat) : GView :=
  let w := vget r.g n 0
  if r.full.getLsbD n then .full w
  else if w.getLsbD 63 then .poisoned w else .pending

/-- Writes g n and sets it full. -/
def Regs.put (r : Regs) (n : Nat) (v : Word) : Regs :=
  { r with g := vset r.g n v, full := putBit r.full n true }

/-- Marks g n pending (R196). -/
def Regs.pend (r : Regs) (n : Nat) : Regs :=
  { r with g := vset r.g n 0, full := putBit r.full n false }

/-- Fills g n with a poison record (R199). -/
def Regs.poison (r : Regs) (n : Nat) (rec : Word) : Regs :=
  { r with g := vset r.g n (putBit rec 63 true), full := putBit r.full n false }

/-- The poison record of R199 for a VA, register number, segment offset or index number. -/
def poisonRec (cause sub : BitVec 8) (addr : Nat) : Word :=
  BitVec.ofNat 64 (2 ^ 63 + (cause.toNat % 64) * 2 ^ 56 + sub.toNat * 2 ^ 48 + addr % 2 ^ 48)

/-- The poison record of R199 for a mesh address: ma[63:51] in [36:24], ma[23:0] in [23:0], MESH = 1. -/
def poisonMesh (cause sub : BitVec 8) (ma : Nat) : Word :=
  BitVec.ofNat 64 (2 ^ 63 + 2 ^ 62 + (cause.toNat % 64) * 2 ^ 56 + sub.toNat * 2 ^ 48
    + ((ma >>> 51) % 8192) * 2 ^ 24 + ma % 2 ^ 24)

/-- Cause, subcode and XVAL of a record (R199). -/
def recCause (r : Word) : BitVec 8 := BitVec.ofNat 8 (bitsOf r 56 6)
def recSub (r : Word) : BitVec 8 := BitVec.ofNat 8 (bitsOf r 48 8)
def recVal (r : Word) : Word :=
  if r.getLsbD 62 then BitVec.ofNat 64 (bitsOf r 24 13 * 2 ^ 51 + bitsOf r 0 24) else BitVec.ofNat 64 (bitsOf r 0 48)

/-- The tid of a thread (R198): [63:32] LAUNCH, [31:0] wid[31:0]. -/
def Thread.tid (t : Thread) : Word := t.launch ++ t.regs.wid.extractLsb' 0 32

def Thread.holderKey (t : Thread) : HolderKey := ⟨t.asid, t.launch, t.regs.wid⟩

/-- The predicate p n; p0 reads 1 (R202). -/
def Thread.pred (t : Thread) (n : Nat) : Bool := if n = 0 then true else t.regs.pw.getLsbD n
/-- The lane mask k n; k0 is all ones (R202). -/
def Thread.kmask (t : Thread) (n : Nat) : BitVec 16 :=
  if n = 0 then BitVec.allOnes 16 else BitVec.ofNat 16 (bitsOf t.regs.pw (16 * n - 8) 16)
/-- A write to pw: [63:56] and p0 are fixed (R202). -/
def pwOf (w : Word) : Word := (w &&& 0x00FF_FFFF_FFFF_FFFE) ||| 1

def Regs.setPred (r : Regs) (n : Nat) (b : Bool) : Regs :=
  if n = 0 then r else { r with pw := putBit r.pw n b, pwPoison := none }
def Regs.setMask (r : Regs) (n : Nat) (m : BitVec 16) : Regs :=
  if n = 0 then r else { r with pw := setBits r.pw (16 * n - 8) 16 m.toNat }

/-! ## The modes (R204, R207) -/

/-- In a trap handler: UH = 1 or supervisor mode (R207). -/
def Thread.inHandler (t : Thread) : Bool := t.sys.xstat.uh || t.sys.xstat.mode
/-- FRAMEST.ACTIVE (R205). -/
def Thread.inFrame (t : Thread) : Bool := t.sys.framest.getLsbD 63

/-! ## Waiting (R48, R49, R385) -/

/-- Whole units of 1,024 cycles waited, saturating at 0xFFFF (R48). -/
def Park.units (p : Park) (now : Nat) : Nat :=
  min ((p.waited + (if p.counting && !p.held then now - p.countSince else 0)) / 1024) 0xFFFF

/-- The thread parks at its instruction. -/
def Park.enter (p : Park) (now : Nat) : Park := if p.parked then p else { p with parked := true, since := now }

/-- A SYNC, BAR, CELLSYNC or WFE parks: its count starts when it first parks (R49). -/
def Park.enterWait (p : Park) (now : Nat) : Park :=
  if p.counting then p.enter now else { (p.enter now) with counting := true, waited := 0, countSince := now }

/-- A thread that waits leaves its seat, or is halted there: the cycles so far stay counted, and none counts until it goes on (R48, R414). -/
def Park.pause (p : Park) (now : Nat) : Park :=
  { p with parked := false, waited := if p.counting && !p.held then p.waited + (now - p.countSince) else p.waited, countSince := now, held := true }
/-- It takes a seat again, or goes on. -/
def Park.resume (p : Park) (now : Nat) : Park := { p with parked := false, countSince := now, held := false }

/-- The timer and the cycle counter of a seat are brought up to date (R370, R206 event 1): `user` is whether it holds a user-mode
thread with TE = 1. A counter that has reached 0 stays there until it is reloaded. A debugger's halt stops the timer (R414). -/
def Seat.tick (x : Seat) (now : Nat) (user : Bool) : Seat :=
  let d := now - x.timerAt
  let x := x.count 1 d
  if user && x.quantum != 0 && !x.dbgHalt && x.timer != 0 then
    if x.timer.toNat ≤ d then { x with timer := 0, timerAt := now, timerDue := true }
    else { x with timer := x.timer - BitVec.ofNat 32 d, timerAt := now }
  else { x with timerAt := now }

/-- The timer of a seat runs for its thread. -/
def timerRuns (t : Thread) : Bool := t.sys.xstat.te && !t.sys.xstat.mode

/-- Reloads the timer (R365, R370); the cycles up to now are counted (R206 event 1). -/
def Seat.reloadTimer (x : Seat) (now : Nat) : Seat :=
  { x.count 1 (now - x.timerAt) with timer := x.quantum, timerAt := now, timerDue := false }

/-! ## Taking a trap (R366 to R368) -/

/-- Where a trap of a cause goes. -/
inductive Route3 where
  | delegated
  | supervisor
  | trapStop
  deriving DecidableEq, Repr

/-- R366. Causes that are not delegable have no DELEG bit (R205). -/
def trapRoute (t : Thread) (x : Seat) (cause : BitVec 8) : Route3 :=
  if !t.sys.xstat.mode && !t.sys.xstat.uh && x.deleg.getLsbD cause.toNat && t.sys.uxvec != 0 then .delegated
  else if t.sys.xstat.sys && x.xvec != 0 then .supervisor
  else .trapStop

/-- The records of a trap (R367). -/
def SysRegs.record (y : SysRegs) (pc : Word) (cause sub : BitVec 8) (xval : Word) : SysRegs :=
  { y with xpc := pc, xcause := sub ++ cause, xval := xval }

/-- The payload of a trap notice (R368). -/
def State.trapPayload (s : State) (seat : Nat) (y : SysRegs) : List Word := [s.seatId seat, y.xcause.setWidth 64, y.xval, y.xpc, 1, 0, 0, 0]

/-- A trap stop: TSTOP is set, and the core has a notice to write (R368). -/
def State.trapStop (s : State) (seat uid : Nat) (asid : BitVec 16) (y : SysRegs) : State :=
  ((s.modSeat seat fun x => { x with tstop := true }).modCore (coreOf seat) fun c =>
    { c with stops := c.stops ++ [(uid, ⟨seat, asid, s.trapPayload seat y⟩)] }).addWork 0 (.trapNotice seat)

/-- Takes a trap at a seat: R366 to R368. The trapping instruction's wait, if any, ends (R49). A trap stop sets TSTOP and leaves
PC; the core then writes a trap notice. A handler runs outside the frame, whose place FRAMEST keeps (R231). -/
def takeTrap (s : State) (seat uid : Nat) (cause sub : BitVec 8) (xval : Word) : State :=
  match s.thread? uid with
  | none => s
  | some t =>
    let y := t.sys.record t.regs.pc cause sub xval
    let s := s.countEv seat 13 1
    match trapRoute t (s.seat seat) cause with
    | .delegated =>
      s.setThread uid { t with sys := { y with xstat := { y.xstat with uh := true, pmode := false } },
                               regs := { t.regs with pc := t.sys.uxvec }, park := Park.init, frame := none }
    | .supervisor =>
      s.setThread uid { t with sys := { y with xstat := { y.xstat with pmode := y.xstat.mode, mode := true, uh := false } },
                               regs := { t.regs with pc := (s.seat seat).xvec }, park := Park.init, frame := none }
    | .trapStop =>
      (s.setThread uid { t with sys := y, park := Park.init }).trapStop seat uid t.asid y

/-- The state of XSTAT after an ERET (R369). -/
def Xstat.eret (x : Xstat) : Xstat := { x with mode := if x.mode then x.pmode else false, uh := false }

/-- The target of an ERET: XPC, and the instruction after it for a TRAPI (R369). -/
def SysRegs.eretTarget (y : SysRegs) : Word := if y.xcause.extractLsb' 0 8 = 0x13 then y.xpc + 4 else y.xpc

/-- Returns from a trap to a checked target (R369), outside a frame. -/
def returnTo (s : State) (seat uid : Nat) (target : Word) : State :=
  (s.modThread uid fun t => { t with sys := { t.sys with xstat := t.sys.xstat.eret }, regs := { t.regs with pc := target },
                                     park := Park.init }).modSeat seat fun x => x.reloadTimer s.cycle

/-! ## Word accesses at the banks (R35 to R38) -/

/-- Transit time from a core of a cluster to the tile of an offset (R36). -/
def transit (core off : Nat) : Nat :=
  let mine := (core / 4) % 16
  let theirs := (off >>> 20) % 16
  if mine = theirs then 0 else if mine / 4 = theirs / 4 then 1 else 2

/-- The bank of an offset in a cluster. -/
def bankOf (cluster off : Nat) : Nat := (cluster * 16 + (off >>> 20) % 16) * 32 + (off >>> 3) % 32

/-- The requester number of an access (R37). -/
def BankUser.requester : BankUser → Nat
  | .seat n => coreOf n % 64
  | .doublet n => coreOf n % 64
  | .taken core _ => core % 64
  | .mesh _ | .attempt _ | .inbox _ _ _ | .spill _ _ _ | .route _ _ => 98
  | .matrix tile _ _ => 64 + tile % 16
  | .engine eng _ => if eng < 512 then 80 + eng % 16 else 96
  | .ladder _ => 97

/-- Puts word accesses of a user into the queues of their banks, each with its delay until it arrives, and the transit of its answer. -/
def queueParts (u : BankUser) (cluster : Nat) : List (Nat × Nat × BankPart) → State → State
  | [], s => s
  | (delay, t, p) :: rest, s =>
    let b := bankOf cluster p.off
    let s := s.setBank b { s.bank b with waiting := (s.bank b).waiting ++ [⟨s.cycle + delay, u, t, p⟩] }
    queueParts u cluster rest (s.addWork delay (.bankService b))

/-- A user has an access at the banks of a cluster. -/
def State.atBank (s : State) (f : BankUser → Bool) : Bool := s.fab.banks.any fun p => p.2.waiting.any fun w => f w.user

/-- The access comes before another that arrives in a cycle from a requester: it arrived earlier, or in that cycle from a requester whose number
is not higher (R37). -/
def BankWait.before (w : BankWait) (cycle requester : Nat) : Bool :=
  decide (w.arrival < cycle) || (w.arrival == cycle && decide (w.user.requester ≤ requester))

/-- The ring of an inbox: log2 of its entries and its base, when it is enabled (R156). -/
def Core.ring (c : Core) : Option (Nat × Nat) :=
  let n := bitsOf c.inboxb 24 4
  let base := bitsOf c.inboxb 6 18 * 64
  if 3 ≤ n && n ≤ 14 && base + 72 * 2 ^ n ≤ 0x0100_0000 then some (n, base) else none

/-- Cluster offsets of the payload and of the header of an entry (R156). -/
def slotOff (n base idx : Nat) : Nat := base + 64 * (idx % 2 ^ n)
def headerOff (n base idx : Nat) : Nat := base + 64 * 2 ^ n + 8 * (idx % 2 ^ n)

/-! ## Retiring -/

/-- The number of instructions LEN, and iterations TIMES, of a REPF word (R229). -/
def repfLen (w : BitVec 32) : Nat := (w.extractLsb' 10 4).toNat + 1
def repfTimes (w : BitVec 32) : Nat := (w.extractLsb' 20 6).toNat + 1

def frameIndex (f : Word) : Nat := bitsOf f 52 4
def frameIter (f : Word) : Nat := bitsOf f 56 6
/-- The frame base: the VA of the REPF, [47:2]. -/
def frameBase (f : Word) : Nat := bitsOf f 2 46 * 4
/-- FRAMEST from its fields (R205). -/
def framestOf (active : Bool) (iter index base : Nat) : Word :=
  BitVec.ofNat 64 (b2n active * 2 ^ 63 + (iter % 64) * 2 ^ 56 + (index % 16) * 2 ^ 52 + base % 2 ^ 48)

/-- PC and FRAMEST after an instruction that does not transfer: PC + 4, and inside a frame the next captured instruction, the next
iteration, or the end (R230). -/
def Thread.advance (t : Thread) : Thread :=
  match t.inFrame, t.frame with
  | true, some fr =>
    let f := t.sys.framest
    let base := frameBase f
    if frameIndex f + 1 < repfLen fr.repf then
      { t with regs := { t.regs with pc := t.regs.pc + 4 },
               sys := { t.sys with framest := framestOf true (frameIter f) (frameIndex f + 1) base } }
    else if frameIter f + 1 < repfTimes fr.repf then
      { t with regs := { t.regs with pc := BitVec.ofNat 64 (base + 4) },
               sys := { t.sys with framest := framestOf true (frameIter f + 1) 0 base } }
    else
      { t with regs := { t.regs with pc := BitVec.ofNat 64 (base + 4 * (repfLen fr.repf + 1)) },
               sys := { t.sys with framest := 0 }, frame := none }
  | _, _ => { t with regs := { t.regs with pc := t.regs.pc + 4 } }

/-- What the instruction of a seat has popped is no longer kept. -/
def State.dropPops (s : State) (seat : Nat) : State :=
  if (s.seat seat).pops = [] then s else s.modSeat seat fun x => { x with pops := [], fetched := [] }

/-- The eighth pop of an inbox view takes its entry: the core writes TAKEN into the header (R159, R200). -/
def State.postTaken (s : State) (seat : Nat) (p : PopRec) : State :=
  match p.entry, (s.core (coreOf seat)).ring with
  | some idx, some (n, base) =>
    let off := headerOff n base idx
    if p.last then
      queueParts (.taken (coreOf seat) idx) (clusterOf (coreOf seat)) [(transit (coreOf seat) off, 0, ⟨off, .atomic 4 1 0, 0⟩)] s
    else s
  | _, _ => s

/-- The pops of an instruction that has retired stand. -/
def State.forgetPops (s : State) (seat : Nat) : State := ((s.seat seat).pops.foldl (fun s p => s.postTaken seat p) s).dropPops seat

/-- An instruction retires and PC moves on (R206 event 2, R230). Its wait ends (R49). -/
def retire (s : State) (seat uid : Nat) : State :=
  ((s.forgetPops seat).countEv seat 2 1).modThread uid fun t => { t.advance with park := Park.init }

/-- An instruction retires whose retirement has been counted before its effect (R364). -/
def retireCounted (s : State) (seat uid : Nat) : State := (s.forgetPops seat).modThread uid fun t => { t.advance with park := Park.init }

/-- A transfer retires with a new PC. -/
def retireTo (s : State) (seat uid : Nat) (pc : Word) : State :=
  ((s.forgetPops seat).countEv seat 2 1).modThread uid fun t => { t with regs := { t.regs with pc := pc }, park := Park.init }

/-- The thread parks at its instruction. -/
def parkAt (s : State) (seat uid : Nat) : State :=
  (s.countEv seat 4 1).modThread uid fun t => { t with park := t.park.enter s.cycle }

/-- A SYNC, BAR, CELLSYNC or WFE parks. -/
def parkWait (s : State) (seat uid : Nat) : State :=
  (s.countEv seat 4 1).modThread uid fun t => { t with park := t.park.enterWait s.cycle }

/-- What the body of an instruction answers. -/
inductive Res where
  /-- It retires, PC moves on. -/
  | done (s : State)
  /-- It retires with a new PC. -/
  | jump (s : State) (pc : Word)
  /-- It has not issued: it parks, and nothing it did stands. -/
  | park
  /-- It parks and what it has begun stands (a fence that waits, a barrier). -/
  | parkIn (s : State)
  /-- It parks as a synchronising wait counted in WAITED (R49). -/
  | wait (s : State)
  /-- It traps; nothing it did stands. -/
  | trap (cause sub : BitVec 8) (xval : Word)
  /-- It traps after waits whose effects stand (R112). -/
  | trapIn (s : State) (cause sub : BitVec 8) (xval : Word)
  /-- It has issued; the state says how it goes on. -/
  | leave (s : State)

/-- The instruction has issued for good: its sources are consumed. One that parks or traps issues afresh (R201, R271). -/
def Res.consumes : Res → Bool
  | .done _ | .jump _ _ | .leave _ => true
  | _ => false

/-- It has not issued for good, and the state in its answer stands. -/
def Res.stands : Res → Bool
  | .parkIn _ | .wait _ | .trapIn _ _ _ _ => true
  | _ => false

/-- The state after an instruction of a seat: `s` is the state in which it issued. -/
def Res.finish (s : State) (seat uid : Nat) : Res → State
  | .done s' => retire s' seat uid
  | .jump s' pc => retireTo s' seat uid pc
  | .park => parkAt s seat uid
  | .parkIn s' => parkAt s' seat uid
  | .wait s' => parkWait s' seat uid
  | .trap c b v => takeTrap s seat uid c b v
  | .trapIn s' c b v => takeTrap s' seat uid c b v
  | .leave s' => s'

end Sys2Proof.Machine
end

