-- ==== Sys2Proof/Machine/Local.lean ====
section
/-!
DEFINITION. Scratchpad words with their full/empty bit and poison (R35, R40 to R44, R408), the segment check (R12 to R15), and the
inbox of a core (R156 to R159).
-/

namespace Sys2Proof.Machine

/-! ## Words of a cluster's scratchpad -/

/-- The address of a cluster's byte in the scratchpad memory. -/
def spadAddr (cluster off : Nat) : Nat := cluster * 2 ^ 24 + off
/-- The number of the word that holds it. -/
def spadWordNo (cluster off : Nat) : Nat := spadAddr cluster off / 8

def State.localFull (s : State) (cluster off : Nat) : Bool := !NSet.has s.mem.spadEmpty (spadWordNo cluster off)
def State.localPoisoned (s : State) (cluster off : Nat) : Bool := NSet.has s.mem.spadPoison (spadWordNo cluster off)
/-- The 8-byte word that holds an offset. -/
def State.localWord (s : State) (cluster off : Nat) : Word := Mem.read64 s.mem.spad (spadAddr cluster (off / 8 * 8))

/-- An entry of the A-operand buffer has a byte of a word. -/
def AEntry.covers (e : AEntry) (o : Nat) : Bool :=
  (decide (e.off ≤ o) && decide (o < e.off + e.len)) || (decide (e.scaleOff < o + 8) && decide (o < e.scaleOff + e.scaleLen))

/-- A write to a byte of an A-operand buffer entry, by any requester, invalidates the entry (R316). -/
def dropAbuf (tiles : FMap Tile) (cluster off : Nat) : FMap Tile :=
  tiles.map fun (k, t) =>
    if k / 16 = cluster then (k, { t with abuf := t.abuf.filter fun e => !e.covers (off / 8 * 8) }) else (k, t)

/-- Writes the bytes of a word that a mask enables; a write of all eight clears the word's poison (R408). The full/empty bit is
not changed (R44). -/
def State.localWrite (s : State) (cluster off : Nat) (mask : BitVec 8) (w : Word) : State :=
  let o := off / 8 * 8
  { s with
    mem := { s.mem with
      spad := Mem.writeMask s.mem.spad (spadAddr cluster o) 8 mask.toNat w.toNat
      spadPoison := if mask = 255 then NSet.del s.mem.spadPoison (spadWordNo cluster o) else s.mem.spadPoison }
    fab := { s.fab with tiles := dropAbuf s.fab.tiles cluster o } }

/-- Sets a word full or empty. A change starts the attempt of the oldest remote wait on the word (R52). -/
def State.setFull (s : State) (cluster off : Nat) (full : Bool) : State :=
  if s.localFull cluster off = full then s
  else
    let s := { s with mem := { s.mem with spadEmpty := NSet.put s.mem.spadEmpty (spadWordNo cluster off) (!full) } }
    if (s.cluster cluster).waits.any (fun w => w.off == off / 8 * 8) then s.addWork 0 (.waitTableAttempt cluster (off / 8 * 8)) else s

/-- Poisons a word or clears its poison. -/
def State.setLocalPoison (s : State) (cluster off : Nat) (b : Bool) : State :=
  { s with mem := { s.mem with spadPoison := NSet.put s.mem.spadPoison (spadWordNo cluster off) b } }

/-- n bytes of a cluster from an offset, the first in the low bits. -/
def State.localBytes (s : State) (cluster off n : Nat) : Nat := Mem.readNat s.mem.spad (spadAddr cluster off) n

/-- Some word of an extent is poisoned: the first such word's offset. -/
def State.firstPoison (s : State) (cluster off n : Nat) : Option Nat :=
  ((List.range ((off % 8 + n + 7) / 8)).map fun j => off / 8 * 8 + 8 * j).find? fun o => s.localPoisoned cluster o

/-! ## The segment (R12 to R15) -/

/-- The first byte outside a seat's segment: LLIM, at most 0x0100_0000 (R13), less the 12 KiB that a doublet keeps (R409). -/
def Seat.limitOf (x : Seat) : Nat :=
  let l := min x.llim.toNat 0x0100_0000
  if x.doubletc.getLsbD 0 then l - 12288 else l

/-- The length of the segment; 0 when it is empty (R13). -/
def Seat.segLen (x : Seat) : Nat := x.limitOf - x.lbase.toNat

/-- What a check of an address answers: the place, or a trap. -/
inductive Check where
  | ok (place : Nat)
  | trap (cause sub : BitVec 8) (xval : Word)
  deriving DecidableEq, Repr

/-- R14: alignment to the access size, then the segment; the place is the cluster offset. -/
def checkLocal (x : Seat) (o : Word) (size : Nat) : Check :=
  if o.toNat % size ≠ 0 then .trap 0x04 (Config.openSub 0x04) o
  else if x.segLen ≤ o.toNat then .trap 0x05 (Config.openSub 0x05) o
  else .ok (x.lbase.toNat + o.toNat)

/-- The segment check over an extent of n bytes from o: a failure reports the first offset outside (R33, R288, R315). -/
def checkExtent (base len : Nat) (o : Word) (n : Nat) : Check :=
  if len ≤ o.toNat then .trap 0x05 (Config.openSub 0x05) o
  else if len < o.toNat + n then .trap 0x05 (Config.openSub 0x05) (BitVec.ofNat 64 len)
  else .ok (base + o.toNat)

/-! ## The inbox (R156 to R159) -/

def Core.head (c : Core) : Nat := bitsOf c.inboxp 0 16
def Core.tail (c : Core) : Nat := bitsOf c.inboxp 32 16
def Core.ovf (c : Core) : Bool := c.inboxp.getLsbD 63
/-- A core as its interface sees it in a cycle: INBOXB and HEAD of before a CSR instruction of that cycle (R364, R365). -/
def Core.seen (c : Core) (now : Nat) : Core :=
  match c.before with
  | some (k, b, p) => if k = now then { c with inboxb := b, inboxp := setBits c.inboxp 0 16 (bitsOf p 0 16) } else c
  | none => c
def State.iface (s : State) (core : Nat) : Core := (s.core core).seen s.cycle
/-- Entries between HEAD and TAIL (R158). -/
def Core.pending (c : Core) : Nat := (c.tail + 65536 - c.head) % 65536

/-- The header word of an entry (R157): KIND, ASID, SRCDEV, SRCCORE, SRCSEAT. -/
def headerWord (kind : Nat) (asid : BitVec 16) (device : BitVec 8) (seat : Nat) : Word :=
  BitVec.ofNat 64 (kind * 2 ^ 56 + asid.toNat * 2 ^ 32 + device.toNat * 2 ^ 24 + (seat % 16384) * 2 ^ 10)

/-- Whether a RECV of an ASID and mode takes an entry with this header (R159). -/
def recvTakes (h : Word) (asid : BitVec 16) (sup : Bool) : Bool :=
  let kind := bitsOf h 56 8
  !h.getLsbD 0 && (sup || ((kind = 1 || kind = 2 || kind = 4) && bitsOf h 32 16 = asid.toNat))

/-- The entry that a RECV of a seat is taking. -/
def Seat.taking (x : Seat) : Option Nat := match x.localOp with
  | some op => match op.kind with
    | .recv _ _ i => some i
    | _ => none
  | none => none

/-- The instruction of a seat has popped the eighth word of the entry (R200). -/
def Seat.popsLast (x : Seat) (i : Nat) : Bool := x.pops.any fun p => p.last && p.entry == some i

/-- The entry is being taken: a RECV of the core has issued whose accesses are not complete (R332), or its eighth word has been popped and the mark has
not been written yet (R200). -/
def State.claimed (s : State) (core i : Nat) : Bool :=
  ((List.range 8).any fun k => (s.seat (core * 8 + k)).taking == some i || (s.seat (core * 8 + k)).popsLast i)
    || s.atBank fun u => u == .taken core i

/-- The indexes of the entries that a RECV would take, oldest first (R159, R332). -/
def State.recvEntries (s : State) (core : Nat) (asid : BitVec 16) (sup : Bool) : List Nat :=
  match (s.core core).ring with
  | none => []
  | some (n, base) =>
    ((List.range (s.core core).pending).map fun j => ((s.core core).head + j) % 65536).filter fun i =>
      recvTakes (s.localWord (clusterOf core) (headerOff n base i)) asid sup && !s.claimed core i

/-- HEAD after the leading entries that are taken (R159). -/
def advanceHead (s : State) (core n base : Nat) : Nat → Nat → Nat
  | 0, h => h
  | fuel + 1, h =>
    if (s.localWord (clusterOf core) (headerOff n base h)).getLsbD 0 then advanceHead s core n base fuel ((h + 1) % 65536) else h

def Core.setHead (c : Core) (h : Nat) : Core := { c with inboxp := setBits c.inboxp 0 16 h }
def Core.setTail (c : Core) (t : Nat) : Core := { c with inboxp := setBits c.inboxp 32 16 t }
/-- Room has been made in the ring: from the next cycle on the interface writes the messages held and the notices kept (R158, R365, R368). -/
def State.roomInRing (s : State) (core : Nat) : State :=
  if (s.core core).held.isEmpty && (s.core core).notices.isEmpty then s else s.addWork 1 (.inboxHeldWrite core)

/-- HEAD moves past the leading taken entries (R159). -/
def State.headPastTaken (s : State) (core : Nat) : State :=
  match (s.core core).ring with
  | none => s
  | some (n, base) =>
    let c := s.core core
    (s.setCore core (c.setHead (advanceHead s core n base c.pending c.head))).roomInRing core

/-- The seats of a core that hold a thread, lowest first, with the thread. -/
def State.coreThreads (s : State) (core : Nat) : List (Nat × Nat × Thread) :=
  (List.range 8).filterMap fun k =>
    match (s.seat (core * 8 + k)).occ with
    | none => none
    | some uid => (s.thread? uid).map fun t => (core * 8 + k, uid, t)

/-- Sets OVF. With a change from 0 to 1, the lowest-numbered seat of the core that runs the system context in supervisor mode takes INBOX at
its next turn (R158). -/
def State.setOvf (s : State) (core : Nat) : State :=
  if (s.core core).ovf then s
  else
    let sup := (s.coreThreads core).find? fun p => p.2.2.sys.xstat.sys && p.2.2.sys.xstat.mode
    s.modCore core fun c => { c with inboxp := putBit c.inboxp 63 true, ovfDue := sup.map (·.1) }

/-! ## Word accesses at the banks (R35 to R38) -/

/-- Puts back what stores have replaced, the latest first, but for bytes that others have written since (R394). -/
def undoStores (cluster : Nat) : List Undo → State → State
  | [], s => s
  | u :: rest, s =>
    if u.mask = 0 then undoStores cluster rest s
    else
      let s := s.localWrite cluster u.off u.mask u.word
      undoStores cluster rest (if u.poison then s.setLocalPoison cluster u.off true else s)

/-- A store that may yet be taken back has been performed at a bank. -/
def State.undoOpen (s : State) (b : Nat) : Bool :=
  (s.fab.seats.any fun p => p.2.localOp.any fun op => op.undo.any fun u => bankOf (clusterOf (coreOf p.1)) u.off == b)
    || s.fab.tiles.any fun p => p.2.jobs.any fun j => j.undo.any fun u => bankOf (p.1 / 16) u.off == b

/-- The bank serves an access that a core makes in this cycle without transit at once: it is free, and no access that waits comes first. -/
def State.bankIdle (s : State) (b core : Nat) : Bool :=
  decide ((s.bank b).free ≤ s.cycle) && !((s.bank b).waiting.any fun w => w.before s.cycle (core % 64)) && !s.undoOpen b

/-- The bytes of its word that an access writes. -/
def State.accessMask (s : State) (w : BankWait) : BitVec 8 :=
  match w.user with
  | .mesh req | .attempt req =>
    match s.req? req with
    | some r => match r.op with
      | .str | .strf | .eng _ _ true _ => 255
      | _ => 0
    | none => 0
  | _ =>
    match w.part.op with
    | .read => 0
    | .write m _ => m
    | .sync code _ => if code = 2 then 255 else 0
    | .atomic _ _ _ | .clear | .restore _ _ => 255

/-- Bytes of a word are no longer those of the stores. -/
def dropUndo (off : Nat) (m : BitVec 8) (l : List Undo) : List Undo :=
  l.map fun u => if u.off / 8 = off / 8 then { u with mask := u.mask &&& ~~~ m } else u

def Seat.overwritten (x : Seat) (off : Nat) (m : BitVec 8) : Seat :=
  { x with localOp := x.localOp.map fun op => { op with undo := dropUndo off m op.undo } }

/-- An access writes over what others have stored at its bank: a trap of theirs does not take that back (R394). -/
def State.shield (s : State) (cluster : Nat) (w : BankWait) : State :=
  let m := s.accessMask w
  if m = 0 || !s.undoOpen (bankOf cluster w.part.off) then s
  else
    let seats := s.fab.seats.map fun (k, x) =>
      (k, if clusterOf (coreOf k) = cluster && w.user != .seat k then x.overwritten w.part.off m else x)
    let tiles := s.fab.tiles.map fun (k, t) =>
      (k, if k / 16 = cluster then
          { t with jobs := t.jobs.map fun j =>
              if w.user = .matrix k j.seat j.issued then j else { j with undo := dropUndo w.part.off m j.undo } }
        else t)
    { s with fab := { s.fab with seats := seats, tiles := tiles } }

/-- A local access in progress, at its beginning. -/
def LocalOp.start (uid : Nat) (kind : LocalKind) (off : Word) (base : Nat) (parts : List BankPart) (now : Nat) : LocalOp :=
  { uid := uid, kind := kind, off := off, base := base, remaining := parts.length, undo := [], got := [], poison := none, failed := false, done := now }

/-- R127: the new word of a local atomic by its minor, from the old word, g[B] and, for CAS, the expected value. -/
def localAtom (f : BitVec 3) (m b expected : Word) : Word :=
  match f.toNat with
  | 0 => m + b
  | 1 => b
  | 2 => if m = expected then b else m
  | 3 => m &&& b
  | 4 => m ||| b
  | 5 => m ^^^ b
  | 6 => if b.toInt < m.toInt then b else m
  | _ => if m.toInt < b.toInt then b else m

/-- The interface begins to write an entry behind TAIL and the entries in writing (R158): the payload words are presented in the next cycle and
the header in the one after (R433). The ring is enabled and has room. -/
def State.startEntry (s : State) (core : Nat) (payload : List Word) (header : Word) (msg : Option Nat) : State :=
  match (s.iface core).ring with
  | none => s
  | some (n, base) =>
    let c := s.core core
    let idx := (c.tail + c.writing.length) % 65536
    let s := s.setCore core { c with writing := c.writing ++ [⟨idx, payload, header, 9, 0, msg⟩] }
    let words := (List.range 8).map fun j => (1, 0, (⟨slotOff n base idx + 8 * j, .write 255 (payload.getD j 0), j⟩ : BankPart))
    let s := queueParts (.inbox core idx false) (clusterOf core) words s
    queueParts (.inbox core idx true) (clusterOf core) [(2, 0, ⟨headerOff n base idx, .write 255 header, 0⟩)] s

/-- A word of an entry in writing has been served; with the last one the entry counts from the next cycle on. -/
def State.entryWordWritten (s : State) (core idx : Nat) : State :=
  let put (e : InWrite) : InWrite := if e.idx = idx then { e with left := e.left - 1, ready := s.cycle + 1 } else e
  (s.modCore core fun c => { c with writing := c.writing.map put }).addWork 1 (.inboxHeldWrite core)

/-- TAIL counts the oldest entry in writing (R158); EVENT is set of each thread of the core whose RECV would take it (R360). -/
def State.countEntry (s : State) (core : Nat) (e : InWrite) : State :=
  let s := s.modCore core fun c => { c.setTail ((c.tail + 1) % 65536) with writing := c.writing.drop 1 }
  (s.coreThreads core).foldl (fun s (_, uid, t) =>
    if recvTakes e.header t.asid t.sys.xstat.mode then
      s.modThread uid fun t => { t with bar := { t.bar with event := true } } else s) s

/-- A bank has set the TAKEN mark of an entry that pops have taken (R200). -/
def State.takenServed (s : State) (core : Nat) (p : BankPart) : State :=
  (s.localWrite (clusterOf core) p.off 255 (putBit (s.localWord (clusterOf core) p.off) 0 true)).headPastTaken core

/-- Puts a popped word back at the head of its queue; of an inbox view, the word becomes the next one again. -/
def State.unpop (s : State) (core : Nat) (p : PopRec) : State :=
  match vget (s.core core).qs p.q none with
  | none => s
  | some x =>
    if x.asid ≠ p.asid then s
    else
      let put (s : State) (x : Queue) : State := s.modCore core fun c => { c with qs := vset c.qs p.q (some x) }
      match p.entry with
      | none => put s { x with words := (p.word, p.stamp) :: x.words }
      | some _ => put s { x with popped := if p.last then 7 else x.popped - 1 }

/-- The instruction of a seat traps or parks: the words that it popped go back (R201, R394). -/
def State.giveBack (s : State) (seat : Nat) : State :=
  (s.seat seat).pops.foldl (fun s p => s.unpop (coreOf seat) p) s |>.dropPops seat

/-- The ring is not full, with the entries in writing: (TAIL − HEAD) mod 2^16 is not 2^LOG2N (R158). -/
def Core.hasRoom (c : Core) : Bool :=
  match c.ring with
  | none => false
  | some (n, _) => decide ((c.pending + c.writing.length) % 65536 ≠ 2 ^ n)

end Sys2Proof.Machine
end

