-- ==== Sys2Proof/Machine/Translate.lean ====
section
/-!
DEFINITION. Translation and its checks (R57, R60 to R64, R70, R71), the words of physical memory (R56, R408), completions and
notices to the host (R456 to R458), and the fault queue of a context with the kill of a context (R398 to R400).
-/

namespace Sys2Proof.Machine

/-! ## Page tables (R60 to R62) -/

/-- log2 of the page that a leaf of a level maps. -/
def levelShift (level : Nat) : Nat := if level = 1 then 34 else if level = 2 then 25 else 16
/-- The index of a VA in a table of a level (R60), and the bytes of such a table. -/
def levelIndex (level va : Nat) : Nat := va / 2 ^ levelShift level % (if level = 1 then 2 ^ 14 else 2 ^ 9)
def tableBytes (level : Nat) : Nat := if level = 1 then 2 ^ 17 else 2 ^ 12
/-- The key of a 64 KiB page in the set of Ladder pages. -/
def ladderKey (asid : BitVec 16) (va : Nat) : Nat := asid.toNat * 2 ^ 32 + va / 2 ^ 16

def entryV (e : Word) : Bool := e.getLsbD 0
def entryR (e : Word) : Bool := e.getLsbD 1
def entryW (e : Word) : Bool := e.getLsbD 2
def entryTier (e : Word) : Nat := bitsOf e 3 2
def entryNC (e : Word) : Bool := e.getLsbD 5
def entryPsn (e : Word) : Bool := e.getLsbD 6
def entryMig (e : Word) : Bool := e.getLsbD 7
/-- The frame: ADDR as an address. -/
def entryFrame (e : Word) : Nat := bitsOf e 12 40 * 4096
/-- LEAF (R61), and an entry that points to a table. -/
def entryLeaf (e : Word) : Bool := e.getLsbD 8
def entryTable (e : Word) : Bool := entryV e && !entryLeaf e
/-- KIND of an entry with V = 0 (R62). -/
def entryNotPresent (e : Word) : Bool := !entryV e && bitsOf e 1 2 = 1

/-- Bytes of LPDDR-6 installed (R1, R56). -/
def Part.lpBytes : Part → Nat
  | .hm9p => 0
  | .hm9m1 => 2 ^ 40
  | .hm9m2 => 2 ^ 41

/-- A leaf of a level satisfies R57 and R62 for its VA. DESIGN CHOICE: a host frame has no pseudo-channel and no share of a station, so that R57 is not
asked of it (log entry 92). -/
def leafOk (p : Part) (level va : Nat) (e : Word) : Bool :=
  bitsOf e 52 12 = 0 && bitsOf e 9 3 = 0 && e.getLsbD 8
    && entryFrame e % 2 ^ levelShift level = 0
    && (level ≠ 3 || entryTier e = 2 || (entryFrame e / 2 ^ 16) % 32 = (va / 2 ^ 16) % 32)
    && entryTier e ≠ 3
    && !(entryTier e = 1 && (p.lpBytes = 0 || p.lpBytes < entryFrame e + 2 ^ levelShift level))
    && !(entryTier e = 0 && 2 ^ 39 < entryFrame e + 2 ^ levelShift level)

/-- What a walk ends on (R62). -/
inductive Walk where
  | invalid
  /-- The level of the entry that is not present. -/
  | notPresent (level : Nat)
  | leaf (level : Nat) (e : Word)
  deriving DecidableEq, Repr

/-- Reserved bits of an entry that are not zero; fields of a table entry that have to be zero. -/
def entryReserved (e : Word) : Bool := bitsOf e 52 12 != 0 || bitsOf e 9 3 != 0
def tableOk (e : Word) : Bool := bitsOf e 1 2 = 0 && bitsOf e 3 2 = 0 && bitsOf e 5 3 = 0

/-- An entry of KIND 01 that none of the cases of R62 makes invalid: it has the form of a leaf of its level, or, above level 3, of a table entry. Bits [2:1]
are its KIND, and neither R nor W. -/
def notPresentOk (p : Part) (level va : Nat) (e : Word) : Bool :=
  entryNotPresent e && (if entryLeaf e then leafOk p level va e else level ≠ 3 && !entryReserved e && bitsOf e 3 2 = 0 && bitsOf e 5 3 = 0)

/-- The bits of a frame address that R57 takes from the VA of a 64 KiB page. -/
def frameColour (level va : Nat) : Nat := if level = 3 then va / 2 ^ 16 % 32 * 2 ^ 16 else 0

/-- What an entry is that leaves the page of a VA not present: KIND 01 in the form of a leaf, with a frame of the page's own station (R57, R462). -/
def notPresentEntry (level va : Nat) : Word :=
  BitVec.ofNat 64 (2 ^ 8 + 2 + frameColour level va)

/-- The entry of a table for a VA; one that has never been written is 0. -/
def Tables.entry (t : Tables) (table level va : Nat) : Word := (FMap.find? t.entries (table / 8 + levelIndex level va)).getD 0

/-- The walk from a table of a level on, with `n` levels left (R60, R62). -/
def Tables.walk (t : Tables) (p : Part) (va : Nat) : Nat → Nat → Walk
  | 0, _ => .invalid
  | n + 1, table =>
    let level := 3 - n
    let e := t.entry table level va
    if !entryV e then (if notPresentOk p level va e then .notPresent level else .invalid)
    else if entryLeaf e then (if leafOk p level va e then .leaf level e else .invalid)
    else if entryReserved e || !tableOk e then .invalid
    else t.walk p va n (entryFrame e)

/-- The walk of a context's table (R60). A context that is not live has no table. -/
def State.walk (s : State) (asid : BitVec 16) (va : Nat) : Walk :=
  match s.context? asid with
  | none => .invalid
  | some c => s.tables.walk s.part va 3 c.table1

/-- The home station of a VA (R57). -/
def homeStation (va : Nat) : Nat := (va / 2 ^ 16) % 32

/-- The place in physical memory of a byte of a page: tier × 2^52 + address. -/
def physOf (level : Nat) (e : Word) (va : Nat) : Nat := entryTier e * 2 ^ 52 + entryFrame e + va % 2 ^ levelShift level

/-- What the checks of R64 answer. -/
inductive Access where
  /-- Performed at a place of physical memory; the leaf's R and W, and whether no near cache may hold the page: NC, or the host tier (R59). -/
  | ok (phys : Nat) (r w nc : Bool) (host : Bool)
  /-- GFAULT, non-replayable, with its subcode. -/
  | fault (sub : BitVec 8)
  /-- A replayable fault (R66). -/
  | replay
  /-- Held while its piece is being copied (R71). -/
  | held
  deriving DecidableEq, Repr

/-- The move of a page in progress. -/
def State.moveOf (s : State) (asid : BitVec 16) (va : Nat) : Option Move :=
  s.fw.moves.find? fun m => m.asid == asid && m.va / 2 ^ 16 == va / 2 ^ 16

/-- Copies n words of physical memory with their poison; no write is seen by a watch (R72). -/
def copyWords (src dst : Nat) : Nat → Memory → Memory
  | 0, m => m
  | n + 1, m =>
    let a := src + 8 * n
    let b := dst + 8 * n
    copyWords src dst n { m with phys := Mem.write64 m.phys b (Mem.read64 m.phys a), physPoison := NSet.put m.physPoison (b / 8) (NSet.has m.physPoison (a / 8)) }

/-- A piece of the context's pages that is being copied lands: an access of the firmware or of a writer that would wait for it (R71) goes on at
once, and so sees the page where it then is. -/
def State.landPieces (s : State) (asid : BitVec 16) : State :=
  let land (m : Move) : Memory → Memory :=
    copyWords (physOf 3 m.oldEntry m.va / 2 ^ 16 * 2 ^ 16 + m.current * 4096) (physOf 3 m.newEntry m.va / 2 ^ 16 * 2 ^ 16 + m.current * 4096) 512
  let ms := s.fw.moves.filter fun m => m.copying && m.asid == asid
  let follow (w : Watch) : Watch := ms.foldl (fun w m =>
    let old := physOf 3 m.oldEntry m.va / 2 ^ 16 * 2 ^ 16 + m.current * 4096
    if old ≤ w.pa ∧ w.pa < old + 4096 then { w with pa := w.pa - old + (physOf 3 m.newEntry m.va / 2 ^ 16 * 2 ^ 16 + m.current * 4096) } else w) w
  if ms.isEmpty then s
  else
    { s with
      mem := ms.foldl (fun mem m => land m mem) s.mem
      net := { s.net with stations := s.net.stations.map fun (k, x) => (k, { x with watches := x.watches.map follow }) }
      fw := { s.fw with moves := s.fw.moves.map fun m =>
        if m.copying && m.asid == asid then { m with copying := false, current := m.current + 1 } else m } }

/-- An access that passes the checks of R64 is performed on the frame of an entry; a page of the host tier is no near cache's (R59). -/
def performedOn (level va : Nat) (e : Word) (r w nc : Bool) : Access :=
  .ok (physOf level e va) r w (nc || entryTier e == 2) (entryTier e = 2)

/-- The checks of R64, in their order, against what a walk ended on. -/
def State.check64 (s : State) (asid : BitVec 16) (va : Nat) (w : Walk) (ladder needR needW : Bool) : Access :=
  match w with
  | .invalid => .fault 0x10
  | .notPresent _ => .replay
  | .leaf level e =>
    if NSet.has s.tables.ladder (ladderKey asid va) && !ladder then .fault 0x16
    else if entryPsn e then .fault 0x13
    else if needR && !entryR e then .fault 0x11
    else if needW && !entryW e then .fault 0x12
    else if entryTier e = 2 && !s.host.linkUp then .fault 0x14
    else if entryMig e then
      match s.moveOf asid va with
      | none => performedOn level va e (entryR e) (entryW e) (entryNC e)
      | some m =>
        let piece := (va / 2 ^ 12) % 16
        if piece < m.current then performedOn level va m.newEntry (entryR e) (entryW e) (entryNC e)
        else if piece = m.current && m.copying then .held
        else performedOn level va m.oldEntry (entryR e) (entryW e) (entryNC e)
    else performedOn level va e (entryR e) (entryW e) (entryNC e)

/-- A walk afresh and its checks. -/
def State.access (s : State) (asid : BitVec 16) (va : Nat) (ladder needR needW : Bool) : Access :=
  s.check64 asid va (s.walk asid va) ladder needR needW

/-! ## Physical memory (R56, R408) -/

def State.physPoisoned (s : State) (a : Nat) : Bool := NSet.has s.mem.physPoison (a / 8)
/-- The poison marks of the eight words of a granule. -/
def State.physPoisonBits (s : State) (a : Nat) : BitVec 8 :=
  BitVec.ofNat 8 ((List.range 8).foldl (fun acc j => acc + if s.physPoisoned (a / 64 * 64 + 8 * j) then 2 ^ j else 0) 0)
def State.phys64 (s : State) (a : Nat) : Word := Mem.read64 s.mem.phys a
def State.physLine (s : State) (a : Nat) : Line := Mem.readLine s.mem.phys (a / 64 * 64)

/-- Clears the poison of the words of a granule that a byte mask covers whole (R408). -/
def clearPoison (p : NSet) (a : Nat) (full : BitVec 8) : NSet :=
  (List.range 8).foldl (fun p j => if full.getLsbD j then NSet.del p (a / 64 * 8 + j) else p) p

/-- A watch on a word that has been written sends its report to the WAITRS that made it (R133). -/
def State.reportWatch (s : State) (w : Watch) : State :=
  match s.req? w.req with
  | some r =>
    match r.op with
    | .watch parent slot _ =>
      (s.setReq w.req { r with answer := some (.word (BitVec.ofNat 64 slot)), stage := .answered }).addWork 1 (.waitrsReport parent slot)
    | _ => s
  | none => s

/-- A write to a granule is reported to every WAITRS slot that watches it (R133). -/
def State.noteWrite (s : State) (a : Nat) : State :=
  let hit (w : Watch) : Bool := w.pa / 64 == a / 64
  let ws := s.net.stations.flatMap fun p => p.2.watches.filter hit
  if ws.isEmpty then s
  else
    let s := ws.foldl State.reportWatch s
    { s with net := { s.net with stations := s.net.stations.map fun (k, st) => (k, { st with watches := st.watches.filter fun w => !hit w }) } }

/-- A byte-masked write to a granule: bit i of the mask for byte i of the line. -/
def State.physWrite (s : State) (a : Nat) (mask : BitVec 64) (d : Line) : State :=
  if mask = 0 then s
  else
    { s with mem := { s.mem with
        phys := Mem.writeMask s.mem.phys (a / 64 * 64) 64 mask.toNat d.toNat
        physPoison := clearPoison s.mem.physPoison a (maskFullWords mask) } }.noteWrite a

/-- Writes an 8-byte word. -/
def State.physWrite64 (s : State) (a : Nat) (w : Word) : State :=
  { s with mem := { s.mem with phys := Mem.write64 s.mem.phys a w, physPoison := NSet.del s.mem.physPoison (a / 8) } }.noteWrite a

/-- The address of a host byte in physical memory. -/
def hostAddr (a : Nat) : Nat := 2 * 2 ^ 52 + a % 2 ^ 52
def State.host64 (s : State) (a : Nat) : Word := s.phys64 (hostAddr a)
def State.hostWrite64 (s : State) (a : Nat) (w : Word) : State := s.physWrite64 (hostAddr a) w

/-! ## Completions and notices (R456 to R458) -/

def State.hq (s : State) (fn q : Nat) : HostQueue := (FMap.find? s.host.queues (fn * 8 + q)).getD HostQueue.init
def State.setHq (s : State) (fn q : Nat) (x : HostQueue) : State :=
  { s with host := { s.host with queues := FMap.insert s.host.queues (fn * 8 + q) x } }

def HostQueue.plog (x : HostQueue) : Nat := bitsOf x.cpl 8 4
/-- The completion ring is enabled and has a free entry beside n more (R457). -/
def HostQueue.roomC (x : HostQueue) (n : Nat) : Bool :=
  x.cpl.getLsbD 0 && decide ((x.cpltail + 65536 - x.cplhead.toNat) % 65536 + n < 2 ^ x.plog)
/-- Notices leave a free entry for the completion of the command in progress on their queue. -/
def State.noticeRoom (s : State) (fn : Nat) : Bool := (s.hq fn 0).roomC (if (FMap.find? s.fw.running (fn * 8)).isSome then 1 else 0)

/-- Writes words of a completion entry from a host address; a word that the specification gives no value is free. -/
def writeEntryWords (a : Nat) (words : List Word) : Nat → State → State
  | 0, s => s
  | n + 1, s =>
    let s := writeEntryWords a words n s
    match words[n]? with
    | some w => s.hostWrite64 (a + 8 * n) w
    | none =>
      let (w, s) := s.freeW
      s.hostWrite64 (a + 8 * n) w

/-- Writes a completion entry of 32 bytes: word 0 gets the phase of the ring's lap (R458). -/
def State.writeCompletion (s : State) (fn q : Nat) (words : List Word) : State :=
  let x := s.hq fn q
  let n := 2 ^ x.plog
  let a := bitsOf x.cpl 12 52 * 4096 + 32 * (x.cpltail % n)
  let phase : Word := if (x.cpltail / n) % 2 = 0 then 1 else 0
  let s := writeEntryWords a ((words.getD 0 0 ||| phase) :: words.drop 1) 4 s
  s.setHq fn q { x with cpltail := x.cpltail + 1 }

/-- Word 0 of a completion entry without its phase (R458). -/
def completionWord (tag status kind : Nat) : Word := BitVec.ofNat 64 (tag * 2 ^ 48 + status * 2 ^ 40 + kind * 2 ^ 32)

/-- A notice to completion queue 0 of a function: written, waiting (up to 16), or dropped with EVLOST (R457). -/
def State.postNotice (s : State) (fn : Nat) (status kind : Nat) (res : List Word) : State :=
  let x := s.hq fn 0
  let words := completionWord 0 status kind :: res
  if x.waitingNotices.isEmpty && s.noticeRoom fn then s.writeCompletion fn 0 words
  else if x.waitingNotices.length < 16 then s.setHq fn 0 { x with waitingNotices := x.waitingNotices ++ [words] }
  else s.setHq fn 0 { x with cpl := putBit x.cpl 1 true }

/-- Notices that wait are written while the ring has room (R457). -/
def drainNotices (fn : Nat) : Nat → State → State
  | 0, s => s
  | fuel + 1, s =>
    let x := s.hq fn 0
    match x.waitingNotices with
    | [] => s
    | w :: rest =>
      if s.noticeRoom fn then drainNotices fn fuel ((s.setHq fn 0 { x with waitingNotices := rest }).writeCompletion fn 0 w) else s

/-- The function that hears of a context: the one that created it, or the physical function (R456). -/
def State.fnOf (s : State) (asid : BitVec 16) : Nat := ((s.context? asid).map (·.fn)).getD 0

/-- A machine-check notice (R458 KIND 3), naming a place, an address and an ASID (R103, R142), to the function that created the context (R456). -/
def State.machineCheck (s : State) (place addr : Nat) (asid : BitVec 16) : State :=
  s.postNotice (s.fnOf asid) 0 3 [BitVec.ofNat 64 place, BitVec.ofNat 64 addr, BitVec.ofNat 64 asid.toNat]

/-! ## The kill of a context, and the fault queue (R398 to R400) -/

/-- Removes every thread of a context from seats, run queues and context caches, stops its queues and discards its held requests
(R400, R66). -/
def State.killContext (s : State) (asid : BitVec 16) : State :=
  let dead := (s.fab.threads.filter fun (_, t) => t.asid == asid).map (·.1)
  let seats := s.fab.seats.map fun (k, x) =>
    match x.occ with
    | some u => if dead.contains u then (k, { x.tick s.cycle ((s.thread? u).any timerRuns) with occ := none, last := ((s.thread? u).map fun t => (t.asid, t.sys.xstat.mode)).orElse fun _ => x.last, dbgHalt := false, off := none, localOp := none, due := none, pops := [], fetched := [], tstop := false, doubletc := 0 }) else (k, x)
    | none => (k, x)
  let cores := s.fab.cores.map fun (k, c) => (k, { c with runq := c.runq.filter fun e => !dead.contains e.uid })
  let queues := s.disp.queues.map fun (k, q) => if q.asid == asid then (k, { q with stopped := true }) else (k, q)
  let launches := s.disp.launches.map fun (k, l) => (k, { l with live := l.live.filter fun u => !dead.contains u })
  let deadSeat (n : Nat) : Bool := (s.seat n).occ.any dead.contains
  let banks := s.fab.banks.map fun (k, b) =>
    (k, { b with waiting := b.waiting.filter fun w => match w.user with | .seat n | .doublet n => !deadSeat n | _ => true })
  let held := (s.net.stations.flatMap fun (_, st) => (st.holds.filter fun h => h.asid == asid).map (·.req))
    ++ (s.fab.doublets.filter fun (k, _) => deadSeat k).flatMap fun p => p.2.held
  let stations := s.net.stations.map fun (k, st) => (k, { st with holds := st.holds.filter fun h => h.asid != asid, recorded := st.recorded.filter fun p => p.1 != asid })
  { s with
    fab := { s.fab with
      threads := s.fab.threads.filter fun (_, t) => t.asid != asid, seats := seats, cores := cores, banks := banks
      doublets := s.fab.doublets.filter fun (k, _) => !deadSeat k }
    disp := { s.disp with queues := queues, launches := launches }
    net := { s.net with stations := stations, reqs := s.net.reqs.filter fun (k, _) => !held.contains k } }

/-- Words 0 to 3 of a fault record (R399). -/
structure FaultRec where
  type : Nat
  cause : BitVec 8
  sub : BitVec 8
  unit : Nat
  addr : Nat
  launch : BitVec 32
  source : Nat
  detail : Word
  deriving DecidableEq, Repr

def FaultRec.words (r : FaultRec) (asid : BitVec 16) : List Word :=
  [BitVec.ofNat 64 (2 ^ 63 + r.type * 2 ^ 60 + r.cause.toNat * 2 ^ 48 + r.sub.toNat * 2 ^ 40 + r.unit * 2 ^ 32 + asid.toNat),
   BitVec.ofNat 64 r.addr, r.launch ++ BitVec.ofNat 32 r.source, r.detail]

/-- A context's fault queue: VA and log2 of its records (R205 FAULTQ, R398). -/
def faultqVa (f : Word) : Nat := bitsOf f 6 42 * 64
def faultqN (f : Word) : Nat := bitsOf f 0 5

/-- The place in physical memory of a word at a VA of the queue or of the overflow area behind it, or nothing when the page does not allow an access. -/
def State.areaPlace (s : State) (asid : BitVec 16) (va : Nat) : Option Nat :=
  match s.access asid va false true true with
  | .ok p _ _ _ _ => some p
  | _ => none

/-- An access of a writer to a word of the queue: its place, or nothing when the access fails, which a poisoned word makes it do too (R400). -/
def State.faultqPlace (s : State) (asid : BitVec 16) (va : Nat) : Option Nat := (s.areaPlace asid va).filter fun p => !s.physPoisoned p

/-- The failure of a fault-queue access: FQFAIL, the kill, and the host's notice (R400). -/
def State.fqFail (s : State) (asid : BitVec 16) (va : Nat) : State :=
  match s.context? asid with
  | none => s
  | some c =>
    ((s.setContext asid { c with fqfail := true }).killContext asid).postNotice c.fn 6 2
      [BitVec.ofNat 64 va]

/-- A fatal record that finds no room: FATALOVF, the kill, and the host's notice (R400). -/
def State.fatalOvf (s : State) (asid : BitVec 16) : State :=
  match s.context? asid with
  | none => s
  | some c =>
    ((s.setContext asid { c with fatalovf := true }).killContext asid).postNotice c.fn 0 2 []

/-- Free records of a queue (R400), or the VA that failed. -/
def State.faultqFree (s : State) (asid : BitVec 16) : Except Nat Nat :=
  match s.context? asid with
  | none => .ok 0
  | some c =>
    let va := faultqVa c.faultq
    match s.faultqPlace asid va, s.faultqPlace asid (va + 8) with
    | some h, some t =>
      .ok (2 ^ faultqN c.faultq - (bitsOf (s.phys64 t) 0 32 + 2 ^ 32 - bitsOf (s.phys64 h) 0 32) % 2 ^ 32)
    | none, _ => .error va
    | _, none => .error (va + 8)

/-- Writes a record of a context (R400): the claim of TAIL, words 1 to 3, then word 0. A context that is not live gets none. A piece of the queue
that is being moved lands first (R71, R72). The answer says whether the record was claimed. -/
def State.faultRecord (s : State) (asid : BitVec 16) (r : FaultRec) : State × Bool :=
  let s := s.landPieces asid
  match s.context? asid with
  | none => (s, true)
  | some c =>
    let va := faultqVa c.faultq
    let n := faultqN c.faultq
    match s.faultqFree asid with
    | .error v => (s.fqFail asid v, true)
    | .ok free =>
      if (if r.type = 3 then 0 else 4) < free then
        match s.faultqPlace asid (va + 8) with
        | none => (s.fqFail asid (va + 8), true)
        | some t =>
          let i := bitsOf (s.phys64 t) 0 32
          let slot := va + 64 + 32 * (i % 2 ^ n)
          match (s.faultqPlace asid slot).filter fun p => !(List.range 4).any fun j => s.physPoisoned (p + 8 * j) with
          | none => (s.fqFail asid slot, true)
          | some p =>
            let s := s.physWrite64 t (BitVec.ofNat 64 ((i + 1) % 2 ^ 32))
            let w := r.words asid
            ((((s.physWrite64 (p + 8) (w.getD 1 0)).physWrite64 (p + 16) (w.getD 2 0)).physWrite64 (p + 24) (w.getD 3 0)).physWrite64
              p (w.getD 0 0), true)
      else if r.type = 3 then (s.fatalOvf asid, true)
      else if r.type = 1 then (s, false)
      else
        match s.faultqPlace asid (va + 16) with
        | none => (s.fqFail asid (va + 16), true)
        | some p => (s.physWrite64 p (s.phys64 p + 1), true)

end Sys2Proof.Machine
end

