-- ==== Sys2Proof/Machine/Packets.lean ====
section
/-!
DEFINITION. Requests and their answers (R140, R141, R150 to R154): sending, NACK and answer; what a fill does to a thread wherever its
context resides (R196, R197, R375, R415); deferred faults (R112); the answers owed to a thread (R109, R78, R119).
-/

namespace Sys2Proof.Machine

/-! ## Where a context is -/

/-- The core at which the context of a thread resides. -/
def State.homeCore (s : State) (t : Thread) : Nat :=
  match t.loc with
  | .seat n => coreOf n
  | .transit n => coreOf n
  | .runQueue c => c
  | .moving m => ((s.mig? m).map (·.src)).getD 0
  | .gone => 0

/-- The core that routes the answers of a saved context (R375), with the route. -/
def State.routeOf (s : State) (uid : Nat) : Option (Nat × Route) :=
  s.fab.cores.findSome? fun (k, c) => (c.routes.find? fun r => r.uid == uid).map fun r => (k, r)

/-- Changes a route. -/
def Core.putRoute (c : Core) (r : Route) : Core := { c with routes := listErase (fun x => x.uid == r.uid) c.routes ++ [r] }

/-- A route ends once nothing more is owed to it and all its words have been written (R375). -/
def State.endRoute (s : State) (core uid : Nat) : State :=
  if (s.core core).routes.any (fun r => r.uid == uid && r.owed.isEmpty) && !s.atBank (fun u => u == .route core uid) then
    s.modCore core fun c => { c with routes := listErase (fun r => r.uid == uid) c.routes }
  else s

/-! ## Deferred faults (R112) -/

/-- The record of a fault at an address: compressed when the address does not fit in 48 bits (R199). -/
def deferRec (cause sub : BitVec 8) (addr : Nat) : Word :=
  if addr < 2 ^ 48 then poisonRec cause sub addr else poisonMesh cause sub addr

/-- A deferred fault that finds DEFER full becomes a non-fatal record. The specification states no DETAIL for it. -/
def State.lateFault (s : State) (asid : BitVec 16) (launch : BitVec 32) (core : Nat) (rc : Word) : State :=
  let (w, s) := s.freeW
  (s.faultRecord asid ⟨2, recCause rc, recSub rc, 2, (recVal rc).toNat, launch, core, w⟩).1

/-- A deferred fault reaches the image of a doublet as it reaches its thread: the store that failed is not sent again after a rollback. -/
def State.deferImages (s : State) (uid : Nat) (rc : Word) : State :=
  if s.fab.doublets.isEmpty then s
  else
    let late (t : Thread) : Thread := if t.defer = 0 then { t with defer := rc } else t
    let put (k : Nat) (d : Doublet) : Doublet := if (s.seat k).occ = some uid then { d with image := d.image.map late } else d
    { s with fab := { s.fab with doublets := s.fab.doublets.map fun (k, d) => (k, put k d) } }

/-- The interface of a core makes accesses to the area of a saved context, as requester 98 (R375, R37): a write of a word, or a change of one as an
atomic of R127 makes it. -/
def State.routeWords (s : State) (core uid : Nat) (ps : List (Nat × BankOp)) : State :=
  queueParts (.route core uid) (clusterOf core) (ps.map fun p => (0, 0, ⟨p.1, p.2, 0⟩)) s

/-- A deferred fault reaches a thread, on a seat, in a run queue or saved. In a saved context it takes the place of a DEFER that is 0. -/
def State.deferFault (s : State) (uid : Nat) (rc : Word) : State :=
  let rc := putBit rc 63 true
  match s.thread? uid with
  | some t =>
    if t.defer = 0 then (s.modThread uid fun t => { t with defer := rc }).deferImages uid rc else s.lateFault t.asid t.launch (s.homeCore t) rc
  | none =>
    match s.routeOf uid with
    | none => s
    | some (core, r) => s.routeWords core uid [(r.area + 248, .atomic 2 rc 0)]

/-- The area of a saved context is changed at its bank (R375); a deferred fault that finds DEFER full there becomes a record, of the context that word 30
names (R112). A poisoned word stays as it is. -/
def State.routeServed (s : State) (core : Nat) (p : BankPart) : State :=
  let cl := clusterOf core
  let w := s.localWord cl p.off
  match p.op with
  | .write m d => s.localWrite cl p.off m d
  | .atomic f b e =>
    if s.localPoisoned cl p.off then s
    else if f = 2 && w != e then
      let tag := s.localWord cl (p.off - 8)
      s.lateFault (tag.setWidth 16) (BitVec.ofNat 32 (bitsOf tag 16 32)) core b
    else s.localWrite cl p.off 255 (localAtom f w b e)
  | _ => s

/-! ## Fills (R196, R295) -/

/-- What an answer brings. -/
inductive Fill where
  | nothing
  | word (w : Word)
  | poison (rc : Word)
  | line (d : Line)
  deriving DecidableEq, Repr

def VecState.put (x : VecState) (n : Nat) (l : Line) : VecState := { x with v := vset x.v n l, vst := vset x.vst n .full }
def VecState.pend (x : VecState) (n : Nat) : VecState := { x with vst := vset x.vst n .pending }
def VecState.poison (x : VecState) (n : Nat) (rc : Word) : VecState :=
  { x with v := vset x.v n (rc.setWidth 512), vst := vset x.vst n .poisoned }

/-- A fill of a register of a thread, which sets EVENT (R360). -/
def Thread.fill (t : Thread) (d : Dest) (v : Fill) : Thread :=
  let ev : Thread := { t with bar := { t.bar with event := true } }
  match d, v with
  | .none, _ => t
  | _, .nothing => t
  | .g n, .word w => { ev with regs := t.regs.put n w }
  | .g n, .line l => { ev with regs := t.regs.put n (l.extractLsb' 0 64) }
  | .g n, .poison rc => { ev with regs := t.regs.poison n rc }
  | .v n m, .line l => { ev with vec := t.vec.put n (lineMerge (vget t.vec.v n 0) l m) }
  | .v n m, .word w => { ev with vec := t.vec.put n (lineMerge (vget t.vec.v n 0) (w.setWidth 512) m) }
  | .v n _, .poison rc => { ev with vec := t.vec.poison n rc }

/-- The same in a saved context (R375): word n and FULL bit n of part P. Only roaming and position-bound threads are saved with answers
owed, so no vector register is awaited. -/
def State.fillSaved (s : State) (core : Nat) (r : Route) (d : Dest) (v : Fill) : State :=
  let bit (n : Nat) : Word := BitVec.ofNat 64 (2 ^ n)
  let put (n : Nat) (w : Word) (full : Bool) : State :=
    s.routeWords core r.uid ([(r.area + 8 * n, .write 255 w), (r.area + 232, if full then .atomic 4 (bit n) 0 else .atomic 3 (~~~ (bit n)) 0)]
      ++ if r.partC then [(r.area + 456, .atomic 4 (bit 26) 0)] else [])
  match d, v with
  | .g n, .word w => put n w true
  | .g n, .line l => put n (l.extractLsb' 0 64) true
  | .g n, .poison rc => put n (putBit rc 63 true) false
  | _, _ => s

/-- OUTST of a saved context counts one answer less (R375). -/
def State.outstLess (s : State) (core : Nat) (r : Route) : State :=
  if r.partC then s.routeWords core r.uid [(r.area + 456, .atomic 0 (BitVec.allOnes 64) 0)] else s

/-- An answer that a thread is owed is discharged, with its fill. -/
def Thread.answered (t : Thread) (id : Nat) (v : Fill) : Thread :=
  match t.owed.find? fun o => o.req == id with
  | none => t
  | some o =>
    let t := { t with owed := listErase (fun o => o.req == id) t.owed }
    if o.stale then t else t.fill o.dest v

/-- Answers reach the image of a doublet as they reach its thread, so that a rollback finds them (R412). -/
def State.settleImages (s : State) (id uid : Nat) (v : Fill) : State :=
  if s.fab.doublets.isEmpty then s
  else
    let put (k : Nat) (d : Doublet) : Doublet :=
      if (s.seat k).occ = some uid then { d with image := d.image.map fun t => t.answered id v } else d
    { s with fab := { s.fab with doublets := s.fab.doublets.map fun (k, d) => (k, put k d) } }

/-- The answer to a request reaches the thread to which it is owed: it is discharged, and its destination is filled unless a debugger
has written the register since (R415). An answer that is not owed is discarded (R141). -/
def State.settle (s : State) (id uid : Nat) (v : Fill) : State :=
  let s := s.settleImages id uid v
  match s.thread? uid with
  | some t => s.setThread uid (t.answered id v)
  | none =>
    match s.routeOf uid with
    | none => s
    | some (core, r) =>
      match r.owed.find? fun o => o.req == id with
      | none => s
      | some o =>
        let s := if o.stale then s else s.fillSaved core r o.dest v
        let s := s.outstLess core r
        (s.modCore core fun c => c.putRoute { r with owed := listErase (fun o => o.req == id) r.owed }).endRoute core uid

/-- Some earlier access of the thread occupies a granule (R78, R119, R100). -/
def Thread.occupies (t : Thread) (g : Granule) : Bool := t.owed.any fun o => o.gran.contains g

/-- Records an answer owed to a thread, and marks the destination pending (R196). -/
def Thread.owe (t : Thread) (id : Nat) (cls : AnsClass) (gran : List Granule) (d : Dest) : Thread :=
  let t := { t with owed := t.owed ++ [⟨id, cls, gran, d, false⟩] }
  match d with
  | .none => t
  | .g n => { t with regs := t.regs.pend n }
  | .v n _ => { t with vec := t.vec.pend n }

/-! ## Requests -/

/-- A request of a thread at its seat with everything but what it asks. -/
def Req.make (s : State) (seat uid : Nat) (t : Thread) (op : ReqOp) (addr size : Nat) : Req where
  op := op
  asid := t.asid
  addr := addr
  off := 0
  size := size
  signed := false
  mask := byteMask (addr % 64) size
  data := 0
  uid := some uid
  seat := seat
  anchored := t.kind == .anchored
  noAlloc := false
  aged := 0
  key := t.holderKey
  segBase := (s.seat seat).lbase.toNat
  segLen := (s.seat seat).segLen
  reading := none
  issued := s.cycle
  deadline := none
  budget := t.limit.toNat
  stage := .going
  answer := none
  comb := none
  results := []
  delivered := 0
  snap := 0
  seen := []

/-- The device of a mesh address (R17). -/
def meshDevice (ma : Nat) : Nat := (ma >>> 56) % 256

/-- A request that a combining point may merge (R134). -/
def Req.combinable (r : Req) : Bool :=
  match r.op with
  | .atom f _ _ => f == 0
  | .red _ _ nc => !nc
  | _ => false

/-- The unit that takes a request next. -/
def Req.nextEv (s : State) (id : Nat) (r : Req) : Ev :=
  match r.op with
  | .ldr | .str | .ldre | .strf =>
    if meshDevice r.addr = s.device.toNat then .meshRequestAccept id else .bridgePacket id
  | .stvec | .ldnear _ _ | .delvec _ | .ixpin | .ixunpin _ | .ixstat _ => .ladderAdmission id
  | .neigh _ _ => .neighSquareQuery id
  | .eng _ _ _ true => if meshDevice r.addr = s.device.toNat then .meshRequestAccept id else .bridgePacket id
  | _ => if r.combinable && r.comb.isNone && r.uid.isSome then .combinerMerge id else .stationRequest id

/-- The step of the timer of a request: for a near-cache write-back the near cache's (R470), for a combined request its point's (R140), and behind a
damaged record that of R142. -/
def Req.timerEv (r : Req) (id : Nat) : Ev :=
  match r.op with
  | .writeBack _ => .writeBackLoss id
  | _ => if r.comb.isSome && r.uid.isNone then .combiningPointTimeout (r.comb.getD 0) else if r.stage = .silent then .vallost id else .noreply id

/-- Starts the NOREPLY timer of a request or restarts it (R140). -/
def State.arm (s : State) (id n : Nat) : State :=
  match s.req? id with
  | some r => (s.setReq id { r with deadline := some (s.cycle + n) }).addWork n (r.timerEv id)
  | none =>
    match s.msg? id with
    | some m => (s.setMsg id { m with deadline := some (s.cycle + n) }).addWork n (.noreply id)
    | none => s

/-- Stops the NOREPLY timer (R140). -/
def State.disarm (s : State) (id : Nat) : State :=
  match s.req? id with
  | some r => s.setReq id { r with deadline := none }
  | none => s

/-- Sends a request under a new number: its packet is on its way, its timer runs. -/
def State.sendReq (s : State) (r : Req) : State × Nat :=
  let (id, s) := s.fresh
  (((s.setReq id r).addWork 1 (r.nextEv s id)).arm id 65536, id)

/-- Sends a request again (R152): back to its destination, with the timer restarted. -/
def State.resend (s : State) (id : Nat) : State :=
  match s.req? id with
  | some r => ((s.setReq id { r with stage := .going }).addWork 1 (r.nextEv s id)).arm id 65536
  | none => s

/-- The step that takes an answer at its requester. -/
def Req.answerEv (r : Req) (id : Nat) (a : Answer) : Ev :=
  match a, r.op with
  | _, .eng key _ _ _ => .engineAccessReply key
  | .limit, _ => .limitReply id
  | _, .store | _, .stgm | _, .rsvrel | _, .red _ _ _ | _, .str | _, .strf | _, .delvec _ | _, .ixunpin _ | _, .ixstat _
  | _, .writeBack _ | _, .lateBack _ => .acknowledgement id
  | .data _ _ _ _ _, .load => if r.anchored then .nearCacheFill id else .registerFill id
  | _, .ifetch => .instructionFetchFill id
  | _, .descr _ _ => .descriptorArrival id
  | _, .ring key => .ringPacketFetch key
  | .word _, .watch parent slot _ => .waitrsReport parent slot
  | _, _ => .registerFill id

/-- Answers a request. The reply to a combined request goes to its combining point (R137). -/
def State.answer (s : State) (id : Nat) (a : Answer) : State :=
  match s.req? id with
  | none => s
  | some r =>
    let s := s.setReq id { r with answer := some a, stage := .answered }
    match r.comb with
    | some e => s.addWork 1 (.replySplit e)
    | none => s.addWork 1 (r.answerEv id a)

/-- NACKs a request or a message: counted at the seat (R206 event 7), and resent 128 cycles later (R63, R152). -/
def State.nack (s : State) (id : Nat) : State :=
  match s.req? id with
  | some r =>
    let s := if r.uid.isSome then s.countEv r.seat 7 1 else s
    (s.setReq id { r with stage := .nacked (s.cycle + 128) }).addWork 128 (.nackResend id)
  | none =>
    match s.msg? id with
    | some m =>
      let s := if m.uid.isSome then s.countEv m.seat 7 1 else s
      (s.setMsg id { m with stage := .nacked (s.cycle + 128) }).addWork 128 (.nackResend id)
    | none => s

/-- Holds a request in a table of its destination and sends the held notice (R66, R52, R131, R133). -/
def State.holdReq (s : State) (id : Nat) : State :=
  match s.req? id with
  | some r => (s.setReq id { r with stage := .waiting }).addWork 1 (.heldNotice id)
  | none => s

/-- The poison record of a fault of a request (R199). -/
def Req.record (r : Req) (cause sub : BitVec 8) : Word :=
  match r.op with
  | .ldr | .str | .ldre | .strf => poisonMesh cause sub r.addr
  | _ => poisonRec cause sub r.addr

/-- The class of the packets of a request (R150): engine data are of class 4, other requests of class 1. A WAITRS and an enumeration send packets of
their own. -/
def ReqOp.netClass : ReqOp → Nat
  | .waitrs _ | .neigh _ _ => 0
  | .eng _ _ true _ => 4
  | _ => 1

/-! ## Class 3 packets (R150, R153, R154) -/

/-- The core of a SEATID word (R331). -/
def targetCore (w : Word) : Nat := bitsOf w 3 11
/-- The device that a class 3 packet is bound for. -/
def Msg.device (s : State) (m : Msg) : Nat :=
  match m.kind with
  | .send | .port _ => bitsOf m.dst 16 8
  | .enq => bitsOf m.dst 56 8
  | _ => s.device.toNat

/-- A SEND whose target seat lies on the issuing core: it enters no network (R433). -/
def State.stays (s : State) (m : Msg) : Bool := m.kind == .send && m.device s == s.device.toNat && targetCore m.dst == coreOf m.seat

/-- The destination queue or inbox, for the order of R153. -/
def Msg.order (m : Msg) : Nat × Nat :=
  match m.kind with
  | .port q => (2 + q, (bitsOf m.dst 16 8) * 2048 + bitsOf m.dst 0 11)
  | .enq | .spawn => (1, m.dst.toNat)
  | _ => (0, (bitsOf m.dst 16 8) * 2048 + targetCore m.dst)

/-- The unit that takes a class 3 packet. -/
def Msg.nextEv (s : State) (id : Nat) (m : Msg) : Ev :=
  if m.device s ≠ s.device.toNat then .bridgePacket id
  else
    match m.kind with
    | .port _ => .portWordArrival id
    | .enq | .spawn => .enqAdmission id
    | _ => .inboxArrival id

/-- A class 2 or 3 packet is counted as sent, or as received, under a launch at a core (R192). A class 3 packet is
counted by its receiver as that answers it, and one that leaves the package, or that no receiver has answered, when its sender is done with it. -/
def State.countSent (s : State) (launch : BitVec 32) (core : Nat) : State :=
  s.modLaunch launch.toNat fun l => { l with sent := FMap.insert l.sent core ((FMap.find? l.sent core).getD 0 + 1) }
def State.countReceived (s : State) (launch : BitVec 32) (core : Nat) : State :=
  s.modLaunch launch.toNat fun l => { l with received := FMap.insert l.received core ((FMap.find? l.received core).getD 0 + 1) }

/-- Injects a packet. -/
def State.inject (s : State) (id : Nat) : State :=
  match s.msg? id with
  | some m => (((s.countSent m.launch (coreOf m.seat)).setMsg id { m with injected := true, stage := .going }).addWork 1 (m.nextEv s id)).arm id 65536
  | none => s

/-- Injects the oldest packet of a seat for each destination that has none in flight (R153), among those of one destination. -/
def State.injectNext (s : State) (seat : Nat) (ord : Nat × Nat) : State :=
  match (s.seat seat).sendq.find? fun id => ((s.msg? id).map (·.order)) == some ord with
  | none => s
  | some id =>
    match s.msg? id with
    | some m => if m.injected then s else s.inject id
    | none => s

/-- Puts a packet of a seat into its send queue; a store-class answer is owed to its thread (R109). -/
def State.sendMsg (s : State) (m : Msg) : State :=
  let (id, s) := s.fresh
  let s := (s.setMsg id m).modSeat m.seat fun x => { x with sendq := x.sendq ++ [id] }
  let s := match m.uid with
    | some u => s.modThread u fun t => t.owe id .store [] .none
    | none => s
  s.injectNext m.seat m.order

/-- The core of this package that receives a class 3 packet; a station is counted beyond the cores (R192). -/
def Msg.receiver (m : Msg) : Nat :=
  match m.kind with
  | .port _ => bitsOf m.dst 0 11
  | .enq | .spawn => 2048 + m.dst.toNat % 2 ^ 17 / 8192
  | _ => targetCore m.dst

/-- Answers a class 3 packet. -/
def State.answerMsg (s : State) (id : Nat) (a : Answer) : State :=
  match s.msg? id with
  | some m =>
    let here := m.device s == s.device.toNat && !m.counted
    let s := (s.setMsg id { m with answer := some a, stage := .answered, counted := m.counted || here }).addWork 1 (.acknowledgement id)
    if here then s.countReceived m.launch m.receiver else s
  | none => s

/-- A packet of a seat is done with: its entry of the send queue is free and the next packet to its destination is injected. -/
def State.closeMsg (s : State) (id : Nat) : State :=
  match s.msg? id with
  | some m =>
    let s := if m.counted then s.dropMsg id else (s.dropMsg id).countReceived m.launch (coreOf m.seat)
    let s := s.modSeat m.seat fun x => { x with sendq := listErase (fun i => i == id) x.sendq }
    s.injectNext m.seat m.order
  | none => s

def sendRoom (x : Seat) : Bool := decide (x.sendq.length < 8)

/-! ## Scopes (R107, R108) -/

/-- The programmable entry of a scope index, when its V is 1. -/
def State.scopeImage (s : State) (asid : BitVec 16) (n : Nat) : Option (BitVec 2304) :=
  match s.context? asid with
  | none => none
  | some c => FMap.find? c.scopes n

/-- Whether a scope covers a core of this device. DESIGN CHOICE: the entry of s:seat, "None but the issuing seat's own", is read as the core of the
issuing seat alone (log entry 96). -/
def State.scopeHasCore (s : State) (asid : BitVec 16) (own : Nat) (n core : Nat) : Bool :=
  if n ≤ 1 then core == own
  else if n = 2 then core / 4 == own / 4
  else if n = 3 then core / 16 == own / 16
  else if n = 4 then core / 64 == own / 64
  else if n = 5 then core / 512 == own / 512
  else if n = 6 || n = 7 then true
  else
    match s.scopeImage asid n with
    | none => true
    | some img => img.getLsbD (256 + core) && (img.extractLsb' 0 256 == 0 || img.getLsbD s.device.toNat)

/-- The devices other than the issuing one whose cores a scope covers. -/
def State.scopeDevices (s : State) (asid : BitVec 16) (n : Nat) : List Nat :=
  let others := (s.net.routes.map fun p => p.1 % 256).eraseDups.filter fun d => d != s.device.toNat
  if n < 7 then []
  else if n = 7 then others
  else
    match s.scopeImage asid n with
    | none => others
    | some img => if img.extractLsb' 256 2048 = 0 then [] else others.filter fun d => img.getLsbD d

/-- A scope is wide when it covers a core outside the issuing cluster (R108). -/
def State.scopeWide (s : State) (asid : BitVec 16) (own n : Nat) : Bool :=
  if n ≤ 4 then false
  else if n ≤ 7 then true
  else
    match s.scopeImage asid n with
    | none => true
    | some img =>
      let cores := img.extractLsb' 256 2048
      let devs := img.extractLsb' 0 256
      let here := devs == 0 || devs.getLsbD s.device.toNat
      let elsewhere := cores != 0 && putBit devs s.device.toNat false != 0
      elsewhere || (here && (cores &&& ~~~ (BitVec.ofNat 2048 ((2 ^ 64 - 1) <<< (64 * (own / 64))))) != 0)

end Sys2Proof.Machine
end

