-- ==== Sys2Proof/Machine/Near.lean ====
section
/-!
DEFINITION. The near cache (R73 to R77), write-backs (R470), and what a release and an acquire do with its lines (R76, R109, R110, R113).
-/

namespace Sys2Proof.Machine

/-- The granule of a VA. -/
def lineOf (va : Nat) : Nat := va / 64 * 64

def NLine.isAt (l : NLine) (asid : BitVec 16) (va : Nat) : Bool := l.asid == asid && l.va == lineOf va

/-- The set of a line: VA[16:6] XOR ASID[10:0] (R73). -/
def ncSet (asid : BitVec 16) (va : Nat) : Nat := ((va / 64) % 2048) ^^^ (asid.toNat % 2048)

def State.ncFind (s : State) (cl : Nat) (asid : BitVec 16) (va : Nat) : Option NLine :=
  (s.cluster cl).ncache.find? fun l => l.isAt asid va

def State.ncDrop (s : State) (cl : Nat) (asid : BitVec 16) (va : Nat) : State :=
  s.modCluster cl fun c => { c with ncache := c.ncache.filter fun l => !l.isAt asid va }

/-- A load or a store of a cluster that is on its way, to any granule of an ASID or to one: bytes of it have been overwritten, or an acquire has
passed, so that its answer will not make them valid. -/
def Req.age (r : Req) (cl : Nat) (asid : BitVec 16) (va : Option Nat) (mask : BitVec 64) : Req :=
  match r.op with
  | .load | .store | .descr _ _ =>
    if r.anchored && r.asid == asid && clusterOf (coreOf r.seat) == cl && (va.map fun v => v == lineOf r.addr).getD true then
      { r with aged := r.aged ||| mask }
    else r
  | _ => r

def State.ageAnswers (s : State) (cl : Nat) (asid : BitVec 16) (va : Option Nat) (mask : BitVec 64) : State :=
  { s with net := { s.net with reqs := s.net.reqs.map fun p => (p.1, p.2.age cl asid va mask) } }

/-- Write-backs of a granule by a cluster that are on their way, or wait for one that is: its home may not yet hold what the cluster stored (R76). -/
def State.flying (s : State) (cl : Nat) (asid : BitVec 16) (va : Nat) : List Nat :=
  (s.net.reqs.filter fun p => p.2.op == .writeBack cl && p.2.asid == asid && lineOf p.2.addr == lineOf va).map (·.1)

/-- Sends a write-back of bytes of a line (R75, R470). `thread` is the seat and thread for whose release, or ATG, RED or STGM (R114), it is
made, to which its acknowledgement is then owed; `damaged` are the words that it writes back as poison (R407). One of the granule that is on its way is
acknowledged first, so that the home performs them in their order (R115, R123). Answers on their way bring back no older byte. -/
def State.sendWriteBackOf (s : State) (cl : Nat) (l : NLine) (thread : Option (Nat × Nat)) (damaged : BitVec 8) : State :=
  let r : Req :=
    { op := .writeBack cl, asid := l.asid, addr := l.va, off := 0, size := 64, signed := false, mask := l.dirty, data := l.data
      uid := thread.map (·.2), seat := (thread.map (·.1)).getD 0, anchored := true, noAlloc := false, aged := 0
      key := ((thread.bind fun (_, u) => s.thread? u).map Thread.holderKey).getD ⟨l.asid, 0, 0⟩
      segBase := 0, segLen := 0, reading := none, issued := s.cycle, deadline := none, budget := 0, stage := .going, answer := none, comb := none
      results := [], delivered := 0, snap := damaged.setWidth 64, seen := [] }
  let (s, id) := if (s.flying cl l.asid l.va).isEmpty then s.sendReq r
    else
      let (id, s) := s.fresh
      (s.setReq id { r with stage := .queued }, id)
  let s := s.ageAnswers cl l.asid (some l.va) l.dirty
  match thread with
  | some (_, u) => s.modThread u fun t => t.owe id .writeBack [.global l.va] .none
  | none => s

/-- An access of an engine to global memory for a seat of the cluster. -/
def Req.engineOf (r : Req) (cl : Nat) : Bool :=
  match r.op with
  | .eng _ _ _ mesh => !mesh && clusterOf (coreOf r.seat) == cl
  | _ => false

/-- A request that waited is sent. -/
def State.sendWaiting (s : State) (p : Nat × Req) : State :=
  let r := { p.2 with stage := .going, issued := s.cycle }
  ((s.setReq p.1 r).addWork 1 (r.nextEv s p.1)).arm p.1 65536

/-- What waited for a write-back of a granule that has ended is sent: the next write-back; after the last one the accesses of engines (R124). -/
def State.sendQueued (s : State) (cl : Nat) (asid : BitVec 16) (va : Nat) : State :=
  let here (r : Req) : Bool := r.stage == .queued && r.asid == asid && lineOf r.addr == lineOf va
  match s.net.reqs.find? fun p => here p.2 && p.2.op == .writeBack cl with
  | some p => s.sendWaiting p
  | none =>
    if (s.flying cl asid va).isEmpty then (s.net.reqs.filter fun p => here p.2 && p.2.engineOf cl).foldl State.sendWaiting s else s

/-- Sends an access of an engine to global memory: after the write-backs of its granule that its cluster has on their way, so that it sees, and comes
after, the stores that a release before it has covered (R124, R111). -/
def State.sendEngine (s : State) (r : Req) : State :=
  if (s.flying (clusterOf (coreOf r.seat)) r.asid r.addr).isEmpty then (s.sendReq r).1
  else
    let (id, s) := s.fresh
    s.setReq id { r with stage := .queued }

def State.sendWriteBack (s : State) (cl : Nat) (l : NLine) (thread : Option (Nat × Nat)) : State := s.sendWriteBackOf cl l thread 0

/-- The least recently used line of a set of lines. -/
def oldestLine : List NLine → Option NLine
  | [] => none
  | l :: rest =>
    match oldestLine rest with
    | none => some l
    | some m => if l.used ≤ m.used then some l else some m

/-- Puts a line: it replaces the line of its granule, or is allocated; a full set first evicts its least recently used line, with a
write-back of its dirty bytes (R73, R75). A line with no valid byte is Invalid. -/
def State.ncPut (s : State) (cl : Nat) (l : NLine) : State :=
  let rest := (s.cluster cl).ncache.filter fun x => !x.isAt l.asid l.va
  if l.valid = 0 then s.modCluster cl fun c => { c with ncache := rest }
  else if (s.ncFind cl l.asid l.va).isSome then s.modCluster cl fun c => { c with ncache := rest ++ [{ l with used := s.cycle }] }
  else
    let same := rest.filter fun x => ncSet x.asid x.va == ncSet l.asid l.va
    match (if same.length < 16 then none else oldestLine same) with
    | none => s.modCluster cl fun c => { c with ncache := rest ++ [{ l with used := s.cycle }] }
    | some e =>
      let s := s.modCluster cl fun c =>
        { c with ncache := (rest.filter fun x => !x.isAt e.asid e.va) ++ [{ l with used := s.cycle }] }
      if e.dirty = 0 then s else s.sendWriteBack cl e none

def Thread.clearList (t : Thread) : Thread := { t with dirtyLines := DirtyList.init }

/-- Adds a line to a dirty-line list (R76). -/
def DirtyList.add (d : DirtyList) (va : Nat) : DirtyList :=
  if d.lines.contains va then d else if d.lines.length < 64 then { d with lines := d.lines ++ [va] } else { d with ovf := true }

/-- A load that hits with all its bytes valid: the line; a line with a dirty byte among them, or whose write-back is on its way, joins the list of the
seat (R75, R113, R116). -/
def State.ncLoad (s : State) (uid cl : Nat) (asid : BitVec 16) (va : Nat) (mask : BitVec 64) : Option (State × NLine) :=
  match s.ncFind cl asid va with
  | none => none
  | some l =>
    if mask &&& ~~~ l.valid ≠ 0 then none
    else
      let s := s.ncPut cl l
      some ((if l.dirty &&& mask = 0 && (s.flying cl asid va).isEmpty then s else s.modThread uid fun t => { t with dirtyLines := t.dirtyLines.add l.va }), l)

/-- A store hit with WOK = 1: merged, valid and dirty (R75, R76); it clears the poison marks of the words that it covers (R69). -/
def State.ncStore (s : State) (uid cl : Nat) (asid : BitVec 16) (va : Nat) (mask : BitVec 64) (d : Line) : Option State :=
  match s.ncFind cl asid va with
  | none => none
  | some l =>
    if !l.wok then none
    else
      let s := s.ncPut cl { l with data := lineMerge l.data d mask, valid := l.valid ||| mask, dirty := l.dirty ||| mask,
                                   poison := l.poison &&& ~~~ (maskFullWords mask) }
      let s := s.ageAnswers cl asid (some (lineOf va)) mask
      some (s.modThread uid fun t => { t with dirtyLines := t.dirtyLines.add l.va })

/-- Writes back the dirty bytes of a line, if any, and invalidates it (R114, R65). The answer says whether a write-back was sent. -/
def State.ncFlushLine (s : State) (cl : Nat) (asid : BitVec 16) (va : Nat) (thread : Option (Nat × Nat)) : State × Bool :=
  match s.ncFind cl asid va with
  | none => (s, false)
  | some l =>
    let s := s.ncDrop cl asid va
    if l.dirty = 0 then (s, false) else (s.sendWriteBack cl l thread, true)

/-- The lines that a wide release of a thread writes back (R76). -/
def State.releaseLines (s : State) (cl : Nat) (t : Thread) : List NLine :=
  (s.cluster cl).ncache.filter fun l => l.asid == t.asid && l.dirty != 0 && (t.dirtyLines.ovf || t.dirtyLines.lines.contains l.va)

/-- The write-backs on their way that a wide release of a thread waits for beside its own: those of its listed lines, or all of its ASID in the
cluster (R76, R115). -/
def State.flyingFor (s : State) (cl : Nat) (t : Thread) : List (Nat × Nat) :=
  (s.net.reqs.filter fun p => p.2.op == .writeBack cl && p.2.asid == t.asid
    && (t.dirtyLines.ovf || t.dirtyLines.lines.contains (lineOf p.2.addr))).map fun p => (p.1, p.2.addr)

/-- The wide write-back of R76 for an anchored thread: each listed line that is still dirty is sent and stays, with no dirty byte; write-backs of
listed lines that are on their way are owed to the thread as well; the list is cleared. DESIGN CHOICE: the specification does not say whether a
write-back uses a line for the replacement of R73; here it does. -/
def State.wideWriteBack (s : State) (seat uid : Nat) : State :=
  match s.thread? uid with
  | none => s
  | some t =>
    let cl := clusterOf (coreOf seat)
    let ls := s.releaseLines cl t
    let fs := s.flyingFor cl t
    let s := ls.foldl (fun s l => (s.ncPut cl { l with dirty := 0 }).sendWriteBack cl l (some (seat, uid))) s
    s.modThread uid fun t =>
      (fs.foldl (fun t (f : Nat × Nat) => t.owe f.1 .writeBack [.global (lineOf f.2)] .none) t : Thread).clearList

/-- A line that keeps some of its valid bytes, its dirty bytes among them: the mark of a word goes with the bytes that it was fetched for (R69). -/
def NLine.keep (l : NLine) (valid : BitVec 64) : NLine :=
  { l with valid := valid, poison := l.poison &&& (maskWords (valid &&& ~~~ l.dirty) ||| maskFullWords l.dirty) }

/-- The acquire of R110 on the lines of an ASID in a cluster: Clean lines go, Dirty and Partial lines keep their dirty bytes. Answers on their
way bring no byte back that the home held before. -/
def State.acquireLines (s : State) (cl : Nat) (asid : BitVec 16) : State :=
  (s.modCluster cl fun c =>
    { c with ncache := (c.ncache.map fun l => if l.asid == asid then l.keep l.dirty else l).filter fun l => l.valid != 0 }).ageAnswers
      cl asid none (BitVec.allOnes 64)

/-- Where the home holds a granule now: a piece that is being copied is still read in the old frame. -/
def State.homePlace (s : State) (asid : BitVec 16) (va : Nat) : Option Nat :=
  match s.access asid (lineOf va) false false false with
  | .ok pa _ _ _ _ => some pa
  | .held => (s.moveOf asid va).map fun m => physOf 3 m.oldEntry (lineOf va)
  | _ => none

/-- The home of the granule has not yet performed the write-back. -/
def Req.unperformed (r : Req) : Bool :=
  match r.stage with
  | .answered | .lost | .silent => false
  | _ => true

/-- What the home of a granule holds, and which of its words are poisoned, when its page can be read, with the bytes that a cluster has written back and
that have not reached it. -/
def State.homeBytes (s : State) (cl : Nat) (asid : BitVec 16) (va : Nat) : Option (Line × BitVec 8) :=
  (s.homePlace asid va).map fun pa =>
    (s.flying cl asid va).foldl (fun x id =>
      match s.req? id with
      | some r => if r.unperformed then (lineMerge x.1 r.data r.mask, x.2 &&& ~~~ (maskFullWords r.mask)) else x
      | none => x) (s.physLine pa, s.physPoisonBits pa)

/-- A fill of a whole line: the dirty bytes over the fetched ones (R75, R69). It is not allocated when NC = 1. For its aged bytes the home has given way
to a later value, or an acquire has passed: valid ones stay as they are, and the others are those of the home in this cycle, or as fetched where the page
can no longer be read. A word has its mark unless a dirty byte covers it or all its bytes stay as they are. -/
def State.ncFill (s : State) (cl : Nat) (asid : BitVec 16) (va : Nat) (d : Line) (poison : BitVec 8) (w nc : Bool) (aged : BitVec 64) : State :=
  if nc then s
  else
    let l := (s.ncFind cl asid va).getD ⟨asid, lineOf va, 0, 0, 0, false, 0, 0⟩
    let kept := aged &&& l.valid
    let fresh := aged &&& ~~~ kept
    let now := if fresh = 0 then (d, poison) else (s.homeBytes cl asid va).getD (d, poison)
    let d := lineMerge d now.1 fresh
    let poison := (poison &&& ~~~ (maskFullWords fresh)) ||| (now.2 &&& maskWords fresh)
    s.ncPut cl { asid := asid, va := lineOf va, data := lineMerge d l.data (l.dirty ||| kept), valid := BitVec.allOnes 64, dirty := l.dirty
                 wok := w && !nc, used := 0
                 poison := (poison &&& ~~~ (maskWords l.dirty) &&& ~~~ (maskFullWords kept)) ||| (l.poison &&& maskWords kept) }

/-- A 64-byte reply passes the egress of the cluster of an anchored thread (R75, R113): the line as its read sees it, with the dirty bytes of the cluster over
the fetched ones, and the words of it that are poisoned. The line is filled; one with a dirty byte among those read joins the list of the thread. -/
def State.lineArrives (s : State) (r : Req) (d : Line) (p : BitVec 8) (w nc : Bool) : State × Line × BitVec 8 :=
  let cl := clusterOf (coreOf r.seat)
  let old := s.ncFind cl r.asid r.addr
  let dirty := (old.map (·.dirty)).getD 0
  let s := s.ncFill cl r.asid r.addr d p w nc r.aged
  let s := match r.uid with
    | some u => if dirty &&& r.mask = 0 then s else s.modThread u fun t => { t with dirtyLines := t.dirtyLines.add (lineOf r.addr) }
    | none => s
  (s, lineMerge d ((old.map (·.data)).getD 0) dirty, p &&& ~~~ (maskWords dirty))

/-- Bytes of a granule have been written at its home for this cluster by an atomic, a reduction, a STGM or an engine, past the near cache: the valid
bytes of a present line that are not dirty are those of the home in this cycle, and loads on their way bring no older ones (R114, R124). -/
def State.ncRefresh (s : State) (cl : Nat) (asid : BitVec 16) (va : Nat) (mask : BitVec 64) : State :=
  let s := s.ageAnswers cl asid (some (lineOf va)) mask
  match s.ncFind cl asid va with
  | none => s
  | some l =>
    let m := mask &&& l.valid &&& ~~~ l.dirty
    if m = 0 then s
    else
      match s.homeBytes cl asid va with
      | some (h, p) =>
        let w := maskWords m
        s.modCluster cl fun c =>
          { c with
            ncache := c.ncache.map fun x =>
              if x.isAt asid va then { x with data := lineMerge x.data h m, poison := (x.poison &&& ~~~ w) ||| (p &&& w) } else x }
      | none => s.ncPut cl (l.keep (l.valid &&& ~~~ m))

/-- The success acknowledgement of a store sent home, passing the egress (R75): a store over all bytes of a marked word clears its mark, and one of fewer
bytes leaves it (R69). For aged bytes the line takes what the home holds in this cycle, where the page can be read. -/
def State.ncStoreAck (s : State) (cl : Nat) (r : Req) (w nc : Bool) : State :=
  let s := s.ageAnswers cl r.asid (some (lineOf r.addr)) r.mask
  let old := r.aged &&& r.mask
  let now := if old = 0 then (r.data, 0) else (s.homeBytes cl r.asid r.addr).getD (r.data, 0)
  match s.ncFind cl r.asid r.addr with
  | some l =>
    let m := r.mask &&& ~~~ l.dirty
    s.ncPut cl { l with data := lineMerge (lineMerge l.data r.data m) now.1 (m &&& old), valid := l.valid ||| m,
                        poison := (l.poison &&& ~~~ (maskFullWords r.mask)) ||| (now.2 &&& maskWords (m &&& old)) }
  | none =>
    if w && !nc && !r.noAlloc then
      s.ncPut cl { asid := r.asid, va := lineOf r.addr, data := lineMerge (lineMerge 0 r.data r.mask) now.1 old, valid := r.mask, dirty := 0
                   wok := true, poison := now.2 &&& maskWords old, used := 0 }
    else s

/-- The dirty bytes of a failed write-back are dropped (R470): they are no longer valid in a line that is still present. DESIGN CHOICE (log entry 73): for
the replacement of R73 this is a use of the line. -/
def State.ncDropBytes (s : State) (cl : Nat) (asid : BitVec 16) (va : Nat) (mask : BitVec 64) : State :=
  match s.ncFind cl asid va with
  | none => s
  | some l => s.ncPut cl (l.keep (l.valid &&& ~~~ (mask &&& ~~~ l.dirty)))

/-! ## Release and acquire (R109, R110) -/

/-- Where a release stands. -/
inductive Rel where
  /-- It waits; the state holds what it has begun. -/
  | waits (s : State)
  /-- A deferred fault is reported; DEFER is cleared (R112). -/
  | reports (s : State) (cause sub : BitVec 8) (xval : Word)
  | over (s : State)

/-- Nothing has been logged or held by a doublet since its last checkpoint, and that has committed and its image is written; a seat that is no doublet
always. -/
def State.boundaryClear (s : State) (seat : Nat) : Bool :=
  match FMap.find? s.fab.doublets seat with
  | none => true
  | some d => d.log.isEmpty && d.held.isEmpty && d.committing.isEmpty && !s.atBank fun u => u == .doublet seat

/-- A doublet with something logged or held is to take a checkpoint now (R410). -/
def State.wantCheckpoint (s : State) (seat : Nat) : State :=
  match FMap.find? s.fab.doublets seat with
  | none => s
  | some d =>
    if d.log.isEmpty && d.held.isEmpty then s
    else { s with fab := { s.fab with doublets := FMap.insert s.fab.doublets seat { d with wanted := true } } }.addWork 0 (.checkpoint (coreOf seat) seat)

/-- A new checkpoint interval starts for a doublet (R272, R410): its next turn takes the image. -/
def State.newInterval (s : State) (seat : Nat) : State :=
  match FMap.find? s.fab.doublets seat with
  | none => s
  | some d => { s with fab := { s.fab with doublets := FMap.insert s.fab.doublets seat { d with image := none } } }

/-- A release of a thread that waits for the owed answers of a kind (R109). `wide` is the reach of its scope. A fence of a doublet takes a checkpoint and
waits for its commit (R109 step 4, R410). -/
def State.releaseFor (waits : Owed → Bool) (s : State) (seat uid : Nat) (wide reports : Bool) : Rel :=
  match s.thread? uid with
  | none => .over s
  | some t =>
    if t.owed.any waits then
      .waits (s.wantCheckpoint seat)
    else if wide && t.kind == .anchored
        && !((s.releaseLines (clusterOf (coreOf seat)) t).isEmpty && (s.flyingFor (clusterOf (coreOf seat)) t).isEmpty) then
      .waits (s.wideWriteBack seat uid)
    else
      let s := if wide && t.kind == .anchored then s.modThread uid fun t => { t with dirtyLines := DirtyList.init } else s
      if reports && t.defer ≠ 0 then
        .reports (s.modThread uid fun t => { t with defer := 0 }) (recCause t.defer) (recSub t.defer) (recVal t.defer)
      else if !s.boundaryClear seat then .waits (s.wantCheckpoint seat)
      else .over (s.newInterval seat)

/-- A release waits for every answer that its thread is owed (R109). -/
def State.release (s : State) (seat uid : Nat) (wide reports : Bool) : Rel := s.releaseFor (fun _ => true) seat uid wide reports

/-- What UNANCHOR waits for (R77, R353): a write-back, and the answer of a VLDG or a VSTG. -/
def State.owesVector (s : State) (o : Owed) : Bool :=
  o.cls == .writeBack
    || (match o.dest with | .v _ _ => true | _ => false)
    || (match s.req? o.req with | some r => r.op == .store && r.size == 64 | none => false)

/-- What the near cache holds of stores of the ASID that have not reached home joins the list of a thread that acquires: its later wide release covers
them (R116). -/
def State.listLines (s : State) (cl uid : Nat) (asid : BitVec 16) : State :=
  let ls := ((s.cluster cl).ncache.filter fun l => l.asid == asid && l.dirty != 0).map (·.va)
  let fs := (s.net.reqs.filter fun p => p.2.op == .writeBack cl && p.2.asid == asid).map fun p => lineOf p.2.addr
  s.modThread uid fun t => { t with dirtyLines := (ls ++ fs).foldl DirtyList.add t.dirtyLines }

/-- An acquire of a thread (R110): it waits for the fills that are owed. -/
def State.acquire (s : State) (seat uid : Nat) (wide : Bool) : Rel :=
  match s.thread? uid with
  | none => .over s
  | some t =>
    if t.owed.any fun o => o.cls == .load then .waits s
    else if t.kind == .anchored then
      let cl := clusterOf (coreOf seat)
      let s := s.listLines cl uid t.asid
      .over (if wide then s.acquireLines cl t.asid else s)
    else .over s

end Sys2Proof.Machine
end

