-- ==== Sys2Proof/Machine/Operands.lean ====
section
/-!
DEFINITION. The operands of instructions: the register fields and what each may name (R195, R201, R226, R244), reading the sources and
testing the destinations (R197, R201, R395), the queue registers (R183, R200, R290), and the issue of an instruction (R223, R224, R395).
-/

namespace Sys2Proof.Machine

/-! ## Register fields -/

/-- What a register field is used for. -/
inductive Role where
  /-- A value that any readable register may give. -/
  | src
  /-- A destination: g, q or z. -/
  | dst
  /-- A destination that must be g or z (R201, R269). -/
  | dstG
  /-- A value read and a destination, g or z. -/
  | srcDstG
  /-- Eight registers read. -/
  | span8
  /-- Eight registers written. -/
  | span8d
  /-- Four registers read (WAITRS). -/
  | span4
  | unused
  deriving DecidableEq, Repr

/-- A register field: the register named, its role, its trap-on-empty bit (R227). -/
structure Field where
  n : BitVec 6
  role : Role
  te : Bool
  deriving DecidableEq, Repr

/-- The register fields of an instruction in the order A, B, D of R395, with their roles. -/
def fields : Instr → List Field
  | .add o | .sub o | .and o | .or o | .xor o | .andn o | .orn o | .xnor o | .shl o | .shr o | .sar o | .rol o | .min o | .max o | .minu o | .maxu o | .mul o | .mulh o | .mulhu o | .mulhsu o | .div o | .divu o | .rem o | .remu o | .sext o | .zext o | .lea1 o | .lea2 o | .lea4 o | .lea8 o | .adds o | .subs o | .addus o | .subus o => [⟨o.a, .src, o.ta⟩, ⟨o.b, .src, o.tb⟩, ⟨o.d, .dst, false⟩]
  | .clz o | .ctz o | .popc o | .brev o | .bswap o | .abs o => [⟨o.a, .src, o.ta⟩, ⟨o.d, .dst, false⟩]
  | .cmpEq o | .cmpNe o | .cmpLt o | .cmpGe o | .cmpLtu o | .cmpGeu o | .cmpTst o | .cmpTstn o => [⟨o.a, .src, o.ta⟩, ⟨o.b, .src, o.tb⟩]
  | .bfs o | .bfx o => [⟨o.a, .src, false⟩, ⟨o.d, .dst, false⟩]
  | .addi o | .andi o | .ori o | .xori o | .muli o => [⟨o.a, .src, o.ta⟩, ⟨o.d, .dst, false⟩]
  | .shli o | .shri o | .sari o | .roli o => [⟨o.a, .src, o.ta⟩, ⟨o.d, .dst, false⟩]
  | .cmpiEq o | .cmpiNe o | .cmpiLt o | .cmpiGe o | .cmpiLtu o | .cmpiGeu o | .cmpiTst o | .cmpiTstn o => [⟨o.a, .src, o.ta⟩]
  | .movi o | .pcrel o => [⟨o.d, .dst, false⟩]
  | .movh o => [⟨o.d, .srcDstG, false⟩]
  | .call _ => [⟨23, .dst, false⟩]
  | .jr o | .pset o | .rsvrel o => [⟨o.a, .src, o.ta⟩]
  | .jalr o | .lr o => [⟨o.a, .src, o.ta⟩, ⟨o.d, .dstG, false⟩]
  | .ret _ => [⟨23, .src, false⟩]
  | .pget o => [⟨o.d, .dst, false⟩]
  | .ldl o | .ldls o | .ldg o | .ldgs o => [⟨o.a, .src, o.ta⟩, ⟨o.d, .dstG, false⟩]
  | .stl o | .stg o => [⟨o.a, .src, false⟩, ⟨o.d, .src, false⟩]
  | .ldw o | .lde o | .ldr o | .ldre o => [⟨o.a, .src, o.ta⟩, ⟨o.d, .dstG, false⟩]
  | .stf o | .str o | .strf o => [⟨o.a, .src, o.ta⟩, ⟨o.d, .src, false⟩]
  | .sete o => [⟨o.a, .src, o.ta⟩]
  | .stgm o => [⟨o.a, .src, false⟩, ⟨o.d, .src, false⟩]
  | .faal o | .swapl o | .fandl o | .forl o | .fxorl o | .fminl o | .fmaxl o | .faa o | .swap o | .sc o | .amax o => [⟨o.a, .src, o.ta⟩, ⟨o.b, .src, o.tb⟩, ⟨o.d, .dstG, false⟩]
  | .casl o | .cas o => [⟨o.a, .src, o.ta⟩, ⟨o.b, .src, o.tb⟩, ⟨o.d, .srcDstG, false⟩]
  | .waitrs o => [⟨o.a, .span4, o.ta⟩, ⟨o.b, .span4, o.tb⟩, ⟨o.d, .dstG, false⟩]
  | .raddI64 o | .raddF32 o | .raddF64 o | .rmin o | .rmax o | .rand o | .ror o | .rxor o => [⟨o.a, .src, o.ta⟩, ⟨o.b, .src, o.tb⟩]
  | .qbind o => [⟨o.a, if o.kind == 2 || o.kind == 4 then .src else .unused, false⟩]
  | .qstat o | .qflush o | .qunbind o => [⟨o.d, .dstG, false⟩]
  | .vldl o | .vstl o | .vldg o | .vstg o | .vgatl o | .vscal o => [⟨o.a, .src, false⟩]
  | .vldb o => [⟨o.a, .src, false⟩]
  | .vredadd o => [⟨o.d, .dstG, false⟩]
  | .vredmax o | .vredmin o => [⟨o.d, .dstG, false⟩]
  | .vext o => [⟨o.d, .dstG, false⟩]
  | .vins o => [⟨o.d, .src, false⟩]
  | .vbcst o => [⟨o.d, .src, false⟩]
  | .vdot8 o => [⟨o.d, .srcDstG, false⟩]
  | .vpopk o => [⟨o.d, .dstG, false⟩]
  | .mldw o | .mma o | .mmaz o => [⟨o.a, .src, false⟩]
  | .mst o => [⟨o.a, .src, false⟩]
  | .mfmt o => [⟨o.a, .src, false⟩]
  | .eset o => [⟨o.a, .src, false⟩]
  | .estat o => [⟨o.d, .dst, false⟩]
  | .send o | .enq o => [⟨o.a, .src, false⟩, ⟨o.d, .span8, false⟩]
  | .recv o => [⟨o.a, .dstG, false⟩, ⟨o.d, .span8d, false⟩]
  | .spawn o => [⟨o.d, .span8, false⟩]
  | .widf o => [⟨o.d, .dst, false⟩]
  | .ibxs o | .cellq o => [⟨o.d, .dst, false⟩]
  | .stvec o | .ixpin o | .seatctlStat o | .seatctlStop o | .seatctlStart o | .seatctlWake o => [⟨o.a, .src, false⟩, ⟨o.d, .dstG, false⟩]
  | .ldnear o => [⟨o.a, .src, false⟩, ⟨o.d, .dstG, false⟩]
  | .delvec o | .ixunpin o | .setpos o => [⟨o.a, .src, false⟩, ⟨o.d, .src, false⟩]
  | .ixstat o => [⟨o.a, .src, false⟩]
  | .neigh o => [⟨o.a, .src, false⟩, ⟨o.d, .dstG, false⟩]
  | .migr o => [⟨o.a, .src, false⟩]
  | .csrr o => [⟨o.d, .dstG, false⟩]
  | .csrw o | .csrs o | .csrc o => [⟨o.a, .src, false⟩, ⟨o.d, .dstG, false⟩]
  | .ctxsave o => [⟨o.a, .src, false⟩, ⟨o.d, .src, false⟩]
  | .ctxload o => [⟨o.a, .src, false⟩, ⟨o.d, .src, false⟩]
  | _ => []

/-- The vector registers that an instruction reads (R295). -/
def vsrcs : Instr → List (BitVec 4)
  | .vstl o | .vstg o | .vgatl o => [o.vd]
  | .vscal o => [o.vd, o.vd + 1]
  | .vfaVadd o | .vfaVsub o | .vfaVmul o | .viaVmin o | .viaVmax o | .vadds o | .vzip o | .vunzip o | .vshr o => [o.va, o.vb]
  | .vfma o => [o.va, o.vb, o.vd]
  | .vfaVmin o | .vfaVmax o | .viaVadd o | .viaVsub o | .viaVmul o | .vshl o | .vshuf o => [o.va, o.vb]
  | .vabs o | .vneg o => [o.va]
  | .vmad o => [o.va, o.vb, o.vd]
  | .vcmpEq o | .vcmpNe o | .vcmpLt o | .vcmpLe o | .vcmpGt o | .vcmpGe o => [o.va, o.vb]
  | .vcmpUnord o => [o.va, o.vb]
  | .vredadd o => [o.va]
  | .vredmax o | .vredmin o => [o.va]
  | .vext o => [o.va]
  | .vdot8 o => [o.va]
  | .vsel o | .vand o | .vor o | .vxor o => [o.va, o.vb]
  | .cvt o | .vrnd o | .vrcp o | .vrsq o | .vex2 o | .vlg2 o | .vsqrt o => [o.va]
  | .qblk o => if o.t = 6 then [o.va, o.va + 1] else [o.va]
  | .dqblk o => [o.va]
  | _ => []

/-- The vector registers that an instruction writes (R295). -/
def vdsts : Instr → List (BitVec 4)
  | .vldl o | .vldg o | .vgatl o => [o.vd]
  | .vldb o => [o.vd]
  | .vfaVadd o | .vfaVsub o | .vfaVmul o | .vfma o | .viaVmin o | .viaVmax o | .vadds o | .vzip o | .vunzip o | .vshr o => [o.vd]
  | .vfaVmin o | .vfaVmax o | .viaVadd o | .viaVsub o | .viaVmul o | .vmad o | .vshl o | .vshuf o => [o.vd]
  | .vabs o | .vneg o => [o.vd]
  | .vins o => [o.va]
  | .vbcst o => [o.va]
  | .vsel o | .vand o | .vor o | .vxor o => [o.vd]
  | .cvt o | .vrnd o | .vrcp o | .vrsq o | .vex2 o | .vlg2 o | .vsqrt o => [o.vd]
  | .qblk o => [o.vd]
  | .dqblk o => if o.t = 6 then [o.vd, o.vd + 1] else [o.vd]
  | .mrd o => [o.vd]
  | _ => []

/-- Instructions of majors 0x30 to 0x38 (R203, R294). -/
def anchoredOnly : Instr → Bool
  | .vldl _ | .vstl _ | .vldg _ | .vstg _ | .vgatl _ | .vscal _ | .vldb _ | .vfaVadd _ | .vfaVsub _ | .vfaVmul _ | .vfma _ | .viaVmin _ | .viaVmax _ | .vadds _ | .vzip _ | .vunzip _ | .vshr _ | .vfaVmin _ | .vfaVmax _ | .viaVadd _ | .viaVsub _ | .viaVmul _ | .vmad _ | .vshl _ | .vshuf _ | .vabs _ | .vneg _ | .vcmpEq _ | .vcmpNe _ | .vcmpLt _ | .vcmpLe _ | .vcmpGt _ | .vcmpGe _ | .vcmpUnord _ | .vredadd _ | .vredmax _ | .vredmin _ | .vbcst _ | .vext _ | .vins _ | .vdot8 _ | .vpopk _ | .vsel _ | .vand _ | .vor _ | .vxor _ | .cvt _ | .vrnd _ | .vrcp _ | .vrsq _ | .vex2 _ | .vlg2 _ | .vsqrt _ | .qblk _ | .dqblk _ | .mldw _ | .mma _ | .mmaz _ | .mst _ | .mhint _ | .mfmt _ | .mrd _ => true
  | _ => false

/-- The lane mask that an instruction names, or k0. -/
def maskField : Instr → BitVec 2
  | .vldl o | .vstl o | .vldg o | .vstg o | .vgatl o | .vscal o | .vldb o | .vfaVadd o | .vfaVsub o | .vfaVmul o | .vfma o | .viaVmin o | .viaVmax o | .vadds o | .vzip o | .vunzip o | .vshr o | .vfaVmin o | .vfaVmax o | .viaVadd o | .viaVsub o | .viaVmul o | .vmad o | .vshl o | .vshuf o | .vabs o | .vneg o | .vcmpEq o | .vcmpNe o | .vcmpLt o | .vcmpLe o | .vcmpGt o | .vcmpGe o | .vcmpUnord o | .vredadd o | .vredmax o | .vredmin o | .vbcst o | .vdot8 o | .vpopk o | .vsel o | .vand o | .vor o | .vxor o | .cvt o | .vrnd o | .vrcp o | .vrsq o | .vex2 o | .vlg2 o | .vsqrt o => o.k
  | _ => 0

/-- Instructions that read pw, or write a part of it (R202, R407). -/
def usesPw : Instr → Bool
  | .cmpEq _ | .cmpNe _ | .cmpLt _ | .cmpGe _ | .cmpLtu _ | .cmpGeu _ | .cmpTst _ | .cmpTstn _ | .cmpiEq _ | .cmpiNe _ | .cmpiLt _ | .cmpiGe _ | .cmpiLtu _ | .cmpiGeu _ | .cmpiTst _ | .cmpiTstn _ | .pand _ | .por _ | .pxor _ | .pnot _ | .pget _ | .kmov _ | .vcmpEq _ | .vcmpNe _ | .vcmpLt _ | .vcmpLe _ | .vcmpGt _ | .vcmpGe _ | .vcmpUnord _ => true
  | _ => false

/-- The guard field. -/
def guardField : Instr → BitVec 3
  | .add o | .sub o | .and o | .or o | .xor o | .andn o | .orn o | .xnor o | .shl o | .shr o | .sar o | .rol o | .min o | .max o | .minu o | .maxu o | .mul o | .mulh o | .mulhu o | .mulhsu o | .div o | .divu o | .rem o | .remu o | .sext o | .zext o | .lea1 o | .lea2 o | .lea4 o | .lea8 o | .adds o | .subs o | .addus o | .subus o | .faal o | .swapl o | .casl o | .fandl o | .forl o | .fxorl o | .fminl o | .fmaxl o | .faa o | .swap o | .cas o | .sc o | .amax o | .waitrs o | .clz o | .ctz o | .popc o | .brev o | .bswap o | .abs o | .jalr o | .lr o | .jr o | .pset o | .rsvrel o | .cmpEq o | .cmpNe o | .cmpLt o | .cmpGe o | .cmpLtu o | .cmpGeu o | .cmpTst o | .cmpTstn o | .cmpiEq o | .cmpiNe o | .cmpiLt o | .cmpiGe o | .cmpiLtu o | .cmpiGeu o | .cmpiTst o | .cmpiTstn o | .bfs o | .bfx o | .addi o | .andi o | .ori o | .xori o | .muli o | .shli o | .shri o | .sari o | .roli o | .movi o | .pcrel o | .movh o | .br o | .call o | .repf o | .ret o | .exit o | .anchor o | .unanchor o | .cellsync o | .nop o | .ifence o | .eret o | .halt o | .wfe o | .dbgbrk o | .pand o | .por o | .pxor o | .pnot o | .pget o | .ibxs o | .cellq o | .spawn o | .kmov o | .ldl o | .ldls o | .stl o | .ldg o | .ldgs o | .stg o | .ldw o | .lde o | .stf o | .ldr o | .str o | .ldre o | .strf o | .sete o | .stgm o | .raddI64 o | .raddF32 o | .raddF64 o | .rmin o | .rmax o | .rand o | .ror o | .rxor o | .fence o | .bar o | .qbind o | .qstat o | .qflush o | .qunbind o | .vldl o | .vstl o | .vldg o | .vstg o | .vgatl o | .vscal o | .vldb o | .vfaVadd o | .vfaVsub o | .vfaVmul o | .vfma o | .viaVmin o | .viaVmax o | .vadds o | .vzip o | .vunzip o | .vshr o | .vfaVmin o | .vfaVmax o | .viaVadd o | .viaVsub o | .viaVmul o | .vmad o | .vshl o | .vshuf o | .vabs o | .vneg o | .vcmpEq o | .vcmpNe o | .vcmpLt o | .vcmpLe o | .vcmpGt o | .vcmpGe o | .vcmpUnord o | .vredadd o | .vredmax o | .vredmin o | .vbcst o | .vext o | .vins o | .vdot8 o | .vpopk o | .vsel o | .vand o | .vor o | .vxor o | .cvt o | .vrnd o | .vrcp o | .vrsq o | .vex2 o | .vlg2 o | .vsqrt o | .qblk o | .dqblk o | .mldw o | .mma o | .mmaz o | .mst o | .mhint o | .mfmt o | .mrd o | .eset o | .ego o | .ecan o | .estat o | .send o | .enq o | .recv o | .stvec o | .delvec o | .ixpin o | .ixunpin o | .setpos o | .seatctlStat o | .seatctlStop o | .seatctlStart o | .seatctlWake o | .widf o | .ldnear o | .ixstat o | .neigh o | .migr o | .trap o | .csrr o | .csrw o | .csrs o | .csrc o | .ctxsave o | .ctxload o => o.g
  | .unassignedEncoding w => guardOf w
  | _ => 0

/-- The registers that a field reads, in order. -/
def Field.reads (f : Field) : List Nat :=
  match f.role with
  | .src | .srcDstG => [f.n.toNat]
  | .span8 => (List.range 8).map (f.n.toNat + ·)
  | .span4 => (List.range 4).map (f.n.toNat + ·)
  | _ => []

/-- The registers that a field writes. -/
def Field.writes (f : Field) : List Nat :=
  match f.role with
  | .dst | .dstG | .srcDstG => [f.n.toNat]
  | .span8d => (List.range 8).map (f.n.toNat + ·)
  | _ => []

def isG (n : Nat) : Bool := decide (n < 24)
def isQ (n : Nat) : Bool := decide (24 ≤ n ∧ n < 40)

/-- The ILLREG subcode of a field, if it names what it may not name (R244). -/
def Field.bad (f : Field) : Option (BitVec 8) :=
  let n := f.n.toNat
  if f.role == .unused then none
  else if 45 ≤ n && n ≤ 62 then some 1
  else
    match f.role with
    | .dst => if 40 ≤ n && n ≤ 44 then some 2 else none
    | .dstG | .srcDstG => if isG n || n == 63 then none else some 2
    | .span8 | .span8d => if n ≤ 16 then none else if n ≤ 23 then some 3 else some 2
    | .span4 => if n ≤ 20 then none else some 3
    | _ => none

/-- The first ILLREG condition of an instruction: subcode 0x04 first, then the fields in the order A, B, D (R244). -/
def regBad (i : Instr) (t : Thread) : Option (BitVec 8) :=
  if anchoredOnly i && t.kind != .anchored then some 4 else (fields i).findSome? Field.bad

/-! ## Queue registers (R183, R200, R201) -/

def Core.queue (c : Core) (q : Nat) : Option Queue := vget c.qs q none
def Core.setQueue (c : Core) (q : Nat) (x : Option Queue) : Core := { c with qs := vset c.qs q x }

/-- The spilled words that pops find: those that have been written, up to the first whose write waits at its bank (R200). -/
def Queue.spillRead (x : Queue) : Nat := (x.spilled.takeWhile fun k => !x.unwritten.any fun u => u.2 == k).length

/-- The words of a queue that a pop issued in a cycle would find, apart from an inbox view's (R183, R200, R403). -/
def Queue.visible (x : Queue) (now : Nat) : Nat :=
  match x.kind with
  | .fifo => (x.words.filter fun w => decide (w.2 + 6 ≤ now)).length
  | .stream => x.words.length + x.overflow.length
  | .port => x.words.length
  | .inbox => 0
  | .result => x.words.length + x.spillRead

/-- Words that pops of a queue register by a thread would find. -/
def State.queueCount (s : State) (core : Nat) (t : Thread) (x : Queue) : Nat :=
  if x.kind == .inbox then 8 * (s.recvEntries core t.asid t.sys.xstat.mode).length - x.popped else x.visible s.cycle

/-- Cluster offset of the k-th spilled word of a result stream (R200). -/
def Queue.spillOff (x : Queue) (k : Nat) : Nat := x.base + 8 * (k % 768)

/-- The VA of a word of the overflow area of a context (R398, R403). -/
def overflowVa (f : Word) (k : Nat) : Nat := faultqVa f + 64 + 32 * 2 ^ faultqN f + 8 * (k % 512)

/-- After a pop the unit that feeds a stream may go on. -/
def State.popFed (s : State) (x : Queue) : State :=
  match x.feeder, x.kind with
  | some f, .stream => s.addWork 0 (.streamPush f)
  | some f, .result => s.addWork 0 (.neighSquareQuery f)
  | _, _ => s

/-- A word that a bank has read for the pops of a seat's instruction: in the first turn after its access has completed (R37, R38). -/
def Seat.fetchedWord (x : Seat) (now off : Nat) : Option Word :=
  if now < x.localDone + 8 then (x.fetched.find? fun p => p.1 == off).map (·.2) else none

/-- A word of the scratchpad as the pops of a seat's instruction read it. -/
def State.poppedWord (s : State) (seat off : Nat) : Word := ((s.seat seat).fetchedWord s.cycle off).getD (s.localWord (clusterOf (coreOf seat)) off)

/-- Pops one word of a queue register of a core, for the instruction of a seat. The caller has seen that there is one. -/
def State.popQueue (s : State) (seat q : Nat) (t : Thread) : Word × State :=
  let core := coreOf seat
  match (s.core core).queue q with
  | none => (0, s)
  | some x =>
    match x.kind with
    | .inbox =>
      match s.recvEntries core t.asid t.sys.xstat.mode, (s.core core).ring with
      | i :: _, some (n, base) =>
        (s.poppedWord seat (slotOff n base i + 8 * x.popped),
          s.modCore core fun c => c.setQueue q (some { x with popped := if x.popped = 7 then 0 else x.popped + 1 }))
      | _, _ => (0, s)
    | _ =>
      match x.words with
      | w :: rest => (w.1, (s.modCore core fun c => c.setQueue q (some { x with words := rest })).popFed x)
      | [] =>
        match x.spilled, x.overflow with
        | k :: rest, _ =>
          (s.poppedWord seat (x.spillOff k), (s.modCore core fun c => c.setQueue q (some { x with spilled := rest })).popFed x)
        | [], k :: rest =>
          let s := ((s.landPieces x.asid).modCore core fun c => c.setQueue q (some { x with overflow := rest })).popFed x
          match s.areaPlace x.asid (overflowVa (((s.context? x.asid).map (·.faultq)).getD 0) k) with
          | some p => (s.phys64 p, s)
          | none => s.freeW
        | [], [] => (0, s)

/-- What a pop of a queue register takes, for the case that it goes back. -/
def State.popRecord (s : State) (core q : Nat) (t : Thread) (w : Word) : Option PopRec :=
  match (s.core core).queue q with
  | none => none
  | some x =>
    match x.kind with
    | .inbox => (s.recvEntries core t.asid t.sys.xstat.mode).head?.map fun i => ⟨q, x.asid, w, 0, some i, x.popped == 7⟩
    | _ => some ⟨q, x.asid, w, (x.words.head?.map (·.2)).getD 0, none, false⟩

/-- The seat keeps what its instruction has popped until it retires (R201). -/
def State.keepPop (s : State) (seat : Nat) (p : Option PopRec) : State :=
  match p with
  | some p => s.modSeat seat fun x => { x with pops := p :: x.pops }
  | none => s

/-- Pops for the registers that the sources name, A's first (R201); every other register leaves no word here. -/
def popAll (seat : Nat) (t : Thread) : List Nat → State → List Word × State
  | [], s => ([], s)
  | n :: rest, s =>
    if isQ n then
      let p := s.popQueue seat (n - 24) t
      let r := popAll seat t rest (p.2.keepPop seat (s.popRecord (coreOf seat) (n - 24) t p.1))
      (p.1 :: r.1, r.2)
    else
      let r := popAll seat t rest s
      (0 :: r.1, r.2)

/-- The value of a register that is not a queue register and is not pending (R195). -/
def Thread.regValue (t : Thread) (n : Nat) : Word :=
  if n < 24 then vget t.regs.g n 0
  else if n = 40 then t.regs.pw
  else if n = 41 then t.tid
  else if n = 42 then t.regs.wid
  else if n = 43 then t.regs.xy
  else if n = 44 then t.regs.zw
  else 0

/-- The source values, with the words popped for queue registers. -/
def sourceValues (t : Thread) : List Nat → List Word → List Word
  | [], _ => []
  | n :: rest, ws => (if isQ n then ws.headD 0 else t.regValue n) :: sourceValues t rest ws.tail

/-! ## Tests of the operands (R197, R201, R395) -/

/-- What a test of operands answers. -/
inductive Test where
  | pass
  | park
  | trap (cause sub : BitVec 8) (xval : Word)
  deriving DecidableEq, Repr

/-- The first answer that is not `pass`. -/
def firstTest : List Test → Test
  | [] => .pass
  | .pass :: rest => firstTest rest
  | x :: _ => x

/-- A poisoned register traps by its record; for an uncorrectable error of R407 XVAL is in the record. -/
def testPoisonG (t : Thread) (n : Nat) : Test :=
  if n < 24 then
    match t.regs.view n with
    | .poisoned r => .trap (recCause r) (recSub r) (recVal r)
    | _ => .pass
  else if n = 40 then
    match t.regs.pwPoison with
    | some r => .trap (recCause r) (recSub r) (recVal r)
    | none => .pass
  else .pass

/-- The place in the scratchpad of the k-th word from now that a queue register would give: of the entry of an inbox view, with that of its header for the
eighth word, or of a spilled result (R200). -/
def State.scratchWord (s : State) (core : Nat) (t : Thread) (n k : Nat) : Option (Nat × Option Nat) :=
  match (s.core core).queue (n - 24) with
  | none => none
  | some x =>
    if x.kind = .inbox then
      match (s.recvEntries core t.asid t.sys.xstat.mode)[(x.popped + k) / 8]?, (s.core core).ring with
      | some i, some (m, base) =>
        some (slotOff m base i + 8 * ((x.popped + k) % 8), if (x.popped + k) % 8 = 7 then some (headerOff m base i) else none)
      | _, _ => none
    else if k < x.words.length then none
    else (x.spilled[k - x.words.length]?).map fun i => (x.spillOff i, none)

/-- The k-th word from now that a queue register would give stands in a damaged word: of the scratchpad for an inbox view or a spilled result, of global
memory for a word of the overflow area (R407). One that a bank has read has been judged there. -/
def State.testPoisonQ (s : State) (core : Nat) (t : Thread) (n k : Nat) : Test :=
  let trap (off : Nat) : Test := .trap 0x10 0x01 (BitVec.ofNat 64 off - (s.seat s.cur).lbase)
  let bad (off : Nat) : Bool := s.localPoisoned (clusterOf core) off
  match (s.core core).queue (n - 24) with
  | none => .pass
  | some x =>
    if x.asid ≠ t.asid then .pass
    else
      match s.scratchWord core t n k with
      | some (off, h) =>
        if ((s.seat s.cur).fetchedWord s.cycle off).isNone && bad off then trap off
        else if h.any bad then trap (h.getD 0) else .pass
      | none =>
        if x.kind = .inbox ∨ k < x.words.length then .pass
        else
          match x.overflow[k - x.words.length - x.spilled.length]? with
          | some i =>
            let va := overflowVa (((s.context? x.asid).map (·.faultq)).getD 0) i
            if (s.areaPlace x.asid va).any s.physPoisoned then .trap 0x10 0x03 (BitVec.ofNat 64 va) else .pass
          | none => .pass

/-- The words of the scratchpad that pops for the sources read, one after another, each with those before it. -/
def State.poppedOffs (s : State) (core : Nat) (t : Thread) : List Nat → List Nat → List Nat
  | [], _ => []
  | n :: rest, before =>
    (if isQ n then ((s.scratchWord core t n (before.filter (· == n)).length).map (·.1)).toList else []) ++ s.poppedOffs core t rest (before ++ [n])

/-- A poisoned vector register. -/
def testPoisonV (t : Thread) (n : BitVec 4) : Test :=
  if vget t.vec.vst n.toNat .full = .poisoned then
    let r := (vget t.vec.v n.toNat 0).extractLsb' 0 64
    .trap (recCause r) (recSub r) (recVal r)
  else .pass

/-- The binding of a queue register as a source (R200). -/
def testBinding (c : Core) (t : Thread) (n : Nat) : Test :=
  if isQ n then
    match c.queue (n - 24) with
    | none => .trap 0x0B 1 (BitVec.ofNat 64 (n - 24))
    | some x => if x.asid = t.asid then .pass else .trap 0x0B 2 (BitVec.ofNat 64 (n - 24))
  else .pass

/-- A pending g register, or a queue register of the ASID with fewer words than the sources named so far and this one take. -/
def testReady (s : State) (core : Nat) (t : Thread) (n : Nat) (te : Bool) (before : List Nat) : Test :=
  let empty :=
    if n < 24 then t.regs.view n == .pending
    else if isQ n then
      match (s.core core).queue (n - 24) with
      | none => false
      | some x => x.asid == t.asid && decide (s.queueCount core t x < 1 + (before.filter (· == n)).length)
    else false
  if !empty then .pass else if te then .trap 0x07 (Config.openSub 0x07) (BitVec.ofNat 64 n) else .park

/-- The sources one after another, each with those before it. -/
def testReadies (s : State) (core : Nat) (t : Thread) : List (Nat × Bool) → List Nat → List Test
  | [], _ => []
  | (n, te) :: rest, before => testReady s core t n te before :: testReadies s core t rest (before ++ [n])

/-- Poisoned sources, one after another, each with those before it. -/
def testPoisons (s : State) (core : Nat) (t : Thread) : List Nat → List Nat → List Test
  | [], _ => []
  | n :: rest, before =>
    (if isQ n then s.testPoisonQ core t n (before.filter (· == n)).length else testPoisonG t n) :: testPoisons s core t rest (before ++ [n])

/-- The source registers of an instruction with their trap-on-empty bits, in the order A, B, D. -/
def sourceRegs (i : Instr) : List (Nat × Bool) := (fields i).flatMap fun f => f.reads.map fun n => (n, f.te)

/-- Instructions with an address in their first field and a value in another, which the address steps of R31 come before. -/
def addressFirst : Instr → Bool
  | .stl _ | .stg _ | .stf _ | .str _ | .strf _ | .stgm _ | .faal _ | .swapl _ | .casl _ | .fandl _ | .forl _ | .fxorl _ | .fminl _ | .fmaxl _
  | .faa _ | .swap _ | .cas _ | .sc _ | .amax _ | .raddI64 _ | .raddF32 _ | .raddF64 _ | .rmin _ | .rmax _ | .rand _ | .ror _ | .rxor _ => true
  | _ => false

/-- The bindings of the sources (R200), in the order A, B, D. They are a condition of the instruction's own (R395 step 5). -/
def testBindings (s : State) (core : Nat) (t : Thread) (i : Instr) : Test := firstTest ((sourceRegs i).map fun p => testBinding (s.core core) t p.1)

/-- The binding of the address register of such an instruction, or of every source of another, is tested before anything parks. -/
def testBindingsNow (s : State) (core : Nat) (t : Thread) (i : Instr) : Test :=
  if addressFirst i then firstTest (((sourceRegs i).take 1).map fun p => testBinding (s.core core) t p.1) else testBindings s core t i

/-- All tests of the sources (R395 step 3), in the order A, B, D: the vector sources VA and VB of an instruction come before a D that it reads and writes.
A poisoned source traps, then EMPTY; the binding of a queue register comes after them. A pending source without a set trap-on-empty bit parks once no
source traps. -/
def testSources (s : State) (core : Nat) (t : Thread) (i : Instr) : Test :=
  let srcs := sourceRegs i
  let pw := if usesPw i || maskField i != 0 then [testPoisonG t 40] else []
  let gs := testPoisons s core t (srcs.map (·.1)) []
  let vs := (vsrcs i).map (testPoisonV t)
  let poison := firstTest (pw ++ if (fields i).any fun f => f.role == .srcDstG then vs ++ gs else gs ++ vs)
  if poison ≠ .pass then poison
  else
    let ready := testReadies s core t srcs []
    let traps := firstTest (ready.map fun x => if x = .park then .pass else x)
    if traps ≠ .pass then traps
    else
      let bind := testBindingsNow s core t i
      if bind ≠ .pass then bind
      else if ready.contains .park || (vsrcs i).any fun n => vget t.vec.vst n.toNat .full == .pending then .park
      else .pass

/-- A destination: a pending register parks; a queue register must be bound, of a kind that takes pushes,
and have space once the instruction has popped its sources (R197, R200, R201, R249). -/
def testDest (s : State) (seat core : Nat) (t : Thread) (popped : List Nat) (n : Nat) : Test :=
  if n < 24 then (if t.regs.view n = .pending then .park else .pass)
  else if isQ n then
    let xval := BitVec.ofNat 64 (n - 24)
    match (s.core core).queue (n - 24) with
    | none => .trap 0x0B 1 xval
    | some x =>
      if x.asid ≠ t.asid then .trap 0x0B 2 xval
      else
        match x.kind with
        | .fifo => if x.words.length - (popped.filter (· == n)).length < 8 then .pass else .park
        | .port => if sendRoom (s.seat seat) then .pass else .park
        | _ => .trap 0x0B 3 xval
  else .pass

/-- All tests of the destinations. -/
def testDests (s : State) (seat core : Nat) (t : Thread) (i : Instr) : Test :=
  let ds := ((fields i).flatMap Field.writes).map (testDest s seat core t ((sourceRegs i).map (·.1)))
  let traps := firstTest (ds.map fun x => if x = .park then .pass else x)
  if traps ≠ .pass then traps
  else if ds.contains .park || (vdsts i).any fun n => vget t.vec.vst n.toNat .full == .pending then .park
  else .pass

/-! ## Writing results -/

/-- A push to a queue register (R200, R292). -/
def State.pushQueue (s : State) (seat uid : Nat) (t : Thread) (q : Nat) (w : Word) : State :=
  let core := coreOf seat
  match (s.core core).queue q with
  | none => s
  | some x =>
    match x.kind with
    | .port =>
      s.sendMsg { kind := .port (bitsOf x.param 28 4), dst := x.param, payload := [w], seat := seat, uid := some uid, asid := t.asid
                  launch := t.launch, budget := t.limit.toNat, sentAt := s.cycle, injected := false, stage := .going, answer := none
                  counted := false, deadline := none }
    | _ => s.modCore core fun c => c.setQueue q (some { x with words := x.words ++ [(w, s.cycle)] })

/-- Writes the register that a D field names (R195): g set full, q pushed, z discarded. -/
def State.putD (s : State) (seat uid : Nat) (d : BitVec 6) (w : Word) : State :=
  let n := d.toNat
  if n < 24 then s.modThread uid fun t => { t with regs := t.regs.put n w }
  else if isQ n then
    match s.thread? uid with
    | some t => s.pushQueue seat uid t (n - 24) w
    | none => s
  else s

/-- Where the answer to a request goes. -/
def destOf (d : BitVec 6) : Dest := if d.toNat < 24 then .g d.toNat else .none

/-- Writes vector register n whole and full (R295). -/
def State.putV (s : State) (uid : Nat) (n : BitVec 4) (l : Line) : State :=
  s.modThread uid fun t => { t with vec := t.vec.put n.toNat l }

/-! ## Privilege (R204, R308, R357, R363) -/

/-- Access of user mode to a CSR: none, read only, or read and write (R205). -/
inductive UserAccess where
  | none
  | ro
  | rw
  deriving DecidableEq, Repr

def csrUser (n : BitVec 7) : UserAccess :=
  let k := n.toNat
  if [0x09, 0x0A, 0x0B, 0x0C, 0x0D, 0x15, 0x29].contains k then .rw
  else if [0x04, 0x05, 0x06, 0x07, 0x08, 0x0E, 0x10, 0x11, 0x16, 0x17, 0x1E, 0x1F, 0x20, 0x21, 0x22, 0x23, 0x24, 0x27, 0x28, 0x50].contains k
  then .none
  else .ro

/-- Seat s of core-in-tile k is a matrix seat when s ≡ k modulo 4 (R308). -/
def matrixSeat (seat : Nat) : Bool := (seat % 8) % 4 == (coreOf seat) % 4

/-- The weight slot that an instruction names (R314, R315). -/
def slotField : Instr → Option (BitVec 4)
  | .mldw o | .mma o | .mmaz o => some o.slot
  | _ => none

/-- Instructions that only a matrix seat may issue (R308). -/
def isMatrix : Instr → Bool
  | .mldw _ | .mma _ | .mmaz _ | .mst _ | .mhint _ | .mrd _ => true
  | _ => false

/-- The PRIV subcode of an instruction, if its mode or seat does not allow it (step 4 of R223). -/
def privBad (i : Instr) (seat : Nat) (x : Seat) (t : Thread) : Option (BitVec 8) :=
  let user := !t.sys.xstat.mode
  let csr (n : BitVec 7) (write : Bool) : Option (BitVec 8) :=
    if user && (csrUser n == .none || (write && csrUser n == .ro)) then some 3 else none
  match i with
  | .halt _ | .ctxsave _ | .ctxload _ | .seatctlStat _ | .seatctlStop _ | .seatctlStart _ | .seatctlWake _ =>
    if user then some 3 else none
  | .eret _ => if user && !t.sys.xstat.uh then some 3 else none
  | .csrr o => csr o.csr false
  | .csrw o | .csrs o | .csrc o => csr o.csr true
  | _ =>
    if isMatrix i then
      if !matrixSeat seat then some 1
      else
        match slotField i with
        | some w => if x.wbseg.getLsbD w.toNat then none else some 2
        | none => none
    else none

/-! ## Issue -/

/-- The word that XVAL of an ILLOP or ILLREG holds: inside a frame the captured word (R229, R243). -/
def issueWord (i : Instr) (t : Thread) : Word :=
  let w : BitVec 32 :=
    match t.inFrame, t.frame, i with
    | true, some fr, _ => fr.words.getD (frameIndex t.sys.framest) 0
    | _, _, _ => encode i
  w.setWidth 64

/-- The ILLOP subcode of a term that is no instruction, in the order of R243. -/
def illOp (i : Instr) : Option (BitVec 8) :=
  if i.csrBad then some 6
  else if i.typeBad then some 3
  else if i.subFieldBad then some 7
  else if i.unusedFieldBad then some 4
  else none

/-- Instructions that a doublet performs once, at a checkpoint boundary, by the primary alone (R272, R321, R411). -/
def boundaryInstr (i : Instr) : Bool :=
  (match i with
   | .faa _ | .swap _ | .cas _ | .lr _ | .sc _ | .amax _ | .waitrs _ | .rsvrel _
   | .raddI64 _ | .raddF32 _ | .raddF64 _ | .rmin _ | .rmax _ | .rand _ | .ror _ | .rxor _
   | .ldr _ | .str _ | .ldre _ | .strf _ | .ego _ | .send _ | .enq _ | .spawn _ | .recv _
   | .stvec _ | .ldnear _ | .delvec _ | .ixpin _ | .ixunpin _ | .ixstat _
   | .qbind _ | .qstat _ | .qflush _ | .qunbind _ | .ctxsave _ | .ctxload _
   | .seatctlStat _ | .seatctlStop _ | .seatctlStart _ | .seatctlWake _ => true
   | .csrw o | .csrs o | .csrc o => [0x0F, 0x16, 0x17, 0x1F, 0x20].contains o.csr.toNat
   | _ => false)
  || (fields i).any fun f => (f.reads ++ f.writes).any isQ

/-- What the tests before an instruction answer. -/
inductive Gate where
  /-- The guard is false and every source has arrived: it retires (R224). -/
  | skip
  | park
  /-- A doublet takes a checkpoint first. -/
  | checkpoint
  /-- Banks read words for its pops first (R37). -/
  | fetch (offs : List Nat)
  | trap (cause sub : BitVec 8) (xval : Word)
  /-- A value of it has no binding: it traps for that unless a step of its address comes first (R395). -/
  | unbound (cause sub : BitVec 8) (xval : Word)
  /-- It issues with these source values. -/
  | go

/-- The guard of an instruction (R224). -/
def guardTrue (t : Thread) (i : Instr) : Bool := t.pred (guardField i).toNat

/-- A source of an instruction with a false guard is still pending (R224). -/
def waitsFalse (t : Thread) (i : Instr) : Bool :=
  ((sourceRegs i).any fun p => p.1 < 24 && t.regs.view p.1 == .pending)
    || (vsrcs i).any fun n => vget t.vec.vst n.toNat .full == .pending

/-- The stores of one instruction for which the log of a doublet must have room (R39, R298). -/
def logRoom : Instr → Nat
  | .vscal _ => 16
  | .vstl _ => 8
  | _ => 1

/-- A doublet takes its checkpoint before the instruction: one has been asked for, the log has no room for what the instruction stores (R410), or the
instruction is performed at a checkpoint boundary and something has been logged, held or sent (R411). -/
def State.awaitsCheckpoint (s : State) (i : Instr) (seat : Nat) : Bool :=
  match FMap.find? s.fab.doublets seat with
  | none => false
  | some d => d.wanted || decide (256 < d.log.length + logRoom i) || (boundaryInstr i && !s.boundaryClear seat)

/-- The banks of some words serve a core at once, each its own. -/
def State.banksIdle (s : State) (core : Nat) (offs : List Nat) : Bool :=
  (offs.all fun o => transit core o == 0 && s.bankIdle (bankOf (clusterOf core) o) core)
    && (offs.map (bankOf (clusterOf core))).eraseDups.length == offs.length

/-- The words of the scratchpad that an instruction's pops take and that no bank has read yet. -/
def State.unread (s : State) (i : Instr) (seat : Nat) (t : Thread) : List Nat :=
  (s.poppedOffs (coreOf seat) t ((sourceRegs i).map (·.1)) []).filter fun o => ((s.seat seat).fetchedWord s.cycle o).isNone

/-- The tests before an instruction issues, in the order of R395. -/
def gate (i : Instr) (s : State) (seat : Nat) (t : Thread) : Gate :=
  let core := coreOf seat
  match (if (guardField i).toNat = 0 then Test.pass else testPoisonG t 40) with
  | .trap c b v => .trap c b v
  | _ =>
    if !guardTrue t i then (if waitsFalse t i then .park else .skip)
    else
      match illOp i with
      | some b => .trap 0x01 b (issueWord i t)
      | none =>
        match regBad i t with
        | some b => .trap 0x02 b (issueWord i t)
        | none =>
          match privBad i seat (s.seat seat) t with
          | some b => .trap 0x03 b (Config.openXval 0x03 b)
          | none =>
            match testSources s core t i with
            | .trap c b v => .trap c b v
            | .park => .park
            | .pass =>
              match testBindings s core t i with
              | .trap c b v => .unbound c b v
              | _ =>
                match testDests s seat core t i with
                | .trap c b v => .trap c b v
                | .park => .park
                | .pass =>
                  if s.awaitsCheckpoint i seat then .checkpoint
                  else if s.banksIdle core (s.unread i seat t) then .go else .fetch (s.unread i seat t)

/-- The source values of an instruction. -/
def takeSources (i : Instr) (s : State) (seat : Nat) (t : Thread) : List Word :=
  let regs := (sourceRegs i).map (·.1)
  sourceValues t regs (popAll seat t regs s).1

/-- Banks have served a core's reads in this cycle. -/
def State.occupyBanks (s : State) (core : Nat) (offs : List Nat) : State :=
  offs.foldl (fun s o => s.setBank (bankOf (clusterOf core) o) { s.bank (bankOf (clusterOf core) o) with free := s.cycle + 1 }) s

/-- The state after the pops of the sources (R201). -/
def popSources (i : Instr) (s : State) (seat : Nat) (t : Thread) : State :=
  (popAll seat t ((sourceRegs i).map (·.1)) (s.occupyBanks (coreOf seat) (s.unread i seat t))).2

/-- The words that pops take are read at their banks; the instruction issues in the turn after (R37, R38). -/
def State.fetchPops (s : State) (seat uid : Nat) (offs : List Nat) : State :=
  let parts : List BankPart := offs.map fun o => ⟨o, .read, o⟩
  let op := LocalOp.start uid .pop 0 (s.seat seat).lbase.toNat parts s.cycle
  queueParts (.seat seat) (clusterOf (coreOf seat)) (parts.map fun p => (transit (coreOf seat) p.off, transit (coreOf seat) p.off, p))
    (s.modSeat seat fun x => { x with localOp := some op })

/-- After an instruction that a doublet performs once, a new checkpoint interval starts (R272). -/
def State.intervalAfter (s : State) (i : Instr) (seat : Nat) : State := if boundaryInstr i then s.newInterval seat else s

/-- The trap of an address step of R31: ALIGN, the address form, or LSEG. -/
def Res.addressTrap : Res → Option (BitVec 8 × BitVec 8 × Word)
  | .trap c b v => if c = 0x04 || c = 0x05 || c = 0x06 then some (c, b, v) else none
  | _ => none

/-- The state after the thread of a seat has tried to issue an instruction with a body: the body gets the state after the pops of its
sources, the thread's number, the thread as it issued, and the source values. -/
def issueAt (i : Instr) (s : State) (seat uid : Nat) (t : Thread) (body : State → Nat → Thread → List Word → Res) : State :=
  match gate i s seat t with
  | .skip => retire s seat uid
  | .park => parkAt s seat uid
  | .checkpoint => parkAt (s.wantCheckpoint seat) seat uid
  | .fetch offs => s.fetchPops seat uid offs
  | .trap c b v => takeTrap s seat uid c b v
  | .unbound c b v =>
    match (body s uid t (takeSources i s seat t)).addressTrap with
    | some (c, b, v) => takeTrap s seat uid c b v
    | none => takeTrap s seat uid c b v
  | .go =>
    let r := body (popSources i s seat t) uid t (takeSources i s seat t)
    if r.consumes then (r.finish s seat uid).intervalAfter i seat
    else if r.stands then (r.finish s seat uid).giveBack seat
    else r.finish s seat uid

/-- The meaning of an instruction word with a body: the instruction issues on the seat that `cur` names. -/
def issue (i : Instr) (s : State) (body : State → Nat → Thread → List Word → Res) : Out :=
  match (s.seat s.cur).occ with
  | none => .fault (.emptySeat s.cur)
  | some uid =>
    match s.thread? uid with
    | none => .fault (.emptySeat s.cur)
    | some t => .next (issueAt i s s.cur uid t body)

end Sys2Proof.Machine
end

