-- ==== Sys2Proof/Machine/Flags.lean ====
section
/-!
DEFINITION. The flags and counts that arithmetic leaves (R205, R212): FFLAGS, SATCNT, the rounding mode and the seed of stochastic
rounding. They act for anchored threads only.
-/

namespace Sys2Proof.Machine

/-- FFLAGS bits (R205): NV 16, DZ 8, OF 4, UF 2, NX 1. -/
abbrev FFlags := BitVec 5
def flagNV : FFlags := 16
def flagDZ : FFlags := 8
def flagOF : FFlags := 4
def flagUF : FFlags := 2
def flagNX : FFlags := 1

/-- Counts saturations in SATCNT, which itself saturates (R205, R212); nothing for a thread that is not anchored. -/
def Thread.saturate (t : Thread) (n : Nat) : Thread :=
  if t.kind == .anchored then { t with sys := { t.sys with satcnt := BitVec.ofNat 64 (min (t.sys.satcnt.toNat + n) (2 ^ 64 - 1)) } } else t

/-- Sets sticky flags (R205); nothing for a thread that is not anchored. -/
def Thread.raise (t : Thread) (f : FFlags) : Thread :=
  if t.kind == .anchored then { t with sys := { t.sys with fflags := t.sys.fflags ||| f } } else t

/-- Clamps an integer to n-bit two's complement, or to n-bit unsigned numbers; whether it was clamped (R212). -/
def clampS (n : Nat) (x : Int) : Int × Bool :=
  if x < -(2 ^ (n - 1)) then (-(2 ^ (n - 1)), true) else if (2 ^ (n - 1) : Int) - 1 < x then (2 ^ (n - 1) - 1, true) else (x, false)
def clampU (n : Nat) (x : Int) : Int × Bool :=
  if x < 0 then (0, true) else if (2 ^ n : Int) - 1 < x then (2 ^ n - 1, true) else (x, false)

end Sys2Proof.Machine
end

