-- ==== Sys2Proof/Machine/Fetch.lean ====
section
/-!
DEFINITION. Instruction fetch through the core's instruction cache (R222), and the capture and the stepping of a repeat frame (R229 to R231).
-/

namespace Sys2Proof.Machine

/-- The word at a VA in a core's instruction cache. -/
def State.icacheWord (s : State) (core : Nat) (asid : BitVec 16) (va : Nat) : Option (BitVec 32) :=
  ((s.core core).icache.find? fun l => l.asid == asid && l.va == lineOf va && !l.poison.getLsbD (va % 64 / 8)).map fun l => l.data.extractLsb' (8 * (va % 64)) 32

/-- A fetch misses: one 64-byte read goes to the home station, and the seat is out of the rotation until it is answered; the turn is a parked one (R222,
R206). A fetch beyond the 48-bit VAs traps GFAULT at the seat's next turn (R24, R68). -/
def State.startFetch (s : State) (seat uid va : Nat) : State :=
  if 2 ^ 48 ≤ va then s.modSeat seat fun x => { x with due := some ⟨0x06, 0x01, BitVec.ofNat 64 va⟩ }
  else
    match s.thread? uid with
    | none => s
    | some t =>
      let (s, id) := (s.countEv seat 4 1).sendReq { Req.make s seat uid t .ifetch (lineOf va) 64 with off := va, mask := BitVec.allOnes 64 }
      (s.modSeat seat fun x => { x with off := some (.fetch id) }).modThread uid fun t => { t with park := t.park.enter s.cycle }

/-- A major that a frame may hold (R229). -/
def frameMajor (w : BitVec 32) : Bool :=
  let m := (w.extractLsb' 26 6).toNat
  (1 ≤ m && m ≤ 0x0F) || (0x20 ≤ m && m ≤ 0x22) || (0x31 ≤ m && m ≤ 0x37)
    || (m == 0x30 && [0, 1, 4, 5, 6].contains (w.extractLsb' 8 3).toNat)

/-- What a capture answers. -/
inductive Capture where
  | words (l : List (BitVec 32))
  /-- The word at this VA is not in the instruction cache. -/
  | miss (va : Nat)
  /-- FRAME, with its subcode and the index of the word. -/
  | bad (sub : BitVec 8) (idx : Nat)

/-- Reads and checks n words from a VA, the first having index i. -/
def captureWords (s : State) (core : Nat) (asid : BitVec 16) : Nat → Nat → Nat → List (BitVec 32) → Capture
  | 0, _, _, acc => .words acc
  | n + 1, i, va, acc =>
    match s.icacheWord core asid va with
    | none => .miss va
    | some w =>
      if w.extractLsb' 26 6 = 0x17 then .bad 2 i
      else if !frameMajor w then .bad 1 i
      else captureWords s core asid n (i + 1) (va + 4) (acc ++ [w])

/-- The stride of a two-bit field: 0, 1, 2 or 4 (R229). -/
def strideOf (x : BitVec 2) : Nat := if x = 3 then 4 else x.toNat

/-- Advances a 6-bit register field at a bit position: g0 to g23 only, modulo 24 (R230). -/
def advG (w : BitVec 32) (lo n : Nat) : BitVec 32 :=
  let r := (w.extractLsb' lo 6).toNat
  if r < 24 then (w &&& ~~~ (BitVec.ofNat 32 (63 <<< lo))) ||| BitVec.ofNat 32 (((r + n) % 24) <<< lo) else w

/-- Advances a 4-bit vector register field, modulo 16 (R230). -/
def advV (w : BitVec 32) (lo n : Nat) : BitVec 32 :=
  let r := (w.extractLsb' lo 4).toNat
  (w &&& ~~~ (BitVec.ofNat 32 (15 <<< lo))) ||| BitVec.ofNat 32 (((r + n) % 16) <<< lo)

/-- A captured word in an iteration: its register fields D, A and B advanced by their strides (R230). A field that is no register, or that
the instruction does not use, is not advanced. -/
def advanceWord (w repf : BitVec 32) (iter : Nat) : BitVec 32 :=
  let d := iter * strideOf (repf.extractLsb' 18 2)
  let a := iter * strideOf (repf.extractLsb' 16 2)
  let b := iter * strideOf (repf.extractLsb' 14 2)
  let m := (w.extractLsb' 26 6).toNat
  let f := (w.extractLsb' 3 3).toNat
  let vf := (w.extractLsb' 8 3).toNat
  if m = 0x04 then (if f = 5 || f = 6 then advG (advG (advG w 20 d) 14 a) 8 b else advG (advG w 20 d) 14 a)
  else if m = 0x05 then advG (advG w 14 a) 8 b
  else if m = 0x0D then advG w 14 a
  else if m = 0x01 || m = 0x02 || m = 0x03 || m = 0x06 then advG (advG (advG w 20 d) 14 a) 8 b
  else if (7 ≤ m && m ≤ 0x0F) || (0x20 ≤ m && m ≤ 0x22) then advG (advG w 20 d) 14 a
  else if m = 0x30 then advG (advV w 22 d) 16 a
  else if m = 0x33 then advV (advV w 18 a) 14 b
  else if m = 0x34 then (if vf = 7 then advG w 20 d else advV (advG w 20 d) 16 a)
  else if m = 0x36 || m = 0x37 || (m = 0x31 && 6 ≤ vf) then advV (advV w 22 d) 18 a
  else if m = 0x31 || m = 0x32 || m = 0x35 then advV (advV (advV w 22 d) 18 a) 14 b
  else w

/-- Captures the frame of a REPF at a VA, whose word is given, and starts or resumes it at an index and an iteration (R229, R231). The
answer is the thread inside the frame. -/
def Thread.enterFrame (t : Thread) (repf : BitVec 32) (ws : List (BitVec 32)) (base idx iter : Nat) : Thread :=
  { t with frame := some ⟨repf, ws⟩, regs := { t.regs with pc := BitVec.ofNat 64 (base + 4 * (idx + 1)) },
           sys := { t.sys with framest := framestOf true iter idx base } }

/-- The instruction word that a thread issues next: in a frame the captured word advanced, otherwise the word at PC when it is in the
instruction cache. -/
def State.nextWord (s : State) (core : Nat) (t : Thread) : Option (BitVec 32) :=
  match t.frame with
  | some fr => some (advanceWord (fr.words.getD (frameIndex t.sys.framest) 0) fr.repf (frameIter t.sys.framest))
  | none => s.icacheWord core t.asid t.regs.pc.toNat

end Sys2Proof.Machine
end

