-- ==== Sys2Proof/Machine/Access.lean ====
section
/-!
DEFINITION. Local accesses: what one bank access does to its word (R40, R41, R44, R46, R127, R407), the banks' queues and the seat's wait
(R36 to R39), and what the completion of an access does to the thread.
-/

namespace Sys2Proof.Machine

/-! ## One bank access -/

/-- What a bank access answers. -/
inductive PartRes where
  /-- Performed: the word as it stood before. -/
  | word (w : Word)
  /-- The word is poisoned: no effect (R407). -/
  | poisoned
  /-- A synchronising attempt that found the word in the other state: no effect (R46). -/
  | unready
  deriving DecidableEq, Repr

/-- A doublet logs the old word and its full/empty bit before a store (R411). Entry n stands in the first of the 12 KiB above the limit of R409: the
word's offset, with the full/empty bit in bit 63, and the old word; the core writes both words at their banks. DESIGN CHOICE: the specification gives an
entry 16 bytes, no layout and no cycle (log entry 70). -/
def State.logStore (s : State) (seat cluster off : Nat) : State :=
  match FMap.find? s.fab.doublets seat with
  | none => s
  | some d =>
    let e := (off / 8 * 8, s.localWord cluster off, s.localFull cluster off)
    let s := { s with fab := { s.fab with doublets := FMap.insert s.fab.doublets seat { d with log := d.log ++ [e] } } }
    let at' := (s.seat seat).limitOf + 16 * d.log.length
    let d0 := transit (coreOf seat) at'
    let s := queueParts (.doublet seat) cluster
      [(d0, 0, ⟨at', .write 255 (BitVec.ofNat 64 (b2n e.2.2 * 2 ^ 63 + e.1)), 0⟩), (d0, 0, ⟨at' + 8, .write 255 e.2.1, 0⟩)] s
    if 256 ≤ d.log.length + 1 then s.wantCheckpoint seat else s

/-- The accesses of an operation are those that a doublet logs: RECV, CTXSAVE and CTXLOAD are performed at a checkpoint boundary (R411). -/
def LocalKind.logged : LocalKind → Bool
  | .recv _ _ _ | .save _ _ _ _ | .restore _ _ _ _ _ _ | .rollback => false
  | _ => true

/-- A bank serves one access of a seat to the word at a cluster offset, in one cycle. `logs` is whether a doublet logs what it changes. -/
def State.performPart (s : State) (logs : Bool) (seat cluster off : Nat) (op : BankOp) : State × PartRes :=
  let w := s.localWord cluster off
  let bad := s.localPoisoned cluster off
  let logged (s : State) : State := if logs then s.logStore seat cluster off else s
  match op with
  | .read => if bad then (s, .poisoned) else (s, .word w)
  | .write mask data =>
    if mask = 0 then (s, .word w)
    else if bad && mask != 255 then (s, .poisoned) else ((logged s).localWrite cluster off mask data, .word w)
  | .atomic f b e =>
    if bad then (s, .poisoned) else ((logged s).localWrite cluster off 255 (localAtom f w b e), .word w)
  | .sync code data =>
    if bad then (s, .poisoned)
    else
      let full := s.localFull cluster off
      match code.toNat with
      | 0 => if full then (s, .word w) else (s, .unready)
      | 1 => if full then ((logged s).setFull cluster off false, .word w) else (s, .unready)
      | 2 =>
        if full then (s, .unready)
        else (((logged s).localWrite cluster off 255 data).setFull cluster off true, .word w)
      | _ => ((logged s).setFull cluster off false, .word w)
  | .clear => ((s.localWrite cluster off 255 0).setFull cluster off false, .word w)
  | .restore full d => ((s.localWrite cluster off 255 d).setFull cluster off full, .word w)

/-! ## Completion (R38, R46, R49, R407) -/

/-- The words read by lane as one 64-byte block: lane j holds word j. -/
def blockOf (got : List (Nat × Word)) : Line :=
  BitVec.ofNat 512 (got.foldl (fun acc (j, w) => acc + w.toNat * 2 ^ (64 * (j % 8))) 0)

/-- The first `period` bytes of a block over all 64 (R297 VLDB). -/
def replicate64 (l : Line) (period : Nat) : Line :=
  BitVec.ofNat 512 ((List.range (64 / period)).foldl (fun acc j => acc + (l.toNat % 2 ^ (8 * period)) * 2 ^ (8 * period * j)) 0)

/-- A trap that is taken at the seat's next turn. -/
def State.trapDue (s : State) (seat : Nat) (cause sub : BitVec 8) (xval : Word) : State :=
  (s.giveBack seat).modSeat seat fun x => { x with due := some ⟨cause, sub, xval⟩ }

/-- The views of the inbox whose next pop would have come from an entry that is taken start afresh. -/
def Core.resetViews (c : Core) (asid : BitVec 16) : Core :=
  { c with qs := c.qs.map fun q => q.map fun x => if x.kind = .inbox && x.asid == asid then { x with popped := 0 } else x }

/-- A RECV has read the nine words of its entry, the header last, which was marked TAKEN as it was read (R332): HEAD moves (R159), the registers are
written, and the acquire at scope 4 follows. A completion of another cluster's engine also acquires what the operation has written: no line of the
receiving core's cluster keeps older bytes (R124, R148). -/
def State.finishRecv (s : State) (seat uid : Nat) (d a : BitVec 6) (got : List (Nat × Word)) : State :=
  let word (j : Nat) : Word := ((got.find? fun p => p.1 == j).map (·.2)).getD 0
  let s := s.headPastTaken (coreOf seat)
  let cl := clusterOf (coreOf seat)
  let s := if bitsOf (word 8) 56 8 = 2 ∧ clusterOf (coreOf (bitsOf (word 8) 10 14)) ≠ cl then
      s.acquireLines cl (BitVec.ofNat 16 (bitsOf (word 8) 32 16)) else s
  let s := s.modThread uid fun t =>
    { t with regs := (List.range 8).foldl (fun r j => r.put (d.toNat + j) (word j)) t.regs, acquireDue := some false }
  (retire (s.putD seat uid a (putBit (word 8) 0 true)) seat uid).newInterval seat

/-- The completion of a local access: its result is written and the instruction retires; or a word was poisoned, and the trap falls due
(R407); or a synchronising attempt failed, and the thread parks, or its WAITLIM falls due (R49). -/
def State.finishLocal (s : State) (seat : Nat) (op : LocalOp) : State :=
  let s := s.modSeat seat fun x => { x with localOp := none, localDone := op.done }
  match s.thread? op.uid with
  | none => s
  | some t =>
    match op.poison with
    | some o => (undoStores (clusterOf (coreOf seat)) op.undo s).trapDue seat 0x10 0x01 o
    | none =>
      let word := ((op.got.find? fun p => p.1 == 0).map (·.2)).getD 0
      match op.kind with
      | .load d size signed lo =>
        let x := (word.toNat >>> (8 * lo)) % 2 ^ (8 * size)
        retire (s.putD seat op.uid d (if signed then signExt (8 * size) x else BitVec.ofNat 64 x)) seat op.uid
      | .pop => s.modSeat seat fun x => { x with fetched := op.got }
      | .rollback => s
      | .store | .vstore | .save _ _ _ _ | .restore _ _ _ _ _ _ => retire s seat op.uid
      | .recv d a _ => s.finishRecv seat op.uid d a op.got
      | .atomic d => retire (s.putD seat op.uid d word) seat op.uid
      | .sync code d =>
        if op.failed then
          let s := parkWait (s.giveBack seat) seat op.uid
          if t.park.counting && decide (t.limit.toNat < t.park.units s.cycle) then s.trapDue seat 0x08 0x01 op.off else s
        else retire (if code = 0 || code = 1 then s.putD seat op.uid d word else s) seat op.uid
      | .vload vd m => retire (s.putV op.uid vd (lineMerge (vget t.vec.v vd.toNat 0) (blockOf op.got) m)) seat op.uid
      | .vbcast vd m period =>
        retire (s.putV op.uid vd (lineMerge (vget t.vec.v vd.toNat 0) (replicate64 (blockOf op.got) period) m)) seat op.uid
      | .gather vd =>
        let l := op.got.foldl (fun l (p : Nat × Word) => lineMerge l (BitVec.ofNat 512 (p.2.toNat % 2 ^ 32 * 2 ^ (32 * p.1))) (byteMask (4 * p.1) 4))
          (vget t.vec.v vd.toNat 0)
        retire (s.putV op.uid vd l) seat op.uid

/-- What one access of a local operation brings to it. A gather keeps the half of the word that its lane names. -/
def LocalOp.take (op : LocalOp) (part : BankPart) (r : PartRes) : LocalOp :=
  let op := { op with remaining := op.remaining - 1 }
  match r with
  | .poisoned => { op with poison := op.poison.orElse fun _ => some (BitVec.ofNat 64 (part.off / 8 * 8) - BitVec.ofNat 64 op.base) }
  | .unready => { op with failed := true }
  | .word w =>
    match op.kind with
    | .gather _ => { op with got := op.got ++ [(part.lane, if part.off % 8 = 4 then w >>> 32 else w)] }
    | _ => { op with got := op.got ++ [(part.lane, w)] }

/-- What an access replaces that a trap of its instruction takes back (R394): the words of a vector store, and the header of a RECV's entry. -/
def LocalOp.replaces (s : State) (cluster : Nat) (op : LocalOp) (part : BankPart) : List Undo :=
  let was (m : BitVec 8) : List Undo := [⟨part.off, m, s.localWord cluster part.off, s.localPoisoned cluster part.off⟩]
  match op.kind, part.op with
  | .vstore, .write m _ => was m
  | .recv _ _ _, .atomic _ _ _ => was 255
  | _, _ => []

/-- One access of a local operation, in its own bank cycle. A vector store that has met a poisoned word traps and has no effect (R394): it writes no part from
then on, and keeps what its earlier parts have replaced. -/
def State.performFor (s : State) (seat cluster : Nat) (op : LocalOp) (part : BankPart) : State × LocalOp :=
  if op.kind = .vstore ∧ op.poison.isSome then (s, { op with remaining := op.remaining - 1 })
  else
    let (s', r) := s.performPart op.kind.logged seat cluster part.off part.op
    (s', { op.take part r with undo := (if r = .poisoned then [] else op.replaces s cluster part) ++ op.undo })

/-! ## Banks (R35 to R39) -/

/-- Serves the parts of an access one after another, each in its own bank cycle. -/
def serveAll (seat cluster : Nat) : List BankPart → State → LocalOp → State × LocalOp
  | [], s, op => (s, op)
  | p :: rest, s, op =>
    let b := bankOf cluster p.off
    let at' := max (s.bank b).free s.cycle
    let s := s.setBank b { s.bank b with free := at' + 1 }
    let (s, op) := s.performFor seat cluster op p
    serveAll seat cluster rest s { op with done := max op.done (at' + 1) }

/-- Issues a local access of a thread on its seat. With every bank in its own tile and ready for it, the banks serve it in this cycle; otherwise it
waits at its banks (R37). An access without a part completes at once. -/
def State.localAccess (s : State) (seat uid : Nat) (kind : LocalKind) (off : Word) (parts : List BankPart) : State :=
  let cl := clusterOf (coreOf seat)
  let op := LocalOp.start uid kind off (s.seat seat).lbase.toNat parts s.cycle
  if parts.all fun p => transit (coreOf seat) p.off == 0 && s.bankIdle (bankOf cl p.off) (coreOf seat) then
    let (s, op) := serveAll seat cl parts s op
    s.finishLocal seat op
  else
    queueParts (.seat seat) cl (parts.map fun p => (transit (coreOf seat) p.off, transit (coreOf seat) p.off, p))
      (s.modSeat seat fun x => { x with localOp := some op })

/-- The earlier of two waiting accesses: by arrival, then by requester number (R37), then by place. -/
def earliest : List BankWait → Option BankWait
  | [] => none
  | w :: rest =>
    match earliest rest with
    | none => some w
    | some v => if w.before v.arrival v.user.requester then some w else some v

end Sys2Proof.Machine
end

