-- ==== Sys2Proof/Machine/Scalar.lean ====
section
/-!
DEFINITION. The scalar instructions of R251 to R263: ALU, SHM, MUL, BIT, ADR, BFS and BFX, the immediate forms, constants, comparisons,
predicates and masks.
-/

namespace Sys2Proof.Machine

/-- The body of an instruction: the state after the pops, the thread's number, the thread as it issued, the source values. -/
abbrev Body := State → Nat → Thread → List Word → Res

/-! ## Results (R251 to R257) -/

def rotl (a : Word) (n : Nat) : Word := if n = 0 then a else (a <<< n) ||| (a >>> (64 - n))
/-- The shift amount: b[5:0]. -/
def shAmt (b : Word) : Nat := (b.extractLsb' 0 6).toNat
def minS (a b : Word) : Word := if a.toInt < b.toInt then a else b
def maxS (a b : Word) : Word := if a.toInt > b.toInt then a else b
def minU (a b : Word) : Word := if a.toNat < b.toNat then a else b
def maxU (a b : Word) : Word := if a.toNat > b.toNat then a else b
/-- The high half of a product of integers. -/
def mulHi (x y : Int) : Word := BitVec.ofInt 64 ((x * y) / 2 ^ 64)
/-- R251, R252. -/
def divS (a b : Word) : Word := if b = 0 then BitVec.allOnes 64 else BitVec.ofInt 64 (a.toInt.tdiv b.toInt)
def divU (a b : Word) : Word := if b = 0 then BitVec.allOnes 64 else BitVec.ofNat 64 (a.toNat / b.toNat)
def remS (a b : Word) : Word := if b = 0 then a else BitVec.ofInt 64 (a.toInt - b.toInt * a.toInt.tdiv b.toInt)
def remU (a b : Word) : Word := if b = 0 then a else BitVec.ofNat 64 (a.toNat % b.toNat)

/-- R253. -/
def clz64 (a : Word) : Word := BitVec.ofNat 64 (((List.range 64).find? fun i => a.getLsbD (63 - i)).getD 64)
def ctz64 (a : Word) : Word := BitVec.ofNat 64 (((List.range 64).find? fun i => a.getLsbD i).getD 64)
def popc64 (a : Word) : Word := BitVec.ofNat 64 ((List.range 64).countP fun i => a.getLsbD i)
def brev64 (a : Word) : Word := BitVec.ofNat 64 ((List.range 64).foldl (fun acc i => acc + if a.getLsbD (63 - i) then 2 ^ i else 0) 0)
def bswap64 (a : Word) : Word :=
  a.extractLsb' 0 8 ++ a.extractLsb' 8 8 ++ a.extractLsb' 16 8 ++ a.extractLsb' 24 8 ++ a.extractLsb' 32 8 ++ a.extractLsb' 40 8
    ++ a.extractLsb' 48 8 ++ a.extractLsb' 56 8
def sextAt (a b : Word) : Word := signExt (shAmt b + 1) a.toNat
def zextAt (a b : Word) : Word := BitVec.ofNat 64 (a.toNat % 2 ^ (shAmt b + 1))
def abs64 (a : Word) : Word := if 0 ≤ a.toInt then a else 0 - a

/-! ## Bodies -/

/-- Writes D with a function of two sources. -/
def binary (d : BitVec 6) (f : Word → Word → Word) : Body := fun s uid _ vals =>
  .done (s.putD s.cur uid d (f (vals.getD 0 0) (vals.getD 1 0)))

/-- Writes D with a function of one source. -/
def unary (d : BitVec 6) (f : Word → Word) : Body := fun s uid _ vals => .done (s.putD s.cur uid d (f (vals.getD 0 0)))

/-- Writes D with a clamped result and counts a saturation (R254, R212). -/
def saturating (d : BitVec 6) (f : Word → Word → Int × Bool) : Body := fun s uid _ vals =>
  let r := f (vals.getD 0 0) (vals.getD 1 0)
  let s := s.putD s.cur uid d (BitVec.ofInt 64 r.1)
  .done (if r.2 then s.modThread uid fun t => t.saturate 1 else s)

/-- Writes a predicate by the mode of a comparison (R261). -/
def compare (p mode : BitVec 3) (c : Word → Bool) : Body := fun s uid t vals =>
  let c := c (vals.getD 0 0)
  let old := t.pred p.toNat
  let new := if mode = 0 then c else if mode = 1 then old && c else if mode = 2 then old || c else !c
  .done (s.modThread uid fun t => { t with regs := t.regs.setPred p.toNat new })

/-- The same with two sources. -/
def compare2 (p mode : BitVec 3) (c : Word → Word → Bool) : Body := fun s uid t vals =>
  compare p mode (fun a => c a (vals.getD 1 0)) s uid t vals

/-- Writes a predicate (R263). -/
def setP (p : BitVec 3) (f : Thread → Bool) : Body := fun s uid t _ =>
  .done (s.modThread uid fun u => { u with regs := u.regs.setPred p.toNat (f t) })

/-- The immediates as words. -/
def immI (o : OpI) : Word := o.imm.signExtend 64
def immC (o : OpCmpi) : Word := o.imm.signExtend 64

/-! ## ALU, SHM, MUL (R251, R252) -/

def execAdd (o : OpR) (s : State) : Out := issue (.add o) s (binary o.d fun a b => a + b)
def execSub (o : OpR) (s : State) : Out := issue (.sub o) s (binary o.d fun a b => a - b)
def execAnd (o : OpR) (s : State) : Out := issue (.and o) s (binary o.d fun a b => a &&& b)
def execOr (o : OpR) (s : State) : Out := issue (.or o) s (binary o.d fun a b => a ||| b)
def execXor (o : OpR) (s : State) : Out := issue (.xor o) s (binary o.d fun a b => a ^^^ b)
def execAndn (o : OpR) (s : State) : Out := issue (.andn o) s (binary o.d fun a b => a &&& ~~~b)
def execOrn (o : OpR) (s : State) : Out := issue (.orn o) s (binary o.d fun a b => a ||| ~~~b)
def execXnor (o : OpR) (s : State) : Out := issue (.xnor o) s (binary o.d fun a b => ~~~(a ^^^ b))
def execShl (o : OpR) (s : State) : Out := issue (.shl o) s (binary o.d fun a b => a <<< shAmt b)
def execShr (o : OpR) (s : State) : Out := issue (.shr o) s (binary o.d fun a b => a >>> shAmt b)
def execSar (o : OpR) (s : State) : Out := issue (.sar o) s (binary o.d fun a b => a.sshiftRight (shAmt b))
def execRol (o : OpR) (s : State) : Out := issue (.rol o) s (binary o.d fun a b => rotl a (shAmt b))
def execMin (o : OpR) (s : State) : Out := issue (.min o) s (binary o.d minS)
def execMax (o : OpR) (s : State) : Out := issue (.max o) s (binary o.d maxS)
def execMinu (o : OpR) (s : State) : Out := issue (.minu o) s (binary o.d minU)
def execMaxu (o : OpR) (s : State) : Out := issue (.maxu o) s (binary o.d maxU)
def execMul (o : OpR) (s : State) : Out := issue (.mul o) s (binary o.d fun a b => a * b)
def execMulh (o : OpR) (s : State) : Out := issue (.mulh o) s (binary o.d fun a b => mulHi a.toInt b.toInt)
def execMulhu (o : OpR) (s : State) : Out := issue (.mulhu o) s (binary o.d fun a b => mulHi a.toNat b.toNat)
def execMulhsu (o : OpR) (s : State) : Out := issue (.mulhsu o) s (binary o.d fun a b => mulHi a.toInt b.toNat)
def execDiv (o : OpR) (s : State) : Out := issue (.div o) s (binary o.d divS)
def execDivu (o : OpR) (s : State) : Out := issue (.divu o) s (binary o.d divU)
def execRem (o : OpR) (s : State) : Out := issue (.rem o) s (binary o.d remS)
def execRemu (o : OpR) (s : State) : Out := issue (.remu o) s (binary o.d remU)

/-! ## BIT (R253) -/

def execClz (o : OpRDA) (s : State) : Out := issue (.clz o) s (unary o.d clz64)
def execCtz (o : OpRDA) (s : State) : Out := issue (.ctz o) s (unary o.d ctz64)
def execPopc (o : OpRDA) (s : State) : Out := issue (.popc o) s (unary o.d popc64)
def execBrev (o : OpRDA) (s : State) : Out := issue (.brev o) s (unary o.d brev64)
def execBswap (o : OpRDA) (s : State) : Out := issue (.bswap o) s (unary o.d bswap64)
def execSext (o : OpR) (s : State) : Out := issue (.sext o) s (binary o.d sextAt)
def execZext (o : OpR) (s : State) : Out := issue (.zext o) s (binary o.d zextAt)
def execAbs (o : OpRDA) (s : State) : Out := issue (.abs o) s (unary o.d abs64)

/-! ## CMP and CMPI (R261) -/

def execCmpEq (o : OpCmp) (s : State) : Out := issue (.cmpEq o) s (compare2 o.p o.mode fun a b => a == b)
def execCmpNe (o : OpCmp) (s : State) : Out := issue (.cmpNe o) s (compare2 o.p o.mode fun a b => a != b)
def execCmpLt (o : OpCmp) (s : State) : Out := issue (.cmpLt o) s (compare2 o.p o.mode fun a b => decide (a.toInt < b.toInt))
def execCmpGe (o : OpCmp) (s : State) : Out := issue (.cmpGe o) s (compare2 o.p o.mode fun a b => decide (b.toInt ≤ a.toInt))
def execCmpLtu (o : OpCmp) (s : State) : Out := issue (.cmpLtu o) s (compare2 o.p o.mode fun a b => decide (a.toNat < b.toNat))
def execCmpGeu (o : OpCmp) (s : State) : Out := issue (.cmpGeu o) s (compare2 o.p o.mode fun a b => decide (b.toNat ≤ a.toNat))
def execCmpTst (o : OpCmp) (s : State) : Out := issue (.cmpTst o) s (compare2 o.p o.mode fun a b => (a &&& b) != 0)
def execCmpTstn (o : OpCmp) (s : State) : Out := issue (.cmpTstn o) s (compare2 o.p o.mode fun a b => (a &&& b) == 0)
def execCmpiEq (o : OpCmpi) (s : State) : Out := issue (.cmpiEq o) s (compare o.p o.mode fun a => a == (immC o))
def execCmpiNe (o : OpCmpi) (s : State) : Out := issue (.cmpiNe o) s (compare o.p o.mode fun a => a != (immC o))
def execCmpiLt (o : OpCmpi) (s : State) : Out := issue (.cmpiLt o) s (compare o.p o.mode fun a => decide (a.toInt < (immC o).toInt))
def execCmpiGe (o : OpCmpi) (s : State) : Out := issue (.cmpiGe o) s (compare o.p o.mode fun a => decide ((immC o).toInt ≤ a.toInt))
def execCmpiLtu (o : OpCmpi) (s : State) : Out := issue (.cmpiLtu o) s (compare o.p o.mode fun a => decide (a.toNat < (immC o).toNat))
def execCmpiGeu (o : OpCmpi) (s : State) : Out := issue (.cmpiGeu o) s (compare o.p o.mode fun a => decide ((immC o).toNat ≤ a.toNat))
def execCmpiTst (o : OpCmpi) (s : State) : Out := issue (.cmpiTst o) s (compare o.p o.mode fun a => (a &&& (immC o)) != 0)
def execCmpiTstn (o : OpCmpi) (s : State) : Out := issue (.cmpiTstn o) s (compare o.p o.mode fun a => (a &&& (immC o)) == 0)

/-! ## ADR (R254) -/

def execLea1 (o : OpR) (s : State) : Out := issue (.lea1 o) s (binary o.d fun a b => a + b)
def execLea2 (o : OpR) (s : State) : Out := issue (.lea2 o) s (binary o.d fun a b => a + b * 2)
def execLea4 (o : OpR) (s : State) : Out := issue (.lea4 o) s (binary o.d fun a b => a + b * 4)
def execLea8 (o : OpR) (s : State) : Out := issue (.lea8 o) s (binary o.d fun a b => a + b * 8)
def execAdds (o : OpR) (s : State) : Out := issue (.adds o) s (saturating o.d fun a b => clampS 64 (a.toInt + b.toInt))
def execSubs (o : OpR) (s : State) : Out := issue (.subs o) s (saturating o.d fun a b => clampS 64 (a.toInt - b.toInt))
def execAddus (o : OpR) (s : State) : Out := issue (.addus o) s (saturating o.d fun a b => clampU 64 (a.toNat + b.toNat : Int))
def execSubus (o : OpR) (s : State) : Out := issue (.subus o) s (saturating o.d fun a b => clampU 64 ((a.toNat : Int) - b.toNat))

/-! ## BFS and BFX (R255) -/

/-- The field of LEN bits from POS. -/
def bitField (a : Word) (o : OpBF) : Nat := (a.toNat >>> o.pos.toNat) % 2 ^ (o.len1.toNat + 1)
def execBfs (o : OpBF) (s : State) : Out := issue (.bfs o) s (unary o.d fun a => signExt (o.len1.toNat + 1) (bitField a o))
def execBfx (o : OpBF) (s : State) : Out := issue (.bfx o) s (unary o.d fun a => BitVec.ofNat 64 (bitField a o))

/-! ## Immediate forms and constants (R256 to R260) -/

def execAddi (o : OpI) (s : State) : Out := issue (.addi o) s (unary o.d fun a => a + (immI o))
def execAndi (o : OpI) (s : State) : Out := issue (.andi o) s (unary o.d fun a => a &&& (immI o))
def execOri (o : OpI) (s : State) : Out := issue (.ori o) s (unary o.d fun a => a ||| (immI o))
def execXori (o : OpI) (s : State) : Out := issue (.xori o) s (unary o.d fun a => a ^^^ (immI o))
def execMuli (o : OpI) (s : State) : Out := issue (.muli o) s (unary o.d fun a => a * (immI o))
def execShli (o : OpShi) (s : State) : Out := issue (.shli o) s (unary o.d fun a => a <<< o.n.toNat)
def execShri (o : OpShi) (s : State) : Out := issue (.shri o) s (unary o.d fun a => a >>> o.n.toNat)
def execSari (o : OpShi) (s : State) : Out := issue (.sari o) s (unary o.d fun a => a.sshiftRight o.n.toNat)
def execRoli (o : OpShi) (s : State) : Out := issue (.roli o) s (unary o.d fun a => rotl a o.n.toNat)
def execMovi (o : OpL) (s : State) : Out := issue (.movi o) s (unary o.d fun _ => o.imm.signExtend 64)
def execMovh (o : OpL16) (s : State) : Out := issue (.movh o) s (unary o.d fun d => (d <<< 16) ||| o.imm.setWidth 64)
def execPcrel (o : OpL) (s : State) : Out :=
  issue (.pcrel o) s fun s uid t _ => .done (s.putD s.cur uid o.d (t.regs.pc + (o.imm.signExtend 64) * 4))

/-! ## PRD (R263) -/

def execPand (o : OpP3) (s : State) : Out := issue (.pand o) s (setP o.pd fun t => t.pred o.pa.toNat && t.pred o.pb.toNat)
def execPor (o : OpP3) (s : State) : Out := issue (.por o) s (setP o.pd fun t => t.pred o.pa.toNat || t.pred o.pb.toNat)
def execPxor (o : OpP3) (s : State) : Out := issue (.pxor o) s (setP o.pd fun t => t.pred o.pa.toNat != t.pred o.pb.toNat)
def execPnot (o : OpP2) (s : State) : Out := issue (.pnot o) s (setP o.pd fun t => !t.pred o.pa.toNat)
def execPget (o : OpD) (s : State) : Out := issue (.pget o) s fun s uid t _ => .done (s.putD s.cur uid o.d t.regs.pw)
def execPset (o : OpRA) (s : State) : Out :=
  issue (.pset o) s fun s uid _ vals =>
    .done (s.modThread uid fun t => { t with regs := { t.regs with pw := pwOf (vals.getD 0 0), pwPoison := none } })
def execKmov (o : OpK2) (s : State) : Out :=
  issue (.kmov o) s fun s uid t _ =>
    .done (s.modThread uid fun u => { u with regs := u.regs.setMask o.kd.toNat (t.kmask o.ka.toNat) })

end Sys2Proof.Machine
end

