-- ==== Sys2Proof/Machine/Moves.lean ====
section
/-!
DEFINITION. The launch of a thread (R173, R175 to R177), the move of a context to another core (R122, R173, R174), and a thread that leaves
its seat.
-/

namespace Sys2Proof.Machine

/-! ## The launch header (R175 to R177) -/

def State.launchOf (s : State) (t : Thread) : Option Launch := s.launch? t.launch.toNat
/-- Word n of the header of a thread's launch. -/
def State.hdrWord (s : State) (t : Thread) (n : Nat) : Word := ((s.launchOf t).map fun l => l.hdr.getD n 0).getD 0

/-- Width and extent of field j. -/
def widthOf (w0 : Nat) (j : Nat) : Nat := (w0 >>> (7 * j)) % 128
def shiftOf (w0 : Nat) (j : Nat) : Nat := (List.range j).foldl (fun a i => a + widthOf w0 i) 0
def State.extentOf (s : State) (t : Thread) (j : Nat) : Nat := max 1 (s.hdrWord t (1 + j)).toNat

/-- The unit code that binds a level (R176), from BIND. -/
def bindCode (bind : Nat) (level : Nat) : Nat := if level = 0 then 0 else (bind >>> (3 * (level - 1))) % 8

/-- Some level is bound to unit code 1: the launch has role groups (R182). -/
def State.roleLevel (s : State) (t : Thread) : Option Nat :=
  ((List.range 6).map fun k => 6 - k).find? fun l => bindCode (bitsOf (s.hdrWord t 7) 0 18) l == 1

/-- The level-L group of an identifier: its fields L to 5 (R175). -/
def State.groupOf (s : State) (t : Thread) (level : Nat) (wid : Word) : Nat :=
  wid.toNat >>> shiftOf (bitsOf (s.hdrWord t 0) 0 42) level

/-- POLICY, DOUBLET and BOARDTRAP of the header. -/
def State.policy (s : State) (t : Thread) : Bool := (s.hdrWord t 7).getLsbD 22
def State.doubletOf (s : State) (t : Thread) : Bool := (s.hdrWord t 7).getLsbD 23
def State.boardTrap (s : State) (t : Thread) : Bool := (s.hdrWord t 7).getLsbD 24

/-! ## What the launch record gives a thread (R181, R205, R207) -/

/-- The job has been cancelled (R390). -/
def State.jobCancelled (s : State) (job : BitVec 32) : Bool := s.fw.cancels.any fun c => c.1 == job

/-- JOB as a core sets it in the contexts that it holds (R205, R390). -/
def jobWord (job : BitVec 32) (cancelled : Bool) : BitVec 33 := BitVec.ofNat 33 (b2n cancelled * 2 ^ 32 + job.toNat)

/-- A core sets JOB.CANCELLED in a context that arrives, or is loaded, after the broadcast of its job's cancel has reached the core (R390). -/
def State.arrivalJob (s : State) (core : Nat) (y : SysRegs) : BitVec 33 :=
  let job : BitVec 32 := y.job.setWidth 32
  if s.jobCancelled job && !s.work.any fun w => w.ev == .cancelBroadcast job.toNat (16 + core) then jobWord job true else y.job

/-- What dispatch gives a thread of a launch and task (R180, R181, R207): JOB, WIDSHAPE, FS0 to FS3, BOARD and FAULTQ. CANCELLED stays as it is. -/
def launchSys (s : State) (asid : BitVec 16) (launch : BitVec 32) (task : Option Nat) (y : SysRegs) : SysRegs :=
  let y := { y with faultq := ((s.context? asid).map (·.faultq)).getD 0 }
  match s.launch? launch.toNat with
  | none => y
  | some l =>
    let k := task.bind fun k => FMap.find? s.disp.tasks k
    let fps := (k.map (·.fps)).getD []
    let job := (k.map (·.job)).getD l.job
    let fs (n : Nat) : Word := if fps.getD n 0 = 0 then l.hdr.getD (10 + n) 0 &&& 0xFFFF_FFFF_FFC0 else fps.getD n 0
    { y with job := jobWord job (y.job.getLsbD 32)
             widshape := (l.hdr.getD 0 0).setWidth 42
             fs := #v[fs 0, fs 1, fs 2, fs 3]
             board := l.hdr.getD 9 0 }

/-- Copies of the format descriptors of a thread that takes a seat other than by its start: a shadow that names one is read again. -/
def copiesAgain (y : SysRegs) : Vector FsCopy 4 := y.fs.map fun va => if va = 0 then .invalid else .pending

/-- The registers of a thread that has migrated to a core or been swapped out there: those of the launch record are rebuilt (R207). -/
def State.rebuild (s : State) (core uid : Nat) : State :=
  s.modThread uid fun t =>
    let y := launchSys s t.asid t.launch t.origin.task t.sys
    let y := { y with job := s.arrivalJob core y }
    { t with sys := y, fsCopy := copiesAgain y }

/-! ## Pins (R201, R207, R323) -/

/-- The thread of a seat has bound a queue register of its core, and that is still bound. -/
def State.queueBound (s : State) (seat : Nat) : Bool :=
  (s.core (coreOf seat)).qs.toList.any fun q => match q with
    | some x => (s.seat seat).occ == some x.binder
    | none => false

/-- A shadow holds a field written since the last EGO to its engine (R323). -/
def Thread.dirtyShadow (t : Thread) : Bool := t.shadows.dirty != 0

/-! ## Leaving a seat -/

/-- A seat that its thread has left: the core keeps the ASID and mode (R160). A TIMER that is due stays due at the seat (R370). -/
def State.emptySeat (s : State) (seat : Nat) : State :=
  let s := s.forgetPops seat
  let last := (((s.seat seat).occ.bind fun u => s.thread? u).map fun t => (t.asid, t.sys.xstat.mode)).orElse fun _ => (s.seat seat).last
  let runs := ((s.seat seat).occ.bind fun u => s.thread? u).any timerRuns
  s.modSeat seat fun x =>
    { x.tick s.cycle runs with occ := none, last := last, dbgHalt := false, off := none, localOp := none, due := none, pops := [], fetched := [] }

/-- The thread of a seat leaves it, and the seat is free for the next; a doublet leaves both its seats, and writes
no more of its log and its image. Engines that wait to push into a stream
of the core look again at where their word goes (R403). -/
def State.vacate (s : State) (seat : Nat) : State :=
  let s := if (FMap.find? s.fab.doublets seat).isSome then
      let s := ((s.emptySeat (seat + 8)).modSeat (seat + 8) fun x => { x with doubletc := 0 }).modSeat seat fun x => { x with doubletc := 0 }
      let banks := s.fab.banks.map fun (k, b) => (k, { b with waiting := b.waiting.filter fun w => w.user != .doublet seat })
      { s with fab := { s.fab with doublets := FMap.erase s.fab.doublets seat, banks := banks } }
    else s
  let s := s.emptySeat seat
  let feeders := (s.core (coreOf seat)).qs.toList.filterMap fun q => match q with
    | some x => if x.kind = .stream then x.feeder else none
    | none => none
  feeders.foldl (fun s f => s.addWork 1 (.streamPush f)) s

/-- A thread of a doublet launch takes the secondary's seat as well, and a checkpoint interval starts (R409, R410). -/
def State.joinDoublet (s : State) (seat uid : Nat) (t : Thread) : State :=
  if s.doubletOf t then
    let ckpt := max 1 (bitsOf (s.hdrWord t 8) 16 16)
    let word (sec : Nat) : Word := BitVec.ofNat 64 (ckpt * 65536 + sec * 2 + 1)
    let x := s.seat seat
    let s := s.modSeat (seat + 8) fun y =>
      { y with occ := some uid, doubletc := word 1, lbase := x.lbase, llim := x.llim, deleg := x.deleg, off := none, due := none }
    let s := s.modSeat seat fun y => { y with doubletc := word 0 }
    let d : Doublet := { since := s.cycle, log := [], held := [], committing := [], image := none, seatImage := none, lastMismatch := none, wanted := false }
    { s with fab := { s.fab with doublets := FMap.insert s.fab.doublets seat d } }.addWork (ckpt * 1024) (.checkpoint (coreOf seat) seat)
  else s.modSeat seat fun y => { y with doubletc := 0 }

/-! ## Moves (R174) -/

/-- A context is sent to a core as a class 2 packet, counted as sent under its launch (R174, R192). -/
def State.sendContext (s : State) (uid : Nat) (t : Thread) (kind : MigKind) (src dst : Nat) : State × Nat :=
  let (id, s) := s.fresh
  let s := (s.setMig id ⟨uid, kind, src, dst, .going, false⟩).countSent t.launch src
  (s.addWork 1 (match kind with | .setpos _ _ => .squareHandover id | _ => .runQueueArrival id), id)

/-- The step that a context arrives by. -/
def Mig.arrival (g : Mig) (id : Nat) : Ev := match g.kind with
  | .setpos _ _ => .squareHandover id
  | _ => .runQueueArrival id

/-- A packet of classes 1 to 4 is on its way, so that it may meet a full ejection buffer (R150, R152). A SEND within a core enters no network (R433). -/
def State.ejectable (s : State) (id : Nat) : Bool :=
  match s.req? id, s.msg? id, s.mig? id with
  | some r, _, _ => r.stage == .going && r.op.netClass != 0
  | none, some m, _ => m.injected && m.stage == .going && !s.stays m
  | none, none, some g => g.stage == .going
  | none, none, none => false

/-- The destination of a context answers it with a NACK, which the seat that it is still on receives; it is resent after 128 cycles (R152, R174, R206). -/
def State.nackMove (s : State) (id : Nat) (g : Mig) : State :=
  let s := match (s.thread? g.uid).map (·.loc) with
    | some (.transit n) => s.countEv n 7 1
    | _ => s
  (s.setMig id { g with stage := .nacked (s.cycle + 128) }).addWork 128 (g.arrival id)

/-- The network interface answers a packet that meets a full ejection buffer with a NACK (R152). -/
def State.ejectFull (s : State) (id : Nat) : State :=
  match s.req? id, s.msg? id, s.mig? id with
  | none, none, some g => ({ s with work := s.work.filter fun w => w.ev != g.arrival id }).nackMove id g
  | _, _, _ => s.nack id

/-- A move of the thread of a seat to a core: it waits for every answer owed (R122), then its context is on its way; until the destination
takes it, it stays on its seat, in transit. -/
def startMove (s : State) (seat uid : Nat) (t : Thread) (kind : MigKind) (dst : Nat) : Res :=
  if !t.owed.isEmpty then .park
  else
    let (s, _) := s.sendContext uid t kind (coreOf seat) dst
    .leave ((s.modThread uid fun t => { t with loc := .transit seat, park := Park.init }).countEv seat 8 1)

/-- A thread that is in transit leaves the seat that it held. -/
def State.leaveSource (s : State) (uid : Nat) : State :=
  match s.thread? uid with
  | some t =>
    match t.loc with
    | .transit seat => s.vacate seat
    | _ => s
  | none => s

/-- Threads on the seats and in the run queue of a core (R174, R384), those counted that the core has sent and no core has taken. -/
def State.coreLoad (s : State) (core : Nat) : Nat :=
  ((List.range 8).filter fun k => ((s.seat (core * 8 + k)).occ).isSome).length + (s.core core).runq.length
    + (s.fab.threads.filter fun p => match p.2.loc with
        | .moving m => ((s.mig? m).map fun g => g.src == core && !g.admission).getD false
        | _ => false).length

/-- The context cache of a core, which holds its run queue and the contexts that it has sent and no core has taken, has no room (R384). -/
def State.cacheFull (s : State) (core : Nat) : Bool :=
  decide (64 ≤ (s.core core).runq.length + (s.fab.threads.filter fun p => match p.2.loc with
        | .moving m => ((s.mig? m).map fun g => g.src == core && !g.admission).getD false
        | _ => false).length)

/-- A context enters the run queue of a core, by migration or PARKSWAP (R207); an empty seat may take it (R384). -/
def State.enterRunQueue (s : State) (core uid : Nat) : State :=
  ((s.modCore core fun c => { c with runq := c.runq ++ [⟨uid, s.cycle⟩] }).modThread uid fun t => { t with loc := .runQueue core }).rebuild core uid

/-- The lowest-numbered core of a thread's launch in a cluster (R173). -/
def State.launchCoreIn (s : State) (t : Thread) (cluster : Nat) : Option Nat :=
  match s.launchOf t with
  | none => none
  | some l => l.cores.find? fun c => clusterOf c == cluster

/-- Whether an access to another cluster moves the thread (R173, R201, R207, R323, R409), and where. -/
def State.accessMove (s : State) (seat : Nat) (t : Thread) (ma : Nat) : Option Nat :=
  if t.kind != .anchored && s.policy t && !t.role && (ma >>> 56) % 256 == s.device.toNat && meshCluster ma != clusterOf (coreOf seat)
      && !t.inHandler && !t.inFrame && !t.dirtyShadow && !s.queueBound seat && !s.doubletOf t then
    s.launchCoreIn t (meshCluster ma)
  else none

end Sys2Proof.Machine
end

