-- ==== Sys2Proof/Machine/Fence.lean ====
section
/-!
DEFINITION. FENCE (R283), the barriers (R284, R285), and the wait limit of a barrier.
-/

namespace Sys2Proof.Machine

/-- What follows a release or an acquire that is over; one that waits parks the thread, one that reports traps (R112). -/
def Rel.andThen (r : Rel) (f : State → Res) : Res :=
  match r with
  | .waits s => .parkIn s
  | .reports s c b v => .trapIn s c b v
  | .over s => f s

/-- The same for an instruction that counts its wait (R49). -/
def Rel.andThenWait (r : Rel) (f : State → Res) : Res :=
  match r with
  | .waits s => .wait s
  | .reports s c b v => .trapIn s c b v
  | .over s => f s

/-- FENCE by its kind: 0 full, 1 acquire, 2 release. -/
def fenceBody (kind : BitVec 2) (scope : BitVec 5) : Body := fun s uid t _ =>
  let wide := s.scopeWide t.asid (coreOf s.cur) scope.toNat
  let acq (s : State) : Res := (s.acquire s.cur uid wide).andThen fun s => .done s
  if kind = 1 then acq s
  else (s.release s.cur uid wide true).andThen fun s => if kind = 2 then .done s else acq s

def execFence (o : OpFence) (s : State) : Out := issue (.fence o) s (fenceBody o.kind o.scope)

/-! ## Barriers -/

/-- A barrier of a launch: not yet used, it has count 0 and generation 0. -/
def Launch.barrier (l : Launch) (level group : Nat) : Barrier :=
  (l.barriers.find? fun b => b.level == level && b.group == group).getD ⟨level, group, 0, 0⟩
def Launch.setBarrier (l : Launch) (b : Barrier) : Launch :=
  { l with barriers := listErase (fun x => x.level == b.level && x.group == b.group) l.barriers ++ [b] }

/-- Members of a group of a level (R284): the product of the extents below it. -/
def Launch.members (l : Launch) (level : Nat) : Nat :=
  (List.range level).foldl (fun a j => a * max 1 (l.hdr.getD (1 + j) 0).toNat) 1

/-- Members of a group that have exited (R285). -/
def Launch.exitedIn (l : Launch) (level group : Nat) : Nat :=
  (l.exited.filter fun w => w.toNat >>> shiftOf (bitsOf (l.hdr.getD 0 0) 0 42) level == group).length

/-- Every member of a barrier with an arrival has arrived or exited. -/
def Launch.barrierFull (l : Launch) (b : Barrier) (level : Nat) : Bool :=
  b.count != 0 && decide (l.members level ≤ b.count + l.exitedIn level b.group)

/-- The generation advances when every member has arrived or exited (R285). -/
def Launch.checkBarrier (l : Launch) (level group : Nat) : Launch :=
  let b := l.barrier level group
  if l.barrierFull b level then l.setBarrier { b with count := 0, gen := b.gen + 1 } else l

/-- The scope of BAR L (R284). -/
def State.barScope (s : State) (t : Thread) (level : Nat) : Nat :=
  if level = 0 then 0
  else
    let codes := (List.range 7).filterMap fun l =>
      let c := bindCode (bitsOf (s.hdrWord t 7) 0 18) l
      if level ≤ l && c != 0 then some c else none
    match codes with
    | [] => 6
    | c :: _ => if c = 1 then 1 else c - 1

/-- The generation of a thread's barrier; a thread of no launch is alone in it. -/
def State.barrierGen (s : State) (t : Thread) (level group : Nat) : BitVec 32 :=
  ((s.launchOf t).map fun l => (l.barrier level group).gen).getD (t.bar.bgen + 1)

/-- Arrives at a barrier: the thread records the generation, and the barrier counts it. -/
def State.arriveBarrier (s : State) (uid : Nat) (t : Thread) (level group : Nat) : State :=
  let n := ((s.launchOf t).map fun l => (l.barrier level group).gen).getD 0
  let s := s.modThread uid fun t => { t with bar := { t.bar with barr := true, blev := BitVec.ofNat 3 level, bgen := n } }
  s.modLaunch t.launch.toNat fun l =>
    let b := l.barrier level group
    (l.setBarrier { b with count := b.count + 1 }).checkBarrier level group

/-- A BAR that has arrived: it retires with the acquire once the generation has passed, and otherwise parks. -/
def barWait (level group : Nat) (wide : Bool) (uid : Nat) (s : State) : Res :=
  match s.thread? uid with
  | none => .wait s
  | some t =>
    if s.barrierGen t level group = t.bar.bgen then .wait s
    else
      (s.acquire s.cur uid wide).andThenWait fun s => .done (s.modThread uid fun t => { t with bar := { t.bar with barr := false } })

def barBody (level : Nat) : Body := fun s uid t _ =>
  let wide := s.scopeWide t.asid (coreOf s.cur) (s.barScope t level)
  let group := s.groupOf t level t.regs.wid
  if t.bar.barr && t.bar.blev.toNat == level then barWait level group wide uid s
  else
    (s.release s.cur uid wide true).andThenWait fun s =>
      if level = 0 then (s.acquire s.cur uid wide).andThenWait fun s => .done s
      else barWait level group wide uid (s.arriveBarrier uid t level group)

def execBar (o : OpBar) (s : State) : Out := issue (.bar o) s (barBody o.level.toNat)

/-- A parked BAR or CELLSYNC has waited longer than LIMIT and its generation has not passed (R285, R354): its level, and whether it is
a CELLSYNC. -/
def State.barrierOverdue (s : State) (t : Thread) : Option (Nat × Bool) :=
  if t.park.parked && t.park.counting && decide (t.limit.toNat < t.park.units s.cycle) then
    if t.bar.carr then (if s.barrierGen t 7 0 = t.bar.bgen then some (6, true) else none)
    else if t.bar.barr then
      let l := t.bar.blev.toNat
      if s.barrierGen t l (s.groupOf t l t.regs.wid) = t.bar.bgen then some (l, false) else none
    else none
  else none

/-- BARRIER_WAIT_LIMIT: the BAR or CELLSYNC of a seat traps WAITLIM and its arrival is withdrawn (R285, R354). -/
def execBarrierWaitLimit (seat : Nat) (s : State) : Out :=
  match (s.seat seat).occ with
  | none => .next s
  | some uid =>
    match s.thread? uid with
    | none => .next s
    | some t =>
      match s.barrierOverdue t with
      | none => .next s
      | some (level, cell) =>
        let key := if cell then (7, 0) else (level, s.groupOf t level t.regs.wid)
        let s := s.modThread uid fun t =>
          { t with bar := { t.bar with barr := if cell then t.bar.barr else false, carr := false } }
        let s := s.modLaunch t.launch.toNat fun l =>
          let b := l.barrier key.1 key.2
          l.setBarrier { b with count := b.count - 1 }
        .next (takeTrap s seat uid 0x08 (if cell then 0x06 else 0x05) (BitVec.ofNat 64 level))

end Sys2Proof.Machine
end

