-- ==== Sys2Proof/Machine/LocalMem.lean ====
section
/-!
DEFINITION. Local loads and stores (R273), the SYNC instructions (R45 to R50) and the local atomics (R126, R127, R279).
-/

namespace Sys2Proof.Machine

/-- The segment offset of LDL, LDLS, STL: g[A] + sext(OFF8) × 2^SZ (R268). -/
def offM (a : Word) (off : BitVec 8) (scale : Nat) : Word := a + (off.signExtend 64) * BitVec.ofNat 64 scale

/-- The address step of a local access (R31 steps 3 and 5), and the access itself from the cluster offset. -/
def withLocal (s : State) (o : Word) (size : Nat) (f : Nat → State) : Res :=
  match checkLocal (s.seat s.cur) o size with
  | .trap c b v => .trap c b v
  | .ok ea => .leave (f ea)

/-- LDL and LDLS. -/
def loadLocal (o : OpM) (signed : Bool) : Body := fun s uid _ vals =>
  let size := 2 ^ o.sz.toNat
  let off := offM (vals.getD 0 0) o.off size
  withLocal s off size fun ea => s.localAccess s.cur uid (.load o.d size signed (ea % 8)) off [⟨ea, .read, 0⟩]

def execLdl (o : OpM) (s : State) : Out := issue (.ldl o) s (loadLocal o false)
def execLdls (o : OpM) (s : State) : Out := issue (.ldls o) s (loadLocal o true)

/-- STL; a store of fewer than 8 bytes merges into its word. -/
def storeLocal (o : OpM) : Body := fun s uid _ vals =>
  let size := 2 ^ o.sz.toNat
  let off := offM (vals.getD 0 0) o.off size
  withLocal s off size fun ea =>
    s.localAccess s.cur uid .store off
      [⟨ea, .write (BitVec.ofNat 8 ((2 ^ size - 1) <<< (ea % 8))) (vals.getD 1 0 <<< (8 * (ea % 8))), 0⟩]
def execStl (o : OpM) (s : State) : Out := issue (.stl o) s (storeLocal o)

/-- A SYNC attempt on the word at g[A] + sext(OFF8) × 8 (R46). -/
def syncLocal (code : BitVec 2) (d : BitVec 6) (off8 : BitVec 8) : Body := fun s uid _ vals =>
  let off := offM (vals.getD 0 0) off8 8
  withLocal s off 8 fun ea => s.localAccess s.cur uid (.sync code d) off [⟨ea, .sync code (vals.getD 1 0), 0⟩]

def execLdw (o : OpMS) (s : State) : Out := issue (.ldw o) s (syncLocal 0 o.d o.off)
def execLde (o : OpMS) (s : State) : Out := issue (.lde o) s (syncLocal 1 o.d o.off)
def execStf (o : OpMS) (s : State) : Out := issue (.stf o) s (syncLocal 2 o.d o.off)
def execSete (o : OpMA) (s : State) : Out := issue (.sete o) s (syncLocal 3 63 o.off)

/-- A local atomic on the word at g[A], by its minor; for CAS the third source is the expected value (R279). -/
def atomLocal (f : BitVec 3) (o : OpR) : Body := fun s uid _ vals =>
  let off := vals.getD 0 0
  withLocal s off 8 fun ea => s.localAccess s.cur uid (.atomic o.d) off [⟨ea, .atomic f (vals.getD 1 0) (vals.getD 2 0), 0⟩]

def execFaal (o : OpR) (s : State) : Out := issue (.faal o) s (atomLocal 0 o)
def execSwapl (o : OpR) (s : State) : Out := issue (.swapl o) s (atomLocal 1 o)
def execCasl (o : OpR) (s : State) : Out := issue (.casl o) s (atomLocal 2 o)
def execFandl (o : OpR) (s : State) : Out := issue (.fandl o) s (atomLocal 3 o)
def execForl (o : OpR) (s : State) : Out := issue (.forl o) s (atomLocal 4 o)
def execFxorl (o : OpR) (s : State) : Out := issue (.fxorl o) s (atomLocal 5 o)
def execFminl (o : OpR) (s : State) : Out := issue (.fminl o) s (atomLocal 6 o)
def execFmaxl (o : OpR) (s : State) : Out := issue (.fmaxl o) s (atomLocal 7 o)

end Sys2Proof.Machine
end

