-- ==== Sys2Proof/Machine/GlobalMem.lean ====
section
/-!
DEFINITION. Global loads and stores (R274, R275), the global atomics, reservations and WAITRS (R130 to R133, R280), reductions (R281),
and the mesh accesses (R277), as they issue. What their destinations do is in Station.lean and MeshOwner.lean.
-/

namespace Sys2Proof.Machine

/-- The address steps of a global access: ALIGN, then GFAULT 0x01 (R24, R31). -/
def checkGlobal (va : Word) (size : Nat) : Test :=
  if va.toNat % size ≠ 0 then .trap 0x04 (Config.openSub 0x04) va
  else if va.extractLsb' 48 16 ≠ 0 then .trap 0x06 0x01 va
  else .pass

/-- The address steps of a mesh access: ALIGN, then GFAULT 0x02 (R18). -/
def checkMesh (ma : Word) : Test :=
  if ma.toNat % 8 ≠ 0 then .trap 0x04 (Config.openSub 0x04) ma
  else if ma.extractLsb' 24 27 ≠ 0 then .trap 0x06 0x02 ma
  else .pass

/-- Sends a request for a thread, to which its answer is then owed. -/
def State.sendOwed (s : State) (uid : Nat) (r : Req) (cls : AnsClass) (gran : List Granule) (d : Dest) : State :=
  let (s, id) := s.sendReq r
  s.modThread uid fun t => t.owe id cls gran d

/-- A store of a doublet is held at its primary until the checkpoint (R411); 64 held stores take one (R410). -/
def State.sendStore (s : State) (seat uid : Nat) (r : Req) : State :=
  match FMap.find? s.fab.doublets seat with
  | none => s.sendOwed uid r .store [.global (lineOf r.addr)] .none
  | some d =>
    let (id, s) := s.fresh
    let s := (s.setReq id r).modThread uid fun t => t.owe id .store [.global (lineOf r.addr)] .none
    let s := { s with fab := { s.fab with doublets := FMap.insert s.fab.doublets seat { d with held := d.held ++ [id] } } }
    if 64 ≤ d.held.length + 1 then s.wantCheckpoint seat else s

/-- The bytes of an access from a line, and the word of the access that is poisoned, if one is. -/
def lineBytes (l : Line) (va size : Nat) : Nat := lineBits l (8 * (va % 64)) (8 * size)
def linePoisoned (poison : BitVec 8) (mask : BitVec 64) : Bool := poison &&& maskWords mask != 0

/-- What a load brings to its destination: the bytes extended, or the record of R69. -/
def loadFill (size : Nat) (signed : Bool) (va : Nat) (mask : BitVec 64) (l : Line) (poison : BitVec 8) : Fill :=
  if linePoisoned poison mask then .poison (poisonRec 0x10 0x03 va)
  else
    let x := lineBytes l va size
    .word (if signed then signExt (8 * size) x else BitVec.ofNat 64 x)

/-- A write-back of the granule by the thread's cluster is on its way: an access of an anchored thread that goes home waits for it, so that it does not
pass a store that the near cache has acknowledged (R78, R114, R123). -/
def State.mustWait (s : State) (seat : Nat) (t : Thread) (va : Nat) : Bool :=
  t.kind == .anchored && !(s.flying (clusterOf (coreOf seat)) t.asid va).isEmpty

/-- A load of a thread from global memory (R274): from the near cache when an anchored thread hits, otherwise from home. -/
def globalLoad (s : State) (seat uid : Nat) (t : Thread) (r : Req) (d : Dest) (fill : Line → BitVec 8 → Fill) : Res :=
  let cl := clusterOf (coreOf seat)
  if t.occupies (.global (lineOf r.addr)) then .park
  else
    match (if t.kind == .anchored then s.ncLoad uid cl t.asid r.addr r.mask else none) with
    | some (s, l) => .done ((s.countEv seat 5 1).modThread uid fun t => t.fill d (fill l.data l.poison))
    | none =>
      if s.mustWait seat t r.addr then .park
      else
        let s := if t.kind == .anchored then s.countEv seat 6 1 else s
        .done (s.sendOwed uid r .load [.global (lineOf r.addr)] d)

def loadGlobal (o : OpM) (signed : Bool) : Body := fun s uid t vals =>
  let size := 2 ^ o.sz.toNat
  let va := offM (vals.getD 0 0) o.off size
  match checkGlobal va size with
  | .trap c b v => .trap c b v
  | _ =>
    let r := { Req.make s s.cur uid t .load va.toNat size with signed := signed }
    globalLoad s s.cur uid t r (destOf o.d) (loadFill size signed va.toNat r.mask)

def execLdg (o : OpM) (s : State) : Out := issue (.ldg o) s (loadGlobal o false)
def execLdgs (o : OpM) (s : State) : Out := issue (.ldgs o) s (loadGlobal o true)

/-- The lookup of a store without an active byte (R297): a hit is counted and uses the line. -/
def State.ncTouch (s : State) (cl : Nat) (asid : BitVec 16) (va : Nat) : State × Bool :=
  match s.ncFind cl asid va with
  | some l => if l.wok then (s.ncPut cl l, true) else (s, false)
  | none => (s, false)

/-- A store of a thread: merged by the near cache on a hit with WOK (R75), otherwise to home; one without an active byte is looked up and sent. A doublet
holds it, unperformed and not yet looked up (R411). -/
def globalStore (s : State) (seat uid : Nat) (t : Thread) (r : Req) : Res :=
  let cl := clusterOf (coreOf seat)
  if t.occupies (.global (lineOf r.addr)) then .park
  else
    match (if t.kind == .anchored && (FMap.find? s.fab.doublets seat).isNone && r.mask != 0 then s.ncStore uid cl t.asid r.addr r.mask r.data else none) with
    | some s => .done (s.countEv seat 5 1)
    | none =>
      if (FMap.find? s.fab.doublets seat).isSome then .done (s.sendStore seat uid r)
      else if s.mustWait seat t r.addr then .park
      else
        let (s, hit) := if t.kind == .anchored && r.mask == 0 then s.ncTouch cl t.asid r.addr else (s, false)
        let s := if t.kind == .anchored then s.countEv seat (if hit then 5 else 6) 1 else s
        .done (s.sendStore seat uid r)

/-- Bytes placed in a line from an address. -/
def placed (va : Nat) (w : Word) : Line := BitVec.ofNat 512 (w.toNat <<< (8 * (va % 64)))

def execStg (o : OpM) (s : State) : Out :=
  issue (.stg o) s fun s uid t vals =>
    let size := 2 ^ o.sz.toNat
    let va := offM (vals.getD 0 0) o.off size
    match checkGlobal va size with
    | .trap c b v => .trap c b v
    | _ =>
      globalStore s s.cur uid t
        { Req.make s s.cur uid t .store va.toNat size with data := placed va.toNat (vals.getD 1 0), noAlloc := o.ta }

/-- Before an atomic, reduction or STGM of an anchored thread leaves the cluster, its line is written back and invalidated; the request
is sent after the acknowledgement (R114). -/
def afterFlush (s : State) (seat uid : Nat) (t : Thread) (va : Nat) (send : State → Res) : Res :=
  if t.occupies (.global (lineOf va)) then .park
  else if t.kind == .anchored then
    let (s, sent) := s.ncFlushLine (clusterOf (coreOf seat)) t.asid va (some (seat, uid))
    if sent then .parkIn s else if s.mustWait seat t va then .park else send s
  else send s

/-- The same for the lines of several addresses. -/
def flushLines (s : State) (seat uid : Nat) (t : Thread) : List Nat → State × Bool
  | [] => (s, false)
  | va :: rest =>
    let r := s.ncFlushLine (clusterOf (coreOf seat)) t.asid va (some (seat, uid))
    let q := flushLines r.1 seat uid t rest
    (q.1, r.2 || q.2)

def execStgm (o : OpStgm) (s : State) : Out :=
  issue (.stgm o) s fun s uid t vals =>
    let va := vals.getD 0 0
    match checkGlobal va 8 with
    | .trap c b v => .trap c b v
    | _ =>
      afterFlush s s.cur uid t va.toNat fun s =>
        .done (s.sendStore s.cur uid { Req.make s s.cur uid t .stgm va.toNat 8 with
          data := placed va.toNat (vals.getD 1 0), mask := (o.mask.setWidth 64) <<< (va.toNat % 64) })

/-! ## Atomics, reservations and reductions -/

/-- An atomic, reservation or reduction as it issues (R280, R281). -/
def globalAtomic (op : List Word → ReqOp) (cls : AnsClass) (d : Dest) : Body := fun s uid t vals =>
  let va := vals.getD 0 0
  match checkGlobal va 8 with
  | .trap c b v => .trap c b v
  | _ =>
    afterFlush s s.cur uid t va.toNat fun s =>
      .done (s.sendOwed uid (Req.make s s.cur uid t (op vals) va.toNat 8) cls [.global (lineOf va.toNat)] d)

def execFaa (o : OpR) (s : State) : Out := issue (.faa o) s (globalAtomic (fun v => .atom 0 (v.getD 1 0) 0) .load (destOf o.d))
def execSwap (o : OpR) (s : State) : Out := issue (.swap o) s (globalAtomic (fun v => .atom 1 (v.getD 1 0) 0) .load (destOf o.d))
def execCas (o : OpR) (s : State) : Out := issue (.cas o) s (globalAtomic (fun v => .atom 2 (v.getD 1 0) (v.getD 2 0)) .load (destOf o.d))
def execLr (o : OpRDA) (s : State) : Out := issue (.lr o) s (globalAtomic (fun _ => .lr) .load (destOf o.d))
def execSc (o : OpR) (s : State) : Out := issue (.sc o) s (globalAtomic (fun v => .sc (v.getD 1 0)) .load (destOf o.d))
def execAmax (o : OpR) (s : State) : Out := issue (.amax o) s (globalAtomic (fun v => .atom 5 (v.getD 1 0) 0) .load (destOf o.d))
def execRsvrel (o : OpRA) (s : State) : Out := issue (.rsvrel o) s (globalAtomic (fun _ => .rsvrel) .store .none)

/-- A reduction by its minor (R128). -/
def reduction (f : BitVec 3) (o : OpRed) : Body := globalAtomic (fun v => .red f (v.getD 1 0) o.nc) .store .none
def execRaddI64 (o : OpRed) (s : State) : Out := issue (.raddI64 o) s (reduction 0 o)
def execRaddF32 (o : OpRed) (s : State) : Out := issue (.raddF32 o) s (reduction 1 o)
def execRaddF64 (o : OpRed) (s : State) : Out := issue (.raddF64 o) s (reduction 2 o)
def execRmin (o : OpRed) (s : State) : Out := issue (.rmin o) s (reduction 3 o)
def execRmax (o : OpRed) (s : State) : Out := issue (.rmax o) s (reduction 4 o)
def execRand (o : OpRed) (s : State) : Out := issue (.rand o) s (reduction 5 o)
def execRor (o : OpRed) (s : State) : Out := issue (.ror o) s (reduction 6 o)
def execRxor (o : OpRed) (s : State) : Out := issue (.rxor o) s (reduction 7 o)

/-- The used slots of a WAITRS: index, address, expected value (R133). -/
def waitSlots (vals : List Word) : List (Nat × Nat × Word) :=
  (List.range 4).filterMap fun i =>
    if vals.getD i 0 = BitVec.allOnes 64 then none else some (i, (vals.getD i 0).toNat, vals.getD (4 + i) 0)

/-- Registers the slots of a WAITRS one by one. -/
def sendWatches (seat uid : Nat) (t : Thread) (parent : Nat) : List (Nat × Nat × Word) → State → State
  | [], s => s
  | (i, a, e) :: rest, s => sendWatches seat uid t parent rest (s.sendReq (Req.make s seat uid t (.watch parent i e) a 8)).1

/-- WAITRS (R133): every used slot is checked as any global address and registered at its home, after the write-back of its line (R114); the
limit runs from issue. DESIGN CHOICE: the slots are tested one by one, each with all its steps (log entry 95), and XVAL of one that is reported NOREPLY
is the address of its first used slot (log entry 102). -/
def execWaitrs (o : OpR) (s : State) : Out :=
  issue (.waitrs o) s fun s uid t vals =>
    let slots := waitSlots vals
    match firstTest (slots.map fun p => checkGlobal (BitVec.ofNat 64 p.2.1) 8) with
    | .trap c b v => .trap c b v
    | _ =>
      if slots.any fun p => t.occupies (.global (lineOf p.2.1)) then .park
      else if slots.isEmpty then .done (s.modThread uid fun t => t.fill (destOf o.d) (.word (BitVec.allOnes 64)))
      else
        let r := if t.kind == .anchored then flushLines s s.cur uid t (slots.map (·.2.1)) else (s, false)
        if r.2 then .parkIn r.1
        else if slots.any fun p => s.mustWait s.cur t p.2.1 then .park
        else
          let s := r.1
          let (id, s) := s.fresh
          let s := (s.setReq id (Req.make s s.cur uid t (.waitrs slots) (slots.headD (0, 0, 0)).2.1 8)).arm id 65536
          let s := s.modThread uid fun t => t.owe id .load (slots.map fun p => .global (lineOf p.2.1)) (destOf o.d)
          .done ((sendWatches s.cur uid t id slots s).addWork ((t.limit.toNat + 1) * 1024) (.waitrsLimit id))

/-! ## Mesh accesses (R277) -/

/-- A mesh access as it issues: it migrates the thread by R173, or is sent to the owner, one at a time per 64-byte block (R119). -/
def meshAccess (op : ReqOp) (cls : AnsClass) (off : BitVec 8) (d : Dest) : Body := fun s uid t vals =>
  let ma := offM (vals.getD 0 0) off 8
  match checkMesh ma with
  | .trap c b v => .trap c b v
  | _ =>
    match s.accessMove s.cur t ma.toNat with
    | some dst => startMove s s.cur uid t .access dst
    | none =>
      if t.occupies (.mesh (lineOf ma.toNat)) then .park
      else
        .done (s.sendOwed uid { Req.make s s.cur uid t op ma.toNat 8 with data := (vals.getD 1 0).setWidth 512 } cls
          [.mesh (lineOf ma.toNat)] d)

def execLdr (o : OpMS) (s : State) : Out := issue (.ldr o) s (meshAccess .ldr .load o.off (destOf o.d))
def execStr (o : OpMS) (s : State) : Out := issue (.str o) s (meshAccess .str .store o.off .none)
def execLdre (o : OpMS) (s : State) : Out := issue (.ldre o) s (meshAccess .ldre .load o.off (destOf o.d))
def execStrf (o : OpMS) (s : State) : Out := issue (.strf o) s (meshAccess .strf .store o.off .none)

end Sys2Proof.Machine
end

