-- ==== Sys2Proof/Machine/VMem.lean ====
section
/-!
DEFINITION. The vector memory instructions (R297, R298).
-/

namespace Sys2Proof.Machine

/-- The bytes of the granules that a lane mask makes active. -/
def granuleBytes (km : BitVec 16) : BitVec 64 :=
  BitVec.ofNat 64 ((List.range 16).foldl (fun a i => a + if km.getLsbD i then 15 * 2 ^ (4 * i) else 0) 0)

/-- The address g[A] + sext(OFF5) × 64. -/
def offV (a : Word) (off : BitVec 5) : Word := a + (off.signExtend 64) * 64

/-- The word reads of a 64-byte block. -/
def blockReads (ea : Nat) : List BankPart := (List.range 8).map fun j => ⟨ea + 8 * j, .read, j⟩

/-- The byte-masked word writes of a 64-byte block: a word without an active byte is accessed too, and stays as it is (R39). -/
def blockWrites (ea : Nat) (bytes : BitVec 64) (l : Line) : List BankPart :=
  (List.range 8).map fun j => ⟨ea + 8 * j, .write (bytes.extractLsb' (8 * j) 8) (lineWord l j), j⟩

/-- A local access to the 64 bytes at an offset. -/
def blockLocal (kind : Thread → LocalKind) (parts : Thread → Nat → List BankPart) (off : BitVec 5) : Body := fun s uid t vals =>
  let o := offV (vals.getD 0 0) off
  withLocal s o 64 fun ea => s.localAccess s.cur uid (kind t) o (parts t ea)

def execVldl (o : OpVM) (s : State) : Out :=
  issue (.vldl o) s (blockLocal (fun t => .vload o.vd (granuleBytes (t.kmask o.k.toNat))) (fun _ ea => blockReads ea) o.off)

def execVstl (o : OpVM) (s : State) : Out :=
  issue (.vstl o) s
    (blockLocal (fun _ => .vstore) (fun t ea => blockWrites ea (granuleBytes (t.kmask o.k.toNat)) (vget t.vec.v o.vd.toNat 0)) o.off)

/-- The period P of VLDB is 4 × 2^M3 bytes. -/
def execVldb (o : OpVMb) (s : State) : Out :=
  issue (.vldb o) s
    (blockLocal (fun t => .vbcast o.vd (granuleBytes (t.kmask o.k.toNat)) (4 * 2 ^ o.m3.toNat)) (fun _ ea => blockReads ea) o.off)

/-- The segment offset of lane i: base + 4 × its index. -/
def laneOff (base : Word) (idx : Line) (i : Nat) : Word := base + 4 * signExt 32 (lineBits idx (32 * i) 32)

/-- The checks of a gather or scatter: ALIGN of the base, then LSEG of the active lanes in ascending order. -/
def checkLanes (x : Seat) (base : Word) (idx : Line) (km : BitVec 16) : Test :=
  if base.toNat % 64 ≠ 0 then .trap 0x04 (Config.openSub 0x04) base
  else
    firstTest ((List.range 16).map fun i =>
      if km.getLsbD i && decide (x.segLen ≤ (laneOff base idx i).toNat) then .trap 0x05 (Config.openSub 0x05) (laneOff base idx i)
      else .pass)

/-- A gather or scatter: one access per active lane. -/
def lanesLocal (kind : LocalKind) (off : BitVec 5) (idx : Thread → Line) (k : BitVec 2) (op : Thread → Nat → Nat → BankOp) : Body :=
  fun s uid t vals =>
    let base := offV (vals.getD 0 0) off
    let km := t.kmask k.toNat
    let x := s.seat s.cur
    match checkLanes x base (idx t) km with
    | .trap c b v => .trap c b v
    | _ =>
      let parts := (List.range 16).filterMap fun i =>
        let ea := x.lbase.toNat + (laneOff base (idx t) i).toNat
        if km.getLsbD i then some ⟨ea, op t i ea, i⟩ else none
      .leave (s.localAccess s.cur uid kind base parts)

def execVgatl (o : OpVM) (s : State) : Out :=
  issue (.vgatl o) s (lanesLocal (.gather o.vd) o.off (fun t => vget t.vec.v o.vd.toNat 0) o.k fun _ _ _ => .read)

/-- The write of lane i to half a word. -/
def laneWrite (l : Line) (i ea : Nat) : BankOp :=
  .write (if ea % 8 = 4 then 0xF0 else 0x0F) (BitVec.ofNat 64 (lineBits l (32 * i) 32 * 2 ^ (8 * (ea % 8))))

def execVscal (o : OpVM) (s : State) : Out :=
  issue (.vscal o) s
    (lanesLocal .vstore o.off (fun t => vget t.vec.v (o.vd.toNat + 1) 0) o.k fun t i ea => laneWrite (vget t.vec.v o.vd.toNat 0) i ea)

/-- What a 64-byte load brings: the line, or the record of R69 with the VA of the first poisoned word. -/
def lineFill (va : Nat) (l : Line) (poison : BitVec 8) : Fill :=
  match (List.range 8).find? fun j => poison.getLsbD j with
  | some j => .poison (poisonRec 0x10 0x03 (va + 8 * j))
  | none => .line l

/-- VLDG reads its granule in one request, as LDG.64 of each of its words. -/
def execVldg (o : OpVM) (s : State) : Out :=
  issue (.vldg o) s fun s uid t vals =>
    let va := offV (vals.getD 0 0) o.off
    match checkGlobal va 64 with
    | .trap c b v => .trap c b v
    | _ =>
      globalLoad s s.cur uid t { Req.make s s.cur uid t .load va.toNat 64 with mask := BitVec.allOnes 64 }
        (.v o.vd.toNat (granuleBytes (t.kmask o.k.toNat))) (lineFill va.toNat)

/-- VSTG; without an active granule it is sent with a zero byte mask and allocates nothing. -/
def execVstg (o : OpVM) (s : State) : Out :=
  issue (.vstg o) s fun s uid t vals =>
    let va := offV (vals.getD 0 0) o.off
    match checkGlobal va 64 with
    | .trap c b v => .trap c b v
    | _ =>
      let bytes := granuleBytes (t.kmask o.k.toNat)
      globalStore s s.cur uid t
        { Req.make s s.cur uid t .store va.toNat 64 with data := vget t.vec.v o.vd.toNat 0, mask := bytes, noAlloc := bytes == 0 }

end Sys2Proof.Machine
end

