-- ==== Sys2Proof/Machine/Float.lean ====
section
/-!
DEFINITION. Floating formats, exact values and rounding (R208 to R211, R216 to R218), the arithmetic that forms a result exactly and
rounds it once, and the special functions of R307.
-/

namespace Sys2Proof.Machine

/-! ## Formats (R209, R210) -/

/-- A floating format: sizes of the exponent and the fraction, the bias, and whether it has infinities. -/
structure FFmt where
  ebits : Nat
  fbits : Nat
  bias : Nat
  hasInf : Bool
  deriving DecidableEq, Repr

def fF64 : FFmt := ⟨11, 52, 1023, true⟩
def fF32 : FFmt := ⟨8, 23, 127, true⟩
def fF16 : FFmt := ⟨5, 10, 15, true⟩
def fBF16 : FFmt := ⟨8, 7, 127, true⟩
def fE4M3 : FFmt := ⟨4, 3, 7, false⟩
def fE5M2 : FFmt := ⟨5, 2, 15, true⟩

/-- The floating format of an element type or a format code (R208). -/
def fmtOfCode (c : Nat) : FFmt :=
  if c = 4 then fF16 else if c = 5 then fBF16 else if c = 6 then fF32 else if c = 7 then fF64 else if c = 8 then fE4M3 else fE5M2

def FFmt.width (f : FFmt) : Nat := 1 + f.ebits + f.fbits
/-- The exponent of the smallest normal. -/
def FFmt.emin (f : FFmt) : Int := 1 - (f.bias : Int)
/-- The exponent of the largest finite value. -/
def FFmt.emax (f : FFmt) : Int := if f.hasInf then ((2 ^ f.ebits - 2 : Nat) : Int) - f.bias else ((2 ^ f.ebits - 1 : Nat) : Int) - f.bias
/-- The exponent field of all ones. -/
def FFmt.ones (f : FFmt) : Nat := 2 ^ f.ebits - 1
def FFmt.infBits (f : FFmt) (neg : Bool) : Nat := b2n neg * 2 ^ (f.ebits + f.fbits) + f.ones * 2 ^ f.fbits
/-- The largest finite magnitude with a sign. -/
def FFmt.maxBits (f : FFmt) (neg : Bool) : Nat :=
  b2n neg * 2 ^ (f.ebits + f.fbits) + (if f.hasInf then f.ones * 2 ^ f.fbits - 1 else f.ones * 2 ^ f.fbits + 2 ^ f.fbits - 2)
/-- The default NaN (R210). -/
def FFmt.nanBits (f : FFmt) : Nat :=
  f.ones * 2 ^ f.fbits + (if f.hasInf then 2 ^ (f.fbits - 1) else 2 ^ f.fbits - 1)
def FFmt.zeroBits (f : FFmt) (neg : Bool) : Nat := b2n neg * 2 ^ (f.ebits + f.fbits)

/-- The exact value of a pattern: m × 2^e with a sign. -/
inductive FVal where
  | nan (signalling : Bool)
  | inf (neg : Bool)
  | fin (neg : Bool) (m : Nat) (e : Int)
  deriving DecidableEq, Repr

/-- R209, R210. -/
def FFmt.decode (f : FFmt) (x : Nat) : FVal :=
  let frac := x % 2 ^ f.fbits
  let ex := (x / 2 ^ f.fbits) % 2 ^ f.ebits
  let neg := (x / 2 ^ (f.ebits + f.fbits)) % 2 = 1
  if f.hasInf && ex == f.ones then (if frac = 0 then .inf neg else .nan (decide (frac < 2 ^ (f.fbits - 1))))
  else if !f.hasInf && ex == f.ones && frac == 2 ^ f.fbits - 1 then .nan false
  else if ex = 0 then .fin neg frac (f.emin - f.fbits)
  else .fin neg (frac + 2 ^ f.fbits) (f.emin - f.fbits + (ex - 1))

/-! ## Rounding (R216) -/

/-- A rounding mode; stochastic rounding brings its 24 drawn bits (R217). -/
inductive Mode where
  | rne
  | rtz
  | rdn
  | rup
  | rna
  | sr (rnd : Nat)
  deriving DecidableEq, Repr

/-- The mode of a code from 1 to 5; 6 draws (R216). -/
def modeOf (c rnd : Nat) : Mode :=
  if c = 2 then .rtz else if c = 3 then .rdn else if c = 4 then .rup else if c = 5 then .rna else if c = 6 then .sr rnd else .rne

/-- The mode code of FRM: 000, 110 and 111 act as RNE. -/
def frmCode (frm : BitVec 3) : Nat := if frm = 0 || 6 ≤ frm then 1 else frm.toNat
/-- The code of an M3: 000 selects FRM. -/
def m3Code (m3 frm : BitVec 3) : Nat := if m3 = 0 then frmCode frm else m3.toNat

/-- Whether a magnitude lo + (r + δ) / 2^k, with 0 < δ < 1 when `sticky`, is rounded away from zero. -/
def awayFromZero (mode : Mode) (neg : Bool) (lo r k : Nat) (sticky : Bool) : Bool :=
  if r = 0 && !sticky then false
  else
    match mode with
    | .rne => decide (2 ^ k < 2 * r) || (2 * r == 2 ^ k && (sticky || lo % 2 == 1))
    | .rtz => false
    | .rdn => neg
    | .rup => !neg
    | .rna => decide (2 ^ k ≤ 2 * r)
    | .sr rnd =>
      if neg then !decide (rnd * 2 ^ k < (2 ^ k - r) * 2 ^ 24)
      else decide (rnd * 2 ^ k < r * 2 ^ 24) || (sticky && decide (rnd * 2 ^ k ≤ r * 2 ^ 24))

/-- A result: its bits, the flags it raises, and whether it was saturated or clamped (SATCNT). -/
structure FRes where
  bits : Nat
  flags : FFlags
  sat : Bool
  deriving DecidableEq, Repr

def FFmt.nan (f : FFmt) (nv : Bool) : FRes := ⟨f.nanBits, if nv then flagNV else 0, false⟩

/-- The overflow of R216. -/
def FFmt.overflow (f : FFmt) (mode : Mode) (neg : Bool) : FRes :=
  if !f.hasInf then ⟨f.maxBits neg, flagOF ||| flagNX, true⟩
  else
    let toZero := match mode with
      | .rtz => true
      | .rdn => !neg
      | .rup => neg
      | _ => false
    ⟨if toZero then f.maxBits neg else f.infBits neg, flagOF ||| flagNX, false⟩

/-- An infinite result: itself, or in e4m3 the saturated value (R216). -/
def FFmt.infinite (f : FFmt) (neg : Bool) : FRes :=
  if f.hasInf then ⟨f.infBits neg, 0, false⟩ else ⟨f.maxBits neg, flagOF ||| flagNX, true⟩

/-- The pattern of n × 2^q, where n is at most one bit longer or shorter than a significand, and q is at least the exponent of the smallest
subnormal. -/
def FFmt.pack (f : FFmt) (neg : Bool) (n : Nat) (q : Int) : Nat :=
  let n' := if 2 ^ (f.fbits + 1) ≤ n then n / 2 else if n < 2 ^ f.fbits && decide (f.emin - f.fbits < q) then 2 * n else n
  let q' := if 2 ^ (f.fbits + 1) ≤ n then q + 1 else if n < 2 ^ f.fbits && decide (f.emin - f.fbits < q) then q - 1 else q
  f.zeroBits neg + (if n' < 2 ^ f.fbits then n' else (q' - (f.emin - f.fbits) + 1).toNat * 2 ^ f.fbits + (n' - 2 ^ f.fbits))

/-- The quantum of a rounding: its magnitude m × 2^e has its leading bit at 2^(log2 m + e). -/
def FFmt.quantum (f : FFmt) (m : Nat) (e : Int) : Int := max ((Nat.log2 m : Int) + e - f.fbits) (f.emin - f.fbits)

/-- m × 2^e, with more beyond its last bit when `sticky`, divided by 2^q: the quotient, the remainder and its width. -/
def splitAt (m : Nat) (e q : Int) : Nat × Nat × Nat :=
  if q ≤ e then (m * 2 ^ (e - q).toNat, 0, 0) else (m / 2 ^ (q - e).toNat, m % 2 ^ (q - e).toNat, (q - e).toNat)

/-- Whether n × 2^q lies beyond the largest finite magnitude. -/
def FFmt.beyond (f : FFmt) (n : Nat) (q : Int) : Bool :=
  if n = 0 then false
  else
    let top := (Nat.log2 n : Int) + q
    decide (f.emax < top) || (!f.hasInf && top == f.emax && decide (2 ^ (f.fbits + 1) - 2 < n / 2 ^ (Nat.log2 n - f.fbits)))

/-- Rounds a magnitude once (R216), with the flags of R218. A sticky magnitude has at least 24 bits below the quantum. -/
def FFmt.round (f : FFmt) (mode : Mode) (neg : Bool) (m : Nat) (e : Int) (sticky : Bool) : FRes :=
  if m = 0 then ⟨f.zeroBits neg, 0, false⟩
  else
    let q := f.quantum m e
    let (lo, r, k) := splitAt m e q
    let n := if awayFromZero mode neg lo r k sticky then lo + 1 else lo
    let inexact := r != 0 || sticky
    if f.beyond n q then f.overflow mode neg
    else
      let top := (Nat.log2 m : Int) + e
      let tiny := decide (top < f.emin) && (
        let (lo', r', k') := splitAt m e (top - f.fbits)
        !(top == f.emin - 1 && awayFromZero mode neg lo' r' k' sticky && lo' + 1 == 2 ^ (f.fbits + 1)))
      ⟨f.pack neg n q, if inexact then (if tiny then flagUF ||| flagNX else flagNX) else 0, false⟩

/-- The magnitude rounded toward zero, moved by a number of units in the last place (R307): for a result that the specification bounds only. -/
def FFmt.roundFree (f : FFmt) (off : Int) (neg : Bool) (m : Nat) (e : Int) (sticky : Bool) : FRes :=
  if m = 0 then ⟨f.zeroBits neg, 0, false⟩
  else
    let q := f.quantum m e
    let (lo, r, _) := splitAt m e q
    if r = 0 && !sticky then f.round .rne neg m e sticky
    else
      let n := ((lo : Int) + off).toNat
      let top := (Nat.log2 m : Int) + e
      if f.beyond n q then ⟨f.infBits neg, flagOF ||| flagNX, false⟩
      else ⟨f.pack neg n q, if decide (top < f.emin) then flagUF ||| flagNX else flagNX, false⟩

/-! ## Sums and products of exact values -/

/-- A finite value as an integer multiple of 2^e, for an e that is not above its own. -/
def scaleTo (neg : Bool) (m : Nat) (e base : Int) : Int :=
  let x := m * 2 ^ (e - base).toNat
  if neg then -(x : Int) else x

/-- Rounds an exact integer multiple of 2^e that is not zero. -/
def FFmt.roundInt (f : FFmt) (mode : Mode) (x : Int) (e : Int) : FRes := f.round mode (decide (x < 0)) x.natAbs e false

def FVal.isNan : FVal → Bool
  | .nan _ => true
  | _ => false
def FVal.isSig : FVal → Bool
  | .nan sg => sg
  | _ => false
def FVal.isInf : FVal → Bool
  | .inf _ => true
  | _ => false
def FVal.isZero : FVal → Bool
  | .fin _ m _ => m == 0
  | _ => false
def FVal.neg? : FVal → Bool
  | .fin n _ _ => n
  | .inf n => n
  | .nan _ => false
def FVal.negate : FVal → FVal
  | .fin n m e => .fin (!n) m e
  | .inf n => .inf (!n)
  | x => x

/-- The sum of two exact values rounded once, with the signs of zeros of R211. -/
def FFmt.sum (f : FFmt) (mode : Mode) (a b : FVal) : FRes :=
  match a, b with
  | .nan _, _ | _, .nan _ => f.nan (a.isSig || b.isSig)
  | .inf x, .inf y => if x = y then f.infinite x else f.nan true
  | .inf x, _ => f.infinite x
  | _, .inf y => f.infinite y
  | .fin n m e, .fin n' m' e' =>
    let lo := min e e'
    let x := scaleTo n m e lo + scaleTo n' m' e' lo
    if x = 0 then
      ⟨f.zeroBits (if m = 0 && m' = 0 && n = n' then n else mode == .rdn), 0, false⟩
    else f.roundInt mode x lo

/-- The exact product of two values; the flag says that it is invalid. -/
def FVal.mul (a b : FVal) : FVal × Bool :=
  match a, b with
  | .nan x, _ => (.nan (x || b.isSig), false)
  | _, .nan y => (.nan y, false)
  | .inf x, .inf y => (.inf (x != y), false)
  | .inf x, .fin n m _ => if m = 0 then (.nan false, true) else (.inf (x != n), false)
  | .fin n m _, .inf y => if m = 0 then (.nan false, true) else (.inf (n != y), false)
  | .fin n m e, .fin n' m' e' => (.fin (n != n') (m * m') (e + e'), false)

def FFmt.product (f : FFmt) (mode : Mode) (a b : FVal) : FRes :=
  match a.mul b with
  | (.nan sg, inv) => f.nan (sg || inv)
  | (.inf x, _) => f.infinite x
  | (.fin n m e, _) => f.round mode n m e false

/-- c + a × b with one rounding. -/
def FFmt.fma (f : FFmt) (mode : Mode) (a b c : FVal) : FRes :=
  let (p, inv) := a.mul b
  if inv then f.nan true
  else
    let r := f.sum mode c p
    if c.isSig || a.isSig || b.isSig then f.nan true else r

/-- Order of two values: −0 equals +0, and a NaN is ordered with nothing (R211). -/
def FVal.lt (a b : FVal) : Bool :=
  match a, b with
  | .nan _, _ | _, .nan _ => false
  | .inf x, .inf y => x && !y
  | .inf x, _ => x
  | _, .inf y => !y
  | .fin n m e, .fin n' m' e' => decide (scaleTo n m e (min e e') < scaleTo n' m' e' (min e e'))
def FVal.eq (a b : FVal) : Bool := !a.isNan && !b.isNan && !a.lt b && !b.lt a

/-- minimumNumber and maximumNumber (R211) on patterns. -/
def FFmt.minMax (f : FFmt) (max? : Bool) (x y : Nat) : FRes :=
  let a := f.decode x
  let b := f.decode y
  let fl : FFlags := if a.isSig || b.isSig then flagNV else 0
  if a.isNan && b.isNan then ⟨f.nanBits, fl, false⟩
  else if a.isNan then ⟨y, fl, false⟩
  else if b.isNan then ⟨x, fl, false⟩
  else
    let less := a.lt b || (a.isZero && b.isZero && a.neg? && !b.neg?)
    ⟨if less != max? then x else y, fl, false⟩

/-! ## Conversions (R219, R303, R305, R306) -/

/-- A value rounded to an integer by a mode, away from any range. -/
def roundIntegral (mode : Mode) (neg : Bool) (m : Nat) (e : Int) : Int × Bool :=
  let (lo, r, k) := splitAt m e 0
  let n := if awayFromZero mode neg lo r k false then lo + 1 else lo
  (if neg then -(n : Int) else n, r != 0)

/-- A floating value to a signed n-bit integer (R219). A value that is clamped raises NV, and NX as its saturation changed it (R218). -/
def toIntegral (mode : Mode) (n : Nat) (a : FVal) : FRes :=
  match a with
  | .nan _ => ⟨0, flagNV, true⟩
  | .inf neg => ⟨if neg then 2 ^ (n - 1) else 2 ^ (n - 1) - 1, flagNV ||| flagNX, true⟩
  | .fin neg m e =>
    let (x, inexact) := roundIntegral mode neg m e
    let (y, sat) := clampS n x
    ⟨(y % 2 ^ n).toNat, if sat then flagNV ||| flagNX else if inexact then flagNX else 0, sat⟩

/-- A floating value to another format. -/
def FFmt.convert (f : FFmt) (mode : Mode) (a : FVal) : FRes :=
  match a with
  | .nan sg => f.nan sg
  | .inf neg => f.infinite neg
  | .fin neg m e => f.round mode neg m e false

/-- VRND (R306): an integral value of the same format. -/
def FFmt.integral (f : FFmt) (mode : Mode) (x : Nat) : FRes :=
  match f.decode x with
  | .nan sg => f.nan sg
  | .inf _ => ⟨x, 0, false⟩
  | .fin neg m e =>
    if m = 0 then ⟨x, 0, false⟩
    else
      let (y, inexact) := roundIntegral mode neg m e
      if !inexact then ⟨x, 0, false⟩ else ⟨(f.round .rne neg y.natAbs 0 false).bits, flagNX, false⟩

/-! ## Special functions (R307) -/

/-- The integer square root, by Newton's rule from above with a bound on the steps. -/
def isqrtStep : Nat → Nat → Nat → Nat
  | 0, _, x => x
  | fuel + 1, n, x =>
    let y := (x + n / x) / 2
    if y < x then isqrtStep fuel n y else x
def isqrt (n : Nat) : Nat := if n = 0 then 0 else isqrtStep (Nat.log2 n + 2) n (2 ^ (Nat.log2 n / 2 + 1))

/-- Working precision of the special functions. -/
def sfBits : Nat := 400

/-- 1 / (m × 2^e): a magnitude with `sfBits` bits to spare. -/
def recipMag (m : Nat) (e : Int) : Nat × Int × Bool :=
  let k := Nat.log2 m + sfBits
  (2 ^ k / m, -e - k, 2 ^ k % m != 0)

/-- √(m × 2^e). -/
def sqrtMag (m : Nat) (e : Int) : Nat × Int × Bool :=
  let m := if e % 2 = 0 then m else 2 * m
  let e := if e % 2 = 0 then e else e - 1
  let n := m * 2 ^ (2 * sfBits)
  let r := isqrt n
  (r, e / 2 - sfBits, r * r != n)

/-- 1 / √(m × 2^e). -/
def rsqrtMag (m : Nat) (e : Int) : Nat × Int × Bool :=
  let m := if e % 2 = 0 then m else 2 * m
  let e := if e % 2 = 0 then e else e - 1
  let k := Nat.log2 m + sfBits
  let r := isqrt (2 ^ (2 * k) / m)
  (r, -(e / 2) - k, r * r * m != 2 ^ (2 * k))

/-- The product of 2^(2^−i) over the set bits of a fraction, given from its highest bit: `root` is 2^(2^−i) with `sfBits` bits. -/
def exp2Bits (frac : Nat) : Nat → Nat → Nat → Nat
  | 0, _, acc => acc
  | n + 1, root, acc =>
    let root := isqrt (root * 2 ^ sfBits)
    let acc := if (frac / 2 ^ n) % 2 = 1 then acc * root / 2 ^ sfBits else acc
    exp2Bits frac n root acc

/-- 2^x for a finite x that is not an integer or is one: magnitude, exponent, inexact. The number of fraction bits is −e. -/
def exp2Mag (neg : Bool) (m : Nat) (e : Int) : Nat × Int × Bool :=
  if 0 ≤ e then (1, scaleTo neg m e 0, false)
  else
    let n := (-e).toNat
    let v := scaleTo neg m 0 0
    let i := v / 2 ^ n
    let frac := (v % 2 ^ n).toNat
    if frac = 0 then (1, i, false) else (exp2Bits frac n (2 * 2 ^ sfBits) (2 ^ sfBits), i - sfBits, true)

/-- Fraction bits of log2 y, y in [1, 2) with `prec` bits, by squaring. -/
def log2Bits (prec : Nat) : Nat → Nat → Nat → Nat
  | 0, _, acc => acc
  | n + 1, y, acc =>
    let y := y * y / 2 ^ prec
    if 2 ^ (prec + 1) ≤ y then log2Bits prec n (y / 2) (2 * acc + 1) else log2Bits prec n y (2 * acc)

/-- log2 (m × 2^e) for m > 0: sign, magnitude, exponent, inexact. -/
def log2Mag (m : Nat) (e : Int) : Bool × Nat × Int × Bool :=
  let l := Nat.log2 m
  let i := (l : Int) + e
  if m = 2 ^ l then (decide (i < 0), i.natAbs, 0, false)
  else
    let prec := 2 * sfBits
    let v := i * 2 ^ 160 + (log2Bits prec 160 (m * 2 ^ prec / 2 ^ l) 0 : Nat)
    if 0 ≤ v then (false, v.toNat, -160, true) else (true, (-v - 1).toNat, -160, true)

/-- The special functions. -/
inductive Sfu where
  | rcp
  | rsq
  | ex2
  | lg2
  | sqrt
  deriving DecidableEq, Repr

/-- Rounds the magnitude of a special function: correctly, or for f32 (VSQRT apart) within the bound of R307 by the part's offset. -/
def FFmt.sfRound (f : FFmt) (fn : Sfu) (mode : Mode) (x : Nat) (neg : Bool) (r : Nat × Int × Bool) : FRes :=
  let w := BitVec.ofNat 32 x
  let within (lo hi v : Int) : Int := max lo (min hi v)
  if f = fF32 then
    match fn with
    | .sqrt => f.round mode neg r.1 r.2.1 r.2.2
    | .rcp => f.roundFree (within 0 1 (Config.rcpUlp w)) neg r.1 r.2.1 r.2.2
    | .rsq => f.roundFree (within (-1) 2 (Config.rsqUlp w)) neg r.1 r.2.1 r.2.2
    | .ex2 => f.roundFree (within (-1) 2 (Config.ex2Ulp w)) neg r.1 r.2.1 r.2.2
    | .lg2 => f.roundFree (within (-1) 2 (Config.lg2Ulp w)) neg r.1 r.2.1 r.2.2
  else f.round mode neg r.1 r.2.1 r.2.2

/-- A special function of a pattern (R307). -/
def FFmt.special (f : FFmt) (fn : Sfu) (mode : Mode) (x : Nat) : FRes :=
  match fn, f.decode x with
  | _, .nan sg => f.nan sg
  | .rcp, .inf n => ⟨f.zeroBits n, 0, false⟩
  | .rsq, .inf n => if n then f.nan true else ⟨f.zeroBits false, 0, false⟩
  | .ex2, .inf n => if n then ⟨f.zeroBits false, 0, false⟩ else f.infinite false
  | .lg2, .inf n => if n then f.nan true else f.infinite false
  | .sqrt, .inf n => if n then f.nan true else f.infinite false
  | fn, .fin n m e =>
    if m = 0 then
      match fn with
      | .rcp | .rsq => ⟨f.infBits n, flagDZ, false⟩
      | .lg2 => ⟨f.infBits true, flagDZ, false⟩
      | .sqrt => ⟨x, 0, false⟩
      | .ex2 => f.round .rne false 1 0 false
    else
      match fn with
      | .rcp => f.sfRound fn mode x n (recipMag m e)
      | .rsq => if n then f.nan true else f.sfRound fn mode x false (rsqrtMag m e)
      | .sqrt => if n then f.nan true else f.sfRound fn mode x false (sqrtMag m e)
      | .lg2 =>
        if n then f.nan true
        else
          let (neg, mag, ex, st) := log2Mag m e
          f.sfRound fn mode x neg (mag, ex, st)
      | .ex2 =>
        -- beyond these bounds the result is infinite or rounds as the least magnitude does
        if (12 : Int) ≤ (Nat.log2 m : Int) + e then
          (if n then f.sfRound fn mode x false (2 ^ sfBits, -(5000 : Int) - sfBits, true)
           else f.sfRound fn mode x false (2 ^ sfBits, (5000 : Int) - sfBits, true))
        else f.sfRound fn mode x false (exp2Mag n m e)

/-! ## Sums that are exact with one rounding (R220) -/

/-- The exact sum of terms rounded once by RNE; +0 for a zero sum. -/
def FFmt.exactSum (f : FFmt) (terms : List FVal) : Nat :=
  if terms.any FVal.isNan || (terms.any (· == .inf false) && terms.any (· == .inf true)) then f.nanBits
  else if terms.any (· == .inf false) then f.infBits false
  else if terms.any (· == .inf true) then f.infBits true
  else
    let lo := terms.foldl (fun a t => match t with | .fin _ _ e => min a e | _ => a) (0 : Int)
    let x := terms.foldl (fun a t => match t with | .fin n m e => a + scaleTo n m e lo | _ => a) (0 : Int)
    if x = 0 then f.zeroBits false else (f.roundInt .rne x lo).bits

end Sys2Proof.Machine
end

