-- ==== Sys2Proof/Machine/Vector.lean ====
section
/-!
DEFINITION. The vector instructions that compute: VFA, VIA, VCMP, VXS, VPRM, VCVT and VSFU (R293 to R296, R299 to R307), with the
elements and their masks (R293), stochastic draws (R217), the reduction tree (R221) and the 4-bit blocks (R213 to R215).
-/

namespace Sys2Proof.Machine

/-! ## Elements (R293) -/

/-- Bits of an element of a type. -/
def elemBits (t : BitVec 3) : Nat := if t = 0 then 8 else if t = 2 || t = 6 then 32 else if t = 3 || t = 7 then 64 else 16
/-- A floating element type. -/
def isFloat (t : BitVec 3) : Bool := t.getLsbD 2
/-- Element j of n bits. -/
def elemOf (n : Nat) (l : Line) (j : Nat) : Nat := lineBits l (n * j) n
/-- The line with element j replaced. -/
def setElem (n : Nat) (l : Line) (j x : Nat) : Line :=
  (l &&& ~~~ (BitVec.ofNat 512 ((2 ^ n - 1) <<< (n * j)))) ||| BitVec.ofNat 512 ((x % 2 ^ n) <<< (n * j))
/-- Whether a mask makes element j of n bits active. -/
def activeElem (n : Nat) (km : BitVec 16) (j : Nat) : Bool := km.getLsbD (n * j / 32)
/-- A line from its elements in ascending order. -/
def lineOfElems (n : Nat) (xs : List Nat) : Line := BitVec.ofNat 512 (xs.foldr (fun x acc => x % 2 ^ n + 2 ^ n * acc) 0)
/-- A vector register of a thread. -/
def Thread.vreg (t : Thread) (n : BitVec 4) : Line := vget t.vec.v n.toNat 0

/-! ## Draws (R217) -/

/-- STEP: the new SRSEED, whose bits [63:40] are drawn. -/
def srStep (seed : Word) : Word :=
  let s := if seed = 0 then 0x9E37_79B9_7F4A_7C15 else seed
  let s := s ^^^ (s <<< 13)
  let s := s ^^^ (s >>> 7)
  s ^^^ (s <<< 17)

/-- The mode of one rounding, and SRSEED after it. -/
def drawMode (code : Nat) (seed : Word) : Mode × Word :=
  if code = 6 then (.sr (bitsOf (srStep seed) 40 24), srStep seed) else (modeOf code 0, seed)

/-! ## Elementwise results (R294, R296) -/

/-- What the elements so far have given: the line, flags, saturations, and SRSEED. -/
structure VAcc where
  line : Line
  flags : FFlags
  sat : Nat
  seed : Word

def VAcc.elem (n code : Nat) (f : Mode → Nat → FRes) (a : VAcc) (j : Nat) : VAcc :=
  let d := drawMode code a.seed
  let r := f d.1 j
  ⟨setElem n a.line j r.bits, a.flags ||| r.flags, a.sat + b2n r.sat, d.2⟩

/-- A function over the active elements of the first `count`, in ascending order; inactive ones keep their value. -/
def vecFold (n count : Nat) (active : Nat → Bool) (code : Nat) (old : Line) (seed : Word) (f : Mode → Nat → FRes) : VAcc :=
  (List.range count).foldl (fun a j => if active j then a.elem n code f j else a) ⟨old, 0, 0, seed⟩

/-- Flags, saturations and SRSEED reach the thread. -/
def Thread.absorb (t : Thread) (flags : FFlags) (sat : Nat) (seed : Word) : Thread :=
  let t := (t.raise flags).saturate sat
  { t with sys := { t.sys with srseed := seed } }

/-- Writes vector register d with the result of elements. -/
def vecDone (s : State) (uid : Nat) (d : BitVec 4) (a : VAcc) : Res :=
  .done ((s.putV uid d a.line).modThread uid fun t => t.absorb a.flags a.sat a.seed)

/-- An elementwise instruction on elements of n bits under a mask. -/
def vecOp (n : Nat) (k : BitVec 2) (d : BitVec 4) (code : Thread → Nat) (f : Thread → Mode → Nat → FRes) : Body := fun s uid t _ =>
  vecDone s uid d
    (vecFold n (512 / n) (activeElem n (t.kmask k.toNat)) (code t) (t.vreg d) t.sys.srseed (f t))

/-- A result without flags. -/
def plain (x : Nat) : FRes := ⟨x, 0, false⟩
/-- Integer instructions draw nothing. -/
def noDraw : Thread → Nat := fun _ => 1

/-! ## VFA (R299) -/

/-- A rounded floating operation on the elements of va, vb and vd. -/
def vfa (o : OpV) (f : FFmt → Mode → FVal → FVal → FVal → FRes) : Body :=
  let m := fmtOfCode o.t.toNat
  let n := elemBits o.t
  vecOp n o.k o.vd (fun t => m3Code o.m3 t.sys.frm) fun t mode j =>
    f m mode (m.decode (elemOf n (t.vreg o.va) j)) (m.decode (elemOf n (t.vreg o.vb) j)) (m.decode (elemOf n (t.vreg o.vd) j))

def execVfaVadd (o : OpV) (s : State) : Out := issue (.vfaVadd o) s (vfa o fun m mode a b _ => m.sum mode a b)
def execVfaVsub (o : OpV) (s : State) : Out := issue (.vfaVsub o) s (vfa o fun m mode a b _ => m.sum mode a b.negate)
def execVfaVmul (o : OpV) (s : State) : Out := issue (.vfaVmul o) s (vfa o fun m mode a b _ => m.product mode a b)
def execVfma (o : OpV) (s : State) : Out := issue (.vfma o) s (vfa o fun m mode a b c => m.fma mode a b c)

/-- minimumNumber and maximumNumber. -/
def vfaMinMax (o : OpVt) (max? : Bool) : Body :=
  let n := elemBits o.t
  vecOp n o.k o.vd noDraw fun t _ j => (fmtOfCode o.t.toNat).minMax max? (elemOf n (t.vreg o.va) j) (elemOf n (t.vreg o.vb) j)
def execVfaVmin (o : OpVt) (s : State) : Out := issue (.vfaVmin o) s (vfaMinMax o false)
def execVfaVmax (o : OpVt) (s : State) : Out := issue (.vfaVmax o) s (vfaMinMax o true)

/-- VABS and VNEG act on the sign bit. -/
def vfaSign (o : OpVabs) (f : Nat → Nat → Nat) : Body :=
  let n := elemBits o.t
  vecOp n o.k o.vd noDraw fun t _ j => plain (f n (elemOf n (t.vreg o.va) j))
def execVabs (o : OpVabs) (s : State) : Out := issue (.vabs o) s (vfaSign o fun n x => x % 2 ^ (n - 1))
def execVneg (o : OpVabs) (s : State) : Out := issue (.vneg o) s (vfaSign o fun n x => (x + 2 ^ (n - 1)) % 2 ^ n)

/-! ## VIA (R299) -/

/-- An integer operation on the elements of va, vb and vd. -/
def via (o : OpVt) (f : Nat → Nat → Nat → Nat → Nat) : Body :=
  let n := elemBits o.t
  vecOp n o.k o.vd noDraw fun t _ j =>
    plain (f n (elemOf n (t.vreg o.va) j) (elemOf n (t.vreg o.vb) j) (elemOf n (t.vreg o.vd) j))

def execViaVadd (o : OpVt) (s : State) : Out := issue (.viaVadd o) s (via o fun _ a b _ => a + b)
def execViaVsub (o : OpVt) (s : State) : Out := issue (.viaVsub o) s (via o fun n a b _ => a + (2 ^ n - b))
def execViaVmul (o : OpVt) (s : State) : Out := issue (.viaVmul o) s (via o fun _ a b _ => a * b)
def execVmad (o : OpVt) (s : State) : Out := issue (.vmad o) s (via o fun _ a b d => d + a * b)
def execVshl (o : OpVt) (s : State) : Out := issue (.vshl o) s (via o fun n a c _ => if n ≤ c then 0 else a * 2 ^ c)

/-- An integer operation that is unsigned with M3 = 001. -/
def viaSigned (o : OpV) (f : Nat → Bool → Nat → Nat → FRes) : Body :=
  let n := elemBits o.t
  vecOp n o.k o.vd noDraw fun t _ j => f n (o.m3 == 1) (elemOf n (t.vreg o.va) j) (elemOf n (t.vreg o.vb) j)

/-- Whether element a is below element b. -/
def elemLt (n : Nat) (unsigned : Bool) (a b : Nat) : Bool :=
  if unsigned then decide (a < b) else decide (toSigned n a < toSigned n b)

def execViaVmin (o : OpV) (s : State) : Out := issue (.viaVmin o) s (viaSigned o fun n u a b => plain (if elemLt n u a b then a else b))
def execViaVmax (o : OpV) (s : State) : Out := issue (.viaVmax o) s (viaSigned o fun n u a b => plain (if elemLt n u a b then b else a))

/-- The clamped sum of two elements. -/
def addClamped (n : Nat) (unsigned : Bool) (a b : Nat) : FRes :=
  let r := if unsigned then clampU n ((a + b : Nat) : Int) else clampS n (toSigned n a + toSigned n b)
  ⟨(r.1 % (2 ^ n : Nat)).toNat, 0, r.2⟩
def execVadds (o : OpV) (s : State) : Out := issue (.vadds o) s (viaSigned o addClamped)

/-- The right shift of an element: arithmetic when `arith`. -/
def elemShr (n : Nat) (arith : Bool) (a c : Nat) : FRes :=
  plain (if arith then ((toSigned n a / (2 ^ (min c n) : Nat)) % (2 ^ n : Nat)).toNat else if n ≤ c then 0 else a / 2 ^ c)
def execVshr (o : OpV) (s : State) : Out := issue (.vshr o) s (viaSigned o elemShr)

/-! ## VCMP (R300) -/

/-- The conditions of R300. -/
inductive VCond where
  | eq
  | ne
  | lt
  | le
  | gt
  | ge
  | unord
  deriving DecidableEq, Repr

def VCond.floats (c : VCond) (a b : FVal) : Bool :=
  match c with
  | .eq => a.eq b
  | .ne => !a.eq b
  | .lt => a.lt b
  | .le => a.lt b || a.eq b
  | .gt => b.lt a
  | .ge => b.lt a || a.eq b
  | .unord => a.isNan || b.isNan

def VCond.ints (c : VCond) (a b : Int) : Bool :=
  match c with
  | .eq => decide (a = b)
  | .ne => decide (a ≠ b)
  | .lt => decide (a < b)
  | .le => decide (a ≤ b)
  | .gt => decide (b < a)
  | .ge => decide (b ≤ a)
  | .unord => false

/-- The comparison of the elements j of two lines, and whether it raises NV. -/
def VCond.elem (c : VCond) (t : BitVec 3) (unsigned : Bool) (a b : Line) (j : Nat) : Bool × Bool :=
  let n := elemBits t
  let x := elemOf n a j
  let y := elemOf n b j
  if isFloat t then
    let m := fmtOfCode t.toNat
    (c.floats (m.decode x) (m.decode y), (m.decode x).isSig || (m.decode y).isSig)
  else if unsigned then (c.ints x y, false) else (c.ints (toSigned n x) (toSigned n y), false)

/-- The elements held in granule i: those of a type narrower than 32 bits, or the one that covers it. -/
def granuleElems (t : BitVec 3) (i : Nat) : List Nat :=
  let n := elemBits t
  if n ≤ 32 then (List.range (32 / n)).map fun e => i * (32 / n) + e else [i / 2]

/-- The new lane mask: granules whose bit in k is 0 keep theirs. -/
def vcmpMask (c : VCond) (t : BitVec 3) (unsigned : Bool) (a b : Line) (km old : BitVec 16) (mode : BitVec 2) : BitVec 16 :=
  (List.range 16).foldl (fun acc i =>
    if km.getLsbD i then
      let ci := (granuleElems t i).all fun j => (c.elem t unsigned a b j).1
      putBit acc i (if mode = 1 then old.getLsbD i && ci else if mode = 2 then old.getLsbD i || ci else ci)
    else acc) old

def vcmp (c : VCond) (mode kt : BitVec 2) (va vb : BitVec 4) (ty : BitVec 3) (k : BitVec 2) (unsigned : Bool) : Body := fun s uid t _ =>
  let a := t.vreg va
  let b := t.vreg vb
  let km := t.kmask k.toNat
  let n := elemBits ty
  let nv := (List.range (512 / n)).any fun j => activeElem n km j && (c.elem ty unsigned a b j).2
  let m := vcmpMask c ty unsigned a b km (t.kmask kt.toNat) mode
  .done (s.modThread uid fun t => { t with regs := t.regs.setMask kt.toNat m }.raise (if nv then flagNV else 0))

def vcmpOp (c : VCond) (o : OpVcmp) : Body := vcmp c o.mode o.kt o.va o.vb o.t o.k (o.m3 == 1)
def execVcmpEq (o : OpVcmp) (s : State) : Out := issue (.vcmpEq o) s (vcmpOp .eq o)
def execVcmpNe (o : OpVcmp) (s : State) : Out := issue (.vcmpNe o) s (vcmpOp .ne o)
def execVcmpLt (o : OpVcmp) (s : State) : Out := issue (.vcmpLt o) s (vcmpOp .lt o)
def execVcmpLe (o : OpVcmp) (s : State) : Out := issue (.vcmpLe o) s (vcmpOp .le o)
def execVcmpGt (o : OpVcmp) (s : State) : Out := issue (.vcmpGt o) s (vcmpOp .gt o)
def execVcmpGe (o : OpVcmp) (s : State) : Out := issue (.vcmpGe o) s (vcmpOp .ge o)
def execVcmpUnord (o : OpVcmpU) (s : State) : Out := issue (.vcmpUnord o) s (vcmp .unord o.mode o.kt o.va o.vb o.t o.k false)

/-! ## VXS (R301, R221) -/

/-- What the nodes of a reduction have given: flags and SRSEED. -/
structure TreeAcc where
  flags : FFlags
  seed : Word

/-- One level of the tree: neighbours combine, in ascending node index. -/
def treeLevel (code : Nat) (f : Mode → Nat → Nat → FRes) : List Nat → TreeAcc → List Nat × TreeAcc
  | x :: y :: rest, acc =>
    let d := drawMode code acc.seed
    let r := f d.1 x y
    let (zs, acc) := treeLevel code f rest ⟨acc.flags ||| r.flags, d.2⟩
    (r.bits :: zs, acc)
  | xs, acc => (xs, acc)

/-- The levels of the tree. -/
def tree (code : Nat) (f : Mode → Nat → Nat → FRes) : Nat → List Nat → TreeAcc → Nat × TreeAcc
  | 0, xs, acc => (xs.headD 0, acc)
  | fuel + 1, xs, acc =>
    let (ys, acc) := treeLevel code f xs acc
    tree code f fuel ys acc

/-- The elements that enter a reduction: an inactive one as the identity (R221). -/
def reduceLeaves (n : Nat) (km : BitVec 16) (ident : Nat) (g : Nat → Nat) (l : Line) : List Nat :=
  (List.range (512 / n)).map fun j => if activeElem n km j then g (elemOf n l j) else ident

/-- A reduction into g[D]: floating nodes on patterns, integer nodes on 64-bit words of the sign-extended elements. -/
def vecReduce (d : BitVec 6) (va : BitVec 4) (k : BitVec 2) (ty : BitVec 3) (code : Thread → Nat) (identF identI : Nat → Nat)
    (fF : FFmt → Mode → Nat → Nat → FRes) (fI : Word → Word → Word) : Body := fun s uid t _ =>
  let n := elemBits ty
  let km := t.kmask k.toNat
  let m := fmtOfCode ty.toNat
  let leaves := reduceLeaves n km (if isFloat ty then identF n else identI n)
    (fun x => if isFloat ty then x else (signExt n x).toNat) (t.vreg va)
  let f := if isFloat ty then fF m else fun _ x y => plain (fI (BitVec.ofNat 64 x) (BitVec.ofNat 64 y)).toNat
  let (r, acc) := tree (if isFloat ty then code t else 1) f 6 leaves ⟨0, t.sys.srseed⟩
  .done ((s.putD s.cur uid d (BitVec.ofNat 64 r)).modThread uid fun t => t.absorb acc.flags 0 acc.seed)

/-- Patterns of −0, −∞ and +∞ of n-bit floating types need the format; for integers the extremes are sign-extended. -/
def identNegZero (n : Nat) : Nat := 2 ^ (n - 1)

def execVredadd (o : OpVredadd) (s : State) : Out :=
  issue (.vredadd o) s
    (vecReduce o.d o.va o.k o.t (fun t => m3Code o.rnd t.sys.frm) identNegZero (fun _ => 0)
      (fun m mode x y => m.sum mode (m.decode x) (m.decode y)) (· + ·))

def execVredmax (o : OpVred) (s : State) : Out :=
  issue (.vredmax o) s
    (vecReduce o.d o.va o.k o.t noDraw (fun _ => (fmtOfCode o.t.toNat).infBits true) (fun n => (signExt n (2 ^ (n - 1))).toNat)
      (fun m _ x y => m.minMax true x y) maxS)

def execVredmin (o : OpVred) (s : State) : Out :=
  issue (.vredmin o) s
    (vecReduce o.d o.va o.k o.t noDraw (fun _ => (fmtOfCode o.t.toNat).infBits false) (fun n => 2 ^ (n - 1) - 1)
      (fun m _ x y => m.minMax false x y) minS)

/-- An element as a word: sign-extended, or zero-extended bits of a floating type. -/
def elemWord (t : BitVec 3) (x : Nat) : Word := if isFloat t then BitVec.ofNat 64 x else signExt (elemBits t) x

def execVext (o : OpVidx) (s : State) : Out :=
  issue (.vext o) s fun s uid t _ => .done (s.putD s.cur uid o.d (elemWord o.t (elemOf (elemBits o.t) (t.vreg o.va) o.imm.toNat)))

def execVins (o : OpVidx) (s : State) : Out :=
  issue (.vins o) s fun s uid t vals =>
    .done (s.putV uid o.va (setElem (elemBits o.t) (t.vreg o.va) o.imm.toNat (vals.getD 0 0).toNat))

def execVbcst (o : OpVred) (s : State) : Out :=
  issue (.vbcst o) s fun s uid t vals =>
    let n := elemBits o.t
    vecDone s uid o.va (vecFold n (512 / n) (activeElem n (t.kmask o.k.toNat)) 1 (t.vreg o.va) t.sys.srseed
      fun _ _ => plain (vals.getD 0 0).toNat)

/-- The exact sum over active bytes of va[j] × byte (j mod 8) of g[D]. -/
def dot8 (l : Line) (w : Word) (km : BitVec 16) : Int :=
  (List.range 64).foldl (fun a j =>
    if activeElem 8 km j then a + toSigned 8 (elemOf 8 l j) * toSigned 8 (bitsOf w (8 * (j % 8)) 8) else a) 0

def execVdot8 (o : OpVdot) (s : State) : Out :=
  issue (.vdot8 o) s fun s uid t vals =>
    let w := vals.getD 0 0
    .done (s.putD s.cur uid o.d (w + BitVec.ofInt 64 (dot8 (t.vreg o.va) w (t.kmask o.k.toNat))))

def execVpopk (o : OpVpopk) (s : State) : Out :=
  issue (.vpopk o) s fun s uid t _ =>
    let n := elemBits o.t
    .done (s.putD s.cur uid o.d (BitVec.ofNat 64 ((List.range (512 / n)).countP (activeElem n (t.kmask o.k.toNat)))))

/-! ## VPRM (R302) -/

/-- VSEL writes every granule. -/
def execVsel (o : OpVlog) (s : State) : Out :=
  issue (.vsel o) s fun s uid t _ =>
    .done (s.putV uid o.vd (lineMerge (t.vreg o.vb) (t.vreg o.va) (BitVec.ofNat 64
      ((List.range 16).foldl (fun a i => a + if (t.kmask o.k.toNat).getLsbD i then 15 * 2 ^ (4 * i) else 0) 0))))

/-- A permutation: element j of the result by the lines of va and vb and the element count. -/
def vprm (n : Nat) (k : BitVec 2) (vd va vb : BitVec 4) (f : Nat → Line → Line → Nat → Nat) : Body :=
  vecOp n k vd noDraw fun t _ j => plain (f (512 / n) (t.vreg va) (t.vreg vb) j)

def execVshuf (o : OpVt) (s : State) : Out :=
  let n := elemBits o.t
  issue (.vshuf o) s (vprm n o.k o.vd o.va o.vb fun count a b j => elemOf n a (elemOf n b j % count))

def execVzip (o : OpV) (s : State) : Out :=
  let n := elemBits o.t
  issue (.vzip o) s (vprm n o.k o.vd o.va o.vb fun count a b j =>
    let h := if o.m3 = 1 then count / 2 else 0
    elemOf n (if j % 2 = 0 then a else b) (h + j / 2))

def execVunzip (o : OpV) (s : State) : Out :=
  let n := elemBits o.t
  issue (.vunzip o) s (vprm n o.k o.vd o.va o.vb fun count a b j =>
    let odd := if o.m3 = 1 then 1 else 0
    if j < count / 2 then elemOf n a (2 * j + odd) else elemOf n b (2 * (j - count / 2) + odd))

/-- Bitwise operations on active granules. -/
def vlogic (o : OpVlog) (f : Nat → Nat → Nat) : Body := vprm 32 o.k o.vd o.va o.vb fun _ a b j => f (elemOf 32 a j) (elemOf 32 b j)
def execVand (o : OpVlog) (s : State) : Out := issue (.vand o) s (vlogic o (· &&& ·))
def execVor (o : OpVlog) (s : State) : Out := issue (.vor o) s (vlogic o (· ||| ·))
def execVxor (o : OpVlog) (s : State) : Out := issue (.vxor o) s (vlogic o (· ^^^ ·))

/-! ## VCVT (R303 to R306) -/

/-- The format code of an M3 destination (R242). -/
def cvtDest (m3 : BitVec 3) : Nat := if m3 = 0 then 0 else if m3 = 1 then 1 else if m3 = 2 then 2 else if m3 ≤ 5 then m3.toNat + 1 else m3.toNat + 2
/-- Bits of an element of a format code. -/
def codeBits (c : Nat) : Nat := if c ≤ 7 then elemBits (BitVec.ofNat 3 c) else 8

/-- One element of a source type to a destination format. -/
def convertElem (src : BitVec 3) (dst : Nat) (mode : Mode) (x : Nat) : FRes :=
  let v : FVal :=
    if isFloat src then (fmtOfCode src.toNat).decode x
    else
      let i := toSigned (elemBits src) x
      .fin (decide (i < 0)) i.natAbs 0
  if dst ≤ 2 then toIntegral mode (codeBits dst) v else (fmtOfCode dst).convert mode v

def execCvt (o : OpVcvt) (s : State) : Out :=
  issue (.cvt o) s fun s uid t _ =>
    let dst := cvtDest o.m3
    let ns := elemBits o.t
    let nd := codeBits dst
    let wide := max ns nd
    let old := if nd < wide then t.vreg o.vd &&& BitVec.ofNat 512 (2 ^ (nd * (512 / wide)) - 1) else t.vreg o.vd
    vecDone s uid o.vd (vecFold nd (512 / wide) (activeElem wide (t.kmask o.k.toNat)) (frmCode t.sys.frm) old t.sys.srseed
      fun mode j => convertElem o.t dst mode (elemOf ns (t.vreg o.va) j))

/-- Magnitudes of the codes 0 to 7 of a block type, times 8 (R214). -/
def codeMags (ty : Nat) : List Nat :=
  if ty = 0 then [0, 8, 16, 24, 32, 40, 48, 56]
  else if ty = 1 then [0, 4, 8, 12, 16, 24, 32, 48]
  else if ty = 2 then [0, 1, 2, 4, 8, 16, 32, 64]
  else [0, 8, 16, 24, 32, 64, 128, 256]

/-- The code of a magnitude index with a sign; a zero is always 0000. -/
def codeOf (ty idx : Nat) (neg : Bool) : Nat := if !neg || idx = 0 then idx else if ty = 0 then 16 - idx else 8 + idx
/-- Magnitude index and sign of a code. -/
def codeIdx (ty c : Nat) : Nat × Bool :=
  if c < 8 then (c, false) else if c = 8 then (0, false) else if ty = 0 then (16 - c, true) else (c - 8, true)

/-- The value of a code under a scale byte, as an exact value (R214). -/
def blockValue (scale c : Nat) : FVal :=
  let ty := scale / 64
  let (i, neg) := codeIdx ty c
  .fin neg ((codeMags ty).getD i 0) ((scale % 64 : Nat) - 35)

/-- The index of the magnitude nearest to num / den, a tie going to the even index. -/
def nearestIdx (mags : List Nat) (num den : Nat) : Nat :=
  let dist (i : Nat) : Nat := let c := mags.getD i 0 * den; if c ≤ num then num - c else c - num
  (List.range 8).foldl (fun best i => if dist i < dist best || (dist i = dist best && i % 2 = 0 && best % 2 = 1) then i else best) 0

/-- The exponent of a block (R215). -/
def blockExp (ty : Nat) (xs : List FVal) : Nat :=
  if xs.any FVal.isInf then 63
  else
    let emax : Int := if ty = 2 then 3 else if ty = 3 then 5 else 2
    let logs := xs.filterMap fun x => match x with
      | .fin _ m e => if m = 0 then none else some ((Nat.log2 m : Int) + e)
      | _ => none
    match logs with
    | [] => 0
    | l :: rest => (max 0 (min 63 (rest.foldl max l - emax + 32))).toNat

/-- The code of one input (R215). -/
def blockCode (ty exp : Nat) (x : FVal) : FRes :=
  let mags := codeMags ty
  match x with
  | .nan _ => ⟨0, flagNV, false⟩
  | .inf neg => ⟨codeOf ty 7 neg, flagNV ||| flagNX, true⟩
  | .fin neg m e =>
    let sh : Int := e - exp + 35
    let num := m * 2 ^ sh.toNat
    let den := 2 ^ (-sh).toNat
    if mags.getD 7 0 * den < num then ⟨codeOf ty 7 neg, flagNX, true⟩
    else
      let i := nearestIdx mags num den
      ⟨codeOf ty i neg, if mags.getD i 0 * den = num then 0 else flagNX, false⟩

def execQblk (o : OpQblk) (s : State) : Out :=
  issue (.qblk o) s fun s uid t _ =>
    let n := elemBits o.t
    let m := fmtOfCode o.t.toNat
    let lines := if o.t = 6 then [t.vreg o.va, t.vreg (o.va + 1)] else [t.vreg o.va]
    let xs := lines.flatMap fun l => (List.range (512 / n)).map fun j => m.decode (elemOf n l j)
    let exp := blockExp o.typ.toNat xs
    let codes := xs.map (blockCode o.typ.toNat exp)
    let l := lineOfElems 4 (codes.map (·.bits)) ||| BitVec.ofNat 512 ((o.typ.toNat * 64 + exp) * 2 ^ 128)
    vecDone s uid o.vd ⟨l, codes.foldl (fun a r => a ||| r.flags) 0, codes.countP (·.sat), t.sys.srseed⟩

def execDqblk (o : OpDqblk) (s : State) : Out :=
  issue (.dqblk o) s fun s uid t _ =>
    let n := elemBits o.t
    let src := t.vreg o.va
    let rs := (List.range 32).map fun j => (fmtOfCode o.t.toNat).convert .rne (blockValue (elemOf 8 src 16) (elemOf 4 src j))
    let flags := rs.foldl (fun a r => a ||| r.flags) 0
    let s := if o.t = 6 then s.putV uid (o.vd + 1) (lineOfElems n ((rs.drop 16).map (·.bits))) else s
    vecDone s uid o.vd ⟨lineOfElems n ((rs.take (512 / n)).map (·.bits)), flags, 0, t.sys.srseed⟩

def execVrnd (o : OpVcvt) (s : State) : Out :=
  let n := elemBits o.t
  issue (.vrnd o) s (vecOp n o.k o.vd (fun t => m3Code o.m3 t.sys.frm) fun t mode j =>
    (fmtOfCode o.t.toNat).integral mode (elemOf n (t.vreg o.va) j))

/-! ## VSFU (R307) -/

def vsfu (fn : Sfu) (o : OpVcvt) : Body :=
  let n := elemBits o.t
  vecOp n o.k o.vd (fun t => m3Code o.m3 t.sys.frm) fun t mode j => (fmtOfCode o.t.toNat).special fn mode (elemOf n (t.vreg o.va) j)
def execVrcp (o : OpVcvt) (s : State) : Out := issue (.vrcp o) s (vsfu .rcp o)
def execVrsq (o : OpVcvt) (s : State) : Out := issue (.vrsq o) s (vsfu .rsq o)
def execVex2 (o : OpVcvt) (s : State) : Out := issue (.vex2 o) s (vsfu .ex2 o)
def execVlg2 (o : OpVcvt) (s : State) : Out := issue (.vlg2 o) s (vsfu .lg2 o)
def execVsqrt (o : OpVcvt) (s : State) : Out := issue (.vsqrt o) s (vsfu .sqrt o)

end Sys2Proof.Machine
end

