-- ==== Sys2Proof/Machine/Matrix.lean ====
section
/-!
DEFINITION. The matrix unit (R308 to R320): format shadows, weight slots, MLDW, MMA, MMAZ, MST, MHINT, MFMT and MRD, and the steps of the
unit. Its states change as R317 gives, and a job reads and writes its words in ascending order, at most 32 in a cycle.
-/

namespace Sys2Proof.Machine

/-! ## Format shadows (R310 to R312) -/

/-- FMT, SPLANE as a segment offset, and SCALE of a descriptor word (R310). -/
def descrFmt (w : Word) : BitVec 4 := w.extractLsb' 0 4
def descrSplane (w : Word) : Nat := bitsOf w 6 18 * 64
def descrScale (w : Word) : BitVec 32 := w.extractLsb' 32 32

/-- Reads word 0 of a descriptor as VLDG reads (R297, R78): from the near cache at once, or by a request while the seat is out of the rotation. -/
def readDescr (s : State) (seat uid : Nat) (t : Thread) (va fs : Nat) (use : DescrUse) (got : State → Word → Res) : Res :=
  let r := { Req.make s seat uid t (.descr fs use) va 64 with mask := BitVec.allOnes 64 }
  if t.occupies (.global (lineOf va)) then .park else
  match s.ncLoad uid (clusterOf (coreOf seat)) t.asid va r.mask with
  | some (s, l) =>
    if l.poison.getLsbD 0 then .trap 0x10 0x03 (BitVec.ofNat 64 va) else got (s.countEv seat 5 1) (lineWord l.data 0)
  | none =>
    if s.mustWait seat t va then .park else
    let (s, id) := (s.countEv seat 6 1).sendReq r
    let s := (s.modSeat seat fun x => { x with off := some (.descriptor id) }).modThread uid fun t => { t with park := t.park.enter s.cycle }
    if use = .mfmt then .leave s else .parkIn s

/-- Sets a shadow and its copy. -/
def Thread.setFs (t : Thread) (fs : Nat) (va : Word) (w : Word) : Thread :=
  { t with sys := { t.sys with fs := vset t.sys.fs fs va }, fsCopy := vset t.fsCopy fs (.word w) }

/-- The copy of a shadow as an instruction reads it (R311). A pending copy is read again first. -/
def withFs (fs : Nat) (s : State) (uid : Nat) (t : Thread) (f : Word → Res) : Res :=
  let va := vget t.sys.fs fs 0
  match vget t.fsCopy fs .invalid with
  | .word w => if 10 < (descrFmt w).toNat then .trap 0x01 0x08 (BitVec.ofNat 64 (descrFmt w).toNat) else f w
  | .invalid => .trap 0x01 0x08 15
  | .faulted b => .trap 0x06 b va
  | .pending =>
    readDescr s s.cur uid t va.toNat fs .again fun s w => .parkIn (s.modThread uid fun t => t.setFs fs va w)

/-- MFMT (R312). -/
def execMfmt (o : OpMfmt) (s : State) : Out :=
  issue (.mfmt o) s fun s uid t vals =>
    let va := vals.getD 0 0
    match checkGlobal va 64 with
    | .trap c b v => .trap c b v
    | _ =>
      readDescr s s.cur uid t va.toNat o.n.toNat .mfmt fun s w =>
        if 10 < (descrFmt w).toNat then .trap 0x01 0x08 (BitVec.ofNat 64 (descrFmt w).toNat)
        else .done (s.modThread uid fun t => t.setFs o.n.toNat va w)

/-- What a descriptor read has brought to a thread whose seat waits for it. -/
def State.descrWaited (s : State) (seat uid fs : Nat) (va : Word) (mfmt : Bool) (a : Answer) : State :=
  let s := s.modSeat seat fun x => { x with off := none }
  match a with
  | .data d p _ _ _ =>
    let w := lineWord d 0
    if p.getLsbD 0 then s.trapDue seat 0x10 0x03 va
    else if mfmt && decide (10 < (descrFmt w).toNat) then s.trapDue seat 0x01 0x08 (BitVec.ofNat 64 (descrFmt w).toNat)
    else
      let s := s.modThread uid fun t => t.setFs fs va w
      if mfmt then retire s seat uid else s
  | .fault c b => s.trapDue seat c b va
  | _ => s

/-- What the read of a descriptor at thread start leaves in the copy (R311). -/
def startCopy : Answer → FsCopy
  | .data d p _ _ _ => if p.getLsbD 0 then .pending else .word (lineWord d 0)
  | .fault 0x06 b => .faulted b
  | .absent => .pending
  | _ => .pending

/-- The answer to the start read of a descriptor (R311). One that comes after the shadow has been set anew, or its copy taken again, says nothing more. -/
def Thread.startRead (t : Thread) (fs : Nat) (va : Word) (a : Answer) : Thread :=
  if vget t.fsCopy fs .invalid = .pending ∧ vget t.sys.fs fs 0 = va then { t with fsCopy := vset t.fsCopy fs (startCopy a) } else t

/-- The line of a descriptor read by an anchored thread passes the egress of its cluster as that of a VLDG does (R75, R312). -/
def State.descrLine (s : State) (r : Req) (a : Answer) : State × Answer :=
  match a with
  | .data d p rd w nc =>
    if r.anchored then
      let (s, l, m) := s.lineArrives r d p w nc
      (s, .data l m rd w nc)
    else (s, a)
  | _ => (s, a)

/-- DESCRIPTOR_ARRIVAL: word 0 of a descriptor, or a fault, reaches the seat (R311, R312). -/
def execDescriptorArrival (req : Nat) (s : State) : Out :=
  match s.req? req with
  | none => .next s
  | some r =>
    match r.op, r.answer, r.uid with
    | .descr fs use, some a, some uid =>
      let (s, a) := (s.dropReq req).descrLine r a
      let va := BitVec.ofNat 64 r.addr
      match use with
      | .start => .next (s.modThread uid fun t => t.startRead fs va a)
      | .mfmt => if (s.seat r.seat).off = some (.descriptor req) then .next (s.descrWaited r.seat uid fs va true a) else .next s
      | .again => if (s.seat r.seat).off = some (.descriptor req) then .next (s.descrWaited r.seat uid fs va false a) else .next s
    | _, _, _ => .next s

/-! ## Operands (R313) -/

def fmtF64 : BitVec 4 := 7
def fmtBlk : BitVec 4 := 10
/-- Formats of the operand pairs. -/
def matrixFmt (f : BitVec 4) : Bool := [7, 4, 5, 8, 9, 0, 10].contains f.toNat
/-- The pair of an A and a B format is one of R313. -/
def pairOk (a b : BitVec 4) : Bool :=
  matrixFmt a && (a == b || ((a == 8 || a == 9) && (b == 8 || b == 9)))
/-- A bytes of a step, and its scale bytes. -/
def aBytes (f : BitVec 4) : Nat := if f = fmtF64 then 256 else 512
def aScale (f : BitVec 4) : Nat := if f = fmtBlk then 32 else 0
/-- Bytes of an unexpanded B frame. -/
def frameBytes (f : BitVec 4) : Nat := if f = fmtF64 then 256 else if f = fmtBlk then 544 else 512
/-- Bytes of an element, and the K-step. -/
def fmtSize (f : BitVec 4) : Nat := if f = fmtF64 then 8 else if f = 4 || f = 5 then 2 else 1
def kStepOf (f : BitVec 4) : Nat := if f = fmtF64 then 4 else if f = 4 || f = 5 then 16 else if f = fmtBlk then 64 else 32
/-- M and N. -/
def tileDim (f : BitVec 4) : Nat := if f = fmtF64 then 8 else 16

/-- n bytes at a byte position of a number. -/
def bytesAt (x pos n : Nat) : Nat := (x >>> (8 * pos)) % 2 ^ (8 * n)
/-- A list of bytes as a number, the first lowest. -/
def bytesNum (l : List Byte) : Nat := l.foldr (fun b acc => b.toNat + 256 * acc) 0

/-- The value of an element of a format. -/
def elemVal (f : BitVec 4) (x : Nat) : FVal :=
  if f = 0 then let i := toSigned 8 x; .fin (decide (i < 0)) i.natAbs 0 else (fmtOfCode f.toNat).decode x

/-- A value of a 4-bit block of an operand, from codes packed along K. -/
def blockElem (codes scales row bytesPerRow scaleRow k : Nat) : FVal :=
  let byte := bytesAt codes (row * bytesPerRow + k / 2) 1
  blockValue (bytesAt scales (scaleRow + k / 32) 1) (if k % 2 = 0 then byte % 16 else byte / 16)

/-- Element (m, k) of a step of A. -/
def aElem (f : BitVec 4) (data scales m k : Nat) : FVal :=
  if f = fmtBlk then blockElem data scales m 32 (2 * m) k
  else elemVal f (bytesAt data ((m * kStepOf f + k) * fmtSize f) (fmtSize f))

/-! ## Weight slots (R314) -/

/-- Elements of a frame. -/
def frameElems (f : BitVec 4) : Nat := frameBytes f / fmtSize f

/-- Bits set in the first n bits of a number. -/
def countBits : Nat → Nat → Nat
  | 0, _ => 0
  | n + 1, x => x % 2 + countBits n (x / 2)

/-- Bytes of the `zmask` record that starts a list: its bitmaps, its elements, the padding. -/
def zmaskRecord (f : BitVec 4) (l : List Byte) : Nat :=
  let maps := frameElems f / 8
  let bytes := maps + countBits (frameElems f) (bytesNum (l.take maps)) * fmtSize f
  (bytes + 63) / 64 * 64

/-- Bytes that `steps` records take, as far as those read tell: when bitmaps are still missing, up to the end of the next ones. -/
def zmaskNeed (f : BitVec 4) : Nat → List Byte → Nat
  | 0, _ => 0
  | n + 1, l =>
    let maps := frameElems f / 8
    if l.length < maps then maps
    else
      let r := zmaskRecord f l
      if l.length < r then r else r + zmaskNeed f n (l.drop r)

/-- Source bytes of an MLDW, as far as those read tell. -/
def mldwNeed (mode : BitVec 2) (f : BitVec 4) (steps : Nat) (l : List Byte) : Nat :=
  if mode = 0 then steps * frameBytes f else if mode = 1 then zmaskNeed f steps l else (steps + 1) / 2 * 320

/-- The expanded frame of a `zmask` record: elements whose bit is clear are zero. -/
def zmaskExpand (size : Nat) : Nat → Nat → List Byte → Nat → Nat
  | 0, _, _, _ => 0
  | n + 1, maps, l, place =>
    if maps % 2 = 1 then bytesNum (l.take size) * 2 ^ (8 * place) + zmaskExpand size n (maps / 2) (l.drop size) (place + size)
    else zmaskExpand size n (maps / 2) l (place + size)

/-- The bytes of record j of a `zmask` slot. -/
def zmaskAt (f : BitVec 4) : Nat → List Byte → List Byte
  | 0, l => l
  | n + 1, l => zmaskAt f n (l.drop (zmaskRecord f l))

/-- Frame j of a slot as a number; for mode 2 the pair record that holds it. -/
def SlotRec.frame (r : SlotRec) (j : Nat) : Nat :=
  if r.mode = 0 then bytesNum ((r.bytes.drop (j * frameBytes r.fmt)).take (frameBytes r.fmt))
  else if r.mode = 1 then
    let l := zmaskAt r.fmt j r.bytes
    let maps := frameElems r.fmt / 8
    zmaskExpand (fmtSize r.fmt) (frameElems r.fmt) (bytesNum (l.take maps)) (l.drop maps) 0
  else bytesNum ((r.bytes.drop (j / 2 * 320)).take 320)

/-- Element (k, n) of B at step j. -/
def SlotRec.elem (r : SlotRec) (frame j k n : Nat) : FVal :=
  if r.mode = 2 then
    let k := j % 2 * 16 + k
    let byte := bytesAt frame (16 * n + k / 2) 1
    blockValue (bytesAt frame (256 + n) 1) (if k % 2 = 0 then byte % 16 else byte / 16)
  else if r.fmt = fmtBlk then blockElem frame frame n 32 (512 + 2 * n) k
  else elemVal r.fmt (bytesAt frame ((n * kStepOf r.fmt + k) * fmtSize r.fmt) (fmtSize r.fmt))

/-! ## Accumulators (R203, R313, R220) -/

def accElem (acc : BitVec 8192) (n j : Nat) : Nat := (acc.toNat >>> (n * j)) % 2 ^ n
/-- The accumulator with its first `count` elements of n bits replaced. -/
def accSet (acc : BitVec 8192) (n count : Nat) (f : Nat → Nat) : BitVec 8192 :=
  let low := (List.range count).foldr (fun j x => (f j % 2 ^ n) + 2 ^ n * x) 0
  BitVec.ofNat 8192 (acc.toNat / 2 ^ (n * count) * 2 ^ (n * count) + low)

/-- The accumulator type of a pair. -/
def accTag (f : BitVec 4) : AccTag := if f = fmtF64 then .fp64 else if f = 0 then .int32 else .fp32
def accBits (g : AccTag) : Nat := if g = .fp64 then 64 else 32
def accCount (g : AccTag) : Nat := if g = .fp64 then 64 else 256

/-- A finite value that is an integer, as one. -/
def FVal.toInt : FVal → Int
  | .fin neg m e => scaleTo neg m e 0
  | _ => 0

/-- One element after a K-step (R220): its new bits, and whether it was clamped. -/
def kElem (f : BitVec 4) (old : Nat) (pairs : List (FVal × FVal)) : Nat × Bool :=
  if f = fmtF64 then (pairs.foldl (fun acc p => (fF64.fma .rne p.1 p.2 (fF64.decode acc)).bits) old, false)
  else if f = 0 then
    let r := clampS 32 (pairs.foldl (fun a p => a + p.1.toInt * p.2.toInt) (toSigned 32 old))
    ((r.1 % (2 ^ 32 : Nat)).toNat, r.2)
  else
    let terms := pairs.map fun p => if (p.1.mul p.2).2 then FVal.nan false else (p.1.mul p.2).1
    (fF32.exactSum (fF32.decode old :: terms), false)

/-- The accumulator after a K-step, and the elements clamped. -/
def kCombine (f : BitVec 4) (acc : BitVec 8192) (data scales : Nat) (r : SlotRec) (j : Nat) : BitVec 8192 × Nat :=
  let d := tileDim f
  let frame := r.frame j
  let n := accBits (accTag f)
  let els := (List.range (d * d)).map fun e =>
    kElem f (accElem acc n e) ((List.range (kStepOf f)).map fun k => (aElem f data scales (e / d) k, r.elem frame j k (e % d)))
  (accSet acc n (d * d) (fun e => (els.getD e (0, false)).1), els.countP (·.2))

/-! ## Jobs of the unit (R309) -/

def State.tileOfSeat (seat : Nat) : Nat := tileOf (coreOf seat)

/-- Hands a job to the unit: the seat leaves the rotation (R309). -/
def sendJob (s : State) (seat uid : Nat) (op : MuOp) (o : Word) : Res :=
  let x := s.seat seat
  let job : MuJob := ⟨seat, uid, op, o, x.lbase.toNat + o.toNat, x.segLen, 0, false, s.cycle, none, 0, [], none, none, []⟩
  let tile := State.tileOfSeat seat
  .leave (((s.modTile tile fun t => { t with jobs := t.jobs ++ [job] }).modSeat seat fun x => { x with off := some .matrix }).addWork 1
    (.matrixUnitTake tile))

/-- A 64-byte aligned offset. -/
def aligned64 (o : Word) (r : Res) : Res := if o.toNat % 64 ≠ 0 then .trap 0x04 (Config.openSub 0x04) o else r

/-- The FS1 format that a mode accepts. -/
def mldwAccepts (mode : BitVec 2) (f : BitVec 4) : Bool :=
  if mode = 0 then matrixFmt f else if mode = 1 then matrixFmt f && f != fmtBlk else f == 5

/-- MLDW at issue: alignment, the segment as far as the extent is known (R395 step 4), then what FS1 and the mode ask. One whose source fits no segment goes
to the unit, where it traps LSEG in its turn and leaves the slot invalid (R314, R309). -/
def execMldw (o : OpMx) (s : State) : Out :=
  issue (.mldw o) s fun s uid t vals =>
    let a := vals.getD 0 0
    let x := s.seat s.cur
    let steps := o.arg.toNat + 1
    let outside (n : Nat) : Bool := match checkExtent x.lbase.toNat x.segLen a n with
      | .trap _ _ _ => true
      | .ok _ => false
    let go (f : BitVec 4) : Res := sendJob s s.cur uid (.mldw o.acc o.slot.toNat steps f (encode (.mldw o))) a
    aligned64 a <|
      if outside (if o.acc = 2 then mldwNeed 2 5 steps [] else 8) then go fmtF64
      else
        withFs 1 s uid t fun w =>
          let f := descrFmt w
          if mldwAccepts o.acc f || (matrixFmt f && outside (mldwNeed o.acc f steps [])) then go f
          else .trap 0x01 0x07 (issueWord (.mldw o) t)

/-- MMA and MMAZ at issue (R315): alignment and the segment, as far as the extent is known without FS0 (R395 step 4), then FS0 and the whole extents. -/
def mmaBody (zero : Bool) (i : Instr) (o : OpMx) : Body := fun s uid t vals =>
  let steps := o.arg.toNat + 1
  let a := vals.getD 0 0
  let x := s.seat s.cur
  aligned64 a <|
    match checkExtent x.lbase.toNat x.segLen a (steps * 256) with
    | .trap c b v => .trap c b v
    | .ok _ =>
      withFs 0 s uid t fun w =>
        let f := descrFmt w
        match checkExtent x.lbase.toNat x.segLen a (steps * aBytes f) with
        | .trap c b v => .trap c b v
        | .ok _ =>
          match (if f = fmtBlk then checkExtent x.lbase.toNat x.segLen (BitVec.ofNat 64 (descrSplane w)) (steps * 32) else .ok 0) with
          | .trap c b v => .trap c b v
          | .ok _ =>
            sendJob s s.cur uid (.mma zero o.acc.toNat o.slot.toNat steps f (x.lbase.toNat + descrSplane w) (encode i)) a

def execMma (o : OpMx) (s : State) : Out := issue (.mma o) s (mmaBody false (.mma o) o)
def execMmaz (o : OpMx) (s : State) : Out := issue (.mmaz o) s (mmaBody true (.mmaz o) o)

/-- Bytes that MST writes for an accumulator: 256 × the output size, or 512, without the counter word. -/
def mstBytes (f : BitVec 4) : Nat := if f = fmtF64 then 512 else 256 * (codeBits f.toNat / 8)
/-- The output formats of an accumulator (R318). -/
def mstAccepts (g : AccTag) (f : BitVec 4) : Bool :=
  if g = .fp64 then f == fmtF64 else [6, 4, 5, 8, 9, 0, 2].contains f.toNat

/-- MST at issue: alignment and the segment, as far as the extent is known without FS2 (R395 step 4), then FS2, the whole extent, and what the accumulator asks
of the format. -/
def execMst (o : OpMst) (s : State) : Out :=
  issue (.mst o) s fun s uid t vals =>
    let a := vals.getD 0 0
    let x := s.seat s.cur
    aligned64 a <|
      match checkExtent x.lbase.toNat x.segLen a 260 with
      | .trap c b v => .trap c b v
      | .ok _ =>
        withFs 2 s uid t fun w =>
          match checkExtent x.lbase.toNat x.segLen a (mstBytes (descrFmt w) + 4) with
          | .trap c b v => .trap c b v
          | .ok _ =>
            if !mstAccepts (vget t.vec.tag o.acc.toNat .fp32) (descrFmt w) then .trap 0x01 0x07 (issueWord (.mst o) t)
            else sendJob s s.cur uid (.mst o.acc.toNat o.clr (descrFmt w) (descrScale w)) a

/-- MRD copies 64 bytes of an accumulator (R319). -/
def execMrd (o : OpMrd) (s : State) : Out :=
  issue (.mrd o) s fun s uid t _ =>
    .done (s.putV uid o.vd (BitVec.ofNat 512 ((vget t.vec.acc o.acc.toNat 0).toNat >>> (512 * o.row.toNat))))

/-- MHINT (R317). -/
def execMhint (o : OpMhint) (s : State) : Out :=
  issue (.mhint o) s fun s _ _ _ =>
    let tile := State.tileOfSeat s.cur
    let n := o.arg.toNat * 64
    match (s.tile tile).mu with
    | .idle =>
      .done ((s.modTile tile fun t => { t with mu := .ramp (s.cycle + 1), pendingWindow := n }).addWork 65 (.rampEnd tile))
    | .down _ =>
      .done ((s.modTile tile fun t => { t with mu := if n = 0 then t.mu else .full, windowEnd := s.cycle + n }).addWork n
        (.holdWindowEnd tile))
    | _ => .done ((s.modTile tile fun t => { t with windowEnd := s.cycle + n }).addWork n (.holdWindowEnd tile))

/-! ## The unit at work -/

/-- The job that the unit executes: the oldest whose last step is not yet known. -/
def Tile.current (t : Tile) : Option MuJob := t.jobs.find? fun j => j.completes.isNone

/-- Replaces a job, which its seat names. -/
def Tile.putJob (t : Tile) (j : MuJob) : Tile := { t with jobs := t.jobs.map fun x => if x.seat == j.seat then j else x }
def Tile.dropJob (t : Tile) (seat : Nat) : Tile := { t with jobs := listErase (fun x => x.seat == seat) t.jobs }

/-- The unit executes an MMA that it has taken: it has work (R317). -/
def Tile.working (t : Tile) : Bool :=
  match t.current with
  | some j => j.taken && (match j.op with | .mma .. => true | _ => false)
  | none => false

/-- Without work and hold window FULL goes to DOWN (R317). -/
def State.settleMu (s : State) (tile : Nat) (now : Nat) : State :=
  let t := s.tile tile
  if t.mu = .full && !t.working && decide (t.windowEnd ≤ now) then
    (s.setTile tile { t with mu := .down now }).addWork (now - s.cycle + 64) (.downEnd tile)
  else s

/-- Work arrives (R317). -/
def State.workArrives (s : State) (tile : Nat) : State :=
  let t := s.tile tile
  match t.mu with
  | .idle =>
    if 256 ≤ s.cycle - t.idleSince then (s.setTile tile { t with mu := .ramp s.cycle, pendingWindow := 0 }).addWork 64 (.rampEnd tile)
    else s.setTile tile { t with mu := .full }
  | .down _ => s.setTile tile { t with mu := .full }
  | _ => s

/-- The last step of a job is done: it completes 8 cycles later (R309), and the unit goes on to the next one. -/
def State.jobOver (s : State) (tile : Nat) (j : MuJob) : State :=
  ((s.modTile tile fun t => t.putJob { j with completes := some (s.cycle + 8) }).addWork 8 (.matrixCompletion tile)).addWork 1
    (.matrixUnitTake tile)

/-- The job ends in a trap, taken at the first turn of its seat, which returns to the rotation. -/
def State.jobTrap (s : State) (tile : Nat) (j : MuJob) (cause sub : BitVec 8) (xval : Word) : State :=
  ((((s.modTile tile fun t => t.dropJob j.seat).modSeat j.seat fun x => { x with off := none }).trapDue j.seat cause sub xval).settleMu tile
    s.cycle).addWork 1 (.matrixUnitTake tile)

def State.setSlot (s : State) (tile slot : Nat) (c : Option SlotRec) : State :=
  s.modTile tile fun t => { t with slots := vset t.slots slot ⟨c⟩ }
def State.slotRec (s : State) (tile slot : Nat) : Option SlotRec := (vget (s.tile tile).slots slot ⟨none⟩).content

/-- The bytes of a number. -/
def numBytes : Nat → Nat → List Byte
  | 0, _ => []
  | n + 1, x => BitVec.ofNat 8 x :: numBytes n (x / 256)

/-- The job asks the banks for words of its cluster, in ascending order (R37, R39). -/
def State.askWords (s : State) (tile : Nat) (j : MuJob) (ops : List (Nat × BankOp)) : State :=
  let j := { j with taken := true, asked := ops.length, got := [], badOff := none }
  queueParts (.matrix tile j.seat j.issued) (tile / 16) (ops.zipIdx.map fun (o, k) => (0, 0, ⟨o.1, o.2, k⟩)) (s.modTile tile fun t => t.putJob j)

/-- The words of a job's batch from the lowest place. -/
def MuJob.words (j : MuJob) : List Word :=
  (List.range j.got.length).map fun k => ((j.got.find? fun p => p.1 == k).map (·.2)).getD 0

/-- An offset of the cluster as an offset of the job's segment. -/
def MuJob.segOff (j : MuJob) (o : Nat) : Word := BitVec.ofNat 64 (o - (j.base - j.off.toNat))

/-- An MLDW goes on (R314): its source is checked as far as it is known, and up to 32 words more are asked for, or the slot is complete. -/
def State.mldwNext (s : State) (tile : Nat) (j : MuJob) (mode : BitVec 2) (slot steps : Nat) (f : BitVec 4) (word : BitVec 32) : State :=
  let bytes := if j.taken then ((s.slotRec tile slot).map (·.bytes)).getD [] else []
  let need := mldwNeed mode f steps bytes
  match checkExtent 0 j.segLen j.off need with
  | .trap c b v => (s.setSlot tile slot none).jobTrap tile j c b v
  | .ok _ =>
    if 16384 < need then (s.setSlot tile slot none).jobTrap tile j 0x01 0x07 (word.setWidth 64)
    else
      let whole := decide (need ≤ bytes.length)
      let s := s.setSlot tile slot (some ⟨if mode = 2 then 5 else f, mode, if whole then steps else 0, bytes, false⟩)
      if whole then s.jobOver tile j
      else
        let n := min 32 ((need - bytes.length + 7) / 8)
        s.askWords tile j ((List.range n).map fun k => (j.base + bytes.length + 8 * k, .read))

/-- The batch of an MLDW has been read: its bytes join the slot; with the last of them the instruction is over in this cycle. -/
def State.mldwRead (s : State) (tile : Nat) (j : MuJob) (mode : BitVec 2) (slot steps : Nat) (f : BitVec 4) : State :=
  match j.badOff with
  | some o => (s.setSlot tile slot none).jobTrap tile j 0x10 0x01 (j.segOff o)
  | none =>
    let bytes := ((s.slotRec tile slot).map (·.bytes)).getD [] ++ j.words.flatMap fun w => numBytes 8 w.toNat
    let whole := decide (mldwNeed mode f steps bytes ≤ bytes.length)
    let s := s.setSlot tile slot (some ⟨if mode = 2 then 5 else f, mode, if whole then steps else 0, bytes, false⟩)
    if whole then s.jobOver tile j else (s.modTile tile fun t => t.putJob j).addWork 1 (.matrixUnitTake tile)

/-- One output of MST (R318): its bits, and whether it is counted. -/
def mstElem (g : AccTag) (f : BitVec 4) (scale : BitVec 32) (x : Nat) : Nat × Bool :=
  let v : FVal := if g = .int32 then (let i := toSigned 32 x; .fin (decide (i < 0)) i.natAbs 0) else (if g = .fp64 then fF64 else fF32).decode x
  let (p, inv) := v.mul (fF32.decode scale.toNat)
  let int := f = 0 || f = 2
  let n := codeBits f.toNat
  let m := fmtOfCode f.toNat
  let p := if inv then FVal.nan false else p
  match p with
  | .nan _ => (if int then 0 else m.nanBits, int)
  | .inf neg => (if int then (if neg then 2 ^ (n - 1) else 2 ^ (n - 1) - 1) else m.maxBits neg, true)
  | .fin neg mag e =>
    if int then
      let (y, sat) := clampS n (roundIntegral .rne neg mag e).1
      ((y % (2 ^ n : Nat)).toNat, sat)
    else
      let r := m.round .rne neg mag e false
      if (m.hasInf && r.bits == m.infBits neg) || r.sat then (m.maxBits neg, true) else (r.bits, false)

/-- The words that MST writes before its counter, and the count. -/
def mstOutput (g : AccTag) (acc : BitVec 8192) (f : BitVec 4) (scale : BitVec 32) : Nat × Nat :=
  let n := accBits g
  let outs := (List.range (accCount g)).map fun e => mstElem g f scale (accElem acc n e)
  let b := codeBits f.toNat
  (outs.foldr (fun o x => o.1 % 2 ^ b + 2 ^ b * x) 0, outs.countP (·.2))

/-- An MST goes on: up to 32 words more are stored, and the counter word alone at the end (R318). -/
def State.mstNext (s : State) (tile : Nat) (j : MuJob) (acc : Nat) (f : BitVec 4) (scale : BitVec 32) (t : Thread) : State :=
  let (out, count) := mstOutput (vget t.vec.tag acc .fp32) (vget t.vec.acc acc 0) f scale
  let words := mstBytes f / 8
  if j.step < words then
    s.askWords tile j ((List.range (min 32 (words - j.step))).map fun k =>
      (j.base + 8 * (j.step + k), .write 255 (BitVec.ofNat 64 (out >>> (64 * (j.step + k))))))
  else s.askWords tile j [(j.base + 8 * words, .write 15 (BitVec.ofNat 64 (min count (2 ^ 32 - 1))))]

/-- A batch of an MST has been stored; with the counter word the instruction is over (R318, R206 event 12). If the word of the counter is poisoned, the trap
undoes what was stored (R394). -/
def State.mstWritten (s : State) (tile : Nat) (j : MuJob) (acc : Nat) (clr : Bool) (f : BitVec 4) (scale : BitVec 32) (t : Thread) : State :=
  match j.badOff with
  | some o => (undoStores (tile / 16) j.undo s).jobTrap tile j 0x10 0x01 (j.segOff o)
  | none =>
    let words := mstBytes f / 8
    if j.step < words then
      (s.modTile tile fun t => t.putJob { j with step := j.step + min 32 (words - j.step) }).addWork 1 (.matrixUnitTake tile)
    else
      let count := (mstOutput (vget t.vec.tag acc .fp32) (vget t.vec.acc acc 0) f scale).2
      let s := (s.countEv j.seat 12 count).modThread j.uid fun t => t.saturate count
      let s := if clr then s.modThread j.uid fun t => { t with vec := { t.vec with acc := vset t.vec.acc acc 0 } } else s
      s.jobOver tile j

/-! ## The A operand (R316) -/

/-- Step n of a job's A operand. -/
def MuJob.entry (j : MuJob) (f : BitVec 4) (splane n : Nat) : AEntry :=
  ⟨j.base + n * aBytes f, aBytes f, if f = fmtBlk then splane + 32 * n else 0, aScale f, f, none⟩

/-- The buffered entry with the tag of another. -/
def Tile.operand (t : Tile) (e : AEntry) : Option AEntry :=
  t.abuf.find? fun x => x.off == e.off && x.scaleOff == e.scaleOff && x.fmt == e.fmt

/-- Puts an entry into the A-operand buffer, last used; the least recently used of 16 goes. -/
def Tile.buffer (t : Tile) (e : AEntry) : Tile :=
  let l := (t.abuf.filter fun x => !(x.off == e.off && x.scaleOff == e.scaleOff && x.fmt == e.fmt)) ++ [e]
  { t with abuf := if 16 < l.length then l.drop 1 else l }

/-- A word among words in ascending order. -/
def insertWord (o : Nat) : List Nat → List Nat
  | [] => [o]
  | x :: rest => if o ≤ x then o :: x :: rest else x :: insertWord o rest

/-- The words of an operand, its data and its scale bytes, in ascending order of address. -/
def AEntry.words (e : AEntry) : List Nat :=
  ((List.range ((e.scaleOff % 8 + e.scaleLen + 7) / 8)).map (e.scaleOff / 8 * 8 + 8 * ·)).foldr insertWord
    ((List.range (e.len / 8)).map (e.off + 8 * ·))

/-- The first of the next `ahead` steps whose operand is not buffered. -/
def Tile.missing (t : Tile) (j : MuJob) (f : BitVec 4) (splane steps ahead : Nat) : Option Nat :=
  ((List.range ahead).map (j.step + ·)).find? fun n => decide (n < steps) && (t.operand (j.entry f splane n)).isNone

/-- The unit asks for the operand of a step that it misses among the next `ahead` ones, one step at a time: up to two steps ahead of the one that is being
taken (R316). -/
def State.fetchOperand (s : State) (tile ahead : Nat) : State :=
  match (s.tile tile).current with
  | none => s
  | some j =>
    match j.op with
    | .mma _ _ _ steps f splane _ =>
      if !j.taken || j.fetch.isSome then s
      else
        match (s.tile tile).missing j f splane steps ahead with
        | none => s
        | some n => s.askWords tile { j with fetch := some n } ((j.entry f splane n).words.map fun o => (o, .read))
    | _ => s

/-- The words of an operand have all been read. -/
def State.operandRead (s : State) (tile : Nat) (j : MuJob) (f : BitVec 4) (splane : Nat) : State :=
  match j.fetch with
  | none => s
  | some n => s.modTile tile fun t => (t.buffer { j.entry f splane n with poison := j.badOff }).putJob { j with fetch := none, badOff := none }

/-- A bank serves a word of a job: a store is performed, a read brings its word or is found poisoned; and with the last one of the batch the job goes
on. -/
def State.matrixServed (s : State) (tile seat issued : Nat) (p : BankPart) : State :=
  match (s.tile tile).jobs.find? fun j => j.seat == seat && j.issued == issued with
  | none => s
  | some j =>
    let cl := tile / 16
    let bad := s.localPoisoned cl p.off && (match p.op with | .write m _ => m != 255 | _ => true)
    let undo := match p.op with | .write m _ => if bad then j.undo else ⟨p.off, m, s.localWord cl p.off, s.localPoisoned cl p.off⟩ :: j.undo | _ => j.undo
    let s := match p.op with | .write m d => if bad then s else s.localWrite cl p.off m d | _ => s
    let first := match j.badOff with | some o => if bad then some (min o p.off) else some o | none => if bad then some p.off else none
    let j := { j with asked := j.asked - 1, got := j.got ++ [(p.lane, s.localWord cl p.off)], badOff := first, undo := undo }
    if j.asked ≠ 0 then s.modTile tile fun t => t.putJob j
    else
      match j.op, s.thread? j.uid with
      | .mldw mode slot steps f _, _ => s.mldwRead tile j mode slot steps f
      | .mst acc clr f scale, some t => s.mstWritten tile j acc clr f scale t
      | .mma _ _ _ _ f splane _, _ => s.operandRead tile j f splane
      | _, none => s.modTile tile fun t => t.putJob j

/-- The unit takes an MMA and checks it (R315). -/
def State.mmaTake (s : State) (tile : Nat) (j : MuJob) (zero : Bool) (acc slot steps : Nat) (f : BitVec 4) (word : BitVec 32) : State :=
  match s.slotRec tile slot with
  | none => s.jobTrap tile j 0x01 0x07 (word.setWidth 64)
  | some r =>
    if !pairOk f r.fmt || decide (r.kcnt < steps) then s.jobTrap tile j 0x01 0x07 (word.setWidth 64)
    else
      let g := accTag f
      let s := s.modThread j.uid fun t =>
        let old := vget t.vec.acc acc 0
        { t with vec := { t.vec with acc := vset t.vec.acc acc (if zero then accSet old (accBits g) (accCount g) fun _ => 0 else old),
                                     tag := vset t.vec.tag acc g } }
      (((s.modTile tile fun t => t.putJob { j with taken := true }).workArrives tile).fetchOperand tile 3).addWork 0 (.kStep tile)

/-- MATRIX_UNIT_TAKE: the unit takes its next instruction, or an MLDW or MST goes on by one cycle. -/
def execMatrixUnitTake (tile : Nat) (s : State) : Out :=
  match (s.tile tile).current with
  | none => .next s
  | some j =>
    match s.thread? j.uid with
    | none => .next ((s.modTile tile fun t => t.dropJob j.seat).addWork 1 (.matrixUnitTake tile))
    | some t =>
      match j.op with
      | .mldw mode slot steps f word => .next (if j.asked = 0 then s.mldwNext tile j mode slot steps f word else s)
      | .mst acc _ f scale => .next (if j.asked = 0 then s.mstNext tile j acc f scale t else s)
      | .mma zero acc slot steps f _ word => if j.taken then .next s else .next (s.mmaTake tile j zero acc slot steps f word)
/-- The cycle allows a K-step (R317, R465). -/
def Tile.mayStep (t : Tile) (now throttle : Nat) : Bool :=
  match t.mu with
  | .ramp since => decide (since ≤ now) && (decide (t.lastKStep < since) || decide (t.lastKStep + 2 ≤ now))
  | .full =>
    (decide (t.lastKStep < now) || t.recentSteps.isEmpty)
      && decide ((t.recentSteps.filter fun c => now < c + 16).length < throttle)
  | _ => false

/-- One K-step of an MMA whose words are buffered. -/
def State.takeStep (s : State) (tile : Nat) (j : MuJob) (acc slot steps : Nat) (f : BitVec 4) (splane : Nat) : State :=
  let cl := tile / 16
  let e := ((s.tile tile).operand (j.entry f splane j.step)).getD (j.entry f splane j.step)
  match s.slotRec tile slot with
  | none => s.jobTrap tile j 0x10 0x05 0
  | some r =>
    if r.damaged then s.jobTrap tile j 0x10 0x05 0
    else
      match e.poison with
      | some o => (s.modTile tile fun t => { t with abuf := t.abuf.filter fun x => x != e }).jobTrap tile j 0x10 0x05 (j.segOff o)
      | none =>
        match s.thread? j.uid with
        | none => s
        | some t =>
          let (a, clamped) :=
            kCombine f (vget t.vec.acc acc 0) (s.localBytes cl e.off e.len) (s.localBytes cl e.scaleOff e.scaleLen) r j.step
          let s := (s.countEv j.seat 11 1).setThread j.uid ({ t with vec := { t.vec with acc := vset t.vec.acc acc a } }.saturate clamped)
          let s := s.modTile tile fun t =>
            let t := (t.buffer e).putJob { j with step := j.step + 1 }
            { t with lastKStep := s.cycle, recentSteps := (t.recentSteps.filter fun c => s.cycle < c + 16) ++ [s.cycle] }
          if j.step + 1 < steps then (s.addWork 1 (.kStep tile)).fetchOperand tile 2
          else (s.jobOver tile { j with step := j.step + 1 }).settleMu tile (s.cycle + 1)

/-- K_STEP: the unit takes one K-step once its operand is buffered and its state allows (R315 to R317), and fetches the operands of the steps
ahead (R316). -/
def execKStep (tile : Nat) (s : State) : Out :=
  let t := s.tile tile
  match t.current with
  | none => .next s
  | some j =>
    match j.taken, j.op with
    | true, .mma _ acc slot steps f splane _ =>
      if (s.thread? j.uid).isNone then .next (((s.modTile tile fun t => t.dropJob j.seat).settleMu tile s.cycle).addWork 1 (.matrixUnitTake tile))
      else if t.mayStep s.cycle s.fw.throttle && (t.operand (j.entry f splane j.step)).isSome then
        .next (s.takeStep tile j acc slot steps f splane)
      else .next ((s.fetchOperand tile 3).addWork 1 (.kStep tile))
    | _, _ => .next s

/-- MATRIX_COMPLETION: instructions whose 8 cycles have passed complete; their seats rejoin the rotation at their first turn after that. -/
def execMatrixCompletion (tile : Nat) (s : State) : Out :=
  let due := (s.tile tile).jobs.filter fun j => match j.completes with | some c => decide (c ≤ s.cycle) | none => false
  .next (due.foldl (fun s j =>
    let s := (s.modTile tile fun t => t.dropJob j.seat)
    if (s.seat j.seat).off = some .matrix then
      retire (s.modSeat j.seat fun x => { x with off := none, nextTurn := max x.nextTurn (s.cycle + 1) }) j.seat j.uid
    else s) s)

/-- RAMP_END: after 64 cycles of RAMP the unit enters FULL, and a hold window asked for starts (R317). -/
def execRampEnd (tile : Nat) (s : State) : Out :=
  let t := s.tile tile
  match t.mu with
  | .ramp since =>
    if s.cycle < since + 64 then .next s
    else
      let s := s.setTile tile { t with mu := .full, windowEnd := max t.windowEnd (s.cycle + t.pendingWindow), pendingWindow := 0 }
      let s := if t.pendingWindow = 0 then s else s.addWork t.pendingWindow (.holdWindowEnd tile)
      .next (s.settleMu tile s.cycle)
  | _ => .next s

/-- HOLD_WINDOW_END: a unit without work goes to DOWN (R317). -/
def execHoldWindowEnd (tile : Nat) (s : State) : Out := .next (s.settleMu tile s.cycle)

/-- DOWN_END: after 64 filler cycles the unit is IDLE and counts from 0 (R317). -/
def execDownEnd (tile : Nat) (s : State) : Out :=
  let t := s.tile tile
  match t.mu with
  | .down since => if s.cycle < since + 64 then .next s else .next (s.setTile tile { t with mu := .idle, idleSince := s.cycle })
  | _ => .next s

end Sys2Proof.Machine
end

