-- ==== Sys2Proof/Machine/Engine.lean ====
section
/-!
DEFINITION. The copy, gather and collective engines (R33, R143 to R149, R155, R322 to R329): the shadow fields and their checks, the
commands, and the operations, unit by unit. A unit is 8 bytes of a copy, or an element of a gather or a collective.
-/

namespace Sys2Proof.Machine

/-! ## Numbers (R143) -/

/-- The number of an engine: copy engines by tile, then gather engines by cluster, then collective engines by die. -/
def engineOf (e : Nat) (core : Nat) : Nat :=
  if e = 0 then tileOf core else if e = 1 then 512 + clusterOf core else 544 + dieOf core
def kindOfEngine (eng : Nat) : EngKind := if eng < 512 then .copy else if eng < 544 then .gather else .collective
def engineCode (k : EngKind) : Nat := match k with
  | .copy => 0
  | .gather => 1
  | .collective => 2
/-- The key of a collective operation's accesses. -/
def collectiveKey (id : Nat) : Nat := 1024 + id

/-! ## Shadow fields (R324 to R326) -/

def Thread.shadow (t : Thread) (e : Nat) : List Word := (List.range 32).map fun f => vget t.shadows.fields (32 * e + f) 0
def fieldAt (fs : List Word) (f : Nat) : Nat := (fs.getD f 0).toNat
/-- Copy: OPC, the row length, the rows. -/
def copyOpc (fs : List Word) : Nat := fieldAt fs 0 % 16
def copyRows (fs : List Word) : Nat := max 1 (fieldAt fs 4)
/-- A place of a row: base + row × stride + column, modulo 2^64. -/
def rowAddr (fs : List Word) (base stride r col : Nat) : Nat := (fieldAt fs base + r * fieldAt fs stride + col) % 2 ^ 64

/-- The spaces of an address field. -/
inductive EngSpace where
  | global
  | localSpace
  | mesh
  | stream
  deriving DecidableEq, Repr

def copySrc (opc : Nat) : EngSpace := if opc = 0 || opc = 4 || opc = 6 then .global else if opc = 3 then .mesh else .localSpace
def copyDst (opc : Nat) : EngSpace :=
  if opc = 0 || opc = 3 then .localSpace else if opc = 1 || opc = 4 then .global else if opc = 2 then .mesh else .stream

/-- CCORE: its bits outside [63] and [10:0] are zero. -/
def ccoreBits (w : Nat) : Bool := w % 2 ^ 63 < 2048
def ccoreOf (fs : List Word) (own : Nat) : Nat := if (fs.getD 8 0).getLsbD 63 then bitsOf (fs.getD 8 0) 0 11 else own

/-- A value that is out of its limits. -/
def bad (b : Bool) (f : Nat) : Option Nat := if b then some f else none
def firstBad (l : List (Option Nat)) : Option Nat := l.findSome? id

/-- The first field whose value fails step 1 of R327. -/
def copyBad (fs : List Word) : Option Nat :=
  let v := fieldAt fs
  let stream := copyDst (copyOpc fs) = .stream
  firstBad
    [bad (decide (7 ≤ v 0)) 0, bad (v 1 % 8 != 0) 1, bad (!stream && v 2 % 8 != 0) 2,
     bad (decide (v 3 < 8) || decide (2 ^ 32 < v 3) || v 3 % 8 != 0) 3, bad (decide (65536 < v 4)) 4, bad (v 5 % 8 != 0) 5,
     bad (v 6 % 8 != 0) 6, bad (!ccoreBits (v 8)) 8, bad (decide (64 ≤ v 9)) 9]

def gatherBad (fs : List Word) : Option Nat :=
  let v := fieldAt fs
  let size := 2 ^ (v 0 / 256 % 4)
  firstBad
    [bad (v 0 % 256 != 0 || decide (1024 ≤ v 0)) 0, bad (v 1 % size != 0) 1, bad (decide (2 ^ 24 ≤ v 2) || v 2 % 4 != 0) 2,
     bad (v 3 == 0 || decide (2 ^ 20 < v 3)) 3, bad (decide (2 ^ 24 ≤ v 4) || v 4 % size != 0) 4, bad (!ccoreBits (v 8)) 8]

/-- Collective fields: OPC, RED, TYPE, SCOPE. -/
def collOpc (fs : List Word) : Nat := fieldAt fs 0 % 16
def collRed (fs : List Word) : Nat := fieldAt fs 0 / 16 % 16
def collType (fs : List Word) : Nat := fieldAt fs 0 / 256 % 16
def collScope (fs : List Word) : Nat := fieldAt fs 0 / 65536 % 32
def collSize (fs : List Word) : Nat := if collType fs = 4 || collType fs = 5 then 2 else if collType fs = 3 || collType fs = 7 then 8 else 4

def collectiveBad (fs : List Word) : Option Nat :=
  let v := fieldAt fs
  firstBad
    [bad (v 0 / 4096 % 16 != 0 || decide (2 ^ 21 ≤ v 0) || decide (3 < collOpc fs) || decide (2 < collRed fs)
        || ((collOpc fs == 1 || collOpc fs == 3) && collRed fs != 0) || decide (collType fs < 2) || decide (7 < collType fs)) 0,
     bad (v 1 % collSize fs != 0) 1, bad (v 2 % collSize fs != 0) 2, bad (v 3 == 0 || decide (2 ^ 32 ≤ v 3)) 3,
     bad (decide (2 ^ 24 ≤ v 4) || v 4 / 2048 % 32 != 0) 4, bad (decide (2 ^ 16 ≤ v 6)) 6, bad (!ccoreBits (v 8)) 8]

/-! ## The checks of EGO (R33, R327) -/

/-- The rows of a local field, each over its whole length. -/
def checkRows (x : Seat) (fs : List Word) (base stride : Nat) : Test :=
  match (List.range (copyRows fs)).findSome? fun r =>
      match checkExtent x.lbase.toNat x.segLen (BitVec.ofNat 64 (rowAddr fs base stride r 0)) (fieldAt fs 3) with
      | .trap c b v => some (Test.trap c b v)
      | .ok _ => none with
  | some t => t
  | none => .pass

/-- The form of a global or mesh address (R24, R18). -/
def checkForm (sp : EngSpace) (w : Word) : Test :=
  match sp with
  | .global => if w.extractLsb' 48 16 ≠ 0 then .trap 0x06 0x01 w else .pass
  | .mesh => if w.extractLsb' 24 27 ≠ 0 then .trap 0x06 0x02 w else .pass
  | _ => .pass

/-- The segment of a local field, over all its rows. -/
def checkField (x : Seat) (sp : EngSpace) (fs : List Word) (base stride : Nat) : Test :=
  match sp with
  | .localSpace => checkRows x fs base stride
  | _ => .pass

def extentTest (x : Seat) (o n : Nat) : Test :=
  match checkExtent x.lbase.toNat x.segLen (BitVec.ofNat 64 o) n with
  | .trap c b v => .trap c b v
  | .ok _ => .pass

/-- A thread of an ASID holds a seat of a core. -/
def State.asidOn (s : State) (core : Nat) (asid : BitVec 16) : Bool := (s.coreThreads core).any fun p => p.2.2.asid == asid

/-- The queue register that a stream operation names: core and number. -/
def streamOf (fs : List Word) (core : Nat) : Nat × Nat := (core / 4 * 4 + fieldAt fs 9 / 16 % 4, fieldAt fs 9 % 16)

/-- All checks of an EGO, in the order of R327, and among the addresses the forms before the segments (R31); a reserved format code is an illegal one wherever it is read (R208, R243).
DESIGN CHOICE (log entry 112): of two address fields that fail the same step, the lower-numbered one decides the trap. -/
def egoCheck (s : State) (seat : Nat) (t : Thread) (k : EngKind) (fs : List Word) : Test :=
  let x := s.seat seat
  let core := coreOf seat
  let field (b : BitVec 8) (f : Nat) : Test := .trap 0x15 b (BitVec.ofNat 64 f)
  let code := collType fs
  let reserved := if k = .collective && decide (11 ≤ code) then Test.trap 0x01 0x08 (BitVec.ofNat 64 code) else .pass
  let values := match (match k with | .copy => copyBad fs | .gather => gatherBad fs | .collective => collectiveBad fs) with
    | some f => field 2 f
    | none => .pass
  let ccore := if (fs.getD 8 0).getLsbD 63 && !s.asidOn (ccoreOf fs core) t.asid then field 1 8 else .pass
  let rest := match k with
    | .copy =>
      let (c, q) := streamOf fs core
      let stream :=
        if copyDst (copyOpc fs) = .stream then
          match (s.core c).queue q with
          | some y => if y.kind = .stream && y.asid == t.asid then Test.pass else field 4 9
          | none => field 4 9
        else .pass
      [stream, checkForm (copySrc (copyOpc fs)) (fs.getD 1 0), checkForm (copyDst (copyOpc fs)) (fs.getD 2 0),
       checkField x (copySrc (copyOpc fs)) fs 1 5, checkField x (copyDst (copyOpc fs)) fs 2 6]
    | .gather =>
      [checkForm .global (fs.getD 1 0), extentTest x (fieldAt fs 2) (4 * fieldAt fs 3),
       extentTest x (fieldAt fs 4) (fieldAt fs 3 * 2 ^ (fieldAt fs 0 / 256 % 4))]
    | .collective =>
      [if s.scopeHasCore t.asid core (collScope fs) core then .pass else field 5 0, checkForm .global (fs.getD 1 0),
       checkForm .global (fs.getD 2 0)]
  firstTest (reserved :: values :: ccore :: rest)

/-! ## ESET, EGO, ESTAT, ECAN -/

/-- ESET parks while the seat's shadow for the engine is committed (R144). -/
def execEset (o : OpEset) (s : State) : Out :=
  issue (.eset o) s fun s uid _ vals =>
    if (s.seat s.cur).committed.getLsbD o.eng.toNat then .park
    else
      .done (s.modThread uid fun t =>
        { t with shadows := ⟨vset t.shadows.fields (32 * o.eng.toNat + o.field.toNat) (vals.getD 0 0), putBit t.shadows.dirty o.eng.toNat true⟩ })

/-- The place of an operation among the EGOs of its cycle: requester number, then seat (R37, R144); the cluster last, for engines of a die. -/
def EngOp.place (op : EngOp) : Nat := (coreOf op.seat % 64 * 8 + op.seat % 8) * 32 + clusterOf (coreOf op.seat)

/-- The operations of an engine in the order of their EGOs: by cycle, then by place (R144). -/
def addCommitted (op : EngOp) : List EngOp → List EngOp
  | [] => [op]
  | x :: rest =>
    if op.committedAt < x.committedAt || (op.committedAt == x.committedAt && op.place < x.place) then op :: x :: rest
    else x :: addCommitted op rest

/-- EGO (R327): the checks, the release, the commit. -/
def execEgo (o : OpEng) (s : State) : Out :=
  issue (.ego o) s fun s uid t _ =>
    let e := o.eng.toNat
    let core := coreOf s.cur
    let eng := engineOf e core
    let fs := t.shadow e
    let k := kindOfEngine eng
    if (s.seat s.cur).committed.getLsbD e then .park
    else
      match egoCheck s s.cur t k fs with
      | .trap c b v => .trap c b v
      | _ =>
        let wide := if k = .collective then s.scopeWide t.asid core (collScope fs) else false
        (s.release s.cur uid wide true).andThen fun s =>
          let x := s.seat s.cur
          let op : EngOp := ⟨k, s.cur, uid, t.asid, t.launch, fs, x.lbase.toNat, x.segLen, ccoreOf fs core, s.cycle, 0, [], [], none, false, none⟩
          let s := s.setEngine eng { s.engine eng with committed := addCommitted op (s.engine eng).committed }
          let s := s.modSeat s.cur fun x => { x with committed := putBit x.committed e true }
          .done ((s.modThread uid fun t => { t with shadows := ⟨t.shadows.fields, putBit t.shadows.dirty e false⟩ }).addWork 1
            (.engineShadowTake eng))

/-- The collective operations that a seat has joined. -/
def State.joinedBy (s : State) (seat : Nat) : List Nat :=
  (s.fab.collectives.filter fun p => p.2.joined.any fun j => j.2.seat == seat).map (·.1)

/-- The seat has the active operation of its engine e. -/
def State.activeAt (s : State) (seat e : Nat) : Bool :=
  if e = 2 then !(s.joinedBy seat).isEmpty
  else
    match (s.engine (engineOf e (coreOf seat))).active with
    | some op => op.seat == seat
    | none => false

/-- ESTAT (R328). -/
def execEstat (o : OpEstat) (s : State) : Out :=
  issue (.estat o) s fun s uid _ _ =>
    let e := o.eng.toNat
    let x := s.seat s.cur
    .done (s.putD s.cur uid o.d (BitVec.ofNat 64
      (b2n (s.activeAt s.cur e) * 2 ^ 63 + b2n (x.committed.getLsbD e) * 2 ^ 62 + e * 2 ^ 16 + (vget x.engStatus e 0xFF).toNat)))

/-! ## Completions (R148, R155) -/

/-- The payload of a completion. -/
def completionPayload (op : EngOp) (code sub : BitVec 8) (done : Nat) (faddr : Word) : List Word :=
  [op.fields.getD 7 0, BitVec.ofNat 64 (engineCode op.kind * 65536 + sub.toNat * 256 + code.toNat), BitVec.ofNat 64 done, faddr, 0, 0, 0, 0]

/-- Sends the completion of an operation that has ended; the seat's status word holds it until another thread takes the seat (R328). A core may have gone
idle for the launch, for which a pennant is then carried (R193). -/
def State.sendCompletion (s : State) (eng : Nat) (op : EngOp) (code sub : BitVec 8) (done : Nat) (faddr : Word) : State :=
  let (id, s) := s.fresh
  let m : Msg :=
    { kind := .completion eng, dst := BitVec.ofNat 64 (s.device.toNat * 65536 + op.ccore * 8), payload := completionPayload op code sub done faddr
      seat := op.seat, uid := none, asid := op.asid, launch := op.launch, budget := 0, sentAt := s.cycle, injected := true, stage := .going
      answer := none, counted := false, deadline := none }
  let s := ((s.setMsg id m).countSent op.launch (coreOf op.seat)).addWork 1 (.inboxArrival id)
  (s.modSeat op.seat fun x => { x with engStatus := vset x.engStatus (engineCode op.kind) (sub ++ code) }).addWork 1 (.sweepPennant op.launch.toNat)

/-- A completion of the engine has not been delivered: it takes no further shadow (R155). -/
def State.completionOut (s : State) (eng : Nat) : Bool :=
  s.net.msgs.any fun p => match p.2.kind with | .completion e => e == eng | _ => false

/-! ## Accesses -/

/-- Requests of an engine or a collective operation that are on their way. -/
def State.engReqs (s : State) (key : Nat) : List (Nat × Req) :=
  s.net.reqs.filter fun p => match p.2.op with | .eng k _ _ _ => k == key | _ => false

/-- The request of an engine for `size` bytes at an address. -/
def engReq (s : State) (op : EngOp) (key unit addr size : Nat) (write mesh : Bool) (w : Word) : Req where
  op := .eng key unit write mesh
  asid := op.asid
  addr := addr
  off := 0
  size := size
  signed := false
  mask := byteMask (addr % 64) size
  data := if mesh then w.setWidth 512 else placed addr w
  uid := none
  seat := op.seat
  anchored := false
  noAlloc := false
  aged := 0
  key := ⟨op.asid, op.launch, 0⟩
  segBase := op.segBase
  segLen := op.segLen
  reading := none
  issued := s.cycle
  deadline := none
  budget := 0
  stage := .going
  answer := none
  comb := none
  results := []
  delivered := 0
  snap := 0
  seen := []

/-- What an engine's read finds at once. -/
inductive EngRead where
  | got (w : Word)
  | fails (code sub : BitVec 8)
  | sent (s : State)

/-- A read of global memory (R75): present valid bytes from the near cache, the rest from home. -/
def readGlobal (s : State) (op : EngOp) (key unit va size : Nat) : EngRead :=
  if 2 ^ 48 ≤ va then .fails 0x02 0x01
  else
    let r := engReq s op key unit va size false false 0
    match s.ncFind (clusterOf (coreOf op.seat)) op.asid va with
    | some l =>
      if r.mask &&& ~~~ l.valid = 0 then
        (if linePoisoned l.poison r.mask then .fails 0x03 0 else .got (BitVec.ofNat 64 (lineBytes l.data va size)))
      else .sent (s.sendEngine r)
    | none => .sent (s.sendEngine r)

/-- The bytes that a fetched line gives an engine, with the valid bytes of the near cache over them. -/
def fetched (s : State) (r : Req) (d : Line) (poison : BitVec 8) : Line × BitVec 8 :=
  match s.ncFind (clusterOf (coreOf r.seat)) r.asid r.addr with
  | some l => (lineMerge d l.data l.valid, (poison &&& ~~~ (maskFullWords l.valid)) ||| l.poison)
  | none => (d, poison)

/-- A write to global memory: it goes home, over present bytes, whose dirty marks it clears (R75). Fills on their way do not make its bytes valid
with what the home held before (R124). DESIGN CHOICE (log entry 73): the write counts as a use of a line whose bytes are present. -/
def writeGlobal (s : State) (op : EngOp) (key unit va size : Nat) (w : Word) : State :=
  let r := engReq s op key unit va size true false w
  let cl := clusterOf (coreOf op.seat)
  let s := match s.ncFind cl op.asid va with
    | some l =>
      let m := r.mask &&& l.valid
      s.ncPut cl { l with data := lineMerge l.data r.data m, dirty := l.dirty &&& ~~~ m, poison := l.poison &&& ~~~ (maskFullWords m) }
    | none => s
  (s.ageAnswers cl op.asid (some (lineOf va)) r.mask).sendEngine r

/-- A write of an engine has been performed at its home (R124). -/
def writePerformed (s : State) (r : Req) : State := s.ncRefresh (clusterOf (coreOf r.seat)) r.asid r.addr r.mask

/-! ## Copy and gather operations -/

/-- Units of an operation. -/
def EngOp.units (op : EngOp) : Nat :=
  match op.kind with
  | .copy => copyRows op.fields * (fieldAt op.fields 3 / 8)
  | _ => fieldAt op.fields 3

/-- Bytes of a unit, and what DONE counts for one. -/
def EngOp.unitSize (op : EngOp) : Nat := match op.kind with
  | .copy => 8
  | _ => 2 ^ (fieldAt op.fields 0 / 256 % 4)
def EngOp.doneWord (op : EngOp) : Nat := match op.kind with
  | .copy => 8 * op.done
  | _ => op.done

/-- A unit has been performed. -/
def EngOp.finish (op : EngOp) (u : Nat) : EngOp :=
  let set := NSet.add op.doneSet u
  let run (fuel d : Nat) : Nat := (List.range fuel).foldl (fun d _ => if NSet.has set d then d + 1 else d) d
  let d := run set.length op.done
  { op with done := d, doneSet := set.filter fun x => d ≤ x, started := NSet.del op.started u }

/-- The operation fails at an address, if it has not failed before (R148). -/
def EngOp.fail (op : EngOp) (code sub : BitVec 8) (addr : Nat) : EngOp :=
  if op.status.isSome then op else { op with status := some (code, sub, BitVec.ofNat 64 addr) }

def State.setActive (s : State) (eng : Nat) (op : EngOp) : State := s.setEngine eng { s.engine eng with active := some op }

/-- Source address of a unit of a copy, and its destination. -/
def EngOp.src (op : EngOp) (u : Nat) : Nat :=
  let per := fieldAt op.fields 3 / 8
  rowAddr op.fields 1 5 (u / per) (u % per * 8)
def EngOp.dst (op : EngOp) (u : Nat) : Nat :=
  match op.kind with
  | .copy =>
    let per := fieldAt op.fields 3 / 8
    rowAddr op.fields 2 6 (u / per) (u % per * 8)
  | _ => fieldAt op.fields 4 + u * op.unitSize

/-- The word of a unit goes onward: a write at its bank, a request, or a word that waits to be pushed. -/
def writeUnit (s : State) (eng : Nat) (op : EngOp) (u : Nat) (w : Word) : State :=
  let cl := clusterOf (coreOf op.seat)
  let size := op.unitSize
  let a := op.dst u
  match (match op.kind with | .copy => copyDst (copyOpc op.fields) | _ => .localSpace) with
  | .localSpace =>
    let off := op.segBase + a
    queueParts (.engine eng u) cl [(0, 0, ⟨off, .write (BitVec.ofNat 8 ((2 ^ size - 1) <<< (off % 8))) (w <<< (8 * (off % 8))), 0⟩)]
      (s.setActive eng op)
  | .global => if 2 ^ 48 ≤ a then s.setActive eng (op.fail 0x02 0x01 a) else (writeGlobal s op eng u a 8 w).setActive eng op
  | .mesh =>
    if (a >>> 24) % 2 ^ 27 ≠ 0 then s.setActive eng (op.fail 0x02 0x02 a) else (s.sendReq (engReq s op eng u a 8 true true w)).1.setActive eng op
  | .stream => (s.setActive eng { op with word := some w }).addWork 0 (.streamPush eng)

/-- The read of global memory that a unit makes. -/
def unitRead (s : State) (eng : Nat) (op : EngOp) (u va size : Nat) : State :=
  match readGlobal s op eng u va size with
  | .got w => writeUnit s eng op u w
  | .fails c b => s.setActive eng (op.fail c b va)
  | .sent s => s.setActive eng op

/-- The offset that a unit reads in local memory: its source, or its index (R325). -/
def EngOp.localSrc (op : EngOp) (u : Nat) : Nat := match op.kind with
  | .copy => op.src u
  | _ => fieldAt op.fields 2 + 4 * u

/-- Begins a unit: its read, of local memory by its bank (R37). -/
def startUnit (s : State) (eng : Nat) (op : EngOp) (u : Nat) : State :=
  let op := { op with started := NSet.add op.started u }
  let a := op.src u
  match (match op.kind with | .copy => copySrc (copyOpc op.fields) | _ => .localSpace) with
  | .localSpace =>
    queueParts (.engine eng u) (clusterOf (coreOf op.seat)) [(0, 0, ⟨op.segBase + op.localSrc u, .read, 0⟩)] (s.setActive eng op)
  | .global => unitRead s eng op u a 8
  | _ =>
    if (a >>> 24) % 2 ^ 27 ≠ 0 then s.setActive eng (op.fail 0x02 0x02 a)
    else (s.sendReq (engReq s op eng u a 8 false true 0)).1.setActive eng op

/-- An operation issues no further access: it has failed, or it is cancelled (R148, R149). -/
def EngOp.stopped (op : EngOp) : Bool := op.status.isSome || op.cancelled

/-- A local word that a unit wanted has been read: a copy writes it, a gather reads the element that it names. -/
def unitWord (s : State) (eng : Nat) (op : EngOp) (u : Nat) (w : Word) : State :=
  match op.kind with
  | .copy => writeUnit s eng op u w
  | _ =>
    let idx := signExt 32 (w.toNat >>> (8 * ((op.segBase + op.localSrc u) % 8)))
    unitRead s eng op u ((fieldAt op.fields 1 + idx.toNat * op.unitSize) % 2 ^ 64) op.unitSize

/-- A bank serves an access of an engine's unit; the engine then goes on. -/
def State.engineServed (s : State) (eng u : Nat) (p : BankPart) : State :=
  match (s.engine eng).active with
  | none => s
  | some op =>
    let cl := clusterOf (coreOf op.seat)
    let bad := s.localPoisoned cl p.off
    let s := match p.op with
      | .write m d =>
        if bad && m != 255 then s.setActive eng (op.fail 0x03 0 (op.dst u)) else (s.localWrite cl p.off m d).setActive eng (op.finish u)
      | _ =>
        if bad then s.setActive eng (op.fail 0x03 0 (op.localSrc u))
        else if op.stopped then s
        else unitWord s eng op u (s.localWord cl p.off)
    s.addWork 1 (.engineAccessReply eng)

/-- An access of the engine is at a bank, and such a read. -/
def State.engineAtBank (s : State) (eng : Nat) : Bool :=
  s.atBank fun u => match u with | .engine e _ => e == eng | _ => false
def State.indexAtBank (s : State) (eng : Nat) : Bool :=
  s.fab.banks.any fun p => p.2.waiting.any fun w => (match w.user with | .engine e _ => e == eng | _ => false) && w.part.op == .read

/-- The lowest unit not yet begun. -/
def EngOp.lowest (op : EngOp) : Nat :=
  (List.range (op.doneSet.length + op.started.length)).foldl
    (fun d _ => if NSet.has op.doneSet d || NSet.has op.started d then d + 1 else d) op.done

/-- The next unit to begin: any that has not begun, or for a stream and for the index list of a gather the lowest (R145). -/
def nextUnit (s : State) (op : EngOp) : Option Nat × State :=
  let low := op.lowest
  if op.units ≤ low then (none, s)
  else if op.kind != .copy || copyDst (copyOpc op.fields) = .stream then (some low, s)
  else
    let (k, s) := s.pick (op.units - low)
    let u := low + k
    (some (if NSet.has op.doneSet u || NSet.has op.started u then low else u), s)

/-- An operation goes on: it begins one unit when none is on its way, and otherwise as many as are freely chosen; when nothing is left to
do it ends. A stream operation begins a unit only after the one before (R145). -/
def engineGo (s : State) (eng : Nat) : State :=
  match (s.engine eng).active with
  | none => s
  | some op =>
    let idle := (s.engReqs eng).isEmpty && !s.engineAtBank eng && op.word.isNone
    if op.stopped then (if idle then s.addWork 1 (.engineCompletion eng) else s)
    else if op.done = op.units then s.addWork 1 (.engineCompletion eng)
    else
      let ordered := if op.kind = .copy then copyDst (copyOpc op.fields) = .stream else s.indexAtBank eng
      let (more, s) := if idle then (1, s) else if ordered then (0, s) else s.pick 2
      if more = 0 then s
      else
        match nextUnit s op with
        | (none, s) => s
        | (some u, s) => (startUnit s eng op u).addWork 1 (.engineAccessReply eng)

/-- An answer to one access of an active operation (R148). -/
def engineAnswer (s : State) (eng id : Nat) (r : Req) (unit : Nat) (mesh : Bool) : State :=
  let s := s.dropReq id
  match (s.engine eng).active with
  | none => s
  | some op =>
    match r.answer with
    | some (.data d p _ _ _) =>
      if op.stopped then s
      else
        let (d, p) := fetched s r d p
        if linePoisoned p r.mask then s.setActive eng (op.fail 0x03 0 r.addr)
        else writeUnit s eng op unit (BitVec.ofNat 64 (lineBytes d r.addr r.size))
    | some (.word w) => if op.stopped then s else writeUnit s eng op unit w
    | some (.ack _ _) => (if mesh then s else writePerformed s r).setActive eng (op.finish unit)
    | some (.fault c b) =>
      let code : BitVec 8 := if c = 0x10 then 0x03 else if c = 0x0A then 0x04 else 0x02
      s.setActive eng (op.fail code (if code = 0x02 then b else 0) r.addr)
    | _ => s

/-! ## Collective operations (R146, R147) -/

def State.setColl (s : State) (id : Nat) (c : Collective) : State :=
  { s with fab := { s.fab with collectives := FMap.insert s.fab.collectives id c } }
def State.dropColl (s : State) (id : Nat) : State := { s with fab := { s.fab with collectives := FMap.erase s.fab.collectives id } }

/-- Participants in rank order. -/
def insertRank (p : Nat × EngOp) : List (Nat × EngOp) → List (Nat × EngOp)
  | [] => [p]
  | q :: rest => if p.1 < q.1 then p :: q :: rest else q :: insertRank p rest

/-- An operation is for a collective: its ASID, its tag and the cores that its scope covers. -/
def EngOp.fits (s : State) (op : EngOp) (c : Collective) : Bool :=
  c.asid == op.asid && c.ctag == op.fields.getD 5 0
    && c.cores == (List.range 2048).filter fun n => s.scopeHasCore op.asid (coreOf op.seat) (collScope op.fields) n

/-- The first shadow of each core. -/
def firstOfCore : List EngOp → List EngOp → List EngOp
  | [], _ => []
  | op :: rest, seen => if seen.any fun x => coreOf x.seat == coreOf op.seat then firstOfCore rest seen else op :: firstOfCore rest (op :: seen)

/-- The shadows committed for a collective that an engine, whose completion is still undelivered, has not taken, of cores that have not joined (R146, R155). -/
def Collective.untaken (s : State) (c : Collective) : List EngOp :=
  firstOfCore (s.fab.engines.flatMap fun p => p.2.committed.filter fun op =>
    op.kind == .collective && op.fits s c && !c.joined.any fun j => j.1 == coreOf op.seat) []

/-- The shadows committed for a collective: those that have joined, and those not taken. -/
def Collective.committed (s : State) (c : Collective) : List EngOp := c.joined.map (·.2) ++ c.untaken s

/-- A committed shadow of a seat leaves its collective engine. -/
def State.dropShadow (s : State) (op : EngOp) : State :=
  let e := engineOf 2 (coreOf op.seat)
  (s.setEngine e { s.engine e with committed := listErase (fun x => x == op) (s.engine e).committed }).modSeat op.seat fun x =>
    { x with committed := putBit x.committed 2 false }

/-- The first to commit. -/
def firstCommitted : List EngOp → Option EngOp
  | [] => none
  | op :: rest =>
    match firstCommitted rest with
    | some x => if x.committedAt < op.committedAt || (x.committedAt == op.committedAt && x.place < op.place) then some x else some op
    | none => some op

/-- The cycle at which the join limit passes: that of the first participant to commit governs (R146). -/
def Collective.limitAt (s : State) (c : Collective) : Option Nat :=
  (firstCommitted (c.committed s)).bind fun op =>
    if fieldAt op.fields 6 = 0 then none else some (op.committedAt + fieldAt op.fields 6 * 1024)

/-- Every participant has committed before a cycle. -/
def Collective.inTime (s : State) (c : Collective) (d : Nat) : Bool :=
  !c.others && c.cores.all fun n => (c.committed s).any fun op => coreOf op.seat == n && decide (op.committedAt < d)

/-- Every participant has joined in this cycle: the operation may start. -/
def readyCollective (s : State) (id : Nat) (c : Collective) : State :=
  if c.joined.length = c.cores.length && !c.others then (s.setColl id { c with ready := some s.cycle }).addWork 1 (.collectiveStart id)
  else s.setColl id c

/-- A committed shadow joins its collective, or opens one. A core is one participant (R146): a shadow of a core that has joined belongs to another
operation of the tag. -/
def joinCollective (s : State) (op : EngOp) : State :=
  let core := coreOf op.seat
  let cores := (List.range 2048).filter fun c => s.scopeHasCore op.asid core (collScope op.fields) c
  let others := !(s.scopeDevices op.asid (collScope op.fields)).isEmpty
  let tag := op.fields.getD 5 0
  let fits (c : Collective) : Bool := op.fits s c && !c.started && c.status.isNone && !c.joined.any fun j => j.1 == core
  match s.fab.collectives.find? fun p => fits p.2 with
  | some (id, c) => readyCollective s id { c with joined := insertRank (core, op) c.joined }
  | none =>
    let (id, s) := s.fresh
    let c : Collective := ⟨op.asid, tag, cores, others, [(core, op)], none, none, false, 0, false, [], 0, [], none, false⟩
    let limit := c.limitAt s
    let s := match limit with
      | some d => s.addWork (d - s.cycle) (.collectiveJoinTimeout id)
      | none => s
    readyCollective s id { c with joinDeadline := limit }

/-- The operations have an engine in common: cores of one die. -/
def Collective.meets (c d : Collective) : Bool := c.cores.any fun x => d.cores.any fun y => dieOf x == dieOf y

/-- A seat has joined an operation by an earlier EGO than that by which it joined another (R124). -/
def Collective.earlierAt (d c : Collective) : Bool :=
  d.joined.any fun j => c.joined.any fun k => j.2.seat == k.2.seat && decide (j.2.committedAt < k.2.committedAt)

/-- An operation holds back another: one of their seats joined it by an earlier EGO; or they have an engine in common, and it has started or became ready
before (R124, R143). -/
def enginesBusy (s : State) (id : Nat) (c : Collective) : Bool :=
  s.fab.collectives.any fun p => p.1 != id
    && (p.2.earlierAt c || (p.2.meets c && (p.2.started || (match p.2.ready, c.ready with
      | some x, some y => (decide (x < y) || (x == y && decide (p.1 < id))) && !c.earlierAt p.2
      | _, _ => false))))

/-- The collectives that every participant has joined and that have not started try to start. -/
def State.startWaiting (s : State) : State :=
  (s.fab.collectives.filter fun p => p.2.ready.isSome && !p.2.started).foldl (fun s p => s.addWork 1 (.collectiveStart p.1)) s

/-- The die engine of a participant has a completion undelivered: its later operations wait (R155). -/
def Collective.waits (s : State) (c : Collective) : Bool := c.cores.any fun n => s.completionOut (engineOf 2 n)

/-- A collective ends: every participant that has joined, which is to have committed its shadow (R146), gets its completion; the engines take the operations
that are ready. -/
def endCollective (s : State) (id : Nat) (c : Collective) : State :=
  let (code, sub, addr) := if c.cancelled then (0x01, 0, 0) else c.status.getD (0x00, 0, 0)
  let late := c.untaken s
  let s := c.joined.foldl (fun s (core, op) => s.sendCompletion (engineOf 2 core) op code sub c.done addr) (s.dropColl id)
  let s := late.foldl (fun s op => (s.dropShadow op).sendCompletion (engineOf 2 (coreOf op.seat)) op code sub c.done addr) s
  s.startWaiting

/-- Shadows that agree in operation, element type, count and root (R146). -/
def sameShape (a b : List Word) : Bool := fieldAt a 0 % 65536 == fieldAt b 0 % 65536 && a.getD 3 0 == b.getD 3 0 && a.getD 4 0 == b.getD 4 0

/-- The reduction of the inputs of one element (R147). DESIGN CHOICE: for a SUM of one participant the specification shows no addition, so that its input is
passed on bit for bit, a NaN as well (log entry 106). -/
def reduceElem (ty red : Nat) (xs : List Nat) : Nat :=
  let n := codeBits ty
  let m := fmtOfCode ty
  match xs with
  | [] => 0
  | x :: rest =>
    if ty ≤ 3 then
      (rest.foldl (fun (a : Int) y =>
        let y := toSigned n y
        if red = 0 then a + y else if red = 1 then min a y else max a y) (toSigned n x) % (2 ^ n : Nat)).toNat
    else if red = 0 then rest.foldl (fun a y => (m.sum .rne (m.decode a) (m.decode y)).bits) x
    else
      let r := rest.foldl (fun a y => (m.minMax (red == 2) a y).bits) x
      if (m.decode r).isNan then m.nanBits else r

/-- The writes of an element: participant, destination element, value. -/
def collWrites (c : Collective) (fs : List Word) (vals : List Nat) : List (Nat × Nat × Nat) :=
  let n := c.joined.length
  let count := fieldAt fs 3
  let all (v : Nat) := (List.range n).map fun p => (p, c.elem, v)
  match collOpc fs with
  | 0 => all (reduceElem (collType fs) (collRed fs) vals)
  | 1 => (List.range n).flatMap fun p => (List.range n).map fun r => (p, r * count + c.elem, vals.getD r 0)
  | 2 => [(c.elem / (count / n), c.elem % (count / n), reduceElem (collType fs) (collRed fs) vals)]
  | _ => all (vals.getD 0 0)

/-- The participants whose input an element needs: the root of a broadcast, or all. -/
def collReaders (c : Collective) (fs : List Word) : List Nat :=
  if collOpc fs = 3 then (List.range c.joined.length).filter fun r => (c.joined.map (·.1)).getD r 0 == fieldAt fs 4 % 2048
  else List.range c.joined.length

/-- The collective agrees, and its count and root allow it (R146, R326). -/
def collAgrees (s : State) (c : Collective) (fs : List Word) : Bool :=
  (c.joined.all fun j => sameShape j.2.fields fs)
    && !(collOpc fs == 2 && fieldAt fs 3 % c.joined.length != 0)
    && !(collOpc fs == 3 && (fieldAt fs 4 / 65536 != s.device.toNat || !(c.joined.any fun j => j.1 == fieldAt fs 4 % 2048)))

def collFields (c : Collective) : List Word := match c.joined with
  | [] => []
  | (_, op) :: _ => op.fields

/-- The writes of an element, in turn, up to one whose address has no form (R24, R33). -/
def collSend (s : State) (id : Nat) (size : Nat) (ops : List EngOp) : List (Nat × Nat × Nat) → Collective → State × Collective
  | [], c => (s, c)
  | (p, e, v) :: rest, c =>
    match ops[p]? with
    | none => collSend s id size ops rest c
    | some op =>
      let va := (fieldAt op.fields 2 + e * size) % 2 ^ 64
      if 2 ^ 48 ≤ va then (s, { c with status := some (0x02, 0x01, BitVec.ofNat 64 va) })
      else collSend (writeGlobal s op (collectiveKey id) p va size (BitVec.ofNat 64 v)) id size ops rest c

/-- Writes the element that is in work (R326): one request for each destination. -/
def collWrite (s : State) (id : Nat) (c : Collective) : State :=
  let fs := collFields c
  let vals : List Nat := (collReaders c fs).map fun r => (((FMap.find? c.got r).getD 0).toNat)
  let (s, c) := collSend s id (collSize fs) (c.joined.map (·.2)) (collWrites c fs vals) { c with writing := true }
  (s.setColl id c).addWork 1 (.engineAccessReply (collectiveKey id))

/-- Reads the element that is in work from every participant. -/
def collRead (s : State) (id : Nat) (c : Collective) : List Nat → State × Collective
  | [] => (s, c)
  | r :: rest =>
    match (c.joined.map (·.2))[r]? with
    | none => collRead s id c rest
    | some op =>
      let size := collSize op.fields
      let va := (fieldAt op.fields 1 + c.elem * size) % 2 ^ 64
      match readGlobal s op (collectiveKey id) r va size with
      | .got w => collRead s id { c with got := c.got ++ [(r, w)] } rest
      | .fails code b => (s, { c with status := some (code, b, BitVec.ofNat 64 va) })
      | .sent s => collRead s id c rest

/-- The lowest element not performed. -/
def Collective.lowest (c : Collective) : Nat :=
  (List.range c.doneSet.length).foldl (fun d _ => if NSet.has c.doneSet d then d + 1 else d) c.done

/-- A started collective goes on when none of its accesses is on its way: its inputs are there, its outputs are written, or it ends. -/
def collGo (s : State) (id : Nat) : State :=
  match FMap.find? s.fab.collectives id with
  | none => s
  | some c =>
    let key := collectiveKey id
    if !(s.engReqs key).isEmpty then s
    else if c.status.isSome || c.cancelled then endCollective s id c
    else if !c.started then s
    else
      let fs := collFields c
      let reading := !c.writing && c.got.length == (collReaders c fs).length && c.got.length != 0
      if reading then collWrite s id c
      else
        -- the element before is performed, and another one begins
        let c := if c.writing then
            let set := NSet.add c.doneSet c.elem
            let d := (List.range set.length).foldl (fun d _ => if NSet.has set d then d + 1 else d) c.done
            { c with done := d, doneSet := set.filter fun x => d ≤ x, writing := false, got := [] }
          else c
        if fieldAt fs 3 ≤ c.done then endCollective s id c
        else
          let (k, s) := s.pick (fieldAt fs 3 - c.lowest)
          let e := c.lowest + k
          let c := { c with elem := if NSet.has c.doneSet e then c.lowest else e, got := [] }
          let (s, c) := collRead s id c (collReaders c fs)
          (s.setColl id c).addWork 1 (.engineAccessReply key)

/-- An answer to an access of a collective operation. -/
def collAnswer (s : State) (cid id : Nat) (r : Req) (unit : Nat) : State :=
  let s := s.dropReq id
  match FMap.find? s.fab.collectives cid with
  | none => s
  | some c =>
    let fail (code b : BitVec 8) : State :=
      s.setColl cid (if c.status.isSome then c else { c with status := some (code, b, BitVec.ofNat 64 r.addr) })
    match r.answer with
    | some (.data d p _ _ _) =>
      let (d, p) := fetched s r d p
      if linePoisoned p r.mask then fail 0x03 0
      else s.setColl cid { c with got := c.got ++ [(unit, BitVec.ofNat 64 (lineBytes d r.addr r.size))] }
    | some (.fault code b) => if code = 0x10 then fail 0x03 0 else if code = 0x0A then fail 0x04 0 else fail 0x02 b
    | some (.ack _ _) => writePerformed s r
    | _ => s

/-! ## Steps of the engines -/

/-- The collectives that a seat has joined are cancelled (R149). -/
def cancelCollectives (s : State) (seat : Nat) : State :=
  (s.joinedBy seat).foldl (fun s id =>
    match FMap.find? s.fab.collectives id with
    | some c => collGo (s.setColl id { c with cancelled := true }) id
    | none => s) s

/-- A shadow committed and not yet taken is cancelled: with it the operation that it joins, for every participant (R149). -/
def cancelShadows (seat : Nat) : List EngOp → State → State
  | [], s => s
  | op :: rest, s => cancelShadows seat rest (cancelCollectives (joinCollective (s.dropShadow op) op) seat)

/-- ECAN (R149, R329): the active operation first, then the committed shadow; each sends its own completion. -/
def execEcan (o : OpEng) (s : State) : Out :=
  issue (.ecan o) s fun s _ _ _ =>
    let e := o.eng.toNat
    let eng := engineOf e (coreOf s.cur)
    let mark (op : EngOp) : EngOp := if op.seat = s.cur then { op with cancelled := true, word := none } else op
    let x := s.engine eng
    if e = 2 then .done (cancelShadows s.cur (x.committed.filter fun op => op.seat == s.cur) (cancelCollectives s s.cur))
    else .done ((s.setEngine eng { committed := x.committed.map mark, active := x.active.map mark }).addWork 0 (.engineAccessReply eng))

/-- A collective engine takes every committed shadow, in the order of their EGOs. -/
def takeCollectives : List EngOp → State → State
  | [], s => s
  | op :: rest, s => takeCollectives rest (joinCollective (s.modSeat op.seat fun x => { x with committed := putBit x.committed 2 false }) op)

/-- ENGINE_SHADOW_TAKE: the engine takes the oldest committed shadow when it has no operation and no completion undelivered (R144, R155). -/
def execEngineShadowTake (eng : Nat) (s : State) : Out :=
  let x := s.engine eng
  if s.completionOut eng then .next s
  else if kindOfEngine eng = .collective then
    .next ((takeCollectives x.committed (s.setEngine eng { x with committed := [] })).startWaiting)
  else
    match x.active, x.committed with
    | none, op :: rest =>
      let s := s.setEngine eng ⟨rest, some op⟩
      let s := s.modSeat op.seat fun x => { x with committed := putBit x.committed (engineCode op.kind) false }
      .next (s.addWork 1 (.engineAccessReply eng))
    | _, _ => .next s

/-- ENGINE_ACCESS_REPLY: the engine takes one answer that has arrived and goes on. -/
def execEngineAccessReply (key : Nat) (s : State) : Out :=
  let s := match (s.engReqs key).find? fun p => p.2.answer.isSome with
    | none => s
    | some (id, r) =>
      match r.op with
      | .eng _ unit _ mesh => if key < 1024 then engineAnswer s key id r unit mesh else collAnswer s (key - 1024) id r unit
      | _ => s
  .next (if key < 1024 then engineGo s key else collGo s (key - 1024))

/-- A word of the overflow area that no queue of the context uses (R403). -/
def State.freeOverflow (s : State) (asid : BitVec 16) : Option Nat :=
  let used := s.fab.cores.flatMap fun p => p.2.qs.toList.flatMap fun q => match q with
    | some x => if x.asid == asid then x.overflow else []
    | none => []
  (List.range 512).find? fun k => !used.contains k

/-- STREAM_PUSH: the word that waits is pushed when the queue has room; with no thread of the ASID on the core it goes to the overflow area, whose poison
it clears (R408); otherwise the engine waits for a pop (R145, R403). -/
def execStreamPush (eng : Nat) (s : State) : Out :=
  match (s.engine eng).active with
  | none => .next s
  | some op =>
    match op.word with
    | none => .next s
    | some w =>
      let (core, q) := streamOf op.fields (coreOf op.seat)
      let go (s : State) : State := (s.setActive eng ({ op with word := none }.finish op.done)).addWork 1 (.engineAccessReply eng)
      match (if op.stopped then none else (s.core core).queue q) with
      | none => .next ((s.setActive eng ({ op with word := none }.fail 0x02 0 0)).addWork 1 (.engineAccessReply eng))
      | some x =>
        if x.kind ≠ .stream || x.asid ≠ op.asid then
          .next ((s.setActive eng ({ op with word := none }.fail 0x02 0 0)).addWork 1 (.engineAccessReply eng))
        else if x.words.length < 16 && x.overflow.isEmpty then
          .next (go (s.modCore core fun c => c.setQueue q (some { x with words := x.words ++ [(w, s.cycle)], feeder := some eng })))
        else
          let wait := s.modCore core fun c => c.setQueue q (some { x with feeder := some eng })
          if s.asidOn core op.asid then .next wait
          else
            match s.freeOverflow op.asid, s.context? op.asid with
            | some k, some c =>
              let va := overflowVa c.faultq k
              let s := s.landPieces op.asid
              match s.areaPlace op.asid va with
              | some p =>
                .next (go ((s.physWrite64 p w).modCore core fun c => c.setQueue q (some { x with overflow := x.overflow ++ [k], feeder := some eng })))
              | none => .next (s.fqFail op.asid va)
            | _, _ => .next wait

/-- COLLECTIVE_START: every participant has committed, and no engine of theirs is at work for an operation that came before (R124, R143) or has a completion
undelivered (R155); shadows that disagree end it (R146). -/
def execCollectiveStart (op : Nat) (s : State) : Out :=
  match FMap.find? s.fab.collectives op with
  | none => .next s
  | some c =>
    if c.started || c.ready.isNone || enginesBusy s op c || c.waits s then .next s
    else if !collAgrees s c (collFields c) then .next (endCollective s op { c with status := some (0x05, 0, 0) })
    else .next (collGo (s.setColl op { c with started := true }) op)

/-- COLLECTIVE_JOIN_TIMEOUT: the join limit passes before every participant has committed; those that have joined receive TIMEOUT (R146). -/
def execCollectiveJoinTimeout (op : Nat) (s : State) : Out :=
  match FMap.find? s.fab.collectives op with
  | none => .next s
  | some c =>
    match c.joinDeadline with
    | none => .next s
    | some d =>
      if c.started || decide (s.cycle < d) || c.inTime s d then .next s else .next (endCollective s op { c with status := some (0x06, 0, 0) })

/-- ENGINE_COMPLETION: the active operation ends and its completion is sent (R148); one that ECAN has reached completes CANCELLED (R149). -/
def execEngineCompletion (eng : Nat) (s : State) : Out :=
  match (s.engine eng).active with
  | none => .next s
  | some op =>
    if !(op.stopped || op.done == op.units) || !(s.engReqs eng).isEmpty || s.engineAtBank eng then .next s
    else
      let s := s.setEngine eng { s.engine eng with active := none }
      if op.cancelled then .next (s.sendCompletion eng op 0x01 0 op.doneWord 0)
      else
        match op.status with
        | some (code, b, addr) => .next (s.sendCompletion eng op code b op.doneWord addr)
        | none => .next (s.sendCompletion eng op 0x00 0 op.doneWord 0)

/-- COMPLETION_DROP: a completion refused for 65,536 cycles is dropped with a fatal record (R155). DESIGN CHOICE (log entry 116): its SOURCE is the completion
core and its LAUNCH that of the issuing thread. -/
def execCompletionDrop (eng : Nat) (s : State) : Out :=
  let due := s.net.msgs.find? fun p =>
    (match p.2.kind with | .completion e => e == eng | _ => false)
      && (match p.2.deadline with | some d => decide (d ≤ s.cycle) | none => false)
  match due with
  | none => .next s
  | some (id, m) =>
    let core := targetCore m.dst
    let s := (s.dropMsg id).countReceived m.launch core
    .next ((s.faultRecord m.asid ⟨3, 0x15, 0x03, 3, core, m.launch, core, m.payload.getD 0 0⟩).1.addWork 0 (.engineShadowTake eng))

end Sys2Proof.Machine
end

