-- ==== Sys2Proof/Machine/QueueOps.lean ====
section
/-!
DEFINITION. QBIND, QSTAT, QFLUSH and QUNBIND (R287 to R291).
-/

namespace Sys2Proof.Machine

def kindOfCode (k : BitVec 3) : QKind := match k.toNat with
  | 0 => .fifo
  | 1 => .stream
  | 2 => .port
  | 3 => .inbox
  | _ => .result
def QKind.code : QKind → Nat
  | .fifo => 0
  | .stream => 1
  | .port => 2
  | .inbox => 3
  | .result => 4
def QKind.cap : QKind → Nat
  | .fifo => 8
  | .stream => 16
  | .port => 8
  | .inbox => 0
  | .result => 16

/-- A port parameter with a non-zero reserved bit, or a core above 2,047 (R288, R289). -/
def portBad (w : Word) : Bool := bitsOf w 32 32 != 0 || bitsOf w 24 4 != 0 || bitsOf w 11 5 != 0

/-- A QUEUE trap of register q (R289). -/
def queueTrap (sub : BitVec 8) (q : BitVec 4) : Res := .trap 0x0B sub (q.setWidth 64)

/-- QBIND: the spill area is checked as an address, then the register. -/
def execQbind (o : OpQbind) (s : State) : Out :=
  issue (.qbind o) s fun s uid t vals =>
    let x := s.seat s.cur
    let core := coreOf s.cur
    let p := vals.getD 0 0
    let kind := kindOfCode o.kind
    let area : Test :=
      if kind ≠ .result then .pass
      else if p.toNat % 64 ≠ 0 then .trap 0x04 (Config.openSub 0x04) p
      else
        match checkExtent x.lbase.toNat x.segLen p 6144 with
        | .trap c b v => .trap c b v
        | .ok _ => .pass
    match area with
    | .trap c b v => .trap c b v
    | _ =>
      match (s.core core).queue o.qn.toNat with
      | some y => if y.asid = t.asid then queueTrap 0x04 o.qn else queueTrap 0x02 o.qn
      | none =>
        if kind = .port && portBad p then queueTrap 0x06 o.qn
        else
          .done (s.modCore core fun c => c.setQueue o.qn.toNat (some ⟨kind, t.asid, p, [], uid, 0, [], x.lbase.toNat + p.toNat, none, 0, [], []⟩))

/-- The words that a pop would find, or for an inbox view the entries that RECV would take, up to 255 (R290). -/
def State.qstatCount (s : State) (core : Nat) (t : Thread) (x : Queue) : Nat :=
  min 255 (if x.kind = .inbox then (s.recvEntries core t.asid t.sys.xstat.mode).length else x.visible s.cycle)

/-- The status word of a bound queue register. -/
def State.qstatWord (s : State) (core : Nat) (t : Thread) (x : Queue) : Word :=
  BitVec.ofNat 64 (2 ^ 63 + x.kind.code * 2 ^ 60 + x.asid.toNat * 2 ^ 32 + (x.spilled.length % 2 ^ 16) * 2 ^ 16 + x.kind.cap * 256
    + s.qstatCount core t x)

def execQstat (o : OpQd) (s : State) : Out :=
  issue (.qstat o) s fun s uid t _ =>
    match (s.core (coreOf s.cur)).queue o.qn.toNat with
    | none => .done (s.putD s.cur uid o.d 0)
    | some x => if x.asid ≠ t.asid then queueTrap 0x02 o.qn else .done (s.putD s.cur uid o.d (s.qstatWord (coreOf s.cur) t x))

/-- The queue without the words whose push was issued at or before cycle c − 6, and without spilled and overflow words; and how many
those were (R291). -/
def Queue.flush (x : Queue) (now : Nat) : Queue × Nat :=
  let keep := x.words.filter fun w => decide (now < w.2 + 6)
  ({ x with words := keep, spilled := [], overflow := [], unwritten := [] }, (x.words.length - keep.length) + x.spilled.length + x.overflow.length)

/-- A unit that waits for room may go on after a flush. -/
def State.flushFed (s : State) (x : Queue) : State := s.popFed x

def execQflush (o : OpQd) (s : State) : Out :=
  issue (.qflush o) s fun s uid t _ =>
    let core := coreOf s.cur
    match (s.core core).queue o.qn.toNat with
    | none => queueTrap 0x01 o.qn
    | some x =>
      if x.asid ≠ t.asid then queueTrap 0x02 o.qn
      else if x.kind = .inbox then queueTrap 0x07 o.qn
      else
        let (y, n) := x.flush s.cycle
        .done (((s.modCore core fun c => c.setQueue o.qn.toNat (some y)).flushFed x).putD s.cur uid o.d (BitVec.ofNat 64 n))

/-- What feeds a result stream is a search or an enumeration, and not an IXSTAT (R289). -/
def State.feederPins (s : State) (f : Nat) : Bool := match (s.req? f).map (·.op) with
  | some (ReqOp.ixstat _) => false
  | _ => true

/-- An engine stream operation, or a search or an enumeration, still delivers to a queue register (R289). -/
def State.delivers (s : State) (core q : Nat) (x : Queue) : Bool :=
  let stream (op : EngOp) : Bool := copyDst (copyOpc op.fields) = .stream && streamOf op.fields (coreOf op.seat) == (core, q)
  let eng := s.engine (tileOf core)
  (x.kind = .result && x.feeder.any s.feederPins) || eng.committed.any stream || eng.active.any stream

/-- QUNBIND discards as QFLUSH does; an inbox view holds no words of its own. -/
def execQunbind (o : OpQd) (s : State) : Out :=
  issue (.qunbind o) s fun s uid t _ =>
    let core := coreOf s.cur
    match (s.core core).queue o.qn.toNat with
    | none => queueTrap 0x01 o.qn
    | some x =>
      if x.asid ≠ t.asid then queueTrap 0x02 o.qn
      else if s.delivers core o.qn.toNat x then queueTrap 0x05 o.qn
      else .done ((s.modCore core fun c => c.setQueue o.qn.toNat none).putD s.cur uid o.d (BitVec.ofNat 64 (x.flush s.cycle).2))

end Sys2Proof.Machine
end

