-- ==== Sys2Proof/Machine/Message.lean ====
section
/-!
DEFINITION. SEND, RECV, ENQ, SPAWN, WIDF and IBXS (R330 to R334, R336, R337).
-/

namespace Sys2Proof.Machine

/-- A class 3 packet of a thread. -/
def State.packet (s : State) (seat uid : Nat) (t : Thread) (kind : MsgKind) (dst : Word) (payload : List Word) : Msg where
  kind := kind
  dst := dst
  payload := payload
  seat := seat
  uid := some uid
  asid := t.asid
  launch := t.launch
  budget := t.limit.toNat
  sentAt := s.cycle
  injected := false
  stage := .going
  answer := none
  counted := false
  deadline := none

/-- Sends a packet once the seat's send queue has a free entry (R153). -/
def sendWhenRoom (s : State) (seat : Nat) (m : Msg) : Res := if sendRoom (s.seat seat) then .done (s.sendMsg m) else .park

/-- With `.rel` the release of R111 comes first: scope 6 or 7, both wide. -/
def afterRelease (rel : Bool) (s : State) (uid : Nat) (f : State → Res) : Res :=
  if rel then (s.release s.cur uid true true).andThen f else f s

/-- SEND (R331). -/
def execSend (o : OpSend) (s : State) : Out :=
  issue (.send o) s fun s uid t vals =>
    let target := vals.getD 0 0
    if target.toNat ≠ target.toNat % 2 ^ 24 ∨ bitsOf target 14 2 ≠ 0 then .trap 0x06 0x02 target
    else afterRelease o.rel s uid fun s => sendWhenRoom s s.cur (s.packet s.cur uid t .send target ((vals.drop 1).take 8))

/-- ENQ (R333): the queue address is checked before the release. -/
def execEnq (o : OpSend) (s : State) : Out :=
  issue (.enq o) s fun s uid t vals =>
    let q := vals.getD 0 0
    if bitsOf q 17 39 ≠ 0 then .trap 0x06 0x02 q
    else afterRelease o.rel s uid fun s => sendWhenRoom s s.cur (s.packet s.cur uid t .enq q ((vals.drop 1).take 8))

/-- The address of a dispatch queue of this device (R162). -/
def State.queueAddress (s : State) (key : Nat) : Word := BitVec.ofNat 64 (s.device.toNat * 2 ^ 56 + key)

/-- SPAWN (R334): a packet for the queue that started the thread's task. A thread that no queue started names a queue that does not
exist. -/
def execSpawn (o : OpD) (s : State) : Out :=
  issue (.spawn o) s fun s uid t vals =>
    match t.origin.queue with
    | some q => sendWhenRoom s s.cur (s.packet s.cur uid t .spawn (s.queueAddress q) (vals.take 8))
    | none => .done (s.deferFault uid (poisonRec 0x06 0x04 0))

/-- The word accesses of a RECV: the eight payload words, and the header, which is marked TAKEN as it is read (R159, R332). -/
def recvParts (n base idx : Nat) : List BankPart :=
  ((List.range 8).map fun j => (⟨slotOff n base idx + 8 * j, .read, j⟩ : BankPart)) ++ [⟨headerOff n base idx, .atomic 4 1 0, 8⟩]

/-- RECV (R332): the oldest entry that qualifies is taken as it issues (R159), and its nine words are local accesses of the core. -/
def execRecv (o : OpDA) (s : State) : Out :=
  issue (.recv o) s fun s uid t _ =>
    let core := coreOf s.cur
    match s.recvEntries core t.asid t.sys.xstat.mode, (s.core core).ring with
    | idx :: _, some (n, base) =>
      .leave ((s.modCore core fun c => c.resetViews t.asid).localAccess s.cur uid (.recv o.d o.a idx) 0 (recvParts n base idx))
    | _, _ => .park

/-- WIDF (R336): a field of wid, or an extent. -/
def execWidf (o : OpWidf) (s : State) : Out :=
  issue (.widf o) s fun s uid t _ =>
    let j := o.j.toNat
    let shape := t.sys.widshape.toNat
    let v := if o.e then (if widthOf shape j = 0 then 1 else s.extentOf t j) else bitsOf t.regs.wid (shiftOf shape j) (widthOf shape j)
    .done (s.putD s.cur uid o.d (BitVec.ofNat 64 v))

/-- IBXS (R337). -/
def execIbxs (o : OpD) (s : State) : Out :=
  issue (.ibxs o) s fun s uid t _ =>
    let core := coreOf s.cur
    let c := s.core core
    .done (s.putD s.cur uid o.d (BitVec.ofNat 64
      (b2n c.ovf * 2 ^ 63 + c.pending * 2 ^ 16 + (s.recvEntries core t.asid t.sys.xstat.mode).length % 2 ^ 16)))

end Sys2Proof.Machine
end

