-- ==== Sys2Proof/Machine/Index.lean ====
section
/-!
DEFINITION. The index instructions as they issue (R28, R100, R338 to R346). What the sequencer and the Ladder engines do is in Ladder.lean.
-/

namespace Sys2Proof.Machine

/-- The index number and the block's segment offset in g[A] (R338). -/
def indexOf (w : Word) : Nat := bitsOf w 0 12
def blockOff (w : Word) : Word := BitVec.ofNat 64 (bitsOf w 32 24)

/-- The issue check of a request block: its alignment, then its first 64 bytes (R339, R340). -/
def checkBlock (x : Seat) (o : Word) : Test :=
  if o.toNat % 64 ≠ 0 then .trap 0x04 (Config.openSub 0x04) o
  else
    match checkExtent x.lbase.toNat x.segLen o 64 with
    | .trap c b v => .trap c b v
    | .ok _ => .pass

/-- The check of a result queue (R342, R289); a stream that another producer still feeds makes the thread wait (R346). -/
def checkResultQueue (s : State) (core : Nat) (t : Thread) (q : BitVec 4) : Test :=
  match (s.core core).queue q.toNat with
  | none => .trap 0x0B 0x01 (q.setWidth 64)
  | some x =>
    if x.asid ≠ t.asid then .trap 0x0B 0x02 (q.setWidth 64)
    else if x.kind ≠ .result then .trap 0x0B 0x08 (q.setWidth 64)
    else if x.feeder.isSome then .park
    else .pass

/-- Names the producer of a result stream. -/
def State.feedQueue (s : State) (core q : Nat) (f : Option Nat) : State :=
  match (s.core core).queue q with
  | some x => if x.kind = .result then s.modCore core fun c => c.setQueue q (some { x with feeder := f }) else s
  | none => s

/-- A request to an index, one at a time for a thread and an index (R100). `q` is the result queue that it feeds. -/
def indexRequest (s : State) (uid : Nat) (t : Thread) (a : Word) (op : ReqOp) (cls : AnsClass) (d : Dest) (q : Option (BitVec 4)) : Res :=
  if t.occupies (.index (indexOf a)) then .park
  else
    let id := s.fresh.1
    let s := s.sendOwed uid { Req.make s s.cur uid t op (indexOf a) 8 with off := (blockOff a).toNat } cls [.index (indexOf a)] d
    match q with
    | some q => .done (s.feedQueue (coreOf s.cur) q.toNat (some id))
    | none => .done s

/-- STVEC (R341). -/
def execStvec (o : OpDA) (s : State) : Out :=
  issue (.stvec o) s fun s uid t vals =>
    let a := vals.getD 0 0
    match checkBlock (s.seat s.cur) (blockOff a) with
    | .trap c b v => .trap c b v
    | _ => indexRequest s uid t a .stvec .store (destOf o.d) none

/-- LDNEAR (R342). -/
def execLdnear (o : OpLdnear) (s : State) : Out :=
  issue (.ldnear o) s fun s uid t vals =>
    let a := vals.getD 0 0
    match checkBlock (s.seat s.cur) (blockOff a) with
    | .trap c b v => .trap c b v
    | _ =>
      match checkResultQueue s (coreOf s.cur) t o.qn with
      | .trap c b v => .trap c b v
      | .park => .park
      | .pass => indexRequest s uid t a (.ldnear o.x o.qn.toNat) .load (destOf o.d) (some o.qn)

/-- DELVEC (R343): the ordinal is g[D]. -/
def execDelvec (o : OpDA) (s : State) : Out :=
  issue (.delvec o) s fun s uid t vals => indexRequest s uid t (vals.getD 0 0) (.delvec (vals.getD 1 0)) .store .none none

/-- IXPIN (R344). -/
def execIxpin (o : OpDA) (s : State) : Out :=
  issue (.ixpin o) s fun s uid t vals => indexRequest s uid t (vals.getD 0 0) .ixpin .load (destOf o.d) none

/-- IXUNPIN (R344): s of the pin is g[D]. -/
def execIxunpin (o : OpDA) (s : State) : Out :=
  issue (.ixunpin o) s fun s uid t vals => indexRequest s uid t (vals.getD 0 0) (.ixunpin (vals.getD 1 0)) .store .none none

/-- IXSTAT (R345). -/
def execIxstat (o : OpAq) (s : State) : Out :=
  issue (.ixstat o) s fun s uid t vals =>
    match checkResultQueue s (coreOf s.cur) t o.qn with
    | .trap c b v => .trap c b v
    | .park => .park
    | .pass => indexRequest s uid t (vals.getD 0 0) (.ixstat o.qn.toNat) .load .none (some o.qn)

end Sys2Proof.Machine
end

