-- ==== Sys2Proof/Machine/Ladder.lean ====
section
/-!
DEFINITION. The Ladder (R80 to R106): distances and keys, the graph and its one search procedure, commits in order, snapshots and pins,
reclamation, sampled recall, and the steps of the sequencer and of the engines.
-/

namespace Sys2Proof.Machine

/-! ## Vectors and distances (R84, R90 to R92) -/

/-- Bytes of an element; 0 is INT8, the others are the codes of R208. -/
def LIndex.elemBytes (ix : LIndex) : Nat := if ix.fmt = 0 || ix.fmt = 8 then 1 else 2
def LIndex.ffmt (ix : LIndex) : FFmt := fmtOfCode ix.fmt.toNat
/-- Elements are integer multiples of this power of two. -/
def LIndex.unit (ix : LIndex) : Int := if ix.fmt = 0 then 0 else ix.ffmt.emin - ix.ffmt.fbits

/-- The exact value of an element, or nothing for a NaN or an infinity. -/
def LIndex.elem (ix : LIndex) (x : Nat) : Option Int :=
  if ix.fmt = 0 then some (toSigned 8 x)
  else
    match ix.ffmt.decode x with
    | .fin n m e => some (scaleTo n m e ix.unit)
    | _ => none
def LIndex.elems (ix : LIndex) (v : List Nat) : List Int := v.map fun x => (ix.elem x).getD 0

/-- The exact sum of R90, in units of the square of an element's unit. -/
def LIndex.distSum (ix : LIndex) (q x : List Nat) : Int :=
  ((ix.elems q).zip (ix.elems x)).foldl (fun a p => if ix.metric = 0 then a + (p.1 - p.2) * (p.1 - p.2) else a - p.1 * p.2) 0

/-- The distance word (R90). -/
def LIndex.distWord (ix : LIndex) (q x : List Nat) : Word :=
  let d := ix.distSum q x
  if ix.fmt = 0 then BitVec.ofInt 64 d
  else if d = 0 then 0 else BitVec.ofNat 64 (fF32.roundInt .rne d (2 * ix.unit)).bits

/-- A distance word as an integer that compares as its value does (R90). -/
def LIndex.distOrder (ix : LIndex) (w : Word) : Int :=
  if ix.fmt = 0 then w.toInt else if w.getLsbD 31 then -(bitsOf w 0 31 : Int) else (bitsOf w 0 31 : Int)

/-- A key (R92): the distance, then the insert ordinal. -/
abbrev LKey := Int × Nat
def keyLt (a b : LKey) : Bool := decide (a.1 < b.1) || (a.1 == b.1 && decide (a.2 < b.2))

def LIndex.vecOf (ix : LIndex) (n : Nat) : List Nat := ((FMap.find? ix.entries n).map (·.vec)).getD []
def LIndex.key (ix : LIndex) (y : List Nat) (n : Nat) : LKey := (ix.distOrder (ix.distWord y (ix.vecOf n)), n)

/-- Puts a key in its place in a rising list. -/
def insertKey (k : LKey) : List LKey → List LKey
  | [] => [k]
  | x :: rest => if keyLt k x then k :: x :: rest else x :: insertKey k rest
def sortKeys (l : List LKey) : List LKey := l.foldl (fun acc k => insertKey k acc) []

/-- COS: every element divided by the norm, rounded once to the format (R91). -/
def LIndex.normalise (ix : LIndex) (v : List Nat) : List Nat :=
  let n := (ix.elems v).foldl (fun a x => a + (x * x).natAbs) 0
  v.map fun x =>
    let a := ((ix.elem x).getD 0).natAbs
    let m := a * a * 2 ^ 1600 / n
    let r := isqrt m
    let neg := decide ((x / 2 ^ (ix.ffmt.width - 1)) % 2 = 1)
    (ix.ffmt.round .rne neg r (-800) (r * r != m || m * n != a * a * 2 ^ 1600)).bits

/-- The vector of a request, checked and for COS normalised (R91). -/
def LIndex.accept (ix : LIndex) (v : List Nat) : Option (List Nat) :=
  if v.any fun x => (ix.elem x).isNone then none
  else if ix.metric = 2 then (if v.all fun x => ix.elem x == some 0 then none else some (ix.normalise v))
  else some v

/-- One coordinate of the home square (R84): rounded once, divided by the edge, floored and clamped. DESIGN CHOICE: where c is not finite, or h is not, the
quotient is no number that the rule floors; +∞ takes the last square, and NaN, −∞ and a finite c over an infinite h take square 0. -/
def LIndex.squareAxis (ix : LIndex) (v : List Nat) (j : Nat) : Nat :=
  let n := if j = 0 then ix.n0 else ix.n1
  let p := ((ix.proj.drop (j * ix.dim)).take ix.dim).map fun x => fF32.decode x.toNat
  let terms := (p.zip v).map fun (a, x) =>
    (a.mul (match ix.elem x with | some i => .fin (decide (i < 0)) i.natAbs ix.unit | none => .nan false)).1
  let o := (fF32.decode ((ix.offsets.getD j 0).toNat)).negate
  match fF32.decode (fF32.exactSum (terms ++ [o])), fF32.decode ((ix.offsets.getD (2 + j) 0).toNat) with
  | .fin neg m e, .fin _ hm he =>
    if neg || m = 0 || hm = 0 then 0
    else
      let lo := min e he
      min ((m * 2 ^ (e - lo).toNat) / (hm * 2 ^ (he - lo).toNat)) (n - 1)
  | .inf false, _ => n - 1
  | _, _ => 0

/-- Bits of two indexes interleaved, bit 0 of the first lowest. -/
def morton2 (x y : Nat) : Nat :=
  (List.range 6).foldl (fun a i => a + ((x / 2 ^ i) % 2) * 2 ^ (2 * i) + ((y / 2 ^ i) % 2) * 2 ^ (2 * i + 1)) 0

def LIndex.homeSquare (ix : LIndex) (v : List Nat) : Nat := morton2 (ix.squareAxis v 0) (ix.squareAxis v 1)

/-- The clusters of an index, lowest first; the first holds its sequencer (R85). -/
def LIndex.clusterList (ix : LIndex) : List Nat := (List.range 32).filter fun c => ix.clusters.getLsbD c
def LIndex.sequencer (ix : LIndex) : Nat := ix.clusterList.headD 0
/-- The Morton codes of the board's squares, in order. -/
def LIndex.squares (ix : LIndex) : List Nat :=
  (List.range 4096).filter fun m =>
    let x := (List.range 6).foldl (fun a i => a + ((m / 2 ^ (2 * i)) % 2) * 2 ^ i) 0
    let y := (List.range 6).foldl (fun a i => a + ((m / 2 ^ (2 * i + 1)) % 2) * 2 ^ i) 0
    decide (x < ix.n0) && decide (y < ix.n1)
/-- The cluster that owns the entries of a square (R84). -/
def LIndex.ownerCluster (ix : LIndex) (square : Nat) : Nat :=
  let cs := ix.clusterList
  let per := (ix.n0 * ix.n1 + cs.length - 1) / max 1 cs.length
  cs.getD ((((ix.squares.idxOf? square).getD 0)) / max 1 per) 0

/-! ## The graph (R93 to R95) -/

/-- The adjacency list of an entry on a level, in ascending ordinal. -/
def LIndex.adj (ix : LIndex) (upper : Bool) (n : Nat) : List Nat :=
  match FMap.find? ix.entries n with
  | some e => if upper then e.upper.getD [] else e.lower
  | none => []
def LIndex.setAdj (ix : LIndex) (upper : Bool) (n : Nat) (l : List Nat) : LIndex :=
  let l := l.foldl (fun acc x => NSet.add acc x) []
  { ix with entries := FMap.modify ix.entries n fun e => if upper then { e with upper := some l } else { e with lower := l } }

/-- What a search holds: candidates and results by key, the entries visited, and those expanded, the latest first. -/
structure Beam where
  cands : List LKey
  best : List LKey
  visited : List Nat
  expanded : List Nat

def lastKey (l : List LKey) : LKey := l.getLastD (0, 0)

/-- The neighbours of an expanded entry, in ascending ordinal. -/
def beamVisit (ix : LIndex) (y : List Nat) (n : Nat) (vis : Nat → Bool) : List Nat → Beam → Beam
  | [], b => b
  | e :: rest, b =>
    if b.visited.contains e then beamVisit ix y n vis rest b
    else
      let k := ix.key y e
      let b := { b with visited := e :: b.visited }
      if b.best.length < n || keyLt k (lastKey b.best) then
        let best := if vis e then (insertKey k b.best).take n else b.best
        beamVisit ix y n vis rest { b with cands := insertKey k b.cands, best := best }
      else beamVisit ix y n vis rest b

/-- The loop of BEAM, with a bound on its steps: each expands one entry once. -/
def beamLoop (ix : LIndex) (upper : Bool) (y : List Nat) (n : Nat) (vis : Nat → Bool) : Nat → Beam → Beam
  | 0, b => b
  | fuel + 1, b =>
    match b.cands with
    | [] => b
    | c :: rest =>
      if b.best.length = n && keyLt (lastKey b.best) c then b
      else beamLoop ix upper y n vis fuel (beamVisit ix y n vis (ix.adj upper c.2) { b with cands := rest, expanded := c.2 :: b.expanded })

/-- BEAM (R94). -/
def LIndex.beamRun (ix : LIndex) (upper : Bool) (y : List Nat) (start n : Nat) (vis : Nat → Bool) : Beam :=
  let k := ix.key y start
  beamLoop ix upper y n vis (ix.entries.length + 1) ⟨[k], if vis start then [k] else [], [start], []⟩

/-- The results of BEAM by key, and the entries visited. -/
def LIndex.beam (ix : LIndex) (upper : Bool) (y : List Nat) (start n : Nat) (vis : Nat → Bool) : List LKey × List Nat :=
  let b := ix.beamRun upper y start n vis
  (b.best, b.visited)

/-- ENTRY (R93): the entry point, and whether it is an upper-level entry. -/
def LIndex.entry (ix : LIndex) : Option (Nat × Bool) :=
  match ix.entries.find? fun p => p.2.upper.isSome with
  | some p => some (p.1, true)
  | none => ix.entries.head?.map fun p => (p.1, false)

/-- The m least keys for an entry's vector. -/
def LIndex.least (ix : LIndex) (t m : Nat) (l : List Nat) : List Nat :=
  ((sortKeys (l.map fun n => ix.key (ix.vecOf t) n)).take m).map (·.2)

/-- Adds a reverse edge, and prunes (R93). -/
def LIndex.linkBack (ix : LIndex) (upper : Bool) (x t : Nat) : LIndex :=
  let l := NSet.add (ix.adj upper t) x
  ix.setAdj upper t (if ix.m < l.length then ix.least t ix.m l else l)

/-- LINK (R93). -/
def LIndex.link (ix : LIndex) (upper : Bool) (x : Nat) (ts : List Nat) : LIndex :=
  ts.foldl (fun ix t => ix.linkBack upper x t) (ix.setAdj upper x ts)

/-- Some entry of a list has a damaged record (R103). -/
def LIndex.damagedIn (ix : LIndex) (l : List Nat) : Option Nat :=
  l.find? fun n => ((FMap.find? ix.entries n).map (·.damaged)).getD false

/-! ## The engines that a search passes through (R102) -/

/-- The cluster whose engine owns an entry. -/
def LIndex.engineOf (ix : LIndex) (n : Nat) : Nat := ix.ownerCluster (((FMap.find? ix.entries n).map (·.square)).getD 0)

/-- A list of engines in which none follows itself. -/
def moves : List Nat → List Nat := List.foldr (fun c acc => if acc.head? = some c then acc else c :: acc) []

/-- The entries expanded up to one whose expansion reads a damaged record, at which the search ends (R103). -/
def LIndex.untilDamaged (ix : LIndex) (upper : Bool) : List Nat → List Nat
  | [] => []
  | e :: rest => if (ix.damagedIn (e :: ix.adj upper e)).isSome then [e] else e :: ix.untilDamaged upper rest

/-- The owners of the entries that a BEAM expands, in order: the start entry is the first. -/
def LIndex.beamPath (ix : LIndex) (upper : Bool) (y : List Nat) (start n : Nat) (vis : Nat → Bool) : List Nat :=
  (ix.untilDamaged upper (ix.beamRun upper y start n vis).expanded.reverse).map ix.engineOf

/-- The query packets of the searches of an insert under the next ordinal. -/
def LIndex.insertPath (ix : LIndex) (v : List Nat) : List Nat :=
  match ix.entry with
  | none => []
  | some (start, up) =>
    let live (i : Nat) : Bool := ((FMap.find? ix.entries i).map fun e => e.del.isNone).getD false
    let u := if up then ((ix.beam true v start 1 fun _ => true).1.headD (0, start)).2 else start
    (if up then moves (ix.beamPath true v start 1 fun _ => true) else [])
      ++ (if up && ix.next % 256 == 0 then moves (ix.beamPath true v start ix.bIns live) else [])
      ++ moves (ix.beamPath false v u ix.bIns live)

/-- The insert of R93 under the next ordinal, or the ordinal of a damaged entry that its searches read. -/
def LIndex.insert (ix : LIndex) (v : List Nat) (payload : Word) : Except Nat LIndex :=
  let n := ix.next
  let isUpper := n % 256 = 0
  let e : LEntry := ⟨v, payload, none, ix.homeSquare v, [], if isUpper then some [] else none, false⟩
  let put (ix : LIndex) : LIndex := { ix with entries := FMap.insert ix.entries n e, next := n + 1 }
  let live (i : Nat) : Bool := ((FMap.find? ix.entries i).map fun e => e.del.isNone).getD false
  match ix.entry with
  | none => .ok (put ix)
  | some (start, true) =>
    let (r, seen) := ix.beam true v start 1 fun _ => true
    let (up, seen') := if isUpper then ix.beam true v start ix.bIns live else ([], [])
    let (low, seen'') := ix.beam false v (r.headD (0, start)).2 ix.bIns live
    match ix.damagedIn (seen ++ seen' ++ seen'') with
    | some d => .error d
    | none =>
      let ix := put ix
      let ix := if isUpper then ix.link true n ((up.take ix.m).map (·.2)) else ix
      .ok (ix.link false n ((low.take ix.m).map (·.2)))
  | some (start, false) =>
    let (low, seen) := ix.beam false v start ix.bIns live
    match ix.damagedIn seen with
    | some d => .error d
    | none => .ok ((put ix).link false n ((low.take ix.m).map (·.2)))

/-- The reclamation of an entry (R101), on one level. -/
def LIndex.unlink (ix : LIndex) (upper : Bool) (r : Nat) : LIndex :=
  let mine := (ix.adj upper r).filter fun t => ((FMap.find? ix.entries t).map fun e => e.del.isNone).getD false
  (ix.entries.map (·.1)).foldl (fun ix v =>
    let l := ix.adj upper v
    if l.contains r then
      ix.setAdj upper v (ix.least v ix.m ((mine.filter fun t => t != v).foldl (fun a t => NSet.add a t) (NSet.del l r)))
    else ix) ix

def LIndex.reclaim (ix : LIndex) (r : Nat) : LIndex :=
  let ix := ix.unlink false r
  let ix := if (((FMap.find? ix.entries r).bind (·.upper))).isSome then ix.unlink true r else ix
  { ix with entries := FMap.erase ix.entries r }

/-! ## Snapshots and pins (R96, R101, R105) -/

/-- The highest committed ordinal; all ones before the first commit. -/
def LIndex.committed (ix : LIndex) : Word := BitVec.ofNat 64 ix.next - 1
/-- The minimum-live-pin word (R101). -/
def LIndex.minPin (ix : LIndex) : Word :=
  match ix.pins ++ ix.implicitPins.map (·.2) with
  | [] => BitVec.ofNat 64 ix.next
  | p :: rest => rest.foldl (fun a b => if b.toNat < a.toNat then b else a) p

/-- Visible at a snapshot (R96). -/
def LEntry.visibleAt (e : LEntry) (n : Nat) (s : Word) : Bool :=
  s != BitVec.allOnes 64 && decide (n ≤ s.toNat) && (match e.del with | some d => decide (s.toNat < d) | none => true)
def LIndex.visible (ix : LIndex) (s : Word) (n : Nat) : Bool := ((FMap.find? ix.entries n).map fun e => e.visibleAt n s).getD false
def LIndex.visibleList (ix : LIndex) (s : Word) : List Nat := (ix.entries.filter fun p => p.2.visibleAt p.1 s).map (·.1)

/-- The exhaustive scan at a snapshot. -/
def LIndex.scan (ix : LIndex) (q : List Nat) (s : Word) : List LKey := sortKeys ((ix.visibleList s).map fun n => ix.key q n)

/-- The search of R97: its results by key, the entries read, and whether it was exhaustive. -/
def LIndex.search (ix : LIndex) (q : List Nat) (s : Word) (breadth k : Nat) (exhaustive : Bool) : List LKey × List Nat × Bool :=
  let n := max (if breadth = 0 then ix.sb else breadth) k
  let v := ix.visibleList s
  if exhaustive || v.length ≤ (if ix.ethr = 0 then n else ix.ethr) then ((ix.scan q s).take k, v, true)
  else
    match ix.entry with
    | none => ([], [], false)
    | some (start, up) =>
      let (r, seen) := if up then ix.beam true q start 1 fun _ => true else ([], [])
      let (w, seen') := ix.beam false q (r.headD (0, start)).2 n (ix.visible s)
      (w.take k, seen ++ seen', false)

/-- The query packets of a search of R97. DESIGN CHOICE (log entry 110): an exhaustive scan, which expands no entry, passes through the engines that own visible entries in
ascending cluster number. -/
def LIndex.searchPath (ix : LIndex) (q : List Nat) (s : Word) (breadth k : Nat) (exhaustive : Bool) : List Nat :=
  let n := max (if breadth = 0 then ix.sb else breadth) k
  let v := ix.visibleList s
  if exhaustive || v.length ≤ (if ix.ethr = 0 then n else ix.ethr) then ix.clusterList.filter fun c => v.any fun e => ix.engineOf e == c
  else
    match ix.entry with
    | none => []
    | some (start, up) =>
      let u := if up then ((ix.beam true q start 1 fun _ => true).1.headD (0, start)).2 else start
      moves ((if up then ix.beamPath true q start 1 fun _ => true else []) ++ ix.beamPath false q u n (ix.visible s))

/-- The words of results (R97). -/
def LIndex.resultWords (ix : LIndex) (q : List Nat) (r : List LKey) : List Word :=
  r.flatMap fun k =>
    [BitVec.ofNat 64 k.2, ((FMap.find? ix.entries k.2).map (·.payload)).getD 0, ix.distWord q (ix.vecOf k.2)]

/-- The nine state words (R105). -/
def LIndex.words (ix : LIndex) : List Word :=
  [ix.committed, BitVec.ofNat 64 ix.entries.length, BitVec.ofNat 64 (ix.visibleList ix.committed).length, ix.minPin,
   BitVec.ofNat 64 ix.pins.length, ix.sampled, ix.samplek, ix.misses, ix.delmiss]

/-- The tombstones that may be reclaimed (R101). -/
def LIndex.reclaimable (ix : LIndex) : List Nat :=
  (ix.entries.filter fun p => match p.2.del with | some d => decide (d < ix.minPin.toNat) | none => false).map (·.1)

/-! ## Requests -/

/-- Reclamations that have become possible are done in some later step. -/
def State.reclaimLater (s : State) (n : Nat) : State :=
  match s.index? n with
  | some ix => ix.reclaimable.foldl (fun s r => s.addWork 1 (.reclamation n r)) s
  | none => s

/-- The queue register that a request feeds is free for another producer. One that another producer feeds by now stays. -/
def State.unfeed (s : State) (id : Nat) (r : Req) (q : Nat) : State :=
  match (s.core (coreOf r.seat)).queue q with
  | some x => if x.feeder = some id then s.feedQueue (coreOf r.seat) q none else s
  | none => s

/-- A request fails (R106): an answer with cause INDEX, or another with its address. -/
def State.indexFail (s : State) (id : Nat) (r : Req) (cause sub : BitVec 8) (addr : Nat) : State :=
  let s := match r.op with
    | .ldnear _ q | .ixstat q => s.unfeed id r q
    | _ => s
  (s.setReq id { r with addr := addr }).answer id (.fault cause sub)

/-- The first 64 bytes of the block: words 0 and 1; and the vector, as the segment of the request allows (R339, R340). -/
inductive Block where
  | ok (w0 w1 : Word) (vec : List Nat)
  /-- The vector passes the segment limit: the first offset outside. -/
  | outside (off : Nat)
  /-- A word is poisoned: its segment offset. -/
  | poisoned (off : Nat)

def readBlock (s : State) (r : Req) (ix : LIndex) : Block :=
  let cl := clusterOf (coreOf r.seat)
  let n := 64 + ix.dim * ix.elemBytes
  let place := r.segBase + r.off
  if r.segLen < r.off + n then .outside (max r.segLen r.off)
  else
    match s.firstPoison cl place 16, s.firstPoison cl (place + 64) (n - 64) with
    | some o, _ | none, some o => .poisoned (o - r.segBase)
    | none, none =>
      .ok (s.localWord cl place) (s.localWord cl (place + 8))
        ((List.range ix.dim).map fun i => s.localBytes cl (place + 64 + i * ix.elemBytes) ix.elemBytes)

/-- The state of a search moves to the next engine of its path, as a class 2 packet of the launch of its requester (R102, R192); one that has passed
through all of them goes on where it is. -/
def State.sendQuery (s : State) (id : Nat) (r : Req) (path : List Nat) : State :=
  let s := match s.index? r.addr with
    | some ix => s.setIndex r.addr { ix with travels := FMap.insert ix.travels id path }
    | none => s
  (if path.isEmpty then s else s.countSent r.key.launch (coreOf r.seat)).addWork 1 (.queryPacket id)

/-- The first commit step of a waiting insert or delete (R86). -/
def State.nextCommit (s : State) (n : Nat) : State :=
  match (s.index? n).bind fun ix => ix.admitted.head? with
  | some id => s.addWork 1 (.insertCommit id)
  | none => s

/-- An insert or delete joins those that commit in order of admission. -/
def State.admitCommit (s : State) (n id : Nat) (ix : LIndex) : State :=
  let s := s.setIndex n { ix with admitted := ix.admitted ++ [id] }
  if ix.admitted.isEmpty then s.nextCommit n else s

/-- The admission of a request that names an index of its context. DESIGN CHOICE: of several conditions of R106 the first is reported in this order: the
block's address and poison, 0x06, 0x04, 0x05; 0x03 is found at the commit. -/
def admitIndex (s : State) (id : Nat) (r : Req) (n : Nat) (ix : LIndex) : State :=
  match r.op with
  | .stvec =>
    match readBlock s r ix with
    | .outside o => s.indexFail id r 0x05 (Config.openSub 0x05) o
    | .poisoned o => s.indexFail id r 0x10 0x01 o
    | .ok w0 w1 v =>
      if w0 ≠ 0 then s.indexFail id r 0x14 0x06 n
      else
        match ix.accept v with
        | none => s.indexFail id r 0x14 0x04 n
        | some v =>
          let s := s.setReq id { r with stage := .waiting, seen := v, snap := w1 }
          s.admitCommit n id ix
  | .ldnear x _ =>
    match readBlock s r ix with
    | .outside o => s.indexFail id r 0x05 (Config.openSub 0x05) o
    | .poisoned o => s.indexFail id r 0x10 0x01 o
    | .ok w0 w1 v =>
      let k := bitsOf w0 0 9
      let breadth := bitsOf w0 16 10
      if bitsOf w0 26 37 ≠ 0 ∨ bitsOf w0 9 7 ≠ 0 ∨ k = 0 ∨ 256 < k ∨ 512 < breadth then s.indexFail id r 0x14 0x06 n
      else
        match ix.accept v with
        | none => s.indexFail id r 0x14 0x04 n
        | some v =>
          let explicit := w0.getLsbD 63
          if explicit && !ix.pins.contains w1 then s.indexFail id r 0x14 0x05 n
          else
            let snap := if explicit then w1 else ix.committed
            let s := s.setReq id { r with stage := .waiting, deadline := none, seen := v, snap := snap, mask := BitVec.ofNat 64 (breadth * 512 + k) }
            let ix := { ix with graphs := FMap.insert ix.graphs id ix.entries }
            let s := s.setIndex n (if explicit then ix else { ix with implicitPins := ix.implicitPins ++ [(id, snap)] })
            let s := match r.uid with
              | some u => s.modThread u fun t =>
                  { t with owed := t.owed.map fun (o : Owed) => if o.req = id then { o with gran := [] } else o }
              | none => s
            s.sendQuery id r (ix.searchPath v snap breadth k x)
  | .delvec _ => (s.setReq id { r with stage := .waiting }).admitCommit n id ix
  | .ixpin =>
    if 4096 ≤ ix.pins.length then s.indexFail id r 0x14 0x02 n
    else (s.setIndex n { ix with pins := ix.pins ++ [ix.committed] }).answer id (.word ix.committed)
  | .ixunpin p =>
    if ix.pins.contains p then ((s.setIndex n { ix with pins := listErase (· == p) ix.pins }).reclaimLater n).answer id (.ack false false)
    else s.indexFail id r 0x14 0x05 n
  | .ixstat _ => (s.setReq id { r with stage := .waiting, results := ix.words }).addWork 1 (.resultStreamArrival id)
  | _ => s

/-- A request from a lower seat that arrives in the same cycle is admitted first (R86). -/
def State.laterArrival (s : State) (r : Req) : Bool :=
  s.work.any fun w => w.due == s.cycle && match w.ev with
    | .ladderAdmission j =>
      match s.req? j with
      | some q => q.addr == r.addr && q.stage == .going && decide (q.seat < r.seat)
      | none => false
    | _ => false

/-- The words of a request's block that lie in its segment. -/
def blockWords (r : Req) (ix : LIndex) : List Nat :=
  (List.range ((64 + ix.dim * ix.elemBytes + 7) / 8)).filterMap fun j =>
    if r.off + 8 * j < r.segLen then some (r.segBase + r.off + 8 * j) else none

/-- The engine of the issuing cluster asks the banks for a request's block, as requester 97 (R340). -/
def State.readLadderBlock (s : State) (id : Nat) (r : Req) (ix : LIndex) : State :=
  let ws := blockWords r ix
  queueParts (.ladder id) (clusterOf (coreOf r.seat)) (ws.map fun o => (0, 0, ⟨o, .read, 0⟩)) (s.setReq id { r with reading := some ws.length })

/-- A word of the block has been served. With the last one the request is ready for its admission, which takes the words as the banks hold them then:
each is a value of a cycle between the issue and the fill (R340). -/
def State.ladderServed (s : State) (id : Nat) : State :=
  match s.req? id with
  | some r =>
    let n := r.reading.getD 0 - 1
    let s := s.setReq id { r with reading := some n }
    if n = 0 then s.addWork 1 (.ladderAdmission id) else s
  | none => s

/-- The request's block has yet to be read. -/
def Req.needsBlock (r : Req) : Bool := r.reading.isNone && (match r.op with
  | .stvec | .ldnear _ _ => true
  | _ => false)

/-- LADDER_ADMISSION: the sequencer checks and admits a request in order of arrival (R28, R82, R86, R100). The size of its admission
queue is not stated: whether a request finds it full, while others wait in it, is a free choice. -/
def execLadderAdmission (id : Nat) (s : State) : Out :=
  match s.req? id with
  | none => .next s
  | some r =>
    if r.stage ≠ .going || decide (0 < r.reading.getD 0) then .next s
    else if s.laterArrival r then .next (s.addWork 0 (.ladderAdmission id))
    else
      match s.index? r.addr with
      | none => .next (s.indexFail id r 0x14 0x01 r.addr)
      | some ix =>
        if ix.asid ≠ r.asid || ix.destroying then .next (s.indexFail id r 0x14 0x01 r.addr)
        else if r.needsBlock then .next (s.readLadderBlock id r ix)
        else if ix.admitted.isEmpty then .next (admitIndex s id r r.addr ix)
        else
          let (full, s) := s.pick 2
          if full = 1 then .next (s.nack id) else .next (admitIndex s id r r.addr ix)

/-- The searches of an insert begin once the inserts and deletes before it have committed (R95): its query packets are on their way (R102). -/
def LIndex.searching (ix : LIndex) (id : Nat) : Bool := (FMap.find? ix.travels id).isSome

/-- INSERT_COMMIT: the oldest admitted insert or delete commits, or fails (R86 to R89); the searches of an insert come first. DESIGN CHOICE: an insert whose own searches read a damaged entry
record fails as a search does (R103): its destination is poisoned with ECC 0x04 and it takes no ordinal. -/
def execInsertCommit (id : Nat) (s : State) : Out :=
  match s.req? id with
  | none => .next s
  | some r =>
    match s.index? r.addr with
    | none => .next s
    | some ix =>
      if ix.admitted.head? ≠ some id then .next s
      else
        let n := r.addr
        let ix0 := ix
        let ix := { ix with admitted := ix.admitted.drop 1, travels := FMap.erase ix.travels id }
        match r.op with
        | .stvec =>
          if ix.cap ≤ ix.entries.length then .next (((s.setIndex n ix).indexFail id r 0x14 0x03 n).nextCommit n)
          else if !ix0.searching id then .next (s.sendQuery id r (ix.insertPath r.seen))
          else
            match ix.insert r.seen r.snap with
            | .error d =>
              let s := (s.setIndex n ix).machineCheck (ix.engineOf d) n r.asid
              .next ((s.indexFail id r 0x10 0x04 n).nextCommit n)
            | .ok ix' => .next (((s.setIndex n ix').answer id (.word (BitVec.ofNat 64 ix.next))).nextCommit n)
        | .delvec d =>
          let ix := match FMap.find? ix.entries d.toNat with
            | some e =>
              if e.del.isNone then { ix with entries := FMap.insert ix.entries d.toNat { e with del := some ix.next }, next := ix.next + 1 }
              else { ix with delmiss := ix.delmiss + 1 }
            | none => { ix with delmiss := ix.delmiss + 1 }
          .next ((((s.setIndex n ix).reclaimLater n).answer id (.ack false false)).nextCommit n)
        | _ => .next s

/-- A result word reaches a queue register: its queue, or its spill area, where the interface writes it at its bank (R200, R37). DESIGN CHOICE: R103 keeps the words of a saved thread's search in the
context's overflow area, while R403 says that result streams spill by R200, and R200 has them spill into the binder's segment; they do so whether or not
the thread is saved. DESIGN CHOICE (log entry 119): a word that arrives while spilled words remain is spilled as well, whether or not the stream is full, so
that the words stay in the order of their arrival. -/
def State.pushResult (s : State) (core q : Nat) (w : Word) : State :=
  match (s.core core).queue q with
  | none => s
  | some x =>
    if x.kind ≠ .result then s
    else if x.words.length < 16 && x.spilled.isEmpty then
      s.modCore core fun c => c.setQueue q (some { x with words := x.words ++ [(w, s.cycle)] })
    else
      let (id, s) := s.fresh
      let x := { x with spilled := x.spilled ++ [x.spilledTotal], spilledTotal := x.spilledTotal + 1, unwritten := x.unwritten ++ [(id, x.spilledTotal)] }
      queueParts (.spill core q id) (clusterOf core) [(0, 0, ⟨x.spillOff (x.spilledTotal - 1), .write 255 w, 0⟩)]
        (s.modCore core fun c => c.setQueue q (some x))

/-- A spilled word has been written; pops may take it (R200). -/
def State.spillServed (s : State) (core q id : Nat) (p : BankPart) : State :=
  let s := match p.op with
    | .write m w => s.localWrite (clusterOf core) p.off m w
    | _ => s
  match (s.core core).queue q with
  | some x => s.modCore core fun c => c.setQueue q (some { x with unwritten := x.unwritten.filter fun u => u.1 != id })
  | none => s

/-- The last result word of a request has been delivered: the count or the acknowledgement follows (R97, R100), and the implicit pin goes (R96). DESIGN
CHOICE (log entry 93): R104 does not say that the entries visible at s stay stored until the re-run; reclamations that the pin held back may come before it. -/
def State.resultsDone (s : State) (id : Nat) (r : Req) (q : Nat) : State :=
  let s := s.unfeed id r q
  match r.op, s.index? r.addr with
  | .ldnear _ _, some ix =>
    let s := (s.setIndex r.addr { ix with implicitPins := ix.implicitPins.filter fun p => p.1 != id }).reclaimLater r.addr
    let s := if ix.reruns.any fun p => p.1 == id then s.addWork 1 (.sampledRerun id) else s
    s.answer id (.word (BitVec.ofNat 64 (r.delivered / 3)))
  | .ldnear _ _, none => s.answer id (.word (BitVec.ofNat 64 (r.delivered / 3)))
  | .neigh _ _, _ => s
  | _, _ => s.answer id (.ack false false)

/-- Another query packet is at an engine, so that one that arrives there may find the input queue full. -/
def State.packetAt (s : State) (id c : Nat) : Bool := s.indexes.any fun p => p.2.travels.any fun t => t.1 != id && t.2.head? == some c

/-- The search of an admitted LDNEAR runs (R97); an entry record with an uncorrectable error ends it (R103). DESIGN CHOICES: the traversal reads the lists as
they stood at the admission, one of the outcomes that R95 and R99 allow; and a search that is not exhaustive takes its number of R104 in this step, one
ended by an error none. -/
def State.runSearch (s : State) (id : Nat) (r : Req) (exhaustive : Bool) (q : Nat) (ix : LIndex) : State :=
  let n := r.addr
  let k := bitsOf r.mask 0 9
  let old : LIndex := { ix with entries := (FMap.find? ix.graphs id).getD ix.entries }
  let ix : LIndex := { ix with graphs := FMap.erase ix.graphs id, travels := FMap.erase ix.travels id }
  let (res, seen, whole) := old.search r.seen r.snap (bitsOf r.mask 9 10) k exhaustive
  match ix.damagedIn seen with
  | some d =>
    let s := s.setIndex n { ix with implicitPins := ix.implicitPins.filter fun p => p.1 != id }
    let s := (s.machineCheck (ix.engineOf d) n r.asid).reclaimLater n
    s.indexFail id r 0x10 0x04 n
  | none =>
    let number := ix.searches
    let ix := if whole then ix else { ix with searches := number + 1 }
    let ix := if !whole && ix.srn ≠ 0 && number % 2 ^ ix.srn == 0 then
        { ix with reruns := ix.reruns ++ [(id, r.seen, r.snap, k, res.map (·.2))] }
      else ix
    let words := old.resultWords r.seen res
    let s := (s.setIndex n ix).setReq id { r with results := words }
    if words.isEmpty then s.resultsDone id { r with results := words } q else s.addWork 1 (.resultStreamArrival id)

/-- QUERY_PACKET: the state of a search reaches the engine that it moves to (R102), and moves on, or its search is over; the packet of an insert's last
search lets it commit. A packet that meets a full engine input queue is resent 128 cycles later; the size of that queue is not stated, and whether a packet
meets it full, while another is there, is a free choice. -/
def execQueryPacket (id : Nat) (s : State) : Out :=
  match s.req? id with
  | none => .next s
  | some r =>
    match s.index? r.addr with
    | none => .next s
    | some ix =>
      match FMap.find? ix.travels id with
      | some (c :: rest) =>
        let (full, s) := if s.packetAt id c then s.pick 2 else (0, s)
        if full = 1 then .next (s.addWork 128 (.queryPacket id))
        else .next ((s.countReceived r.key.launch (coreOf r.seat)).sendQuery id r rest)
      | some [] =>
        match r.op with
        | .ldnear x q => .next (if r.stage ≠ .waiting || !r.results.isEmpty || r.delivered ≠ 0 then s else s.runSearch id r x q ix)
        | .stvec => .next (s.addWork 1 (.insertCommit id))
        | _ => .next s
      | none => .next s

/-- The words of an enumeration wait while the stream and its spill area are full (R350). -/
def State.neighFull (s : State) (r : Req) (q : Nat) : Bool :=
  match r.op, (s.core (coreOf r.seat)).queue q with
  | .neigh _ _, some x => decide (16 + 768 ≤ x.words.length + x.spilled.length)
  | _, _ => false

/-- Every spilled word of a result stream has been written. -/
def State.spillsDone (s : State) (core q : Nat) : Bool :=
  match (s.core core).queue q with
  | some x => x.unwritten.isEmpty
  | none => true

/-- The end of what feeds a result stream: an enumeration asks for its next square, another request is over (R97, R350). -/
def State.streamEnds (s : State) (id : Nat) (r : Req) (q : Nat) : State :=
  match r.op with
  | .neigh _ _ => s.addWork 1 (.neighSquareQuery id)
  | _ => s.resultsDone id r q

/-- RESULT_STREAM_ARRIVAL: the next result word of a search, a state delivery or an enumeration reaches its queue register (R97, R200). The request goes on
after its last word, once the words that spilled have been written. -/
def execResultStreamArrival (id : Nat) (s : State) : Out :=
  match s.req? id with
  | none => .next s
  | some r =>
    match r.op with
    | .ldnear _ q | .ixstat q | .neigh _ q =>
      match r.results with
      | [] =>
        .next (if r.answer.isSome || r.delivered = 0 then s
          else if s.spillsDone (coreOf r.seat) q then s.streamEnds id r q else s.addWork 1 (.resultStreamArrival id))
      | w :: rest =>
        if s.neighFull r q then .next s else
        let s := s.pushResult (coreOf r.seat) q w
        let r := { r with results := rest, delivered := r.delivered + 1 }
        let s := s.setReq id r
        .next (if rest.isEmpty && s.spillsDone (coreOf r.seat) q then s.streamEnds id r q else s.addWork 1 (.resultStreamArrival id))
    | _ => .next s

/-- RECLAMATION: a tombstone below every pin is unlinked and its record freed (R101). -/
def execReclamation (n ord : Nat) (s : State) : Out :=
  match s.index? n with
  | none => .next s
  | some ix => .next (if ix.reclaimable.contains ord then s.setIndex n (ix.reclaim ord) else s)

/-- SAMPLED_RERUN: a sampled search is run again as an exhaustive scan at its snapshot (R104). DESIGN CHOICE (log entry 94): R103 speaks of a traversal and its
count register, and not of a re-run; one that reads a damaged entry record counts the entry as it is stored and raises no machine check. -/
def execSampledRerun (id : Nat) (s : State) : Out :=
  match s.indexes.find? fun p => p.2.reruns.any fun q => q.1 == id with
  | none => .next s
  | some (n, ix) =>
    match ix.reruns.find? fun q => q.1 == id with
    | none => .next s
    | some (_, q, snap, k, got) =>
      let first := ((ix.scan q snap).take k).map (·.2)
      .next (s.setIndex n { ix with
        reruns := ix.reruns.filter fun q => q.1 != id
        sampled := ix.sampled + 1
        samplek := ix.samplek + BitVec.ofNat 64 first.length
        misses := ix.misses + BitVec.ofNat 64 (first.filter fun o => !got.contains o).length })

end Sys2Proof.Machine
end

