-- ==== Sys2Proof/Machine/Board.lean ====
section
/-!
DEFINITION. The board (R184 to R191): squares and their halves, occupancy, splits and merges, and the enumeration of neighbours; and the board
and thread-kind instructions (R347 to R354) with the steps that they set going.
-/

namespace Sys2Proof.Machine

/-! ## Geometry (R185, R189) -/

def signed32 (w : Word) (lo : Nat) : Int := toSigned 32 (bitsOf w lo 32)
/-- A position relative to the origin, on the board's axes. -/
def Board.rel (b : Board) (xy zw : Word) : List Int :=
  (([signed32 xy 0, signed32 xy 32, signed32 zw 0].take b.dims).zip b.origin).map fun p => p.1 - p.2
/-- The edge of a square on an axis, in units of 2^−16. -/
def Board.edgeLen (b : Board) (a : Nat) : Int := 2 ^ (b.edge.getD a 0 + 16)
def Board.axes (b : Board) : List Nat := List.range b.dims

/-- The square of a relative position, by axis; nothing off the board. -/
def Board.square (b : Board) (p : List Int) : Option (List Nat) :=
  let sq := b.axes.map fun a => Int.fdiv (p.getD a 0) (b.edgeLen a)
  if b.axes.all fun a => decide (0 ≤ sq.getD a 0) && decide (sq.getD a 0 < (b.count.getD a 0 : Nat)) then some (sq.map Int.toNat) else none

/-- Bits interleaved, bit 0 of x lowest (R185). -/
def Board.morton (b : Board) (sq : List Nat) : Nat :=
  (List.range 10).foldl (fun m i => b.axes.foldl (fun m a => m + ((sq.getD a 0 / 2 ^ i) % 2) * 2 ^ (b.dims * i + a)) m) 0
/-- The index of a square on an axis. -/
def Board.axisOf (b : Board) (m a : Nat) : Nat :=
  (List.range 10).foldl (fun x i => x + ((m / 2 ^ (b.dims * i + a)) % 2) * 2 ^ i) 0

/-- Squares of the board whose Morton index agrees with m above bit p and has 0 there, m having 1. -/
def Board.below (b : Board) (m p : Nat) : Nat :=
  b.axes.foldl (fun k a =>
    let free := (p + b.dims - 1 - a) / b.dims
    let keep := if p % b.dims = a then free + 1 else free
    let first := b.axisOf m a / 2 ^ keep * 2 ^ keep
    k * (min (first + 2 ^ free) (b.count.getD a 0) - first)) 1
/-- The place of a square in Morton order among the squares of the board. -/
def Board.rank (b : Board) (m : Nat) : Nat :=
  (List.range (10 * b.dims)).foldl (fun r p => if (m / 2 ^ p) % 2 = 1 then r + b.below m p else r) 0
/-- The core to which a square is dealt (R185). -/
def Board.dealt (b : Board) (m : Nat) : Nat :=
  let n := b.cores.length
  let total := b.count.foldl (· * ·) 1
  b.cores.getD (b.rank m / max 1 ((total + n - 1) / max 1 n)) 0

/-- The first longest axis. -/
def longestAxis (len : List Int) : Nat :=
  (List.range len.length).foldl (fun best a => if len.getD best 0 < len.getD a 0 then a else best) 0

/-- A position lies in the half that a path names, of a region given by its lower corner and its lengths (R189). -/
def inHalf (p : List Int) : List Bool → (lo len : List Int) → Bool
  | [], _, _ => true
  | upper :: rest, lo, len =>
    let a := longestAxis len
    let half := len.getD a 0 / 2
    let mid := lo.getD a 0 + half
    if decide (mid ≤ p.getD a 0) == upper then inHalf p rest (if upper then listSet lo a mid else lo) (listSet len a half) else false

def Board.inHalf (b : Board) (h : Half) (p : List Int) : Bool :=
  Sys2Proof.Machine.inHalf p h.path (b.axes.map fun a => (b.axisOf h.morton a : Int) * b.edgeLen a) (b.axes.map b.edgeLen)

/-- The square or half that holds a position on the board. -/
def Board.halfAt (b : Board) (m : Nat) (p : List Int) : Half :=
  (b.halves.find? fun h => h.morton == m && b.inHalf h p).getD ⟨m, [], b.dealt m, [], []⟩

def Half.same (h k : Half) : Bool := h.morton == k.morton && h.path == k.path
/-- Puts a square or half; a whole square that holds nothing is not listed. -/
def Board.putHalf (b : Board) (h : Half) : Board :=
  let rest := listErase (fun k => k.same h) b.halves
  { b with halves := if h.path.isEmpty && h.entries.isEmpty && h.admission.isEmpty then rest else rest ++ [h] }

/-- The entry of a thread that is not departing, with its half. -/
def Board.entryOf (b : Board) (uid : Nat) : Option (Half × SqEntry) :=
  b.halves.findSome? fun h => (h.entries.find? fun e => e.uid == uid && !e.departing).map fun e => (h, e)

def State.boardOf (s : State) (t : Thread) : Option Board := (s.launchOf t).bind (·.board)
def State.setBoard (s : State) (launch : BitVec 32) (b : Board) : State := s.modLaunch launch.toNat fun l => { l with board := some b }
def State.board? (s : State) (launch : BitVec 32) : Option Board := (s.launch? launch.toNat).bind (·.board)

/-! ## Neighbours (R188, R350) -/

/-- The place of a half in the order of an enumeration: squares in Morton order, and in a split square the lower half first. A half that splits keeps
its place for its lower part, and both parts come before the next half. -/
def Half.order (h : Half) : Nat := h.morton * 16 + (h.path.zipIdx.foldl (fun n p => n + (if p.1 then 8 / 2 ^ p.2 else 0)) 0)

/-- The enumeration of a request reports an entry: not its own thread, no tid twice, only within the radius. -/
def neighReports (b : Board) (r : Req) (rho : Word) (e : SqEntry) : Bool :=
  let p := b.rel (lineWord r.data 0) (lineWord r.data 1)
  let q := b.rel e.xy e.zw
  let d := (p.zip q).foldl (fun a x => a + (x.1 - x.2) * (x.1 - x.2)) 0
  some e.uid != r.uid && !r.seen.contains e.tid.toNat && decide (d ≤ (rho.toNat : Int))

/-- An entry's position is still its thread's: the thread has no later entry (R187). -/
def Board.holds (b : Board) (e : SqEntry) : Bool := !e.departing || (b.entryOf e.uid).isNone

/-- Open enumerations of a launch report an entry of a half: those for whose place in their order a test holds. -/
def State.report (s : State) (launch : BitVec 32) (b : Board) (h : Half) (e : SqEntry) (tells : Nat → Bool) : State :=
  (s.net.reqs.map (·.1)).foldl (fun s id =>
    match s.req? id with
    | none => s
    | some r =>
      match r.op with
      | .neigh rho _ =>
        if r.key.launch == launch && r.answer.isNone && tells r.snap.toNat && neighReports b r rho e then
          let s' := s.setReq id { r with seen := r.seen ++ [e.tid.toNat], results := r.results ++ [e.tid, e.xy] }
          if r.results.isEmpty then s'.addWork 1 (.resultStreamArrival id) else s'
        else s
      | _ => s) s

/-- A position that a thread takes in a square or half that an enumeration has already visited is reported by it, so that a thread that stays close is
never missed (R188). -/
def State.noticed (s : State) (launch : BitVec 32) (b : Board) (h : Half) (e : SqEntry) : State := s.report launch b h e fun at_ => decide (h.order < at_)

/-- A thread that ends is reported from its last position by the enumerations that have not visited it: that position was valid during them, and may be
the last of a thread that was close throughout (R188). DEDUCED (log entry 121): an enumeration begins with the issue of its NEIGH. -/
def State.departs (s : State) (launch : BitVec 32) (b : Board) (h : Half) (e : SqEntry) : State := s.report launch b h e fun at_ => decide (at_ ≤ h.order)

/-! ## Occupancy -/

/-- Removes the departing entry of a thread from its square, which admits a waiting arrival (R187, R190). -/
def State.removeDeparting (s : State) (launch : BitVec 32) (tid : Word) (m : Nat) : State :=
  match s.board? launch with
  | none => s
  | some b =>
    match b.halves.find? fun h => h.morton == m && h.entries.any fun e => e.tid == tid && e.departing with
    | none => s
    | some h =>
      (s.setBoard launch (b.putHalf { h with entries := listErase (fun e => e.tid == tid && e.departing) h.entries })).addWork 0
        (.admission launch.toNat m)

/-- Marks the entries of a thread departing, or not (R187). -/
def Half.mark (uid : Nat) (dep : Bool) (h : Half) : Half :=
  { h with entries := h.entries.map fun (e : SqEntry) => if e.uid = uid then { e with departing := dep } else e }
def Board.mark (b : Board) (uid : Nat) (dep : Bool) : Board := { b with halves := b.halves.map (Half.mark uid dep) }
def State.markDeparting (s : State) (launch : BitVec 32) (uid : Nat) (dep : Bool) : State :=
  match s.board? launch with
  | none => s
  | some x => s.setBoard launch (x.mark uid dep)

/-- Inserts an entry with a thread's new position into a half, sets the thread's position and PLACED, and tells the enumerations. An old
entry becomes departing; the answer gives its square. -/
def State.insertEntry (s : State) (uid : Nat) (t : Thread) (b : Board) (h : Half) (xy zw : Word) : State × Option Nat :=
  let old := (b.entryOf uid).map fun p => p.1.morton
  let b := b.mark uid true
  let old := old.orElse fun _ => (b.halves.find? fun k => k.entries.any fun e => e.uid == uid).map (·.morton)
  let h := (b.halves.find? fun k => k.same h).getD h
  let e : SqEntry := ⟨uid, t.tid, xy, zw, false⟩
  let b := b.putHalf { h with entries := h.entries ++ [e] }
  let s := (s.setBoard t.launch b).modThread uid fun t => { t with regs := { t.regs with xy := xy, zw := zw }, placed := true }
  (s.noticed t.launch b h e, old)

/-- The entry of a thread that stays in its half takes a new position. -/
def State.updateEntry (s : State) (uid : Nat) (t : Thread) (b : Board) (h : Half) (xy zw : Word) : State :=
  let e : SqEntry := ⟨uid, t.tid, xy, zw, false⟩
  let b := b.putHalf { h with entries := h.entries.map fun x => if x.uid = uid then e else x }
  ((s.setBoard t.launch b).modThread uid fun t => { t with regs := { t.regs with xy := xy, zw := zw } }).noticed t.launch b h e

/-! ## Splits and merges (R189, R191) -/

/-- A context that a split or a merge moves at once: not one that is pinned to its seat (R171, R207, R323). -/
def Thread.movable (t : Thread) : Bool :=
  t.kind != .anchored && !t.inHandler && !t.inFrame && !t.dirtyShadow

/-- The move of a pinned thread, which waits for its seat's turn (R189, R191). -/
def State.deferredMove (s : State) (uid : Nat) : Option (Nat × Mig) := s.net.migs.find? fun p => p.2.uid == uid && p.2.stage == .queued
def State.dropDeferred (s : State) (uid : Nat) : State :=
  match s.deferredMove uid with
  | some (id, _) => s.dropMig id
  | none => s
def State.deferMove (s : State) (uid : Nat) (kind : MigKind) (src dst : Nat) : State :=
  let (id, s) := (s.dropDeferred uid).fresh
  s.setMig id ⟨uid, kind, src, dst, .queued, false⟩

/-- A seat whose thread may leave it now: it issues, and nothing that it has begun, or that has fallen due, is left. -/
def Seat.mayLeave (x : Seat) : Bool :=
  x.localOp.isNone && x.due.isNone && !x.stop && !x.halt && !x.tstop && !x.dbgHalt && (match x.off with
    | none | some (.fetch _) => true
    | _ => false)

/-- Moves a thread as a split or a merge does: a thread on a seat or in a run queue is on its way at once; its answers are awaited before the destination
takes it. One that is on its way by an access, or by an earlier split or merge, goes on to the new owner. DESIGN CHOICE (log entry 99): R189 and R191 do not
say what becomes of a thread that R171, R207 or R323 pins to its seat, whose seat is stopped, or which hands over another square; it moves at its first
turn after that, unless it has left the half by then; and a thread whose context is saved is not moved, so that it stays where it is loaded. Members of role groups and of doublets never move (R182, R409). -/
def State.moveTo (s : State) (uid : Nat) (kind : MigKind) (dst : Nat) : State :=
  match s.thread? uid with
  | none => s
  | some t =>
    if t.role || s.doubletOf t then s
    else
      match t.loc with
      | .seat n =>
        let s := s.dropDeferred uid
        if coreOf n = dst then s
        else if t.movable && (s.seat n).mayLeave then
          let (s, _) := s.sendContext uid t kind (coreOf n) dst
          (s.modThread uid fun t => { t with loc := .transit n, park := t.park.pause s.cycle }).countEv n 8 1
        else s.deferMove uid kind (coreOf n) dst
      | .runQueue c =>
        let s := s.dropDeferred uid
        if c = dst then s
        else
          let (s, id) := s.sendContext uid t kind c dst
          (s.modCore c fun x => { x with runq := x.runq.filter fun e => e.uid != uid }).modThread uid fun t => { t with loc := .moving id }
      | l =>
        match s.net.migs.find? fun p => p.2.uid == uid && p.2.stage != .queued && (p.2.kind == .split || p.2.kind == .merge || p.2.kind == .access) with
        | some (id, g) => s.setMig id { g with dst := dst, kind := kind }
        | none => match l with
          | .transit n => s.deferMove uid kind (coreOf n) dst
          | _ => s

/-- A half with a free spare core and depth below 4 splits: its lower and upper half, and the board (R189). -/
def Board.split (b : Board) (h : Half) : Option (Board × Half) :=
  match b.spare with
  | [] => none
  | c :: rest =>
    if 4 ≤ h.path.length then none
    else
      let up : Half := ⟨h.morton, h.path ++ [true], c, [], []⟩
      let (high, low) := h.entries.partition fun e => b.inHalf up (b.rel e.xy e.zw)
      let up := { up with entries := high }
      let b := { b with halves := listErase (fun k => k.same h) b.halves ++ [{ h with path := h.path ++ [false], entries := low }, up], spare := rest }
      some (b, up)

/-- The arrivals that wait for a half, of which the upper part of a split takes those whose new position lies in it (R189, R190). -/
def State.waitUpper (s : State) (b : Board) (up : Half) (id : Nat) : Bool :=
  match (s.mig? id).map Mig.kind with
  | some (.setpos xy zw) => b.inHalf up (b.rel xy zw)
  | _ => false
def State.splitWaiting (s : State) (b : Board) (up : Half) : Board :=
  { b with halves := b.halves.map fun k =>
      if k.same up then { k with admission := up.admission.filter (s.waitUpper b up) }
      else if k.morton == up.morton && k.path == up.path.dropLast ++ [false] then { k with admission := up.admission.filter fun id => !s.waitUpper b up id }
      else k }

/-- Splits a full half: the spare core joins the launch's cores, and the threads of the upper half move there. -/
def State.splitHalf (s : State) (launch : BitVec 32) (b : Board) (h : Half) : Option State :=
  (b.split h).map fun (b, up) =>
    let b := s.splitWaiting b { up with admission := h.admission }
    let s := (s.setBoard launch b).modLaunch launch.toNat fun l => { l with cores := NSet.add l.cores up.owner }
    (up.entries.foldl (fun s e => s.moveTo e.uid .split up.owner) s).addWork 0 (.admission launch.toNat h.morton)

/-- Two sibling halves that hold fewer than 16 threads each, at a depth: lower and upper. -/
def Board.mergePair (b : Board) (depth : Nat) : Option (Half × Half) :=
  b.halves.findSome? fun u =>
    if u.path.length = depth && u.path.getLast? == some true && decide (u.entries.length < 16) then
      (b.halves.find? fun l =>
        l.morton == u.morton && l.path == u.path.dropLast ++ [false] && decide (l.entries.length < 16)).map fun l => (l, u)
    else none

/-- Merges pairs at a depth, with a bound on their number. -/
def mergeDepth (launch : BitVec 32) (depth : Nat) : Nat → State → State
  | 0, s => s
  | fuel + 1, s =>
    match s.board? launch with
    | none => s
    | some b =>
      match b.mergePair depth with
      | none => s
      | some (l, u) =>
        let rest := b.halves.filter fun k => !k.same l && !k.same u
        let spare := b.pool.filter fun c => b.spare.contains c || c == u.owner
        let b := { b with halves := rest, spare := spare }
        let b := b.putHalf ⟨l.morton, l.path.dropLast, l.owner, l.entries ++ u.entries, l.admission ++ u.admission⟩
        let s := u.entries.foldl (fun s e => s.moveTo e.uid .merge l.owner) (s.setBoard launch b)
        mergeDepth launch depth fuel s

/-- All merges of a launch, deepest first (R191). -/
def State.mergeAll (s : State) (launch : BitVec 32) : State :=
  let n := ((s.board? launch).map (·.halves.length)).getD 0
  [4, 3, 2, 1].foldl (fun s d => mergeDepth launch d n s) s

/-! ## CELLSYNC (R354) -/

/-- A thread of the launch is on the way for a merge. -/
def State.merging (s : State) (launch : BitVec 32) : Bool :=
  s.net.migs.any fun p => p.2.kind == .merge && p.2.stage != .queued && ((s.thread? p.2.uid).map fun t => t.launch == launch).getD false

/-- The generation of CELLSYNC advances once every member has arrived or exited and every merge is complete. -/
def State.cellStep (s : State) (launch : BitVec 32) : State :=
  match s.launch? launch.toNat with
  | none => s
  | some l =>
    if !l.barrierFull (l.barrier 7 0) 6 then s
    else
      let s := s.mergeAll launch
      if s.merging launch then s
      else s.modLaunch launch.toNat fun l => let b := l.barrier 7 0; l.setBarrier { b with count := 0, gen := b.gen + 1 }

/-- Arrives at CELLSYNC. -/
def State.arriveCell (s : State) (uid : Nat) (t : Thread) : State :=
  let n := ((s.launchOf t).map fun l => (l.barrier 7 0).gen).getD 0
  let s := s.modThread uid fun t => { t with bar := { t.bar with carr := true, bgen := n } }
  (s.modLaunch t.launch.toNat fun l => let b := l.barrier 7 0; l.setBarrier { b with count := b.count + 1 }).cellStep t.launch

/-- A CELLSYNC that has arrived. -/
def cellWait (wide : Bool) (uid : Nat) (s : State) : Res :=
  match s.thread? uid with
  | none => .wait s
  | some t =>
    if s.barrierGen t 7 0 = t.bar.bgen then .wait s
    else
      (s.acquire s.cur uid wide).andThenWait fun s => .done (s.modThread uid fun t => { t with bar := { t.bar with carr := false } })

/-- As BAR 6 its scope is that of R284. -/
def execCellsync (o : OpG) (s : State) : Out :=
  issue (.cellsync o) s fun s uid t _ =>
    let wide := s.scopeWide t.asid (coreOf s.cur) (s.barScope t 6)
    if t.bar.carr then cellWait wide uid s
    else (s.release s.cur uid wide true).andThenWait fun s => cellWait wide uid (s.arriveCell uid t)

/-! ## SETPOS (R186, R349) -/

/-- Entries that wait in the admission queues of a core (R190). -/
def State.admissionLoad (s : State) (core : Nat) : Nat :=
  s.disp.launches.foldl (fun n p =>
    match p.2.board with
    | some b => b.halves.foldl (fun n h => if h.owner = core then n + h.admission.length else n) n
    | none => n) 0

/-- A SETPOS that has issued and cannot go on yet: its thread is in transit on its seat, and neither swapped nor saved (R355). -/
def State.holdMover (s : State) (uid : Nat) (xy zw : Word) (admission : Bool) : Nat × Mig × State :=
  let (id, s) := s.fresh
  let g : Mig := ⟨uid, .setpos xy zw, coreOf s.cur, coreOf s.cur, .waiting, admission⟩
  (id, g, (s.setMig id g).modThread uid fun t => { t with loc := .transit s.cur, park := Park.init })

/-- A move of SETPOS to another core: its checks, then the move with the hand-over of R187. It waits for every answer owed first, its old entry departing
(R122, R174, R187). -/
def setposAway (s : State) (uid : Nat) (t : Thread) (xy zw : Word) (dst : Nat) : Res :=
  let trap (c b : BitVec 8) : Res := .trap c b xy
  if t.kind = .anchored then trap 0x0C 0x02
  else if t.role then trap 0x16 0x03
  else if t.inHandler || t.inFrame then trap 0x16 0x06
  else if s.doubletOf t then trap 0x16 0x09
  else if s.queueBound s.cur then trap 0x16 0x05
  else if t.dirtyShadow then trap 0x16 0x07
  else if !t.owed.isEmpty then
    let (id, _, s) := s.holdMover uid xy zw false
    .leave ((s.markDeparting t.launch uid true).addWork 8 (.squareHandover id))
  else
    match startMove s s.cur uid t (.setpos xy zw) dst with
    | .leave s => .leave (s.markDeparting t.launch uid true)
    | r => r

/-- The square or half of a new position is admitted to: it may split, several times (R189, R190). One that traps has split nothing (R394). -/
def setposGo (uid : Nat) (t : Thread) (xy zw : Word) (m : Nat) : Nat → State → Res
  | 0, _ => .park
  | fuel + 1, s =>
    match s.boardOf t with
    | none => .park
    | some b =>
      let core := coreOf s.cur
      let h := b.halfAt m (b.rel xy zw)
      if h.owner ≠ core then setposAway s uid t xy zw h.owner
      else if h.entries.length < 64 && h.admission.isEmpty then
        let (s, old) := (s.dropDeferred uid).insertEntry uid t b h xy zw
        .done (match old with | some o => s.removeDeparting t.launch t.tid o | none => s)
      else
        match (if h.entries.length < 64 then none else s.splitHalf t.launch b h) with
        | some s => setposGo uid t xy zw m fuel s
        | none =>
          if s.boardTrap t && h.admission.isEmpty then .trap 0x0C 0x03 xy
          else if 16 ≤ s.admissionLoad core then
            let (id, g, s) := s.holdMover uid xy zw false
            .leave (s.nackMove id g)
          else
            let (id, _, s) := s.holdMover uid xy zw true
            .leave (s.setBoard t.launch (b.putHalf { h with admission := h.admission ++ [id] }))

/-- SETPOS (R186, R349). DESIGN CHOICE (log entry 117): R186 compares squares; of a split square, the other half is another square to an anchored thread, as
it may be another core's. -/
def execSetpos (o : OpDA) (s : State) : Out :=
  issue (.setpos o) s fun s uid t vals =>
    let xy := vals.getD 0 0
    let zw := vals.getD 1 0
    match s.boardOf t with
    | none => .trap 0x0C 0x04 xy
    | some b =>
      let p := b.rel xy zw
      match b.square p with
      | none => .trap 0x0C 0x01 xy
      | some sq =>
        let m := b.morton sq
        let h := b.halfAt m p
        let here := (b.entryOf uid).map (·.1)
        let stays := (here.map fun k => k.same h).getD false
        if t.kind = .anchored ∧ (if t.placed then !stays else h.owner != coreOf s.cur) then .trap 0x0C 0x02 xy
        else if t.role ∧ h.owner ≠ coreOf s.cur then .trap 0x16 0x03 xy
        else if (t.inHandler ∨ t.inFrame) ∧ h.owner ≠ coreOf s.cur then .trap 0x16 0x06 xy
        else if stays then .done (s.updateEntry uid t b h xy zw)
        else setposGo uid t xy zw m 6 s

/-- A SETPOS at the core of the seat that its thread still holds, in transit. -/
def Mig.atHome (g : Mig) (t : Thread) : Bool := match t.loc with
  | .transit n => coreOf n == g.dst
  | _ => false

/-- A SETPOS goes on from the core that it has reached to the core that owns its half by now (R174, R187); from its own seat's core it is a migration out
of that seat (R206). -/
def State.sendOn (s : State) (id : Nat) (g : Mig) (t : Thread) (dst : Nat) : State :=
  let s := match t.loc with
    | .transit n => s.countEv n 8 1
    | _ => s
  ((((s.countSent t.launch g.dst).markDeparting t.launch g.uid true).setMig id
    { g with src := g.dst, dst := dst, stage := .going, admission := false })).addWork 1 (.squareHandover id)

/-- A SETPOS retires as its thread is admitted to its new square: the entry is inserted, and the source is told to remove the old one (R187). -/
def State.admitMover (s : State) (id : Nat) (g : Mig) (t : Thread) (b : Board) (h : Half) (xy zw : Word) : State :=
  let (s, old) := s.insertEntry g.uid t b h xy zw
  let s := match old with
    | some o => s.addWork 1 (.departingRemoval t.launch.toNat t.tid.toNat o)
    | none => s
  let s := (s.dropMig id).dropDeferred g.uid
  let s := s.modThread g.uid fun t => { t.advance with park := Park.init }
  match t.loc with
  | .transit n => if g.atHome t then ((s.modThread g.uid fun t => { t with loc := .seat n }).forgetPops n).countEv n 2 1
                  else ((s.leaveSource g.uid).enterRunQueue g.dst g.uid).countReceived t.launch g.dst
  | _ => (s.enterRunQueue g.dst g.uid).countReceived t.launch g.dst

/-- The arrival of a SETPOS at the core that owns its square: the square; a split, the admission queue, the return to the source, or a NACK (R189, R190).
DEDUCED (log entry 100): the limit of 64 threads of R174 is not that of an arrival at a square, since core 0 of R453 takes 65; it is NACKed when the context
cache of the core is full (R384). One that traps has split nothing (R394): `s0` is the state that it met. -/
def handover (id : Nat) (g : Mig) (t : Thread) (xy zw : Word) (m : Nat) (s0 : State) : Nat → State → State
  | 0, s => s
  | fuel + 1, s =>
    match s.board? t.launch with
    | none => s
    | some b =>
      let h := b.halfAt m (b.rel xy zw)
      if h.owner ≠ g.dst then
        if !g.atHome t then (s.setMig id { g with dst := h.owner }).addWork 1 (.squareHandover id)
        else if t.owed.isEmpty then s.sendOn id g t h.owner
        else s.addWork 8 (.squareHandover id)
      else if h.entries.length < 64 && h.admission.isEmpty then
        if !g.atHome t && s.cacheFull g.dst then s.nackMove id g else s.admitMover id g t b h xy zw
      else
        match (if h.entries.length < 64 then none else s.splitHalf t.launch b h) with
        | some s => handover id g t xy zw m s0 fuel s
        | none =>
          if s.boardTrap t && h.admission.isEmpty then
            match t.loc with
            | .transit n =>
              let s := if g.atHome t then s0 else s0.countReceived t.launch g.src
              (((s.dropMig id).markDeparting t.launch g.uid false).modThread g.uid fun t => { t with loc := .seat n }).trapDue n 0x0C 0x03 xy
            | _ => s
          else if 16 ≤ s.admissionLoad g.dst then s.nackMove id g
          else
            let s := if g.atHome t then s else (s.leaveSource g.uid).modThread g.uid fun t => { t with loc := .moving id }
            (s.setMig id { g with stage := .waiting, admission := true }).setBoard t.launch
              (b.putHalf { h with admission := h.admission ++ [id] })

/-- SQUARE_HANDOVER. -/
def execSquareHandover (id : Nat) (s : State) : Out :=
  match s.mig? id with
  | none => .next s
  | some g =>
    match g.kind, s.thread? g.uid with
    | .setpos xy zw, some t =>
      if g.admission then .next s
      else
        match s.board? t.launch with
        | none => .next s
        | some b =>
          match b.square (b.rel xy zw) with
          | none => .next s
          | some sq => .next (handover id g t xy zw (b.morton sq) s 6 s)
    | _, _ => .next s

/-- DEPARTING_REMOVAL: the class 0 notice of R187. -/
def execDepartingRemoval (launch tid sq : Nat) (s : State) : Out :=
  .next (s.removeDeparting (BitVec.ofNat 32 launch) (BitVec.ofNat 64 tid) sq)

/-- The oldest arrival that waits for a square or half: it is gone, or its half has room, or another core owns the half by now; and it may go there: it is
at that core, or that core has room, or its answers have arrived (R122). -/
def State.admissible (s : State) (b : Board) (h : Half) : Bool × Bool :=
  match h.admission.head?.map fun id => s.mig? id with
  | none => (false, false)
  | some none => (true, true)
  | some (some g) =>
    match g.kind, s.thread? g.uid with
    | .setpos xy zw, some t =>
      let k := b.halfAt h.morton (b.rel xy zw)
      if g.dst ≠ k.owner then (true, t.owed.isEmpty)
      else (decide (k.entries.length < 64), g.atHome t || !s.cacheFull k.owner)
    | _, _ => (true, true)

/-- Admits the oldest arrival that waits for a half. One whose half a split or a merge has given to another core is handed over to that core (R174, R187). -/
def State.admitOldest (s : State) (launch sq : Nat) (b : Board) (h : Half) : State :=
  match h.admission with
  | [] => s
  | id :: rest =>
    let s := s.setBoard (BitVec.ofNat 32 launch) (b.putHalf { h with admission := rest })
    let s := s.addWork 0 (.admission launch sq)
    match s.mig? id with
    | none => s
    | some g =>
      match g.kind, s.thread? g.uid, s.board? (BitVec.ofNat 32 launch) with
      | .setpos xy zw, some t, some b =>
        let k := b.halfAt sq (b.rel xy zw)
        if g.dst ≠ k.owner then
          (if g.atHome t then s else s.countReceived t.launch g.dst).sendOn id g t k.owner
        else s.admitMover id g t b k xy zw
      | _, _, _ => s

/-- ADMISSION: the oldest arrival that waits for a square, or for a half of it, is admitted when an occupant has left (R190). DESIGN
CHOICE (log entry 118): the arrivals at one core for different squares, or halves of one, are not ordered among themselves. -/
def execAdmission (launch sq : Nat) (s : State) : Out :=
  match s.board? (BitVec.ofNat 32 launch) with
  | none => .next s
  | some b =>
    let mine := b.halves.filter fun h => h.morton == sq
    match mine.find? fun h => s.admissible b h == (true, true) with
    | some h => .next (s.admitOldest launch sq b h)
    | none => .next (if mine.any fun h => (s.admissible b h).1 then s.addWork 128 (.admission launch sq) else s)

/-! ## NEIGH and CELLQ -/

/-- The bound of R188: (4 × the smallest edge)², in Q32.32. -/
def Board.rhoBound (b : Board) : Nat :=
  let e := b.axes.foldl (fun a i => min a (b.edge.getD i 0)) 15
  (4 * 2 ^ e) ^ 2 * 2 ^ 32

def execNeigh (o : OpDAq) (s : State) : Out :=
  issue (.neigh o) s fun s uid t vals =>
    let rho := vals.getD 0 0
    match s.boardOf t with
    | none => .trap 0x0C 0x04 rho
    | some b =>
      if !t.placed then .trap 0x0C 0x06 rho
      else if b.rhoBound < rho.toNat then .trap 0x0C 0x05 rho
      else
        match checkResultQueue s (coreOf s.cur) t o.qn with
        | .trap c b v => .trap c b v
        | .park => .park
        | .pass =>
          let id := s.fresh.1
          let r := { Req.make s s.cur uid t (.neigh rho o.qn.toNat) 0 8 with data := t.regs.xy.setWidth 512 ||| (t.regs.zw.setWidth 512 <<< 64) }
          .done ((s.sendOwed uid r .load [] (destOf o.d)).feedQueue (coreOf s.cur) o.qn.toNat (some id))

/-- The squares that meet the box around a position, in Morton order (R188). -/
def Board.boxSquares (b : Board) (p : List Int) (rho : Nat) : List Nat :=
  let meets (a : Nat) (i : Nat) : Bool :=
    let lo := (i : Int) * b.edgeLen a - p.getD a 0
    let hi := p.getD a 0 - ((i : Int) + 1) * b.edgeLen a
    (decide (lo ≤ 0) || decide (lo * lo ≤ (rho : Int))) && (decide (hi < 0) || decide (hi * hi < (rho : Int)))
  let axis (a : Nat) : List Nat :=
    let c := Int.toNat (Int.fdiv (p.getD a 0) (b.edgeLen a))
    ((List.range 11).map fun k => c + k).filterMap fun k => if 5 ≤ k && k - 5 < b.count.getD a 0 && meets a (k - 5) then some (k - 5) else none
  let sqs := b.axes.foldl (fun acc a => acc.flatMap fun sq => (axis a).map fun i => sq ++ [i]) [[]]
  (sqs.map b.morton).foldl (fun l m => NSet.add l m) []

/-- Words that the result stream of a request and its spill area still have room for (R200). -/
def State.resultRoom (s : State) (r : Req) (q : Nat) : Nat :=
  16 + 768 - (((s.core (coreOf r.seat)).queue q).map fun x => x.words.length + x.spilled.length).getD 0

/-- The next square or half of an enumeration: one that meets the box and stands at or after the place that the request has reached. -/
def Board.nextHalf (b : Board) (r : Req) (rho : Word) : Option Half :=
  let box := b.boxSquares (b.rel (lineWord r.data 0) (lineWord r.data 1)) rho.toNat
  (b.halves.filter fun h => box.contains h.morton && decide (r.snap.toNat ≤ h.order)).foldl (fun m h =>
    match m with
    | none => some h
    | some k => if h.order < k.order then some h else some k) none

/-- NEIGH_SQUARE_QUERY: with room for 64 more pairs in the stream, the owner of the next square or half is asked for its entries; after the last one the
count fills (R350). -/
def execNeighSquareQuery (id : Nat) (s : State) : Out :=
  match s.req? id with
  | none => .next s
  | some r =>
    match r.op with
    | .neigh rho q =>
      if r.answer.isSome then .next s
      else if !r.results.isEmpty then .next (s.addWork 0 (.resultStreamArrival id))
      else
        let r := { r with deadline := none, stage := .waiting }
        match (s.board? r.key.launch).bind fun b => (b.nextHalf r rho).map fun h => (b, h) with
        | none => .next (((s.setReq id r).unfeed id r q).answer id (.word (BitVec.ofNat 64 (r.delivered / 2))))
        | some (b, h) =>
          if s.resultRoom r q < 128 then .next (s.setReq id r)
          else
            let found := h.entries.foldl (fun (acc : Req × List Word) e =>
              if b.holds e && neighReports b acc.1 rho e then
                ({ acc.1 with seen := acc.1.seen ++ [e.tid.toNat] }, acc.2 ++ [e.tid, e.xy]) else acc) (r, [])
            let s := s.setReq id { found.1 with snap := BitVec.ofNat 64 (h.order + 1), results := found.2 }
            .next (s.addWork 1 (if found.2.isEmpty then .neighSquareQuery id else .resultStreamArrival id))
    | _ => .next s

/-- CELLQ (R351). -/
def execCellq (o : OpD) (s : State) : Out :=
  issue (.cellq o) s fun s uid t _ =>
    match s.boardOf t with
    | none => .trap 0x0C 0x06 0
    | some b =>
      match (if t.placed then b.entryOf uid else none) with
      | none => .trap 0x0C 0x06 0
      | some (h, _) =>
        .done (s.putD s.cur uid o.d (BitVec.ofNat 64
          ((h.morton % 2 ^ 30) * 2 ^ 32 + h.path.length * 2 ^ 28 + (h.owner % 2048) * 2 ^ 16 + h.entries.length % 128)))

/-! ## MIGR, ANCHOR and UNANCHOR (R352, R353) -/

/-- MIGR (R352). DEDUCED (log entry 63): one to the thread's own core would not move it, so it passes the checks of R201 and R323 for one that would, and
retires. -/
def execMigr (o : OpA) (s : State) : Out :=
  issue (.migr o) s fun s uid t vals =>
    let a := vals.getD 0 0
    let core := coreOf s.cur
    if a.toNat ≠ a.toNat % 2048 then .trap 0x16 0x02 a
    else if t.kind = .anchored then .trap 0x16 0x01 a
    else if t.role then .trap 0x16 0x03 a
    else if t.inHandler || t.inFrame then .trap 0x16 0x06 a
    else if t.placed then .trap 0x16 0x08 a
    else if s.doubletOf t then .trap 0x16 0x09 a
    else if a.toNat = core then .done s
    else if s.queueBound s.cur then .trap 0x16 0x05 a
    else if t.dirtyShadow then .trap 0x16 0x07 a
    else if ((s.launchOf t).map fun l => !NSet.has l.cores a.toNat).getD true then .trap 0x16 0x02 a
    else startMove s s.cur uid t .migr a.toNat

/-- A weight slot of a tile is granted to one of its seats other than a given one: the seat's WBSEG has its bit (R171, R376). -/
def State.slotGranted (s : State) (tile k : Nat) (but : Option Nat) : Bool :=
  (List.range 32).any fun j => but != some (tile * 32 + j) && (s.seat (tile * 32 + j)).wbseg.getLsbD k

/-- The n lowest-numbered free weight slots of a tile. -/
def State.freeSlots (s : State) (tile n : Nat) : Option (List Nat) :=
  let free := (List.range 16).filter fun k => !s.slotGranted tile k none
  if free.length < n then none else some (free.take n)

def maskOf (l : List Nat) : BitVec 16 := BitVec.ofNat 16 (l.foldl (fun a k => a + 2 ^ k) 0)

/-- Grants slots to a seat, with invalid contents. -/
def State.grantSlots (s : State) (seat : Nat) (l : List Nat) : State :=
  (s.modTile (tileOf (coreOf seat)) fun x => { x with slots := l.foldl (fun v k => vset v k ⟨none⟩) x.slots }).modSeat seat fun x =>
    { x with wbseg := maskOf l }
/-- Frees the slots of a seat. -/
def State.freeSlotsOf (s : State) (seat : Nat) : State := s.modSeat seat fun x => { x with wbseg := 0 }

/-- The Clean lines of an ASID in a cluster are invalidated, and with them the bytes of other lines that are not dirty, so that a thread that
bypassed the near cache reads its own stores (R77; the notes/assumptions entry on ANCHOR). -/
def State.dropClean (s : State) (cl : Nat) (asid : BitVec 16) : State := s.acquireLines cl asid

/-- What only an anchored thread has is set to its start values (R203, R205, R353). -/
def Thread.clearAnchored (t : Thread) : Thread :=
  { t with vec := VecState.init, sys := { t.sys with frm := 0, fflags := 0, srseed := 0, satcnt := 0 } }

def execAnchor (o : OpG) (s : State) : Out :=
  issue (.anchor o) s fun s uid t _ =>
    if t.kind = .anchored then .done s
    else
      match s.freeSlots (tileOf (coreOf s.cur)) (bitsOf (s.hdrWord t 8) 56 5) with
      | none => .trap 0x16 0x04 0
      | some l =>
        let s := (s.dropClean (clusterOf (coreOf s.cur)) t.asid).grantSlots s.cur l
        .done (s.modThread uid fun t => { t.clearAnchored with kind := .anchored, dirtyLines := DirtyList.init })

/-- UNANCHOR's end: matrix state is discarded and freed, and the kind is set. -/
def State.unanchor (s : State) (seat uid : Nat) : State :=
  (s.freeSlotsOf seat).modThread uid fun t =>
    { t.clearAnchored with kind := if t.placed then .bound else .roaming, dirtyLines := DirtyList.init }

/-- UNANCHOR performs the wide write-back of R76 once every vector access of its seat is answered (R77, R353). -/
def execUnanchor (o : OpG) (s : State) : Out :=
  issue (.unanchor o) s fun s uid t _ =>
    if t.kind ≠ .anchored then .done s
    else (s.releaseFor s.owesVector s.cur uid true false).andThen fun s => .done (s.unanchor s.cur uid)

end Sys2Proof.Machine
end

