-- ==== Sys2Proof/Machine/Ending.lean ====
section
/-!
DEFINITION. How a thread is counted out of its launch, its task, its barriers and its square (R180, R285, R335, R391, R397).
-/

namespace Sys2Proof.Machine

/-- Removes every entry of a thread from its board (R335), whose position open enumerations may still report (R188). -/
def State.leaveSquare (s : State) (uid : Nat) (t : Thread) : State :=
  match s.boardOf t with
  | none => s
  | some b =>
    let s := b.halves.foldl (fun s h =>
      (h.entries.filter fun e => e.uid == uid && b.holds e).foldl (fun s e => s.departs t.launch b h e) s) s
    let squares := (b.halves.filter fun h => h.entries.any fun e => e.uid == uid).map (·.morton)
    let b := b.halves.foldl (fun b h => b.putHalf { h with entries := h.entries.filter fun e => e.uid != uid }) b
    squares.foldl (fun s m => s.addWork 0 (.admission t.launch.toNat m)) (s.setBoard t.launch b)

/-- A task has one thread less; with none left it retires and decrements its dependence counter (R180, R388). -/
def State.leaveTask (s : State) (task : Nat) : State :=
  match FMap.find? s.disp.tasks task with
  | none => s
  | some k =>
    let k := { k with live := k.live - 1 }
    if k.live = 0 && k.allStarted then
      let s := { s with disp := { s.disp with tasks := FMap.erase s.disp.tasks task } }
      match k.depctr with
      | some (die, ctr) => s.addWork 1 (.dependenceDecrement die ctr.toNat)
      | none => s
    else { s with disp := { s.disp with tasks := FMap.insert s.disp.tasks task k } }

/-- A thread counts as exited: in its launch, whose barriers are looked at again (R285, R354), and in its task. -/
def State.countExit (s : State) (uid : Nat) (launch : BitVec 32) (wid : Word) (origin : Origin) : State :=
  let s := s.modLaunch launch.toNat fun l =>
    let l := { l with live := NSet.del l.live uid, exited := l.exited ++ [wid] }
    l.barriers.foldl (fun l b => if b.level = 7 then l else l.checkBarrier b.level b.group) l
  let s := s.cellStep launch
  let s := match origin.task with
    | some k => s.leaveTask k
    | none => s
  s.addWork 1 (.sweepPennant launch.toNat)

/-- A thread ends and its record goes: its square, then the count. -/
def State.endThread (s : State) (uid : Nat) : State :=
  match s.thread? uid with
  | none => s
  | some t => (((s.leaveSquare uid t).dropDeferred uid).dropThread uid).countExit uid t.launch t.regs.wid t.origin

/-- The last answer to a thread that the firmware removed, or whose cancelled context was saved, has arrived: it counts as exited (R391, R397). -/
def State.reap (s : State) (uid : Nat) : State :=
  match s.thread? uid with
  | some t => if t.loc = .gone && t.owed.isEmpty then s.endThread uid else s
  | none =>
    match s.disp.saved.find? fun v => v.uid == uid && v.cancelled with
    | some v =>
      if (s.routeOf uid).isSome then s
      else
        ({ s with disp := { s.disp with saved := listErase (fun x => x.uid == uid) s.disp.saved } }).countExit uid v.launch v.wid v.origin
    | none => s

/-- An answer reaches the thread to which it is owed, and what waited for its last answer follows. -/
def State.deliver (s : State) (id uid : Nat) (v : Fill) : State := (s.settle id uid v).reap uid

end Sys2Proof.Machine
end

