-- ==== Sys2Proof/Machine/Station.lean ====
section
/-!
DEFINITION. The memory-edge stations: translation and its misses (R63 to R66), what the home slice performs (R58, R127 to R129, R471),
reservations (R130 to R132), WAITRS (R133), tier moves (R70 to R72); and how answers, notices, limits and losses reach their requesters
(R68, R75, R78, R112, R140 to R142, R196, R470).
-/

namespace Sys2Proof.Machine

/-! ## What a request needs (R64, R66) -/

/-- A read of its page, a write of it. -/
def ReqOp.needs : ReqOp → Bool × Bool
  | .load | .ifetch | .descr _ _ | .watch _ _ _ | .eng _ _ false _ | .ring _ => (true, false)
  | .store | .stgm | .writeBack _ | .lateBack _ | .eng _ _ true _ | .red _ _ _ => (false, true)
  | _ => (true, true)

/-- The kind of a held request in its fault record (R66). -/
def ReqOp.heldKind : ReqOp → Nat
  | .load => 0
  | .store | .stgm | .writeBack _ | .lateBack _ => 1
  | .ifetch => 3
  | .eng _ _ false _ => 4
  | .eng _ _ true _ => 5
  | .descr _ _ | .ring _ => 7
  | _ => 2

def Req.home (r : Req) : Nat := homeStation r.addr
def samePage (a b : Nat) : Bool := a / 2 ^ 16 == b / 2 ^ 16

/-! ## Reductions (R128) -/

/-- The sum of two floating words of a format, by RNE, as bits. -/
def addBits (f : FFmt) (a b : Nat) : Nat := (f.sum .rne (f.decode a) (f.decode b)).bits

def reduceWord (f : BitVec 3) (m b : Word) : Word :=
  match f.toNat with
  | 0 => m + b
  | 1 => setBits m 0 32 (addBits fF32 (bitsOf m 0 32) (bitsOf b 0 32))
  | 2 => BitVec.ofNat 64 (addBits fF64 m.toNat b.toNat)
  | 3 => if b.toInt < m.toInt then b else m
  | 4 => if m.toInt < b.toInt then b else m
  | 5 => m &&& b
  | 6 => m ||| b
  | _ => m ^^^ b

/-- The fetching atomics at the home slice (R127). -/
def fetchWord (f : BitVec 3) (m b expected : Word) : Word :=
  match f.toNat with
  | 0 => m + b
  | 1 => b
  | 2 => if m = expected then b else m
  | _ => if m.toInt < b.toInt then b else m

/-! ## The home slice -/

/-- Poisons words of a granule: those that a damaged line writes back (R407). -/
def State.poisonWords (s : State) (pa : Nat) (words : BitVec 8) : State :=
  { s with mem := { s.mem with
    physPoison := (List.range 8).foldl (fun p j => if words.getLsbD j then NSet.add p (pa / 64 * 8 + j) else p) s.mem.physPoison } }

/-- Performs a write, an atomic or a reduction on its word or granule, which no other thread's reservation covers, and answers it with the W and NC of the
leaf under which it was checked (R65, R75). DESIGN CHOICE (log entry 103): a CAS whose compare fails is performed as a write of the word's own value, so
that a watch reports it (R133). -/
def State.performWrite (s : State) (id : Nat) (r : Req) (pa : Nat) (w nc : Bool) : State :=
  let bad := s.physPoisoned pa
  match r.op with
  | .atom f b e =>
    if bad then s.answer id (.fault 0x10 0x03)
    else
      let m := s.phys64 pa
      (s.physWrite64 pa (fetchWord f m b e)).answer id (.word m)
  | .red f b _ =>
    if bad then s.answer id (.fault 0x10 0x03)
    else (s.physWrite64 pa (reduceWord f (s.phys64 pa) b)).answer id (.ack w nc)
  | .writeBack _ | .lateBack _ => ((s.physWrite pa r.mask r.data).poisonWords pa (r.snap.setWidth 8)).answer id (.ack w nc)
  | _ => (s.physWrite pa r.mask r.data).answer id (.ack w nc)

/-! ## Reservations (R130 to R132) -/

def Station.rsvEntries (st : Station) : Nat := st.rsv.foldl (fun n w => n + (if w.holder.isSome then 1 else 0) + w.queue.length) 0
def Station.rsvAt (st : Station) (pa : Nat) : Option RsvWord := st.rsv.find? fun w => w.pa == pa / 8 * 8
/-- Puts the record of a word; one with neither holder nor queue goes. -/
def State.putRsv (s : State) (st : Nat) (w : RsvWord) : State :=
  s.modStation st fun x =>
    let rest := listErase (fun v => v.pa == w.pa) x.rsv
    { x with rsv := if w.holder.isNone && w.queue.isEmpty then rest else rest ++ [w] }

/-- The words of a granule that a mask covers a byte of. -/
def coveredWords (pa : Nat) (mask : BitVec 64) : List Nat :=
  ((List.range 8).filter fun j => (maskWords mask).getLsbD j).map fun j => pa / 64 * 64 + 8 * j
/-- The words that a request writes. -/
def Req.written (r : Req) (pa : Nat) : List Nat :=
  match r.op with
  | .store | .stgm | .writeBack _ | .lateBack _ | .eng _ _ _ _ => coveredWords pa r.mask
  | _ => [pa / 8 * 8]

/-- The first word that a write touches and that another thread holds reserved. A combined request is no thread's own (R138). DESIGN CHOICE (log entry 115):
nor is the write-back of an evicted line, whose bytes any seat of the cluster may have stored. -/
def State.rsvBlock (s : State) (st : Nat) (r : Req) (pa : Nat) : Option RsvWord :=
  ((r.written pa).filterMap fun a => (s.station st).rsvAt a).find? fun w =>
    match w.holder with
    | some (k, _) => k != r.key || r.comb.isSome || r.uid.isNone
    | none => !w.queue.isEmpty

/-- Reserves a word for an LR and forwards its value; the revocation timer starts (R131 step 2). -/
def State.grant (s : State) (st pa id : Nat) (r : Req) (queue : List Nat) : State :=
  ((s.putRsv st ⟨pa, some (r.key, s.cycle), queue⟩).answer id (.word (s.phys64 pa))).addWork s.fw.rsvtime (.rsvtimeRevocation st pa)

/-- The queue of a word whose reservation has ended is served up to the next LR (R131 step 6, R471). -/
def serveQueue (st pa : Nat) : List Nat → State → State
  | [], s => s.putRsv st ⟨pa, none, []⟩
  | id :: rest, s =>
    match s.req? id with
    | none => serveQueue st pa rest s
    | some r =>
      match r.op with
      | .lr => if s.physPoisoned pa then serveQueue st pa rest (s.answer id (.fault 0x10 0x03)) else s.grant st pa id r rest
      | _ =>
        match (s.putRsv st ⟨pa, none, []⟩).rsvBlock st r pa with
        | some w => serveQueue st pa rest (s.putRsv st { w with queue := w.queue ++ [id] })
        | none => serveQueue st pa rest (s.performWrite id r pa r.flags.1 r.flags.2)

/-- The reservation of a word ends. -/
def State.endReservation (s : State) (st pa : Nat) : State :=
  match (s.station st).rsvAt pa with
  | none => s
  | some w => serveQueue st w.pa w.queue (s.putRsv st { w with holder := none })

/-- Withdraws the waiting LRs of a holder from a word's queue: each is answered at once with the word's value (R132). -/
def State.withdrawLr (s : State) (st : Nat) (key : HolderKey) (w : RsvWord) : State :=
  let mine := w.queue.filter fun id => match s.req? id with
    | some r => r.op == .lr && r.key == key
    | none => false
  let s := mine.foldl (fun s id => s.answer id (if s.physPoisoned w.pa then .fault 0x10 0x03 else .word (s.phys64 w.pa))) s
  s.putRsv st { w with queue := w.queue.filter fun id => !mine.contains id }

/-- Every reservation of a holder is released and its waiting LRs are withdrawn, everywhere (R132). -/
def State.releaseHolder (s : State) (key : HolderKey) : State :=
  let places := s.net.stations.flatMap fun (k, st) => st.rsv.map fun w => (k, w.pa)
  places.foldl (fun s (st, pa) =>
    match (s.station st).rsvAt pa with
    | none => s
    | some w =>
      let s := s.withdrawLr st key w
      if (w.holder.map (·.1)) = some key then s.endReservation st pa else s) s

/-! ## Performing a request -/

/-- The parent of a WAITRS slot has an answer for the slot (R133, R140): with every used slot answered its timer stops. -/
def State.slotAnswered (s : State) (parent slot : Nat) : State :=
  match s.req? parent with
  | some p =>
    match p.op with
    | .waitrs slots =>
      let seen := if p.seen.contains slot then p.seen else p.seen ++ [slot]
      s.setReq parent { p with seen := seen, deadline := if slots.all fun x => seen.contains x.1 then none else p.deadline }
    | _ => s
  | none => s

/-- A request that its checks have passed is performed at its home slice (R58, R69, R131, R133, R471). -/
def State.performHome (s : State) (id : Nat) (r : Req) (st pa : Nat) (rd wr nc : Bool) : State :=
  match r.op with
  | .load | .ifetch | .descr _ _ | .eng _ _ false _ | .ring _ => s.answer id (.data (s.physLine pa) (s.physPoisonBits pa) rd wr nc)
  | .lr =>
    let s := s.releaseHolder r.key
    let pa := pa / 8 * 8
    if 1024 ≤ (s.station st).rsvEntries then s.nack id
    else
      match (s.station st).rsvAt pa with
      | some w => (s.putRsv st { w with queue := w.queue ++ [id] }).holdReq id
      | none => if s.physPoisoned pa then s.answer id (.fault 0x10 0x03) else s.grant st pa id r []
  | .sc b =>
    match (s.station st).rsvAt pa with
    | some w =>
      if (w.holder.map (·.1)) = some r.key then ((s.physWrite64 pa b).answer id (.word 0)).endReservation st pa else s.answer id (.word 1)
    | none => s.answer id (.word 1)
  | .rsvrel =>
    match (s.station st).rsvAt pa with
    | some w =>
      if (w.holder.map (·.1)) = some r.key then (s.answer id (.ack wr nc)).endReservation st pa else s.answer id (.ack wr nc)
    | none => s.answer id (.ack wr nc)
  | .watch parent slot e =>
    if (s.req? parent).isNone then s.dropReq id
    else if s.physPoisoned pa then s.answer id (.fault 0x10 0x03)
    else if s.phys64 pa ≠ e then s.answer id (.word (BitVec.ofNat 64 slot))
    else (s.modStation st fun x => { x with watches := x.watches ++ [⟨pa, id⟩] }).holdReq id
  | _ =>
    match s.rsvBlock st r pa with
    | some w =>
      if 1024 ≤ (s.station st).rsvEntries then s.nack id
      else ((s.setReq id { r with flags := (wr, nc) }).putRsv st { w with queue := w.queue ++ [id] }).holdReq id
    | none => s.performWrite id r pa wr nc

/-- The page of a VA that is not present: its first 64 KiB block and its number of blocks. It is that of the entry on which the walk ends (R60, R62). -/
def State.absentPage (s : State) (asid : BitVec 16) (va : Nat) : Nat × Nat :=
  match s.walk asid va with
  | .notPresent level =>
    let n := 2 ^ (levelShift level - 16)
    (va / 2 ^ 16 / n * n, n)
  | _ => (va / 2 ^ 16, 1)

/-- The one record of a page that is not present, at the home station of the VA (R66). The answer says whether it stands. -/
def State.recordPage (s : State) (asid : BitVec 16) (va kind : Nat) : State × Bool :=
  let st := homeStation va
  let page := s.absentPage asid va
  if (s.station st).recorded.contains (asid, page) then (s, true)
  else
    let (s, ok) := s.faultRecord asid ⟨1, 0x06, 0x15, 0, va, 0, st, BitVec.ofNat 64 kind⟩
    (if ok then s.modStation st fun x => { x with recorded := x.recorded ++ [(asid, page)] } else s, ok)

/-- A replayable fault holds the request, under one record for its page (R66); a read at a thread's start is answered at once (R311). -/
def State.holdFault (s : State) (id : Nat) (r : Req) (st : Nat) : State :=
  let x := s.station st
  let start := match r.op with
    | .descr _ .start => true
    | _ => false
  if 1024 ≤ x.holds.length && !start then s.nack id
  else
    let (s, ok) := s.recordPage r.asid r.addr r.op.heldKind
    if !ok then s.nack id
    else if start then s.answer id .absent
    else (s.modStation st fun x => { x with holds := x.holds ++ [⟨id, r.asid, (s.absentPage r.asid r.addr).1⟩] }).holdReq id

/-- A request waits for a piece to land, behind those that came before it (R71). -/
def State.holdForPiece (s : State) (id : Nat) (r : Req) : State :=
  let put (m : Move) : Move := if m.asid == r.asid && samePage m.va r.addr then { m with waiting := m.waiting ++ [id] } else m
  { s.setReq id { r with stage := .waiting } with fw := { s.fw with moves := s.fw.moves.map put } }

/-- Requests to a page in motion wait for its current piece: a later one to the page does not pass them. -/
def State.pieceQueue (s : State) (r : Req) : Bool := s.fw.moves.any fun m => m.asid == r.asid && samePage m.va r.addr && !m.waiting.isEmpty

/-- What the checks of R64 make of a request. -/
def State.afterCheck (s : State) (id : Nat) (r : Req) (st : Nat) (a : Access) : State :=
  match a with
  | .fault b => s.answer id (.fault 0x06 b)
  | .replay => s.holdFault id r st
  | .held => s.holdForPiece id r
  | .ok pa rd wr nc host =>
    if host then
      ((s.setReq id { r with stage := .waiting }).modStation st fun x => { x with hostWait := x.hostWait ++ [id] }).addWork 1
        (.hostAccessCompletion id)
    else s.performHome id r st pa rd wr nc

/-- A translation cache holds 16,384 leaves (R56). DESIGN CHOICE: of more, the one cached first goes. -/
def newestLeaves (l : List TEntry) : List TEntry := l.drop (l.length - 16384)

/-- The cached leaf of a VA (R63). -/
def Station.cached (x : Station) (asid : BitVec 16) (va : Nat) : Option TEntry :=
  x.tcache.find? fun e => e.asid == asid && e.page == va / 2 ^ levelShift e.level

/-- A miss joins the walk of its page, or starts it (R63). -/
def State.miss (s : State) (id : Nat) (r : Req) (st : Nat) : State :=
  ((s.setReq id { r with stage := .waiting }).modStation st fun x => { x with misses := x.misses ++ [id] }).addWork 1 (.tableWalk id)

/-- STATION_REQUEST: a request reaches its home station (R63, R64). -/
def execStationRequest (id : Nat) (s : State) : Out :=
  match s.req? id with
  | none => .next s
  | some r =>
    if r.stage ≠ .going then .next s
    else
      let st := r.home
      let x := s.station st
      if s.pieceQueue r then .next (s.holdForPiece id r)
      else
      match x.cached r.asid r.addr with
      | some e => .next (s.afterCheck id r st (s.check64 r.asid r.addr (.leaf e.level e.entry) false r.op.needs.1 r.op.needs.2))
      | none => if 512 ≤ x.misses.length then .next (s.nack id) else .next (s.miss id r st)

/-- The pages of the misses of a station, in the order of their walks. -/
def State.missPages (s : State) (st : Nat) : List (BitVec 16 × Nat) :=
  (s.station st).misses.foldl (fun l id =>
    match s.req? id with
    | some r => if l.contains (r.asid, r.addr / 2 ^ 16) then l else l ++ [(r.asid, r.addr / 2 ^ 16)]
    | none => l) []

/-- The leaf on which a walk for a request ends is cached (R63). -/
def Station.cacheLeaf (x : Station) (r : Req) (w : Walk) : Station :=
  match w with
  | .leaf l e =>
    let rest := x.tcache.filter fun t => !(t.asid == r.asid && t.level == l && t.page == r.addr / 2 ^ levelShift l)
    { x with tcache := newestLeaves (rest ++ [⟨r.asid, l, r.addr / 2 ^ levelShift l, e⟩]) }
  | _ => x

/-- A request that its station has kept is checked against what its walk has ended on (R64). -/
def State.recheck (s : State) (id st : Nat) (w : Walk) : State :=
  match s.req? id with
  | some r =>
    let r := { r with stage := Stage.going }
    (s.setReq id r).afterCheck id r st (s.check64 r.asid r.addr w false r.op.needs.1 r.op.needs.2)
  | none => s

/-- TABLE_WALK: the walk of a page completes, and its merged misses are checked in the order of arrival; up to 32 walks run at once (R63). -/
def execTableWalk (id : Nat) (s : State) : Out :=
  match s.req? id with
  | none => .next s
  | some r =>
    let st := r.home
    if !(s.station st).misses.contains id then .next s
    else if !((s.missPages st).take 32).contains (r.asid, r.addr / 2 ^ 16) then .next (s.addWork 1 (.tableWalk id))
    else
      let w := s.walk r.asid r.addr
      let mine := (s.station st).misses.filter fun j => match s.req? j with
        | some q => q.asid == r.asid && samePage q.addr r.addr
        | none => true
      let s := s.modStation st fun x => { x with misses := x.misses.filter fun j => !mine.contains j }.cacheLeaf r w
      .next (mine.foldl (fun s j => s.recheck j st w) s)

/-- A held request is walked afresh and checked; one to a page in motion goes behind those that wait for its piece (R66, R71). -/
def State.replay (s : State) (id st : Nat) : State :=
  match s.req? id with
  | some r =>
    let w := s.walk r.asid r.addr
    if s.pieceQueue r then s.holdForPiece id r else (s.modStation st fun x => x.cacheLeaf r w).recheck id st w
  | none => s

/-- HELD_REPLAY: the held requests of a page are walked afresh in the order in which they arrived (R66). DESIGN CHOICE: the replay takes no entry of the
station's miss table and none of its walks (R63); and the held notices stand until the requests are answered or sent again, so that it starts no timer
(R140; log entry 56). -/
def execHeldReplay (st : Nat) (asid : BitVec 16) (va : Nat) (s : State) : Out :=
  let mine := (s.station st).holds.filter fun h => h.asid == asid && h.page == va / 2 ^ 16
  let s := s.modStation st fun x => { x with holds := x.holds.filter fun h => !(h.asid == asid && h.page == va / 2 ^ 16) }
  .next (mine.foldl (fun s h => s.replay h.req st) s)

/-- HOST_ACCESS_COMPLETION: the host link has completed an access to a host-tier page (R59, R168). -/
def execHostAccessCompletion (id : Nat) (s : State) : Out :=
  match s.req? id with
  | none => .next s
  | some r =>
    let st := r.home
    if !(s.station st).hostWait.contains id then .next s
    else
      let s := s.modStation st fun x => { x with hostWait := listErase (fun j => j == id) x.hostWait }
      match s.access r.asid r.addr false r.op.needs.1 r.op.needs.2 with
      | .ok pa rd wr nc _ => .next (s.performHome id r st pa rd wr nc)
      | a => .next (s.afterCheck id r st a)

/-- RSVTIME_REVOCATION: a reservation has been held RSVTIME cycles (R132). The word is named by its physical address. DESIGN CHOICE (log entry 114): RSVTIME is
looked at when the time set at the grant is over, so that a change to a longer one extends a live reservation and a change to a shorter one does not shorten
it. -/
def execRsvtimeRevocation (st pa : Nat) (s : State) : Out :=
  match (s.station st).rsvAt pa with
  | none => .next s
  | some w =>
    match w.holder with
    | none => .next s
    | some (_, t) =>
      if s.cycle < t + s.fw.rsvtime then .next (s.addWork (t + s.fw.rsvtime - s.cycle) (.rsvtimeRevocation st pa))
      else .next (s.endReservation st pa)

/-! ## WAITRS at its requester (R133) -/

/-- Watches that remain are cancelled. -/
def State.cancelWatches (s : State) (parent : Nat) : State :=
  let mine := (s.net.reqs.filter fun p => match p.2.op with | .watch q _ _ => q == parent | _ => false).map (·.1)
  { s with net := { s.net with
      reqs := s.net.reqs.filter fun p => !mine.contains p.1
      stations := s.net.stations.map fun (k, st) =>
        (k, { st with watches := st.watches.filter (fun w => !mine.contains w.req), misses := st.misses.filter (fun j => !mine.contains j)
                      holds := st.holds.filter (fun h => !mine.contains h.req) }) } }

/-- A WAITRS is over: its destination is filled and its watches go. -/
def State.endWaitrs (s : State) (id uid : Nat) (v : Fill) : State := ((s.dropReq id).cancelWatches id).deliver id uid v

/-- The report of a slot of a WAITRS is on its way, and has not been lost. -/
def State.reporting (s : State) (parent slot : Nat) : Bool :=
  s.net.reqs.any fun p => p.2.stage == .answered && match p.2.op with
    | .watch q k _ => q == parent && k == slot
    | _ => false

/-- WAITRS_REPORT: the first report fills the destination; of those that arrive in one cycle, the lowest slot. -/
def execWaitrsReport (id slot : Nat) (s : State) : Out :=
  match s.req? id with
  | none => .next s
  | some r =>
    if !s.reporting id slot then .next s
    else
      let others := s.work.filterMap fun w => match w.ev with
        | .waitrsReport j k => if j = id ∧ w.due ≤ s.cycle ∧ s.reporting id k then some k else none
        | _ => none
      match r.uid with
      | some u => .next (s.endWaitrs id u (.word (BitVec.ofNat 64 (others.foldl min slot))))
      | none => .next s

/-- WAITRS_LIMIT: no report within (LIMIT + 1) × 1,024 cycles of issue. -/
def execWaitrsLimit (id : Nat) (s : State) : Out :=
  match s.req? id with
  | none => .next s
  | some r =>
    match r.uid with
    | some u => .next (if s.cycle < r.issued + (r.budget + 1) * 1024 then s else s.endWaitrs id u (.word (BitVec.allOnes 64)))
    | none => .next s

/-! ## Answers at their requesters -/

/-- The fill that the data of a load bring: a vector register takes the whole line. -/
def Req.dataFill (r : Req) (d : Line) (poison : BitVec 8) : Fill :=
  if r.size = 64 then lineFill r.addr d poison else loadFill r.size r.signed r.addr r.mask d poison

/-- What an atomic has done at home reaches the near cache of its cluster (R114). -/
def State.afterAtomic (s : State) (r : Req) : State :=
  match r.op with
  | .atom _ _ _ | .sc _ => if r.anchored then s.ncRefresh (clusterOf (coreOf r.seat)) r.asid r.addr (BitVec.allOnes 64) else s
  | _ => s

/-- REGISTER_FILL: an answer fills its destination wherever the context resides (R196, R197). -/
def execRegisterFill (id : Nat) (s : State) : Out :=
  match s.req? id with
  | none => .next s
  | some r =>
    if r.stage ≠ .answered then .next s
    else
      match r.op, r.answer with
      | .watch parent _ _, some (.fault c b) =>
        let s := s.dropReq id
        match (s.req? parent).bind (·.uid) with
        | some u => .next (s.endWaitrs parent u (.poison (r.record c b)))
        | none => .next s
      | _, some a =>
        let s := s.dropReq id
        match r.uid with
        | none => .next s
        | some u =>
          .next (match a with
            | .data d p _ _ _ => s.deliver id u (r.dataFill d p)
            | .word w => (s.afterAtomic r).deliver id u (.word w)
            | .fault c b => s.deliver id u (.poison (r.record c b))
            | _ => s.deliver id u .nothing)
      | _, none => .next s

/-- NEAR_CACHE_FILL: a 64-byte reply passes the egress of an anchored thread's cluster (R75, R113). -/
def execNearCacheFill (id : Nat) (s : State) : Out :=
  match s.req? id with
  | none => .next s
  | some r =>
    match r.answer with
    | some (.data d p _ w nc) =>
      if r.stage ≠ .answered then .next s
      else
        let (s, line, marks) := (s.dropReq id).lineArrives r d p w nc
        match r.uid with
        | none => .next s
        | some u => .next (s.deliver id u (r.dataFill line marks))
    | _ => .next s

/-- The record of a lost write-back, and the deferred fault of the thread for which it was made (R470). -/
def State.writeBackFault (s : State) (cl : Nat) (r : Req) (cause sub : BitVec 8) : State :=
  let s := s.ncDropBytes cl r.asid r.addr r.mask
  let s := (s.faultRecord r.asid ⟨3, cause, sub, 2, r.addr, r.key.launch, cl, r.mask⟩).1
  match r.uid with
  | some u => s.deferFault u (poisonRec cause sub r.addr)
  | none => s

/-- A store of a doublet's checkpoint has its answer (R410). -/
def State.storeAnswered (s : State) (seat id : Nat) : State :=
  match FMap.find? s.fab.doublets seat with
  | none => s
  | some d =>
    if d.committing.contains id then
      let d := { d with committing := listErase (fun j => j == id) d.committing }
      let s := { s with fab := { s.fab with doublets := FMap.insert s.fab.doublets seat d } }
      if d.committing.isEmpty then s.addWork 0 (.checkpointCommit (coreOf seat) seat) else s
    else s

/-- The record of a fault of a class 3 packet: its destination word as the address. -/
def Msg.record (m : Msg) (cause sub : BitVec 8) : Word := deferRec cause sub m.dst.toNat

/-- A write-back of a cluster is over: the next one of its granule is sent, and every other thread whose release waits for it is told (R76). -/
def State.writeBackOver (s : State) (id cl : Nat) (r : Req) : State :=
  let s := s.sendQueued cl r.asid r.addr
  ((s.fab.threads.filter fun p => p.2.owed.any fun o => o.req == id).map (·.1)).foldl (fun s u => s.deliver id u .nothing) s

/-- ACKNOWLEDGEMENT: an acknowledgement or a fault reply of a store-class request, a write-back or a class 3 packet (R78, R109, R112). A fault
reaches DEFER before the answer stops being owed. -/
def execAcknowledgement (id : Nat) (s : State) : Out :=
  match s.req? id with
  | some r =>
    if r.stage ≠ .answered then .next s
    else
      let s := s.dropReq id
      let cl := clusterOf (coreOf r.seat)
      let s := match r.op, r.answer with
        | .writeBack c, some (.fault x b) => (s.writeBackFault c r x b).writeBackOver id c r
        | .writeBack c, _ => s.writeBackOver id c r
        | .stgm, some (.ack _ _) | .red _ _ _, some (.ack _ _) => if r.anchored then s.ncRefresh cl r.asid r.addr (BitVec.allOnes 64) else s
        | .store, some (.ack w nc) => if r.anchored && r.mask != 0 then s.ncStoreAck cl r w nc else s
        | _, some (.fault x b) => match r.uid with
          | some u => s.deferFault u (r.record x b)
          | none => s
        | _, _ => s
      match r.uid with
      | some u => .next ((s.deliver id u .nothing).storeAnswered r.seat id)
      | none => .next s
  | none =>
    match s.msg? id with
    | none => .next s
    | some m =>
      if m.stage ≠ .answered then .next s
      else
        let s := s.closeMsg id
        match m.uid, m.answer with
        | some u, some (.fault c b) => .next ((s.deferFault u (m.record c b)).deliver id u .nothing)
        | some u, _ => .next (s.deliver id u .nothing)
        | none, _ => .next s

/-- The end of a remote wait without success (R53, R54), which its seat counts as a limit reply (R206). -/
def State.limitReached (s : State) (id : Nat) (r : Req) : State :=
  let s := s.dropReq id
  match r.uid with
  | none => s
  | some u =>
    let s := s.countEv r.seat 14 1
    match r.op with
    | .strf => (s.deferFault u (poisonMesh 0x08 0x03 r.addr)).deliver id u .nothing
    | _ => s.deliver id u (.poison (poisonMesh 0x08 0x02 r.addr))

/-- LIMIT_REPLY (R54). -/
def execLimitReply (id : Nat) (s : State) : Out :=
  match s.req? id with
  | none => .next s
  | some r => .next (if r.stage ≠ .answered then s else s.limitReached id r)

/-- HELD_NOTICE: the timer stops; for a WAITRS slot, its registration is answered (R140). DESIGN CHOICE: for a combined request it is the timer of its
point that stops; those of the requesters behind the point run on. -/
def execHeldNotice (id : Nat) (s : State) : Out :=
  match s.req? id with
  | none => .next s
  | some r =>
    match r.op with
    | .watch parent slot _ => .next ((s.disarm id).slotAnswered parent slot)
    | _ => .next (s.disarm id)

/-- COMBINED_NOTICE: the timer restarts at 131,072 cycles (R140, R206 event 9). -/
def execCombinedNotice (id : Nat) (s : State) : Out :=
  match s.req? id with
  | none => .next s
  | some r =>
    let s := if r.uid.isSome then s.countEv r.seat 9 1 else s
    .next (s.arm id 131072)

/-- The time since its issue has passed the budget of an LDRE or STRF (R53). -/
def Req.overBudget (r : Req) (now : Nat) : Bool := (r.op == .ldre || r.op == .strf) && decide (r.budget < (now - r.issued) / 1024)
/-- The time since a SEND, an ENQ or a port word was sent has reached its limit (R154). -/
def Msg.overBudget (m : Msg) (now : Nat) : Bool := decide (m.budget ≤ (now - m.sentAt) / 1024)

/-- NACK_RESEND: a NACKed packet is sent again, if its budget allows (R63, R53, R152, R154). -/
def execNackResend (id : Nat) (s : State) : Out :=
  match s.req? id with
  | some r =>
    match r.stage with
    | .nacked at' =>
      if s.cycle < at' then .next (s.addWork (at' - s.cycle) (.nackResend id))
      else
        match r.op with
        | .ldre | .strf =>
          if r.overBudget s.cycle then .next (s.limitReached id r)
          else .next ((s.setReq id { r with off := (s.cycle - r.issued) / 1024 }).resend id)
        | _ => .next (s.resend id)
    | _ => .next s
  | none =>
    match s.msg? id with
    | none => .next s
    | some m =>
      match m.stage with
      | .nacked at' =>
        if s.cycle < at' then .next (s.addWork (at' - s.cycle) (.nackResend id))
        else
          match m.uid with
          | none => .next ((s.setMsg id { m with stage := .going }).addWork 1 (m.nextEv s id))
          | some u =>
            if m.overBudget s.cycle then
              .next (((s.closeMsg id).deferFault u (m.record 0x08 0x04)).deliver id u .nothing)
            else .next (((s.setMsg id { m with stage := .going }).addWork 1 (m.nextEv s id)).arm id 65536)
      | _ => .next s

/-! ## Losses (R141, R142) -/

/-- A request that has been reported lost: what is left of it is performed or not, and its answer is discarded. -/
def State.orphan (s : State) (id : Nat) (r : Req) : State :=
  if r.stage = .lost || r.stage = .silent then s.dropReq id else s.setReq id { r with uid := none, deadline := none }

/-- A timer has run out. -/
def expired (now : Nat) (d : Option Nat) : Bool := match d with
  | some x => decide (x ≤ now)
  | none => false

/-- Requests without a destination register (R141). -/
def ReqOp.storeLike : ReqOp → Bool
  | .store | .stgm | .rsvrel | .red _ _ _ | .str | .strf | .delvec _ | .ixunpin _ | .ixstat _ => true
  | _ => false

/-- A loss is reported to the thread: by its destination, or deferred. -/
def State.reportLoss (s : State) (id : Nat) (r : Req) (cause : BitVec 8) : State :=
  match r.uid with
  | none => s.orphan id r
  | some u =>
    if r.op.storeLike then ((s.orphan id r).deferFault u (r.record cause 0x02)).deliver id u .nothing
    else (s.orphan id r).deliver id u (.poison (r.record cause 0x01))

/-- A request stands behind a damaged record of a combining point, its own or one that a combined request ahead of it stands behind: no answer will reach it
(R142). The number bounds the points passed. -/
def State.behindDamage (s : State) : Nat → Nat → Bool
  | 0, _ => false
  | fuel + 1, id =>
    match ((s.req? id).bind (·.comb)).bind fun n => FMap.find? s.net.combs n with
    | none => false
    | some e => e.recs.any (fun h => h.req == id && h.damaged) || e.sent.any (s.behindDamage fuel)

/-- What the expiry of a requester's timer reports: NOREPLY, and VALLOST behind a damaged record (R141, R142). -/
def State.lossCause (s : State) (id : Nat) : BitVec 8 := if s.behindDamage (s.net.combs.length + 1) id then 0x09 else 0x0A

/-- NOREPLY: the timer of a request expires and the request is reported lost (R141), or VALLOST behind a damaged record (R142). DESIGN CHOICE: the timer of a
WAITRS runs from its issue until every used slot has been answered, and the resend of a NACKed registration does not start it again (R140; log entry
101). -/
def execNoreply (id : Nat) (s : State) : Out :=
  match s.req? id with
  | some r =>
    if !expired s.cycle r.deadline || r.stage = .silent then .next s
    else
      match r.op with
      | .watch _ _ _ => .next s
      | .ring _ => .next (if r.stage = .lost then s.resend id else s)
      | .waitrs _ => match r.uid with
        | some u => .next (s.endWaitrs id u (.poison (r.record 0x0A 0x01)))
        | none => .next s
      | .eng _ _ _ _ => .next ((s.setReq id { r with deadline := none }).answer id (.fault 0x0A 0x01))
      | .ifetch =>
        if (s.seat r.seat).off = some (.fetch id) then
          .next (((s.dropReq id).modSeat r.seat fun x => { x with off := none }).trapDue r.seat 0x0A 0x01 (BitVec.ofNat 64 r.off))
        else .next (s.dropReq id)
      | .descr _ .start => .next ((s.setReq id { r with deadline := none }).answer id .absent)
      | .descr _ _ =>
        if (s.seat r.seat).off = some (.descriptor id) then
          .next (((s.dropReq id).modSeat r.seat fun x => { x with off := none }).trapDue r.seat 0x0A 0x01 (BitVec.ofNat 64 r.addr))
        else .next (s.dropReq id)
      | .ldnear _ q | .ixstat q | .neigh _ q => .next ((if r.stage = .lost then s.unfeed id r q else s).reportLoss id r 0x0A)
      | _ => .next (s.reportLoss id r (s.lossCause id))
  | none =>
    match s.msg? id with
    | none => .next s
    | some m =>
      if !expired s.cycle m.deadline then .next s
      else
        match m.uid with
        | some u => .next (((s.closeMsg id).deferFault u (m.record 0x0A 0x02)).deliver id u .nothing)
        | none => .next s

/-- VALLOST: the timer of a requester behind a damaged record expires (R142). -/
def execVallost (id : Nat) (s : State) : Out :=
  match s.req? id with
  | none => .next s
  | some r => .next (if expired s.cycle r.deadline && r.stage = .silent then s.reportLoss id r 0x09 else s)

/-- A held or combined notice of a request that is on its way is dropped (R141). -/
def State.dropNotices (s : State) (id : Nat) : State :=
  { s with work := s.work.filter fun w => w.ev != .heldNotice id && w.ev != .combinedNotice id }

/-- FLIT_LOSS: a packet that is on its way is dropped without notice (R141): a request, its answer or its notice. DESIGN CHOICE (log entry 105): a completion
packet has no timer, and R155 does not say what follows its loss; it stays undelivered. -/
def execFlitLoss (id : Nat) (s : State) : Out :=
  match s.req? id with
  | some r =>
    .next (match r.stage with
      | .going | .answered | .nacked _ => s.setReq id { r with stage := .lost }
      | .waiting => s.dropNotices id
      | _ => s)
  | none =>
    match s.msg? id with
    | some m =>
      .next (match m.stage with
        | .going | .answered | .nacked _ => if m.injected && !s.stays m then s.setMsg id { m with stage := .lost } else s
        | _ => s)
    | none =>
      match s.mig? id with
      | some g => .next (if g.stage = .going then s.setMig id { g with stage := .lost } else s)
      | none => .next s

/-- WRITE_BACK_LOSS: the near cache's timer of a write-back expires; its dirty bytes are dropped, and nothing waits for it any more (R470). One that is still
on its way may yet be performed. -/
def execWriteBackLoss (id : Nat) (s : State) : Out :=
  match s.req? id with
  | none => .next s
  | some r =>
    match r.op with
    | .writeBack cl =>
      if !expired s.cycle r.deadline then .next s
      else
        let s := if r.stage = .lost then s.dropReq id else s.setReq id { r with op := .lateBack cl, uid := none, deadline := none }
        let s := (s.writeBackFault cl r 0x0A 0x02).writeBackOver id cl r
        match r.uid with
        | some u => .next (s.deliver id u .nothing)
        | none => .next s
    | _ => .next s

/-! ## The firmware's steps at stations and near caches (R65, R71) -/

/-- A line lies in a range of VAs. -/
def inRange (va lo size : Nat) : Bool := decide (lo < va + 64) && decide (va < lo + size)

/-- NEAR_CACHE_PROBE: dirty bytes of a range are written back and the lines invalidated (R65). -/
def execNearCacheProbe (cl : Nat) (asid : BitVec 16) (va size : Nat) (s : State) : Out :=
  let ls := (s.cluster cl).ncache.filter fun l => l.asid == asid && inRange l.va va size
  .next (ls.foldl (fun s l => (s.ncFlushLine cl asid l.va none).1) s)

/-- TRANSLATION_INVALIDATE: a station forgets the leaves of a range (R65). -/
def execTranslationInvalidate (st : Nat) (asid : BitVec 16) (va size : Nat) (s : State) : Out :=
  .next (s.modStation st fun x =>
    { x with tcache := x.tcache.filter fun e =>
        !(e.asid == asid && decide (va < (e.page + 1) * 2 ^ levelShift e.level) && decide (e.page * 2 ^ levelShift e.level < va + size)) })

/-- A reservation is live on a word of a range of physical memory. -/
def Station.rsvIn (x : Station) (lo n : Nat) : Bool := x.rsv.any fun w => w.holder.isSome && decide (lo ≤ w.pa) && decide (w.pa < lo + n)

/-- The requests that have waited for a piece are performed, in the order in which they arrived, where they are now to be performed (R71). -/
def State.pieceLanded (s : State) (st n : Nat) (m : Move) : State :=
  let s := { s with fw := { s.fw with moves := s.fw.moves.map fun x => if x.fn * 8 + x.q = n then { x with waiting := [] } else x } }
  m.waiting.foldl (fun s id =>
    match s.req? id with
    | some r =>
      let r := { r with stage := Stage.going }
      (s.setReq id r).afterCheck id r st (s.access r.asid r.addr false r.op.needs.1 r.op.needs.2)
    | none => s) s

/-- TIER_PIECE_COPY: the piece that is being copied lands, what waited for it is performed, and the copy engine begins the copy of the next piece once
no reservation is live on it (R71, R72). The move is named by its command, function × 8 + queue. -/
def execTierPieceCopy (n : Nat) (s : State) : Out :=
  let mine (m : Move) : Bool := m.fn * 8 + m.q == n
  match s.fw.moves.find? mine with
  | none => .next s
  | some m =>
    let st := homeStation m.va
    let s := if m.copying then s.landPieces m.asid else s
    let s := s.pieceLanded st n m
    match s.fw.moves.find? mine with
    | none => .next s
    | some m =>
      let old := physOf 3 m.oldEntry m.va / 2 ^ 16 * 2 ^ 16 + m.current * 4096
      if 16 ≤ m.current then .next (s.addWork 1 (.pageMove m.fn m.q))
      else if (s.station st).rsvIn old 4096 then .next (s.addWork 8 (.tierPieceCopy n))
      else
        .next ({ s with fw := { s.fw with moves := s.fw.moves.map fun x => if mine x then { m with copying := true } else x } }.addWork 1
          (.tierPieceCopy n))

end Sys2Proof.Machine
end

