-- ==== Sys2Proof/Machine/MeshOwner.lean ====
section
/-!
DEFINITION. The owners of mesh addresses (R19 to R22): what a cluster's interface does with a mesh request, its wait table (R51 to R55), a change
of block owner, and the fabric bridges (R21, R165, R166).
-/

namespace Sys2Proof.Machine

/-! ## The check (R20) -/

/-- The offset that a mesh address names in its cluster (R17). -/
def meshOff (ma : Nat) : Nat := ma % 2 ^ 24

def Cluster.owner (c : Cluster) (block : Nat) : BlockOwner := (FMap.find? c.owners block).getD BlockOwner.init

/-- The request changes scratchpad state (R20). -/
def ReqOp.meshWrites : ReqOp → Bool
  | .ldr | .eng _ _ false _ => false
  | _ => true

/-- The subcode of the fault reply, if the block's entry does not allow the request (R20, R32). -/
def meshDenied (s : State) (r : Req) : Option (BitVec 8) :=
  let o := (s.cluster (meshCluster r.addr)).owner (meshOff r.addr / 65536)
  if !o.v || o.owner != r.asid then some 0x04 else if r.op.meshWrites && !o.w then some 0x05 else none

/-! ## Attempts (R46, R51, R469) -/

/-- One attempt of an LDRE or STRF at its word: it is answered, or finds the word in the other state. -/
def State.remoteAttempt (s : State) (id : Nat) (r : Req) : Option State :=
  let cl := meshCluster r.addr
  let off := meshOff r.addr
  if s.localPoisoned cl off then some (s.answer id (.fault 0x10 0x01))
  else
    match r.op with
    | .ldre => if s.localFull cl off then some ((s.setFull cl off false).answer id (.word (s.localWord cl off))) else none
    | _ =>
      if s.localFull cl off then none
      else some (((s.localWrite cl off 255 (lineWord r.data 0)).setFull cl off true).answer id (.ack true false))

/-- An attempt that failed takes an entry of the wait table, or is NACKed when the table is full (R52, R53). -/
def State.enterWait (s : State) (id : Nat) (r : Req) : State :=
  let cl := meshCluster r.addr
  if 256 ≤ (s.cluster cl).waits.length then s.nack id
  else
    let e : WaitEntry := ⟨id, meshOff r.addr, s.cycle, r.budget - r.off⟩
    ((s.modCluster cl fun c => { c with waits := c.waits ++ [e] }).holdReq id).addWork 1024 (.waitBudgetBoundary cl id)

/-- A request that has passed the check is performed by its bank. -/
def State.performMesh (s : State) (id : Nat) (r : Req) : State :=
  let cl := meshCluster r.addr
  let off := meshOff r.addr
  match r.op with
  | .ldre | .strf => (s.remoteAttempt id r).getD (s.enterWait id r)
  | .str | .eng _ _ true _ => (s.localWrite cl off 255 (lineWord r.data 0)).answer id (.ack true false)
  | _ => s.answer id (if s.localPoisoned cl off then .fault 0x10 0x01 else .word (s.localWord cl off))

/-- The interface makes an access to a word (requester 98, R37). Its bank performs it; what it does is with the request. -/
def State.askBank (s : State) (u : BankUser) (cl off delay : Nat) : State := queueParts u cl [(delay, 0, ⟨off, .read, 0⟩)] s

/-- MESH_REQUEST_ACCEPT: the interface of the target cluster accepts a request: it checks it, and makes its access (R20, R51). -/
def execMeshRequestAccept (id : Nat) (s : State) : Out :=
  match s.req? id with
  | none => .next s
  | some r =>
    if r.stage ≠ .going then .next s
    else
      match meshDenied s r with
      | some b => .next (s.answer id (.fault 0x06 b))
      | none => .next ((s.setReq id { r with stage := .waiting }).askBank (.mesh id) (meshCluster r.addr) (meshOff r.addr) 0)

/-! ## The wait table (R52) -/

/-- Takes a request out of the wait table. -/
def Cluster.unwait (c : Cluster) (id : Nat) : Cluster := { c with waits := listErase (fun e => e.req == id) c.waits }

/-- WAIT_TABLE_ATTEMPT: the interface makes a new attempt for the oldest entry that waits on a word, unless that is under way already. -/
def execWaitTableAttempt (cl off : Nat) (s : State) : Out :=
  match (s.cluster cl).waits.find? fun e => e.off == off / 8 * 8 with
  | none => .next s
  | some e => .next (if s.atBank (fun u => u == .attempt e.req) then s else s.askBank (.attempt e.req) cl (off / 8 * 8) 1)

/-- The bank serves an attempt (R52): an entry that succeeds leaves the table. -/
def State.attemptServed (s : State) (cl id : Nat) : State :=
  match (s.cluster cl).waits.find? (fun e => e.req == id), s.req? id with
  | some _, some r => ((s.modCluster cl fun c => c.unwait id).remoteAttempt id r).getD s
  | _, _ => s

/-- The bank serves a mesh request (R51). -/
def State.meshServed (s : State) (id : Nat) : State :=
  match s.req? id with
  | some r => if r.stage = .waiting then s.performMesh id r else s
  | none => s

/-- WAIT_BUDGET_BOUNDARY: 1,024 cycles of an entry have passed since it was made or since its last boundary. -/
def execWaitBudgetBoundary (cl id : Nat) (s : State) : Out :=
  match (s.cluster cl).waits.find? fun e => e.req == id with
  | none => .next s
  | some e =>
    if s.cycle < e.made + 1024 then .next s
    else if e.budget = 0 then .next ((s.modCluster cl fun c => c.unwait id).answer id .limit)
    else
      let put (x : WaitEntry) : WaitEntry := if x.req = id then { x with made := x.made + 1024, budget := x.budget - 1 } else x
      .next ((s.modCluster cl fun c => { c with waits := c.waits.map put }).addWork 1024 (.waitBudgetBoundary cl id))

/-! ## A change of block owner (R22) -/

/-- Every word of a block is set to zero and empty. -/
def zeroBlock (cl base : Nat) : Nat → State → State
  | 0, s => s
  | n + 1, s => zeroBlock cl base n ((s.localWrite cl (base + 8 * n) 255 0).setFull cl (base + 8 * n) false)

/-- A mesh access to a block that has passed its check is still at a bank. -/
def State.blockInUse (s : State) (cl block : Nat) : Bool :=
  s.fab.banks.any fun p => p.1 / 512 == cl && p.2.waiting.any fun w => w.user.requester == 98 && w.part.off / 65536 == block

/-- The firmware changes the entry of a block: waits on the block end with a fault reply, and a block that is granted is cleared first. -/
def State.setBlockOwner (s : State) (cl block : Nat) (o : BlockOwner) : State :=
  let mine := (s.cluster cl).waits.filter fun e => e.off / 65536 == block
  let s := s.modCluster cl fun c => { c with waits := c.waits.filter fun e => e.off / 65536 != block }
  let s := mine.foldl (fun s e => s.answer e.req (.fault 0x06 0x06)) s
  let s := if o.v then zeroBlock cl (block * 65536) 8192 s else s
  s.modCluster cl fun c => { c with owners := FMap.insert c.owners block o }

/-! ## The fabric bridges -/

/-- The device for which a packet leaves the package. -/
def State.bridgeDevice (s : State) (id : Nat) : Option Nat :=
  match s.req? id with
  | some r => if r.stage = .going then some (meshDevice r.addr) else none
  | none => ((s.msg? id).bind fun m => if m.stage = .going then some (m.device s) else none)

/-- The function of a packet's context has accepted FABRIC: mesh accesses, ENQ and SEND beyond this device (R460). -/
def State.fabricOn (s : State) (id : Nat) : Bool :=
  let asid := ((s.req? id).map (·.asid)).orElse fun _ => (s.msg? id).map (·.asid)
  asid.any fun a => ((FMap.find? s.fw.features (s.fnOf a)).map fun w => w.getLsbD 3).getD false

/-- BRIDGE_PACKET: at one of the 12 bridges, which the specification does not name, a packet for a device whose entry names no port, or of a function without
the FABRIC feature, is answered with a fault reply (R21, R165, R460); a full buffer NACKs (R166); otherwise the packet leaves the package, and its answer comes from outside. DESIGN CHOICE: a free
pick gives the bridge and its buffer (log entry 21). -/
def execBridgePacket (id : Nat) (s : State) : Out :=
  match s.bridgeDevice id with
  | none => .next s
  | some d =>
    let (p, s) := s.pick 24
    if (FMap.find? s.net.routes (256 * (p % 12) + d)).isNone || !s.fabricOn id then
      .next (if (s.req? id).isSome then s.answer id (.fault 0x06 0x03) else s.answerMsg id (.fault 0x06 0x03))
    else
      if p / 12 = 1 then .next (s.nack id)
      else
        match s.req? id with
        | some r => .next (s.setReq id { r with stage := .waiting })
        | none =>
          match s.msg? id with
          | some m => .next (s.setMsg id { m with stage := .waiting })
          | none => .next s

end Sys2Proof.Machine
end

