-- ==== Sys2Proof/Machine/Inbox.lean ====
section
/-!
DEFINITION. Class 3 packets at a core: messages and completions in its inbox (R155 to R160, R472), port words (R292), and trap notices (R368, R397).
-/

namespace Sys2Proof.Machine

/-! ## The ring (R158) -/

/-- The interface takes no further message: the inbox is disabled, or the ring is full and two messages are held (R156, R158). -/
def Core.refuses (c : Core) : Bool := c.ring.isNone || (!(c.hasRoom && c.held.isEmpty) && decide (2 ≤ c.held.length))

/-- A message arrives at the ring of a core: its writing begins, it is held, or it is refused. A disabled inbox refuses it without OVF. `msg` is the SEND
that waits for its entry (R125). -/
def State.inboxPut (s : State) (core : Nat) (payload : List Word) (header : Word) (msg : Option Nat) : State × Bool :=
  let c := s.iface core
  if c.ring.isNone then (s, false)
  else if c.hasRoom && c.held.isEmpty then (s.startEntry core payload header msg, true)
  else if c.held.length < 2 then (s.modCore core fun c => { c with held := c.held ++ [(payload, header, msg)] }, true)
  else (s.setOvf core, false)

/-- The header of a notice of a core: KIND 0x03 with the thread's ASID (R368). -/
def State.noticeHeader (s : State) (n : Notice) : Word := headerWord 3 n.asid s.device n.seat

/-- TAIL counts an entry that has been written, and the SEND that brought it is acknowledged (R125, R158). -/
def State.entryWritten (s : State) (core : Nat) (e : InWrite) : State :=
  let s := s.countEntry core e
  match e.msg with
  | some id => s.answerMsg id (.ack true false)
  | none => s

/-- The entries at the head of those in writing whose words have all been served are counted, one after another. -/
def countReady (core : Nat) : Nat → State → State
  | 0, s => s
  | fuel + 1, s =>
    match (s.core core).writing with
    | e :: _ => if e.left = 0 && decide (e.ready ≤ s.cycle) then countReady core fuel (s.entryWritten core e) else s
    | [] => s

/-- The writing of messages held, and then of notices kept, begins while there is room. -/
def drainInbox (core : Nat) : Nat → State → State
  | 0, s => s
  | fuel + 1, s =>
    let c := s.iface core
    if !c.hasRoom then s
    else
      match c.held, c.notices with
      | (p, h, m) :: rest, _ => drainInbox core fuel ((s.modCore core fun c => { c with held := rest }).startEntry core p h m)
      | [], n :: rest =>
        drainInbox core fuel ((s.modCore core fun c => { c with notices := rest }).startEntry core n.payload (s.noticeHeader n) none)
      | [], [] => s

/-- INBOX_HELD_WRITE: TAIL counts the entries that have been written (R158), and messages held and notices kept are written next. -/
def execInboxHeldWrite (core : Nat) (s : State) : Out :=
  let s := countReady core (s.core core).writing.length s
  .next (drainInbox core ((s.core core).held.length + (s.core core).notices.length) s)

/-! ## Arrivals -/

/-- The target seat of a SEND belongs to the sender's ASID or runs in supervisor mode; an empty seat is judged by the last thread that held it
(R160). -/
def State.seatAccepts (s : State) (seat : Nat) (asid : BitVec 16) : Bool :=
  let x := s.seat seat
  match (match x.occ with
    | some u => (s.thread? u).map fun t => (t.asid, t.sys.xstat.mode)
    | none => x.last) with
  | some (a, sup) => a == asid || sup
  | none => false

/-- The header of an entry that a packet makes (R157, R472). -/
def State.packetHeader (s : State) (m : Msg) : Word :=
  match m.kind with
  | .completion _ => headerWord 2 m.asid s.device m.seat
  | .launchDone => headerWord 4 m.asid s.device 0
  | .firmware => headerWord 3 m.asid s.device m.seat
  | _ => headerWord 1 m.asid s.device m.seat

/-- The step that drops a packet that no seat sent, once it has been refused for 65,536 cycles in all (R155, R472). -/
def Msg.dropEv (m : Msg) (id : Nat) : Option Ev :=
  match m.kind with
  | .completion eng => some (.completionDrop eng)
  | .launchDone => some (.launchCompletionDrop id)
  | _ => none

/-- A packet is refused: one that no seat sent has 65,536 cycles from its first NACK. -/
def State.refuseMsg (s : State) (id : Nat) (m : Msg) : State :=
  match m.dropEv id, m.deadline with
  | some ev, none => ((s.setMsg id { m with deadline := some (s.cycle + 65536) }).addWork 65536 ev).nack id
  | _, _ => s.nack id

/-- The SEND whose acknowledgement waits for its entry (R125). -/
def Msg.waitsEntry (m : Msg) (id : Nat) : Option Nat := if m.kind = .send then some id else none

/-- A packet has been taken: one that no seat sent is over, and a SEND waits until its entry is written (R125). -/
def State.deliverMsg (s : State) (id : Nat) (m : Msg) (core : Nat) : State :=
  match m.kind with
  | .completion eng => ((s.dropMsg id).countReceived m.launch core).addWork 0 (.engineShadowTake eng)
  | .launchDone | .firmware => s.dropMsg id
  | _ => s.setMsg id { m with stage := .waiting }

/-- INBOX_ARRIVAL: a message or completion arrives at a core. An inbox that takes none NACKs it (R156, R158) before its target is looked at
(R160). -/
def execInboxArrival (id : Nat) (s : State) : Out :=
  match s.msg? id with
  | none => .next s
  | some m =>
    if m.stage ≠ .going then .next s
    else
      let core := targetCore m.dst
      if (s.iface core).refuses then .next ((s.inboxPut core m.payload (s.packetHeader m) none).1.refuseMsg id m)
      else if m.kind = .send && !s.seatAccepts (core * 8 + bitsOf m.dst 0 3) m.asid then .next (s.answerMsg id (.fault 0x06 0x04))
      else
        let (s, taken) := s.inboxPut core m.payload (s.packetHeader m) (m.waitsEntry id)
        .next (if taken then s.deliverMsg id m core else s.refuseMsg id m)

/-- The port of a word's sender (R292): the queue names the sender's core and device, under the sender's ASID. -/
def Queue.portFrom (x : Queue) (m : Msg) (device : Nat) : Bool :=
  x.kind == .port && x.asid == m.asid && bitsOf x.param 0 11 == coreOf m.seat && bitsOf x.param 16 8 == device

/-- PORT_WORD_ARRIVAL. -/
def execPortWordArrival (id : Nat) (s : State) : Out :=
  match s.msg? id with
  | none => .next s
  | some m =>
    match m.kind with
    | .port q =>
      let core := bitsOf m.dst 0 11
      if m.stage ≠ .going then .next s
      else
        match (s.core core).queue q with
        | none => .next (s.answerMsg id (.fault 0x06 0x04))
        | some x =>
          if !x.portFrom m s.device.toNat then .next (s.answerMsg id (.fault 0x06 0x04))
          else if 8 ≤ x.words.length then .next (s.nack id)
          else
            let w := (m.payload.getD 0 0, m.sentAt)
            .next ((s.modCore core fun c => c.setQueue q (some { x with words := x.words ++ [w] })).answerMsg id (.ack true false))
    | _ => .next s

/-! ## Held stores of a doublet (R410, R411) -/

/-- A held store is performed as any store of the thread (R75): the near cache merges it on a hit with WOK, otherwise it leaves for its home. -/
def State.sendHeld (s : State) (seat id : Nat) : State :=
  match s.req? id with
  | none => s
  | some r =>
    let t := r.uid.bind s.thread?
    let near := t.any (fun t => t.kind == .anchored) && r.op == .store
    let uid := r.uid.getD 0
    match (if near && r.mask != 0 then s.ncStore uid (clusterOf (coreOf seat)) r.asid r.addr r.mask r.data else none) with
    | some s => ((s.countEv seat 5 1).deliver id uid .nothing).storeAnswered seat id
    | none => ((if near then s.countEv seat 6 1 else s).addWork 1 (r.nextEv s id)).arm id 65536

/-- No write-back of the granule of a held store is on its way (R78). -/
def State.heldReady (s : State) (seat : Nat) (d : Doublet) : Bool :=
  d.held.all fun id => match s.req? id with
    | some r => (s.flying (clusterOf (coreOf seat)) r.asid r.addr).isEmpty
    | none => true

/-! ## Trap notices -/

/-- The launch of a thread, on a seat or saved. -/
def State.launchNumber (s : State) (uid : Nat) : BitVec 32 :=
  match s.thread? uid with
  | some t => t.launch
  | none => ((s.disp.saved.find? fun v => v.uid == uid).map (·.launch)).getD 0

/-- The seat whose leaving empties a seat: of a secondary of a doublet, its primary (R409). -/
def State.primaryOf (s : State) (seat : Nat) : Nat :=
  if 8 ≤ seat && (FMap.find? s.fab.doublets (seat - 8)).isSome then seat - 8 else seat

/-- The stores that a doublet holds are sent before its thread is removed: they have retired (R397, R411). -/
def State.sendAllHeld (s : State) (seat : Nat) : State :=
  match FMap.find? s.fab.doublets seat with
  | some d => d.held.foldl (fun s id => s.sendHeld seat id) s
  | none => s

/-- What the firmware does with a trap notice (R397), with the host's notice of KIND 4 (R458): the record; the thread leaves the seat, if it still holds
it, and counts as exited once its answers have arrived; its reservations go. The TSTOP of another thread
that has taken the seat stays. -/
def State.removeTrapped (s : State) (uid : Nat) (n : Notice) : State :=
  let w (k : Nat) : Word := n.payload.getD k 0
  let s := (s.faultRecord n.asid ⟨3, (w 1).extractLsb' 0 8, (w 1).extractLsb' 8 8, 2, (w 3).toNat, s.launchNumber uid, coreOf n.seat, w 2⟩).1
  let s := s.postNotice (s.fnOf n.asid) 0 4 []
  let other := (s.seat n.seat).occ.any fun u => u != uid
  let s :=
    match s.thread? uid with
    | none => s
    | some t =>
      if (s.seat n.seat).occ = some uid then
        let p := s.primaryOf n.seat
        (((((s.sendAllHeld p).vacate p).freeSlotsOf p).modThread uid fun t => { t with loc := .gone }).releaseHolder t.holderKey).reap uid
      else s
  if other then s else s.modSeat n.seat fun x => { x with tstop := false }

/-- No held store of the thread's doublet would pass a write-back of its granule (R78). -/
def State.removable (s : State) (seat uid : Nat) : Bool :=
  (s.seat seat).occ != some uid
    || match FMap.find? s.fab.doublets (s.primaryOf seat) with
      | some d => s.heldReady (s.primaryOf seat) d
      | none => true

/-- TRAP_NOTICE: the core of a trap-stopped seat writes its notice into its inbox or keeps it; with the inbox disabled, or no seat of a system context on
the core, the firmware acts (R368, R397). The notice is that of the stop, whatever has become of the seat since. -/
def execTrapNotice (seat : Nat) (s : State) : Out :=
  let core := coreOf seat
  match (s.core core).stops.find? fun p => p.2.seat == seat with
  | none => .next s
  | some (uid, n) =>
    let t := s.modCore core fun c => { c with stops := listErase (fun p => p.2.seat == seat) c.stops }
    if (s.iface core).ring.isNone || !(s.coreThreads core).any fun p => p.2.2.sys.xstat.sys then
      .next (if s.removable seat uid then t.removeTrapped uid n else s.addWork 1 (.trapNotice seat))
    else
      let s := t
      let (s, taken) := s.inboxPut core n.payload (s.noticeHeader n) none
      .next (if taken then s else s.modCore core fun c => { c with notices := (c.notices.filter fun k => k.seat != seat) ++ [n] })

end Sys2Proof.Machine
end

