-- ==== Sys2Proof/Machine/Combine.lean ====
section
/-!
DEFINITION. The combining points (R134 to R138): cluster combiners and torus routers, and the split of their replies; what a damaged record or a
lost combined request does to their requesters (R141, R142).
-/

namespace Sys2Proof.Machine

/-! ## Entries -/

/-- A request is a reduction, and its minor. -/
def Req.isRed (r : Req) : Bool := match r.op with
  | .red _ _ _ => true
  | _ => false
def Req.minor (r : Req) : BitVec 3 := match r.op with
  | .atom f _ _ => f
  | .red f _ _ => f
  | _ => 0
/-- The addend of a combinable request. -/
def Req.addend (r : Req) : Word := match r.op with
  | .atom _ b _ => b
  | .red _ b _ => b
  | _ => 0

/-- Two requests agree in ASID, VA and minor (R134). -/
def Req.combinesWith (r q : Req) : Bool :=
  r.combinable && q.combinable && r.asid == q.asid && r.addr == q.addr && r.isRed == q.isRed && r.minor == q.minor

/-- The entry is for requests like this one. -/
def CombEntry.isFor (e : CombEntry) (r : Req) : Bool := e.asid == r.asid && e.va == r.addr && e.isRed == r.isRed && e.f == r.minor

/-- The combined value of two addends. -/
def combineWords (isRed : Bool) (f : BitVec 3) (a b : Word) : Word := if isRed then reduceWord f a b else a + b

def State.setComb (s : State) (n : Nat) (e : CombEntry) : State := { s with net := { s.net with combs := FMap.insert s.net.combs n e } }
def State.dropComb (s : State) (n : Nat) : State := { s with net := { s.net with combs := FMap.erase s.net.combs n } }

/-- A request joins an entry: its record, the new sum. It waits at the point. -/
def CombEntry.add (e : CombEntry) (id : Nat) (r : Req) : CombEntry :=
  { e with recs := e.recs ++ [⟨id, e.sum, false⟩], sum := combineWords e.isRed e.f e.sum r.addend }

/-- A requester waits at a combining point; a request of another point keeps that point as its reply destination (R136). -/
def State.waitAt (s : State) (entry id : Nat) (r : Req) : State :=
  s.setReq id { r with stage := .waiting, comb := if r.uid.isSome then some entry else r.comb }

/-- The combined request of an entry, made from the flit of A. -/
def CombEntry.request (e : CombEntry) (entry : Nat) (a : Req) (now : Nat) : Req :=
  { a with op := if e.isRed then .red e.f e.sum false else .atom e.f e.sum 0, uid := none, comb := some entry, stage := .going
           answer := none, issued := now, deadline := none }

/-- Sends the combined request of an entry, with the point's timer (R140). -/
def State.sendCombined (s : State) (entry : Nat) (e : CombEntry) (a : Req) : State :=
  let (s, id) := s.sendReq (e.request entry a s.cycle)
  s.setComb entry { e with sent := some id, deadline := some (s.cycle + 65536) }

/-! ## The cluster combiner (R135) -/

/-- COMBINER_SEND: an entry leaves when 16 cycles have passed since it was opened. One that holds a single request leaves as that request. -/
def execCombinerSend (entry : Nat) (s : State) : Out :=
  match FMap.find? s.net.combs entry with
  | none => .next s
  | some e =>
    if e.sent.isSome || s.cycle < e.opened + 16 then .next s
    else
      match s.req? e.first with
      | none => .next (s.dropComb entry)
      | some a =>
        if e.recs.isEmpty then
          .next (((s.dropComb entry).setReq e.first { a with comb := none, stage := .going }).addWork 0 (.stationRequest e.first))
        else .next (s.sendCombined entry e a)

/-- A request of a lower-numbered core that would merge here arrives in the same cycle (R135). -/
def State.earlierMerge (s : State) (r : Req) : Bool :=
  s.work.any fun w => match w.ev with
    | .combinerMerge j =>
      decide (w.due ≤ s.cycle) &&
        match s.req? j with
        | some q => q.stage == .going && q.combinesWith r && coreOf q.seat < coreOf r.seat && clusterOf (coreOf q.seat) == clusterOf (coreOf r.seat)
        | none => false
    | _ => false

/-- COMBINER_MERGE: a combinable request reaches the combiner of its cluster. DESIGN CHOICE: an entry that has been sent and waits for its reply is no
longer among the 64 pending ones. -/
def execCombinerMerge (id : Nat) (s : State) : Out :=
  match s.req? id with
  | none => .next s
  | some r =>
    let cl := clusterOf (coreOf r.seat)
    if r.stage ≠ .going then .next s
    else if !r.combinable then .next (s.addWork 0 (.stationRequest id))
    else if s.earlierMerge r then .next (s.addWork 0 (.combinerMerge id))
    else
      let pending := s.net.combs.filter fun p => p.2.cluster == some cl && p.2.sent.isNone
      match pending.find? fun p => p.2.isFor r with
      | some (n, e) =>
        let e := e.add id r
        let s := ((s.setComb n e).waitAt n id r).addWork 1 (.combinedNotice id)
        if e.recs.length = 7 then
          match s.req? e.first with
          | some a => .next (s.sendCombined n e a)
          | none => .next s
        else .next s
      | none =>
        if 64 ≤ pending.length then .next (s.addWork 0 (.stationRequest id))
        else
          let (n, s) := s.fresh
          let e : CombEntry := ⟨some cl, 0, r.asid, r.addr, r.isRed, r.minor, r.addend, id, [], s.cycle, none, none⟩
          .next (((s.setComb n e).waitAt n id r).addWork 16 (.combinerSend n))

/-! ## Routers (R136) -/

/-- Records that a router holds. -/
def State.routerRecords (s : State) (router : Nat) : Nat :=
  s.net.combs.foldl (fun n p => if p.2.cluster.isNone && p.2.router == router then n + p.2.recs.length else n) 0

/-- A request has yet to pass the egress of its cluster (R135): it is in no router. -/
def State.atEgress (s : State) (id : Nat) : Bool := s.work.any fun w => w.ev == .combinerMerge id

/-- ROUTER_COMBINE: two combinable flits meet at a router, A on the lower-numbered port. -/
def execRouterCombine (ida idb router : Nat) (s : State) : Out :=
  match s.req? ida, s.req? idb with
  | some a, some b =>
    if ida = idb || s.atEgress ida || s.atEgress idb || a.stage ≠ .going || b.stage ≠ .going || !a.combinesWith b || 32 ≤ s.routerRecords router then .next s
    else
      let (n, s) := s.fresh
      let e : CombEntry := ⟨none, router, a.asid, a.addr, a.isRed, a.minor, a.addend, ida, [], s.cycle, none, none⟩
      let e := e.add idb b
      let s := ((s.waitAt n ida a).waitAt n idb b).addWork 1 (.combinedNotice idb)
      .next (s.sendCombined n e a)
  | _, _ => .next s

/-! ## Replies (R137) -/

/-- The answer that a requester behind a record receives. -/
def shiftAnswer (isRed : Bool) (before : Word) (a : Answer) : Answer :=
  match a with
  | .word v => if isRed then a else .word (v + before)
  | _ => a

/-- One requester of a point receives its answer; the request of another point goes back to that point. A requester that has been reported lost
receives nothing. -/
def State.passAnswer (s : State) (entry id : Nat) (a : Answer) : State :=
  match s.req? id with
  | none => s
  | some r =>
    if r.comb = some entry then
      if r.uid.isSome then (s.setReq id { r with comb := none }).answer id a else s.dropReq id
    else s.answer id a

/-- A requester behind a damaged record hears nothing (R142): its own timer reports VALLOST. DESIGN CHOICE: where the record stands for a combined
request, this holds for every requester behind the point that sent it, A of that point with the timer that it has among them. The number bounds the
points passed. -/
def silence : Nat → State → Nat → State
  | 0, s, _ => s
  | n + 1, s, id =>
    match s.req? id with
    | none => s
    | some r =>
      match r.uid, r.comb.bind fun p => (FMap.find? s.net.combs p).map fun e => (p, e) with
      | some _, _ => (s.setReq id { r with stage := .silent }).addWork ((r.deadline.getD s.cycle) - s.cycle) (.vallost id)
      | none, some (p, e) => e.recs.foldl (fun s h => silence n s h.req) (silence n ((s.dropComb p).dropReq id) e.first)
      | none, none => s.dropReq id

/-- REPLY_SPLIT: a reply reaches a combining point. -/
def execReplySplit (entry : Nat) (s : State) : Out :=
  match FMap.find? s.net.combs entry with
  | none => .next s
  | some e =>
    match e.sent.bind fun j => (s.req? j).bind fun f => if f.stage = .answered then f.answer.map fun a => (j, a) else none with
    | none => .next s
    | some (j, a) =>
      let s := ((s.dropComb entry).dropReq j).passAnswer entry e.first a
      .next (e.recs.foldl (fun s h => if h.damaged then silence (s.net.combs.length + 1) s h.req else s.passAnswer entry h.req (shiftAnswer e.isRed h.before a)) s)

/-! ## Losses (R141, R142) -/

/-- A requester of a point is reported as timed out; the request of another point makes that point time out. -/
def State.timeOut (s : State) (entry id : Nat) : State :=
  match s.req? id with
  | none => s
  | some r =>
    if r.comb = some entry then s.reportLoss id r 0x0A
    else
      match r.comb with
      | some other => (s.setReq id { r with deadline := some s.cycle }).addWork 0 (.combiningPointTimeout other)
      | none => s.reportLoss id r 0x0A

/-- A point in a machine-check record (R142): combiners from 4,096 by their cluster, routers from 8,192 (log entry 16). -/
def CombEntry.place (e : CombEntry) : Nat := match e.cluster with
  | some c => 4096 + c
  | none => 8192 + e.router

/-- What a point whose combined request timed out tells the requester of a record: nothing behind a damaged one (R142). -/
def State.timeOutRecord (s : State) (entry : Nat) (mute : Bool) (h : HoistRec) : State :=
  if mute || h.damaged then silence (s.net.combs.length + 1) s h.req else s.timeOut entry h.req

/-- COMBINING_POINT_TIMEOUT: the timer of a point on a combined request expires; where it holds a damaged record, the machine-check record reports the request
as timed out there, bit 63 of the point's word (R142, log entry 16). Behind a damaged record of a point ahead no requester hears anything. -/
def execCombiningPointTimeout (entry : Nat) (s : State) : Out :=
  match FMap.find? s.net.combs entry with
  | none => .next s
  | some e =>
    match e.sent.bind fun j => (s.req? j).map fun f => (j, f) with
    | none => .next s
    | some (j, f) =>
      if !expired s.cycle f.deadline then .next s
      else
        let s := if e.recs.any (·.damaged) then s.machineCheck (2 ^ 63 + e.place) e.va e.asid else s
        let mute := s.behindDamage (s.net.combs.length + 1) j
        let s := (s.dropComb entry).setReq j { f with comb := none, deadline := none }
        .next (e.recs.foldl (fun s h => s.timeOutRecord entry mute h) (s.timeOutRecord entry mute ⟨e.first, 0, false⟩))

end Sys2Proof.Machine
end

