-- ==== Sys2Proof/Machine/Control.lean ====
section
/-!
DEFINITION. Control transfer (R264 to R266) and the repeat frame (R229, R230).
-/

namespace Sys2Proof.Machine

/-- The check of a target (R266): ALIGN, then GFAULT 0x01. -/
def checkTarget (t : Word) : Test :=
  if t.extractLsb' 0 2 ≠ 0 then .trap 0x04 (Config.openSub 0x04) t
  else if t.extractLsb' 48 16 ≠ 0 then .trap 0x06 0x01 t
  else .pass

/-- Transfers to a target that passes the check, with what is done before. -/
def transfer (t : Word) (s : State) : Res :=
  match checkTarget t with
  | .trap c b v => .trap c b v
  | _ => .jump s t

/-- The target of a branch: PC + 4 × sext(OFF23) (R264). -/
def branchTarget (t : Thread) (off : BitVec 23) : Word := t.regs.pc + (off.signExtend 64) * 4

def execBr (o : OpB) (s : State) : Out := issue (.br o) s fun s _ t _ => transfer (branchTarget t o.off) s
def execCall (o : OpB) (s : State) : Out :=
  issue (.call o) s fun s uid t _ => transfer (branchTarget t o.off) (s.putD s.cur uid 23 (t.regs.pc + 4))
def execJr (o : OpRA) (s : State) : Out := issue (.jr o) s fun s _ _ vals => transfer (vals.getD 0 0) s
def execJalr (o : OpRDA) (s : State) : Out :=
  issue (.jalr o) s fun s uid t vals => transfer (vals.getD 0 0) (s.putD s.cur uid o.d (t.regs.pc + 4))
def execRet (o : OpG) (s : State) : Out := issue (.ret o) s fun s _ _ vals => transfer (vals.getD 0 0) s

/-- REPF captures its frame in its own turn (R229); PC then stands at the first captured instruction. A word that is not in the
instruction cache is fetched first. -/
def execRepf (o : OpRepf) (s : State) : Out :=
  issue (.repf o) s fun s uid t _ =>
    let base := t.regs.pc.toNat
    match captureWords s (coreOf s.cur) t.asid (o.len1.toNat + 1) 0 (base + 4) [] with
    | .miss va => .leave (s.startFetch s.cur uid va)
    | .bad b i => .trap 0x0D b (BitVec.ofNat 64 i)
    | .words ws =>
      .leave ((s.countEv s.cur 2 1).modThread uid fun t => { t.enterFrame (encode (.repf o)) ws base 0 0 with park := Park.init })

end Sys2Proof.Machine
end

