-- ==== Sys2Proof/Machine/System.lean ====
section
/-!
DEFINITION. The system instructions (R335, R356 to R376): EXIT, traps, waits and halts, CSR access, seat control, and the saving and loading of
contexts; with the seat's timer (R370), its WAITLIM (R49) and INBOX (R158).
-/

namespace Sys2Proof.Machine

/-! ## EXIT (R335) -/

/-- A thread ends on its seat: reservations, weight slots, seat, and the counts of R180, R192 and R285. -/
def State.exitThread (s : State) (seat uid : Nat) : State :=
  match s.thread? uid with
  | none => s
  | some t =>
    let s := (s.releaseHolder t.holderKey).countEv seat 2 1
    let s := if t.kind = .anchored then s.freeSlotsOf seat else s
    (s.vacate seat).endThread uid

def execExit (o : OpG) (s : State) : Out :=
  issue (.exit o) s fun s uid _ _ => (s.release s.cur uid true true).andThen fun s => .leave (s.exitThread s.cur uid)

/-! ## Traps, waits and halts (R358 to R362) -/

def execIll (s : State) : Out := issue .ill s fun _ _ t _ => .trap 0x01 0x05 (issueWord .ill t)

def execNop (o : OpG) (s : State) : Out := issue (.nop o) s fun s _ _ _ => .done s

def execTrap (o : OpTrap) (s : State) : Out := issue (.trap o) s fun _ _ _ _ => .trap 0x13 (o.imm.setWidth 8) 0

/-- Invalidates the instruction-cache lines of an ASID on a core. -/
def State.dropIcache (s : State) (core : Nat) (asid : BitVec 16) : State :=
  let late (r : Req) : Req :=
    if r.op == .ifetch && r.asid == asid && coreOf r.seat == core && r.stage == .answered then { r with aged := BitVec.allOnes 64 } else r
  let s : State := { s with net := { s.net with reqs := s.net.reqs.map fun p => (p.1, late p.2) } }
  s.modCore core fun c =>
    { c with icache := c.icache.filter fun l => l.asid != asid }

def execIfence (o : OpG) (s : State) : Out :=
  issue (.ifence o) s fun s uid t _ =>
    (s.release s.cur uid true true).andThen fun s => .done (s.dropIcache (coreOf s.cur) t.asid)

def execWfe (o : OpG) (s : State) : Out :=
  issue (.wfe o) s fun s uid t _ =>
    if t.bar.event then .done (s.modThread uid fun t => { t with bar := { t.bar with event := false } })
    else if t.park.counting && decide (t.limit.toNat < t.park.units s.cycle) then .done s
    else .wait s

/-- The seats of the thread on a seat: of a doublet both (R409). -/
def State.pairOf (s : State) (seat : Nat) : List Nat := if (FMap.find? s.fab.doublets seat).isSome then [seat, seat + 8] else [seat]

/-- Sets HALT on a seat, of a doublet on both. -/
def State.haltSeat (s : State) (seat : Nat) : State := (s.pairOf seat).foldl (fun s k => s.modSeat k fun x => { x with halt := true }) s

/-- Halts a seat for the debugger, of a doublet both (R362, R414). -/
def State.breakSeat (s : State) (seat : Nat) : State := (s.pairOf seat).foldl (fun s k => s.modSeat k fun x => { x with dbgHalt := true }) s

def execHalt (o : OpG) (s : State) : Out :=
  issue (.halt o) s fun s _ _ _ => .done (s.haltSeat s.cur)

def execDbgbrk (o : OpG) (s : State) : Out :=
  issue (.dbgbrk o) s fun s _ t _ =>
    if ((s.context? t.asid).map (·.breakArmed)).getD false then .leave (s.breakSeat s.cur)
    else .trap 0x12 0x01 0

/-! ## Turn events: TIMER, WAITLIM, INBOX -/

/-- TIMER: taken by a user-mode thread with TE = 1 before it issues or retries (R370). -/
def execTimer (seat : Nat) (s : State) : Out :=
  match (s.seat seat).occ with
  | none => .next s
  | some uid =>
    if !(s.seat seat).timerDue then .next s
    else .next (takeTrap (s.modSeat seat fun x => { x with timerDue := false }) seat uid 0x0E 0x01 0)

/-- WAITLIM_EXPIRY: the attempt of a parked synchronising access found WAITED above LIMIT (R49). -/
def execWaitlimExpiry (seat : Nat) (s : State) : Out :=
  match (s.seat seat).occ, (s.seat seat).due with
  | some uid, some d =>
    if d.cause ≠ 0x08 then .next s
    else .next (takeTrap (s.modSeat seat fun x => { x with due := none }) seat uid d.cause d.sub d.xval)
  | _, _ => .next s

/-- A trap that has fallen due at a seat is taken. -/
def State.takeDue (s : State) (seat uid : Nat) (d : DueTrap) : State :=
  takeTrap (s.modSeat seat fun x => { x with due := none }) seat uid d.cause d.sub d.xval

/-- INBOX, subcode 0x01, with XVAL set to INBOXP as it stands (R158). A HALT of the seat ends (R361). -/
def State.takeInbox (s : State) (seat uid : Nat) : State :=
  let s := (s.modCore (coreOf seat) fun c => { c with ovfDue := none }).modSeat seat fun x => { x with halt := false }
  takeTrap s seat uid 0x0F 0x01 (s.core (coreOf seat)).inboxp

/-! ## ERET (R231, R369) -/

/-- What the recapture of a frame answers. -/
inductive Recapture where
  | frame (repf : BitVec 32) (ws : List (BitVec 32))
  | miss (va : Nat)
  | bad (sub : BitVec 8) (xval : Word)

/-- The frame that FRAMEST names is captured again, with its checks. -/
def recapture (s : State) (core : Nat) (asid : BitVec 16) (f : Word) : Recapture :=
  let base := frameBase f
  match s.icacheWord core asid base with
  | none => .miss base
  | some w =>
    if w.extractLsb' 26 6 ≠ 0x17 ∨ repfLen w ≤ frameIndex f ∨ repfTimes w ≤ frameIter f then .bad 3 f
    else
      match captureWords s core asid (repfLen w) 0 (base + 4) [] with
      | .miss va => .miss va
      | .bad b i => .bad b (BitVec.ofNat 64 i)
      | .words ws => .frame w ws

/-- A thread resumes the frame that FRAMEST names, at its index and iteration. -/
def Thread.resumeFrame (t : Thread) (repf : BitVec 32) (ws : List (BitVec 32)) : Thread :=
  let f := t.sys.framest
  t.enterFrame repf ws (frameBase f) (frameIndex f) (frameIter f)

def execEret (o : OpG) (s : State) : Out :=
  issue (.eret o) s fun s uid t _ =>
    if t.inFrame then
      match recapture s (coreOf s.cur) t.asid t.sys.framest with
      | .miss va => .leave (s.startFetch s.cur uid va)
      | .bad b v => .trap 0x0D b v
      | .frame w ws =>
        .leave ((returnTo (s.countEv s.cur 2 1) s.cur uid t.sys.eretTarget).modThread uid fun t => t.resumeFrame w ws)
    else
      match checkTarget t.sys.eretTarget with
      | .trap c b v => .trap c b v
      | _ => .leave (returnTo (s.countEv s.cur 2 1) s.cur uid t.sys.eretTarget)

/-! ## CSR access (R204 to R206, R363 to R365) -/

/-- XSTAT as a word, and from a word. -/
def Xstat.word (x : Xstat) : Word :=
  BitVec.ofNat 64 (b2n x.te * 16 + b2n x.uh * 8 + b2n x.sys * 4 + b2n x.pmode * 2 + b2n x.mode)
def xstatOf (w : Word) : Xstat := ⟨w.getLsbD 4, w.getLsbD 3, w.getLsbD 2, w.getLsbD 1, w.getLsbD 0⟩

/-- WAITLIM as it reads (R48). -/
def Thread.waitlim (t : Thread) (now : Nat) : Word := BitVec.ofNat 64 (t.park.units now * 2 ^ 32 + t.limit.toNat)

/-- What an anchored thread reads of FRM, FFLAGS, SRSEED and SATCNT; another reads 0 (R205). -/
def anchoredWord (t : Thread) (w : Word) : Word := if t.kind = .anchored then w else 0

/-- A CSR of a seat as it stands (R205). -/
def csrRead (s : State) (seat : Nat) (t : Thread) (n : Nat) : Word :=
  let x := s.seat seat
  let c := s.core (coreOf seat)
  let y := t.sys
  if 0x40 ≤ n && n ≤ 0x4F then vget x.pmc (n - 0x40) 0
  else if 0x05 ≤ n && n ≤ 0x08 then vget x.sscr (n - 0x05) 0
  else if 0x18 ≤ n && n ≤ 0x1B then vget y.fs (n - 0x18) 0
  else if 0x21 ≤ n && n ≤ 0x24 then vget x.disc (n - 0x21) 0
  else
    match n with
    | 0x00 => y.xstat.word
    | 0x01 => y.xcause.setWidth 64
    | 0x02 => y.xval
    | 0x03 => y.xpc
    | 0x04 => x.xvec
    | 0x09 => anchoredWord t (y.frm.setWidth 64)
    | 0x0A => anchoredWord t (y.fflags.setWidth 64)
    | 0x0B => anchoredWord t y.srseed
    | 0x0C => anchoredWord t y.satcnt
    | 0x0D => t.waitlim s.cycle
    | 0x0E => x.quantum.setWidth 64
    | 0x0F => BitVec.ofNat 64 s.cycle
    | 0x10 => x.lbase
    | 0x11 => x.llim
    | 0x12 => t.asid.setWidth 64
    | 0x13 => s.seatId seat
    | 0x14 => y.widshape.setWidth 64
    | 0x15 => y.framest
    | 0x16 => c.inboxb
    | 0x17 => c.inboxp
    | 0x1C => t.launch.setWidth 64
    | 0x1D => y.job.setWidth 64
    | 0x1E => x.wbseg.setWidth 64
    | 0x1F => c.prioAging.setWidth 64
    | 0x20 => c.parkswap.setWidth 64
    | 0x25 => x.doubletc
    | 0x26 => y.board
    | 0x27 => y.faultq
    | 0x28 => x.deleg
    | 0x29 => y.uxvec
    | 0x50 => x.pmcsel
    | _ => 0

/-- The bits of DELEG that are RW (R205). -/
def delegMask : Word := BitVec.ofNat 64 (2 ^ 7 + 2 ^ 8 + 2 ^ 9 + 2 ^ 10 + 2 ^ 12 + 2 ^ 19 + 2 ^ 20)
/-- The fields of FRAMEST, DISCn, LBASE, LLIM, INBOXB (R205, R12, R156). -/
def framestMask (w : Word) : Word := w &&& BitVec.ofNat 64 (2 ^ 63 + 63 * 2 ^ 56 + 15 * 2 ^ 52 + (2 ^ 48 - 4))
def discMask (w : Word) : Word := w &&& BitVec.ofNat 64 (2 ^ 63 + (2 ^ 18 - 1) * 2 ^ 24 + (2 ^ 18 - 1) * 2 ^ 6)
def lbaseMask (w : Word) : Word := w &&& 0xFF_FFC0
def llimMask (w : Word) : Word := w &&& 0x1FF_FFC0
def inboxbMask (w : Word) : Word := w &&& 0x0FFF_FFC0
def handlerMask (w : Word) : Word := w &&& ~~~ 3

/-- A write to a field of the thread's own registers. -/
def SysRegs.write (y : SysRegs) (n : Nat) (w : Word) (anchored : Bool) : SysRegs :=
  match n with
  | 0x00 => { y with xstat := { y.xstat with te := w.getLsbD 4, uh := w.getLsbD 3, pmode := w.getLsbD 1 } }
  | 0x01 => { y with xcause := w.setWidth 16 }
  | 0x02 => { y with xval := w }
  | 0x03 => { y with xpc := w }
  | 0x09 => if anchored then { y with frm := w.setWidth 3 } else y
  | 0x0A => if anchored then { y with fflags := w.setWidth 5 } else y
  | 0x0B => if anchored then { y with srseed := w } else y
  | 0x0C => if anchored then { y with satcnt := w } else y
  | 0x15 => { y with framest := framestMask w }
  | 0x29 => { y with uxvec := handlerMask w }
  | _ => y

/-- A write to a field of the seat's registers. -/
def Seat.write (x : Seat) (n : Nat) (w : Word) : Seat :=
  if 0x40 ≤ n && n ≤ 0x4F then { x with pmc := vset x.pmc (n - 0x40) w }
  else if 0x05 ≤ n && n ≤ 0x08 then { x with sscr := vset x.sscr (n - 0x05) w }
  else if 0x21 ≤ n && n ≤ 0x24 then { x with disc := vset x.disc (n - 0x21) (discMask w) }
  else
    match n with
    | 0x04 => { x with xvec := handlerMask w }
    | 0x0E => { x with quantum := w.setWidth 32 }
    | 0x10 => { x with lbase := lbaseMask w }
    | 0x11 => { x with llim := llimMask w }
    | 0x1E => { x with wbseg := w.setWidth 16 }
    | 0x28 => { x with deleg := w &&& delegMask }
    | 0x50 => { x with pmcsel := w }
    | _ => x

/-- A write to a field of the core's registers; `clear` is the word whose ones clear OVF. -/
def Core.write (c : Core) (n : Nat) (w clear : Word) : Core :=
  match n with
  | 0x16 => { c with inboxb := inboxbMask w }
  | 0x17 => { c with inboxp := putBit (setBits c.inboxp 0 16 (bitsOf w 0 16)) 63 (c.ovf && !clear.getLsbD 63) }
  | 0x1F => { c with prioAging := w.setWidth 16 }
  | 0x20 => { c with parkswap := w.setWidth 16 }
  | _ => c

/-- W(w) of R364, with its further effects (R365). Fields that R363 keeps are not written. The interface sees the inbox registers of before the write until
the next cycle. -/
def csrWrite (s : State) (seat uid n : Nat) (w clear : Word) : State :=
  let core := coreOf seat
  if n = 0x16 || n = 0x17 then
    (s.modCore core fun c => { c.write n w clear with before := some (s.cycle, c.inboxb, c.inboxp) }).roomInRing core
  else if n = 0x1F || n = 0x20 then s.modCore core fun c => c.write n w clear
  else if n = 0x0D then s.modThread uid fun t => { t with limit := w.setWidth 16 }
  else
    let s := (s.modThread uid fun t => { t with sys := t.sys.write n w (t.kind == .anchored) }).modSeat seat fun x => x.write n w
    if n = 0x00 || n = 0x0E then s.modSeat seat fun x => x.reloadTimer s.cycle else s

def execCsrr (o : OpCsrr) (s : State) : Out :=
  issue (.csrr o) s fun s uid t _ => .done (s.putD s.cur uid o.d (csrRead s s.cur t o.csr.toNat))

/-- CSRW, CSRS and CSRC: `f` gives the word written from the old value and g[A], `clear` the word whose ones clear. The events of the cycle, and its own
retirement among them, are applied before the write (R364). -/
def csrModify (o : OpCsrw) (f : Word → Word → Word) (clear : Word → Word) : Body := fun s uid t vals =>
  let old := csrRead s s.cur t o.csr.toNat
  let v := vals.getD 0 0
  .leave (retireCounted ((csrWrite (s.countEv s.cur 2 1) s.cur uid o.csr.toNat (f old v) (clear v)).putD s.cur uid o.d old) s.cur uid)

def execCsrw (o : OpCsrw) (s : State) : Out := issue (.csrw o) s (csrModify o (fun _ v => v) (fun v => v))
def execCsrs (o : OpCsrw) (s : State) : Out := issue (.csrs o) s (csrModify o (fun old v => old ||| v) (fun v => v))
def execCsrc (o : OpCsrw) (s : State) : Out := issue (.csrc o) s (csrModify o (fun old v => old &&& ~~~ v) (fun _ => 0))

/-! ## Seat control (R371) -/

/-- A seat on which STOP, HALT or TSTOP is set. -/
def Seat.stopped (x : Seat) : Bool := x.stop || x.halt || x.tstop

/-- The status word of a seat. The issuing seat is neither parked nor out of the rotation. -/
def State.seatStatus (s : State) (seat : Nat) : Word :=
  let x := s.seat seat
  let t := (x.occ.bind fun u => s.thread? u).getD Thread.init
  let occ := x.occ.isSome
  let kind := match t.kind with
    | .roaming => 0
    | .anchored => 1
    | .bound => 2
  let park := occ && s.primaryOf seat != s.cur && (t.park.parked || x.off.isSome || x.dbgHalt || (match t.loc with | .transit _ => true | _ => false))
  let inf := if occ then b2n t.bar.event * 2 ^ 58 + kind * 2 ^ 56 + b2n t.sys.xstat.sys * 2 ^ 55 + b2n t.sys.xstat.mode * 2 ^ 54
      + t.asid.toNat * 2 ^ 32 else 0
  BitVec.ofNat 64 (b2n occ * 2 ^ 63 + b2n x.stop * 2 ^ 62 + b2n x.halt * 2 ^ 61 + b2n x.tstop * 2 ^ 60 + b2n park * 2 ^ 59 + inf
    + (if x.tstop then (t.sys.xcause.extractLsb' 0 8).toNat else 0))

/-- The seats of the role group of the thread on a seat; of another thread its seat alone (R182, R371). -/
def State.roleSeats (s : State) (seat : Nat) : List Nat :=
  match (s.seat seat).occ.bind fun u => s.thread? u with
  | none => [seat]
  | some t =>
    match (if t.role then s.roleLevel t else none) with
    | none => [seat]
    | some l =>
      ((s.coreThreads (coreOf seat)).filter fun p =>
        p.2.2.role && p.2.2.launch == t.launch && s.groupOf p.2.2 l p.2.2.regs.wid == s.groupOf t l t.regs.wid).map (·.1)

/-- The seats on which a stop or a start of a seat acts: for a role-group member those of its role group, and of a doublet both seats, whichever of them is
named (R371, R409). -/
def State.seatGroup (s : State) (seat : Nat) : List Nat := (s.roleSeats (s.primaryOf seat)).flatMap s.pairOf

/-- What a seat has begun is over: its local access and its matrix operation (R309). -/
def Seat.quiet (x : Seat) : Bool := x.localOp.isNone && x.off != some .matrix

/-- A CTXSAVE or CTXLOAD of a seat is under way: a seat has passed its checks and waits, or moves the blocks. -/
def State.seatMoving (s : State) (seat : Nat) : Bool :=
  s.fab.seats.any fun p =>
    (match p.2.off with
      | some (.saving n _ _ _ _) => n == seat
      | _ => false)
    || match p.2.localOp with
      | some op => (match op.kind with
        | .save n _ _ _ | .restore n _ _ _ _ _ => n == seat
        | _ => false)
      | none => false

/-- The context of a thread is being saved or loaded: answers to it wait at the interface (R375). -/
def State.contextMoving (s : State) (uid : Nat) : Bool :=
  s.fab.seats.any fun p => match p.2.localOp with
    | some op => (match op.kind with
      | .save _ u _ _ => u == uid
      | .restore _ _ u _ _ _ => u == some uid
      | _ => false)
    | none => false

/-- SEATCTL of a seat of the issuing core, whose number is in the register. -/
def seatTarget (s : State) (v : Word) : Nat := coreOf s.cur * 8 + bitsOf v 0 3

def execSeatctlStat (o : OpDA) (s : State) : Out :=
  issue (.seatctlStat o) s fun s uid _ vals => .done (s.putD s.cur uid o.d (s.seatStatus (seatTarget s (vals.getD 0 0))))

/-- Sets STOP on seats of a group that the issuing thread does not hold. -/
def State.stopOthers (s : State) (group : List Nat) : State :=
  (group.filter fun k => s.primaryOf k != s.cur).foldl (fun s k => s.modSeat k fun x => { x with stop := true }) s

/-- A seat leaves the rotation for a reason; its thread counts as parked (R371, R374). -/
def State.leaveRotation (s : State) (seat uid : Nat) (why : OffReason) : State :=
  ((s.countEv seat 4 1).modSeat seat fun x => { x with off := some why }).modThread uid fun t => { t with park := t.park.enter s.cycle }

/-- Some seat that a SEATCTL.stop stops, other than the issuing one, has not stopped (R371, R309). -/
def State.stillStopping (s : State) (seat n : Nat) : Bool := (s.seatGroup n).any fun k => s.primaryOf k != seat && !(s.seat k).quiet

/-- The end of a SEATCTL.stop: the issuing seat halts if it is among those stopped; the status. -/
def State.stopped (s : State) (seat uid n : Nat) (d : BitVec 6) : State :=
  let s := if (s.seatGroup n).contains seat then s.haltSeat seat else s
  s.putD seat uid d (s.seatStatus n)

/-- A SEATCTL.stop that is out of the rotation goes on in a turn of its seat: it rejoins once the seats have stopped. -/
def State.continueStop (s : State) (seat uid n : Nat) (d : BitVec 6) : State :=
  if s.stillStopping seat n then s.countEv seat 4 1
  else retire ((s.modSeat seat fun x => { x with off := none }).stopped seat uid n d) seat uid

def execSeatctlStop (o : OpDA) (s : State) : Out :=
  issue (.seatctlStop o) s fun s uid _ vals =>
    let n := seatTarget s (vals.getD 0 0)
    let s := s.stopOthers (s.seatGroup n)
    if s.stillStopping s.cur n then .leave (s.leaveRotation s.cur uid (.stopping n o.d)) else .done (s.stopped s.cur uid n o.d)

/-- Clears STOP, HALT and TSTOP. -/
def State.startSeat (s : State) (seat : Nat) : State := s.modSeat seat fun x => { x with stop := false, halt := false, tstop := false }

/-- SEATCTL.start. DESIGN CHOICE (log entry 120): it waits while a context is being saved from or loaded into one of the seats. -/
def execSeatctlStart (o : OpDA) (s : State) : Out :=
  issue (.seatctlStart o) s fun s uid _ vals =>
    let n := seatTarget s (vals.getD 0 0)
    if (s.seatGroup n).any s.seatMoving then .park
    else
      let s := (s.seatGroup n).foldl (fun s k => s.startSeat k) s
      .done (s.putD s.cur uid o.d (s.seatStatus n))

def execSeatctlWake (o : OpDA) (s : State) : Out :=
  issue (.seatctlWake o) s fun s uid _ vals =>
    let n := seatTarget s (vals.getD 0 0)
    let s := match (s.seat n).occ with
      | some u => s.modThread u fun t => { t with bar := { t.bar with event := true } }
      | none => s
    .done (s.putD s.cur uid o.d (s.seatStatus n))

/-! ## Save areas (R172, R372, R373) -/

def kindBits (k : Kind) : Nat := match k with
  | .roaming => 0
  | .anchored => 1
  | .bound => 2
def kindOfBits (n : Nat) : Kind := if n = 1 then .anchored else if n = 2 then .bound else .roaming

/-- Word 29 of a portable context. -/
def Thread.tagWord (t : Thread) (now : Nat) : Word :=
  BitVec.ofNat 64 (t.park.units now * 2 ^ 48 + t.limit.toNat * 2 ^ 32 + b2n t.placed * 2 ^ 29 + b2n t.role * 2 ^ 28 + t.prio.toNat * 2 ^ 26
    + kindBits t.kind * 2 ^ 24 + t.regs.full.toNat)

/-- Part P. -/
def Thread.partP (t : Thread) (now : Nat) : List Word :=
  t.regs.g.toList ++ [t.regs.pw, t.regs.xy, t.regs.zw, t.regs.wid, t.regs.pc, t.tagWord now,
    BitVec.ofNat 64 (t.launch.toNat * 2 ^ 16 + t.asid.toNat), t.defer]

/-- The STATE word. -/
def Thread.stateWord (t : Thread) : Word :=
  BitVec.ofNat 64 (t.bar.bgen.toNat * 2 ^ 32 + t.bar.blev.toNat * 2 ^ 29 + b2n t.bar.barr * 2 ^ 28 + b2n t.bar.carr * 2 ^ 27
    + b2n t.bar.event * 2 ^ 26 + t.owed.length % 2 ^ 16)

def tagCode (g : AccTag) : Nat := match g with
  | .fp32 => 0
  | .int32 => 1
  | .fp64 => 2
def tagOfCode (n : Nat) : AccTag := if n = 1 then .int32 else if n = 2 then .fp64 else .fp32

/-- ACCTAG. -/
def VecState.tagWord (v : VecState) : Word :=
  BitVec.ofNat 64 ((List.range 4).foldl (fun a n => a + tagCode (vget v.tag n .fp32) * 4 ^ n) 0)

/-- Part C. -/
def Thread.partC (t : Thread) (x : Seat) : List Word :=
  let y := t.sys
  [y.xstat.word, y.xcause.setWidth 64, y.xval, y.xpc, y.framest, y.uxvec, x.lbase, x.llim, y.job.setWidth 64, y.widshape.setWidth 64]
    ++ y.fs.toList ++ [y.board, y.faultq, x.wbseg.setWidth 64] ++ x.disc.toList
    ++ [y.frm.setWidth 64, y.fflags.setWidth 64, y.srseed, y.satcnt, t.stateWord, x.deleg, t.vec.tagWord, 0, 0, 0, 0]

/-- Bit n is the full bit of v n. -/
def VecState.fullBits (v : VecState) : Word :=
  BitVec.ofNat 64 ((List.range 16).foldl (fun a n => a + if vget v.vst n .full = .full then 2 ^ n else 0) 0)

/-- Part V, and parts A and E. -/
def VecState.partV (v : VecState) : List Word :=
  (v.v.toList.flatMap fun l => (List.range 8).map (lineWord l)) ++ v.fullBits :: List.replicate 7 0
def VecState.partA (v : VecState) : List Word := v.acc.toList.flatMap fun a => (List.range 128).map fun j => a.extractLsb' (64 * j) 64
def Thread.partE (t : Thread) : List Word := t.shadows.fields.toList

/-- Offset and bytes of part n. -/
def partPlace (n : Nat) : Nat × Nat := match n with
  | 0 => (0, 256)
  | 1 => (256, 256)
  | 2 => (512, 1088)
  | 3 => (1600, 4096)
  | _ => (5696, 768)
/-- The selected parts. -/
def partList (parts : BitVec 5) : List Nat := (List.range 5).filter fun n => parts.getLsbD n
/-- The extent of an area, and the blocks of the selected parts. -/
def areaBytes (parts : BitVec 5) : Nat := (partList parts).foldl (fun _ n => (partPlace n).1 + (partPlace n).2) 0
def areaBlocks (parts : BitVec 5) : Nat := (partList parts).foldl (fun a n => a + (partPlace n).2 / 64) 0

/-- The word numbers of the selected parts, in ascending order. -/
def areaWords (parts : BitVec 5) : List Nat :=
  (partList parts).flatMap fun n => (List.range ((partPlace n).2 / 8)).map fun j => (partPlace n).1 / 8 + j

/-- The word accesses of an area's blocks: one 64-byte block in each of the cycles that follow (R374, R433), each with its transit. -/
def areaParts (core place : Nat) (ws : List (Nat × BankOp)) : List (Nat × Nat × BankPart) :=
  ws.zipIdx.map fun (w, i) =>
    let t := transit core (place + 8 * w.1)
    (1 + i / 8 + t, t, ⟨place + 8 * w.1, w.2, w.1⟩)

/-- The words of a part of a thread on a seat. -/
def Thread.part (t : Thread) (x : Seat) (now n : Nat) : List Word := match n with
  | 0 => t.partP now
  | 1 => t.partC x
  | 2 => t.vec.partV
  | 3 => t.vec.partA
  | _ => t.partE

/-- The issuing seat leaves the rotation and its core moves the blocks of an area. -/
def State.moveBlocks (s : State) (seat uid : Nat) (kind : LocalKind) (off : Word) (place : Nat) (ws : List (Nat × BankOp)) : State :=
  let parts := areaParts (coreOf seat) place ws
  let op := LocalOp.start uid kind off (s.seat seat).lbase.toNat (parts.map (·.2.2)) s.cycle
  let s := s.modSeat seat fun x => { x with localOp := some op, off := some .context }
  queueParts (.seat seat) (clusterOf (coreOf seat)) parts (s.modThread uid fun t => { t with park := t.park.enter s.cycle })

/-- The blocks have been moved: the issuing seat rejoins the rotation and its instruction retires. -/
def State.blocksMoved (s : State) (seat : Nat) (op : LocalOp) : State :=
  let s := s.modSeat seat fun x => { x with localOp := none, localDone := op.done, off := none }
  if (s.thread? op.uid).isSome then retire s seat op.uid else s

/-! ## CTXSAVE (R374, R375) -/

/-- The checks of an area: alignment, then the segment over its extent. -/
def checkArea (x : Seat) (o : Word) (parts : BitVec 5) : Check :=
  if o.toNat % 64 ≠ 0 then .trap 0x04 (Config.openSub 0x04) o else checkExtent x.lbase.toNat x.segLen o (areaBytes parts)

/-- A saved thread leaves its seat: its answers are routed, its weight slots are free. -/
def State.saveAway (s : State) (seat uid : Nat) (t : Thread) (area : Nat) (partC : Bool) : State :=
  let rec' : Saved := ⟨uid, coreOf seat, t.asid, t.launch, t.regs.wid, t.origin, t.shadows.dirty, t.regs.pwPoison, t.cancelTaken, t.acquireDue⟩
  let s := ((s.vacate seat).freeSlotsOf seat).dropThread uid
  let s := { s with disp := { s.disp with saved := s.disp.saved ++ [rec'] } }
  let s := if t.owed.isEmpty then s
    else s.modCore (coreOf seat) fun c => c.putRoute ⟨uid, area, t.asid, t.launch, t.owed, partC⟩
  s.reap uid

/-- The words of an area that the selected parts of a thread on a seat fill. -/
def Thread.areaData (t : Thread) (x : Seat) (now : Nat) (parts : BitVec 5) : List (Nat × Word) :=
  (partList parts).flatMap fun n => ((t.part x now n).zipIdx ((partPlace n).1 / 8)).map fun (w, i) => (i, w)

/-- The moves of a CTXSAVE begin. -/
def State.startSave (s : State) (by' byUid seat uid : Nat) (t : Thread) (off : Word) (place : Nat) (parts : BitVec 5) : State :=
  s.moveBlocks by' byUid (.save seat uid place parts) off place
    ((t.areaData (s.seat seat) s.cycle parts).map fun (i, w) => (i, .write 255 w))

/-- The number of the STATE word in an area (R373). It is written as it stands in that cycle: EVENT may have been set since the issue. -/
def stateWordNo : Nat := 57

/-- All blocks have been written: with part P the seat becomes empty. -/
def State.finishSave (s : State) (by' : Nat) (op : LocalOp) (seat uid place : Nat) (parts : BitVec 5) : State :=
  let s := s.blocksMoved by' op
  match s.thread? uid with
  | some t => if parts.getLsbD 0 && (s.seat seat).occ == some uid then s.saveAway seat uid t place (parts.getLsbD 1) else s
  | none => s

def privTrap (b : BitVec 8) : Res := .trap 0x03 b (Config.openXval 0x03 b)

/-- Routes that a core holds, and those that saves under way on its seats are going to need (R375). -/
def State.routesTaken (s : State) (core : Nat) : Nat :=
  (s.core core).routes.length + (s.fab.seats.filter fun p => match p.2.localOp with
    | some op => (match op.kind with
      | .save n u _ parts => coreOf n == core && parts.getLsbD 0 && ((s.thread? u).map fun t => !t.owed.isEmpty).getD false
      | _ => false)
    | none => false).length

/-- A CTXSAVE that has passed its checks goes on, at its issue and then in each turn of its seat, which is out of the rotation (R374): it waits for the
matrix operation and the release of an anchored thread, for the checkpoint of a doublet (R411), and for a route (R375). -/
def State.continueSave (s : State) (by' byUid seat uid : Nat) (off : Word) (place : Nat) (parts : BitVec 5) : State :=
  let wait (s : State) : State := s.leaveRotation by' byUid (.saving seat uid off place parts)
  match (if (s.seat seat).occ == some uid then s.thread? uid else none) with
  | none => retire (s.modSeat by' fun x => { x with off := none }) by' byUid
  | some t =>
    if !(s.seat seat).quiet then wait s
    else if t.kind = .anchored then
      match s.release seat uid true false with
      | .waits s => wait s
      | .reports s _ _ _ | .over s => s.startSave by' byUid seat uid ((s.thread? uid).getD t) off place parts
    else if !s.boundaryClear seat then wait (s.wantCheckpoint seat)
    else if parts.getLsbD 0 && !t.owed.isEmpty && decide (64 ≤ s.routesTaken (coreOf seat)) then wait s
    else (s.newInterval seat).startSave by' byUid seat uid t off place parts

/-- CTXSAVE (R374). A thread in transit from the seat is not saved: whether it leaves is decided first (R355). That of a doublet is saved by either of its
seats (R409). DESIGN CHOICE (log entry 120): a seat whose context is being saved or loaded is waited for. -/
def execCtxsave (o : OpCtxsave) (s : State) : Out :=
  issue (.ctxsave o) s fun s uid _ vals =>
    let area := vals.getD 0 0
    let n := s.primaryOf (seatTarget s (vals.getD 1 0))
    let x := s.seat n
    if seatTarget s (vals.getD 1 0) = s.cur then privTrap 0x05
    else if s.seatMoving n then .park
    else
      match (if x.stopped then x.occ.bind fun u => (s.thread? u).map fun t => (u, t) else none) with
      | none => privTrap 0x04
      | some (u, t) =>
        match checkArea (s.seat s.cur) area o.parts with
        | .trap c b v => .trap c b v
        | .ok place =>
          match t.loc with
          | .transit _ => .park
          | _ => .leave (s.continueSave s.cur uid n u area place o.parts)

/-! ## CTXLOAD (R376, R404) -/

/-- The regions of part C's DISC words that are in use: base and bytes as segment offsets. -/
def discRegions (rd : Nat → Word) : List (Nat × Nat) :=
  (List.range 4).filterMap fun k =>
    let w := rd (49 + k)
    let lo := bitsOf w 6 18 * 64
    let hi := bitsOf w 24 18 * 64
    if w.getLsbD 63 && decide (lo < hi) then some (lo, hi - lo) else none

/-- The first region that does not lie in the segment of part C (R404). -/
def discCheck (rd : Nat → Word) : Test :=
  let x : Seat := { Seat.init with lbase := lbaseMask (rd 38), llim := llimMask (rd 39) }
  match (discRegions rd).findSome? fun p =>
      match checkExtent x.lbase.toNat x.segLen (BitVec.ofNat 64 p.1) p.2 with
      | .trap c b v => some (Test.trap c b v)
      | .ok _ => none with
  | some t => t
  | none => .pass

/-- Puts a region in its place among others by their bases. -/
def insertRegion (r : Nat × Nat) : List (Nat × Nat) → List (Nat × Nat)
  | [] => [r]
  | x :: rest => if r.1 < x.1 then r :: x :: rest else x :: insertRegion r rest

/-- The 64-byte blocks of regions in ascending offset, each once. -/
def regionBlocks (rs : List (Nat × Nat)) : List Nat :=
  ((rs.foldl (fun acc r => insertRegion r acc) []).foldl (fun (acc : List Nat × Nat) r =>
    let a := max r.1 acc.2
    (acc.1 ++ (List.range ((r.1 + r.2 - a) / 64)).map (a + 64 * ·), max acc.2 (r.1 + r.2))) ([], 0)).1

/-- The words of the discardable regions are cleared, one 64-byte block in each cycle in ascending offset (R404). DESIGN CHOICE (log entry 98): from the cycle
on in which the last word of the area is read, so that the first turn of the seat stands where R433 puts it. -/
def clearParts (core : Nat) (rd : Nat → Word) : List (Nat × Nat × BankPart) :=
  (regionBlocks (discRegions rd)).zipIdx.flatMap fun (b, i) => (List.range 8).map fun j =>
    let off := (lbaseMask (rd 38)).toNat + b + 8 * j
    let t := transit core off
    (i + t, t, ⟨off, .clear, 1024⟩)

/-- The registers of part P. -/
def regsOfArea (rd : Nat → Word) (pwPoison : Option Word) : Regs where
  g := Vector.ofFn fun (i : Fin 24) => rd i.val
  full := (rd 29).setWidth 24
  pw := pwOf (rd 24)
  pwPoison := pwPoison
  xy := rd 25
  zw := rd 26
  wid := rd 27
  pc := rd 28 &&& ~~~ 3

/-- The thread-scope CSRs of part C; SYS comes from the firmware's record, and without it the mode is user. -/
def sysOfArea (rd : Nat → Word) (sys : Bool) : SysRegs where
  xstat := let x := xstatOf (rd 32); { x with sys := sys, mode := sys && x.mode, pmode := sys && x.pmode }
  xcause := (rd 33).setWidth 16
  xval := rd 34
  xpc := rd 35
  frm := (rd 53).setWidth 3
  fflags := (rd 54).setWidth 5
  srseed := rd 55
  satcnt := rd 56
  framest := framestMask (rd 36)
  uxvec := handlerMask (rd 37)
  job := (rd 40).setWidth 33
  widshape := (rd 41).setWidth 42
  fs := #v[rd 42 &&& 0xFFFF_FFFF_FFC0, rd 43 &&& 0xFFFF_FFFF_FFC0, rd 44 &&& 0xFFFF_FFFF_FFC0, rd 45 &&& 0xFFFF_FFFF_FFC0]
  board := rd 46
  faultq := rd 47

/-- The vector and matrix state of parts V, A and C; a part that is not selected leaves zero and full, or FP32. -/
def vecOfArea (rd : Nat → Word) (parts : BitVec 5) : VecState :=
  let line (n : Nat) : Line := BitVec.ofNat 512 ((List.range 8).foldl (fun a j => a + (rd (64 + 8 * n + j)).toNat * 2 ^ (64 * j)) 0)
  let acc (n : Nat) : BitVec 8192 :=
    BitVec.ofNat 8192 ((List.range 128).foldl (fun a j => a + (rd (200 + 128 * n + j)).toNat * 2 ^ (64 * j)) 0)
  let full := rd 192
  { v := if parts.getLsbD 2 then Vector.ofFn fun (i : Fin 16) => line i.val else Vector.replicate 16 0
    vst := if parts.getLsbD 2 then Vector.ofFn fun (i : Fin 16) =>
        if full.getLsbD i.val then .full else if (line i.val).getLsbD 63 then .poisoned else .pending
      else Vector.replicate 16 .full
    acc := if parts.getLsbD 3 then Vector.ofFn fun (i : Fin 4) => acc i.val else Vector.replicate 4 0
    tag := if parts.getLsbD 1 then Vector.ofFn fun (i : Fin 4) => tagOfCode (bitsOf (rd 59) (2 * i.val) 2) else Vector.replicate 4 .fp32 }

def barOfArea (rd : Nat → Word) : BarState :=
  let w := rd 57
  ⟨w.getLsbD 28, w.getLsbD 27, BitVec.ofNat 3 (bitsOf w 29 3), BitVec.ofNat 32 (bitsOf w 32 32), w.getLsbD 26⟩

/-- A frame that the thread is in, outside a handler, is captured again at its first turn. -/
def pendingFrame (y : SysRegs) (pc : Word) : Option Frame :=
  if y.framest.getLsbD 63 && pc == BitVec.ofNat 64 (frameBase y.framest + 4 * (frameIndex y.framest + 1)) then some ⟨0, []⟩ else none

/-- The thread that an area gives, with what the package knows of it. -/
def threadOfArea (s : State) (rd : Nat → Word) (parts : BitVec 5) (seat : Nat) (v : Saved) (owed : List Owed) : Thread :=
  let c := parts.getLsbD 1
  let asid := (rd 30).setWidth 16
  let launch : BitVec 32 := BitVec.ofNat 32 (bitsOf (rd 30) 16 32)
  let sys := ((s.context? asid).map (·.sys)).getD false
  let y := if c then sysOfArea rd sys else launchSys s asid launch v.origin.task { SysRegs.init with xstat := { Xstat.init with sys := sys } }
  let w := rd 29
  let waited := bitsOf w 48 16
  { Thread.init with
    regs := regsOfArea rd v.pwPoison
    kind := kindOfBits (bitsOf w 24 2)
    prio := BitVec.ofNat 2 (bitsOf w 26 2)
    placed := w.getLsbD 29
    role := w.getLsbD 28
    asid := asid
    launch := launch
    limit := BitVec.ofNat 16 (bitsOf w 32 16)
    defer := rd 31
    sys := y
    fsCopy := copiesAgain y
    vec := vecOfArea rd parts
    bar := if c then barOfArea rd else BarState.init
    owed := owed
    shadows := if parts.getLsbD 4 then ⟨Vector.ofFn fun (i : Fin 96) => rd (712 + i.val), v.dirty⟩ else Shadows.init
    park := { Park.init with counting := waited != 0, waited := waited * 1024, countSince := s.cycle }
    frame := pendingFrame y (rd 28 &&& ~~~ 3)
    origin := v.origin
    loc := .seat seat
    cancelTaken := v.cancelled
    acquireDue := v.acquire }

/-- The seat's registers after a load (R366, R372, R376). -/
def Seat.loaded (x : Seat) (rd : Nat → Word) (c : Bool) (deleg : Word) (uid : Nat) : Seat :=
  let x := { x with occ := some uid, engStatus := Vector.replicate 3 0xFF, deleg := deleg, off := none, due := none, localOp := none, pops := [], fetched := [] }
  if c then
    { x with lbase := lbaseMask (rd 38), llim := llimMask (rd 39), wbseg := (rd 48).setWidth 16,
             disc := #v[discMask (rd 49), discMask (rd 50), discMask (rd 51), discMask (rd 52)] }
  else { x with wbseg := 0, disc := Vector.replicate 4 0 }

/-- The delegation mask of a seat for a context (R366): a system context keeps a given word. -/
def State.delegFor (s : State) (asid : BitVec 16) (own : Word) : Word :=
  match s.context? asid with
  | some c => if c.sys then own else c.deleg &&& delegMask
  | none => 0

/-- The saved context that an area belongs to. -/
def State.savedAs (s : State) (asid : BitVec 16) (launch : BitVec 32) (wid : Word) : Option Saved :=
  s.disp.saved.find? fun v => v.asid == asid && v.launch == launch && v.wid == wid

/-- A thread of a doublet launch needs an even core, and the secondary's seat empty (R409). -/
def State.doubletPlace (s : State) (seat : Nat) : Bool := coreOf seat % 2 == 0 && (s.seat (seat + 8)).occ.isNone

/-- A context is loaded into a seat from the words of an area; an anchored thread acquires at scope 6 (R111, R376). A thread of a doublet launch takes the
secondary's seat as well (R409). -/
def State.loadContext (s : State) (seat : Nat) (rd : Nat → Word) (parts : BitVec 5) (go : Bool) : State :=
  let core := coreOf seat
  let asid := (rd 30).setWidth 16
  let launch : BitVec 32 := BitVec.ofNat 32 (bitsOf (rd 30) 16 32)
  let (v, s) := match s.savedAs asid launch (rd 27) with
    | some v => (v, { s with disp := { s.disp with saved := listErase (fun x => x.uid == v.uid) s.disp.saved } })
    | none =>
      let (u, s) := s.fresh
      ((⟨u, coreOf seat, asid, launch, rd 27, ⟨none, none⟩, 0, none, false, none⟩ : Saved), s.modLaunch launch.toNat fun l => { l with live := NSet.add l.live u })
  let owed := (((s.core core).routes.find? fun r => r.uid == v.uid).map (·.owed)).getD []
  let c := parts.getLsbD 1
  let t := threadOfArea s rd parts seat v owed
  let t := { t with sys := { t.sys with job := s.arrivalJob core t.sys } }
  let s := s.modCore core fun k => { k with routes := listErase (fun r => r.uid == v.uid) k.routes }
  let deleg := s.delegFor asid (if c then rd 58 &&& delegMask else (s.seat seat).deleg)
  let s := (s.setThread v.uid t).modSeat seat fun x => (x.loaded rd c deleg v.uid).reloadTimer s.cycle
  let s := (s.joinDoublet seat v.uid t).modSeat seat fun x => { x with nextTurn := max x.nextTurn (s.cycle + 1) }
  let s := if t.kind = .anchored then (s.listLines (clusterOf core) v.uid asid).acquireLines (clusterOf core) asid else s
  if go then (s.seatGroup seat).foldl (fun s k => s.startSeat k) s else s

/-- The core that saved a context routes its answers until all have reached the area: another core must not load it (R375). -/
def State.loadElsewhere (s : State) (core : Nat) (rd : Nat → Word) (c : Bool) : Bool :=
  let outst := c && bitsOf (rd 57) 0 16 != 0
  match s.savedAs ((rd 30).setWidth 16) (BitVec.ofNat 32 (bitsOf (rd 30) 16 32)) (rd 27) with
  | some v => v.core != core && ((s.routeOf v.uid).isSome || outst)
  | none => outst

/-- What the words of an area refuse of a load into a seat (R357, R376, R404). DESIGN CHOICE: PRIV 0x04 also where a thread of a doublet launch has no place for
both its seats (R409; log entry 97). -/
def State.loadRefusal (s : State) (seat : Nat) (rd : Nat → Word) (c : Bool) : Option (BitVec 8 × BitVec 8 × Word) :=
  let priv (b : BitVec 8) := some ((0x03 : BitVec 8), b, Config.openXval 0x03 b)
  let launch : BitVec 32 := BitVec.ofNat 32 (bitsOf (rd 30) 16 32)
  if s.doubletOf { Thread.init with launch := launch } && !s.doubletPlace seat then priv 0x04
  else if s.loadElsewhere (coreOf seat) rd c then priv 0x07
  else if kindOfBits (bitsOf (rd 29) 24 2) = .anchored && c
      && (List.range 16).any (fun k => (rd 48).getLsbD k && s.slotGranted (tileOf (coreOf seat)) k (some seat)) then priv 0x06
  else
    match (if c then discCheck rd else .pass) with
    | .trap a b v => some (a, b, v)
    | _ => none

/-- All words of the area have been read (R376), and then its discardable regions cleared (R404). A poisoned word traps (R407), and so does what the words read
refuse; nothing is cleared or loaded then. -/
def State.finishRestore (s : State) (by' : Nat) (op : LocalOp) (seat place : Nat) (uid : Option Nat) (parts : BitVec 5) (go clearing : Bool) : State :=
  let rd (k : Nat) : Word := ((op.got.find? fun p => p.1 == k).map (·.2)).getD 0
  let c := parts.getLsbD 1
  let fails (a b : BitVec 8) (v : Word) : State :=
    (s.modSeat by' fun x => { x with localOp := none, localDone := op.done, off := none }).trapDue by' a b v
  if clearing then (s.blocksMoved by' op).loadContext seat rd parts go
  else
    match op.poison, s.loadRefusal seat rd c with
    | some o, _ => fails 0x10 0x01 o
    | none, some (a, b, v) => fails a b v
    | none, none =>
      let more := if c then clearParts (coreOf by') rd else []
      if more.isEmpty then (s.blocksMoved by' op).loadContext seat rd parts go
      else
        queueParts (.seat by') (clusterOf (coreOf by')) more (s.modSeat by' fun x =>
          { x with localOp := some { op with kind := .restore seat place uid parts go true, remaining := more.length } })

/-- The context of a doublet is being loaded into the seats of which a seat is the secondary's. -/
def State.pairLoading (s : State) (seat : Nat) : Bool :=
  s.fab.seats.any fun p => match p.2.localOp with
    | some op => (match op.kind with
      | .restore n place _ _ _ _ =>
        n + 8 == seat && coreOf n % 2 == 0
          && s.doubletOf { Thread.init with launch := BitVec.ofNat 32 (bitsOf (s.localWord (clusterOf (coreOf n)) (place + 240)) 16 32) }
      | _ => false)
    | none => false

/-- CTXLOAD (R376). DESIGN CHOICES: what the checks test of the area they read at its issue, and again of the words that the banks bring (log entry 113); a
seat whose context is being saved or loaded, or which a doublet being loaded is to take, is waited for (log entry 120). -/
def execCtxload (o : OpCtxload) (s : State) : Out :=
  issue (.ctxload o) s fun s uid _ vals =>
    let area := vals.getD 0 0
    let n := seatTarget s (vals.getD 1 0)
    let x := s.seat n
    if n = s.cur then privTrap 0x05
    else if s.seatMoving n || s.pairLoading n then .park
    else if !x.stopped || x.occ.isSome then privTrap 0x04
    else
      match checkArea (s.seat s.cur) area o.parts with
      | .trap c b v => .trap c b v
      | .ok place =>
        let rd (k : Nat) : Word := s.localWord (clusterOf (coreOf s.cur)) (place + 8 * k)
        match s.loadRefusal n rd (o.parts.getLsbD 1) with
        | some (c, b, v) => .trap c b v
        | none =>
          let known := (s.savedAs ((rd 30).setWidth 16) (BitVec.ofNat 32 (bitsOf (rd 30) 16 32)) (rd 27)).map (·.uid)
          .leave (s.moveBlocks s.cur uid (.restore n place known o.parts o.go false) area place ((areaWords o.parts).map fun i => (i, .read)))

end Sys2Proof.Machine
end

