-- ==== Sys2Proof/Machine/Banks.lean ====
section
/-!
DEFINITION. The banks at work (R37, R38): a bank serves one access in a cycle, the earliest of those that have arrived, and what it does is that of
its user: a seat, the cluster's interface, a matrix unit, or an engine.
-/

namespace Sys2Proof.Machine

/-- The last word access of a seat's instruction has been served: the instruction completes. -/
def State.finishAccess (s : State) (seat : Nat) (op : LocalOp) : State :=
  match op.kind with
  | .save n uid place parts => s.finishSave seat op n uid place parts
  | .restore n place uid parts go clearing => s.finishRestore seat op n place uid parts go clearing
  | _ => s.finishLocal seat op

/-- A word access of a seat as its bank performs it: the STATE word of a save is that of this cycle (R373). -/
def State.partNow (s : State) (op : LocalOp) (p : BankPart) : BankPart :=
  match op.kind with
  | .save _ uid _ _ =>
    if p.lane = stateWordNo then
      match s.thread? uid with
      | some t => { p with op := .write 255 t.stateWord }
      | none => p
    else p
  | _ => p

/-- A bank serves an access of a seat, whose answer takes a transit (R36, R38). -/
def State.seatServed (s : State) (seat cluster transit : Nat) (p : BankPart) : State :=
  match (s.seat seat).localOp with
  | none => s
  | some op =>
    let (s, op) := s.performFor seat cluster op (s.partNow op p)
    let op := { op with done := max op.done (s.cycle + transit + 1) }
    if op.remaining = 0 then s.finishAccess seat op else s.modSeat seat fun x => { x with localOp := some op }

/-- A bank serves a word of an inbox entry (R158). -/
def State.inboxServed (s : State) (core idx : Nat) (p : BankPart) : State :=
  match p.op with
  | .write m w => (s.localWrite (clusterOf core) p.off m w).entryWordWritten core idx
  | _ => s

/-- A bank of a cluster serves an access. -/
def State.serveAccess (s : State) (cluster : Nat) (w : BankWait) : State :=
  match w.user with
  | .seat n => s.seatServed n cluster w.transit w.part
  | .mesh req => s.meshServed req
  | .attempt req => s.attemptServed cluster req
  | .inbox core idx _ => s.inboxServed core idx w.part
  | .matrix tile seat issued => s.matrixServed tile seat issued w.part
  | .engine eng unit => s.engineServed eng unit w.part
  | .ladder req => s.ladderServed req
  | .spill core q id => s.spillServed core q id w.part
  | .route core uid => ((s.routeServed core w.part).endRoute core uid).reap uid
  | .doublet _ => (s.performPart false 0 cluster w.part.off w.part.op).1
  | .taken core _ => s.takenServed core w.part

/-- BANK_SERVICE: the bank serves the access that arrived earliest, in one cycle (R37, R38); what it writes over is no longer another's to take back
(R394). -/
def execBankService (bank : Nat) (s : State) : Out :=
  let b := s.bank bank
  if b.waiting.isEmpty then .next s
  else if s.cycle < b.free then .next (s.addWork (b.free - s.cycle) (.bankService bank))
  else
    match earliest (b.waiting.filter fun w => decide (w.arrival ≤ s.cycle)) with
    | none => .next (s.addWork 1 (.bankService bank))
    | some w =>
      .next ((s.setBank bank { waiting := listErase (fun v => v == w) b.waiting, free := s.cycle + 1 }).shield (bank / 512) w |>.serveAccess (bank / 512) w)

end Sys2Proof.Machine
end

