-- ==== Sys2Proof/Machine/Dispatcher.lean ====
section
/-!
DEFINITION. Dispatch (R162 to R164, R377 to R393): packets at the stations, selection, expansion and placement, dependence counters, the end of
launches (R193, R472), and cancellation.
-/

namespace Sys2Proof.Machine

/-! ## Queue records (R378, R379) -/

def queueStation (key : Nat) : Nat := key / 8192
def QueueRec.size (q : QueueRec) : Nat := 2 ^ q.log2n.toNat
/-- Packets in the ring. -/
def QueueRec.held (q : QueueRec) : Nat := (q.tail - q.head).toNat
/-- The VA of packet i. -/
def QueueRec.slotVa (q : QueueRec) (i : Nat) : Nat := q.ring + 64 * (i % q.size)

/-- A packet that the head cache holds, by its index, and the one that stands at the head. -/
def QueueRec.cached (q : QueueRec) (i : Nat) : Option (List Word) := (q.headCache.find? fun p => p.1 == i).map (·.2)
def QueueRec.headPacket (q : QueueRec) : Option (List Word) := q.cached q.head.toNat
/-- Puts a packet into the head cache. Where that is full, the packet is the head of the ring and takes the place of the one put there last. -/
def QueueRec.cache (q : QueueRec) (i : Nat) (p : List Word) : QueueRec :=
  { q with headCache := (if q.headCache.length < 4 then q.headCache else q.headCache.dropLast) ++ [(i, p)] }
/-- The next packet in ring order that the head cache lacks and has room for; the head packet always has (R379, R381). -/
def QueueRec.wanted (q : QueueRec) : Option Nat :=
  match (List.range (min q.held 5)).find? fun k => (q.cached (q.head + BitVec.ofNat 32 k).toNat).isNone with
  | none => none
  | some k => if k = 0 || q.headCache.length < 4 then some (q.head + BitVec.ofNat 32 k).toNat else none

/-- The words of a packet as a line, and back. -/
def packetLine (p : List Word) : Line := BitVec.ofNat 512 ((List.range 8).foldl (fun a j => a + (p.getD j 0).toNat * 2 ^ (64 * j)) 0)
def packetOf (l : Line) : List Word := (List.range 8).map (lineWord l)

/-- The job of a packet: its own, or the template's (R334, R382). -/
def QueueRec.jobOf (q : QueueRec) (p : List Word) : BitVec 32 :=
  let j : BitVec 32 := BitVec.ofNat 32 (bitsOf (p.getD 2 0) 32 32)
  if j = 0 then (q.hdr.getD 14 0).setWidth 32 else j

/-- The station looks at its queues in its next cycle, once in a cycle (R381). -/
def State.wakeStation (s : State) (st : Nat) : State :=
  if s.work.any fun w => w.ev == .dispatchSelection st then s else s.addWork 1 (.dispatchSelection st)

/-- A launch has one task less to run, and may have ended. -/
def State.taskGone (s : State) (launch : BitVec 32) : State :=
  (s.modLaunch launch.toNat fun l => { l with pendingTasks := l.pendingTasks - 1 }).addWork 1 (.sweepPennant launch.toNat)

/-- What a station does with a packet. -/
inductive Admit where
  /-- Written at this index, or dropped because its job is cancelled. -/
  | taken (s : State) (index : Option Nat)
  | full
  /-- The page of its place in the ring is not present (R66). -/
  | notPresent (va : Nat)

/-- Accepts a packet for a queue that exists (R163, R379, R390). `launch` is that of a SPAWN. A place in the ring that the station may not
write is left as it is; the packet stands in the head cache when that has room. A piece of the ring that is being moved lands first (R71). -/
def State.admitPacket (s : State) (key : Nat) (q : QueueRec) (p : List Word) (launch : Option (BitVec 32)) (released : Bool) : Admit :=
  let s := s.landPieces q.asid
  if (s.disp? (queueStation key)).cancelled.contains (q.jobOf p) then .taken s none
  else if q.size ≤ q.held then .full
  else
    let i := q.tail.toNat
    let a := s.access q.asid (q.slotVa i) false false true
    match a with
    | .replay | .held => .notPresent (q.slotVa i)
    | _ =>
      let s := match a with
        | .ok pa _ _ _ _ => s.physWrite pa (BitVec.allOnes 64) (packetLine p)
        | _ => s
      let q := { q with
        tail := q.tail + 1
        headCache := if q.headCache.length < 4 then q.headCache ++ [(i, p)] else q.headCache
        spawned := match launch with | some l => q.spawned ++ [(i, l)] | none => q.spawned
        released := if released then q.released ++ [i] else q.released }
      let s := s.setQueue key q
      let s := match launch with
        | some l => s.modLaunch l.toNat fun x => { x with pendingTasks := x.pendingTasks + 1 }
        | none => s
      .taken (s.wakeStation (queueStation key)) (some i)

/-- A packet in the ring of a queue, when its page can be read. -/
def State.ringPacket (s : State) (q : QueueRec) (i : Nat) : Option (List Word) :=
  (q.cached i).orElse fun _ => (s.homePlace q.asid (q.slotVa i)).map fun pa => packetOf (s.physLine pa)

/-- A job has yet to complete: a launch of it is left, a task that SPAWN has put into another launch (R334) or a thread, or a packet of it in a ring. -/
def State.jobOpen (s : State) (job : BitVec 32) : Bool :=
  (s.disp.launches.any fun p => p.2.job == job) || (s.disp.tasks.any fun p => p.2.job == job)
    || (s.fab.threads.any fun p => p.2.sys.job.setWidth 32 == job)
    || s.disp.queues.any fun p => p.2.v && (List.range p.2.held).any fun k =>
      (s.ringPacket p.2 (p.2.head + BitVec.ofNat 32 k).toNat).map p.2.jobOf == some job

/-- The id of a job that has completed leaves the sets of the stations (R390). DESIGN CHOICE: a job of which a packet is still in a ring has not completed
(log entry 107). -/
def State.forgetJob (s : State) (job : BitVec 32) : State :=
  if s.jobOpen job then s
  else
    { s with
      disp := { s.disp with stations := s.disp.stations.map fun (k, d) => (k, { d with cancelled := d.cancelled.filter (· != job) }) }
      fw := { s.fw with cancels := s.fw.cancels.filter fun c => c.1 != job } }
/-- The same for every cancelled job, when something that may have been the last of one is gone. -/
def State.forgetJobs (s : State) : State := s.fw.cancels.foldl (fun s c => s.forgetJob c.1) s

/-- ENQ_ADMISSION: a packet of ENQ or SPAWN, or a launch completion with TGTKIND 1, reaches its station (R163, R334). -/
def execEnqAdmission (id : Nat) (s : State) : Out :=
  match s.msg? id with
  | none => .next s
  | some m =>
    if m.stage ≠ .going then .next s
    else
      let key := m.dst.toNat % 2 ^ 17
      match s.queue? key with
      | none => .next (s.answerMsg id (.fault 0x06 0x04))
      | some q =>
        if !q.v || q.asid != m.asid then .next (s.answerMsg id (.fault 0x06 0x04))
        else
          match s.admitPacket key q m.payload (if m.kind = .spawn then some m.launch else none) false with
          | .taken s _ => .next (s.answerMsg id (.ack true false))
          | .full => .next (s.nack id)
          | .notPresent va =>
            .next ((s.recordPage q.asid va 1).1.nack id)

/-! ## The head cache (R379, R392) -/

/-- A dropped packet advances HEAD. -/
def QueueRec.advance (q : QueueRec) : QueueRec :=
  let i := q.head.toNat
  { q with head := q.head + 1, headCache := q.headCache.filter (fun p => p.1 != i), spawned := q.spawned.filter fun p => p.1 != i
           released := q.released.filter (· != i), dropped := q.dropped.filter (· != i) }

/-- The launch of the head packet, when SPAWN wrote it. -/
def QueueRec.headLaunch (q : QueueRec) : Option (BitVec 32) := (q.spawned.find? fun p => p.1 == q.head.toNat).map (·.2)

/-- A record of a station about a queue (R392). -/
def State.queueRecord (s : State) (key : Nat) (q : QueueRec) (cause sub : BitVec 8) (detail : Word) : State :=
  (s.faultRecord q.asid ⟨3, cause, sub, 1, (s.queueAddress key).toNat, 0, queueStation key, detail⟩).1

/-- A replay has dispatched a node whose packet stood at an index of a queue, or the packet has been dropped (R389). -/
def Replay.dispatched (r : Replay) (key i : Nat) : Replay :=
  { r with undispatched := r.undispatched.filter fun n => !r.written.contains (n, key, i) }
def State.nodeDispatched (s : State) (key i : Nat) : State :=
  s.disp.graphs.foldl (fun s p =>
    if p.2.replays.any fun r => r.written.any fun w => w.2 == (key, i) then
      let s := { s with disp := { s.disp with graphs := FMap.insert s.disp.graphs p.1 { p.2 with replays := p.2.replays.map fun r => r.dispatched key i } } }
      p.2.replays.foldl (fun s r => if r.written.any fun w => w.2 == (key, i) then s.addWork 1 (.graphReplay (r.cmd / 8) (r.cmd % 8)) else s) s
    else s) s

/-- Drops the head packet, records it and stops the queue (R392). -/
def State.dropHead (s : State) (key : Nat) (q : QueueRec) (cause sub : BitVec 8) : State :=
  let s := (s.nodeDispatched key q.head.toNat).setQueue key { q.advance with stopped := true }
  let s := match q.headLaunch with
    | some l => s.taskGone l
    | none => s
  (s.queueRecord key q cause sub (BitVec.ofNat 64 q.head.toNat)).forgetJobs

/-- The read of a packet from its ring, under the owning ASID (R379). -/
def ringRead (s : State) (key : Nat) (q : QueueRec) (i : Nat) : Req where
  op := .ring key
  asid := q.asid
  addr := q.slotVa i
  off := i
  size := 64
  signed := false
  mask := BitVec.allOnes 64
  data := 0
  uid := none
  seat := 0
  anchored := false
  noAlloc := true
  aged := 0
  key := ⟨q.asid, 0, 0⟩
  segBase := 0
  segLen := 0
  reading := none
  issued := s.cycle
  deadline := none
  budget := 0
  stage := .going
  answer := none
  comb := none
  results := []
  delivered := 0
  snap := 0
  seen := []

/-- A station reads the next packet that it lacks, one at a time for a queue. -/
def State.fetchPacket (s : State) (key : Nat) : State :=
  match s.queue? key with
  | none => s
  | some q =>
    match q.wanted with
    | some i => if !q.v || s.net.reqs.any fun p => p.2.op == .ring key then s else (s.sendReq (ringRead s key q i)).1
    | none => s

/-- A packet has come from the ring. A fault or poison drops it once it is the head; until then it is not in the head cache. -/
def State.packetRead (s : State) (key : Nat) (q : QueueRec) (i : Nat) (a : Answer) : State :=
  let head := i == q.head.toNat && q.head != q.tail
  match a with
  | .data d p _ _ _ =>
    if p = 0 then
      if q.wanted = some i then ((s.setQueue key (q.cache i (packetOf d))).wakeStation (queueStation key)).fetchPacket key else s.fetchPacket key
    else if head then (s.dropHead key q 0x10 0x06).fetchPacket key
    else s
  | .fault c b => if head then (s.dropHead key q c b).fetchPacket key else s
  | _ => s

/-- RING_PACKET_FETCH: the station of a queue takes the packet that has come from its ring, and reads the next packet that its head cache lacks. -/
def execRingPacketFetch (key : Nat) (s : State) : Out :=
  match s.net.reqs.find? fun p => p.2.op == .ring key && p.2.stage == .answered with
  | some (id, r) =>
    let s := s.dropReq id
    match s.queue? key, r.answer with
    | some q, some a => .next (s.packetRead key q r.off a)
    | _, _ => .next s
  | none => .next (s.fetchPacket key)

/-! ## Selection (R380, R381) -/

def depKey (die : Nat) (ctr : BitVec 12) : Nat := die * 4096 + ctr.toNat
def State.dep? (s : State) (k : Nat) : DepCtr := (FMap.find? s.disp.deps k).getD DepCtr.init
def State.setDep (s : State) (k : Nat) (d : DepCtr) : State := { s with disp := { s.disp with deps := FMap.insert s.disp.deps k d } }
/-- The counter that gates a queue. -/
def queueDep (key : Nat) (q : QueueRec) : Nat := depKey (queueStation key / 4) q.depctr

/-- R380, apart from the expansion slot. -/
def State.eligible (s : State) (key : Nat) (q : QueueRec) : Bool :=
  q.v && !q.stopped && q.head != q.tail && q.headPacket.isSome
    && (q.trig || q.depv || q.released.contains q.head.toNat)
    && (!q.depv || (let d := s.dep? (queueDep key q); d.v && d.count == 0))

/-- The winner of a station: the highest priority, and in it the first queue at or after the pointer. -/
def State.winner (s : State) (st : Nat) : Option (Nat × QueueRec) :=
  let ready := s.disp.queues.filter fun p => queueStation p.1 == st && s.eligible p.1 p.2
  let ptr := (s.disp? st).pointers
  (List.range 4).findSome? fun k =>
    let mine := ready.filter fun p => p.2.prio.toNat == k
    let first := (vget ptr k 0).toNat
    (mine.find? fun p => decide (first ≤ p.1 % 8192)).orElse fun _ => mine.head?

/-- The next launch number of a station (R382). -/
def nextLaunch (s : State) (st : Nat) : Nat → BitVec 28 → BitVec 32 × BitVec 28
  | 0, q => (q ++ BitVec.ofNat 4 st, q + 1)
  | fuel + 1, q =>
    if (s.launch? (q ++ BitVec.ofNat 4 st : BitVec 32).toNat).isSome then nextLaunch s st fuel (q + 1) else (q ++ BitVec.ofNat 4 st, q + 1)

/-- The fields of a board descriptor (R184); nothing when its reserved bits or its ranges refuse it. DEDUCED (log entry 58): a launch whose descriptor is
refused at its dispatch has no board. -/
def boardOfWords (rd : Nat → Word) (coreList : List Nat) (ncores nspare : Nat) : Option Board :=
  let w0 := rd 0
  let w1 := rd 1
  let dims := bitsOf w0 0 2
  let edge := [bitsOf w0 6 4, bitsOf w0 10 4, bitsOf w0 14 4].take dims
  let count := [bitsOf w1 0 11, bitsOf w1 16 11, bitsOf w1 32 11].take dims
  let ok := (dims = 2 || dims = 3) && bitsOf w0 18 46 = 0 && bitsOf w0 2 4 = 0
    && bitsOf w1 43 21 = 0 && bitsOf w1 27 5 = 0 && bitsOf w1 11 5 = 0 && bitsOf (rd 3) 32 32 = 0
    && count.all (fun n => decide (1 ≤ n ∧ n ≤ 1024)) && (dims = 3 || bitsOf w1 32 11 = 1)
    && (List.range 4).all fun j => rd (4 + j) = 0
  if ok then
    let pool := (coreList.drop ncores).take nspare
    some { dims := dims, edge := edge, count := count, origin := [signed32 (rd 2) 0, signed32 (rd 2) 32, signed32 (rd 3) 0].take dims
           cores := coreList.take ncores, halves := [], pool := pool, spare := pool }
  else none

/-- The board of a launch, read at dispatch through BOARDPTR (R184). A descriptor that can no longer be read gives none. -/
def State.readBoard (s : State) (q : QueueRec) : Option Board :=
  let va := (q.hdr.getD 9 0).toNat
  if va = 0 then none
  else
    match s.access q.asid va false true false with
    | .ok pa _ _ _ _ =>
      let l := s.physLine pa
      boardOfWords (lineWord l) q.coreList (bitsOf (q.hdr.getD 18 0) 0 16) (bitsOf (q.hdr.getD 18 0) 16 16)
    | _ => none

/-- The sum of the widths, and whether an identifier lies within the extents of a header (R175, R180). -/
def widInside (hdr : List Word) (wid : Word) : Bool :=
  let w0 := bitsOf (hdr.getD 0 0) 0 42
  ((List.range 6).all fun j => decide ((wid.toNat >>> shiftOf w0 j) % 2 ^ widthOf w0 j < max 1 (hdr.getD (1 + j) 0).toNat))
    && wid.toNat >>> shiftOf w0 6 == 0

/-- A selected packet takes an expansion slot under its launch (R382). A piece of its context that is being moved lands first, so that the board descriptor can
be read (R71). -/
def State.beginExpansion (s : State) (st key : Nat) (q : QueueRec) (p : List Word) : State :=
  let job := q.jobOf p
  let s := s.landPieces q.asid
  let (task, s) := s.fresh
  let (launch, s) := match q.headLaunch with
    | some l => (l, s)
    | none =>
      let (l, seq) := nextLaunch s st (s.disp.launches.length + 1) (s.disp? st).nextSeq
      let s := s.setDisp st { s.disp? st with nextSeq := seq }
      (l, (s.setLaunch l.toNat
        { asid := q.asid, hdr := q.hdr, coreList := q.coreList, job := job, station := st, queue := key, cores := [], units := [], live := []
          pendingTasks := 1, exited := [], barriers := [], board := s.readBoard q, sent := [], received := [], lastSweep := none
          cancelled := false }).addWork 1000 (.sweepPennant l.toNat))
  let w0 := p.getD 0 0
  let fp (n : Nat) : Word := BitVec.ofNat 64 (bitsOf (p.getD (3 + n / 2) 0) (32 * (n % 2)) 32 * 64)
  let k : Task :=
    { launch := launch, live := 0, allStarted := false, acted := [], fps := (List.range 4).map fp, job := job
      depctr := if w0.getLsbD 60 then some (st / 4, BitVec.ofNat 12 (bitsOf w0 48 12)) else none }
  let slot : Slot4 :=
    { queue := key, packet := p, launch := launch, job := job, task := task, next := 0, nextWid := p.getD 1 0
      exhausted := !widInside q.hdr (p.getD 1 0), lastPlaced := 0 }
  let s := { s with disp := { s.disp with tasks := FMap.insert s.disp.tasks task k } }
  (s.setDisp st { s.disp? st with slots := (s.disp? st).slots ++ [slot] }).addWork 1 (.expansion st task)

/-- DISPATCH_SELECTION: a station selects at most one packet. A packet of a cancelled job, or one that its replay has discarded, is dropped when it would be
selected (R390, R393). -/
def execDispatchSelection (st : Nat) (s : State) : Out :=
  if 4 ≤ (s.disp? st).slots.length then .next s
  else
    match s.winner st with
    | none => .next s
    | some (key, q) =>
      match q.headPacket with
      | none => .next s
      | some p =>
        let i := q.head.toNat
        let d := s.disp? st
        let s := s.setDisp st { d with pointers := vset d.pointers q.prio.toNat (BitVec.ofNat 13 (key % 8192 + 1)) }
        let s := s.setQueue key q.advance
        let s := (s.addWork 1 (.ringPacketFetch key)).wakeStation st
        if d.cancelled.contains (q.jobOf p) || q.dropped.contains i then
          let s := s.nodeDispatched key i
          let s := match q.headLaunch with
            | some l => s.taskGone l
            | none => s
          .next (if d.cancelled.contains (q.jobOf p) then s.forgetJob (q.jobOf p) else s)
        else
          let k := queueDep key q
          let s := if q.depv then s.setDep k { s.dep? k with count := (s.dep? k).reload } else s
          .next ((s.nodeDispatched key i).beginExpansion st key q p)

/-! ## Expansion and placement (R180, R382, R383) -/

/-- The next identifier: field 0 counts first and each field wraps at its extent into the next; with the last field at its extent, the identifier has
left the extents. -/
def nextIdent (hdr : List Word) (wid : Word) : Word × Bool :=
  let w0 := bitsOf (hdr.getD 0 0) 0 42
  let start : Word × Bool := (wid, true)
  let (w, carry) := (List.range 5).foldl (fun (p : Word × Bool) j =>
    if !p.2 then p
    else
      let v := bitsOf p.1 (shiftOf w0 j) (widthOf w0 j)
      if v + 1 < max 1 (hdr.getD (1 + j) 0).toNat then (setBits p.1 (shiftOf w0 j) (widthOf w0 j) (v + 1), false)
      else (setBits p.1 (shiftOf w0 j) (widthOf w0 j) 0, true)) start
  if carry then
    let v := w.toNat >>> shiftOf w0 5
    (BitVec.ofNat 64 (w.toNat + 2 ^ shiftOf w0 5), decide (max 1 (hdr.getD 6 0).toNat ≤ v + 1))
  else (w, false)

/-- Cores in a unit of a code (R176). -/
def unitCores (code : Nat) : Nat := match code with
  | 1 | 2 => 1
  | 3 => 4
  | 4 => 16
  | 5 => 64
  | 6 => 512
  | _ => 2048

/-- Free run-queue entries of a core, those of contexts on their way to it taken off. -/
def State.freeEntries (s : State) (core : Nat) : Nat :=
  64 - (s.coreLoad core + (s.net.migs.filter fun p => p.2.dst == core && p.2.kind == .place).length)

/-- The cores on which a launch places threads, in order: the first NCORES of its list, or those of the station's die (R177, R383). A doublet is placed by
its primary (R409). -/
def Launch.placeCores (l : Launch) : List Nat :=
  let all := if l.hdr.getD 17 0 = 0 then (List.range 512).map (l.station / 4 * 512 + ·) else l.coreList.take (bitsOf (l.hdr.getD 18 0) 0 16)
  if (l.hdr.getD 7 0).getLsbD 23 then all.filter (· % 2 == 0) else all

/-- The bound levels of a launch, from the highest down, with their codes. -/
def Launch.bound (l : Launch) : List (Nat × Nat) :=
  ([6, 5, 4, 3, 2, 1].map fun v => (v, bindCode (bitsOf (l.hdr.getD 7 0) 0 18) v)).filter fun p => p.2 != 0

/-- Units chosen for the groups of an identifier from a level down: the cores that remain and the units newly given. A group without a unit with space waits. -/
def chooseUnits (s : State) (l : Launch) (wid : Word) : List (Nat × Nat) → List Nat → List (Nat × Nat × Nat) → Option (List Nat × List (Nat × Nat × Nat))
  | [], cores, new => some (cores, new)
  | (level, code) :: rest, cores, new =>
    let g := wid.toNat >>> shiftOf (bitsOf (l.hdr.getD 0 0) 0 42) level
    let within (u : Nat) : List Nat := cores.filter fun c => c / unitCores code == u
    match l.units.find? fun x => x.1 == level && x.2.1 == g with
    | some x => chooseUnits s l wid rest (within x.2.2) new
    | none =>
      let units := (cores.map (· / unitCores code)).foldl (fun v u => NSet.add v u) []
      match units.find? fun u => decide (l.members level ≤ ((within u).map s.freeEntries).foldl (· + ·) 0) with
      | none => none
      | some u => chooseUnits s l wid rest (within u) (new ++ [(level, g, u)])

/-- The core for a thread, and the place in the order that it takes (R383). -/
def State.placeFor (s : State) (l : Launch) (wid : Word) (lastPlaced : Nat) : Option (Nat × Nat × List (Nat × Nat × Nat)) :=
  let all := l.placeCores
  if l.bound.isEmpty then
    let n := all.length
    ((List.range n).find? fun k => decide (0 < s.freeEntries (all.getD ((lastPlaced + k) % n) 0))).map fun k =>
      (all.getD ((lastPlaced + k) % n) 0, (lastPlaced + k) % n + 1, [])
  else
    match chooseUnits s l wid l.bound all [] with
    | none => none
    | some (cores, new) =>
      ((cores.foldl (fun v c => NSet.add v c) []).find? fun c => decide (0 < s.freeEntries c)).map fun c => (c, lastPlaced, new)

/-- Thread of a task as it starts (R180, R181, R205, R207). -/
def State.newThread (s : State) (l : Launch) (x : Slot4) : Thread :=
  let p := x.packet
  let w7 := l.hdr.getD 7 0
  let sys := ((s.context? l.asid).map (·.sys)).getD false
  let y := launchSys s l.asid x.launch (some x.task) { SysRegs.init with xstat := { Xstat.init with sys := sys } }
  { Thread.init with
    regs := { Regs.init with g := (((Regs.init.g.setIfInBounds 0 (p.getD 5 0)).setIfInBounds 1 (p.getD 6 0)).setIfInBounds 2 (p.getD 7 0))
                             wid := x.nextWid, pc := BitVec.ofNat 64 (bitsOf (p.getD 0 0) 2 46 * 4) }
    kind := kindOfBits (bitsOf w7 18 2)
    prio := BitVec.ofNat 2 (bitsOf w7 20 2)
    role := l.bound.any fun b => b.2 == 1
    asid := l.asid
    launch := x.launch
    limit := (l.hdr.getD 8 0).setWidth 16
    sys := { y with job := jobWord x.job false }
    origin := ⟨some x.task, some x.queue⟩
    started := false
    startDue := true
    acquireDue := some true }

/-- A station's number in the counts of R192 and as the source of its contexts. -/
def stationSource (st : Nat) : Nat := 2048 + st

def State.setExpansion (s : State) (st : Nat) (x : Slot4) : State :=
  s.setDisp st { s.disp? st with slots := (s.disp? st).slots.map fun y => if y.task = x.task then x else y }

/-- The slot moves on to the next identifier. -/
def Slot4.step (x : Slot4) (hdr : List Word) : Slot4 :=
  let (w, out) := nextIdent hdr x.nextWid
  { x with next := x.next + 1, nextWid := w, exhausted := x.exhausted || out }

/-- A thread is placed: its context is on its way to the core. -/
def State.placeThread (s : State) (st : Nat) (x : Slot4) (l : Launch) (core last : Nat) (new : List (Nat × Nat × Nat)) : State :=
  let (uid, s) := s.fresh
  let t := s.newThread l x
  let s := s.modLaunch x.launch.toNat fun l =>
    { l with live := NSet.add l.live uid, cores := NSet.add l.cores core, units := l.units ++ new }
  let s := { s with disp := { s.disp with tasks := FMap.modify s.disp.tasks x.task fun k => { k with live := k.live + 1 } } }
  let s := s.setThread uid t
  let (s, id) := s.sendContext uid t .place (stationSource st) core
  (s.modThread uid fun t => { t with loc := .moving id }).setExpansion st { x.step l.hdr with lastPlaced := last }

/-- Every thread of a packet is placed or dropped: its slot is free. -/
def State.endExpansion (s : State) (st : Nat) (x : Slot4) : State :=
  let s := s.setDisp st { s.disp? st with slots := listErase (fun y => y.task == x.task) (s.disp? st).slots }
  let s := { s with disp := { s.disp with tasks := FMap.modify s.disp.tasks x.task fun k => { k with allStarted := true } } }
  let s := match FMap.find? s.disp.tasks x.task with
    | some k => if k.live = 0 then s.leaveTask x.task else s
    | none => s
  (s.taskGone x.launch).wakeStation st

/-- Up to n threads of a slot in one cycle. -/
def expandSome (st task : Nat) : Nat → State → State
  | 0, s => s.addWork 1 (.expansion st task)
  | n + 1, s =>
    match (s.disp? st).slots.find? fun x => x.task == task with
    | none => s
    | some x =>
      match s.launch? x.launch.toNat with
      | none => s.endExpansion st x
      | some l =>
        if bitsOf (x.packet.getD 2 0) 0 32 ≤ x.next then s.endExpansion st x
        else if x.exhausted then
          let s := (s.faultRecord l.asid ⟨3, 0x18, 0x01, 1, (s.queueAddress x.queue).toNat, x.launch, st, x.nextWid⟩).1
          expandSome st task n (s.setExpansion st (x.step l.hdr))
        else
          match s.placeFor l x.nextWid x.lastPlaced with
          | none => s.addWork 8 (.expansion st task)
          | some (core, last, new) => expandSome st task n (s.placeThread st x l core last new)

/-- The place in its packet that a slot has come to. -/
def State.slotNext (s : State) (st task : Nat) : Option Nat := ((s.disp? st).slots.find? fun x => x.task == task).map (·.next)

/-- The expansions of a station that are due come in its next cycle. -/
def State.laterExpansions (s : State) (st : Nat) : State :=
  { s with work := s.work.map fun w => match w.ev with
    | .expansion n _ => if n = st then { w with due := max w.due (s.cycle + 1) } else w
    | _ => w }

/-- EXPANSION: a station forms up to 4 threads in a cycle (R382), of one of its slots, which take turns. The slot is named by its task. -/
def execExpansion (st task : Nat) (s : State) : Out :=
  let x := expandSome st task 4 s
  .next (if x.slotNext st task = s.slotNext st task then x else x.laterExpansions st)

/-! ## Dependence counters (R387 to R389) -/

/-- The queue that a counter gates. -/
def State.gatedQueue (s : State) (die : Nat) (ctr : BitVec 12) : Option (Nat × QueueRec) :=
  s.disp.queues.find? fun p => p.2.v && p.2.depv && queueDep p.1 p.2 == depKey die ctr

/-- A counter of a graph has reached 0: the packet of its node in the first replay that awaits it is written next. -/
def markNode (node : Nat) : List Replay → List Replay × Option Nat
  | [] => ([], none)
  | r :: rest =>
    if r.undispatched.contains node && !(r.written.any fun w => w.1 == node) && !r.toWrite.contains node then
      ({ r with toWrite := r.toWrite ++ [node] } :: rest, some r.cmd)
    else
      let (rest, c) := markNode node rest
      (r :: rest, c)

def State.nodeReady (s : State) (graph : BitVec 12) (node : Nat) : State :=
  match FMap.find? s.disp.graphs graph.toNat with
  | none => s
  | some g =>
    match markNode node g.replays with
    | (rs, some cmd) =>
      { s with disp := { s.disp with graphs := FMap.insert s.disp.graphs graph.toNat { g with replays := rs } } }.addWork 0
        (.graphReplay (cmd / 8) (cmd % 8))
    | (_, none) => s

/-- The station of a gated queue has yet to select its packet of this cycle: a decrement comes after the reload (R388). -/
def State.selectsNow (s : State) (gated : Option (Nat × QueueRec)) : Bool :=
  match gated with
  | some p => s.work.any fun w => w.ev == .dispatchSelection (queueStation p.1) && decide (w.due ≤ s.cycle)
  | none => false

/-- DEPENDENCE_DECREMENT: a counter that is at 0 stays there and records it. -/
def execDependenceDecrement (die ctr : Nat) (s : State) : Out :=
  let c : BitVec 12 := BitVec.ofNat 12 ctr
  let k := depKey die c
  let d := s.dep? k
  if !d.v then .next s
  else
    let gated := s.gatedQueue die c
    if s.selectsNow gated then .next (s.addWork 0 (.dependenceDecrement die ctr))
    else if d.count = 0 then
      let s := s.setDep k { d with under := true }
      let src := (gated.map fun p => queueStation p.1).getD 0
      let detail := BitVec.ofNat 64 (d.graph.toNat * 65536 + d.node.toNat)
      match gated with
      | some p => .next (s.faultRecord p.2.asid ⟨3, 0x18, 0x02, 1, k, 0, src, detail⟩).1
      | none =>
        match FMap.find? s.disp.graphs d.graph.toNat with
        | some g => .next (s.faultRecord g.asid ⟨3, 0x18, 0x02, 1, k, 0, src, detail⟩).1
        | none => .next s
    else
      let s := s.setDep k { d with count := d.count - 1 }
      if d.count - 1 ≠ 0 then .next s
      else
        let s := match gated with
          | some p => s.wakeStation (queueStation p.1)
          | none => s
        .next (if d.graph = 4095 then s else s.nodeReady d.graph d.node.toNat)

/-! ## The end of a launch (R193, R472) -/

/-- A packet that the firmware sends for a launch. -/
def firmwarePacket (s : State) (kind : MsgKind) (dst : Word) (payload : List Word) (l : Launch) (launch : BitVec 32) : Msg where
  kind := kind
  dst := dst
  payload := payload
  seat := 0
  uid := none
  asid := l.asid
  launch := launch
  budget := 0
  sentAt := s.cycle
  injected := true
  stage := .going
  answer := none
  counted := false
  deadline := none

def State.sendFirmware (s : State) (m : Msg) : State :=
  let (id, s) := s.fresh
  (s.setMsg id m).addWork 1 (m.nextEv s id)

/-- n free words. -/
def freeWords : Nat → State → List Word × State
  | 0, s => ([], s)
  | n + 1, s =>
    let (w, s) := s.freeW
    let (ws, s) := freeWords n s
    (w :: ws, s)

/-- The completion of a launch goes to its target (R177). The specification states no packet for TGTKIND 1: its words are free. -/
def State.launchCompletion (s : State) (n : BitVec 32) (l : Launch) : State :=
  let status := if l.cancelled then 9 else 0
  let target := l.hdr.getD 16 0
  match bitsOf (l.hdr.getD 15 0) 0 4 with
  | 1 =>
    let (ws, s) := freeWords 8 s
    s.sendFirmware (firmwarePacket s .enq target ws l n)
  | 2 => s.addWork 1 (.dependenceDecrement (bitsOf target 12 2) (bitsOf target 0 12))
  | 3 =>
    s.sendFirmware (firmwarePacket s .launchDone (BitVec.ofNat 64 (bitsOf target 0 11 * 8))
      [n.setWidth 64, l.job.setWidth 64, BitVec.ofNat 64 status, 0, 0, 0, 0, 0] l n)
  | 4 => s.postNotice (s.fnOf l.asid) status 1 []
  | _ => s

/-- A launch has ended. That of a cancelled job is completed, with its status, once every launch of the job has ended (R390). -/
def State.endLaunch (s : State) (n : Nat) (l : Launch) : State :=
  let s := { s with disp := { s.disp with launches := FMap.erase s.disp.launches n } }
  let s := if l.cancelled then { s with fw := { s.fw with ended := s.fw.ended ++ [(n, l)] } } else s.launchCompletion (BitVec.ofNat 32 n) l
  if s.disp.launches.any fun p => p.2.job == l.job then s
  else
    let mine := s.fw.ended.filter fun p => p.2.job == l.job
    let s := { s with fw := { s.fw with ended := s.fw.ended.filter fun p => p.2.job != l.job } }
    (mine.foldl (fun s p => s.launchCompletion (BitVec.ofNat 32 p.1) p.2) s).forgetJob l.job

/-- No thread, pending task or engine operation of a launch remains (R192). -/
def State.launchIdle (s : State) (n : BitVec 32) (l : Launch) : Bool :=
  l.live.isEmpty && l.pendingTasks == 0
    && !(s.fab.engines.any fun p => p.2.committed.any (fun o => o.launch == n) || (p.2.active.map fun o => o.launch == n).getD false)
    && !s.fab.collectives.any fun p => p.2.joined.any fun j => j.2.launch == n

/-- The sums of R192. -/
def countSum (m : FMap Nat) : Nat := m.foldl (fun a p => a + p.2) 0

/-- SWEEP_PENNANT: the second sweep in succession that finds a launch idle, its sums equal and unchanged, ends it. A thread
that has ended may have been the last of a cancelled job in another launch (R334, R390). -/
def execSweepPennant (launch : Nat) (s : State) : Out :=
  match s.launch? launch with
  | none => .next s
  | some l =>
    let s := s.forgetJobs
    let sums := (countSum l.sent, countSum l.received)
    let again (s : State) : State := if s.work.any fun w => w.ev == .sweepPennant launch then s else s.addWork 1000 (.sweepPennant launch)
    if !s.launchIdle (BitVec.ofNat 32 launch) l || sums.1 != sums.2 then .next (again (s.setLaunch launch { l with lastSweep := none }))
    else if l.lastSweep = some sums then .next (s.endLaunch launch l)
    else .next (again (s.setLaunch launch { l with lastSweep := some sums }))

/-- LAUNCH_COMPLETION_DROP: an inbox completion refused for 65,536 cycles in all is dropped (R472). DESIGN CHOICE (log entry 116): its record has 0 in SOURCE and
in LAUNCH. -/
def execLaunchCompletionDrop (id : Nat) (s : State) : Out :=
  match s.msg? id with
  | none => .next s
  | some m =>
    if m.kind ≠ .launchDone then .next s
    else
      match m.deadline with
      | some d =>
        if s.cycle < d then .next s
        else .next ((s.dropMsg id).faultRecord m.asid ⟨3, 0x18, 0x03, 4, targetCore m.dst, 0, 0, m.launch.setWidth 64⟩).1
      | none => .next s

/-! ## Cancellation (R390, R391) -/

/-- Marks the contexts of a job at a core. -/
def State.markCancelled (s : State) (core : Nat) (job : BitVec 32) : State :=
  (s.fab.threads.map (·.1)).foldl (fun s uid =>
    match s.thread? uid with
    | some t =>
      if s.homeCore t == core && t.sys.job.setWidth 32 == job then
        s.modThread uid fun t => { t with sys := { t.sys with job := jobWord job true } }
      else s
    | none => s) s

/-- CANCEL_BROADCAST: the class 5 packet of a cancel reaches a station (destinations 0 to 15) or a core (16 + core). The id of a job that has completed meanwhile
leaves the set at once. -/
def execCancelBroadcast (id : Nat) (dest : Nat) (s : State) : Out :=
  let job : BitVec 32 := BitVec.ofNat 32 id
  if dest < 16 then
    let d := s.disp? dest
    let s := if d.cancelled.contains job then s else s.setDisp dest { d with cancelled := d.cancelled ++ [job] }
    let s : State := { s with disp := { s.disp with launches := s.disp.launches.map fun (k, l) =>
      if l.job == job && l.station == dest then (k, { l with cancelled := true }) else (k, l) } }
    .next (s.forgetJob job)
  else .next (s.markCancelled (dest - 16) job)

/-- CANCEL is due to a thread: its job is cancelled, the grace period is over, and it has not taken it. -/
def State.cancelDue (s : State) (t : Thread) : Bool :=
  !t.cancelTaken && t.sys.job.getLsbD 32 && s.fw.cancels.any fun c => c.1 == t.sys.job.setWidth 32 && decide (c.2 ≤ s.cycle)

/-- CANCEL: subcode 0x01, XVAL the job id (R391). -/
def execCancel (seat : Nat) (s : State) : Out :=
  match (s.seat seat).occ with
  | none => .next s
  | some uid =>
    match s.thread? uid with
    | none => .next s
    | some t =>
      if !s.cancelDue t then .next s
      else
        let s := s.modThread uid fun t => { t with cancelTaken := true }
        .next (takeTrap s seat uid 0x17 0x01 (BitVec.ofNat 64 (t.sys.job.toNat % 2 ^ 32)))

end Sys2Proof.Machine
end

