-- ==== Sys2Proof/Machine/Schedule.lean ====
section
/-!
DEFINITION. Run queues and seats (R174, R180, R311, R384, R385), and the fills of the instruction caches (R222, R407).
-/

namespace Sys2Proof.Machine

/-! ## Arrival at a run queue (R174) -/

/-- A context enters the run queue of its destination. A MIGR retires with it; an access is re-executed at its new core. -/
def State.acceptContext (s : State) (id : Nat) (g : Mig) (t : Thread) : State :=
  let s := s.dropMig id
  let s := match g.kind, t.loc with
    | .migr, .transit n => ((s.modThread g.uid fun t => { t.advance with park := Park.init }).countEv n 2 1)
    | _, _ => s
  let s := (s.leaveSource g.uid).enterRunQueue g.dst g.uid
  let s := s.countReceived t.launch g.dst
  if g.kind = .merge then s.cellStep t.launch else s

/-- RUN_QUEUE_ARRIVAL. A context that is still owed answers waits at its source; a core with 64 threads NACKs. -/
def execRunQueueArrival (id : Nat) (s : State) : Out :=
  match s.mig? id with
  | none => .next s
  | some g =>
    match g.stage, g.kind with
    | .lost, _ | .waiting, _ | _, .setpos _ _ => .next s
    | _, _ =>
      match s.thread? g.uid with
      | none => .next (s.dropMig id)
      | some t =>
        if g.stage = .queued then .next s
        else if !t.owed.isEmpty then .next (s.addWork 8 (.runQueueArrival id))
        else if 64 ≤ s.coreLoad g.dst then .next (s.nackMove id g)
        else .next (s.acceptContext id g t)

/-! ## Taking a seat (R384) -/

/-- The effective priority of a context that has waited since a cycle. -/
def effectivePrio (prio aging now since : Nat) : Nat := if aging = 0 then prio else prio - (now - since) / (aging * 1024)

def State.entryPrio (s : State) (core : Nat) (e : RunEntry) : Nat :=
  effectivePrio (((s.thread? e.uid).map (·.prio.toNat)).getD 3) (s.core core).prioAging.toNat s.cycle e.since

/-- A context may take a seat: one of anchored kind needs WBSLOTS free weight slots and, when that is not 0, a matrix seat (R416); and a doublet both
its seats, of which the primary's takes it. -/
def State.mayTake (s : State) (seat uid : Nat) : Bool :=
  match s.thread? uid with
  | none => false
  | some t =>
    (t.kind != .anchored || ((s.freeSlots (tileOf (coreOf seat)) (bitsOf (s.hdrWord t 8) 56 5)).isSome
        && (bitsOf (s.hdrWord t 8) 56 5 == 0 || matrixSeat seat)))
      && (!s.doubletOf t || (coreOf seat % 2 == 0 && (s.seat (seat + 8)).occ.isNone && !(s.seat (seat + 8)).stopped))

/-- The better of two contexts: the higher effective priority, then the one that has waited longer. The first of the queue stands for a tie. -/
def State.bestEntry (s : State) (core seat : Nat) : List RunEntry → Option RunEntry
  | [] => none
  | e :: rest =>
    match s.bestEntry core seat rest with
    | none => if s.mayTake seat e.uid then some e else none
    | some m =>
      let p := s.entryPrio core e
      let q := s.entryPrio core m
      if s.mayTake seat e.uid && (decide (p < q) || (p == q && decide (e.since ≤ m.since))) then some e else some m

/-- The segment that a launch assigns to a seat (R15, R172): its place is free among those where all of it lies in the scratchpad, so that every seat of the
launch has the same size. A thread of no launch keeps the seat's. -/
def Seat.segment (x : Seat) (base size : Nat) : Seat :=
  let size := min size (2 ^ 24)
  let base := base % (2 ^ 24 - size + 64)
  { x with lbase := lbaseMask (BitVec.ofNat 64 base), llim := llimMask (BitVec.ofNat 64 (base + size)) }

/-- The reads of the format descriptors that a thread makes at its start; a line of the near cache of an anchored thread serves one at once (R311). -/
def startReads (seat uid : Nat) : List Nat → State → State
  | [], s => s
  | n :: rest, s =>
    match s.thread? uid with
    | none => s
    | some t =>
      let va := (vget t.sys.fs n 0).toNat
      let copy (s : State) (c : FsCopy) : State := s.modThread uid fun t => { t with fsCopy := vset t.fsCopy n c }
      if va = 0 then startReads seat uid rest (copy s .invalid)
      else
        match (if t.kind == .anchored then s.ncLoad uid (clusterOf (coreOf seat)) t.asid va (BitVec.allOnes 64) else none) with
        | some (s, l) => startReads seat uid rest (copy s (if l.poison.getLsbD 0 then .pending else .word (lineWord l.data 0)))
        | none =>
          let r := { Req.make s seat uid t (.descr n .start) va 64 with mask := BitVec.allOnes 64 }
          startReads seat uid rest (copy (s.sendReq r).1 .pending)

/-- A thread takes a seat: its segment, its delegation mask, and nothing of the thread before it (R205, R323, R328, R366). -/
def State.seatThread (s : State) (seat uid : Nat) (t : Thread) : State :=
  let s := match t.kind, s.freeSlots (tileOf (coreOf seat)) (bitsOf (s.hdrWord t 8) 56 5) with
    | .anchored, some l => s.grantSlots seat l
    | _, _ => s
  let s := s.modSeat seat fun x =>
    { x with occ := some uid, off := none, due := none, engStatus := Vector.replicate 3 0xFF, deleg := s.delegFor t.asid x.deleg }
  let s := if (s.launchOf t).isSome then
      s.modSeat seat fun x => x.segment ((Config.segmentBase t.launch.toNat seat).toNat * 64) (bitsOf (s.hdrWord t 8) 32 24 * 64)
    else s
  s.setThread uid { t with loc := .seat seat, park := t.park.resume s.cycle, shadows := Shadows.init, started := true,
                           fsCopy := copiesAgain t.sys }

/-- SEAT_TAKE: an empty unstopped seat takes the best context of its core's run queue. DESIGN CHOICE (log entry 120): one into which
the context of a doublet is being loaded is its. -/
def execSeatTake (seat : Nat) (s : State) : Out :=
  let x := s.seat seat
  let core := coreOf seat
  if x.occ.isSome || x.stopped || s.pairLoading seat then .next s
  else
    match s.bestEntry core seat (s.core core).runq with
    | none => .next s
    | some e =>
      match s.thread? e.uid with
      | none => .next (s.modCore core fun c => { c with runq := c.runq.filter fun r => r.uid != e.uid })
      | some t =>
        let s := s.modCore core fun c => { c with runq := c.runq.filter fun r => r.uid != e.uid }
        let s := (s.seatThread seat e.uid t).joinDoublet seat e.uid t
        .next (if t.started then s else startReads seat e.uid [0, 1, 2, 3] s)

/-! ## PARKSWAP (R385) -/

/-- The thread of a seat is swapped out now. -/
def State.swapDue (s : State) (seat : Nat) (t : Thread) : Bool :=
  let c := s.core (coreOf seat)
  t.park.parked && decide (c.parkswap.toNat ≤ s.cycle - t.park.since)
    && c.runq.any (fun e => decide (s.entryPrio (coreOf seat) e ≤ t.prio.toNat))
    && t.kind != .anchored && !t.role && !t.inFrame && !t.inHandler && !t.dirtyShadow
    && t.loc == .seat seat && (s.seat seat).quiet && !(s.seat seat).stopped && !(s.seat seat).dbgHalt && s.boundaryClear seat

/-- PARKSWAP: the parked thread goes to the tail of its priority, and the seat's turns go idle for 32 cycles. -/
def execParkswap (seat : Nat) (s : State) : Out :=
  match (s.seat seat).occ with
  | none => .next s
  | some uid =>
    match s.thread? uid with
    | none => .next s
    | some t =>
      if !s.swapDue seat t then .next s
      else
        let s := ((s.countEv seat 10 1).vacate seat).modSeat seat fun x => { x with off := some (.swap (s.cycle + 32)) }
        .next ((s.modThread uid fun t => { t with park := t.park.pause s.cycle }).enterRunQueue (coreOf seat) uid)

/-! ## The instruction cache (R222, R407) -/

/-- An instruction cache of 32 KiB holds 512 lines (R3). DESIGN CHOICE: of more, the one filled first goes. -/
def newestLines (l : List ILine) : List ILine := l.drop (l.length - 512)

/-- Fills a line of a core's instruction cache. -/
def State.icacheFill (s : State) (core : Nat) (asid : BitVec 16) (va : Nat) (d : Line) (poison : BitVec 8) : State :=
  s.modCore core fun c =>
    { c with icache := newestLines ((c.icache.filter fun l => !(l.asid == asid && l.va == lineOf va)) ++ [⟨asid, lineOf va, d, poison⟩]) }

/-- The fetch of a seat is over: it may issue in its next turn, and is no longer parked. -/
def State.fetchOver (s : State) (seat : Nat) : State :=
  let s := s.modSeat seat fun x => { x with off := none }
  match (s.seat seat).occ with
  | some uid => s.modThread uid fun t => { t with park := { t.park with parked := false } }
  | none => s

/-- What a fetch brings. Where an IFENCE of its ASID has passed since its home was read, the line is what the home holds now (R359). -/
def State.fetchedLine (s : State) (r : Req) (a : Answer) : Option Answer :=
  match a with
  | .data _ _ rd w nc => if r.aged = 0 then some a else (s.homePlace r.asid r.addr).map fun pa => .data (s.physLine pa) (s.physPoisonBits pa) rd w nc
  | _ => some a

/-- INSTRUCTION_FETCH_FILL: the line of a miss, or a fault, arrives; a seat that waits for it may issue, or traps (R68, R407). -/
def execInstructionFetchFill (id : Nat) (s : State) : Out :=
  match s.req? id with
  | none => .next s
  | some r =>
    if r.stage ≠ .answered then .next s
    else
      let waits := (s.seat r.seat).off == some (.fetch id)
      let s := s.dropReq id
      let s := if waits then s.fetchOver r.seat else s
      match r.answer.bind (s.fetchedLine r) with
      | some (.data d p _ _ _) =>
        let s := s.icacheFill (coreOf r.seat) r.asid r.addr d p
        .next (if waits && p.getLsbD (r.off % 64 / 8) then s.trapDue r.seat 0x10 0x03 (BitVec.ofNat 64 r.off) else s)
      | some (.fault c b) => .next (if waits then s.trapDue r.seat c b (BitVec.ofNat 64 r.off) else s)
      | _ => .next s

end Sys2Proof.Machine
end

