-- ==== Sys2Proof/Machine/Doublet.lean ====
section
/-!
DEFINITION. Doublets (R409 to R412): checkpoints, their commit, and the rollback of a mismatch. The log and the image stand in State.
-/

namespace Sys2Proof.Machine

def State.doublet? (s : State) (seat : Nat) : Option Doublet := FMap.find? s.fab.doublets seat
def State.setDoublet (s : State) (seat : Nat) (d : Doublet) : State :=
  { s with fab := { s.fab with doublets := FMap.insert s.fab.doublets seat d } }

/-- CKPT in cycles; 0 acts as 1 (R410). -/
def Seat.ckptCycles (x : Seat) : Nat := max 1 (bitsOf x.doubletc 16 16) * 1024

/-- The parts of a checkpoint image: P, C, V and A (R409). -/
def imageParts : BitVec 5 := 0x0F

/-- The primary writes its image above the 4 KiB of the log, laid out as a save area (R409, R410, R372); a segment shorter than 12 KiB has no place for it. DESIGN
CHOICE (log entry 70): one 64-byte block in each of the cycles that follow. -/
def State.writeImage (s : State) (seat : Nat) (t : Thread) : State :=
  let x := s.seat seat
  if x.llim.toNat < 12288 then s
  else queueParts (.doublet seat) (clusterOf (coreOf seat))
    (areaParts (coreOf seat) (x.limitOf + 4096) ((t.areaData x s.cycle imageParts).map fun (i, w) => (i, .write 255 w))) s

/-- Takes the checkpoint: the image, an empty log, and the held stores performed or on their way. -/
def State.takeCheckpoint (s : State) (seat : Nat) (d : Doublet) (t : Thread) : State :=
  let s := (s.writeImage seat t).setDoublet seat
    { since := s.cycle, log := [], held := [], committing := d.held, image := some t, seatImage := some (s.seat seat), lastMismatch := none, wanted := false }
  let s := d.held.foldl (fun s id => s.sendHeld seat id) s
  let s := if d.held.isEmpty then s.addWork 0 (.checkpointCommit (coreOf seat) seat) else s
  s.addWork (s.seat seat).ckptCycles (.checkpoint (coreOf seat) seat)

/-- CHECKPOINT: at its time or when asked for, once the one before has committed and no held store would pass a write-back (R410). -/
def execCheckpoint (_core seat : Nat) (s : State) : Out :=
  match s.doublet? seat, (s.seat seat).occ.bind s.thread? with
  | some d, some t =>
    let late := decide (d.since + (s.seat seat).ckptCycles ≤ s.cycle)
    if !d.committing.isEmpty then .next (s.setDoublet seat { d with wanted := d.wanted || late })
    else if d.wanted || late then
      .next (if s.heldReady seat d then s.takeCheckpoint seat d t else s.addWork 1 (.checkpoint (coreOf seat) seat))
    else .next s
  | _, _ => .next s

/-- A doublet whose interval has just begun takes its image (R410). -/
def State.imageNow (s : State) (seat : Nat) (t : Thread) : State :=
  match s.doublet? seat with
  | none => s
  | some d =>
    if d.image.isSome then s
    else
      ((s.writeImage seat t).setDoublet seat
        { d with image := some t, seatImage := some (s.seat seat), log := [], since := s.cycle, lastMismatch := none }).addWork
        (s.seat seat).ckptCycles (.checkpoint (coreOf seat) seat)

/-- CHECKPOINT_COMMIT: every store sent is acknowledged; fences go on at their next turn (R109 step 4). A checkpoint that was asked for meanwhile is
taken. -/
def execCheckpointCommit (_core seat : Nat) (s : State) : Out :=
  match s.doublet? seat with
  | none => .next s
  | some d => if d.committing.isEmpty && d.wanted then .next (s.addWork 0 (.checkpoint (coreOf seat) seat)) else .next s

/-- The accesses that undo a log of a core, the latest entry first, one in each cycle (R412; log entry 70). -/
def undoParts (core : Nat) (log : List (Nat × Word × Bool)) : List (Nat × Nat × BankPart) :=
  log.reverse.zipIdx.map fun (e, i) => let t := transit core e.1; (i + t, t, ⟨e.1, .restore e.2.2 e.2.1, i⟩)

/-- The seat's core puts back what the log holds, and the seat issues nothing until that is done (R412). -/
def State.undoLog (s : State) (seat uid : Nat) (log : List (Nat × Word × Bool)) : State :=
  if log.isEmpty then s
  else
    let parts := undoParts (coreOf seat) log
    let op := LocalOp.start uid .rollback 0 (s.seat seat).lbase.toNat (parts.map (·.2.2)) s.cycle
    queueParts (.seat seat) (clusterOf (coreOf seat)) parts (s.modSeat seat fun x => { x with localOp := some op })

/-- A seat puts back what its log holds. -/
def Seat.undoing (x : Seat) : Bool := x.localOp.any fun op => op.kind == .rollback

/-- The thread of the image. What parts P, C, V and A do not hold stays: where it is, its shadows, the cancel of its job that the core has set in it; the
words behind its format descriptors are read again. -/
def Thread.rollback (image t : Thread) : Thread :=
  { image with loc := t.loc, shadows := t.shadows, sys := { image.sys with job := t.sys.job }, fsCopy := copiesAgain image.sys, park := Park.init }

/-- The seat's registers of part C, from the image (R372). -/
def Seat.rollback (image x : Seat) : Seat :=
  { x with lbase := image.lbase, llim := image.llim, wbseg := image.wbseg, disc := image.disc, deleg := image.deleg }

/-- What the seat has begun since is forgotten. -/
def State.forgetBegun (s : State) (seat : Nat) : State :=
  let banks := s.fab.banks.map fun (k, b) => (k, { b with waiting := b.waiting.filter fun w => w.user != .seat seat })
  let tiles := s.fab.tiles.map fun (k, x) => (k, { x with jobs := x.jobs.filter fun j => j.seat != seat })
  { s with fab := { s.fab with banks := banks, tiles := tiles } }.modSeat seat fun x => { x with localOp := none, off := none, due := none, pops := [], fetched := [] }

/-- Adds 1 to the mismatch count of DOUBLETC. -/
def Seat.mismatch (x : Seat) : Seat := { x with doubletc := setBits x.doubletc 32 32 (bitsOf x.doubletc 32 32 + 1) }

/-- The rollback of R412: the log is undone, the held stores are discarded, the image is reloaded, and both seats count it. -/
def State.rollback (s : State) (seat uid : Nat) (d : Doublet) (t : Thread) : State :=
  let s := ((d.held.foldl (fun s id => s.dropReq id) s).forgetBegun seat).undoLog seat uid d.log
  let s := match d.seatImage with
    | some i => (s.modSeat seat i.rollback).modSeat (seat + 8) i.rollback
    | none => s
  let s := (s.modSeat seat Seat.mismatch).modSeat (seat + 8) Seat.mismatch
  s.setThread uid ((d.image.getD t).rollback t)

/-- The DOUBLET trap is taken in both cores (R412): they hold one thread, so that the records and the handler are one; where it is a trap
stop, the secondary stops too and gives its own notice. -/
def State.trapBoth (s : State) (seat uid : Nat) (pc : Word) : State :=
  let s := takeTrap s seat uid 0x11 0x01 pc
  match s.thread? uid with
  | some t => if (s.seat seat).tstop then s.trapStop (seat + 8) uid t.asid t.sys else s
  | none => s

/-- DOUBLET_MISMATCH: the results of the two cores differ at the instruction at PC. A second time there in one interval traps DOUBLET (R412). While
they undo the log they compare nothing. -/
def execDoubletMismatch (_core seat : Nat) (s : State) : Out :=
  match s.doublet? seat, (s.seat seat).occ with
  | some d, some uid =>
    match s.thread? uid with
    | none => .next s
    | some t =>
      if (s.seat seat).undoing then .next s else
      let pc := t.regs.pc
      let s := (s.rollback seat uid d t).setDoublet seat { d with log := [], held := [], lastMismatch := some pc }
      .next (if d.lastMismatch = some pc then s.trapBoth seat uid pc else s)
  | _, _ => .next s

end Sys2Proof.Machine
end

