-- ==== Sys2Proof/Machine/Host.lean ====
section
/-!
DEFINITION. The host link (R456 to R458): the registers of the queue pairs, the fetch of commands by the service cores and their completions; device
reset (R43, R205), the power measurement (R465), and the link going down and coming up (R64).
-/

namespace Sys2Proof.Machine

/-! ## Commands at the service cores (R167, R457, R461) -/

def HostQueue.enabled (x : HostQueue) : Bool := x.cmd.getLsbD 0
/-- The service core to which a queue is bound, log2 of its entries and its base. -/
def HostQueue.svc (x : HostQueue) : Nat := bitsOf x.latched 4 4
def HostQueue.clog (x : HostQueue) : Nat := bitsOf x.latched 8 4
def HostQueue.cmdBase (x : HostQueue) : Nat := bitsOf x.latched 12 52 * 4096

/-- A command of a queue may be fetched. -/
def State.fetchable (s : State) (k : Nat) (x : HostQueue) : Bool :=
  x.enabled && x.cmdhead != x.cmdtail && x.roomC 0 && (FMap.find? s.fw.running k).isNone

/-- The service core that executes the command of a queue: the one to which the queue was bound when it was fetched. -/
def State.server (s : State) (k : Nat) : Nat := (FMap.find? s.fw.serving k).getD (s.hq (k / 8) (k % 8)).svc
/-- The service core executes a command. -/
def State.svcBusy (s : State) (svc : Nat) : Bool := s.fw.running.any fun p => s.server p.1 == svc

/-- The step of an opcode (R462). -/
def commandEv (op fn q : Nat) : Ev :=
  match op with
  | 0x01 => .ident fn q
  | 0x02 => .negotiate fn q
  | 0x03 => .deviceSet fn q
  | 0x04 => .powerCap fn q
  | 0x05 => .attest fn q
  | 0x10 => .ctxCreate fn q
  | 0x11 => .ctxDestroy fn q
  | 0x12 => .map fn q
  | 0x13 => .unmap fn q
  | 0x14 => .pageMove fn q
  | 0x15 => .blockSet fn q
  | 0x16 => .memCopy fn q
  | 0x20 => .queueCreate fn q
  | 0x21 => .queueDestroy fn q
  | 0x22 => .queueSubmit fn q
  | 0x23 => .scopeSet fn q
  | 0x24 => .boardSet fn q
  | 0x25 => .indexCreate fn q
  | 0x26 => .indexDestroy fn q
  | 0x30 => .graphCreate fn q
  | 0x31 => .graphPatch fn q
  | 0x32 => .graphReplay fn q
  | 0x33 => .jobCancel fn q
  | 0x40 => .debugHalt fn q
  | 0x41 => .debugResume fn q
  | 0x42 => .debugRegread fn q
  | 0x43 => .debugRegwrite fn q
  | 0x44 => .debugLocalread fn q
  | 0x45 => .debugLocalwrite fn q
  | 0x46 => .debugBreakarm fn q
  | 0x47 => .debugBreakoff fn q
  | _ => .badop fn q

/-- n words of host memory. -/
def State.hostWords (s : State) (a n : Nat) : List Word := (List.range n).map fun j => s.host64 (a + 8 * j)

/-- A command entry is fetched. -/
def State.startCommand (s : State) (k : Nat) (x : HostQueue) : State :=
  let ws := s.hostWords (x.cmdBase + 128 * (x.cmdhead.toNat % 2 ^ x.clog)) 16
  let s := s.setHq (k / 8) (k % 8) { x with cmdhead := x.cmdhead + 1 }
  { s with fw := { s.fw with running := FMap.insert s.fw.running k ws, serving := FMap.insert s.fw.serving k x.svc } }.addWork 1 (commandEv (bitsOf (ws.getD 0 0) 0 16) (k / 8) (k % 8))

/-- A service core that is free takes a command of one of its queues. -/
def State.serve (s : State) (svc : Nat) : State :=
  if s.svcBusy svc then s
  else
    let ready := s.host.queues.filter fun p => p.2.svc == svc && s.fetchable p.1 p.2
    if ready.isEmpty then s
    else
      let (n, s) := s.pick ready.length
      match ready[n]? with
      | some p => s.startCommand p.1 p.2
      | none => s

/-- Notices that wait on a function's queue 0 are written, and the service core of a queue goes on. -/
def State.hostGo (s : State) (fn q : Nat) : State :=
  let s := if q = 0 then drainNotices fn 16 s else s
  s.serve (s.hq fn q).svc

/-- A command is done: its completion is written (R167, R458). -/
def State.complete (s : State) (fn q status : Nat) (res : List Word) : State :=
  let k := fn * 8 + q
  let tag := bitsOf (((FMap.find? s.fw.running k).getD []).getD 0 0) 48 16
  let svc := s.server k
  let s := s.writeCompletion fn q (completionWord tag status 0 :: res)
  ({ s with fw := { s.fw with running := FMap.erase s.fw.running k, serving := FMap.erase s.fw.serving k } }.hostGo fn q).serve svc

/-! ## Registers (R456, R457) -/

/-- A write to +0x00: the ring and the service core take effect when EN rises. -/
def State.writeCmdReg (s : State) (fn q : Nat) (val : Word) : State :=
  let x := s.hq fn q
  let w := val &&& ~~~ 0xE
  let x := { x with cmd := w, latched := if w.getLsbD 0 && !x.enabled then w else x.latched }
  (s.setHq fn q x).hostGo fn q

/-- A write to +0x18: the completion ring, and EVLOST cleared by a one. -/
def State.writeCplReg (s : State) (fn q : Nat) (val : Word) : State :=
  let x := s.hq fn q
  let keep := x.cpl.getLsbD 1 && !val.getLsbD 1
  let rises := val.getLsbD 0 && !x.cpl.getLsbD 0
  let x := { x with cpl := putBit (val &&& ~~~ 0xFE) 1 keep, cpltail := if rises then 0 else x.cpltail }
  (s.setHq fn q x).hostGo fn q

def State.writeTail (s : State) (fn q : Nat) (val : Word) : State :=
  (s.setHq fn q { s.hq fn q with cmdtail := val.setWidth 16 }).hostGo fn q
def State.writeCplHead (s : State) (fn q : Nat) (val : Word) : State :=
  (s.setHq fn q { s.hq fn q with cplhead := val.setWidth 16 }).hostGo fn q

/-- A write to the window of a function. -/
def State.writeWindow (s : State) (fn off : Nat) (val : Word) : State :=
  if off < 0x100 || 0x300 ≤ off then s
  else
    let q := (off - 0x100) / 0x40
    match (off - 0x100) % 0x40 with
    | 0x00 => s.writeCmdReg fn q val
    | 0x08 => s.writeTail fn q val
    | 0x18 => s.writeCplReg fn q val
    | 0x20 => s.writeCplHead fn q val
    | _ => s

/-- What a host read of the window of a function finds (R456): reserved offsets read as zero. -/
def State.readWindow (s : State) (fn off : Nat) : Word :=
  if off < 0x100 || 0x300 ≤ off then 0
  else
    let x := s.hq fn ((off - 0x100) / 0x40)
    match (off - 0x100) % 0x40 with
    | 0x00 => x.cmd
    | 0x08 => x.cmdtail.setWidth 64
    | 0x10 => x.cmdhead.setWidth 64
    | 0x18 => x.cpl
    | 0x20 => x.cplhead.setWidth 64
    | _ => 0

/-- A function and queue exist. -/
def hostPair (fn q : Nat) : Bool := decide (fn < 256) && decide (q < 8)

def execCmdtailDoorbell (fn q : Nat) (val : BitVec 64) (s : State) : Out := .next (if hostPair fn q then s.writeTail fn q val else s)
def execQueueEnable (fn q : Nat) (val : BitVec 64) (s : State) : Out := .next (if hostPair fn q then s.writeCmdReg fn q val else s)
def execCplheadWrite (fn q : Nat) (val : BitVec 64) (s : State) : Out := .next (if hostPair fn q then s.writeCplHead fn q val else s)
def execEvlostClear (fn q : Nat) (val : BitVec 64) (s : State) : Out := .next (if hostPair fn q then s.writeCplReg fn q val else s)
def execHostRegisterWrite (fn off : Nat) (val : BitVec 64) (s : State) : Out := .next (if hostPair fn 0 then s.writeWindow fn off val else s)

/-! ## The link, reset and power -/

def execHostLinkDown (s : State) : Out := .next { s with host := { s.host with linkUp := false } }
def execHostLinkUp (s : State) : Out := .next { s with host := { s.host with linkUp := true } }

/-- Every seat of the package, changed. -/
def State.allSeats (s : State) (f : Seat → Seat) : State :=
  { s with fab := { s.fab with seats := (List.range 16384).map fun k => (k, f (s.seat k)) } }

/-- The most power of a part (R465, R468). -/
def Part.maxPower : Part → Nat
  | .hm9p => 2300
  | _ => 2600

/-- DEVICE_RESET: every unit is at its reset state, and every scratchpad word is zero and full (R43, R205). What lies outside stays: the link, the routes,
the schedule, and the bytes behind the stations and of the host. -/
def execDeviceReset (s : State) : Out :=
  .next { State.reset with
    part := s.part
    device := s.device
    mem := { State.reset.mem with phys := s.mem.phys, physPoison := s.mem.physPoison }
    net := { State.reset.net with routes := s.net.routes }
    host := { State.reset.host with linkUp := s.host.linkUp }
    fw := { State.reset.fw with powerCap := s.part.maxPower }
    sched := s.sched
    picks := s.picks
    freeCtr := s.freeCtr }

/-- POWER_MEASUREMENT: the throttle goes down while the power or a junction is too high, and back up otherwise; at 120 °C every seat is stopped and a
machine-check notice is raised (R465). -/
def execPowerMeasurement (watts junction : Nat) (s : State) : Out :=
  let hot := decide (s.fw.powerCap < watts) || decide (105 ≤ junction)
  let s := { s with fw := { s.fw with throttle := if hot then max 1 (s.fw.throttle - 1) else min 16 (s.fw.throttle + 1) } }
  .next (if 120 ≤ junction then (s.allSeats fun x => { x with stop := true }).postNotice 0 0 3 [] else s)

end Sys2Proof.Machine
end

