-- ==== Sys2Proof/Machine/Firmware.lean ====
section
/-!
DEFINITION. The firmware commands (R459 to R466): how a command is accepted and completed; the device commands, contexts, mappings (R65, R66), tier moves
(R70, R71), block owners (R22) and copies. The rest stand in Commands.lean.
-/

namespace Sys2Proof.Machine

/-! ## Status (R463) and acceptance (R459 to R461) -/

def stOk : Nat := 0
def stBadOp : Nat := 1
def stBadArg : Nat := 2
def stNoCtx : Nat := 3
def stBusy : Nat := 4
def stNoSpace : Nat := 5
def stFault : Nat := 6
def stNoNeg : Nat := 7
def stPriv : Nat := 8
def stEcc : Nat := 10
def stAbsent : Nat := 11

/-- What the body of a command answers. -/
inductive Cmd where
  /-- It is done, with its status and result words. -/
  | done (s : State) (status : Nat) (res : List Word)
  /-- It goes on after some cycles, in a phase. -/
  | again (s : State) (delay phase : Nat)

def refuse (s : State) (status : Nat) : Cmd := .done s status []
def ok (s : State) : Cmd := .done s stOk []

/-- Who a command is for. -/
inductive CmdClass where
  /-- IDENT and NEGOTIATE. -/
  | first
  | device
  | physical
  | context

def CmdClass.isContext : CmdClass → Bool
  | .context => true
  | _ => false

/-- The command names the context of its ASID for this function (R459). -/
def State.owns (s : State) (fn : Nat) (asid : BitVec 16) : Bool :=
  match s.context? asid with
  | some c => c.fn == fn && !c.dying
  | none => false

/-- The refusals that do not depend on the command's arguments. -/
def State.preRefusal (s : State) (fn : Nat) (k : CmdClass) (w0 : Word) : Option Nat :=
  let neg := (FMap.find? s.fw.features fn).isSome
  match k with
  | .first => if bitsOf w0 16 16 = 0 then none else some stBadArg
  | .device => if !neg then some stNoNeg else if bitsOf w0 16 16 = 0 then none else some stBadArg
  | .physical => if !neg then some stNoNeg else if bitsOf w0 16 16 ≠ 0 then some stBadArg else if fn ≠ 0 then some stPriv else none
  | .context =>
    if !neg then some stNoNeg else if bitsOf w0 16 16 ≠ 0 then some stBadArg
    else if !s.owns fn (w0.extractLsb' 32 16) then some stNoCtx else none

/-- Commands that change a context in several phases, or stop its jobs: MAP, UNMAP, PAGE_MOVE, INDEX_CREATE, INDEX_DESTROY and JOB_CANCEL. -/
def phasedOps : List Nat := [0x12, 0x13, 0x14, 0x25, 0x26, 0x33]

/-- Commands of one opcode that a command in progress of another holds back. DESIGN CHOICE (log entry 109): a GRAPH_REPLAY, whose packets are dispatched in the
time that other commands take (R389), holds back CTX_DESTROY alone; a QUEUE_SUBMIT that has reported the page of its ring holds back CTX_DESTROY and
QUEUE_DESTROY, and not the MAP that it waits for. -/
def holdsBack (running op : Nat) : Bool :=
  phasedOps.contains running || (op == 0x11 && (running == 0x32 || running == 0x22)) || (op == 0x21 && running == 0x22)

/-- The context that a command acts on: word 1 of ATTEST names it, word 0 of the others. -/
def commandAsid (op : Nat) (w0 w1 : Word) : BitVec 16 := if op = 0x05 then w1.setWidth 16 else w0.extractLsb' 32 16

/-- Another command that acts on the context is being performed: each is performed whole (R461). -/
def State.contextBusy (s : State) (fn q op : Nat) (asid : BitVec 16) : Bool :=
  s.fw.running.any fun p =>
    let w0 := p.2.getD 0 0
    p.1 != fn * 8 + q && decide (16 < p.2.length) && w0.extractLsb' 32 16 == asid && holdsBack (bitsOf w0 0 16) op

/-- A command that goes on later: its phase stands with its words, once it has begun. A step of it that is due already serves. -/
def State.cmdAgain (s : State) (fn q op delay phase : Nat) : State :=
  let ws := (FMap.find? s.fw.running (fn * 8 + q)).getD []
  let ws := ws.take 16 ++ if phase = 0 then [] else [BitVec.ofNat 64 phase]
  let s := { s with fw := { s.fw with running := FMap.insert s.fw.running (fn * 8 + q) ws } }
  if s.work.any fun w => w.ev == commandEv op fn q then s else s.addWork delay (commandEv op fn q)

/-- Performs the command in progress on a queue, when its opcode is the one given. The body gets the ASID, the words and the phase. -/
def command (op : Nat) (k : CmdClass) (fn q : Nat) (s : State) (body : State → BitVec 16 → (Nat → Word) → Nat → Cmd) : Out :=
  match FMap.find? s.fw.running (fn * 8 + q) with
  | none => .next s
  | some ws =>
    let w (n : Nat) : Word := ws.getD n 0
    if bitsOf (w 0) 0 16 ≠ op then .next s
    else
      let new := decide (ws.length ≤ 16)
      match (if new then s.preRefusal fn k (w 0) else none) with
      | some st => .next (s.complete fn q st [])
      | none =>
        if new && (k.isContext || op == 0x05) && s.contextBusy fn q op (commandAsid op (w 0) (w 1)) then .next (s.cmdAgain fn q op 8 0)
        else match body s ((w 0).extractLsb' 32 16) w (if new then 0 else (w 16).toNat) with
        | .done s st res => .next (s.complete fn q st res)
        | .again s delay phase => .next (s.cmdAgain fn q op delay phase)

/-- BADOP: the opcode is none of R462. -/
def execBadop (fn q : Nat) (s : State) : Out :=
  match FMap.find? s.fw.running (fn * 8 + q) with
  | none => .next s
  | some ws =>
    match commandEv (bitsOf (ws.getD 0 0) 0 16) fn q with
    | .badop _ _ => .next (s.complete fn q stBadOp [])
    | _ => .next s

/-! ## Features (R460) -/

/-- Offered words 0 and 1. -/
def State.offered0 (s : State) : Word :=
  BitVec.ofNat 64 (2 ^ 56 + Config.romRev.toNat * 2 ^ 40 + s.device.toNat * 2 ^ 32 + s.part.lpBytes / 2 ^ 40 * 2 ^ 24)
def State.offered1 (s : State) : Word := BitVec.ofNat 64 (0x3B + if s.part.lpBytes = 0 then 0 else 4)

/-- A function has accepted a feature. -/
def State.feature (s : State) (fn bit : Nat) : Bool := ((FMap.find? s.fw.features fn).map fun w => w.getLsbD bit).getD false
def featDoublet : Nat := 0
def featHostTier : Nat := 1
def featLpTier : Nat := 2
def featFabric : Nat := 3
def featDebug : Nat := 4
def featRecall : Nat := 5

/-- Writes bytes to host memory. -/
def State.hostBytes (s : State) (a : Nat) : List Byte → State
  | [] => s
  | b :: rest =>
    ({ s with mem := { s.mem with phys := Mem.write s.mem.phys (hostAddr a) b } }).hostBytes (a + 1) rest

def leBytes (w : Word) : List Byte := (List.range 8).map fun i => BitVec.ofNat 8 (w.toNat >>> (8 * i))
/-- n bytes of host memory. -/
def State.hostRead (s : State) (a n : Nat) : List Byte := (List.range n).map fun i => Mem.read s.mem.phys (hostAddr (a + i))

/-- IDENT: the block gets the offered words, the public key and the serial. -/
def execIdent (fn q : Nat) (s : State) : Out :=
  command 0x01 .first fn q s fun s _ w _ =>
    ok (s.hostBytes (w 1).toNat (leBytes s.offered0 ++ leBytes s.offered1 ++ leBytes 0 ++ leBytes 0
      ++ (List.range 96).map Config.publicKeyByte ++ (List.range 16).map Config.fuseSerialByte))

/-- NEGOTIATE, once per function and device reset; a virtual function accepts a subset of what the physical function accepted. -/
def execNegotiate (fn q : Nat) (s : State) : Out :=
  command 0x02 .first fn q s fun s _ w _ =>
    let limit := if fn = 0 then s.offered1 else (FMap.find? s.fw.features 0).getD 0
    if (FMap.find? s.fw.features fn).isSome then refuse s stBusy
    else if w 2 &&& ~~~ limit ≠ 0 ∨ w 3 ≠ 0 ∨ w 4 ≠ 0 then refuse s stBadArg
    else .done { s with fw := { s.fw with features := FMap.insert s.fw.features fn (w 2) } } stOk [w 2]

/-- DEVICE_SET: RSVTIME (R132). -/
def execDeviceSet (fn q : Nat) (s : State) : Out :=
  command 0x03 .physical fn q s fun s _ w _ =>
    let n := (w 1).toNat
    if 256 ≤ n ∧ n ≤ 65536 then ok { s with fw := { s.fw with rsvtime := n } } else refuse s stBadArg

/-- POWER_CAP (R465). -/
def execPowerCap (fn q : Nat) (s : State) : Out :=
  command 0x04 .physical fn q s fun s _ w _ =>
    let n := (w 1).toNat
    if 600 ≤ n ∧ n ≤ s.part.maxPower then .done { s with fw := { s.fw with powerCap := n } } stOk [w 1] else refuse s stBadArg

/-! ## Bytes of a context's space -/

/-- What a walk over a range answers. -/
inductive Span where
  | ok
  /-- The first VA that failed. -/
  | bad (va : Nat)
  /-- A piece of a page in motion is awaited (R71). -/
  | wait
  deriving DecidableEq, Repr

/-- A VA of a range can be accessed; the next place to look at is the next 4 KiB piece. -/
def State.spanFrom (s : State) (asid : BitVec 16) (needR needW : Bool) : Nat → (va rest : Nat) → Span
  | 0, _, _ => .ok
  | fuel + 1, va, rest =>
    if rest = 0 then .ok
    else if 2 ^ 48 ≤ va then .bad va
    else
      match s.access asid va false needR needW with
      | .ok _ _ _ _ _ => let n := min rest (4096 - va % 4096); s.spanFrom asid needR needW fuel (va + n) (rest - n)
      | .held => .wait
      | _ => .bad va
def State.span (s : State) (asid : BitVec 16) (va n : Nat) (needR needW : Bool) : Span :=
  s.spanFrom asid needR needW (n / 4096 + 2) va n

/-- The place of a byte in physical memory, once its range has been looked at. -/
def State.placeOf (s : State) (asid : BitVec 16) (va : Nat) (needR needW : Bool) : Option Nat :=
  match s.access asid va false needR needW with
  | .ok pa _ _ _ _ => some pa
  | _ => none

/-- A byte and an 8-byte word of a context's space, by a read. -/
def State.vaByte (s : State) (asid : BitVec 16) (va : Nat) : Byte := ((s.placeOf asid va true false).map (Mem.read s.mem.phys)).getD 0
def State.vaWord (s : State) (asid : BitVec 16) (va : Nat) : Word := ((s.placeOf asid va true false).map s.phys64).getD 0
/-- The first poisoned word of a range. -/
def State.vaPoison (s : State) (asid : BitVec 16) (va n : Nat) : Option Nat :=
  ((List.range (if n = 0 then 0 else (va % 8 + n + 7) / 8)).map fun j => va / 8 * 8 + 8 * j).find? fun a =>
    ((s.placeOf asid a true false).map s.physPoisoned).getD false

/-- ATTEST (R466): the measured bytes, then the quote with its signature. -/
def execAttest (fn q : Nat) (s : State) : Out :=
  command 0x05 .device fn q s fun s _ w _ =>
    let asid : BitVec 16 := (w 1).setWidth 16
    let va := (w 2).toNat
    let n := (w 3).toNat
    if (w 1).toNat ≠ asid.toNat then refuse s stBadArg
    else if !s.owns fn asid then refuse s stNoCtx
    else
      match s.span asid va n true false with
      | .bad a => .done s stFault [BitVec.ofNat 64 a]
      | .wait => .again s 8 0
      | .ok =>
        match s.vaPoison asid va n with
        | some a => .done s stFault [BitVec.ofNat 64 a]
        | none =>
          let body := s.hostRead (w 4).toNat 48 ++ leBytes s.offered0 ++ (List.range 48).map Config.fuseHashByte
            ++ leBytes (asid.setWidth 64) ++ leBytes (w 2) ++ leBytes (w 3)
            ++ sha384 ((List.range n).map fun i => s.vaByte asid (va + i))
          let digest := (sha384 body).foldl (fun a b => a * 256 + b.toNat) 0
          let sig := (List.range 96).map (Config.signatureByte digest s.freeCtr)
          ok ({ s with freeCtr := s.freeCtr + 1 }.hostBytes (w 5).toNat (body ++ sig))

/-! ## Contexts (R398, R461, R462) -/

def maskFaultq (w : Word) : Word := w &&& 0xFFFF_FFFF_FFDF
/-- An ASID that is free: the one picked, or the first. -/
def State.newAsid (s : State) : Option (BitVec 16) :=
  let free (a : BitVec 16) : Bool := a != 0 && (s.context? a).isNone
  if free (Config.pickAsid s.freeCtr) then some (Config.pickAsid s.freeCtr)
  else ((List.range 65536).map (BitVec.ofNat 16)).find? free

/-- The HBM4E that is reserved to the firmware's tables: level-1 tables by ASID from 504 GiB on, those of levels 2 and 3 from 488 GiB on. -/
def table1Of (asid : BitVec 16) : Nat := 504 * 2 ^ 30 + asid.toNat * 2 ^ 17
def tablesBase : Nat := 488 * 2 ^ 30

/-- The entries of a table that are not 0, by index. -/
def Tables.inTable (t : Tables) (base level : Nat) : List (Nat × Word) :=
  (t.entries.filter fun p => decide (base / 8 ≤ p.1) && decide (p.1 < (base + tableBytes level) / 8)).map fun p => (p.1 - base / 8, p.2)

/-- The entries that point to no table, from a table on with `n` levels left: level, VA and entry. -/
def Tables.leaves (t : Tables) : Nat → Nat → Nat → List (Nat × Nat × Word)
  | 0, _, _ => []
  | n + 1, base, va =>
    (t.inTable base (3 - n)).flatMap fun (i, e) =>
      let v := va + i * 2 ^ levelShift (3 - n)
      if entryTable e then t.leaves n (entryFrame e) v else [(3 - n, v, e)]

/-- The addresses of the tables below one, with `n` levels left. -/
def Tables.below (t : Tables) : Nat → Nat → List Nat
  | 0, _ => []
  | n + 1, base => (t.inTable base (3 - n)).flatMap fun (_, e) => if entryTable e then entryFrame e :: t.below n (entryFrame e) else []

/-- The leaves of a context, and of all contexts: entries that map a page or mark one not present. -/
def State.leaves (s : State) (asid : BitVec 16) : List (Nat × Nat × Word) :=
  match s.context? asid with
  | none => []
  | some c => s.tables.leaves 3 c.table1 0
def State.allLeaves (s : State) : List (Nat × Nat × Word) := s.fw.contexts.flatMap fun p => s.tables.leaves 3 p.2.table1 0

/-- The leaf entry of a level for a VA, when the tables above it exist and it is not 0. -/
def Tables.leafAt (t : Tables) (level va : Nat) : Nat → Nat → Option Word
  | 0, _ => none
  | n + 1, base =>
    let e := t.entry base (3 - n) va
    if 3 - n = level then (if e = 0 || entryTable e then none else some e)
    else if entryTable e then t.leafAt level va n (entryFrame e) else none
def State.leafAt (s : State) (asid : BitVec 16) (level va : Nat) : Option Word :=
  (s.context? asid).bind fun c => s.tables.leafAt level va 3 c.table1

/-- CTX_CREATE. -/
def execCtxCreate (fn q : Nat) (s : State) : Out :=
  command 0x10 .device fn q s fun s _ w _ =>
    let sys := (w 1).getLsbD 0
    let n := faultqN (w 3)
    if sys && (fn != 0 || s.fw.contexts.any fun p => p.2.sys) then refuse s stPriv
    else if bitsOf (w 1) 2 62 ≠ 0 ∨ n < 5 ∨ 16 < n ∨ bitsOf (w 3) 48 16 ≠ 0 ∨ (w 3).getLsbD 5 then refuse s stBadArg
    else
      match s.newAsid with
      | none => refuse s stNoSpace
      | some a =>
        let c : Context :=
          { fn := fn, table1 := table1Of a, sys := sys, debug := (w 1).getLsbD 1, deleg := w 2 &&& delegMask, faultq := maskFaultq (w 3), fatalovf := false
            fqfail := false, scopes := [], boards := [], dying := false, breakArmed := false }
        let s := { s.setContext a c with freeCtr := s.freeCtr + 1 }
        .done (if sys then s.allSeats fun x => { x with xvec := handlerMask (w 4) } else s) stOk [a.setWidth 64]

/-- Everything that a context owns goes with it: threads and what waits for them, queues, expansions, saved contexts, indexes, mappings and cached lines. -/
def State.removeContext (s : State) (asid : BitVec 16) : State :=
  let s := s.killContext asid
  let ixs := s.indexes.filter fun p => p.2.asid != asid
  let root := table1Of asid
  let gone := s.tables.below 3 root
  let mine (k : Nat) : Bool := (decide (root / 8 ≤ k) && decide (k < (root + tableBytes 1) / 8)) || gone.any fun a => k / 512 == a / 4096
  State.forgetJobs { s with
    indexes := ixs
    tables := { entries := s.tables.entries.filter fun p => !mine p.1, used := s.tables.used.filter fun a => !gone.contains a, ladder := s.tables.ladder.filter fun k => k / 2 ^ 32 != asid.toNat }
    disp := { s.disp with
      queues := s.disp.queues.filter fun p => p.2.asid != asid
      graphs := s.disp.graphs.filter fun p => p.2.asid != asid
      saved := s.disp.saved.filter fun v => v.asid != asid
      tasks := s.disp.tasks.filter fun p => ((s.launch? p.2.launch.toNat).map fun l => l.asid != asid).getD false
      launches := s.disp.launches.filter fun p => p.2.asid != asid
      stations := s.disp.stations.map fun (k, d) =>
        (k, { d with slots := d.slots.filter fun x => ((s.launch? x.launch.toNat).map fun l => l.asid != asid).getD false }) }
    net := { s.net with stations := s.net.stations.map fun (k, x) => (k, { x with tcache := x.tcache.filter fun e => e.asid != asid }) }
    fab := { s.fab with
      clusters := s.fab.clusters.map fun (k, c) => (k, { c with ncache := c.ncache.filter fun l => l.asid != asid })
      cores := s.fab.cores.map fun (k, c) => (k, { c with routes := c.routes.filter fun r => r.asid != asid, icache := c.icache.filter fun l => l.asid != asid }) }
    fw := { s.fw with contexts := FMap.erase s.fw.contexts asid.toNat, ended := s.fw.ended.filter fun p => p.2.asid != asid } }

/-- CTX_DESTROY. -/
def execCtxDestroy (fn q : Nat) (s : State) : Out := command 0x11 .context fn q s fun s asid _ _ => ok (s.removeContext asid)

/-! ## Mappings (R61, R62, R65, R462) -/

/-- The level of a page size. -/
def sizeLevel (size : Nat) : Nat := 3 - size
def pageSize (size : Nat) : Nat := 2 ^ levelShift (sizeLevel size)

def overlaps (a n b m : Nat) : Bool := decide (a < b + m) && decide (b < a + n)

/-- A page of a range is mapped, or marked not present, by a leaf of another page size, or holds Ladder storage (R462). -/
def State.rangeBusy (s : State) (asid : BitVec 16) (va n level : Nat) : Bool :=
  (s.leaves asid).any (fun p => p.1 != level && (entryV p.2.2 || entryNotPresent p.2.2) && overlaps p.2.1 (2 ^ levelShift p.1) va n)
  || s.tables.ladder.any fun k => k / 2 ^ 32 == asid.toNat && overlaps (k % 2 ^ 32 * 2 ^ 16) (2 ^ 16) va n

/-- A page of a range is in motion. -/
def State.rangeMoving (s : State) (asid : BitVec 16) (va n : Nat) : Bool :=
  s.fw.moves.any fun m => m.asid == asid && overlaps m.va (2 ^ 16) va n

/-- The checks of a range that MAP and UNMAP share. -/
def rangeBad (va size count : Nat) : Bool :=
  decide (2 < size) || count == 0 || va % pageSize size != 0 || decide (2 ^ 48 < va + count * pageSize size)

/-- The address of a new table of level 2 or 3: the first that is not in use. -/
def Tables.newTable (t : Tables) : Nat :=
  ((List.range (t.used.length + 1)).map fun k => tablesBase + 4096 * k).find? (fun a => !NSet.has t.used a) |>.getD tablesBase

/-- An entry of a table is written; 0 is what an entry reads as that is not listed. -/
def Tables.put (t : Tables) (table level va : Nat) (e : Word) : Tables :=
  let k := table / 8 + levelIndex level va
  { t with entries := if e = 0 then FMap.erase t.entries k else FMap.insert t.entries k e }

/-- Writes the entry of a level for a VA, from a table on with `n` levels left: tables that are missing on the way are made, with V = 1 and LEAF = 0
(R60, R61). -/
def Tables.set (level va : Nat) (e : Word) : Nat → Nat → Tables → Tables
  | 0, _, t => t
  | n + 1, base, t =>
    if 3 - n = level then t.put base level va e
    else
      let old := t.entry base (3 - n) va
      if entryTable old then Tables.set level va e n (entryFrame old) t
      else
        let a := t.newTable
        Tables.set level va e n a (({ t with used := NSet.add t.used a }).put base (3 - n) va (BitVec.ofNat 64 (a + 1)))

/-- Sets the leaf of a page, and clears it. -/
def State.setEntry (s : State) (asid : BitVec 16) (level va : Nat) (e : Word) : State :=
  match s.context? asid with
  | none => s
  | some c => { s with tables := Tables.set level va e 3 c.table1 s.tables }
def State.dropEntry (s : State) (asid : BitVec 16) (level va : Nat) : State :=
  if (s.leafAt asid level va).isSome then s.setEntry asid level va 0 else s

/-- A cluster holds a thread of an ASID, or a line of a range that a thread has left there. -/
def State.probed (s : State) (cl : Nat) (asid : BitVec 16) (va n : Nat) : Bool :=
  (s.fab.threads.any fun p => p.2.asid == asid && clusterOf (s.homeCore p.2) == cl)
    || (s.cluster cl).ncache.any fun l => l.asid == asid && inRange l.va va n

/-- Step 2 of R65: a probe to every such cluster. -/
def State.sendProbes (s : State) (asid : BitVec 16) (va n : Nat) : State :=
  ((List.range 32).filter fun c => s.probed c asid va n).foldl (fun s c => s.addWork 1 (.nearCacheProbe c asid va n)) s

/-- Step 3 of R65: the invalidation at every station. -/
def State.sendInvalidates (s : State) (asid : BitVec 16) (va n : Nat) : State :=
  s.net.stations.foldl (fun s p => s.addWork 1 (.translationInvalidate p.1 asid va n)) s

/-- A write-back is held by a replayable fault, or waits behind one of its granule that is: the change of the leaf itself lets it go on (R66, R470). -/
def State.heldBack (s : State) (id : Nat) (r : Req) : Bool :=
  let held (id : Nat) : Bool := s.net.stations.any fun p => p.2.holds.any fun h => h.req == id
  held id || (r.stage == .queued && s.net.reqs.any fun p =>
    p.2.op == r.op && p.2.asid == r.asid && lineOf p.2.addr == lineOf r.addr && held p.1)

/-- A probe of a range, or a write-back of it, is on its way. -/
def State.probesOpen (s : State) (asid : BitVec 16) (va n : Nat) : Bool :=
  s.work.any (fun w => match w.ev with
    | .nearCacheProbe _ a v m => a == asid && v == va && m == n
    | _ => false)
  || s.net.reqs.any fun p => p.2.asid == asid && overlaps p.2.addr 64 va n && (match p.2.op with
    | .writeBack _ => !s.heldBack p.1 p.2
    | _ => false)

/-- A station has yet to forget the range, or to perform a request that it translated for it. -/
def State.stationsOpen (s : State) (asid : BitVec 16) (va n : Nat) : Bool :=
  s.work.any (fun w => match w.ev with
    | .translationInvalidate _ a v m => a == asid && v == va && m == n
    | _ => false)
  || s.net.stations.any fun p => (p.2.hostWait ++ p.2.rsv.flatMap (·.queue)).any fun id =>
    match s.req? id with
    | some r => r.asid == asid && decide (va ≤ r.addr) && decide (r.addr < va + n)
    | none => false

/-- The held requests of a range are replayed (R66). -/
def State.replayRange (s : State) (asid : BitVec 16) (va n : Nat) : State :=
  let meets (p : BitVec 16 × Nat × Nat) : Bool := p.1 == asid && decide (p.2.1 * 2 ^ 16 < va + n) && decide (va < (p.2.1 + p.2.2) * 2 ^ 16)
  let forget (x : Station) : Station := { x with recorded := x.recorded.filter fun p => !meets p }
  let t : State := { s with net := { s.net with stations := s.net.stations.map fun p => (p.1, forget p.2) } }
  s.net.stations.foldl (fun t x => (x.2.recorded.filter meets).foldl (fun t p => t.addWork 0 (.heldReplay x.1 asid (p.2.1 * 2 ^ 16))) t) t

/-- The frame of page i of a MAP, and its leaf. -/
def mapLeaf (bits frame : Nat) : Word := BitVec.ofNat 64 (bits % 256 + 256 + frame / 4096 % 2 ^ 40 * 4096)
/-- A frame that the firmware allocates for a page: aligned, and at a level-3 page with the colour of R57. -/
def allocFrame (tier level va ctr : Nat) : Nat :=
  let f := Config.frameAlloc tier ctr / 2 ^ levelShift level * 2 ^ levelShift level
  if level = 3 then f / 2 ^ 21 * 2 ^ 21 + va / 2 ^ 16 % 32 * 2 ^ 16 else f

/-- An extent of a tier lies in the HBM4E of the tables, which no context maps (R60). -/
def inTables (tier f n : Nat) : Bool := tier == 0 && overlaps tablesBase (2 ^ 39 - tablesBase) f n

/-- A valid leaf maps part of an extent of a tier, a page moves there (R71), or it lies in the HBM4E of the tables. -/
def State.frameUsed (s : State) (tier f n : Nat) : Bool :=
  inTables tier f n
    || (s.fw.moves.any fun m => entryTier m.newEntry == tier && overlaps (entryFrame m.newEntry) (2 ^ 16) f n)
    || s.allLeaves.any fun p => entryV p.2.2 && entryTier p.2.2 == tier && overlaps (entryFrame p.2.2) (2 ^ levelShift p.1) f n

/-- The firmware can give a page this frame: memory is left, the frame satisfies R57 and R62, and no leaf maps any of it. -/
def State.frameFree (s : State) (level size va ctr : Nat) (e : Word) (others : List (Nat × Word)) : Bool :=
  Config.allocates ctr && leafOk s.part level va e && !s.frameUsed (entryTier e) (entryFrame e) size
    && !others.any fun p => overlaps (entryFrame p.2) size (entryFrame e) size

/-- The leaves of a MAP, by VA, or why they are refused. A not-present leaf names no frame. -/
def mapLeaves (s : State) (fn level size bits frame ctr : Nat) : Nat → Nat → Except Nat (List (Nat × Word))
  | 0, _ => .ok []
  | n + 1, va =>
    match mapLeaves s fn level size bits (if frame = 0 then 0 else frame + size) (ctr + 1) n (va + size) with
    | .error e => .error e
    | .ok rest =>
      let tier := bits / 8 % 4
      let valid := decide (bits % 2 = 1)
      let e := mapLeaf bits (if frame ≠ 0 then frame else if valid then allocFrame tier level va ctr else frameColour level va)
      if !valid && bits / 2 % 4 ≠ 1 then .error stBadArg
      else if tier = 3 then .error stBadArg
      else if frame = 0 then
        if !valid then (if leafOk s.part level va e then .ok ((va, e) :: rest) else .error stBadArg)
        else if tier = 2 then .error stNoSpace
        else if s.frameFree level size va ctr e rest then .ok ((va, e) :: rest) else .error stNoSpace
      else if frame % 2 ^ 12 ≠ 0 ∨ 2 ^ 52 ≤ frame ∨ !leafOk s.part level va e ∨ (tier = 2 ∧ !Config.dmaPermits fn frame) ∨ inTables tier frame size then .error stBadArg
      else .ok ((va, e) :: rest)

/-- The rest of a change of leaves whose entries have been written and whose probes are on their way (R65): the invalidations follow the probes and
what they write back, and when the stations have reported the change is complete, and what was held is replayed. The phase is the first of two. -/
def finishChange (s : State) (asid : BitVec 16) (va n : Nat) (phase : Nat) (second : Bool) (res : List Word) : Cmd :=
  if !second then (if s.probesOpen asid va n then .again s 8 phase else .again (s.sendInvalidates asid va n) 2 (phase + 1))
  else if s.stationsOpen asid va n then .again s 8 (phase + 1)
  else .done (s.replayRange asid va n) stOk res

/-- MAP. -/
def execMap (fn q : Nat) (s : State) : Out :=
  command 0x12 .context fn q s fun s asid w phase =>
    let va := (w 1).toNat
    let size := (w 2).toNat
    let bits := (w 3).toNat
    let count := (w 5).toNat
    let level := sizeLevel size
    let bytes := count * pageSize size
    if phase ≠ 0 then finishChange s asid va bytes 1 (phase = 2) [w 5]
    else if rangeBad va size count ∨ 256 ≤ bits then refuse s stBadArg
    else if (bits % 2 = 1 ∨ bits / 2 % 4 = 1) ∧ ((bits / 8 % 4 = 2 ∧ !s.feature fn featHostTier) ∨ (bits / 8 % 4 = 1 ∧ !s.feature fn featLpTier)) then refuse s stAbsent
    else if s.rangeMoving asid va bytes then .again s 64 0
    else
      match mapLeaves s fn level (pageSize size) bits (w 4).toNat s.freeCtr count va with
      | .error e => refuse s (if e = stNoSpace ∧ s.rangeBusy asid va bytes level then stBusy else e)
      | .ok leaves =>
        if s.rangeBusy asid va bytes level then refuse s stBusy
        else
          let s := leaves.foldl (fun s p => s.setEntry asid level p.1 p.2) { s with freeCtr := s.freeCtr + count }
          .again (s.sendProbes asid va bytes) 8 1

/-- The VAs of count pages. -/
def pageVas (va size count : Nat) : List Nat := (List.range count).map fun i => va + i * size

/-- UNMAP. -/
def execUnmap (fn q : Nat) (s : State) : Out :=
  command 0x13 .context fn q s fun s asid w phase =>
    let va := (w 1).toNat
    let size := (w 2).toNat
    let np := (w 3).getLsbD 0
    let count := (w 4).toNat
    let level := sizeLevel size
    let bytes := count * pageSize size
    if phase ≠ 0 then finishChange s asid va bytes 1 (phase = 2) []
    else if rangeBad va size count ∨ 2 ≤ (w 3).toNat then refuse s stBadArg
    else if s.rangeMoving asid va bytes then .again s 64 0
    else if s.rangeBusy asid va bytes level then refuse s stBusy
    else if !np && (pageVas va (pageSize size) count).any (fun v => (s.leafAt asid level v).isNone) then refuse s stBadArg
    else
      let s := (pageVas va (pageSize size) count).foldl (fun s v => if np then s.setEntry asid level v (notPresentEntry level v) else s.dropEntry asid level v) s
      .again (s.sendProbes asid va bytes) 8 1

/-! ## Tier moves (R70, R71) -/

/-- A move of a page begins: MIG is set, and the stations forget the old leaf before the first piece is copied. -/
def State.beginMove (s : State) (fn q : Nat) (asid : BitVec 16) (va : Nat) (e new : Word) : State :=
  let m : Move := { asid := asid, va := va, oldEntry := e, newEntry := new, current := 0, copying := false, waiting := [], fn := fn, q := q }
  let s := (s.setEntry asid 3 va (putBit e 7 true)).sendProbes asid va (2 ^ 16)
  { s with freeCtr := s.freeCtr + 1, fw := { s.fw with moves := s.fw.moves ++ [m] } }

/-- PAGE_MOVE. Phases 1 and 2 are steps 2 and 3 of R65 for MIG, after which the copies start; phase 3 waits for the last piece; phases 4 and 5 are the
steps for the new leaf. -/
def execPageMove (fn q : Nat) (s : State) : Out :=
  command 0x14 .context fn q s fun s asid w phase =>
    let va := (w 1).toNat
    let tier := (w 2).toNat
    let mine (m : Move) : Bool := m.fn * 8 + m.q == fn * 8 + q
    if phase = 0 then
      match s.leafAt asid 3 va with
      | none => refuse s stBadArg
      | some e =>
        if va % 2 ^ 16 ≠ 0 ∨ 2 ^ 48 ≤ va ∨ 2 ≤ tier ∨ !entryV e ∨ 2 ≤ entryTier e then refuse s stBadArg
        else if tier = 1 ∧ !s.feature fn featLpTier then refuse s stAbsent
        else if s.rangeMoving asid va (2 ^ 16) then .again s 64 0
        else if tier = entryTier e then ok s
        else
          let new := mapLeaf ((setBits e 3 2 tier).toNat % 128) (allocFrame tier 3 va s.freeCtr)
          if !s.frameFree 3 (2 ^ 16) va s.freeCtr new [] then refuse s stNoSpace
          else .again (s.beginMove fn q asid va e new) 8 1
    else if phase = 1 then (if s.probesOpen asid va (2 ^ 16) then .again s 8 1 else .again (s.sendInvalidates asid va (2 ^ 16)) 2 2)
    else if phase = 2 then
      if s.stationsOpen asid va (2 ^ 16) then .again s 8 2 else .again (s.addWork 1 (.tierPieceCopy (fn * 8 + q))) 64 3
    else if phase = 3 then
      match s.fw.moves.find? mine with
      | none => ok s
      | some m => if m.current < 16 then .again s 64 3 else .again ((s.setEntry asid 3 va m.newEntry).sendProbes asid va (2 ^ 16)) 8 4
    else if phase = 4 then (if s.probesOpen asid va (2 ^ 16) then .again s 8 4 else .again (s.sendInvalidates asid va (2 ^ 16)) 2 5)
    else if s.stationsOpen asid va (2 ^ 16) then .again s 8 5
    else ok ({ s with fw := { s.fw with moves := s.fw.moves.filter fun m => !mine m } }.replayRange asid va (2 ^ 16))

/-! ## Block owners and copies -/

/-- The function may not name an owner of a block, or take the block from the live context that has it (R459). -/
def State.blockForeign (s : State) (fn : Nat) (old o : BlockOwner) : Bool :=
  ((o.v || o.owner != 0) && !s.owns fn o.owner) || (!o.v && old.v && (s.context? old.owner).isSome && !s.owns fn old.owner)

/-- BLOCK_SET (R19, R22). -/
def execBlockSet (fn q : Nat) (s : State) : Out :=
  command 0x15 .context fn q s fun s _ w _ =>
    let a := w 1
    let e := w 3
    let cl := bitsOf a 6 5
    let block := (w 2).toNat
    let o : BlockOwner := ⟨e.getLsbD 31, e.getLsbD 30, e.setWidth 16⟩
    let old := (s.cluster cl).owner block
    if bitsOf a 11 45 ≠ 0 ∨ bitsOf a 0 6 ≠ 0 ∨ 256 ≤ block ∨ bitsOf e 16 14 ≠ 0 ∨ bitsOf e 32 32 ≠ 0 then refuse s stBadArg
    else if bitsOf a 56 8 ≠ s.device.toNat then refuse s (if s.feature fn featFabric then stBadArg else stAbsent)
    else if s.blockForeign fn old o then refuse s stNoCtx
    else if o.v && old.v && old.owner != o.owner then refuse s stBusy
    else if s.blockInUse cl block then .again s 8 0
    else ok (s.setBlockOwner cl block o)

/-- Copies n words between the host and a context's space; a device-side write is performed at its home slice. -/
def copyHost (asid : BitVec 16) (toHost : Bool) (host va : Nat) : Nat → State → State
  | 0, s => s
  | n + 1, s =>
    let s := copyHost asid toHost host va n s
    match s.placeOf asid (va + 8 * n) toHost (!toHost) with
    | none => s
    | some pa => if toHost then s.hostWrite64 (host + 8 * n) (s.phys64 pa) else s.physWrite64 pa (s.host64 (host + 8 * n))

/-- The bytes of a word that lie in a range. -/
def bytesIn (va n a : Nat) : List Nat := (List.range 8).filter fun i => decide (va ≤ a + i) && decide (a + i < va + n)

/-- Copies n bytes between the host and a context's space, word by word of that space. -/
def copyBytes (asid : BitVec 16) (toHost : Bool) (host va n : Nat) : Nat → State → State
  | 0, s => s
  | j + 1, s =>
    let s := copyBytes asid toHost host va n j s
    let a := va / 8 * 8 + 8 * j
    let is := bytesIn va n a
    match s.placeOf asid a toHost (!toHost) with
    | none => s
    | some pa =>
      if toHost then is.foldl (fun s i => s.hostBytes (host + (a + i - va)) [Mem.read s.mem.phys (pa + i)]) s
      else
        let mask := is.foldl (fun m i => m + 2 ^ (pa % 64 + i)) 0
        let d := is.foldl (fun d i => d + (Mem.read s.mem.phys (hostAddr (host + (a + i - va)))).toNat * 2 ^ (8 * (pa % 64 + i))) 0
        s.physWrite pa (BitVec.ofNat 64 mask) (BitVec.ofNat 512 d)

/-- A word of a range is reserved: a write to it waits (R131). -/
def State.spanReserved (s : State) (asid : BitVec 16) (va n : Nat) : Bool :=
  s.net.stations.any fun p => p.2.rsv.any fun w => w.holder.isSome &&
    (List.range ((va % 8 + n + 7) / 8)).any fun j => s.placeOf asid (va / 8 * 8 + 8 * j) false true == some w.pa

/-- MEM_COPY. -/
def execMemCopy (fn q : Nat) (s : State) : Out :=
  command 0x16 .context fn q s fun s asid w _ =>
    let toHost := (w 1).getLsbD 0
    let va := (w 3).toNat
    let n := (w 4).toNat
    if 2 ≤ (w 1).toNat ∨ n < 8 ∨ 2 ^ 32 < n ∨ n % 8 ≠ 0 then refuse s stBadArg
    else
      match s.span asid va n toHost (!toHost) with
      | .bad a => .done s stFault [BitVec.ofNat 64 a]
      | .wait => .again s 8 0
      | .ok =>
        match (if toHost then s.vaPoison asid va n else none) with
        | some a => .done s stEcc [BitVec.ofNat 64 a]
        | none =>
          if !toHost && s.spanReserved asid va n then .again s 8 0
          else
            .done (if va % 8 = 0 then copyHost asid toHost (w 2).toNat va (n / 8) s
              else copyBytes asid toHost (w 2).toNat va n (n / 8 + 1) s) stOk [w 4]

end Sys2Proof.Machine
end

