-- ==== Sys2Proof/Machine/Commands.lean ====
section
/-!
DEFINITION. The firmware commands of R462 for queues and launch headers (R177, R178), scopes, boards, indexes (R80 to R82, R464), graphs (R389), the
cancellation of jobs (R390) and the DEBUG group (R413 to R415).
-/

namespace Sys2Proof.Machine

/-! ## Launch headers (R177, R178) -/

/-- Levels 1 to 6 with their unit codes, the bound ones in rising order. -/
def boundLevels (h : Nat → Word) : List (Nat × Nat) :=
  ([1, 2, 3, 4, 5, 6].map fun v => (v, bindCode (bitsOf (h 7) 0 18) v)).filter fun p => p.2 != 0

/-- The largest group that a unit holds (R176); package has no limit. -/
def unitThreads (code : Nat) : Option Nat := match code with
  | 1 => some 8
  | 2 => some 64
  | 3 => some 256
  | 4 => some 1024
  | 5 => some 4096
  | 6 => some 32768
  | _ => none

/-- Threads of a level-L group. -/
def groupSize (h : Nat → Word) (level : Nat) : Nat := (List.range level).foldl (fun a j => a * (h (1 + j)).toNat) 1

/-- Unit codes that fall with rising level. -/
def shrinks : List (Nat × Nat) → Bool
  | a :: b :: rest => decide (b.2 < a.2) || shrinks (b :: rest)
  | _ => false

/-- A reserved bit of a header is set (R177). -/
def headerReserved (h : Nat → Word) : Bool :=
  bitsOf (h 0) 42 22 != 0 || bitsOf (h 7) 25 39 != 0 || bitsOf (h 8) 61 3 != 0 || bitsOf (h 14) 32 32 != 0 || bitsOf (h 15) 4 60 != 0
    || bitsOf (h 18) 32 32 != 0 || (List.range 13).any fun j => h (19 + j) != 0

/-- The widths or an extent are out of their range (R177, R178). -/
def headerShapeBad (h : Nat → Word) : Bool :=
  let w0 := bitsOf (h 0) 0 42
  decide (64 < shiftOf w0 6) || (List.range 6).any fun j => decide ((h (1 + j)).toNat = 0) || decide (2 ^ widthOf w0 j < (h (1 + j)).toNat)

/-- R178, apart from the core list's own entries. -/
def headerBad (h : Nat → Word) : Bool :=
  let kind := bitsOf (h 7) 18 2
  let slots := bitsOf (h 8) 56 5
  headerShapeBad h || headerReserved h || shrinks (boundLevels h)
    || (boundLevels h).any (fun p => ((unitThreads p.2).map fun n => decide (n < groupSize h p.1)).getD false)
    || kind == 3 || (kind == 2 && h 9 == 0) || (h 9 != 0 && h 17 == 0) || (slots != 0 && kind != 1) || decide (16 < slots)
    || (bitsOf (h 15) 0 4 == 3 && bitsOf (h 16) 11 53 != 0) || decide (4 < bitsOf (h 15) 0 4)

/-! ## Queues (R378, R462) -/

/-- A half-word of a context's space. -/
def State.vaHalf (s : State) (asid : BitVec 16) (va : Nat) : Nat := (s.vaByte asid va).toNat + 256 * (s.vaByte asid (va + 1)).toNat

/-- A range is read whole: nothing, or why not. -/
def State.readable (s : State) (asid : BitVec 16) (va n : Nat) : Span :=
  match s.span asid va n true false with
  | .ok => match s.vaPoison asid va n with
    | some a => .bad a
    | none => .ok
  | x => x

/-- The lowest free queue of a station. -/
def State.freeQueue (s : State) (st : Nat) : Option Nat :=
  ((List.range 8192).map (st * 8192 + ·)).find? fun k => !((s.queue? k).map (·.v)).getD false

/-- The record for QUEUE_CREATE: the station named, or any that has one free. -/
def State.placeQueue (s : State) (w : Word) : Option Nat :=
  if w = BitVec.allOnes 64 then
    (s.freeQueue (Config.pickStation s.freeCtr % 16)).orElse fun _ => (List.range 16).findSome? s.freeQueue
  else s.freeQueue w.toNat

/-- The queue that a counter of a die is bound to. -/
def State.counterTaken (s : State) (die : Nat) (ctr : BitVec 12) : Bool := (s.gatedQueue die ctr).isSome

/-- The record of a new queue, from words 1 to 4 of the command. -/
def newQueue (asid : BitVec 16) (w : Nat → Word) (hdr : List Word) (cores : List Nat) : QueueRec :=
  { QueueRec.init with
    v := true
    trig := (w 1).getLsbD 2
    depv := (w 1).getLsbD 3
    depctr := BitVec.ofNat 12 (bitsOf (w 1) 4 12)
    log2n := (w 3).setWidth 5
    prio := (w 1).setWidth 2
    asid := asid
    ring := (w 2).toNat
    template := (w 4).toNat
    hdr := hdr
    coreList := cores }

/-- The queue comes to be, and its counter with it. -/
def State.createQueue (s : State) (key : Nat) (q : QueueRec) : State :=
  let s := { s.setQueue key q with freeCtr := s.freeCtr + 1 }
  if q.depv then s.setDep (queueDep key q) { DepCtr.init with v := true, graph := 4095 } else s

/-- QUEUE_CREATE. -/
def execQueueCreate (fn q : Nat) (s : State) : Out :=
  command 0x20 .context fn q s fun s asid w _ =>
    let va := (w 4).toNat
    let log := (w 3).toNat
    let ring := (w 2).toNat
    let h (j : Nat) : Word := s.vaWord asid (va + 8 * j)
    let named := decide ((w 5).toNat < 16)
    if bitsOf (w 1) 16 48 ≠ 0 ∨ log < 4 ∨ 20 < log ∨ ring % 64 ≠ 0 ∨ 2 ^ 48 ≤ ring ∨ va % 64 ≠ 0 ∨ (!named ∧ w 5 ≠ BitVec.allOnes 64) then refuse s stBadArg
    else
      match s.readable asid va 256 with
      | .bad a => .done s stFault [BitVec.ofNat 64 a]
      | .wait => .again s 8 0
      | .ok =>
        let list := (h 17).toNat
        let n := bitsOf (h 18) 0 16 + bitsOf (h 18) 16 16
        match (if list = 0 then Span.ok else s.readable asid list (2 * n)) with
        | .bad a => .done s stFault [BitVec.ofNat 64 a]
        | .wait => .again s 8 0
        | .ok =>
          let cores := if list = 0 then [] else (List.range n).map fun i => s.vaHalf asid (list + 2 * i)
          let board := (h 9).toNat
          if headerBad h || cores.any (fun c => decide (2047 < c)) then refuse s stBadArg
          else if board ≠ 0 && !(((s.context? asid).map (·.boards)).getD []).contains board then refuse s stBadArg
          else if (h 7).getLsbD 23 && !s.feature fn featDoublet then refuse s stAbsent
          else if bitsOf (h 15) 0 4 = 1 && bitsOf (h 16) 56 8 ≠ s.device.toNat && !s.feature fn featFabric then refuse s stAbsent
          else
            match s.placeQueue (w 5) with
            | none => refuse s stNoSpace
            | some key =>
              let r := newQueue asid w ((List.range 32).map h) cores
              if r.depv && s.counterTaken (queueStation key / 4) r.depctr then refuse s stBusy
              else .done (s.createQueue key r) stOk [s.queueAddress key]

/-- The record that a queue address names, when the context owns it. -/
def State.ownQueue (s : State) (asid : BitVec 16) (a : Word) : Option (Nat × QueueRec) :=
  if bitsOf a 17 47 ≠ s.device.toNat * 2 ^ 39 then none
  else
    match s.queue? (a.toNat % 2 ^ 17) with
    | some q => if q.v && q.asid == asid then some (a.toNat % 2 ^ 17, q) else none
    | none => none

/-- The node table of a version. -/
def Graph.table (g : Graph) (v : Bool) : List Node := if v then g.v1 else g.v0

/-- The nodes of every live replay whose packets go to a queue will not dispatch any more (R389). -/
def State.discardQueue (s : State) (key : Nat) : State :=
  let hit (g : Graph) (r : Replay) (n : Nat) : Bool := (((g.table r.version)[n]?).map fun x => x.queue == key).getD false
  let drop (g : Graph) (r : Replay) : Replay :=
    { r with undispatched := r.undispatched.filter fun n => !hit g r n, toWrite := r.toWrite.filter fun n => !hit g r n }
  { s with disp := { s.disp with graphs := s.disp.graphs.map fun p => (p.1, { p.2 with replays := p.2.replays.map (drop p.2) }) } }

/-- QUEUE_DESTROY: packets still in the ring are never dispatched. -/
def execQueueDestroy (fn q : Nat) (s : State) : Out :=
  command 0x21 .context fn q s fun s asid w _ =>
    match s.ownQueue asid (w 1) with
    | none => refuse s stBadArg
    | some (key, r) =>
      let s := (r.spawned.foldl (fun s p => s.taskGone p.2) s).discardQueue key
      let k := queueDep key r
      let s := if r.depv then s.setDep k { s.dep? k with v := false } else s
      ok (State.forgetJobs { s with
        disp := { s.disp with queues := FMap.erase s.disp.queues key }
        net := { s.net with reqs := s.net.reqs.filter fun p => p.2.op != .ring key } })

/-- QUEUE_SUBMIT: phase 1 follows the record of a page that is not present; a record that cannot be claimed is tried again (R66, R400). -/
def execQueueSubmit (fn q : Nat) (s : State) : Out :=
  command 0x22 .context fn q s fun s asid w phase =>
    let a := w 1
    if bitsOf a 17 39 ≠ 0 then refuse s stBadArg
    else if bitsOf a 56 8 ≠ s.device.toNat then refuse s (if s.feature fn featFabric then stBadArg else stAbsent)
    else
      match s.ownQueue asid a with
      | none => refuse s stBadArg
      | some (key, r) =>
        match s.admitPacket key r ((List.range 8).map fun j => w (8 + j)) none (!r.trig && !r.depv) with
        | .taken s _ => ok s
        | .full => .again s 128 phase
        | .notPresent va =>
          let (s, written) := s.recordPage asid va 1
          .again s 128 (if written then 1 else phase)

/-! ## Scopes and boards (R107, R108, R184) -/

/-- A FENCE or a collective EGO that has read an entry waits at its seat, or a collective operation that has read it is not yet joined (R108). -/
def State.scopeHeld (s : State) (asid : BitVec 16) (n : Nat) : Bool :=
  (s.fab.seats.any fun p =>
    match p.2.occ.bind s.thread? with
    | some t => t.asid == asid && t.park.parked && (match (s.nextWord (coreOf p.1) t).map decode with
      | some (.ok (.fence o)) => o.scope.toNat == n
      | some (.ok (.ego o)) => o.eng == 2 && collScope (t.shadow 2) == n
      | _ => false)
    | none => false)
  || s.fab.engines.any fun p => p.2.committed.any fun o => o.kind == .collective && o.asid == asid && collScope o.fields == n

/-- The image of an entry in a block of host memory. -/
def State.scopeBlock (s : State) (a : Nat) : BitVec 2304 :=
  BitVec.ofNat 2304 ((List.range 36).foldl (fun x j => x + (s.host64 (a + 8 * j)).toNat * 2 ^ (64 * j)) 0)

/-- SCOPE_SET: the entry changes once no instruction that has read the old one is left. -/
def execScopeSet (fn q : Nat) (s : State) : Out :=
  command 0x23 .context fn q s fun s asid w _ =>
    let n := (w 1).toNat
    if n < 8 ∨ 31 < n ∨ 2 ≤ (w 3).toNat then refuse s stBadArg
    else if s.scopeHeld asid n then .again s 8 0
    else
      match s.context? asid with
      | none => refuse s stNoCtx
      | some c =>
        ok (s.setContext asid { c with
          scopes := if (w 3).getLsbD 0 then FMap.erase c.scopes n else FMap.insert c.scopes n (s.scopeBlock (w 2).toNat) })

/-- BOARD_SET: a descriptor that R184 accepts is registered. -/
def execBoardSet (fn q : Nat) (s : State) : Out :=
  command 0x24 .context fn q s fun s asid w _ =>
    let va := (w 1).toNat
    if va % 64 ≠ 0 then refuse s stBadArg
    else
      match s.readable asid va 64 with
      | .bad a => .done s stFault [BitVec.ofNat 64 a]
      | .wait => .again s 8 0
      | .ok =>
        match boardOfWords (fun j => s.vaWord asid (va + 8 * j)) [] 0 0, s.context? asid with
        | some _, some c => ok (s.setContext asid { c with boards := if c.boards.contains va then c.boards else c.boards ++ [va] })
        | _, _ => refuse s stBadArg

/-! ## Indexes (R80 to R82, R464) -/

/-- Size of one entry record (R81). -/
def entryBytes (d b m : Nat) : Nat := 64 * ((32 + d * b + 8 * m + 63) / 64)

/-- A positive FP32 number. -/
def positive32 (x : Nat) : Bool := decide (0 < x) && decide (x ≤ 0x7F800000)

/-- The parameters of an INDEX_CREATE block, or nothing when one is out of its range (R80, R81, R464). -/
def indexOfBlock (asid : BitVec 16) (b : Nat → Word) : Option (Nat × LIndex) :=
  let d := bitsOf (b 0) 16 13
  let fmt := bitsOf (b 0) 32 4
  let metric := bitsOf (b 0) 36 2
  let m := bitsOf (b 1) 0 7
  let bIns := bitsOf (b 1) 16 10
  let sb := bitsOf (b 1) 32 10
  let cap := (b 3).toNat
  let va := (b 4).toNat
  let size := (b 5).toNat
  let half (w i : Nat) : BitVec 32 := BitVec.ofNat 32 (bitsOf (b w) (32 * i) 32)
  let n0 := bitsOf (b 7) 0 7
  let n1 := bitsOf (b 7) 8 7
  let bytes := if fmt = 0 || fmt = 8 then 1 else 2
  let bad := bitsOf (b 0) 12 4 != 0 || bitsOf (b 0) 29 3 != 0 || bitsOf (b 0) 38 26 != 0
    || decide (d < 4) || decide (4096 < d) || d % 4 != 0 || !([0, 4, 5, 8].contains fmt) || metric == 3 || (metric == 2 && fmt == 0)
    || decide (m < 2) || decide (64 < m) || decide (bIns < m) || decide (512 < bIns) || decide (sb < 1) || decide (512 < sb)
    || decide (65536 < (b 2).toNat) || cap == 0 || decide (2 ^ 32 < cap)
    || va % 65536 != 0 || size % 65536 != 0 || decide (2 ^ 48 < va + size) || decide (size < 65536 + cap * entryBytes d bytes m)
    || bitsOf (b 6) 0 32 == 0 || decide (n0 < 1) || decide (64 < n0) || decide (n1 < 1) || decide (64 < n1)
    || bitsOf (b 7) 7 1 != 0 || bitsOf (b 7) 15 49 != 0
    || !positive32 (half 9 0).toNat || !positive32 (half 9 1).toNat
  if bad then none
  else some (bitsOf (b 0) 0 12,
    { asid := asid, dim := d, fmt := BitVec.ofNat 4 fmt, metric := metric, m := m, bIns := bIns, sb := sb, ethr := (b 2).toNat, cap := cap
      storage := va, size := size, srn := bitsOf (b 1) 48 5, clusters := (b 6).setWidth 32, n0 := n0, n1 := n1
      offsets := [half 8 0, half 8 1, half 9 0, half 9 1]
      proj := (List.range (2 * d)).map fun i => half (10 + i / 2) (i % 2)
      entries := [], next := 0, pins := [], implicitPins := [], searches := 0, sampled := 0, samplek := 0, misses := 0, delmiss := 0
      admitted := [], travels := [], reruns := [], graphs := [], destroying := false })

/-- A 64 KiB page of a range is mapped. -/
def State.rangeMapped (s : State) (asid : BitVec 16) (va n : Nat) : Bool :=
  s.rangeBusy asid va n 3
    || (s.leaves asid).any fun p => p.1 == 3 && entryV p.2.2 && overlaps p.2.1 (2 ^ 16) va n

/-- Maps pages for the Ladder alone (R81). -/
def mapStorage (asid : BitVec 16) (leaves : List (Nat × Word)) (s : State) : State :=
  leaves.foldl (fun s p =>
    let s := s.setEntry asid 3 p.1 p.2
    { s with tables := { s.tables with ladder := NSet.add s.tables.ladder (ladderKey asid p.1) } }) s

/-- INDEX_CREATE. Its later phases carry the number of the index that it has made: 1 and 2 beyond twice the number. -/
def execIndexCreate (fn q : Nat) (s : State) : Out :=
  command 0x25 .context fn q s fun s asid w phase =>
    if phase ≠ 0 then
      let n := (phase - 1) / 2
      match s.index? n with
      | none => ok s
      | some ix => finishChange s asid ix.storage ix.size (2 * n + 1) (phase % 2 = 0) []
    else
      match indexOfBlock asid fun j => s.host64 ((w 1).toNat + 8 * j) with
      | none => refuse s stBadArg
      | some (n, ix) =>
        if ix.srn ≠ 0 ∧ !s.feature fn featRecall then refuse s stAbsent
        else if (s.index? n).isSome || s.rangeMapped asid ix.storage ix.size then refuse s stBusy
        else
          let pages := ix.size / 2 ^ 16
          match mapLeaves s fn 3 (2 ^ 16) 7 0 s.freeCtr pages ix.storage with
          | .error _ => refuse { s with freeCtr := s.freeCtr + pages } stNoSpace
          | .ok leaves =>
            let s := mapStorage asid leaves { s.setIndex n ix with freeCtr := s.freeCtr + pages }
            .again (s.sendProbes asid ix.storage ix.size) 8 (2 * n + 1)

/-- Requests that an index has admitted and not answered. -/
def State.indexOpen (s : State) (n : Nat) (ix : LIndex) : Bool :=
  !ix.admitted.isEmpty || s.net.reqs.any fun p => p.2.addr == n && p.2.stage == .waiting && (match p.2.op with
    | .stvec | .ldnear _ _ | .delvec _ | .ixstat _ => true
    | _ => false)

/-- Unmaps n pages of an index's storage. -/
def unmapStorage (asid : BitVec 16) (va : Nat) : Nat → State → State
  | 0, s => s
  | n + 1, s =>
    let s := unmapStorage asid va n s
    let a := va + n * 2 ^ 16
    let s := s.dropEntry asid 3 a
    { s with tables := { s.tables with ladder := NSet.del s.tables.ladder (ladderKey asid a) } }

/-- INDEX_DESTROY (R82). The index goes when the change of its storage is complete; until then it takes no request. -/
def execIndexDestroy (fn q : Nat) (s : State) : Out :=
  command 0x26 .context fn q s fun s asid w phase =>
    let n := (w 1).toNat
    match s.index? n with
    | none => if phase = 0 then refuse s stBadArg else ok s
    | some ix =>
      if phase ≠ 0 then
        match finishChange s asid ix.storage ix.size 1 (phase = 2) [] with
        | .done s st res => .done { s with indexes := FMap.erase s.indexes n } st res
        | c => c
      else if ix.asid ≠ asid then refuse s stBadArg
      else if s.indexOpen n ix then .again (s.setIndex n { ix with destroying := true }) 8 0
      else
        let s := unmapStorage asid ix.storage (ix.size / 2 ^ 16) (s.setIndex n { ix with destroying := true })
        .again (s.sendProbes asid ix.storage ix.size) 8 1

/-! ## Graphs (R389) -/

/-- A node entry of 128 bytes: packet, queue address, predecessors, successor. -/
def nodeOf (rd : Nat → Word) : Word × Node :=
  (rd 8, { packet := (List.range 8).map rd, queue := (rd 8).toNat % 2 ^ 17, preds := (rd 9).setWidth 32, succ := (rd 10).setWidth 16 })

/-- The queue of a node of a table, when the context owns it. -/
def State.nodeQueue (s : State) (asid : BitVec 16) (a : Word) : Option QueueRec := (s.ownQueue asid a).map (·.2)

/-- The successor's counter stands in the packet's DEPCTR; without a successor the packet decrements none. -/
def linkNode (qs : List (Nat × QueueRec)) (n : Node) : Node :=
  let w := n.packet.getD 0 0
  let w := if n.succ = 0xFFFF then putBit w 60 false
    else match qs[n.succ.toNat]? with
      | some (_, r) => putBit (setBits w 48 12 r.depctr.toNat) 60 true
      | none => putBit w 60 false
  { n with packet := w :: n.packet.drop 1 }

/-- A node can stand in a table with these queues: a node that awaits others has a counter, and so has its successor, on the same die. -/
def nodeGood (qs : List (Nat × QueueRec)) (i : Nat) (n : Node) : Bool :=
  match qs[i]? with
  | none => false
  | some (key, r) =>
    (n.preds == 0 || r.depv)
      && (n.succ == 0xFFFF || (match qs[n.succ.toNat]? with
        | some (k, r') => r'.depv && queueStation k / 4 == queueStation key / 4
        | none => false))

/-- Two nodes of a table have one counter. -/
def sharesCounter : List (Nat × QueueRec) → Bool
  | [] => false
  | (k, r) :: rest => (r.depv && rest.any fun p => p.1 == k) || sharesCounter rest

/-- A node table with its checks and links, or nothing. -/
def graphTable (s : State) (asid : BitVec 16) (nodes : List (Word × Node)) : Option (List Node) :=
  let qs := nodes.filterMap fun p => s.ownQueue asid p.1
  if qs.length ≠ nodes.length || sharesCounter qs then none
  else if (List.range nodes.length).all fun i => ((nodes[i]?).map fun p => nodeGood qs i p.2).getD false then
    some (nodes.map fun p => linkNode qs p.2)
  else none

def State.graph? (s : State) (n : Nat) (asid : BitVec 16) : Option Graph :=
  match FMap.find? s.disp.graphs n with
  | some g => if g.asid == asid then some g else none
  | none => none
def State.setGraph (s : State) (n : Nat) (g : Graph) : State := { s with disp := { s.disp with graphs := FMap.insert s.disp.graphs n g } }

/-- The 128-byte entry i of a table in host memory. -/
def State.nodeEntry (s : State) (a i : Nat) : Word × Node := nodeOf fun j => s.host64 (a + 128 * i + 8 * j)

/-- GRAPH_CREATE. -/
def execGraphCreate (fn q : Nat) (s : State) : Out :=
  command 0x30 .context fn q s fun s asid w _ =>
    let n := (w 1).toNat
    let count := (w 2).toNat
    if 4094 < n ∨ count < 1 ∨ 4096 < count then refuse s stBadArg
    else if (FMap.find? s.disp.graphs n).isSome then refuse s stBusy
    else
      match graphTable s asid ((List.range count).map (s.nodeEntry (w 3).toNat)) with
      | none => refuse s stBadArg
      | some nodes => ok (s.setGraph n { asid := asid, v0 := nodes, v1 := nodes, cur := false, replays := [] })

def Graph.setTable (g : Graph) (v : Bool) (t : List Node) : Graph := if v then { g with v1 := t } else { g with v0 := t }
/-- LIVE of a version. -/
def Graph.liveOf (g : Graph) (v : Bool) : Nat := (g.replays.filter fun r => r.version == v && !r.undispatched.isEmpty).length

/-- GRAPH_PATCH: the current version is written, or the other one becomes current; with both live it waits. -/
def execGraphPatch (fn q : Nat) (s : State) : Out :=
  command 0x31 .context fn q s fun s asid w _ =>
    let n := (w 1).toNat
    let i := (w 2).toNat
    match s.graph? n asid with
    | none => refuse s stBadArg
    | some g =>
      let cur := (g.table g.cur).map fun x => (s.queueAddress x.queue, x)
      if cur.length ≤ i then refuse s stBadArg
      else
        match graphTable s asid (listSet cur i (s.nodeEntry (w 3).toNat 0)) with
        | none => refuse s stBadArg
        | some nodes =>
          if g.liveOf g.cur = 0 then ok (s.setGraph n (g.setTable g.cur nodes))
          else if g.liveOf (!g.cur) = 0 then ok (s.setGraph n { g.setTable (!g.cur) nodes with cur := !g.cur })
          else .again s 64 0

/-- Sets the counters of a replay's nodes. -/
def startCounters (graph : Nat) : Nat → List Node → State → State
  | _, [], s => s
  | i, n :: rest, s =>
    let s := match s.queue? n.queue with
      | some r =>
        if r.depv then
          let k := queueDep n.queue r
          s.setDep k { s.dep? k with v := true, graph := BitVec.ofNat 12 graph, node := BitVec.ofNat 16 i, reload := n.preds, count := n.preds }
        else s
      | none => s
    startCounters graph (i + 1) rest s

def State.modReplay (s : State) (n cmd : Nat) (f : Replay → Replay) : State :=
  match FMap.find? s.disp.graphs n with
  | some g => s.setGraph n { g with replays := g.replays.map fun r => if r.cmd = cmd then f r else r }
  | none => s

/-- Writes the packet of a node of a replay. A packet that its station drops, or whose queue is gone, is discarded. -/
def writeNode (n cmd node : Nat) (x : Node) (asid : BitVec 16) (s : State) : State :=
  let discard (s : State) : State := s.modReplay n cmd fun r =>
    { r with toWrite := r.toWrite.filter (· != node), undispatched := r.undispatched.filter (· != node) }
  match s.queue? x.queue with
  | none => discard s
  | some r =>
    if !r.v || r.asid != asid then discard s
    else
      match s.admitPacket x.queue r x.packet none true with
      | .taken s (some i) =>
        s.modReplay n cmd fun r => { r with toWrite := r.toWrite.filter (· != node), written := r.written ++ [(node, x.queue, i)] }
      | .taken s none => discard s
      | _ => s

/-- GRAPH_REPLAY: phase 0 starts the replay, then the packets of ready nodes are written until none is left to dispatch. -/
def execGraphReplay (fn q : Nat) (s : State) : Out :=
  command 0x32 .context fn q s fun s asid w phase =>
    let n := (w 1).toNat
    let cmd := fn * 8 + q
    match s.graph? n asid with
    | none => refuse s stBadArg
    | some g =>
      let s := if phase ≠ 0 then s
        else
          let t := g.table g.cur
          let all := List.range t.length
          let roots := all.filter fun i => ((t[i]?).map fun x => x.preds == 0).getD false
          let s := startCounters n 0 t s
          s.setGraph n { g with replays := g.replays ++ [⟨g.cur, all, roots, [], none, cmd⟩] }
      match (s.graph? n asid).bind fun g => g.replays.find? fun r => r.cmd == cmd with
      | none => ok s
      | some r =>
        let t := g.table r.version
        let s := r.toWrite.foldl (fun s i => match t[i]? with
          | some x => writeNode n cmd i x asid s
          | none => s) s
        match (s.graph? n asid).bind fun g => (g.replays.find? fun r => r.cmd == cmd).map fun r => (g, r) with
        | none => ok s
        | some (g, r) =>
          if r.undispatched.isEmpty || r.aborted.isSome then
            let s := s.setGraph n { g with replays := g.replays.filter fun r => r.cmd != cmd }
            match r.aborted with
            | some node => .done s stEcc [BitVec.ofNat 64 node]
            | none => ok s
          else .again s 128 1

/-! ## Cancellation (R390) -/

/-- The broadcast of a cancel goes to every station, and to every core that holds a context of the job. -/
def State.broadcastCancel (s : State) (job : BitVec 32) : State :=
  let cores := (s.fab.threads.filter fun p => p.2.sys.job.setWidth 32 == job).foldl (fun l p => NSet.add l (s.homeCore p.2)) []
  let s := (List.range 16).foldl (fun s k => s.addWork 8 (.cancelBroadcast job.toNat k)) s
  cores.foldl (fun s c => s.addWork 8 (.cancelBroadcast job.toNat (16 + c))) s

/-- A broadcast of a job's cancel has yet to reach a destination. -/
def State.broadcasting (s : State) (job : Nat) : Bool := s.work.any fun w => match w.ev with
  | .cancelBroadcast j _ => j == job
  | _ => false

/-- The cancelled-job set of a station has no room for a job: those whose broadcasts are on their way count. -/
def State.cancelFull (s : State) (st : Nat) (job : BitVec 32) : Bool :=
  let d := (s.disp? st).cancelled
  let coming := s.work.filter fun w => match w.ev with
    | .cancelBroadcast j k => k == st && !d.contains (BitVec.ofNat 32 j)
    | _ => false
  decide (1024 ≤ d.length + coming.length) && !d.contains job

/-- JOB_CANCEL completes when its broadcasts have reached every station and core (R167). -/
def execJobCancel (fn q : Nat) (s : State) : Out :=
  command 0x33 .context fn q s fun s _ w phase =>
    let job : BitVec 32 := (w 1).setWidth 32
    if (w 1).toNat ≠ job.toNat then refuse s stBadArg
    else if phase ≠ 0 then (if s.broadcasting job.toNat then .again s 8 1 else ok s)
    else if (List.range 16).any fun k => s.cancelFull k job then .again s 64 0
    else
      let s := { s with fw := { s.fw with
        cancels := (s.fw.cancels.filter fun (c : BitVec 32 × Nat) => c.1 != job) ++ [(job, s.cycle + (w 2).toNat * 1024)] } }
      .again (s.broadcastCancel job) 8 1

/-! ## DEBUG (R413 to R415) -/

/-- Who a debug command is for. -/
inductive Target where
  | seat (n uid : Nat) (t : Thread)
  | refused (status : Nat)

/-- The seat of word 1: bits [13:3] the package core, [2:0] the seat. It holds a thread of the context. -/
def State.debugSeat (s : State) (fn : Nat) (asid : BitVec 16) (w : Word) : Target :=
  if !s.feature fn featDebug then .refused stAbsent
  else if !((s.context? asid).map (·.debug)).getD false then .refused stPriv
  else if 16384 ≤ w.toNat then .refused stBadArg
  else
    match (s.seat w.toNat).occ with
    | none => .refused stNoCtx
    | some uid =>
      match s.thread? uid with
      | some t => if t.asid == asid then .seat w.toNat uid t else .refused stNoCtx
      | none => .refused stNoCtx

/-- A debug command on a seat. -/
def debugCommand (op fn q : Nat) (s : State) (body : State → Nat → Nat → Thread → (Nat → Word) → Cmd) : Out :=
  command op .context fn q s fun s asid w _ =>
    match s.debugSeat fn asid (w 1) with
    | .refused st => refuse s st
    | .seat n uid t => body s n uid t w

/-- HALT: the seat issues no more, of a doublet both; its timer and WAITED stop. -/
def execDebugHalt (fn q : Nat) (s : State) : Out :=
  debugCommand 0x40 fn q s fun s n uid t _ =>
    if (s.seat n).dbgHalt then ok s
    else
      let s := (s.pairOf (s.primaryOf n)).foldl (fun s k => s.modSeat k fun x => { x.tick s.cycle (timerRuns t) with dbgHalt := true }) s
      ok (s.modThread uid fun t => { t with park := t.park.pause s.cycle })

/-- RESUME. A seat that HALT has stopped resumes too (R361). -/
def execDebugResume (fn q : Nat) (s : State) : Out :=
  debugCommand 0x41 fn q s fun s n uid t _ =>
    if !(s.seat n).dbgHalt && !(s.seat n).halt then ok s
    else
      let s := (s.pairOf (s.primaryOf n)).foldl (fun s k =>
        s.modSeat k fun x => { x.tick s.cycle (timerRuns t) with dbgHalt := false, halt := false }) s
      ok (s.modThread uid fun t => { t with park := t.park.resume s.cycle })

/-- A debugger's register number: 0 to 23 g, 40 pw, 64 PC, 256 + n CSR n. -/
inductive DebugReg where
  | g (n : Nat)
  | pw
  | pc
  | csr (n : Nat)

def debugReg (w : Word) : Option DebugReg :=
  let n := w.toNat
  if n < 24 then some (.g n)
  else if n = 40 then some .pw
  else if n = 64 then some .pc
  else if 256 ≤ n ∧ n < 384 ∧ csrAssigned (BitVec.ofNat 7 (n - 256)) then some (.csr (n - 256))
  else none

/-- REGREAD: the register as it stands. -/
def execDebugRegread (fn q : Nat) (s : State) : Out :=
  debugCommand 0x42 fn q s fun s n _ t w =>
    match debugReg (w 2) with
    | none => refuse s stBadArg
    | some (.g k) => .done s stOk [vget t.regs.g k 0]
    | some .pw => .done s stOk [t.regs.pw]
    | some .pc => .done s stOk [t.regs.pc]
    | some (.csr k) => .done s stOk [csrRead s n t k]

/-- A fill of a register that the debugger has written is discarded (R415). -/
def Thread.staleG (t : Thread) (k : Nat) : Thread :=
  { t with owed := t.owed.map fun (o : Owed) => if o.dest = .g k then { o with stale := true } else o }

/-- A debugger has written PC or FRAMEST: the frame that they name is captured again. -/
def Thread.debugFrame (t : Thread) : Thread := { t with frame := pendingFrame t.sys t.regs.pc }

/-- REGWRITE. -/
def execDebugRegwrite (fn q : Nat) (s : State) : Out :=
  debugCommand 0x43 fn q s fun s n uid _ w =>
    match debugReg (w 2) with
    | none => refuse s stBadArg
    | some (.g k) => ok (s.modThread uid fun t => { t.staleG k with regs := t.regs.put k (w 3) })
    | some .pw => ok (s.modThread uid fun t => { t with regs := { t.regs with pw := pwOf (w 3), pwPoison := none } })
    | some .pc => ok (s.modThread uid fun t => Thread.debugFrame { t with regs := { t.regs with pc := w 3 &&& 0xFFFF_FFFF_FFFC } })
    | some (.csr k) =>
      let s := csrWrite s n uid k (w 3) (w 3)
      ok (if k = 0x15 then s.modThread uid Thread.debugFrame else s)

/-- The place of an extent of a seat's segment. -/
def debugExtent (x : Seat) (o : Word) (n : Nat) : Except Word Nat :=
  match checkExtent x.lbase.toNat x.segLen o n with
  | .ok p => .ok p
  | .trap _ _ v => .error v

/-- LOCALREAD: bytes of the segment go to host memory. -/
def execDebugLocalread (fn q : Nat) (s : State) : Out :=
  debugCommand 0x44 fn q s fun s n _ _ w =>
    let cl := clusterOf (coreOf n)
    let len := (w 4).toNat
    match debugExtent (s.seat n) (w 2) len with
    | .error v => .done s stFault [v]
    | .ok p =>
      match s.firstPoison cl p len with
      | some o => .done s stEcc [BitVec.ofNat 64 o - (s.seat n).lbase]
      | none => ok (s.hostBytes (w 3).toNat ((List.range len).map fun i => Mem.read s.mem.spad (spadAddr cl (p + i))))

/-- Writes bytes of a cluster from an offset. -/
def writeLocalBytes (cl off : Nat) : List Byte → State → State
  | [], s => s
  | b :: rest, s =>
    let mask : BitVec 8 := BitVec.ofNat 8 (2 ^ (off % 8))
    writeLocalBytes cl (off + 1) rest (s.localWrite cl off mask (BitVec.ofNat 64 (b.toNat * 2 ^ (8 * (off % 8)))))

/-- LOCALWRITE: bytes of host memory go to the segment; the full/empty bits stay. A word written whole sheds its poison. -/
def execDebugLocalwrite (fn q : Nat) (s : State) : Out :=
  debugCommand 0x45 fn q s fun s n _ _ w =>
    let cl := clusterOf (coreOf n)
    let len := (w 4).toNat
    match debugExtent (s.seat n) (w 2) len with
    | .error v => .done s stFault [v]
    | .ok p =>
      let s := writeLocalBytes cl p (s.hostRead (w 3).toNat len) s
      ok ((List.range ((len + 7) / 8)).foldl (fun s j =>
        let o := (p + 7) / 8 * 8 + 8 * j
        if o + 8 ≤ p + len then s.setLocalPoison cl o false else s) s)

/-- Arms or disarms the break-halts of a context (R362). -/
def armBreak (op fn q : Nat) (on : Bool) (s : State) : Out :=
  debugCommand op fn q s fun s _ _ t _ =>
    match s.context? t.asid with
    | some c => ok (s.setContext t.asid { c with breakArmed := on })
    | none => refuse s stNoCtx

/-- BREAKARM. -/
def execDebugBreakarm (fn q : Nat) (s : State) : Out := armBreak 0x46 fn q true s
/-- BREAKOFF. -/
def execDebugBreakoff (fn q : Nat) (s : State) : Out := armBreak 0x47 fn q false s

end Sys2Proof.Machine
end

