-- ==== Sys2Proof/Machine/SoftError.lean ====
section
/-!
DEFINITION. Soft errors (R406 to R408), in queue state (R392, R393) and at combining points (R142): what an error does to the array that holds it.
-/

namespace Sys2Proof.Machine

/-- A change of the thread on a seat. -/
def State.onSeat (s : State) (seat : Nat) (f : Thread → Thread) : State :=
  match (s.seat seat).occ with
  | some uid => s.modThread uid f
  | none => s

/-- A damaged near-cache word: a line that holds no dirty byte is discarded; one whose damaged word is dirty is written back, that word as poison;
otherwise the word is marked (R69, R407), which DESIGN CHOICE (log entry 73) counts as a use of the line. -/
def State.damageNear (s : State) (cl : Nat) (asid : BitVec 16) (va : Nat) : State :=
  match s.ncFind cl asid va with
  | none => s
  | some l =>
    let j := va % 64 / 8
    if l.dirty = 0 then s.ncDrop cl asid va
    else if (maskWords l.dirty).getLsbD j then (s.ncDrop cl asid va).sendWriteBackOf cl l none (BitVec.ofNat 8 (2 ^ j))
    else s.ncPut cl { l with poison := putBit l.poison j true }

/-- A context in a run queue is lost: a fatal record, and the thread counts as exited. The specification gives its record no subcode. -/
def State.loseContext (s : State) (core uid : Nat) : State :=
  match s.thread? uid with
  | none => s
  | some t =>
    let s := s.modCore core fun c => { c with runq := c.runq.filter fun e => e.uid != uid }
    let s := (s.faultRecord t.asid ⟨3, 0x10, Config.openSub 0x10, 2, t.regs.pc.toNat, t.launch, core, t.regs.wid⟩).1
    (s.modThread uid fun t => { t with loc := .gone }).reap uid

/-- A queue stops, with a record whose DETAIL is all ones (R392). -/
def State.stopQueue (s : State) (key : Nat) (q : QueueRec) : State :=
  (s.setQueue key { q with stopped := true }).queueRecord key q 0x10 0x06 (BitVec.allOnes 64)

/-- Packets of a replay that are written and not yet dispatched never dispatch (R393). -/
def dropWritten (s : State) (r : Replay) : State :=
  r.written.foldl (fun s w =>
    if r.undispatched.contains w.1 then
      match s.queue? w.2.1 with
      | some q => s.setQueue w.2.1 { q with dropped := q.dropped ++ [w.2.2] }
      | none => s
    else s) s

/-- The node of a replay's version stands in a queue that a counter gates. -/
def State.holdsCounter (s : State) (g : Graph) (node k : Nat) (r : Replay) : Bool :=
  match ((g.table r.version)[node]?).bind fun x => (s.queue? x.queue).map fun q => (x.queue, q) with
  | some (key, q) => q.depv && queueDep key q == k
  | none => false

/-- The latest replay of a graph that holds a counter and still has nodes to dispatch is aborted. -/
def abortLast (holds : Replay → Bool) (node : Nat) : List Replay → Option (Replay × List Replay)
  | [] => none
  | r :: rest =>
    match abortLast holds node rest with
    | some (x, rest') => some (x, r :: rest')
    | none =>
      if r.undispatched.isEmpty || !holds r then none
      else some (r, { r with undispatched := [], toWrite := [], aborted := some node } :: rest)

/-- A damaged dependence counter (R393). -/
def State.damageCounter (s : State) (die : Nat) (ctr : BitVec 12) : State :=
  let k := depKey die ctr
  let d := s.dep? k
  if !d.v then s
  else if d.graph = 4095 then
    match s.gatedQueue die ctr with
    | some (key, q) => s.stopQueue key q
    | none => s
  else
    let s := s.setDep k { d with v := false }
    match (FMap.find? s.disp.graphs d.graph.toNat).bind fun g => (abortLast (s.holdsCounter g d.node.toNat k) d.node.toNat g.replays).map fun p => (g, p) with
    | none => s
    | some (g, r, rs) =>
      ((dropWritten s r).setGraph d.graph.toNat { g with replays := rs }).addWork 1 (.graphReplay (r.cmd / 8) (r.cmd % 8))

/-- An uncorrectable error at a combining point: in one of its records, or, past them, in the entry itself, which loses nothing that a requester is told and
is only reported (R142; log entry 104). -/
def State.damageHoist (s : State) (entry pos : Nat) : State :=
  match FMap.find? s.net.combs entry with
  | none => s
  | some e =>
    (match e.recs[pos]? with
      | none => s
      | some r => s.setComb entry { e with recs := listSet e.recs pos { r with damaged := true } }).machineCheck e.place e.va e.asid

/-- SOFT_ERROR. -/
def execSoftError (err : SoftErr) (s : State) : Out :=
  .next (match err with
    | .corrected seat => s.countEv seat 15 1
    | .scratchpad cl off => if cl < 32 ∧ off < 2 ^ 24 then s.setLocalPoison cl off true else s
    | .gReg seat n => if n < 24 then s.onSeat seat fun t => { t with regs := t.regs.poison n (poisonRec 0x10 0x02 n) } else s
    | .vReg seat n => if n < 16 then s.onSeat seat fun t => { t with vec := t.vec.poison n (poisonRec 0x10 0x02 n) } else s
    | .pwReg seat => s.onSeat seat fun t => { t with regs := { t.regs with pwPoison := some (poisonRec 0x10 0x02 40) } }
    | .home tier pa =>
      if tier < 2 ∧ pa < 2 ^ 52 then { s with mem := { s.mem with physPoison := NSet.add s.mem.physPoison ((tier * 2 ^ 52 + pa) / 8) } } else s
    | .nearCache cl asid va => s.damageNear cl asid va
    | .ladderEntry n ord =>
      match s.index? n with
      | some ix => s.setIndex n { ix with entries := FMap.modify ix.entries ord fun e => { e with damaged := true } }
      | none => s
    | .weightSlot tile n =>
      s.modTile tile fun x => { x with slots := vset x.slots n ⟨(vget x.slots n ⟨none⟩).content.map fun r => { r with damaged := true }⟩ }
    | .contextCache core pos =>
      match (s.core core).runq[pos]? with
      | some e => s.loseContext core e.uid
      | none => s
    | .icacheLine core asid va =>
      s.modCore core fun c => { c with icache := c.icache.filter fun l => !(l.asid == asid && l.va == lineOf va) }
    | .translation st asid va =>
      s.modStation st fun x => { x with tcache := x.tcache.filter fun e => !(e.asid == asid && e.page == va / 2 ^ levelShift e.level) }
    | .headCache key =>
      match s.queue? key with
      | some q => if q.headPacket.isNone then s else (s.dropHead key q 0x10 0x06).addWork 1 (.ringPacketFetch key)
      | none => s
    | .queueRecord key =>
      match s.queue? key with
      | some q => s.stopQueue key q
      | none => s
    | .depCounter die ctr => s.damageCounter die (BitVec.ofNat 12 ctr)
    | .hoistRecord entry pos => s.damageHoist entry pos)

end Sys2Proof.Machine
end

