-- ==== Sys2Proof/Machine/Undefined.lean ====
section
/-!
DEFINITION. The issue of a word that is no instruction (R223, R243, R245).
-/

namespace Sys2Proof.Machine

/-- The word that XVAL holds: inside a frame the captured one (R229). -/
def badWord (w : BitVec 32) (t : Thread) : Word :=
  match t.inFrame, t.frame with
  | true, some fr => (fr.words.getD (frameIndex t.sys.framest) 0).setWidth 64
  | _, _ => w.setWidth 64

/-- The state after a seat has tried to issue a word that the decoder refuses. Its guard is read first; the all-ones word traps whatever its guard (R245). -/
def refuseWord (w : BitVec 32) (e : DecodeError) (s : State) (seat uid : Nat) (t : Thread) : State :=
  let g := guardOf w
  let illegal := takeTrap s seat uid 0x01 e.subcode (badWord w t)
  if w = BitVec.allOnes 32 then illegal
  else
    match (if g = 0 then Test.pass else testPoisonG t 40) with
    | .trap c b v => takeTrap s seat uid c b v
    | _ => if t.pred g.toNat then illegal else retire s seat uid

/-- An unassigned encoding traps ILLOP when its guard is true, and retires otherwise. A word that the decoder accepts is no such encoding, and
nothing happens. -/
def execUnassignedEncoding (w : BitVec 32) (s : State) : Out :=
  match decode w with
  | .ok _ => .next s
  | .error e =>
    match (s.seat s.cur).occ with
    | none => .fault (.emptySeat s.cur)
    | some uid =>
      match s.thread? uid with
      | none => .fault (.emptySeat s.cur)
      | some t => .next (refuseWord w e s s.cur uid t)

end Sys2Proof.Machine
end

