-- ==== Sys2Proof/Machine/Dispatch.lean ====
section
/-!
DEFINITION. The dispatch of every instruction and every event to its meaning.
-/

namespace Sys2Proof.Machine

/-- One arm for each constructor. -/
def exec (i : Instr) (s : State) : Host.Outcome State Fault Refusal :=
  match i with
  | .add o => Sys2Proof.Machine.execAdd o s
  | .sub o => Sys2Proof.Machine.execSub o s
  | .and o => Sys2Proof.Machine.execAnd o s
  | .or o => Sys2Proof.Machine.execOr o s
  | .xor o => Sys2Proof.Machine.execXor o s
  | .andn o => Sys2Proof.Machine.execAndn o s
  | .orn o => Sys2Proof.Machine.execOrn o s
  | .xnor o => Sys2Proof.Machine.execXnor o s
  | .shl o => Sys2Proof.Machine.execShl o s
  | .shr o => Sys2Proof.Machine.execShr o s
  | .sar o => Sys2Proof.Machine.execSar o s
  | .rol o => Sys2Proof.Machine.execRol o s
  | .min o => Sys2Proof.Machine.execMin o s
  | .max o => Sys2Proof.Machine.execMax o s
  | .minu o => Sys2Proof.Machine.execMinu o s
  | .maxu o => Sys2Proof.Machine.execMaxu o s
  | .mul o => Sys2Proof.Machine.execMul o s
  | .mulh o => Sys2Proof.Machine.execMulh o s
  | .mulhu o => Sys2Proof.Machine.execMulhu o s
  | .mulhsu o => Sys2Proof.Machine.execMulhsu o s
  | .div o => Sys2Proof.Machine.execDiv o s
  | .divu o => Sys2Proof.Machine.execDivu o s
  | .rem o => Sys2Proof.Machine.execRem o s
  | .remu o => Sys2Proof.Machine.execRemu o s
  | .clz o => Sys2Proof.Machine.execClz o s
  | .ctz o => Sys2Proof.Machine.execCtz o s
  | .popc o => Sys2Proof.Machine.execPopc o s
  | .brev o => Sys2Proof.Machine.execBrev o s
  | .bswap o => Sys2Proof.Machine.execBswap o s
  | .sext o => Sys2Proof.Machine.execSext o s
  | .zext o => Sys2Proof.Machine.execZext o s
  | .abs o => Sys2Proof.Machine.execAbs o s
  | .cmpEq o => Sys2Proof.Machine.execCmpEq o s
  | .cmpNe o => Sys2Proof.Machine.execCmpNe o s
  | .cmpLt o => Sys2Proof.Machine.execCmpLt o s
  | .cmpGe o => Sys2Proof.Machine.execCmpGe o s
  | .cmpLtu o => Sys2Proof.Machine.execCmpLtu o s
  | .cmpGeu o => Sys2Proof.Machine.execCmpGeu o s
  | .cmpTst o => Sys2Proof.Machine.execCmpTst o s
  | .cmpTstn o => Sys2Proof.Machine.execCmpTstn o s
  | .lea1 o => Sys2Proof.Machine.execLea1 o s
  | .lea2 o => Sys2Proof.Machine.execLea2 o s
  | .lea4 o => Sys2Proof.Machine.execLea4 o s
  | .lea8 o => Sys2Proof.Machine.execLea8 o s
  | .adds o => Sys2Proof.Machine.execAdds o s
  | .subs o => Sys2Proof.Machine.execSubs o s
  | .addus o => Sys2Proof.Machine.execAddus o s
  | .subus o => Sys2Proof.Machine.execSubus o s
  | .bfs o => Sys2Proof.Machine.execBfs o s
  | .bfx o => Sys2Proof.Machine.execBfx o s
  | .addi o => Sys2Proof.Machine.execAddi o s
  | .andi o => Sys2Proof.Machine.execAndi o s
  | .ori o => Sys2Proof.Machine.execOri o s
  | .xori o => Sys2Proof.Machine.execXori o s
  | .muli o => Sys2Proof.Machine.execMuli o s
  | .shli o => Sys2Proof.Machine.execShli o s
  | .shri o => Sys2Proof.Machine.execShri o s
  | .sari o => Sys2Proof.Machine.execSari o s
  | .roli o => Sys2Proof.Machine.execRoli o s
  | .cmpiEq o => Sys2Proof.Machine.execCmpiEq o s
  | .cmpiNe o => Sys2Proof.Machine.execCmpiNe o s
  | .cmpiLt o => Sys2Proof.Machine.execCmpiLt o s
  | .cmpiGe o => Sys2Proof.Machine.execCmpiGe o s
  | .cmpiLtu o => Sys2Proof.Machine.execCmpiLtu o s
  | .cmpiGeu o => Sys2Proof.Machine.execCmpiGeu o s
  | .cmpiTst o => Sys2Proof.Machine.execCmpiTst o s
  | .cmpiTstn o => Sys2Proof.Machine.execCmpiTstn o s
  | .movi o => Sys2Proof.Machine.execMovi o s
  | .movh o => Sys2Proof.Machine.execMovh o s
  | .pcrel o => Sys2Proof.Machine.execPcrel o s
  | .br o => Sys2Proof.Machine.execBr o s
  | .call o => Sys2Proof.Machine.execCall o s
  | .jr o => Sys2Proof.Machine.execJr o s
  | .jalr o => Sys2Proof.Machine.execJalr o s
  | .ret o => Sys2Proof.Machine.execRet o s
  | .repf o => Sys2Proof.Machine.execRepf o s
  | .pand o => Sys2Proof.Machine.execPand o s
  | .por o => Sys2Proof.Machine.execPor o s
  | .pxor o => Sys2Proof.Machine.execPxor o s
  | .pnot o => Sys2Proof.Machine.execPnot o s
  | .pget o => Sys2Proof.Machine.execPget o s
  | .pset o => Sys2Proof.Machine.execPset o s
  | .kmov o => Sys2Proof.Machine.execKmov o s
  | .ldl o => Sys2Proof.Machine.execLdl o s
  | .ldls o => Sys2Proof.Machine.execLdls o s
  | .stl o => Sys2Proof.Machine.execStl o s
  | .ldg o => Sys2Proof.Machine.execLdg o s
  | .ldgs o => Sys2Proof.Machine.execLdgs o s
  | .stg o => Sys2Proof.Machine.execStg o s
  | .ldw o => Sys2Proof.Machine.execLdw o s
  | .lde o => Sys2Proof.Machine.execLde o s
  | .stf o => Sys2Proof.Machine.execStf o s
  | .sete o => Sys2Proof.Machine.execSete o s
  | .ldr o => Sys2Proof.Machine.execLdr o s
  | .str o => Sys2Proof.Machine.execStr o s
  | .ldre o => Sys2Proof.Machine.execLdre o s
  | .strf o => Sys2Proof.Machine.execStrf o s
  | .stgm o => Sys2Proof.Machine.execStgm o s
  | .faal o => Sys2Proof.Machine.execFaal o s
  | .swapl o => Sys2Proof.Machine.execSwapl o s
  | .casl o => Sys2Proof.Machine.execCasl o s
  | .fandl o => Sys2Proof.Machine.execFandl o s
  | .forl o => Sys2Proof.Machine.execForl o s
  | .fxorl o => Sys2Proof.Machine.execFxorl o s
  | .fminl o => Sys2Proof.Machine.execFminl o s
  | .fmaxl o => Sys2Proof.Machine.execFmaxl o s
  | .faa o => Sys2Proof.Machine.execFaa o s
  | .swap o => Sys2Proof.Machine.execSwap o s
  | .cas o => Sys2Proof.Machine.execCas o s
  | .lr o => Sys2Proof.Machine.execLr o s
  | .sc o => Sys2Proof.Machine.execSc o s
  | .amax o => Sys2Proof.Machine.execAmax o s
  | .waitrs o => Sys2Proof.Machine.execWaitrs o s
  | .rsvrel o => Sys2Proof.Machine.execRsvrel o s
  | .raddI64 o => Sys2Proof.Machine.execRaddI64 o s
  | .raddF32 o => Sys2Proof.Machine.execRaddF32 o s
  | .raddF64 o => Sys2Proof.Machine.execRaddF64 o s
  | .rmin o => Sys2Proof.Machine.execRmin o s
  | .rmax o => Sys2Proof.Machine.execRmax o s
  | .rand o => Sys2Proof.Machine.execRand o s
  | .ror o => Sys2Proof.Machine.execRor o s
  | .rxor o => Sys2Proof.Machine.execRxor o s
  | .fence o => Sys2Proof.Machine.execFence o s
  | .bar o => Sys2Proof.Machine.execBar o s
  | .qbind o => Sys2Proof.Machine.execQbind o s
  | .qstat o => Sys2Proof.Machine.execQstat o s
  | .qflush o => Sys2Proof.Machine.execQflush o s
  | .qunbind o => Sys2Proof.Machine.execQunbind o s
  | .vldl o => Sys2Proof.Machine.execVldl o s
  | .vstl o => Sys2Proof.Machine.execVstl o s
  | .vldg o => Sys2Proof.Machine.execVldg o s
  | .vstg o => Sys2Proof.Machine.execVstg o s
  | .vgatl o => Sys2Proof.Machine.execVgatl o s
  | .vscal o => Sys2Proof.Machine.execVscal o s
  | .vldb o => Sys2Proof.Machine.execVldb o s
  | .vfaVadd o => Sys2Proof.Machine.execVfaVadd o s
  | .vfaVsub o => Sys2Proof.Machine.execVfaVsub o s
  | .vfaVmul o => Sys2Proof.Machine.execVfaVmul o s
  | .vfma o => Sys2Proof.Machine.execVfma o s
  | .vfaVmin o => Sys2Proof.Machine.execVfaVmin o s
  | .vfaVmax o => Sys2Proof.Machine.execVfaVmax o s
  | .vabs o => Sys2Proof.Machine.execVabs o s
  | .vneg o => Sys2Proof.Machine.execVneg o s
  | .viaVadd o => Sys2Proof.Machine.execViaVadd o s
  | .viaVsub o => Sys2Proof.Machine.execViaVsub o s
  | .viaVmul o => Sys2Proof.Machine.execViaVmul o s
  | .vmad o => Sys2Proof.Machine.execVmad o s
  | .viaVmin o => Sys2Proof.Machine.execViaVmin o s
  | .viaVmax o => Sys2Proof.Machine.execViaVmax o s
  | .vadds o => Sys2Proof.Machine.execVadds o s
  | .vshl o => Sys2Proof.Machine.execVshl o s
  | .vcmpEq o => Sys2Proof.Machine.execVcmpEq o s
  | .vcmpNe o => Sys2Proof.Machine.execVcmpNe o s
  | .vcmpLt o => Sys2Proof.Machine.execVcmpLt o s
  | .vcmpLe o => Sys2Proof.Machine.execVcmpLe o s
  | .vcmpGt o => Sys2Proof.Machine.execVcmpGt o s
  | .vcmpGe o => Sys2Proof.Machine.execVcmpGe o s
  | .vcmpUnord o => Sys2Proof.Machine.execVcmpUnord o s
  | .vredadd o => Sys2Proof.Machine.execVredadd o s
  | .vredmax o => Sys2Proof.Machine.execVredmax o s
  | .vredmin o => Sys2Proof.Machine.execVredmin o s
  | .vext o => Sys2Proof.Machine.execVext o s
  | .vins o => Sys2Proof.Machine.execVins o s
  | .vbcst o => Sys2Proof.Machine.execVbcst o s
  | .vdot8 o => Sys2Proof.Machine.execVdot8 o s
  | .vpopk o => Sys2Proof.Machine.execVpopk o s
  | .vsel o => Sys2Proof.Machine.execVsel o s
  | .vshuf o => Sys2Proof.Machine.execVshuf o s
  | .vzip o => Sys2Proof.Machine.execVzip o s
  | .vunzip o => Sys2Proof.Machine.execVunzip o s
  | .vand o => Sys2Proof.Machine.execVand o s
  | .vor o => Sys2Proof.Machine.execVor o s
  | .vxor o => Sys2Proof.Machine.execVxor o s
  | .vshr o => Sys2Proof.Machine.execVshr o s
  | .cvt o => Sys2Proof.Machine.execCvt o s
  | .qblk o => Sys2Proof.Machine.execQblk o s
  | .dqblk o => Sys2Proof.Machine.execDqblk o s
  | .vrnd o => Sys2Proof.Machine.execVrnd o s
  | .vrcp o => Sys2Proof.Machine.execVrcp o s
  | .vrsq o => Sys2Proof.Machine.execVrsq o s
  | .vex2 o => Sys2Proof.Machine.execVex2 o s
  | .vlg2 o => Sys2Proof.Machine.execVlg2 o s
  | .vsqrt o => Sys2Proof.Machine.execVsqrt o s
  | .mldw o => Sys2Proof.Machine.execMldw o s
  | .mma o => Sys2Proof.Machine.execMma o s
  | .mmaz o => Sys2Proof.Machine.execMmaz o s
  | .mst o => Sys2Proof.Machine.execMst o s
  | .mhint o => Sys2Proof.Machine.execMhint o s
  | .mfmt o => Sys2Proof.Machine.execMfmt o s
  | .mrd o => Sys2Proof.Machine.execMrd o s
  | .eset o => Sys2Proof.Machine.execEset o s
  | .ego o => Sys2Proof.Machine.execEgo o s
  | .estat o => Sys2Proof.Machine.execEstat o s
  | .ecan o => Sys2Proof.Machine.execEcan o s
  | .send o => Sys2Proof.Machine.execSend o s
  | .recv o => Sys2Proof.Machine.execRecv o s
  | .enq o => Sys2Proof.Machine.execEnq o s
  | .spawn o => Sys2Proof.Machine.execSpawn o s
  | .exit o => Sys2Proof.Machine.execExit o s
  | .widf o => Sys2Proof.Machine.execWidf o s
  | .ibxs o => Sys2Proof.Machine.execIbxs o s
  | .stvec o => Sys2Proof.Machine.execStvec o s
  | .ldnear o => Sys2Proof.Machine.execLdnear o s
  | .delvec o => Sys2Proof.Machine.execDelvec o s
  | .ixpin o => Sys2Proof.Machine.execIxpin o s
  | .ixunpin o => Sys2Proof.Machine.execIxunpin o s
  | .ixstat o => Sys2Proof.Machine.execIxstat o s
  | .setpos o => Sys2Proof.Machine.execSetpos o s
  | .neigh o => Sys2Proof.Machine.execNeigh o s
  | .cellq o => Sys2Proof.Machine.execCellq o s
  | .migr o => Sys2Proof.Machine.execMigr o s
  | .anchor o => Sys2Proof.Machine.execAnchor o s
  | .unanchor o => Sys2Proof.Machine.execUnanchor o s
  | .cellsync o => Sys2Proof.Machine.execCellsync o s
  | .ill => Sys2Proof.Machine.execIll s
  | .nop o => Sys2Proof.Machine.execNop o s
  | .ifence o => Sys2Proof.Machine.execIfence o s
  | .eret o => Sys2Proof.Machine.execEret o s
  | .halt o => Sys2Proof.Machine.execHalt o s
  | .wfe o => Sys2Proof.Machine.execWfe o s
  | .dbgbrk o => Sys2Proof.Machine.execDbgbrk o s
  | .trap o => Sys2Proof.Machine.execTrap o s
  | .csrr o => Sys2Proof.Machine.execCsrr o s
  | .csrw o => Sys2Proof.Machine.execCsrw o s
  | .csrs o => Sys2Proof.Machine.execCsrs o s
  | .csrc o => Sys2Proof.Machine.execCsrc o s
  | .ctxsave o => Sys2Proof.Machine.execCtxsave o s
  | .ctxload o => Sys2Proof.Machine.execCtxload o s
  | .seatctlStat o => Sys2Proof.Machine.execSeatctlStat o s
  | .seatctlStop o => Sys2Proof.Machine.execSeatctlStop o s
  | .seatctlStart o => Sys2Proof.Machine.execSeatctlStart o s
  | .seatctlWake o => Sys2Proof.Machine.execSeatctlWake o s
  | .timer seat => Sys2Proof.Machine.execTimer seat s
  | .waitlimExpiry seat => Sys2Proof.Machine.execWaitlimExpiry seat s
  | .barrierWaitLimit seat => Sys2Proof.Machine.execBarrierWaitLimit seat s
  | .bankService bank => Sys2Proof.Machine.execBankService bank s
  | .meshRequestAccept req => Sys2Proof.Machine.execMeshRequestAccept req s
  | .waitTableAttempt cluster off => Sys2Proof.Machine.execWaitTableAttempt cluster off s
  | .waitBudgetBoundary cluster req => Sys2Proof.Machine.execWaitBudgetBoundary cluster req s
  | .nackResend req => Sys2Proof.Machine.execNackResend req s
  | .registerFill req => Sys2Proof.Machine.execRegisterFill req s
  | .acknowledgement req => Sys2Proof.Machine.execAcknowledgement req s
  | .limitReply req => Sys2Proof.Machine.execLimitReply req s
  | .heldNotice req => Sys2Proof.Machine.execHeldNotice req s
  | .combinedNotice req => Sys2Proof.Machine.execCombinedNotice req s
  | .noreply req => Sys2Proof.Machine.execNoreply req s
  | .vallost req => Sys2Proof.Machine.execVallost req s
  | .combiningPointTimeout entry => Sys2Proof.Machine.execCombiningPointTimeout entry s
  | .flitLoss req => Sys2Proof.Machine.execFlitLoss req s
  | .stationRequest req => Sys2Proof.Machine.execStationRequest req s
  | .tableWalk req => Sys2Proof.Machine.execTableWalk req s
  | .heldReplay station asid va => Sys2Proof.Machine.execHeldReplay station asid va s
  | .rsvtimeRevocation station va => Sys2Proof.Machine.execRsvtimeRevocation station va s
  | .waitrsReport req slot => Sys2Proof.Machine.execWaitrsReport req slot s
  | .waitrsLimit req => Sys2Proof.Machine.execWaitrsLimit req s
  | .tierPieceCopy move => Sys2Proof.Machine.execTierPieceCopy move s
  | .nearCacheProbe cluster asid va size => Sys2Proof.Machine.execNearCacheProbe cluster asid va size s
  | .translationInvalidate station asid va size => Sys2Proof.Machine.execTranslationInvalidate station asid va size s
  | .nearCacheFill req => Sys2Proof.Machine.execNearCacheFill req s
  | .writeBackLoss req => Sys2Proof.Machine.execWriteBackLoss req s
  | .combinerMerge req => Sys2Proof.Machine.execCombinerMerge req s
  | .combinerSend entry => Sys2Proof.Machine.execCombinerSend entry s
  | .routerCombine reqA reqB router => Sys2Proof.Machine.execRouterCombine reqA reqB router s
  | .replySplit entry => Sys2Proof.Machine.execReplySplit entry s
  | .engineShadowTake eng => Sys2Proof.Machine.execEngineShadowTake eng s
  | .streamPush eng => Sys2Proof.Machine.execStreamPush eng s
  | .collectiveStart op => Sys2Proof.Machine.execCollectiveStart op s
  | .collectiveJoinTimeout op => Sys2Proof.Machine.execCollectiveJoinTimeout op s
  | .engineCompletion eng => Sys2Proof.Machine.execEngineCompletion eng s
  | .completionDrop eng => Sys2Proof.Machine.execCompletionDrop eng s
  | .inboxArrival msg => Sys2Proof.Machine.execInboxArrival msg s
  | .inboxHeldWrite core => Sys2Proof.Machine.execInboxHeldWrite core s
  | .portWordArrival msg => Sys2Proof.Machine.execPortWordArrival msg s
  | .enqAdmission msg => Sys2Proof.Machine.execEnqAdmission msg s
  | .ringPacketFetch queue => Sys2Proof.Machine.execRingPacketFetch queue s
  | .dispatchSelection station => Sys2Proof.Machine.execDispatchSelection station s
  | .expansion station slot => Sys2Proof.Machine.execExpansion station slot s
  | .runQueueArrival mig => Sys2Proof.Machine.execRunQueueArrival mig s
  | .seatTake seat => Sys2Proof.Machine.execSeatTake seat s
  | .parkswap seat => Sys2Proof.Machine.execParkswap seat s
  | .instructionFetchFill req => Sys2Proof.Machine.execInstructionFetchFill req s
  | .descriptorArrival req => Sys2Proof.Machine.execDescriptorArrival req s
  | .dependenceDecrement die ctr => Sys2Proof.Machine.execDependenceDecrement die ctr s
  | .sweepPennant launch => Sys2Proof.Machine.execSweepPennant launch s
  | .launchCompletionDrop msg => Sys2Proof.Machine.execLaunchCompletionDrop msg s
  | .cancelBroadcast job dest => Sys2Proof.Machine.execCancelBroadcast job dest s
  | .cancel seat => Sys2Proof.Machine.execCancel seat s
  | .trapNotice seat => Sys2Proof.Machine.execTrapNotice seat s
  | .squareHandover mig => Sys2Proof.Machine.execSquareHandover mig s
  | .departingRemoval launch tid sq => Sys2Proof.Machine.execDepartingRemoval launch tid sq s
  | .admission launch sq => Sys2Proof.Machine.execAdmission launch sq s
  | .neighSquareQuery req => Sys2Proof.Machine.execNeighSquareQuery req s
  | .ladderAdmission req => Sys2Proof.Machine.execLadderAdmission req s
  | .insertCommit req => Sys2Proof.Machine.execInsertCommit req s
  | .queryPacket req => Sys2Proof.Machine.execQueryPacket req s
  | .reclamation index ord => Sys2Proof.Machine.execReclamation index ord s
  | .sampledRerun req => Sys2Proof.Machine.execSampledRerun req s
  | .matrixUnitTake tile => Sys2Proof.Machine.execMatrixUnitTake tile s
  | .kStep tile => Sys2Proof.Machine.execKStep tile s
  | .matrixCompletion tile => Sys2Proof.Machine.execMatrixCompletion tile s
  | .rampEnd tile => Sys2Proof.Machine.execRampEnd tile s
  | .holdWindowEnd tile => Sys2Proof.Machine.execHoldWindowEnd tile s
  | .downEnd tile => Sys2Proof.Machine.execDownEnd tile s
  | .checkpoint core seat => Sys2Proof.Machine.execCheckpoint core seat s
  | .checkpointCommit core seat => Sys2Proof.Machine.execCheckpointCommit core seat s
  | .doubletMismatch core seat => Sys2Proof.Machine.execDoubletMismatch core seat s
  | .bridgePacket req => Sys2Proof.Machine.execBridgePacket req s
  | .deviceReset => Sys2Proof.Machine.execDeviceReset s
  | .powerMeasurement watts junction => Sys2Proof.Machine.execPowerMeasurement watts junction s
  | .cmdtailDoorbell fn q val => Sys2Proof.Machine.execCmdtailDoorbell fn q val s
  | .queueEnable fn q val => Sys2Proof.Machine.execQueueEnable fn q val s
  | .cplheadWrite fn q val => Sys2Proof.Machine.execCplheadWrite fn q val s
  | .evlostClear fn q val => Sys2Proof.Machine.execEvlostClear fn q val s
  | .hostRegisterWrite fn off val => Sys2Proof.Machine.execHostRegisterWrite fn off val s
  | .ident fn q => Sys2Proof.Machine.execIdent fn q s
  | .negotiate fn q => Sys2Proof.Machine.execNegotiate fn q s
  | .deviceSet fn q => Sys2Proof.Machine.execDeviceSet fn q s
  | .powerCap fn q => Sys2Proof.Machine.execPowerCap fn q s
  | .attest fn q => Sys2Proof.Machine.execAttest fn q s
  | .ctxCreate fn q => Sys2Proof.Machine.execCtxCreate fn q s
  | .ctxDestroy fn q => Sys2Proof.Machine.execCtxDestroy fn q s
  | .map fn q => Sys2Proof.Machine.execMap fn q s
  | .unmap fn q => Sys2Proof.Machine.execUnmap fn q s
  | .pageMove fn q => Sys2Proof.Machine.execPageMove fn q s
  | .blockSet fn q => Sys2Proof.Machine.execBlockSet fn q s
  | .memCopy fn q => Sys2Proof.Machine.execMemCopy fn q s
  | .queueCreate fn q => Sys2Proof.Machine.execQueueCreate fn q s
  | .queueDestroy fn q => Sys2Proof.Machine.execQueueDestroy fn q s
  | .queueSubmit fn q => Sys2Proof.Machine.execQueueSubmit fn q s
  | .scopeSet fn q => Sys2Proof.Machine.execScopeSet fn q s
  | .boardSet fn q => Sys2Proof.Machine.execBoardSet fn q s
  | .indexCreate fn q => Sys2Proof.Machine.execIndexCreate fn q s
  | .indexDestroy fn q => Sys2Proof.Machine.execIndexDestroy fn q s
  | .graphCreate fn q => Sys2Proof.Machine.execGraphCreate fn q s
  | .graphPatch fn q => Sys2Proof.Machine.execGraphPatch fn q s
  | .graphReplay fn q => Sys2Proof.Machine.execGraphReplay fn q s
  | .jobCancel fn q => Sys2Proof.Machine.execJobCancel fn q s
  | .debugHalt fn q => Sys2Proof.Machine.execDebugHalt fn q s
  | .debugResume fn q => Sys2Proof.Machine.execDebugResume fn q s
  | .debugRegread fn q => Sys2Proof.Machine.execDebugRegread fn q s
  | .debugRegwrite fn q => Sys2Proof.Machine.execDebugRegwrite fn q s
  | .debugLocalread fn q => Sys2Proof.Machine.execDebugLocalread fn q s
  | .debugLocalwrite fn q => Sys2Proof.Machine.execDebugLocalwrite fn q s
  | .debugBreakarm fn q => Sys2Proof.Machine.execDebugBreakarm fn q s
  | .debugBreakoff fn q => Sys2Proof.Machine.execDebugBreakoff fn q s
  | .unassignedEncoding w => Sys2Proof.Machine.execUnassignedEncoding w s
  | .badop fn q => Sys2Proof.Machine.execBadop fn q s
  | .hostLinkDown => Sys2Proof.Machine.execHostLinkDown s
  | .hostLinkUp => Sys2Proof.Machine.execHostLinkUp s
  | .hostAccessCompletion req => Sys2Proof.Machine.execHostAccessCompletion req s
  | .softError err => Sys2Proof.Machine.execSoftError err s
  | .engineAccessReply eng => Sys2Proof.Machine.execEngineAccessReply eng s
  | .resultStreamArrival req => Sys2Proof.Machine.execResultStreamArrival req s

end Sys2Proof.Machine
end

