-- ==== Sys2Proof/Machine/Events.lean ====
section
/-!
DEFINITION. The steps of units and of the outside, named as work in flight and schedules name them: each is the meaning of its row.
-/

namespace Sys2Proof.Machine

/-- One step of a unit. -/
def runEv (e : Ev) (s : State) : Out :=
  match e with
  | .timer seat => execTimer seat s
  | .waitlimExpiry seat => execWaitlimExpiry seat s
  | .barrierWaitLimit seat => execBarrierWaitLimit seat s
  | .bankService bank => execBankService bank s
  | .meshRequestAccept req => execMeshRequestAccept req s
  | .waitTableAttempt cluster off => execWaitTableAttempt cluster off s
  | .waitBudgetBoundary cluster req => execWaitBudgetBoundary cluster req s
  | .nackResend req => execNackResend req s
  | .registerFill req => execRegisterFill req s
  | .acknowledgement req => execAcknowledgement req s
  | .limitReply req => execLimitReply req s
  | .heldNotice req => execHeldNotice req s
  | .combinedNotice req => execCombinedNotice req s
  | .noreply req => execNoreply req s
  | .vallost req => execVallost req s
  | .combiningPointTimeout entry => execCombiningPointTimeout entry s
  | .flitLoss req => execFlitLoss req s
  | .stationRequest req => execStationRequest req s
  | .tableWalk req => execTableWalk req s
  | .heldReplay station asid va => execHeldReplay station asid va s
  | .rsvtimeRevocation station va => execRsvtimeRevocation station va s
  | .waitrsReport req slot => execWaitrsReport req slot s
  | .waitrsLimit req => execWaitrsLimit req s
  | .tierPieceCopy move => execTierPieceCopy move s
  | .nearCacheProbe cluster asid va size => execNearCacheProbe cluster asid va size s
  | .translationInvalidate station asid va size => execTranslationInvalidate station asid va size s
  | .nearCacheFill req => execNearCacheFill req s
  | .writeBackLoss req => execWriteBackLoss req s
  | .combinerMerge req => execCombinerMerge req s
  | .combinerSend entry => execCombinerSend entry s
  | .routerCombine reqA reqB router => execRouterCombine reqA reqB router s
  | .replySplit entry => execReplySplit entry s
  | .engineShadowTake eng => execEngineShadowTake eng s
  | .streamPush eng => execStreamPush eng s
  | .collectiveStart op => execCollectiveStart op s
  | .collectiveJoinTimeout op => execCollectiveJoinTimeout op s
  | .engineCompletion eng => execEngineCompletion eng s
  | .completionDrop eng => execCompletionDrop eng s
  | .inboxArrival msg => execInboxArrival msg s
  | .inboxHeldWrite core => execInboxHeldWrite core s
  | .portWordArrival msg => execPortWordArrival msg s
  | .enqAdmission msg => execEnqAdmission msg s
  | .ringPacketFetch queue => execRingPacketFetch queue s
  | .dispatchSelection station => execDispatchSelection station s
  | .expansion station slot => execExpansion station slot s
  | .runQueueArrival mig => execRunQueueArrival mig s
  | .seatTake seat => execSeatTake seat s
  | .parkswap seat => execParkswap seat s
  | .instructionFetchFill req => execInstructionFetchFill req s
  | .descriptorArrival req => execDescriptorArrival req s
  | .dependenceDecrement die ctr => execDependenceDecrement die ctr s
  | .sweepPennant launch => execSweepPennant launch s
  | .launchCompletionDrop msg => execLaunchCompletionDrop msg s
  | .cancelBroadcast job dest => execCancelBroadcast job dest s
  | .cancel seat => execCancel seat s
  | .trapNotice seat => execTrapNotice seat s
  | .squareHandover mig => execSquareHandover mig s
  | .departingRemoval launch tid sq => execDepartingRemoval launch tid sq s
  | .admission launch sq => execAdmission launch sq s
  | .neighSquareQuery req => execNeighSquareQuery req s
  | .ladderAdmission req => execLadderAdmission req s
  | .insertCommit req => execInsertCommit req s
  | .queryPacket req => execQueryPacket req s
  | .reclamation index ord => execReclamation index ord s
  | .sampledRerun req => execSampledRerun req s
  | .matrixUnitTake tile => execMatrixUnitTake tile s
  | .kStep tile => execKStep tile s
  | .matrixCompletion tile => execMatrixCompletion tile s
  | .rampEnd tile => execRampEnd tile s
  | .holdWindowEnd tile => execHoldWindowEnd tile s
  | .downEnd tile => execDownEnd tile s
  | .checkpoint core seat => execCheckpoint core seat s
  | .checkpointCommit core seat => execCheckpointCommit core seat s
  | .doubletMismatch core seat => execDoubletMismatch core seat s
  | .bridgePacket req => execBridgePacket req s
  | .deviceReset => execDeviceReset s
  | .powerMeasurement watts junction => execPowerMeasurement watts junction s
  | .cmdtailDoorbell fn q val => execCmdtailDoorbell fn q val s
  | .queueEnable fn q val => execQueueEnable fn q val s
  | .cplheadWrite fn q val => execCplheadWrite fn q val s
  | .evlostClear fn q val => execEvlostClear fn q val s
  | .hostRegisterWrite fn off val => execHostRegisterWrite fn off val s
  | .ident fn q => execIdent fn q s
  | .negotiate fn q => execNegotiate fn q s
  | .deviceSet fn q => execDeviceSet fn q s
  | .powerCap fn q => execPowerCap fn q s
  | .attest fn q => execAttest fn q s
  | .ctxCreate fn q => execCtxCreate fn q s
  | .ctxDestroy fn q => execCtxDestroy fn q s
  | .map fn q => execMap fn q s
  | .unmap fn q => execUnmap fn q s
  | .pageMove fn q => execPageMove fn q s
  | .blockSet fn q => execBlockSet fn q s
  | .memCopy fn q => execMemCopy fn q s
  | .queueCreate fn q => execQueueCreate fn q s
  | .queueDestroy fn q => execQueueDestroy fn q s
  | .queueSubmit fn q => execQueueSubmit fn q s
  | .scopeSet fn q => execScopeSet fn q s
  | .boardSet fn q => execBoardSet fn q s
  | .indexCreate fn q => execIndexCreate fn q s
  | .indexDestroy fn q => execIndexDestroy fn q s
  | .graphCreate fn q => execGraphCreate fn q s
  | .graphPatch fn q => execGraphPatch fn q s
  | .graphReplay fn q => execGraphReplay fn q s
  | .jobCancel fn q => execJobCancel fn q s
  | .debugHalt fn q => execDebugHalt fn q s
  | .debugResume fn q => execDebugResume fn q s
  | .debugRegread fn q => execDebugRegread fn q s
  | .debugRegwrite fn q => execDebugRegwrite fn q s
  | .debugLocalread fn q => execDebugLocalread fn q s
  | .debugLocalwrite fn q => execDebugLocalwrite fn q s
  | .debugBreakarm fn q => execDebugBreakarm fn q s
  | .debugBreakoff fn q => execDebugBreakoff fn q s
  | .badop fn q => execBadop fn q s
  | .hostLinkDown => execHostLinkDown s
  | .hostLinkUp => execHostLinkUp s
  | .hostAccessCompletion req => execHostAccessCompletion req s
  | .softError err => execSoftError err s
  | .engineAccessReply eng => execEngineAccessReply eng s
  | .resultStreamArrival req => execResultStreamArrival req s

end Sys2Proof.Machine
end

