-- ==== Sys2Proof/Machine/Turn.lean ====
section
/-!
DEFINITION. The turn of a seat (R169, R170): what comes before an instruction, its fetch (R222) and its issue; which agent acts when no schedule says
so; and the placing of an instruction where the next step fetches it.
-/

namespace Sys2Proof.Machine

/-! ## Turns -/

/-- The first cycle of a seat's rotation at or after two cycles (R169). -/
def turnCycle (now next seat : Nat) : Nat :=
  let b := max now next
  b + (seat % 8 + 8 - b % 8) % 8

/-- The secondary of a doublet: its primary issues for both (R409). -/
def Seat.secondary (x : Seat) : Bool := x.doubletc.getLsbD 0 && x.doubletc.getLsbD 1

/-- A seat in supervisor mode that is to take INBOX (R158). -/
def State.inboxDue (s : State) (seat : Nat) (t : Thread) : Bool :=
  (s.core (coreOf seat)).ovfDue == some seat && t.sys.xstat.sys && t.sys.xstat.mode

/-- A seat named for INBOX whose thread no longer runs in supervisor mode takes none. -/
def State.clearOvfDue (s : State) (seat : Nat) (t : Thread) : State :=
  if (s.core (coreOf seat)).ovfDue == some seat && !s.inboxDue seat t then s.modCore (coreOf seat) fun c => { c with ovfDue := none } else s

def Thread.inTransit (t : Thread) : Bool := match t.loc with
  | .transit _ => true
  | _ => false

/-- The turn goes idle: the seat is stopped, or its thread is moving. A HALT ends for an INBOX (R361). -/
def idleTurn (x : Seat) (t : Thread) (inbox : Bool) : Bool := x.stop || x.tstop || x.dbgHalt || t.inTransit || (x.halt && !inbox)

/-- The seat waits for an instruction fetch, which parks it (R67, R222). -/
def Seat.fetching (x : Seat) : Bool := match x.off with
  | some (.fetch _) => true
  | _ => false

/-- The seat waits for a descriptor, out of the rotation (R311, R312). -/
def Seat.describing (x : Seat) : Bool := match x.off with
  | some (.descriptor _) => true
  | _ => false

/-- A local access of the seat is not complete (R38). -/
def Seat.accessOpen (x : Seat) (now : Nat) : Bool := x.localOp.isSome || decide (now < x.localDone)

/-- A trap that comes before the issue of the instruction at PC takes the place of what had fallen due there. -/
def State.dropDue (s : State) (seat : Nat) : State := s.modSeat seat fun x => { x with due := none }

/-- A frame whose words are to be captured again, after its thread has been loaded or a debugger has written its PC. -/
def Thread.recaptures (t : Thread) : Bool := t.frame == some ⟨0, []⟩

/-- The capture of such a frame takes a turn. -/
def State.recaptureTurn (s : State) (seat uid : Nat) (t : Thread) : State :=
  match recapture s (coreOf seat) t.asid t.sys.framest with
  | .miss va => s.startFetch seat uid va
  | .bad b v => takeTrap s seat uid 0x0D b v
  | .frame w ws => s.modThread uid fun t => t.resumeFrame w ws

/-- Fetches, decodes and issues the next instruction of the thread on the seat that `cur` names. -/
def State.issueNext (s : State) (seat uid : Nat) (t : Thread) : Out :=
  match s.nextWord (coreOf seat) t with
  | none => .next (s.startFetch seat uid t.regs.pc.toNat)
  | some w =>
    match decode w with
    | .ok i => exec i s
    | .error _ => execUnassignedEncoding w s

/-- The start of an anchored thread of a packet acts on the near cache of its cluster, unless that of another thread of the packet has (R111). -/
def State.startActed (s : State) (seat : Nat) (t : Thread) : Bool :=
  t.startDue && t.kind == .anchored
    && match t.origin.task.bind (FMap.find? s.disp.tasks) with
      | some k => k.acted.contains (clusterOf (coreOf seat))
      | none => false

/-- The acquire that the thread owed is over. -/
def State.acquireOver (s : State) (seat uid : Nat) (t : Thread) : State :=
  let s := s.modThread uid fun t => { t with acquireDue := none, startDue := false }
  match t.origin.task with
  | some k =>
    if t.startDue && t.kind == .anchored then
      { s with disp := { s.disp with tasks := FMap.modify s.disp.tasks k fun k => { k with acted := NSet.add k.acted (clusterOf (coreOf seat)) } } }
    else s
  | none => s

/-- What the thread's turn is for, once nothing comes before its instruction but a move that was deferred (R189, R191) and an acquire that it owes
(R111). -/
def State.issueTurn (s : State) (seat uid : Nat) (t : Thread) : Out :=
  match (if t.movable then s.deferredMove uid else none) with
  | some (_, g) => .next (s.moveTo uid g.kind g.dst)
  | none =>
    match t.acquireDue with
    | some wide =>
      match s.acquire seat uid (wide && !s.startActed seat t) with
      | .over s =>
        ((s.acquireOver seat uid t).imageNow seat { t with acquireDue := none, startDue := false }).issueNext seat uid
          { t with acquireDue := none, startDue := false }
      | _ => .next (s.countEv seat 4 1)
    | none => (s.imageNow seat t).issueNext seat uid t

/-- The turn of a seat that waits for a fetch or is out of the rotation. DEDUCED: one that waits for a fetch is parked, and takes TIMER, CANCEL and INBOX in
place of the instruction, which is then fetched again (log entry 108); one that waits for a descriptor takes CANCEL alone (R391). -/
def State.offTurn (s : State) (seat uid : Nat) (t : Thread) (inbox : Bool) : Out :=
  let x := s.seat seat
  let back := (s.fetchOver seat).dropDue seat
  if x.fetching && x.timerDue && timerRuns t then execTimer seat back
  else if (x.fetching || x.describing) && s.cancelDue t then execCancel seat back
  else if x.fetching && inbox then .next (back.takeInbox seat uid)
  else if x.fetching && s.swapDue seat t then execParkswap seat s
  else .next (s.countEv seat 4 1)

/-- The limit of a barrier is tested at the end of the cycle, when no arrival of the cycle can come any more (R285, R354). -/
def State.limitTurn (s : State) (seat : Nat) : State := (s.countEv seat 4 1).addWork 0 (.barrierWaitLimit seat)

/-- The turn of a seat that holds a thread, in the cycle of `s`: TIMER and CANCEL first (R395), then INBOX, the trap of an access that has completed,
the limit of a barrier, PARKSWAP, and the thread's own instruction. -/
def State.threadTurn (s : State) (seat uid : Nat) (t : Thread) : Out :=
  let x := s.seat seat
  let inbox := s.inboxDue seat t
  match x.off with
  | some (.stopping n d) => .next (s.continueStop seat uid n d)
  | some (.saving n u off place parts) => .next (s.continueSave seat uid n u off place parts)
  | off =>
    if idleTurn x t inbox then .next (if off.isSome then s.countEv seat 4 1 else s)
    else if off.isSome then s.offTurn seat uid t inbox
    else if x.accessOpen s.cycle then .next (s.countEv seat 3 1)
    else if x.timerDue && timerRuns t then execTimer seat (s.dropDue seat)
    else if s.cancelDue t then execCancel seat (s.dropDue seat)
    else if inbox then .next ((s.dropDue seat).takeInbox seat uid)
    else
      match x.due with
      | some d => if d.cause = 0x08 then execWaitlimExpiry seat s else .next (s.takeDue seat uid d)
      | none =>
        if (s.barrierOverdue t).isSome then .next (s.limitTurn seat)
        else if s.swapDue seat t then execParkswap seat s
        else if t.recaptures then .next (s.recaptureTurn seat uid t)
        else s.issueTurn seat uid t

/-- An empty seat: its turns go idle for a while after a PARKSWAP; then it takes a context (R384, R385). -/
def State.emptyTurn (s : State) (seat : Nat) : Out :=
  match (s.seat seat).off with
  | some (.swap c) => if s.cycle < c then .next s else execSeatTake seat (s.modSeat seat fun x => { x with off := none })
  | _ => execSeatTake seat s

/-- The seat's turn begins: the cycle is that of the turn, and the timer is brought up to date. -/
def State.beginTurn (s : State) (seat : Nat) (user : Bool) : State :=
  let c := turnCycle s.cycle (s.seat seat).nextTurn seat
  { s with cycle := c, cur := seat }.modSeat seat fun x => { x.tick c user with nextTurn := c + 1 }

/-- The next turn of a seat. -/
def State.turn (s : State) (seat : Nat) : Out :=
  match (s.seat seat).occ with
  | none => (s.beginTurn seat false).emptyTurn seat
  | some uid =>
    match s.thread? uid with
    | none => .next (s.beginTurn seat false)
    | some t =>
      let s := (s.beginTurn seat (timerRuns t)).clearOvfDue seat t
      if (s.seat seat).secondary then .next s else s.threadTurn seat uid t

/-! ## Who acts -/

/-- An answer to a thread whose context is being saved or loaded waits at the interface (R375), and so does the end of a request whose budget is over
(R53). -/
def State.heldAnswer (s : State) (e : Ev) : Bool :=
  match e with
  | .registerFill r | .acknowledgement r | .limitReply r | .noreply r | .vallost r | .resultStreamArrival r =>
    (((s.req? r).bind (·.uid)).orElse fun _ => (s.msg? r).bind (·.uid)).any s.contextMoving
  | .nackResend r =>
    ((s.req? r).any fun q => q.overBudget s.cycle && q.uid.any s.contextMoving)
      || (s.msg? r).any fun m => m.overBudget s.cycle && m.uid.any s.contextMoving
  | _ => false

/-- Work in flight is done: at its cycle, or now when that is past. -/
def State.doWork (s : State) (pos : Nat) : Out :=
  match s.work[pos]? with
  | none => .next s
  | some w =>
    let s := { s with work := s.work.eraseIdx pos, cycle := max s.cycle w.due }
    if s.heldAnswer w.ev then .next (s.addWork 1 w.ev) else runEv w.ev s

/-- What a choice does. A seat that does not exist has no turn. -/
def State.act (s : State) (c : Choice) : Out :=
  match c with
  | .turn seat => if seat < 16384 then s.turn seat else .next s
  | .work pos => s.doWork pos
  | .event e => runEv e s
  | .full id => .next (s.ejectFull id)

/-- The place of an item of work in the order of time: of one cycle the banks come last, after the turns, since they choose among all accesses that
arrive in it (R37); so does the limit of a barrier (R285). -/
def State.workKey (s : State) (w : WorkItem) : Nat :=
  3 * max w.due s.cycle + (match w.ev with | .bankService _ | .barrierWaitLimit _ => 2 | _ => 0)
/-- The place of a turn. -/
def turnKey (c : Nat) : Nat := 3 * c + 1

/-- The earliest item of work, with its place; the first of a list stands for a tie. -/
def State.firstWork (s : State) : Nat → List WorkItem → Option (Nat × Nat)
  | _, [] => none
  | i, w :: rest =>
    match s.firstWork (i + 1) rest with
    | none => some (s.workKey w, i)
    | some (d, j) => if s.workKey w ≤ d then some (s.workKey w, i) else some (d, j)

/-- Seats with something to do in their turns: those that hold a thread, and the empty seats of a core whose run queue is not empty. -/
def State.busySeats (s : State) : List Nat :=
  ((s.fab.seats.filter fun p => p.2.occ.isSome).map (·.1))
    ++ (s.fab.cores.filter fun p => !p.2.runq.isEmpty).flatMap fun p =>
      ((List.range 8).map (p.1 * 8 + ·)).filter fun k => (s.seat k).occ.isNone && !(s.seat k).stopped

/-- The earliest turn among seats. -/
def State.firstTurn (s : State) : List Nat → Option (Nat × Nat)
  | [] => none
  | n :: rest =>
    let c := turnCycle s.cycle (s.seat n).nextTurn n
    match s.firstTurn rest with
    | none => some (c, n)
    | some (d, m) => if c ≤ d then some (c, n) else some (d, m)

/-- The order of the model when the schedule names nobody who may act: the earliest acts. -/
def State.choose (s : State) : Option Choice :=
  match s.firstWork 0 s.work, s.firstTurn s.busySeats with
  | some (d, i), some (c, n) => some (if d < turnKey c then .work i else .turn n)
  | some (_, i), none => some (.work i)
  | none, some (_, n) => some (.turn n)
  | none, none => none

/-- A step whose cycle the specification states: nothing later comes before it. Other work is on its way through the network, the stations, the
engines and the firmware, for which no time is stated; it may come later than its cycle. -/
def State.firm (s : State) (w : WorkItem) : Bool :=
  match w.ev with
  | .bankService _ | .barrierWaitLimit _ | .writeBackLoss _ | .waitTableAttempt _ _ | .waitBudgetBoundary _ _ | .nackResend _ | .noreply _ | .vallost _ | .combiningPointTimeout _
  | .combinerSend _ | .rsvtimeRevocation _ _ | .waitrsLimit _ | .collectiveJoinTimeout _ | .completionDrop _ | .launchCompletionDrop _
  | .matrixUnitTake _ | .kStep _ | .matrixCompletion _ | .rampEnd _ | .holdWindowEnd _ | .downEnd _ | .inboxHeldWrite _ => true
  | .inboxArrival id | .acknowledgement id => ((s.msg? id).map s.stays).getD false
  | _ => false

/-- What comes from outside the units: losses and soft errors, a router that combines, the host, the link, the power management. -/
def Ev.outside : Ev → Bool
  | .flitLoss _ | .routerCombine _ _ _ | .softError _ | .doubletMismatch _ _ | .deviceReset | .powerMeasurement _ _ | .cmdtailDoorbell _ _ _
  | .queueEnable _ _ _ | .cplheadWrite _ _ _ | .evlostClear _ _ _ | .hostRegisterWrite _ _ _ | .hostLinkDown | .hostLinkUp => true
  | _ => false

/-- A schedule may name the turn that comes first, work whose time has come before the next turn, and what comes from outside: no step of a stated
cycle is passed (R37, R169). -/
def State.allows (s : State) (c : Choice) : Bool :=
  match c with
  | .turn n =>
    match s.firstTurn s.busySeats with
    | some (c, m) => m == n && !s.work.any fun w => s.firm w && decide (s.workKey w < turnKey c)
    | none => false
  | .work pos =>
    match s.work[pos]? with
    | none => false
    | some w =>
      (match s.firstTurn s.busySeats with | some (c, _) => decide (s.workKey w < turnKey c) | none => true)
        && !s.work.any fun v => s.firm v && decide (s.workKey v < s.workKey w)
  | .event e => e.outside
  | .full id => s.ejectable id

/-! ## Placing an instruction -/

theorem lineWith_lt (pc w : Nat) : w % 2 ^ 32 * 2 ^ (8 * (pc % 64 / 4 * 4)) < 2 ^ 512 := by
  have h1 : w % 2 ^ 32 < 2 ^ 32 := Nat.mod_lt _ (by decide)
  have h2 : 2 ^ (8 * (pc % 64 / 4 * 4)) ≤ 2 ^ 480 := Nat.pow_le_pow_right (by decide) (by omega)
  calc w % 2 ^ 32 * 2 ^ (8 * (pc % 64 / 4 * 4)) < 2 ^ 32 * 2 ^ 480 := Nat.mul_lt_mul_of_lt_of_le h1 h2 (Nat.two_pow_pos _)
    _ = 2 ^ 512 := (Nat.pow_add 2 32 480).symm

/-- The line that holds a word at a VA, and zeros around it. -/
def lineWith (pc w : Nat) : Line := BitVec.ofNatLT (w % 2 ^ 32 * 2 ^ (8 * (pc % 64 / 4 * 4))) (lineWith_lt pc w)

/-- A core with a resident line that holds a word at a VA of a context. -/
def Core.withWord (c : Core) (asid : BitVec 16) (pc w : Nat) : Core :=
  { c with icache := ⟨asid, lineOf pc, lineWith pc w, 0⟩ :: c.icache.filter fun l => !(l.asid == asid && l.va == lineOf pc) }

/-- A seat whose next turn issues: nothing stops it and nothing comes before its instruction. -/
def Seat.ready (x : Seat) (uid : Nat) : Seat :=
  { x with occ := some uid, stop := false, halt := false, tstop := false, dbgHalt := false, off := none, due := none, timerDue := false, timer := 0
           localOp := none, pops := [], fetched := [], localDone := 0, doubletc := 0, nextTurn := 0 }

/-- A thread that issues the word at its PC. -/
def Thread.ready (t : Thread) (seat : Nat) : Thread :=
  { t with loc := .seat seat, park := Park.init, frame := none, acquireDue := none, startDue := false, cancelTaken := true
           bar := { t.bar with barr := false, carr := false } }

/-- The thread that is placed where seat 0 of core 0 is empty: an anchored thread of no launch, at VA 0 of ASID 0. -/
def Thread.placed0 : Thread := { Thread.init with kind := .anchored }

/-- The turn of seat 0 of core 0 comes first: the rotation stands at its cycle, and no work falls due before the next one. -/
def State.turnZero (s : State) : State :=
  let c := (s.cycle + 7) / 8 * 8
  { s with cycle := c, work := s.work.map fun w => { w with due := max w.due (c + 1) }, sched := .turn 0 :: s.sched }

/-- Seat 0 of core 0 is made to issue a word in the next step: its thread, or a fresh one, with the word resident at its PC. -/
def State.withWord (s : State) (w : Nat) : State :=
  let x := s.seat 0
  let (uid, t, s) := match x.occ.bind fun u => (s.thread? u).map fun t => (u, t) with
    | some (u, t) => (u, t, s)
    | none => (s.net.nextId, Thread.placed0, { s with net := { s.net with nextId := s.net.nextId + 1 } })
  let s := s.setThread uid (t.ready 0)
  let s := s.setSeat 0 (x.ready uid)
  (s.modCore 0 fun c => { c.withWord t.asid t.regs.pc.toNat w with ovfDue := none }).turnZero

end Sys2Proof.Machine
end

