-- ==== Sys2Proof/Machine/Step.lean ====
section
/-!
DEFINITION. One step of the machine: the agent that the schedule names acts if it may, and otherwise the one that `State.choose` names. With nothing
to do, a cycle passes.
-/

namespace Sys2Proof.Machine

/-- Who acts when no schedule says so. -/
def State.default (s : State) : Host.Outcome State Fault Refusal :=
  match s.choose with
  | some c => s.act c
  | none => .next { s with cycle := s.cycle + 1 }

/-- One step. A choice of the schedule that may not act now is passed over. -/
def step (s : State) : Host.Outcome State Fault Refusal :=
  match s.sched with
  | c :: rest =>
    let s := { s with sched := rest }
    if s.allows c then s.act c else s.default
  | [] => s.default

/-- The state with an instruction where the next step fetches it: at the PC of the thread on seat 0 of core 0, in the instruction cache of its core. -/
def State.withFetchWord (s : State) (nbits w : Nat) : State := s.withWord (w % 2 ^ nbits)

end Sys2Proof.Machine
end

