-- ==== Sys2Proof/Safety.lean ====
section
/-!
DEFINITION. The terms of the claims: a step that answers a next state, good states, the conditions under which the instruction of a seat issues
its own effect, and the forms in which its completion is stated.
-/

namespace Sys2Proof.Machine

/-- An outcome that is a next state. -/
def Answers (o : Out) : Prop := ∃ t, o = .next t

/-- Memory is in canonical form: addresses strictly rising, no entry that reads as an unlisted address does, and the lists of empty and of poisoned
words strictly rising. -/
def State.MemOk (s : State) : Prop := s.mem.wf = true

/-- p0 reads 1 and [63:56] read zero (R202). -/
def Regs.PwOk (r : Regs) : Prop := r.pw = pwOf r.pw

/-- No thread of a context other than the system context is in supervisor mode (R204). -/
def Xstat.ModeOk (x : Xstat) : Prop := x.mode = true → x.sys = true

/-- Every thread, and every image of a doublet, keeps the fixed bits of pw and is in supervisor mode only with SYS set. -/
def State.ModesOk (s : State) : Prop :=
  (∀ uid t, s.thread? uid = some t → t.regs.PwOk ∧ t.sys.xstat.ModeOk) ∧
  (∀ seat d i, s.doublet? seat = some d → d.image = some i → i.regs.PwOk ∧ i.sys.xstat.ModeOk)

/-! ## The issue of an instruction -/

/-- Thread `t`, numbered `uid`, holds the seat that `cur` names. -/
structure Seated (s : State) (uid : Nat) (t : Thread) : Prop where
  seat : (s.seat s.cur).occ = some uid
  thread : s.thread? uid = some t

/-- The conditions on the state and the operands under which the instruction of the seat named by `cur` is ready: its guard is true and readable (R224),
it is a legal instruction (R243) that names legal registers (R244), the mode and the seat may run it (R204, R308), every source is full,
clean and, for a queue register, bound and holding enough words, every destination is free (R197, R200, R201), a doublet takes no checkpoint
first (R272, R410). -/
structure Ready (i : Instr) (s : State) (uid : Nat) (t : Thread) : Prop extends Seated s uid t where
  guardClean : (guardField i).toNat = 0 ∨ t.regs.pwPoison = none
  guard : guardTrue t i = true
  legal : illOp i = none
  regs : regBad i t = none
  mode : privBad i s.cur (s.seat s.cur) t = none
  sources : testSources s (coreOf s.cur) t i = .pass
  bindings : testBindings s (coreOf s.cur) t i = .pass
  dests : testDests s s.cur (coreOf s.cur) t i = .pass
  checkpoint : s.awaitsCheckpoint i s.cur = false

/-- It issues: it is ready, and the words of local memory that its pops take have been read, or their banks serve them now (R37, R38). -/
structure Issues (i : Instr) (s : State) (uid : Nat) (t : Thread) : Prop extends Ready i s uid t where
  reads : s.banksIdle (coreOf s.cur) (s.unread i s.cur t) = true

/-- The k-th source value of an instruction of the seat named by `cur`, in the order A, B, D (R395). -/
def src (i : Instr) (s : State) (t : Thread) (k : Nat) : Word := (takeSources i s s.cur t).getD k 0

/-- The state after the sources of an instruction are read: a queue register named as a source has lost a word (R201). -/
def afterRead (i : Instr) (s : State) (t : Thread) : State := popSources i s s.cur t

/-- The instruction does what leads to `s'` and retires: the next state is `s'` with the retirement counted and the PC moved on. -/
def Completes (i : Instr) (s : State) (uid : Nat) (s' : State) : Prop :=
  exec i s = .next ((retire s' s.cur uid).intervalAfter i s.cur)

/-- The instruction does what leads to `s'` and retires with a new PC. -/
def Jumps (i : Instr) (s : State) (uid : Nat) (s' : State) (pc : Word) : Prop :=
  exec i s = .next ((retireTo s' s.cur uid pc).intervalAfter i s.cur)

/-- The instruction leads to `s'`, in which it is in progress or the thread has gone on to elsewhere. -/
def Leads (i : Instr) (s : State) (s' : State) : Prop := exec i s = .next (s'.intervalAfter i s.cur)

/-- The instruction writes v to the register that its D field names, and retires. -/
def Writes (i : Instr) (s : State) (uid : Nat) (t : Thread) (d : BitVec 6) (v : Word) : Prop :=
  Completes i s uid ((afterRead i s t).putD s.cur uid d v)

/-- The instruction writes a vector register, and retires. -/
def WritesV (i : Instr) (s : State) (uid : Nat) (t : Thread) (d : BitVec 4) (l : Line) : Prop :=
  Completes i s uid ((afterRead i s t).putV uid d l)

/-- The instruction writes a predicate, and retires. -/
def WritesP (i : Instr) (s : State) (uid : Nat) (t : Thread) (p : BitVec 3) (b : Bool) : Prop :=
  Completes i s uid ((afterRead i s t).modThread uid fun u => { u with regs := u.regs.setPred p.toNat b })

/-- The instruction traps and has had no effect. -/
def Traps (i : Instr) (s : State) (uid : Nat) (cause sub : BitVec 8) (xval : Word) : Prop :=
  exec i s = .next (takeTrap s s.cur uid cause sub xval)

/-! ## A turn in which the instruction at PC issues -/

/-- The state of a seat's turn, once the cycle is that of the turn and the timer is brought up to date. -/
def State.inTurn (s : State) (seat : Nat) (t : Thread) : State := (s.beginTurn seat (timerRuns t)).clearOvfDue seat t

/-- Nothing comes before the instruction at PC in the turn of a seat: the seat is neither stopped nor out of the rotation nor the secondary of a
doublet (R169, R361, R371, R409), its earlier access is complete (R38), no TIMER, CANCEL, INBOX or trap is due (R395), no barrier limit
and no PARKSWAP is due (R285, R385), the thread's frame is captured, it owes no acquire (R111), and no move of it was deferred (R189, R191). -/
structure ClearTurn (s : State) (seat : Nat) (t : Thread) : Prop where
  primary : (s.seat seat).secondary = false
  rotation : (s.seat seat).off = none
  runs : idleTurn (s.seat seat) t (s.inboxDue seat t) = false
  access : (s.seat seat).accessOpen s.cycle = false
  timer : ((s.seat seat).timerDue && timerRuns t) = false
  cancel : s.cancelDue t = false
  inbox : s.inboxDue seat t = false
  due : (s.seat seat).due = none
  barrier : s.barrierOverdue t = none
  swap : s.swapDue seat t = false
  frame : t.recaptures = false
  acquire : t.acquireDue = none
  moves : t.movable = false ∨ ∀ uid, (s.seat seat).occ = some uid → s.deferredMove uid = none

/-! ## Forms of a result -/

/-- Every instruction of a constructor that issues writes to its D field a function of one source. -/
def Gives1 {α : Type} (c : α → Instr) (d : α → BitVec 6) (f : α → Word → Word) : Prop :=
  ∀ (o : α) (s : State) (uid : Nat) (t : Thread), Issues (c o) s uid t → Writes (c o) s uid t (d o) (f o (src (c o) s t 0))

/-- The same with two sources. -/
def Gives2 {α : Type} (c : α → Instr) (d : α → BitVec 6) (f : α → Word → Word → Word) : Prop :=
  ∀ (o : α) (s : State) (uid : Nat) (t : Thread), Issues (c o) s uid t →
    Writes (c o) s uid t (d o) (f o (src (c o) s t 0) (src (c o) s t 1))

/-- The same with a function of the thread as it issued, and no source. -/
def GivesT {α : Type} (c : α → Instr) (d : α → BitVec 6) (f : α → Thread → Word) : Prop :=
  ∀ (o : α) (s : State) (uid : Nat) (t : Thread), Issues (c o) s uid t → Writes (c o) s uid t (d o) (f o t)

/-- Every instruction of a constructor that issues writes its vector register with a function of the thread and the first source. -/
def GivesV {α : Type} (c : α → Instr) (d : α → BitVec 4) (f : α → Thread → Word → Line) : Prop :=
  ∀ (o : α) (s : State) (uid : Nat) (t : Thread), Issues (c o) s uid t → WritesV (c o) s uid t (d o) (f o t (src (c o) s t 0))

/-- What a comparison leaves in a predicate that held `old`, by its mode (R261). -/
def byMode (mode : BitVec 3) (old c : Bool) : Bool :=
  match mode.toNat with
  | 0 => c
  | 1 => old && c
  | 2 => old || c
  | _ => !c

/-- Every CMP of a condition that issues writes its predicate by its mode. -/
def Compares (c : OpCmp → Instr) (cond : Word → Word → Prop) : Prop :=
  ∀ (o : OpCmp) (s : State) (uid : Nat) (t : Thread), Issues (c o) s uid t →
    ∃ b : Bool, (b = true ↔ cond (src (c o) s t 0) (src (c o) s t 1)) ∧
      WritesP (c o) s uid t o.p (byMode o.mode (t.pred o.p.toNat) b)

/-- The same for CMPI, whose second operand is its sign-extended immediate. -/
def ComparesI (c : OpCmpi → Instr) (cond : Word → Word → Prop) : Prop :=
  ∀ (o : OpCmpi) (s : State) (uid : Nat) (t : Thread), Issues (c o) s uid t →
    ∃ b : Bool, (b = true ↔ cond (src (c o) s t 0) (o.imm.signExtend 64)) ∧
      WritesP (c o) s uid t o.p (byMode o.mode (t.pred o.p.toNat) b)

/-- Every saturating sum of a constructor writes the exact value clamped to [lo, hi], and counts a clamped result in SATCNT (R254, R212). -/
def Saturates (c : OpR → Instr) (lo hi : Int) (exact : Word → Word → Int) : Prop :=
  ∀ (o : OpR) (s : State) (uid : Nat) (t : Thread), Issues (c o) s uid t →
    let x := exact (src (c o) s t 0) (src (c o) s t 1)
    (lo ≤ x ∧ x ≤ hi → Writes (c o) s uid t o.d (BitVec.ofInt 64 x)) ∧
    (x < lo → Completes (c o) s uid
      (((afterRead (c o) s t).putD s.cur uid o.d (BitVec.ofInt 64 lo)).modThread uid fun u => u.saturate 1)) ∧
    (hi < x → Completes (c o) s uid
      (((afterRead (c o) s t).putD s.cur uid o.d (BitVec.ofInt 64 hi)).modThread uid fun u => u.saturate 1))

/-! ## Local accesses (R14, R38, R40, R407) -/

/-- The cluster of the seat that `cur` names. -/
def ownCluster (s : State) : Nat := clusterOf (coreOf s.cur)

/-- The bank of an offset is in the seat's own tile, and free for its core: it serves the access in this cycle (R36, R37). -/
def AtOnce (s : State) (ea : Nat) : Prop :=
  transit (coreOf s.cur) ea = 0 ∧ s.bankIdle (bankOf (ownCluster s) ea) (coreOf s.cur) = true

/-- The bank has served an access in this cycle. -/
def served (s : State) (ea : Nat) : State :=
  s.setBank (bankOf (ownCluster s) ea) { s.bank (bankOf (ownCluster s) ea) with free := s.cycle + 1 }

/-- The seat's access is complete in the next cycle. -/
def settled (s : State) : State := s.modSeat s.cur fun x => { x with localOp := none, localDone := s.cycle + 1 }

/-- The local access of an instruction to `size` bytes at the segment offset `off`: the traps of R14 in their order, the access as it goes to its
bank, and what it does when the bank serves it at once: `good` from the state in which it is served, its cluster offset. A poisoned word
that is not written whole makes ECC fall due instead, with the word's offset (R407). -/
def LocalAt (i : Instr) (s : State) (uid : Nat) (t : Thread) (off : Word) (size : Nat) (whole : Prop) (kind : Nat → LocalKind) (op : Nat → BankOp)
    (good : State → Nat → Prop) : Prop :=
  let r := afterRead i s t
  let ea := (r.seat s.cur).lbase.toNat + off.toNat
  (off.toNat % size ≠ 0 → ∃ b, Traps i s uid 0x04 b off) ∧
  (off.toNat % size = 0 → (r.seat s.cur).segLen ≤ off.toNat → ∃ b, Traps i s uid 0x05 b off) ∧
  (off.toNat % size = 0 → off.toNat < (r.seat s.cur).segLen →
    Leads i s (r.localAccess s.cur uid (kind ea) off [⟨ea, op ea, 0⟩]) ∧
    (AtOnce r ea →
      (r.localPoisoned (ownCluster s) ea = false ∨ whole → good (served r ea) ea) ∧
      (r.localPoisoned (ownCluster s) ea = true → ¬ whole →
        Leads i s ((settled (served r ea)).trapDue s.cur 0x10 0x01 (BitVec.ofNat 64 (ea / 8 * 8) - BitVec.ofNat 64 (r.seat s.cur).lbase.toNat)))))

/-! ## Global and mesh accesses (R24, R31, R114, R119, R18) -/

/-- The address of a global access: ALIGN, then GFAULT 0x01 (R24, R31); while an earlier access of the thread occupies its granule the
instruction parks (R119). -/
def GlobalAt (i : Instr) (s : State) (uid : Nat) (t : Thread) (va : Word) (size : Nat) (good : Prop) : Prop :=
  (va.toNat % size ≠ 0 → ∃ b, Traps i s uid 0x04 b va) ∧
  (va.toNat % size = 0 → 2 ^ 48 ≤ va.toNat → Traps i s uid 0x06 0x01 va) ∧
  (va.toNat % size = 0 → va.toNat < 2 ^ 48 →
    (t.occupies (.global (va.toNat / 64 * 64)) = true → exec i s = .next (parkAt s s.cur uid)) ∧
    (t.occupies (.global (va.toNat / 64 * 64)) = false → good))

/-- Before the request of an anchored thread leaves, its line is invalidated, after a write-back of its dirty bytes for whose acknowledgement
the thread parks, as it does while another write-back of the granule by its cluster is on its way (R114); `good` is said of the state in which the
request is sent. -/
def AfterFlush (i : Instr) (s : State) (uid : Nat) (t : Thread) (va : Nat) (good : State → Prop) : Prop :=
  let r := afterRead i s t
  let sends (x : State) : Prop := (x.mustWait s.cur t va = true → exec i s = .next (parkAt s s.cur uid)) ∧ (x.mustWait s.cur t va = false → good x)
  (t.kind ≠ .anchored → good r) ∧
  (t.kind = .anchored → r.ncFind (ownCluster s) t.asid va = none → sends r) ∧
  (t.kind = .anchored → ∀ l, r.ncFind (ownCluster s) t.asid va = some l →
    (l.dirty = 0 → sends (r.ncDrop (ownCluster s) t.asid va)) ∧
    (l.dirty ≠ 0 → exec i s = .next ((parkAt ((r.ncDrop (ownCluster s) t.asid va).sendWriteBack (ownCluster s) l (some (s.cur, uid)))
      s.cur uid).giveBack s.cur)))

/-- The state in which the request of a thread leaves for home: the near-cache miss of an anchored thread is counted. -/
def missed (i : Instr) (s : State) (t : Thread) : State :=
  if t.kind = .anchored then (afterRead i s t).countEv s.cur 6 1 else afterRead i s t

/-- A load of a thread (R274): a hit of an anchored thread fills the destination at once, otherwise the request goes home and its answer is
owed; an anchored thread parks while a write-back of the granule by its cluster is on its way (R78). `fill` is what a line and its poison marks bring. -/
def LoadGoes (i : Instr) (s : State) (uid : Nat) (t : Thread) (q : State → Req) (d : Dest) (fill : Line → BitVec 8 → Fill) : Prop :=
  let r := afterRead i s t
  let home : Prop :=
    (r.mustWait s.cur t (q r).addr = true → exec i s = .next (parkAt s s.cur uid)) ∧
    (r.mustWait s.cur t (q r).addr = false → Completes i s uid ((missed i s t).sendOwed uid (q r) .load [.global ((q r).addr / 64 * 64)] d))
  (t.kind ≠ .anchored → home) ∧
  (t.kind = .anchored → (∀ l, r.ncFind (ownCluster s) t.asid (q r).addr = some l → (q r).mask &&& ~~~ l.valid ≠ 0) → home) ∧
  (t.kind = .anchored → ∀ l, r.ncFind (ownCluster s) t.asid (q r).addr = some l → (q r).mask &&& ~~~ l.valid = 0 →
    ∃ s1 : State, s1.mem = r.mem ∧ r.ncLoad uid (ownCluster s) t.asid (q r).addr (q r).mask = some (s1, l) ∧
      Completes i s uid ((s1.countEv s.cur 5 1).modThread uid fun u => u.fill d (fill l.data l.poison)))

/-- The state in which a store of a thread leaves for home: an anchored thread has looked its line up, which a store without an active byte may find
(R297), and has counted it. -/
def lookedUp (s r : State) (t : Thread) (q : Req) : State :=
  if t.kind = .anchored then
    if q.mask = 0 then
      let x := r.ncTouch (ownCluster s) t.asid q.addr
      x.1.countEv s.cur (if x.2 then 5 else 6) 1
    else r.countEv s.cur 6 1
  else r

/-- A store of a doublet is held, unperformed, until the checkpoint (R411). -/
def StoreHeld (i : Instr) (s : State) (uid : Nat) (r : State) (q : Req) (d : Doublet) : Prop :=
  ∃ s1 : State, Completes i s uid s1 ∧ s1.mem = r.mem ∧ s1.req? r.net.nextId = some q ∧
    ∃ d', FMap.find? s1.fab.doublets s.cur = some d' ∧ d'.held = d.held ++ [r.net.nextId]

/-- A store of a thread that sends `q` home from `x`: its acknowledgement is owed, and a doublet holds the store. -/
def StoreHome (i : Instr) (s : State) (uid : Nat) (x : State) (q : Req) : Prop :=
  (FMap.find? x.fab.doublets s.cur = none → Completes i s uid (x.sendOwed uid q .store [.global (q.addr / 64 * 64)] .none)) ∧
  (∀ d, FMap.find? x.fab.doublets s.cur = some d → StoreHeld i s uid x q d)

/-- A store of a thread (R275, R75): a hit of an anchored thread on a line with WOK merges into the line, otherwise it goes home, and parks while a
write-back of the granule by the cluster of the anchored thread is on its way (R78). A doublet holds it before it is looked up (R411). -/
def StoreGoes (i : Instr) (s : State) (uid : Nat) (t : Thread) (q : State → Req) : Prop :=
  let r := afterRead i s t
  let hit : Prop := t.kind = .anchored ∧ (q r).mask ≠ 0 ∧ ∃ l, r.ncFind (ownCluster s) t.asid (q r).addr = some l ∧ l.wok = true
  (∀ d, FMap.find? r.fab.doublets s.cur = some d → StoreHeld i s uid r (q r) d) ∧
  (FMap.find? r.fab.doublets s.cur = none →
    (¬ hit → r.mustWait s.cur t (q r).addr = true → exec i s = .next (parkAt s s.cur uid)) ∧
    (¬ hit → r.mustWait s.cur t (q r).addr = false →
      Completes i s uid ((lookedUp s r t (q r)).sendOwed uid (q r) .store [.global ((q r).addr / 64 * 64)] .none)) ∧
    (hit → ∃ s1 : State, s1.mem = r.mem ∧
      r.ncStore uid (ownCluster s) t.asid (q r).addr (q r).mask (q r).data = some s1 ∧ Completes i s uid (s1.countEv s.cur 5 1)))

/-! ## Releases and acquires (R109 to R112, R76) -/

/-- What follows a release of a thread (R109): while the answers it waits for are owed it waits, parked by `parks`; an anchored thread whose release is
wide first writes its dirty lines back, and waits for write-backs of its lines that are on their way; a deferred fault is reported by a release that
reports (R112); a doublet waits for its checkpoint, after which a new interval starts. `good` is said of the state in which the release is over. -/
def AfterAnswers (owes : Prop) (i : Instr) (s : State) (uid : Nat) (t : Thread) (wide reports : Bool) (parks : State → State)
    (good : State → Prop) : Prop :=
  let r := afterRead i s t
  let far : Prop := wide = true ∧ t.kind = .anchored
  let clean : Prop := r.releaseLines (ownCluster s) t = [] ∧ r.flyingFor (ownCluster s) t = []
  (owes → exec i s = .next ((parks (r.wantCheckpoint s.cur)).giveBack s.cur)) ∧
  (¬ owes → far → ¬ clean → exec i s = .next ((parks (r.wideWriteBack s.cur uid)).giveBack s.cur)) ∧
  (¬ owes → (far → clean) →
    let r1 := if wide && t.kind == .anchored then r.modThread uid fun u => { u with dirtyLines := ⟨[], false⟩ } else r
    (reports = true → t.defer ≠ 0 →
      exec i s = .next ((takeTrap (r1.modThread uid fun u => { u with defer := 0 }) s.cur uid (recCause t.defer) (recSub t.defer)
        (recVal t.defer)).giveBack s.cur)) ∧
    ((reports = true → t.defer = 0) → r.boundaryClear s.cur = false → exec i s = .next ((parks (r1.wantCheckpoint s.cur)).giveBack s.cur)) ∧
    ((reports = true → t.defer = 0) → r.boundaryClear s.cur = true → good (r1.newInterval s.cur)))

/-- A release waits for every answer that its thread is owed (R109). -/
def AfterRelease (i : Instr) (s : State) (uid : Nat) (t : Thread) (wide reports : Bool) (parks : State → State) (good : State → Prop) : Prop :=
  AfterAnswers (t.owed ≠ []) i s uid t wide reports parks good

/-- What an acquire whose fills have all arrived leaves (R110): the lines of an anchored thread whose acquire is wide keep only their dirty bytes. -/
def acquired (s : State) (t : Thread) (wide : Bool) (x : State) : State :=
  if wide && t.kind == .anchored then x.acquireLines (ownCluster s) t.asid else x

/-! ## Exact values and their rounding (R209, R216 to R218) -/

/-- The floating formats of R209. -/
def floatFmts : List FFmt := [fF64, fF32, fF16, fBF16, fE4M3, fE5M2]

/-- The exact value of a finite number. -/
def FVal.Is : FVal → ℝ → Prop
  | .fin neg m e, x => x = (if neg then -1 else 1) * m * (2 : ℝ) ^ e
  | _, _ => False

/-- The values of a format's grid without an upper bound of the exponent, and with its lower bound or without one (R216, R218); `even` are those with an even
fraction. -/
def FFmt.OnGrid (f : FFmt) (bounded even : Bool) (y : ℝ) : Prop :=
  ∃ (n : Nat) (q : Int), n < 2 ^ (f.fbits + 1) ∧ (even = true → n % 2 = 0) ∧ (bounded = true → f.emin - f.fbits ≤ q) ∧ |y| = n * (2 : ℝ) ^ q
def OnIntegers (y : ℝ) : Prop := ∃ k : Int, y = k
def OnEvenIntegers (y : ℝ) : Prop := ∃ k : Int, k % 2 = 0 ∧ y = k

/-- `y` is the value of a grid to which a mode rounds `x` (R216, R217). -/
def RoundsTo (grid even : ℝ → Prop) (mode : Mode) (x y : ℝ) : Prop :=
  grid y ∧ match mode with
    | .rne => (∀ g, grid g → |x - y| ≤ |x - g|) ∧ ((∃ g, grid g ∧ g ≠ y ∧ |x - g| = |x - y|) → even y)
    | .rtz => |y| ≤ |x| ∧ 0 ≤ x * y ∧ ∀ g, grid g → |g| ≤ |x| → |g| ≤ |y|
    | .rdn => y ≤ x ∧ ∀ g, grid g → g ≤ x → g ≤ y
    | .rup => x ≤ y ∧ ∀ g, grid g → x ≤ g → y ≤ g
    | .rna => (∀ g, grid g → |x - y| ≤ |x - g|) ∧ ∀ g, grid g → |x - g| = |x - y| → |g| ≤ |y|
    | .sr rnd => (grid x → y = x) ∧ ∀ lo hi, grid lo → grid hi → lo < x → x < hi → (∀ g, grid g → g ≤ lo ∨ hi ≤ g) →
        ((rnd : ℝ) < (x - lo) / (hi - lo) * 2 ^ 24 → y = hi) ∧ ((x - lo) / (hi - lo) * 2 ^ 24 ≤ rnd → y = lo)

/-- A result that is the rounding of an exact value `x`, not zero, to a format: the value of the grid, or the overflow of R216, with the flags of R218. -/
def Rounded (f : FFmt) (mode : Mode) (x : ℝ) (r : FRes) : Prop :=
  ∃ (y : ℝ) (neg : Bool), RoundsTo (f.OnGrid true false) (f.OnGrid true true) mode x y ∧ (neg = true ↔ x < 0) ∧
    let largest : ℝ := if f.hasInf then (2 - (2 : ℝ) ^ (-(f.fbits : Int))) * (2 : ℝ) ^ f.emax else 448
    let tiny : Prop := ∃ z, RoundsTo (f.OnGrid false false) (f.OnGrid false true) mode x z ∧ |z| < (2 : ℝ) ^ f.emin
    let stops : Prop := mode = .rtz ∨ (mode = .rdn ∧ neg = false) ∨ (mode = .rup ∧ neg = true)
    (|y| ≤ largest → (f.decode r.bits).Is y ∧ (f.decode r.bits).neg? = neg ∧ r.sat = false ∧
      (y = x → r.flags = 0) ∧ (y ≠ x → tiny → r.flags = flagUF ||| flagNX) ∧ (y ≠ x → ¬ tiny → r.flags = flagNX)) ∧
    (largest < |y| → f.hasInf = true → stops → r = ⟨f.maxBits neg, flagOF ||| flagNX, false⟩) ∧
    (largest < |y| → f.hasInf = true → ¬ stops → r = ⟨f.infBits neg, flagOF ||| flagNX, false⟩) ∧
    (largest < |y| → f.hasInf = false → r = ⟨f.maxBits neg, flagOF ||| flagNX, true⟩)

/-! ## Vector results (R293 to R296) -/

/-- Element j, of n bits, of a line. -/
def elemAt (n : Nat) (l : Line) (j : Nat) : Nat := l.toNat / 2 ^ (n * j) % 2 ^ n

/-- An instruction writes its vector register element by element: an active element is `f` of its number, an inactive one keeps its value (R294). -/
def Elementwise (i : Instr) (s : State) (uid : Nat) (t : Thread) (d : BitVec 4) (n : Nat) (k : BitVec 2) (f : Nat → Nat) : Prop :=
  ∃ l : Line, WritesV i s uid t d l ∧ ∀ j, j < 512 / n →
    elemAt n l j = if (t.kmask k.toNat).getLsbD (n * j / 32) then f j % 2 ^ n else elemAt n (vget t.vec.v d.toNat 0) j

/-- An instruction writes its vector register with what a rounding function gives over its active elements, in ascending order; the flags, the
saturations and SRSEED reach the thread (R294, R296, R217). -/
def Folded (i : Instr) (s : State) (uid : Nat) (t : Thread) (d : BitVec 4) (n count : Nat) (active : Nat → Bool) (code : Nat) (old : Line)
    (f : Mode → Nat → FRes) : Prop :=
  let a := vecFold n count active code old t.sys.srseed f
  Completes i s uid (((afterRead i s t).putV uid d a.line).modThread uid fun u => u.absorb a.flags a.sat a.seed)

/-! ## Frames -/

/-- Instructions that write a predicate, the lane masks or all of pw (R195). -/
def writesPw : Instr → Bool
  | .cmpEq _ | .cmpNe _ | .cmpLt _ | .cmpGe _ | .cmpLtu _ | .cmpGeu _ | .cmpTst _ | .cmpTstn _ => true
  | .cmpiEq _ | .cmpiNe _ | .cmpiLt _ | .cmpiGe _ | .cmpiLtu _ | .cmpiGeu _ | .cmpiTst _ | .cmpiTstn _ => true
  | .pand _ | .por _ | .pxor _ | .pnot _ | .pset _ | .kmov _ => true
  | .vcmpEq _ | .vcmpNe _ | .vcmpLt _ | .vcmpLe _ | .vcmpGt _ | .vcmpGe _ | .vcmpUnord _ => true
  | _ => false

/-- Scalar instructions whose whole effect is on a register that D names, or on pw. -/
def isScalar : Instr → Bool
  | .add _ | .sub _ | .and _ | .or _ | .xor _ | .andn _ | .orn _ | .xnor _ | .shl _ | .shr _ | .sar _ | .rol _ => true
  | .min _ | .max _ | .minu _ | .maxu _ | .mul _ | .mulh _ | .mulhu _ | .mulhsu _ | .div _ | .divu _ | .rem _ | .remu _ => true
  | .clz _ | .ctz _ | .popc _ | .brev _ | .bswap _ | .sext _ | .zext _ | .abs _ | .lea1 _ | .lea2 _ | .lea4 _ | .lea8 _ => true
  | .bfs _ | .bfx _ | .addi _ | .andi _ | .ori _ | .xori _ | .muli _ | .shli _ | .shri _ | .sari _ | .roli _ => true
  | .movi _ | .movh _ | .pcrel _ | .pget _ | .nop _ => true
  | i => writesPw i && !anchoredOnly i

/-- Scalar sums that clamp, and vector instructions that compute: their flags, saturations and draws reach the thread (R212, R216, R217). -/
def mayCount : Instr → Bool
  | .adds _ | .subs _ | .addus _ | .subus _ => true
  | .vfaVadd _ | .vfaVsub _ | .vfaVmul _ | .vfma _ | .vfaVmin _ | .vfaVmax _ | .vabs _ | .vneg _ => true
  | .viaVadd _ | .viaVsub _ | .viaVmul _ | .vmad _ | .viaVmin _ | .viaVmax _ | .vadds _ | .vshl _ | .vshr _ => true
  | .vcmpEq _ | .vcmpNe _ | .vcmpLt _ | .vcmpLe _ | .vcmpGt _ | .vcmpGe _ | .vcmpUnord _ => true
  | .vredadd _ | .vredmax _ | .vredmin _ | .vext _ | .vins _ | .vbcst _ | .vdot8 _ | .vpopk _ => true
  | .vsel _ | .vshuf _ | .vzip _ | .vunzip _ | .vand _ | .vor _ | .vxor _ => true
  | .cvt _ | .qblk _ | .dqblk _ | .vrnd _ | .vrcp _ | .vrsq _ | .vex2 _ | .vlg2 _ | .vsqrt _ => true
  | _ => false

/-- Loads, stores, atomics and reductions that go to global memory, to another core or to another tile by a request (R274 to R279). -/
def isRequest : Instr → Bool
  | .ldg _ | .ldgs _ | .stg _ | .stgm _ | .ldr _ | .str _ | .ldre _ | .strf _ | .vldg _ | .vstg _ => true
  | .faa _ | .swap _ | .cas _ | .lr _ | .sc _ | .amax _ | .rsvrel _ => true
  | .raddI64 _ | .raddF32 _ | .raddF64 _ | .rmin _ | .rmax _ | .rand _ | .ror _ | .rxor _ => true
  | _ => false

/-- The registers that the fields of an instruction name as destinations (R195). -/
def destRegs (i : Instr) : List Nat := (fields i).flatMap Field.writes

/-- A byte of physical memory that lies in no piece of a page into which a move copies (R71): a read of an entry from the overflow of an inbox finds
such a piece where it lands. -/
def OutsidePieces (s : State) (a : Nat) : Prop :=
  ∀ m ∈ s.fw.moves, m.copying = true →
    let lo := physOf 3 m.newEntry m.va / 2 ^ 16 * 2 ^ 16 + m.current * 4096
    a < lo ∨ lo + 4096 ≤ a

/-- No byte of memory differs but those of a range of the scratchpad, and the pieces of pages that moves copy. -/
def BytesKept (s s' : State) (lo size : Nat) : Prop :=
  (∀ a, OutsidePieces s a → Mem.read s'.mem.phys a = Mem.read s.mem.phys a) ∧
  (∀ a, a < lo ∨ lo + size ≤ a → Mem.read s'.mem.spad a = Mem.read s.mem.spad a)

/-- The general registers that are not named, pw unless it may change, the other scalar registers, the accumulators and the vector
registers that are not named hold what they held. -/
def RegsKept (t t' : Thread) (ds : List Nat) (vs : List (BitVec 4)) (pw : Bool) : Prop :=
  (∀ n, n < 24 → n ∉ ds → t'.regs.view n = t.regs.view n) ∧
  (pw = false → t'.regs.pw = t.regs.pw ∧ t'.regs.pwPoison = t.regs.pwPoison) ∧
  t'.regs.wid = t.regs.wid ∧ t'.regs.xy = t.regs.xy ∧ t'.regs.zw = t.regs.zw ∧
  (∀ v : BitVec 4, v ∉ vs → vget t'.vec.v v.toNat 0 = vget t.vec.v v.toNat 0 ∧ vget t'.vec.vst v.toNat .full = vget t.vec.vst v.toNat .full) ∧
  t'.vec.acc = t.vec.acc ∧ t'.vec.tag = t.vec.tag

/-! ## Engines (R143 to R148) -/

/-- Where the words of an operation go: a gather writes local memory (R145). -/
def EngOp.target (op : EngOp) : EngSpace := if op.kind = .copy then copyDst (copyOpc op.fields) else .localSpace

/-- `s'` is a state in which the word `w` of unit `u` of the active operation `op` is on its way from `s` to its destination: a write at its bank, a
write of 8 bytes to home or to another core, or the word that waits to be pushed. An address without a form ends the operation with FAULT. -/
def UnitMoves (s s' : State) (eng : Nat) (op : EngOp) (u : Nat) (w : Word) : Prop :=
  let a := op.dst u
  let off := op.segBase + a
  let fails (b : BitVec 8) : Prop := s' = s.setActive eng (op.fail 0x02 b a)
  let sent (mesh : Bool) (data : Line) : Prop := (s'.engine eng).active = some op ∧ ∃ r, s'.req? s.net.nextId = some r ∧ r.op = .eng eng u true mesh ∧
    r.asid = op.asid ∧ r.addr = a ∧ r.mask = byteMask (a % 64) 8 ∧ r.data = data
  s'.mem = s.mem ∧
  (op.target = .localSpace → (s'.engine eng).active = some op ∧
    ∃ x ∈ (s'.bank (bankOf (clusterOf (coreOf op.seat)) off)).waiting, x.user = .engine eng u ∧ x.arrival = s.cycle ∧ x.part.off = off ∧
      x.part.op = .write (BitVec.ofNat 8 ((2 ^ op.unitSize - 1) * 2 ^ (off % 8))) (w <<< (8 * (off % 8)))) ∧
  (op.target = .global → if 2 ^ 48 ≤ a then fails 0x01 else sent false (placed a w)) ∧
  (op.target = .mesh → if a / 2 ^ 24 % 2 ^ 27 ≠ 0 then fails 0x02 else sent true (w.setWidth 512)) ∧
  (op.target = .stream → (s'.engine eng).active = some { op with word := some w } ∧ ⟨s.cycle, .streamPush eng⟩ ∈ s'.work)

/-! ## Firmware commands (R459 to R463) -/

/-- The service core of a queue performs a command that has just been fetched: its sixteen words, its opcode, its reserved bits zero. -/
structure Commanded (s : State) (fn q op : Nat) (w : Nat → Word) : Prop where
  running : ∃ ws, FMap.find? s.fw.running (fn * 8 + q) = some ws ∧ ws.length = 16 ∧ ∀ n, w n = ws.getD n 0
  opcode : (w 0).toNat % 2 ^ 16 = op
  reserved : (w 0).toNat / 2 ^ 16 % 2 ^ 16 = 0

/-- A command of an opcode, with words `w`, is in progress on a queue of a function, and goes on in a phase. -/
structure CommandAt (s : State) (fn q op : Nat) (w : Nat → Word) (phase : Nat) : Prop where
  running : ∃ ws, FMap.find? s.fw.running (fn * 8 + q) = some ws ∧ ws.length = 17 ∧ ∀ n, w n = ws.getD n 0
  opcode : (w 0).toNat % 2 ^ 16 = op
  phase : (w 16).toNat = phase

/-- The context that a command names. -/
def cmdAsid (w : Nat → Word) : BitVec 16 := (w 0).extractLsb' 32 16

/-- The function has negotiated, the context of the command is its own (R459, R460), and no command that changes the context is being performed on another
queue (R461). -/
def CtxReady (s : State) (fn q : Nat) (w : Nat → Word) : Prop :=
  FMap.find? s.fw.features fn ≠ none ∧ s.owns fn (cmdAsid w) = true ∧ s.contextBusy fn q ((w 0).toNat % 2 ^ 16) (cmdAsid w) = false

/-- The command leads to `s'` and completes there with a status and result words. -/
def CmdEnds (i : Instr) (s : State) (fn q : Nat) (s' : State) (status : Nat) (res : List Word) : Prop :=
  exec i s = .next (s'.complete fn q status res)

/-- The command has led to `s'` and goes on some cycles later in a phase. -/
def CmdWaits (i : Instr) (s : State) (fn q op : Nat) (s' : State) (delay phase : Nat) : Prop :=
  exec i s = .next (s'.cmdAgain fn q op delay phase)

/-- A debug command finds its seat: DEBUG is negotiated, the context has its flag, and the seat of word 1 holds a thread of the context (R413). -/
structure DebugReady (s : State) (fn q : Nat) (w : Nat → Word) (uid : Nat) (t : Thread) : Prop where
  ctx : CtxReady s fn q w
  feature : s.feature fn 4 = true
  flag : ∃ c, s.context? (cmdAsid w) = some c ∧ c.debug = true
  seat : (w 1).toNat < 16384
  occ : (s.seat (w 1).toNat).occ = some uid
  thread : s.thread? uid = some t
  own : t.asid = cmdAsid w

end Sys2Proof.Machine
end

