-- ==== Sys2Proof/Certificates/Slice0/Obligations.lean ====
section
/-!
DEFINITION. The statements for the provers.
-/

section

open Sys2Proof Sys2Proof.Machine

/-! ## Scalar results -/

/-- R251, R257: the results of ALU, of the shifts and rotations by b[5:0] or by n, and of the minima and maxima. -/
def Obligations.IntegerResults : Prop :=
  (Gives2 Instr.add (·.d) (fun _ a b => a + b) ∧ Gives2 Instr.sub (·.d) (fun _ a b => a - b) ∧
   Gives2 Instr.and (·.d) (fun _ a b => a &&& b) ∧ Gives2 Instr.or (·.d) (fun _ a b => a ||| b) ∧
   Gives2 Instr.xor (·.d) (fun _ a b => a ^^^ b) ∧ Gives2 Instr.andn (·.d) (fun _ a b => a &&& ~~~b) ∧
   Gives2 Instr.orn (·.d) (fun _ a b => a ||| ~~~b) ∧ Gives2 Instr.xnor (·.d) (fun _ a b => ~~~(a ^^^ b))) ∧
  (Gives2 Instr.shl (·.d) (fun _ a b => a <<< (b.toNat % 64)) ∧ Gives2 Instr.shr (·.d) (fun _ a b => a >>> (b.toNat % 64)) ∧
   Gives2 Instr.sar (·.d) (fun _ a b => a.sshiftRight (b.toNat % 64)) ∧
   Gives2 Instr.rol (·.d) (fun _ a b => a.rotateLeft (b.toNat % 64)) ∧
   Gives2 Instr.min (·.d) (fun _ a b => if a.toInt < b.toInt then a else b) ∧
   Gives2 Instr.max (·.d) (fun _ a b => if a.toInt > b.toInt then a else b) ∧
   Gives2 Instr.minu (·.d) (fun _ a b => if a.toNat < b.toNat then a else b) ∧
   Gives2 Instr.maxu (·.d) (fun _ a b => if a.toNat > b.toNat then a else b) ∧
   Gives1 Instr.shli (·.d) (fun o a => a <<< o.n.toNat) ∧ Gives1 Instr.shri (·.d) (fun o a => a >>> o.n.toNat) ∧
   Gives1 Instr.sari (·.d) (fun o a => a.sshiftRight o.n.toNat) ∧ Gives1 Instr.roli (·.d) (fun o a => a.rotateLeft o.n.toNat))

/-- R251, R252: products, quotients and remainders, with the corner cases of R252. -/
def Obligations.MulDivResults : Prop :=
  Gives2 Instr.mul (·.d) (fun _ a b => BitVec.ofNat 64 (a.toNat * b.toNat)) ∧
  Gives2 Instr.mulh (·.d) (fun _ a b => BitVec.ofInt 64 (a.toInt * b.toInt / 2 ^ 64)) ∧
  Gives2 Instr.mulhu (·.d) (fun _ a b => BitVec.ofNat 64 (a.toNat * b.toNat / 2 ^ 64)) ∧
  Gives2 Instr.mulhsu (·.d) (fun _ a b => BitVec.ofInt 64 (a.toInt * b.toNat / 2 ^ 64)) ∧
  Gives2 Instr.div (·.d) (fun _ a b =>
    if b = 0 then 0xFFFF_FFFF_FFFF_FFFF
    else if a = 0x8000_0000_0000_0000 ∧ b = 0xFFFF_FFFF_FFFF_FFFF then 0x8000_0000_0000_0000
    else BitVec.ofInt 64 (a.toInt.tdiv b.toInt)) ∧
  Gives2 Instr.divu (·.d) (fun _ a b => if b = 0 then 0xFFFF_FFFF_FFFF_FFFF else BitVec.ofNat 64 (a.toNat / b.toNat)) ∧
  Gives2 Instr.rem (·.d) (fun _ a b =>
    if b = 0 then a else if a = 0x8000_0000_0000_0000 ∧ b = 0xFFFF_FFFF_FFFF_FFFF then 0 else BitVec.ofInt 64 (a.toInt.tmod b.toInt)) ∧
  Gives2 Instr.remu (·.d) (fun _ a b => if b = 0 then a else BitVec.ofNat 64 (a.toNat % b.toNat))

/-- R253 to R256, R258 to R260, R212: CLZ and CTZ name the place of the first one bit from the top and from the bottom, 64 when there is none; POPC
counts; BREV and BSWAP reverse; SEXT and ZEXT extend from bit n; ABS. LEA1 to LEA8 wrap; the saturating sums clamp and count. Then bit fields,
immediate forms and constants. -/
def Obligations.BitAddressImmediateResults : Prop :=
  ((∃ f : Word → Nat, Gives1 Instr.clz (·.d) (fun _ a => BitVec.ofNat 64 (f a)) ∧
     ∀ a, (a = 0 → f a = 64) ∧ (a ≠ 0 → f a < 64 ∧ a.getLsbD (63 - f a) = true ∧ ∀ i, i < f a → a.getLsbD (63 - i) = false)) ∧
   (∃ f : Word → Nat, Gives1 Instr.ctz (·.d) (fun _ a => BitVec.ofNat 64 (f a)) ∧
     ∀ a, (a = 0 → f a = 64) ∧ (a ≠ 0 → f a < 64 ∧ a.getLsbD (f a) = true ∧ ∀ i, i < f a → a.getLsbD i = false)) ∧
   Gives1 Instr.popc (·.d) (fun _ a => BitVec.ofNat 64 ((List.range 64).filter fun i => a.getLsbD i).length) ∧
   (∃ f : Word → Word, Gives1 Instr.brev (·.d) (fun _ a => f a) ∧ ∀ a i, i < 64 → (f a).getLsbD i = a.getLsbD (63 - i)) ∧
   (∃ f : Word → Word, Gives1 Instr.bswap (·.d) (fun _ a => f a) ∧
     ∀ a i, i < 8 → (f a).extractLsb' (8 * i) 8 = a.extractLsb' (8 * (7 - i)) 8) ∧
   (∃ f : Word → Word → Word, Gives2 Instr.sext (·.d) (fun _ a b => f a b) ∧
     ∀ a b i, i < 64 → (f a b).getLsbD i = a.getLsbD (min i (b.toNat % 64))) ∧
   (∃ f : Word → Word → Word, Gives2 Instr.zext (·.d) (fun _ a b => f a b) ∧
     ∀ a b i, i < 64 → (f a b).getLsbD i = (decide (i ≤ b.toNat % 64) && a.getLsbD i)) ∧
   Gives1 Instr.abs (·.d) (fun _ a => if 0 ≤ a.toInt then a else -a)) ∧
  (Gives2 Instr.lea1 (·.d) (fun _ a b => a + b * 1) ∧ Gives2 Instr.lea2 (·.d) (fun _ a b => a + b * 2) ∧
   Gives2 Instr.lea4 (·.d) (fun _ a b => a + b * 4) ∧ Gives2 Instr.lea8 (·.d) (fun _ a b => a + b * 8) ∧
   Saturates Instr.adds (-2 ^ 63) (2 ^ 63 - 1) (fun a b => a.toInt + b.toInt) ∧
   Saturates Instr.subs (-2 ^ 63) (2 ^ 63 - 1) (fun a b => a.toInt - b.toInt) ∧
   Saturates Instr.addus 0 (2 ^ 64 - 1) (fun a b => a.toNat + b.toNat) ∧
   Saturates Instr.subus 0 (2 ^ 64 - 1) (fun a b => a.toNat - b.toNat)) ∧
  (Gives1 Instr.bfx (·.d) (fun o a => BitVec.ofNat 64 (a.toNat / 2 ^ o.pos.toNat % 2 ^ (o.len1.toNat + 1))) ∧
   (∃ f : OpBF → Word → Word, Gives1 Instr.bfs (·.d) f ∧
     ∀ o a i, i < 64 → o.pos.toNat + o.len1.toNat + 1 ≤ 64 → (f o a).getLsbD i = a.getLsbD (o.pos.toNat + min i o.len1.toNat)) ∧
   Gives1 Instr.addi (·.d) (fun o a => a + o.imm.signExtend 64) ∧ Gives1 Instr.andi (·.d) (fun o a => a &&& o.imm.signExtend 64) ∧
   Gives1 Instr.ori (·.d) (fun o a => a ||| o.imm.signExtend 64) ∧ Gives1 Instr.xori (·.d) (fun o a => a ^^^ o.imm.signExtend 64) ∧
   Gives1 Instr.muli (·.d) (fun o a => a * o.imm.signExtend 64) ∧
   GivesT Instr.movi (·.d) (fun o _ => o.imm.signExtend 64) ∧
   Gives1 Instr.movh (·.d) (fun o d => (d <<< 16) ||| o.imm.setWidth 64) ∧
   GivesT Instr.pcrel (·.d) (fun o t => t.regs.pc + 4 * o.imm.signExtend 64))

/-- R261, R263: the eight conditions of CMP and CMPI, written by the mode. PAND, POR, PXOR and PNOT write a predicate, PGET reads pw, PSET writes it
by R202, KMOV copies a lane mask. -/
def Obligations.PredicateWriteResults : Prop :=
  (Compares Instr.cmpEq (fun a b => a = b) ∧ Compares Instr.cmpNe (fun a b => a ≠ b) ∧
   Compares Instr.cmpLt (fun a b => a.toInt < b.toInt) ∧ Compares Instr.cmpGe (fun a b => a.toInt ≥ b.toInt) ∧
   Compares Instr.cmpLtu (fun a b => a.toNat < b.toNat) ∧ Compares Instr.cmpGeu (fun a b => a.toNat ≥ b.toNat) ∧
   Compares Instr.cmpTst (fun a b => a &&& b ≠ 0) ∧ Compares Instr.cmpTstn (fun a b => a &&& b = 0) ∧
   ComparesI Instr.cmpiEq (fun a b => a = b) ∧ ComparesI Instr.cmpiNe (fun a b => a ≠ b) ∧
   ComparesI Instr.cmpiLt (fun a b => a.toInt < b.toInt) ∧ ComparesI Instr.cmpiGe (fun a b => a.toInt ≥ b.toInt) ∧
   ComparesI Instr.cmpiLtu (fun a b => a.toNat < b.toNat) ∧ ComparesI Instr.cmpiGeu (fun a b => a.toNat ≥ b.toNat) ∧
   ComparesI Instr.cmpiTst (fun a b => a &&& b ≠ 0) ∧ ComparesI Instr.cmpiTstn (fun a b => a &&& b = 0)) ∧
  ((∀ (o : OpP3) (s : State) (uid : Nat) (t : Thread),
     (Issues (.pand o) s uid t → WritesP (.pand o) s uid t o.pd (t.pred o.pa.toNat && t.pred o.pb.toNat)) ∧
     (Issues (.por o) s uid t → WritesP (.por o) s uid t o.pd (t.pred o.pa.toNat || t.pred o.pb.toNat)) ∧
     (Issues (.pxor o) s uid t → WritesP (.pxor o) s uid t o.pd (t.pred o.pa.toNat ^^ t.pred o.pb.toNat))) ∧
   (∀ (o : OpP2) (s : State) (uid : Nat) (t : Thread),
     Issues (.pnot o) s uid t → WritesP (.pnot o) s uid t o.pd (!t.pred o.pa.toNat)) ∧
   GivesT Instr.pget (·.d) (fun _ t => t.regs.pw) ∧
   (∀ (o : OpRA) (s : State) (uid : Nat) (t : Thread), Issues (.pset o) s uid t →
     Completes (.pset o) s uid ((afterRead (.pset o) s t).modThread uid fun u =>
       { u with regs := { u.regs with pw := (src (.pset o) s t 0 &&& 0x00FF_FFFF_FFFF_FFFE) ||| 1, pwPoison := none } })) ∧
   (∀ (o : OpK2) (s : State) (uid : Nat) (t : Thread), Issues (.kmov o) s uid t →
     Completes (.kmov o) s uid ((afterRead (.kmov o) s t).modThread uid fun u =>
       { u with regs := u.regs.setMask o.kd.toNat (t.kmask o.ka.toNat) })))


/-! ## Steps, guards, transfers and traps -/

/-- A step in which a seat has its turn, with nothing before the instruction at its PC, is `exec` of the instruction that the word there decodes
to, in the state of the turn; a word that decodes to none is an unassigned encoding. What the step adds around `exec` is the turn's cycle,
`cur`, the timer (R370), and for a doublet the image of R410. A step that does work in flight, or that the outside asks for, is `exec` of its
row, the cycle moved on to when the work is due; an answer to a thread whose context is being saved or loaded waits (R375).
The schedule is the model's own, and so is when a choice of it may act (log entries 1, 3); so is the order within a turn (17). -/
def Obligations.StepRunsDecoded : Prop :=
  (∀ (s : State) (seat uid : Nat) (t : Thread) (rest : List Choice) (w : BitVec 32),
    s.sched = .turn seat :: rest → { s with sched := rest }.allows (.turn seat) = true → seat < 16384 → (s.seat seat).occ = some uid →
    s.thread? uid = some t →
    ClearTurn ({ s with sched := rest }.inTurn seat t) seat t →
    ({ s with sched := rest }.inTurn seat t |>.imageNow seat t).nextWord (coreOf seat) t = some w →
    (∀ i, decode w = .ok i → Sys2Proof.Machine.step s = exec i ({ s with sched := rest }.inTurn seat t |>.imageNow seat t)) ∧
    (∀ e, decode w = .error e →
      Sys2Proof.Machine.step s = exec (.unassignedEncoding w) ({ s with sched := rest }.inTurn seat t |>.imageNow seat t))) ∧
  (∀ (s : State) (rest : List Choice) (c : Choice), s.sched = c :: rest →
    let r := { s with sched := rest }
    (∀ e, c = .event e → e.outside = true → Sys2Proof.Machine.step s = runEv e r) ∧
    (∀ pos w, c = .work pos → r.allows c = true → s.work[pos]? = some w →
      let a := { r with work := s.work.eraseIdx pos, cycle := max s.cycle w.due }
      (a.heldAnswer w.ev = false → Sys2Proof.Machine.step s = runEv w.ev a) ∧
      (a.heldAnswer w.ev = true → Sys2Proof.Machine.step s = .next (a.addWork 1 w.ev))) ∧
    (r.allows c = false → Sys2Proof.Machine.step s = r.default)) ∧
  (∀ s : State, (s.sched = [] → Sys2Proof.Machine.step s = s.default) ∧ (∀ c, s.choose = some c → s.default = s.act c) ∧
    (s.choose = none → s.default = .next { s with cycle := s.cycle + 1 })) ∧
  (∀ s : State,
    (∀ (seat : Nat), runEv (.timer seat) s = exec (.timer seat) s) ∧ (∀ (seat : Nat), runEv (.waitlimExpiry seat) s = exec (.waitlimExpiry seat) s) ∧
    (∀ (seat : Nat), runEv (.barrierWaitLimit seat) s = exec (.barrierWaitLimit seat) s) ∧
    (∀ (bank : Nat), runEv (.bankService bank) s = exec (.bankService bank) s) ∧
    (∀ (req : Nat), runEv (.meshRequestAccept req) s = exec (.meshRequestAccept req) s) ∧
    (∀ (cluster : Nat) (off : Nat), runEv (.waitTableAttempt cluster off) s = exec (.waitTableAttempt cluster off) s) ∧
    (∀ (cluster : Nat) (req : Nat), runEv (.waitBudgetBoundary cluster req) s = exec (.waitBudgetBoundary cluster req) s) ∧
    (∀ (req : Nat), runEv (.nackResend req) s = exec (.nackResend req) s) ∧ (∀ (req : Nat), runEv (.registerFill req) s = exec (.registerFill req) s) ∧
    (∀ (req : Nat), runEv (.acknowledgement req) s = exec (.acknowledgement req) s) ∧
    (∀ (req : Nat), runEv (.limitReply req) s = exec (.limitReply req) s) ∧ (∀ (req : Nat), runEv (.heldNotice req) s = exec (.heldNotice req) s) ∧
    (∀ (req : Nat), runEv (.combinedNotice req) s = exec (.combinedNotice req) s) ∧ (∀ (req : Nat), runEv (.noreply req) s = exec (.noreply req) s) ∧
    (∀ (req : Nat), runEv (.vallost req) s = exec (.vallost req) s) ∧
    (∀ (entry : Nat), runEv (.combiningPointTimeout entry) s = exec (.combiningPointTimeout entry) s) ∧
    (∀ (req : Nat), runEv (.flitLoss req) s = exec (.flitLoss req) s) ∧ (∀ (req : Nat), runEv (.stationRequest req) s = exec (.stationRequest req) s) ∧
    (∀ (req : Nat), runEv (.tableWalk req) s = exec (.tableWalk req) s) ∧
    (∀ (station : Nat) (asid : BitVec 16) (va : Nat), runEv (.heldReplay station asid va) s = exec (.heldReplay station asid va) s) ∧
    (∀ (station : Nat) (va : Nat), runEv (.rsvtimeRevocation station va) s = exec (.rsvtimeRevocation station va) s) ∧
    (∀ (req : Nat) (slot : Nat), runEv (.waitrsReport req slot) s = exec (.waitrsReport req slot) s) ∧
    (∀ (req : Nat), runEv (.waitrsLimit req) s = exec (.waitrsLimit req) s) ∧
    (∀ (move : Nat), runEv (.tierPieceCopy move) s = exec (.tierPieceCopy move) s) ∧
    (∀ (cluster : Nat) (asid : BitVec 16) (va : Nat) (size : Nat), runEv (.nearCacheProbe cluster asid va size) s = exec (.nearCacheProbe cluster asid va size) s) ∧
    (∀ (station : Nat) (asid : BitVec 16) (va : Nat) (size : Nat), runEv (.translationInvalidate station asid va size) s = exec (.translationInvalidate station asid va size) s) ∧
    (∀ (req : Nat), runEv (.nearCacheFill req) s = exec (.nearCacheFill req) s) ∧
    (∀ (req : Nat), runEv (.writeBackLoss req) s = exec (.writeBackLoss req) s) ∧
    (∀ (req : Nat), runEv (.combinerMerge req) s = exec (.combinerMerge req) s) ∧
    (∀ (entry : Nat), runEv (.combinerSend entry) s = exec (.combinerSend entry) s) ∧
    (∀ (reqA : Nat) (reqB : Nat) (router : Nat), runEv (.routerCombine reqA reqB router) s = exec (.routerCombine reqA reqB router) s) ∧
    (∀ (entry : Nat), runEv (.replySplit entry) s = exec (.replySplit entry) s) ∧
    (∀ (eng : Nat), runEv (.engineShadowTake eng) s = exec (.engineShadowTake eng) s) ∧
    (∀ (eng : Nat), runEv (.streamPush eng) s = exec (.streamPush eng) s) ∧
    (∀ (op : Nat), runEv (.collectiveStart op) s = exec (.collectiveStart op) s) ∧
    (∀ (op : Nat), runEv (.collectiveJoinTimeout op) s = exec (.collectiveJoinTimeout op) s) ∧
    (∀ (eng : Nat), runEv (.engineCompletion eng) s = exec (.engineCompletion eng) s) ∧
    (∀ (eng : Nat), runEv (.completionDrop eng) s = exec (.completionDrop eng) s) ∧
    (∀ (msg : Nat), runEv (.inboxArrival msg) s = exec (.inboxArrival msg) s) ∧
    (∀ (core : Nat), runEv (.inboxHeldWrite core) s = exec (.inboxHeldWrite core) s) ∧
    (∀ (msg : Nat), runEv (.portWordArrival msg) s = exec (.portWordArrival msg) s) ∧
    (∀ (msg : Nat), runEv (.enqAdmission msg) s = exec (.enqAdmission msg) s) ∧
    (∀ (queue : Nat), runEv (.ringPacketFetch queue) s = exec (.ringPacketFetch queue) s) ∧
    (∀ (station : Nat), runEv (.dispatchSelection station) s = exec (.dispatchSelection station) s) ∧
    (∀ (station : Nat) (slot : Nat), runEv (.expansion station slot) s = exec (.expansion station slot) s) ∧
    (∀ (mig : Nat), runEv (.runQueueArrival mig) s = exec (.runQueueArrival mig) s) ∧
    (∀ (seat : Nat), runEv (.seatTake seat) s = exec (.seatTake seat) s) ∧ (∀ (seat : Nat), runEv (.parkswap seat) s = exec (.parkswap seat) s) ∧
    (∀ (req : Nat), runEv (.instructionFetchFill req) s = exec (.instructionFetchFill req) s) ∧
    (∀ (req : Nat), runEv (.descriptorArrival req) s = exec (.descriptorArrival req) s) ∧
    (∀ (die : Nat) (ctr : Nat), runEv (.dependenceDecrement die ctr) s = exec (.dependenceDecrement die ctr) s) ∧
    (∀ (launch : Nat), runEv (.sweepPennant launch) s = exec (.sweepPennant launch) s) ∧
    (∀ (msg : Nat), runEv (.launchCompletionDrop msg) s = exec (.launchCompletionDrop msg) s) ∧
    (∀ (job : Nat) (dest : Nat), runEv (.cancelBroadcast job dest) s = exec (.cancelBroadcast job dest) s) ∧
    (∀ (seat : Nat), runEv (.cancel seat) s = exec (.cancel seat) s) ∧ (∀ (seat : Nat), runEv (.trapNotice seat) s = exec (.trapNotice seat) s) ∧
    (∀ (mig : Nat), runEv (.squareHandover mig) s = exec (.squareHandover mig) s) ∧
    (∀ (launch : Nat) (tid : Nat) (sq : Nat), runEv (.departingRemoval launch tid sq) s = exec (.departingRemoval launch tid sq) s) ∧
    (∀ (launch : Nat) (sq : Nat), runEv (.admission launch sq) s = exec (.admission launch sq) s) ∧
    (∀ (req : Nat), runEv (.neighSquareQuery req) s = exec (.neighSquareQuery req) s) ∧
    (∀ (req : Nat), runEv (.ladderAdmission req) s = exec (.ladderAdmission req) s) ∧
    (∀ (req : Nat), runEv (.insertCommit req) s = exec (.insertCommit req) s) ∧
    (∀ (req : Nat), runEv (.queryPacket req) s = exec (.queryPacket req) s) ∧
    (∀ (index : Nat) (ord : Nat), runEv (.reclamation index ord) s = exec (.reclamation index ord) s) ∧
    (∀ (req : Nat), runEv (.sampledRerun req) s = exec (.sampledRerun req) s) ∧
    (∀ (tile : Nat), runEv (.matrixUnitTake tile) s = exec (.matrixUnitTake tile) s) ∧ (∀ (tile : Nat), runEv (.kStep tile) s = exec (.kStep tile) s) ∧
    (∀ (tile : Nat), runEv (.matrixCompletion tile) s = exec (.matrixCompletion tile) s) ∧
    (∀ (tile : Nat), runEv (.rampEnd tile) s = exec (.rampEnd tile) s) ∧
    (∀ (tile : Nat), runEv (.holdWindowEnd tile) s = exec (.holdWindowEnd tile) s) ∧
    (∀ (tile : Nat), runEv (.downEnd tile) s = exec (.downEnd tile) s) ∧
    (∀ (core : Nat) (seat : Nat), runEv (.checkpoint core seat) s = exec (.checkpoint core seat) s) ∧
    (∀ (core : Nat) (seat : Nat), runEv (.checkpointCommit core seat) s = exec (.checkpointCommit core seat) s) ∧
    (∀ (core : Nat) (seat : Nat), runEv (.doubletMismatch core seat) s = exec (.doubletMismatch core seat) s) ∧
    (∀ (req : Nat), runEv (.bridgePacket req) s = exec (.bridgePacket req) s) ∧ (runEv .deviceReset s = exec .deviceReset s) ∧
    (∀ (watts : Nat) (junction : Nat), runEv (.powerMeasurement watts junction) s = exec (.powerMeasurement watts junction) s) ∧
    (∀ (fn : Nat) (q : Nat) (val : Word), runEv (.cmdtailDoorbell fn q val) s = exec (.cmdtailDoorbell fn q val) s) ∧
    (∀ (fn : Nat) (q : Nat) (val : Word), runEv (.queueEnable fn q val) s = exec (.queueEnable fn q val) s) ∧
    (∀ (fn : Nat) (q : Nat) (val : Word), runEv (.cplheadWrite fn q val) s = exec (.cplheadWrite fn q val) s) ∧
    (∀ (fn : Nat) (q : Nat) (val : Word), runEv (.evlostClear fn q val) s = exec (.evlostClear fn q val) s) ∧
    (∀ (fn : Nat) (off : Nat) (val : Word), runEv (.hostRegisterWrite fn off val) s = exec (.hostRegisterWrite fn off val) s) ∧
    (∀ (fn : Nat) (q : Nat), runEv (.ident fn q) s = exec (.ident fn q) s) ∧
    (∀ (fn : Nat) (q : Nat), runEv (.negotiate fn q) s = exec (.negotiate fn q) s) ∧
    (∀ (fn : Nat) (q : Nat), runEv (.deviceSet fn q) s = exec (.deviceSet fn q) s) ∧
    (∀ (fn : Nat) (q : Nat), runEv (.powerCap fn q) s = exec (.powerCap fn q) s) ∧
    (∀ (fn : Nat) (q : Nat), runEv (.attest fn q) s = exec (.attest fn q) s) ∧
    (∀ (fn : Nat) (q : Nat), runEv (.ctxCreate fn q) s = exec (.ctxCreate fn q) s) ∧
    (∀ (fn : Nat) (q : Nat), runEv (.ctxDestroy fn q) s = exec (.ctxDestroy fn q) s) ∧
    (∀ (fn : Nat) (q : Nat), runEv (.map fn q) s = exec (.map fn q) s) ∧ (∀ (fn : Nat) (q : Nat), runEv (.unmap fn q) s = exec (.unmap fn q) s) ∧
    (∀ (fn : Nat) (q : Nat), runEv (.pageMove fn q) s = exec (.pageMove fn q) s) ∧
    (∀ (fn : Nat) (q : Nat), runEv (.blockSet fn q) s = exec (.blockSet fn q) s) ∧
    (∀ (fn : Nat) (q : Nat), runEv (.memCopy fn q) s = exec (.memCopy fn q) s) ∧
    (∀ (fn : Nat) (q : Nat), runEv (.queueCreate fn q) s = exec (.queueCreate fn q) s) ∧
    (∀ (fn : Nat) (q : Nat), runEv (.queueDestroy fn q) s = exec (.queueDestroy fn q) s) ∧
    (∀ (fn : Nat) (q : Nat), runEv (.queueSubmit fn q) s = exec (.queueSubmit fn q) s) ∧
    (∀ (fn : Nat) (q : Nat), runEv (.scopeSet fn q) s = exec (.scopeSet fn q) s) ∧
    (∀ (fn : Nat) (q : Nat), runEv (.boardSet fn q) s = exec (.boardSet fn q) s) ∧
    (∀ (fn : Nat) (q : Nat), runEv (.indexCreate fn q) s = exec (.indexCreate fn q) s) ∧
    (∀ (fn : Nat) (q : Nat), runEv (.indexDestroy fn q) s = exec (.indexDestroy fn q) s) ∧
    (∀ (fn : Nat) (q : Nat), runEv (.graphCreate fn q) s = exec (.graphCreate fn q) s) ∧
    (∀ (fn : Nat) (q : Nat), runEv (.graphPatch fn q) s = exec (.graphPatch fn q) s) ∧
    (∀ (fn : Nat) (q : Nat), runEv (.graphReplay fn q) s = exec (.graphReplay fn q) s) ∧
    (∀ (fn : Nat) (q : Nat), runEv (.jobCancel fn q) s = exec (.jobCancel fn q) s) ∧
    (∀ (fn : Nat) (q : Nat), runEv (.debugHalt fn q) s = exec (.debugHalt fn q) s) ∧
    (∀ (fn : Nat) (q : Nat), runEv (.debugResume fn q) s = exec (.debugResume fn q) s) ∧
    (∀ (fn : Nat) (q : Nat), runEv (.debugRegread fn q) s = exec (.debugRegread fn q) s) ∧
    (∀ (fn : Nat) (q : Nat), runEv (.debugRegwrite fn q) s = exec (.debugRegwrite fn q) s) ∧
    (∀ (fn : Nat) (q : Nat), runEv (.debugLocalread fn q) s = exec (.debugLocalread fn q) s) ∧
    (∀ (fn : Nat) (q : Nat), runEv (.debugLocalwrite fn q) s = exec (.debugLocalwrite fn q) s) ∧
    (∀ (fn : Nat) (q : Nat), runEv (.debugBreakarm fn q) s = exec (.debugBreakarm fn q) s) ∧
    (∀ (fn : Nat) (q : Nat), runEv (.debugBreakoff fn q) s = exec (.debugBreakoff fn q) s) ∧
    (∀ (fn : Nat) (q : Nat), runEv (.badop fn q) s = exec (.badop fn q) s) ∧ (runEv .hostLinkDown s = exec .hostLinkDown s) ∧
    (runEv .hostLinkUp s = exec .hostLinkUp s) ∧ (∀ (req : Nat), runEv (.hostAccessCompletion req) s = exec (.hostAccessCompletion req) s) ∧
    (∀ (err : SoftErr), runEv (.softError err) s = exec (.softError err) s) ∧
    (∀ (eng : Nat), runEv (.engineAccessReply eng) s = exec (.engineAccessReply eng) s) ∧
    (∀ (req : Nat), runEv (.resultStreamArrival req) s = exec (.resultStreamArrival req) s))

/-- R224: an instruction whose guard is false waits, parked, while a general or vector register that it names as a source is pending, and
otherwise retires with no other effect: it neither traps, nor reads its sources, nor waits on a queue or a destination. An instruction
with G = 0 has a true guard. -/
def Obligations.FalseGuardOnlyRetires : Prop :=
  ∀ (i : Instr) (s : State) (uid : Nat) (t : Thread), i.isEvent = false → Seated s uid t →
    ((guardField i).toNat = 0 → guardTrue t i = true) ∧
    ((guardField i).toNat ≠ 0 → guardTrue t i = t.regs.pw.getLsbD (guardField i).toNat) ∧
    (guardTrue t i = false → t.regs.pwPoison = none →
      ((∃ p ∈ sourceRegs i, p.1 < 24 ∧ t.regs.view p.1 = .pending) ∨ (∃ v ∈ vsrcs i, vget t.vec.vst v.toNat .full = .pending) →
        exec i s = .next (parkAt s s.cur uid)) ∧
      (¬ ((∃ p ∈ sourceRegs i, p.1 < 24 ∧ t.regs.view p.1 = .pending) ∨ (∃ v ∈ vsrcs i, vget t.vec.vst v.toNat .full = .pending)) →
        exec i s = .next (retire s s.cur uid)))

/-- R223, R243, R244, R395, R197: the decode steps come first and in order; a true guard, then ILLOP with the word, then ILLREG with the word, then
PRIV; then the sources, in the order A, B, D: the first general register that is poisoned traps with the cause, subcode and address of its record, and
only where none is poisoned does the first pending one with its trap-on-empty bit trap EMPTY. R37, R38: an instruction that is ready, but whose pops take
words that their banks do not serve in this cycle, has them read at their banks first (the cycle is the model's choice, log entry 18).
XVAL of PRIV and the subcode of EMPTY are free values (log entry 12). -/
def Obligations.TrapsInOrder : Prop :=
  ∀ (i : Instr) (s : State) (uid : Nat) (t : Thread), i.isEvent = false → Seated s uid t → guardTrue t i = true →
    ((guardField i).toNat = 0 ∨ t.regs.pwPoison = none) →
    (∀ b, illOp i = some b → Traps i s uid 0x01 b (issueWord i t)) ∧
    (illOp i = none → ∀ b, regBad i t = some b → Traps i s uid 0x02 b (issueWord i t)) ∧
    (illOp i = none → regBad i t = none → ∀ b, privBad i s.cur (s.seat s.cur) t = some b →
      Traps i s uid 0x03 b (Config.openXval 0x03 b)) ∧
    (illOp i = none → regBad i t = none → privBad i s.cur (s.seat s.cur) t = none →
      (∀ c b v, testSources s (coreOf s.cur) t i = .trap c b v → Traps i s uid c b v) ∧
      (t.regs.pwPoison = none → (∀ v ∈ vsrcs i, vget t.vec.vst v.toNat .full ≠ .poisoned) →
        let named (k n : Nat) (te : Bool) : Prop := (sourceRegs i)[k]? = some (n, te)
        let clean (n : Nat) : Prop := isQ n = false ∧ ∀ w, n < 24 → t.regs.view n ≠ .poisoned w
        (∀ k n te w, named k n te → n < 24 → t.regs.view n = .poisoned w → (∀ j m f, j < k → named j m f → clean m) →
          Traps i s uid (recCause w) (recSub w) (recVal w)) ∧
        ((∀ j m f, named j m f → clean m) →
          ∀ k n, named k n true → n < 24 → t.regs.view n = .pending → (∀ j m, j < k → named j m true → m < 24 → t.regs.view m ≠ .pending) →
            Traps i s uid 0x07 (Config.openSub 0x07) (BitVec.ofNat 64 n)))) ∧
    (Ready i s uid t → s.banksIdle (coreOf s.cur) (s.unread i s.cur t) = false →
      let offs := s.unread i s.cur t
      ∃ s', exec i s = .next s' ∧ s'.mem = s.mem ∧ s'.fab.threads = s.fab.threads ∧
        (∃ op, (s'.seat s.cur).localOp = some op ∧ op.kind = .pop ∧ op.uid = uid ∧ op.remaining = offs.length) ∧
        ∀ o ∈ offs, ∃ x ∈ (s'.bank (bankOf (ownCluster s) o)).waiting, x.user = .seat s.cur ∧ x.part = ⟨o, .read, o⟩)

/-- R366, R367, R368: what taking a trap saves, where it goes and what it leaves; a trap stop leaves its notice to be written. -/
def Obligations.TrapEntry : Prop :=
  ∀ (s : State) (seat uid : Nat) (t : Thread) (cause sub : BitVec 8) (xval : Word), s.thread? uid = some t →
    let delegated := t.sys.xstat.mode = false ∧ t.sys.xstat.uh = false ∧ (s.seat seat).deleg.getLsbD cause.toNat = true ∧ t.sys.uxvec ≠ 0
    let supervisor := t.sys.xstat.sys = true ∧ (s.seat seat).xvec ≠ 0
    let s' := takeTrap s seat uid cause sub xval
    s'.mem = s.mem ∧ (∀ v, v ≠ uid → s'.thread? v = s.thread? v) ∧
    ∃ t', s'.thread? uid = some t' ∧
      t'.sys.xpc = t.regs.pc ∧ t'.sys.xcause = sub ++ cause ∧ t'.sys.xval = xval ∧
      t'.sys = { t.sys with xpc := t'.sys.xpc, xcause := t'.sys.xcause, xval := t'.sys.xval, xstat := t'.sys.xstat } ∧
      t'.regs = { t.regs with pc := t'.regs.pc } ∧ t'.vec = t.vec ∧
      (delegated → t'.sys.xstat = { t.sys.xstat with uh := true, pmode := false } ∧ t'.regs.pc = t.sys.uxvec) ∧
      (¬ delegated → supervisor →
        t'.sys.xstat = { t.sys.xstat with pmode := t.sys.xstat.mode, mode := true, uh := false } ∧ t'.regs.pc = (s.seat seat).xvec) ∧
      (¬ delegated → ¬ supervisor → t'.sys.xstat = t.sys.xstat ∧ t'.regs.pc = t.regs.pc ∧ (s'.seat seat).tstop = true ∧
        ⟨s.cycle, .trapNotice seat⟩ ∈ s'.work ∧
        (s'.core (coreOf seat)).stops = (s.core (coreOf seat)).stops ++
          [(uid, ⟨seat, t.asid, [s.seatId seat, (sub ++ cause).setWidth 64, xval, t.regs.pc, 1, 0, 0, 0]⟩)])

/-- R264, R265, R266: a target that is word-aligned and below 2^48 is taken, the link written; another traps ALIGN or GFAULT 0x01 at the transfer
with XVAL the target, and nothing is written.
The subcode of ALIGN is not stated (log entry 12). -/
def Obligations.TransferResults : Prop :=
  let lawful (x : Word) : Prop := x.toNat % 4 = 0 ∧ x.toNat < 2 ^ 48
  let bad (i : Instr) (s : State) (uid : Nat) (x : Word) : Prop :=
    (x.toNat % 4 ≠ 0 → ∃ b, Traps i s uid 0x04 b x) ∧ (x.toNat % 4 = 0 → 2 ^ 48 ≤ x.toNat → Traps i s uid 0x06 0x01 x)
  (∀ (o : OpB) (s : State) (uid : Nat) (t : Thread),
    let x := t.regs.pc + 4 * o.off.signExtend 64
    (Issues (.br o) s uid t → (lawful x → Jumps (.br o) s uid (afterRead (.br o) s t) x) ∧ bad (.br o) s uid x) ∧
    (Issues (.call o) s uid t →
      (lawful x → Jumps (.call o) s uid ((afterRead (.call o) s t).putD s.cur uid 23 (t.regs.pc + 4)) x) ∧ bad (.call o) s uid x)) ∧
  (∀ (o : OpRA) (s : State) (uid : Nat) (t : Thread), Issues (.jr o) s uid t →
    (lawful (src (.jr o) s t 0) → Jumps (.jr o) s uid (afterRead (.jr o) s t) (src (.jr o) s t 0)) ∧ bad (.jr o) s uid (src (.jr o) s t 0)) ∧
  (∀ (o : OpRDA) (s : State) (uid : Nat) (t : Thread), Issues (.jalr o) s uid t →
    (lawful (src (.jalr o) s t 0) →
      Jumps (.jalr o) s uid ((afterRead (.jalr o) s t).putD s.cur uid o.d (t.regs.pc + 4)) (src (.jalr o) s t 0)) ∧
    bad (.jalr o) s uid (src (.jalr o) s t 0)) ∧
  (∀ (o : OpG) (s : State) (uid : Nat) (t : Thread), Issues (.ret o) s uid t →
    (lawful (src (.ret o) s t 0) → Jumps (.ret o) s uid (afterRead (.ret o) s t) (src (.ret o) s t 0)) ∧ bad (.ret o) s uid (src (.ret o) s t 0))

/-- R229, R230, R369, R266: a REPF whose LEN words are in the instruction cache and may stand in a frame captures them and retires; PC then stands at
the first of them, FRAMEST at index 0 of iteration 0. A word that may not stand there traps FRAME with its index. An ERET outside a frame
goes to XPC, after a TRAPI to the instruction behind it; the mode becomes PMODE when it was supervisor, UH is cleared and the timer is
reloaded. In user mode outside a handler it traps PRIV 0x03. -/
def Obligations.FrameCaptureAndReturn : Prop :=
  (∀ (o : OpRepf) (s : State) (uid : Nat) (t : Thread), Issues (.repf o) s uid t →
     let read (k : Nat) : Option (BitVec 32) := (afterRead (.repf o) s t).icacheWord (coreOf s.cur) t.asid (t.regs.pc.toNat + 4 + 4 * k)
     (∀ ws : List (BitVec 32), ws.length = o.len1.toNat + 1 → (∀ k w, ws[k]? = some w → read k = some w ∧ frameMajor w = true) →
       Leads (.repf o) s (((afterRead (.repf o) s t).countEv s.cur 2 1).modThread uid fun u =>
         { u.enterFrame (encode (.repf o)) ws t.regs.pc.toNat 0 0 with park := Park.init })) ∧
     (∀ k w, k ≤ o.len1.toNat → read k = some w → frameMajor w = false →
       (∀ j, j < k → ∃ v, read j = some v ∧ frameMajor v = true) →
       Traps (.repf o) s uid 0x0D (if w.extractLsb' 26 6 = 0x17 then 0x02 else 0x01) (BitVec.ofNat 64 k))) ∧
  (∀ (o : OpG) (s : State) (uid : Nat) (t : Thread),
     let x := if t.sys.xcause.extractLsb' 0 8 = 0x13 then t.sys.xpc + 4 else t.sys.xpc
     (t.sys.xstat.mode = false → t.sys.xstat.uh = false → privBad (.eret o) s.cur (s.seat s.cur) t = some 0x03) ∧
     (Issues (.eret o) s uid t → t.inFrame = false → x.toNat % 4 = 0 → x.toNat < 2 ^ 48 →
       Leads (.eret o) s ((((afterRead (.eret o) s t).countEv s.cur 2 1).modThread uid fun u =>
         { u with sys := { u.sys with xstat := { u.sys.xstat with mode := if u.sys.xstat.mode then u.sys.xstat.pmode else false, uh := false } }
                  regs := { u.regs with pc := x }, park := Park.init }).modSeat s.cur fun y =>
           { y with timer := y.quantum, timerAt := s.cycle, timerDue := false })) ∧
     (Issues (.eret o) s uid t → t.inFrame = false → x.toNat % 4 ≠ 0 → ∃ b, Traps (.eret o) s uid 0x04 b x) ∧
     (Issues (.eret o) s uid t → t.inFrame = false → x.toNat % 4 = 0 → 2 ^ 48 ≤ x.toNat → Traps (.eret o) s uid 0x06 0x01 x))

/-- R241, R243, R358, R360, R361, R362, R409: the instructions whose effect is to trap, to stop the seat or to do nothing; of a doublet both seats stop. WFE clears
EVENT and retires; with EVENT = 0 it parks, counted as R49 says, or retires without a trap once it waits with WAITED > LIMIT. A word that the
decoder refuses traps ILLOP with its subcode when its guard is true; the all-ones word always does; another retires under a false guard. -/
def Obligations.TrapAndHaltResults : Prop :=
  let pair (s r : State) (f : Seat → Seat) : State :=
    if (FMap.find? r.fab.doublets s.cur).isSome then (r.modSeat s.cur f).modSeat (s.cur + 8) f else r.modSeat s.cur f
  (∀ (s : State) (uid : Nat) (t : Thread), Issues .ill s uid t → Traps .ill s uid 0x01 0x05 (issueWord .ill t)) ∧
  (∀ (o : OpTrap) (s : State) (uid : Nat) (t : Thread), Issues (.trap o) s uid t → Traps (.trap o) s uid 0x13 (o.imm.setWidth 8) 0) ∧
  (∀ (o : OpG) (s : State) (uid : Nat) (t : Thread),
    (Issues (.nop o) s uid t → Completes (.nop o) s uid (afterRead (.nop o) s t)) ∧
    (Issues (.halt o) s uid t → Completes (.halt o) s uid (pair s (afterRead (.halt o) s t) fun x => { x with halt := true })) ∧
    (Issues (.dbgbrk o) s uid t →
      (((s.context? t.asid).map (·.breakArmed)).getD false = true →
        Leads (.dbgbrk o) s (pair s (afterRead (.dbgbrk o) s t) fun x => { x with dbgHalt := true })) ∧
      (((s.context? t.asid).map (·.breakArmed)).getD false = false → Traps (.dbgbrk o) s uid 0x12 0x01 0)) ∧
    (Issues (.wfe o) s uid t →
      (t.bar.event = true →
        Completes (.wfe o) s uid ((afterRead (.wfe o) s t).modThread uid fun u => { u with bar := { u.bar with event := false } })) ∧
      (t.bar.event = false → t.park.counting = true → t.limit.toNat < t.park.units s.cycle →
        Completes (.wfe o) s uid (afterRead (.wfe o) s t)) ∧
      (t.bar.event = false → (t.park.counting = false ∨ t.park.units s.cycle ≤ t.limit.toNat) →
        exec (.wfe o) s = .next ((parkWait (afterRead (.wfe o) s t) s.cur uid).giveBack s.cur)))) ∧
  (∀ (w : BitVec 32) (e : DecodeError) (s : State) (uid : Nat) (t : Thread), decode w = .error e → Seated s uid t → t.inFrame = false →
    t.regs.pwPoison = none →
    (w = BitVec.allOnes 32 ∨ t.pred (guardOf w).toNat = true →
      exec (.unassignedEncoding w) s = .next (takeTrap s s.cur uid 0x01 e.subcode (w.setWidth 64))) ∧
    (w ≠ BitVec.allOnes 32 → t.pred (guardOf w).toNat = false → exec (.unassignedEncoding w) s = .next (retire s s.cur uid)))

/-! ## Local memory -/

/-- R273: LDL and LDLS write the bytes read, extended; STL writes the low bytes of g[D] at LBASE + o, and nothing else of memory.
Service at the issue is the model's choice (log entry 18). -/
def Obligations.LocalLoadStoreResults : Prop :=
  ∀ (o : OpM) (s : State) (uid : Nat) (t : Thread),
    let size := 2 ^ o.sz.toNat
    let off (i : Instr) : Word := src i s t 0 + o.off.signExtend 64 * BitVec.ofNat 64 size
    let value (i : Instr) (ea : Nat) : Nat := ((afterRead i s t).localWord (ownCluster s) ea).toNat / 2 ^ (8 * (ea % 8)) % 2 ^ (8 * size)
    let mask (ea : Nat) : BitVec 8 := BitVec.ofNat 8 ((2 ^ size - 1) * 2 ^ (ea % 8))
    let data (ea : Nat) : Word := src (.stl o) s t 1 <<< (8 * (ea % 8))
    (Issues (.ldl o) s uid t → LocalAt (.ldl o) s uid t (off (.ldl o)) size False (fun ea => .load o.d size false (ea % 8)) (fun _ => .read)
      fun s1 ea => Completes (.ldl o) s uid ((settled s1).putD s.cur uid o.d (BitVec.ofNat 64 (value (.ldl o) ea)))) ∧
    (Issues (.ldls o) s uid t → LocalAt (.ldls o) s uid t (off (.ldls o)) size False (fun ea => .load o.d size true (ea % 8)) (fun _ => .read)
      fun s1 ea => Completes (.ldls o) s uid ((settled s1).putD s.cur uid o.d (signExt (8 * size) (value (.ldls o) ea)))) ∧
    (Issues (.stl o) s uid t → LocalAt (.stl o) s uid t (off (.stl o)) size (size = 8) (fun _ => .store) (fun ea => .write (mask ea) (data ea))
      fun s1 ea => Completes (.stl o) s uid (settled ((s1.logStore s.cur (ownCluster s) ea).localWrite (ownCluster s) ea (mask ea) (data ea))))

/-- R46, R127, R279: an attempt of a SYNC instruction tests the full/empty bit of its word, and reads or writes the word and the bit in one bank cycle; an attempt
that finds the bit in the other state parks and changes neither (R49: WAITED counts from the first one on; a later one that finds WAITED > LIMIT has
WAITLIM fall due, with the segment offset). Each local atomic writes the new word and returns the old one, in one bank cycle.
Service at the issue is the model's choice (log entry 18). -/
def Obligations.SyncResults : Prop :=
  (∀ (o : OpMS) (s : State) (uid : Nat) (t : Thread),
    let off (i : Instr) : Word := src i s t 0 + o.off.signExtend 64 * 8
    let word (i : Instr) (ea : Nat) : Word := (afterRead i s t).localWord (ownCluster s) ea
    let full (i : Instr) (ea : Nat) : Bool := (afterRead i s t).localFull (ownCluster s) ea
    let parks (i : Instr) (s1 : State) : Prop :=
      let w := parkWait ((settled s1).giveBack s.cur) s.cur uid
      (t.park.counting = false ∨ t.park.units s.cycle ≤ t.limit.toNat → Leads i s w) ∧
      (t.park.counting = true → t.limit.toNat < t.park.units s.cycle → Leads i s (w.trapDue s.cur 0x08 0x01 (off i)))
    (Issues (.ldw o) s uid t → LocalAt (.ldw o) s uid t (off (.ldw o)) 8 False (fun _ => .sync 0 o.d) (fun _ => .sync 0 (src (.ldw o) s t 1))
      fun s1 ea =>
        (full (.ldw o) ea = true → Completes (.ldw o) s uid ((settled s1).putD s.cur uid o.d (word (.ldw o) ea))) ∧
        (full (.ldw o) ea = false → parks (.ldw o) s1)) ∧
    (Issues (.lde o) s uid t → LocalAt (.lde o) s uid t (off (.lde o)) 8 False (fun _ => .sync 1 o.d) (fun _ => .sync 1 (src (.lde o) s t 1))
      fun s1 ea =>
        (full (.lde o) ea = true →
          Completes (.lde o) s uid ((settled ((s1.logStore s.cur (ownCluster s) ea).setFull (ownCluster s) ea false)).putD s.cur uid o.d
            (word (.lde o) ea))) ∧
        (full (.lde o) ea = false → parks (.lde o) s1)) ∧
    (Issues (.stf o) s uid t → LocalAt (.stf o) s uid t (off (.stf o)) 8 False (fun _ => .sync 2 o.d) (fun _ => .sync 2 (src (.stf o) s t 1))
      fun s1 ea =>
        (full (.stf o) ea = false →
          Completes (.stf o) s uid (settled
            (((s1.logStore s.cur (ownCluster s) ea).localWrite (ownCluster s) ea 255 (src (.stf o) s t 1)).setFull (ownCluster s) ea true))) ∧
        (full (.stf o) ea = true → parks (.stf o) s1))) ∧
  (∀ (o : OpMA) (s : State) (uid : Nat) (t : Thread), Issues (.sete o) s uid t →
    LocalAt (.sete o) s uid t (src (.sete o) s t 0 + o.off.signExtend 64 * 8) 8 False (fun _ => .sync 3 63)
      (fun _ => .sync 3 (src (.sete o) s t 1))
      fun s1 ea => Completes (.sete o) s uid (settled ((s1.logStore s.cur (ownCluster s) ea).setFull (ownCluster s) ea false))) ∧
  (let atomic (c : OpR → Instr) (k : BitVec 3) (f : Word → Word → Word → Word) : Prop :=
     ∀ (o : OpR) (s : State) (uid : Nat) (t : Thread), Issues (c o) s uid t →
       LocalAt (c o) s uid t (src (c o) s t 0) 8 False (fun _ => .atomic o.d) (fun _ => .atomic k (src (c o) s t 1) (src (c o) s t 2))
         fun s1 ea =>
           let m := (afterRead (c o) s t).localWord (ownCluster s) ea
           Completes (c o) s uid ((settled ((s1.logStore s.cur (ownCluster s) ea).localWrite (ownCluster s) ea 255
             (f m (src (c o) s t 1) (src (c o) s t 2)))).putD s.cur uid o.d m)
   atomic Instr.faal 0 (fun m b _ => m + b) ∧ atomic Instr.swapl 1 (fun _ b _ => b) ∧
   atomic Instr.casl 2 (fun m b e => if m = e then b else m) ∧ atomic Instr.fandl 3 (fun m b _ => m &&& b) ∧
   atomic Instr.forl 4 (fun m b _ => m ||| b) ∧ atomic Instr.fxorl 5 (fun m b _ => m ^^^ b) ∧
   atomic Instr.fminl 6 (fun m b _ => if b.toInt < m.toInt then b else m) ∧ atomic Instr.fmaxl 7 (fun m b _ => if m.toInt < b.toInt then b else m))

/-- R297, R298: the local vector accesses go to their banks, 64 bytes at a multiple of 64 or one word for each active lane; a misaligned base, or an
offset or the first active lane outside the segment, traps, and nothing is accessed. With every bank in the own tile, free and clean, they complete: VLDL
and VLDB write the active elements of the block read, VGATL each active lane; VSTL writes the active granules and VSCAL the active lanes, a later lane
over an earlier one, and no other byte.
Service at the issue is the model's choice (log entry 18). -/
def Obligations.LocalVectorResults : Prop :=
  let aligned (s : State) : Prop := (s.seat s.cur).lbase.toNat % 64 = 0 ∧ (s.seat s.cur).llim.toNat % 64 = 0
  let block (i : Instr) (s : State) (uid : Nat) (t : Thread) (off : Word) (kind : LocalKind) (parts : Nat → List BankPart)
      (good : State → Nat → Prop) : Prop :=
    let r := afterRead i s t
    let ea := (r.seat s.cur).lbase.toNat + off.toNat
    (off.toNat % 64 ≠ 0 → ∃ b, Traps i s uid 0x04 b off) ∧
    (off.toNat % 64 = 0 → (r.seat s.cur).segLen ≤ off.toNat → ∃ b, Traps i s uid 0x05 b off) ∧
    (off.toNat % 64 = 0 → off.toNat < (r.seat s.cur).segLen →
      Leads i s (r.localAccess s.cur uid kind off (parts ea)) ∧
      ((∀ j, j < 8 → AtOnce r (ea + 8 * j) ∧ r.localPoisoned (ownCluster s) (ea + 8 * j) = false) → good r ea))
  let reads (ea : Nat) : List BankPart := (List.range 8).map fun j => ⟨ea + 8 * j, .read, j⟩
  (∀ (o : OpVM) (s : State) (uid : Nat) (t : Thread),
    let off (i : Instr) : Word := src i s t 0 + o.off.signExtend 64 * 64
    let bytes := granuleBytes (t.kmask o.k.toNat)
    (Issues (.vldl o) s uid t → block (.vldl o) s uid t (off (.vldl o)) (.vload o.vd bytes) reads fun r ea =>
      ∃ (s1 : State) (l : Line), s1.mem = r.mem ∧ s1.fab.threads = r.fab.threads ∧ (∀ j, j < 8 → lineWord l j = r.localWord (ownCluster s) (ea + 8 * j)) ∧
        Completes (.vldl o) s uid (s1.putV uid o.vd (lineMerge (vget t.vec.v o.vd.toNat 0) l bytes))) ∧
    (Issues (.vstl o) s uid t → block (.vstl o) s uid t (off (.vstl o)) .vstore
        (fun ea => (List.range 8).map fun j => ⟨ea + 8 * j, .write (bytes.extractLsb' (8 * j) 8) (lineWord (vget t.vec.v o.vd.toNat 0) j), j⟩) fun r ea =>
      s.MemOk → aligned s → ∃ s1 : State, s1.fab.threads = r.fab.threads ∧ Completes (.vstl o) s uid s1 ∧
        (∀ k, k < 64 → Mem.read s1.mem.spad (spadAddr (ownCluster s) (ea / 8 * 8 + k)) =
          if bytes.getLsbD k then (vget t.vec.v o.vd.toNat 0).extractLsb' (8 * k) 8
          else Mem.read r.mem.spad (spadAddr (ownCluster s) (ea / 8 * 8 + k))) ∧
        (∀ a, a < spadAddr (ownCluster s) (ea / 8 * 8) ∨ spadAddr (ownCluster s) (ea / 8 * 8) + 64 ≤ a →
          Mem.read s1.mem.spad a = Mem.read r.mem.spad a)) ∧
    (Issues (.vgatl o) s uid t →
      let base := off (.vgatl o)
      let r := afterRead (.vgatl o) s t
      let idx := vget t.vec.v o.vd.toNat 0
      let km := t.kmask o.k.toNat
      (base.toNat % 64 ≠ 0 → ∃ b, Traps (.vgatl o) s uid 0x04 b base) ∧
      let ea (j : Nat) : Nat := (r.seat s.cur).lbase.toNat + (laneOff base idx j).toNat
      (∀ j, j < 16 → km.getLsbD j = true → (r.seat s.cur).segLen ≤ (laneOff base idx j).toNat →
        (∀ k, k < j → km.getLsbD k = true → (laneOff base idx k).toNat < (r.seat s.cur).segLen) → base.toNat % 64 = 0 →
        ∃ b, Traps (.vgatl o) s uid 0x05 b (laneOff base idx j)) ∧
      (base.toNat % 64 = 0 → (∀ j, j < 16 → km.getLsbD j = true → (laneOff base idx j).toNat < (r.seat s.cur).segLen) →
        Leads (.vgatl o) s (r.localAccess s.cur uid (.gather o.vd) base ((List.range 16).filterMap fun j =>
          if km.getLsbD j then some ⟨ea j, .read, j⟩ else none)) ∧
        ((∀ j, j < 16 → km.getLsbD j = true → AtOnce r (ea j) ∧ r.localPoisoned (ownCluster s) (ea j) = false) →
          ∃ (s1 : State) (l : Line), s1.mem = r.mem ∧ s1.fab.threads = r.fab.threads ∧ Completes (.vgatl o) s uid (s1.putV uid o.vd l) ∧
            ∀ j, j < 16 → elemAt 32 l j =
              if km.getLsbD j then (r.localWord (ownCluster s) (ea j)).toNat / (if ea j % 8 = 4 then 2 ^ 32 else 1) % 2 ^ 32 else elemAt 32 idx j))) ∧
    (Issues (.vscal o) s uid t →
      let base := off (.vscal o)
      let r := afterRead (.vscal o) s t
      let idx := vget t.vec.v (o.vd.toNat + 1) 0
      let km := t.kmask o.k.toNat
      (base.toNat % 64 ≠ 0 → ∃ b, Traps (.vscal o) s uid 0x04 b base) ∧
      let ea (j : Nat) : Nat := (r.seat s.cur).lbase.toNat + (laneOff base idx j).toNat
      (∀ j, j < 16 → km.getLsbD j = true → (r.seat s.cur).segLen ≤ (laneOff base idx j).toNat →
        (∀ k, k < j → km.getLsbD k = true → (laneOff base idx k).toNat < (r.seat s.cur).segLen) → base.toNat % 64 = 0 →
        ∃ b, Traps (.vscal o) s uid 0x05 b (laneOff base idx j)) ∧
      (base.toNat % 64 = 0 → (∀ j, j < 16 → km.getLsbD j = true → (laneOff base idx j).toNat < (r.seat s.cur).segLen) →
        Leads (.vscal o) s (r.localAccess s.cur uid .vstore base ((List.range 16).filterMap fun j =>
          if km.getLsbD j then some ⟨ea j, laneWrite (vget t.vec.v o.vd.toNat 0) j (ea j), j⟩ else none)) ∧
        ((∀ j, j < 16 → km.getLsbD j = true → AtOnce r (ea j) ∧ r.localPoisoned (ownCluster s) (ea j) = false) → s.MemOk → aligned s →
          ∃ s1 : State, s1.fab.threads = r.fab.threads ∧ Completes (.vscal o) s uid s1 ∧
            (∀ j, j < 16 → km.getLsbD j = true → (∀ k, j < k → k < 16 → km.getLsbD k = true → ea k ≠ ea j) → ∀ b, b < 4 →
              Mem.read s1.mem.spad (spadAddr (ownCluster s) (ea j + b)) = (vget t.vec.v o.vd.toNat 0).extractLsb' (32 * j + 8 * b) 8) ∧
            (∀ a, (∀ j, j < 16 → km.getLsbD j = true → a < spadAddr (ownCluster s) (ea j) ∨ spadAddr (ownCluster s) (ea j) + 4 ≤ a) →
              Mem.read s1.mem.spad a = Mem.read r.mem.spad a))))) ∧
  (∀ (o : OpVMb) (s : State) (uid : Nat) (t : Thread), Issues (.vldb o) s uid t →
    let bytes := granuleBytes (t.kmask o.k.toNat)
    block (.vldb o) s uid t (src (.vldb o) s t 0 + o.off.signExtend 64 * 64) (.vbcast o.vd bytes (4 * 2 ^ o.m3.toNat)) reads fun r ea =>
      ∃ (s1 : State) (l : Line), s1.mem = r.mem ∧ s1.fab.threads = r.fab.threads ∧
        (∀ k, k < 64 → l.extractLsb' (8 * k) 8 = Mem.read r.mem.spad (spadAddr (ownCluster s) (ea / 8 * 8 + k % (4 * 2 ^ o.m3.toNat)))) ∧
        Completes (.vldb o) s uid (s1.putV uid o.vd (lineMerge (vget t.vec.v o.vd.toNat 0) l bytes)))

/-! ## Global memory -/

/-- R274, R297: LDG, LDGS and VLDG. A poisoned word among those read brings the record of R69.
That an anchored load waits for a write-back that its cluster has sent is the model's reading (log entry 86). -/
def Obligations.GlobalLoadResults : Prop :=
  (∀ (o : OpM) (s : State) (uid : Nat) (t : Thread),
    let size := 2 ^ o.sz.toNat
    let va (i : Instr) : Word := src i s t 0 + o.off.signExtend 64 * BitVec.ofNat 64 size
    let mask (i : Instr) : BitVec 64 := byteMask ((va i).toNat % 64) size
    let bytes (i : Instr) (l : Line) : Nat := l.toNat / 2 ^ (8 * ((va i).toNat % 64)) % 2 ^ (8 * size)
    let fill (i : Instr) (x : Nat → Word) (l : Line) (poison : BitVec 8) : Fill :=
      if poison &&& maskWords (mask i) ≠ 0 then .poison (poisonRec 0x10 0x03 (va i).toNat) else .word (x (bytes i l))
    (Issues (.ldg o) s uid t → GlobalAt (.ldg o) s uid t (va (.ldg o)) size
      (LoadGoes (.ldg o) s uid t (fun r => Req.make r s.cur uid t .load (va (.ldg o)).toNat size) (destOf o.d)
        (fill (.ldg o) (BitVec.ofNat 64)))) ∧
    (Issues (.ldgs o) s uid t → GlobalAt (.ldgs o) s uid t (va (.ldgs o)) size
      (LoadGoes (.ldgs o) s uid t (fun r => { Req.make r s.cur uid t .load (va (.ldgs o)).toNat size with signed := true }) (destOf o.d)
        (fill (.ldgs o) (signExt (8 * size)))))) ∧
  (∀ (o : OpVM) (s : State) (uid : Nat) (t : Thread), Issues (.vldg o) s uid t →
    let va := src (.vldg o) s t 0 + o.off.signExtend 64 * 64
    GlobalAt (.vldg o) s uid t va 64
      (LoadGoes (.vldg o) s uid t (fun r => { Req.make r s.cur uid t .load va.toNat 64 with mask := BitVec.allOnes 64 })
        (.v o.vd.toNat (granuleBytes (t.kmask o.k.toNat))) (lineFill va.toNat)))

/-- R274, R275, R297: STG and VSTG carry the bytes stored with their mask; STGM carries the bytes that its mask selects and always goes home.
That an anchored store waits for a write-back that its cluster has sent is the model's reading (log entry 86). -/
def Obligations.GlobalStoreResults : Prop :=
  (∀ (o : OpM) (s : State) (uid : Nat) (t : Thread), Issues (.stg o) s uid t →
    let size := 2 ^ o.sz.toNat
    let va := src (.stg o) s t 0 + o.off.signExtend 64 * BitVec.ofNat 64 size
    GlobalAt (.stg o) s uid t va size (StoreGoes (.stg o) s uid t fun r =>
      { Req.make r s.cur uid t .store va.toNat size with data := placed va.toNat (src (.stg o) s t 1), noAlloc := o.ta })) ∧
  (∀ (o : OpVM) (s : State) (uid : Nat) (t : Thread), Issues (.vstg o) s uid t →
    let va := src (.vstg o) s t 0 + o.off.signExtend 64 * 64
    let bytes := granuleBytes (t.kmask o.k.toNat)
    GlobalAt (.vstg o) s uid t va 64 (StoreGoes (.vstg o) s uid t fun r =>
      { Req.make r s.cur uid t .store va.toNat 64 with data := vget t.vec.v o.vd.toNat 0, mask := bytes, noAlloc := bytes == 0 })) ∧
  (∀ (o : OpStgm) (s : State) (uid : Nat) (t : Thread), Issues (.stgm o) s uid t →
    let va := src (.stgm o) s t 0
    GlobalAt (.stgm o) s uid t va 8 (AfterFlush (.stgm o) s uid t va.toNat fun r => StoreHome (.stgm o) s uid r
      { Req.make r s.cur uid t .stgm va.toNat 8 with data := placed va.toNat (src (.stgm o) s t 1),
                                                     mask := o.mask.setWidth 64 <<< (va.toNat % 64) }))

/-- R280, R281, R133: atomics, reservations and reductions are sent home, after the write-back of R114, with their operands; the register that takes
the old word, or the acknowledgement, is owed. WAITRS with no used slot writes all ones at once; one whose slots are lawful and
unoccupied registers each at its home and starts the limit of LIMIT + 1 units; an anchored thread first invalidates the lines of its slots, and waits for
the write-backs of the dirty ones. The first slot with a bad address traps.
That WAITRS writes back first is the model's reading (log entry 55), the wait for other write-backs too (86); the order of its checks is its choice (95). -/
def Obligations.GlobalAtomicResults : Prop :=
  (let sent (i : Instr) (s : State) (uid : Nat) (t : Thread) (op : ReqOp) (cls : AnsClass) (d : Dest) : Prop :=
     let va := src i s t 0
     Issues i s uid t → GlobalAt i s uid t va 8 (AfterFlush i s uid t va.toNat fun r =>
       Completes i s uid (r.sendOwed uid (Req.make r s.cur uid t op va.toNat 8) cls [.global (va.toNat / 64 * 64)] d))
   let atomic (c : OpR → Instr) (op : Word → Word → ReqOp) : Prop := ∀ (o : OpR) (s : State) (uid : Nat) (t : Thread),
     sent (c o) s uid t (op (src (c o) s t 1) (src (c o) s t 2)) .load (destOf o.d)
   let reduce (c : OpRed → Instr) (f : BitVec 3) : Prop := ∀ (o : OpRed) (s : State) (uid : Nat) (t : Thread),
     sent (c o) s uid t (.red f (src (c o) s t 1) o.nc) .store .none
   atomic Instr.faa (fun b _ => .atom 0 b 0) ∧ atomic Instr.swap (fun b _ => .atom 1 b 0) ∧ atomic Instr.cas (fun b e => .atom 2 b e) ∧
   atomic Instr.sc (fun b _ => .sc b) ∧ atomic Instr.amax (fun b _ => .atom 5 b 0) ∧
   (∀ (o : OpRDA) (s : State) (uid : Nat) (t : Thread), sent (.lr o) s uid t .lr .load (destOf o.d)) ∧
   (∀ (o : OpRA) (s : State) (uid : Nat) (t : Thread), sent (.rsvrel o) s uid t .rsvrel .store .none) ∧
   reduce Instr.raddI64 0 ∧ reduce Instr.raddF32 1 ∧ reduce Instr.raddF64 2 ∧ reduce Instr.rmin 3 ∧ reduce Instr.rmax 4 ∧
   reduce Instr.rand 5 ∧ reduce Instr.ror 6 ∧ reduce Instr.rxor 7) ∧
  (∀ (o : OpR) (s : State) (uid : Nat) (t : Thread), Issues (.waitrs o) s uid t →
     let i := Instr.waitrs o
     let r := afterRead i s t
     let used (k : Nat) : Prop := k < 4 ∧ src i s t k ≠ BitVec.allOnes 64
     let lawful (k : Nat) : Prop := (src i s t k).toNat % 8 = 0 ∧ (src i s t k).toNat < 2 ^ 48
     let slots := (List.range 4).filterMap fun k => if src i s t k = BitVec.allOnes 64 then none else some (k, (src i s t k).toNat, src i s t (4 + k))
     ((∀ k, ¬ used k) → Completes i s uid (r.modThread uid fun u => u.fill (destOf o.d) (.word (BitVec.allOnes 64)))) ∧
     (∀ k, used k → (∀ j, j < k → used j → lawful j) →
       ((src i s t k).toNat % 8 ≠ 0 → ∃ b, Traps i s uid 0x04 b (src i s t k)) ∧
       ((src i s t k).toNat % 8 = 0 → 2 ^ 48 ≤ (src i s t k).toNat → Traps i s uid 0x06 0x01 (src i s t k))) ∧
     ((∃ k, used k) → (∀ k, used k → lawful k) → (∀ k, used k → t.occupies (.global ((src i s t k).toNat / 64 * 64)) = false) →
       let registers (x : State) : Prop :=
         let id := x.net.nextId
         let s1 := (((x.fresh.2).setReq id (Req.make x.fresh.2 s.cur uid t (.waitrs slots) (slots.headD (0, 0, 0)).2.1 8)).arm id 65536).modThread uid
           fun u => u.owe id .load (slots.map fun p => .global (p.2.1 / 64 * 64)) (destOf o.d)
         Completes i s uid ((sendWatches s.cur uid t id slots s1).addWork ((t.limit.toNat + 1) * 1024) (.waitrsLimit id))
       let flushed := slots.foldl (fun (x : State × Bool) p =>
         match x.1.ncFind (ownCluster s) t.asid p.2.1 with
         | none => x
         | some l => let y := x.1.ncDrop (ownCluster s) t.asid p.2.1
                     if l.dirty = 0 then (y, x.2) else (y.sendWriteBack (ownCluster s) l (some (s.cur, uid)), true)) (r, false)
       (t.kind ≠ .anchored → registers r) ∧
       (t.kind = .anchored → flushed.2 = true → exec i s = .next ((parkAt flushed.1 s.cur uid).giveBack s.cur)) ∧
       (t.kind = .anchored → flushed.2 = false →
         ((∃ p ∈ slots, r.mustWait s.cur t p.2.1 = true) → exec i s = .next (parkAt s s.cur uid)) ∧
         ((∀ p ∈ slots, r.mustWait s.cur t p.2.1 = false) → registers flushed.1))))

/-- R277, R18, R119, R173: the mesh accesses. -/
def Obligations.MeshAccessResults : Prop :=
  ∀ (o : OpMS) (s : State) (uid : Nat) (t : Thread),
    let goes (i : Instr) (op : ReqOp) (cls : AnsClass) (d : Dest) : Prop := Issues i s uid t →
      let ma := src i s t 0 + o.off.signExtend 64 * 8
      let r := afterRead i s t
      (ma.toNat % 8 ≠ 0 → ∃ b, Traps i s uid 0x04 b ma) ∧
      (ma.toNat % 8 = 0 → ma.extractLsb' 24 27 ≠ 0 → Traps i s uid 0x06 0x02 ma) ∧
      (ma.toNat % 8 = 0 → ma.extractLsb' 24 27 = 0 →
        (r.accessMove s.cur t ma.toNat = none →
          (t.occupies (.mesh (ma.toNat / 64 * 64)) = true → exec i s = .next (parkAt s s.cur uid)) ∧
          (t.occupies (.mesh (ma.toNat / 64 * 64)) = false →
            Completes i s uid (r.sendOwed uid { Req.make r s.cur uid t op ma.toNat 8 with data := (src i s t 1).setWidth 512 } cls
              [.mesh (ma.toNat / 64 * 64)] d))) ∧
        (∀ dst, r.accessMove s.cur t ma.toNat = some dst →
          (t.owed ≠ [] → exec i s = .next (parkAt s s.cur uid)) ∧
          (t.owed = [] → Leads i s (((r.sendContext uid t .access (coreOf s.cur) dst).1.modThread uid fun u =>
            { u with loc := .transit s.cur, park := Park.init }).countEv s.cur 8 1))))
    goes (.ldr o) .ldr .load (destOf o.d) ∧ goes (.str o) .str .store .none ∧ goes (.ldre o) .ldre .load (destOf o.d) ∧ goes (.strf o) .strf .store .none


/-! ## Fences, barriers, the end of a thread -/

/-- R283, R109, R110: FENCE releases, acquires or does both by its kind; an acquire waits for the fills owed.
Answers on their way at an acquire follow the model's reading (log entries 66, 86). -/
def Obligations.FenceResults : Prop :=
  ∀ (o : OpFence) (s : State) (uid : Nat) (t : Thread), Issues (.fence o) s uid t →
    let i := Instr.fence o
    let r := afterRead i s t
    let wide := r.scopeWide t.asid (coreOf s.cur) o.scope.toNat
    (o.kind = 1 →
      ((∃ x ∈ t.owed, x.cls = .load) → exec i s = .next ((parkAt r s.cur uid).giveBack s.cur)) ∧
      ((∀ x ∈ t.owed, x.cls ≠ .load) → Completes i s uid (acquired s t wide r))) ∧
    (o.kind ≠ 1 → AfterRelease i s uid t wide true (parkAt · s.cur uid) fun r1 =>
      (o.kind = 2 → Completes i s uid r1) ∧ (o.kind ≠ 2 → Completes i s uid (acquired s t wide r1)))

/-- R284, R285, R354: BAR L releases and arrives; it parks, with its arrival recorded, until the last member of its group has arrived or exited, and
then acquires and retires. BAR 0 is the release and the acquire alone. CELLSYNC waits for every thread of the launch; with the last
arrival, where no merge is to be made, it acquires and retires; its scope is that of BAR 6.
A thread of no launch is alone in its barriers by the model's choice (log entry 57); the release waits for write-backs on their way (86). -/
def Obligations.BarrierResults : Prop :=
  (∀ (o : OpBar) (s : State) (uid : Nat) (t : Thread), Issues (.bar o) s uid t →
     let i := Instr.bar o
     let n := o.level.toNat
     let r := afterRead i s t
     let wide := r.scopeWide t.asid (coreOf s.cur) (r.barScope t n)
     let group := r.groupOf t n t.regs.wid
     let passed (x : State) : Prop :=
       Completes i s uid ((acquired s t wide x).modThread uid fun u => { u with bar := { u.bar with barr := false } })
     (t.bar.barr = true → t.bar.blev.toNat = n →
       (r.barrierGen t n group = t.bar.bgen → exec i s = .next ((parkWait r s.cur uid).giveBack s.cur)) ∧
       (r.barrierGen t n group ≠ t.bar.bgen → (∀ x ∈ t.owed, x.cls ≠ .load) → passed r)) ∧
     (t.bar.barr = false ∨ t.bar.blev.toNat ≠ n → AfterRelease i s uid t wide true (parkWait · s.cur uid) fun r1 =>
       (n = 0 → Completes i s uid (acquired s t wide r1)) ∧
       (n ≠ 0 → r1.launchOf t = none → passed (r1.arriveBarrier uid t n group)) ∧
       (n ≠ 0 → ∀ l, r1.launchOf t = some l →
         (l.members n ≤ (l.barrier n group).count + 1 + l.exitedIn n group → passed (r1.arriveBarrier uid t n group)) ∧
         ((l.barrier n group).count + 1 + l.exitedIn n group < l.members n →
           exec i s = .next ((parkWait (r1.arriveBarrier uid t n group) s.cur uid).giveBack s.cur))))) ∧
  (∀ (o : OpG) (s : State) (uid : Nat) (t : Thread), Issues (.cellsync o) s uid t →
     let i := Instr.cellsync o
     let r := afterRead i s t
     let wide := r.scopeWide t.asid (coreOf s.cur) (r.barScope t 6)
     let passed (x : State) : Prop :=
       Completes i s uid ((acquired s t wide x).modThread uid fun u => { u with bar := { u.bar with carr := false } })
     (t.bar.carr = true →
       (r.barrierGen t 7 0 = t.bar.bgen → exec i s = .next ((parkWait r s.cur uid).giveBack s.cur)) ∧
       (r.barrierGen t 7 0 ≠ t.bar.bgen → (∀ x ∈ t.owed, x.cls ≠ .load) → passed r)) ∧
     (t.bar.carr = false → AfterRelease i s uid t wide true (parkWait · s.cur uid) fun r1 =>
       (r1.launchOf t = none → passed (r1.arriveCell uid t)) ∧
       (∀ l, r1.launchOf t = some l →
         (l.members 6 ≤ (l.barrier 7 0).count + 1 + l.exitedIn 6 0 → l.board = none → r1.merging t.launch = false → passed (r1.arriveCell uid t)) ∧
         ((l.barrier 7 0).count + 1 + l.exitedIn 6 0 < l.members 6 →
           exec i s = .next ((parkWait (r1.arriveCell uid t) s.cur uid).giveBack s.cur)))))

/-- R111, R335, R359: EXIT and IFENCE come after a wide release. EXIT then gives up the thread's reservations and weight slots, empties its seat and counts
the thread out, which is no more; IFENCE invalidates the instruction-cache lines of its context on its core, lets no fetch that the home has answered
bring one back, and retires.
That the release waits for write-backs on their way, and what becomes of answered fetches, is the model's reading (log entries 86, 66). -/
def Obligations.ExitAndIfenceResults : Prop :=
  (∀ (o : OpG) (s : State) (uid : Nat) (t : Thread), Issues (.exit o) s uid t →
    AfterRelease (.exit o) s uid t true true (parkAt · s.cur uid) fun r1 => ∃ s1 : State,
      exec (.exit o) s = .next s1 ∧ s1 = r1.exitThread s.cur uid ∧ (s1.seat s.cur).occ = none ∧ s1.thread? uid = none) ∧
  (∀ (o : OpG) (s : State) (uid : Nat) (t : Thread), Issues (.ifence o) s uid t →
    AfterRelease (.ifence o) s uid t true true (parkAt · s.cur uid) fun r1 =>
      ∃ s1 : State, Completes (.ifence o) s uid s1 ∧ s1.mem = r1.mem ∧ s1.fab.threads = r1.fab.threads ∧
        (∀ va, s1.icacheWord (coreOf s.cur) t.asid va = none) ∧
        (s1.core (coreOf s.cur)).icache = (r1.core (coreOf s.cur)).icache.filter (fun l => l.asid != t.asid) ∧
        (∀ id q, s1.req? id = some q → q.op = .ifetch → q.asid = t.asid → coreOf q.seat = coreOf s.cur → q.stage = .answered →
          q.aged = BitVec.allOnes 64))

/-- R171, R203, R205, R353: ANCHOR takes the lowest free weight slots of the tile, as many as the launch asks, and starts the vector and matrix state at zero;
UNANCHOR, after a wide release that reports nothing and waits for write-backs and for the answers of VLDG and VSTG alone, gives all of it up. Neither does anything to a thread that is so already.
The lines that ANCHOR drops, and the wait of UNANCHOR for write-backs on their way, follow the model's reading (log entries 68, 86). -/
def Obligations.AnchorResults : Prop :=
  let cleared (u : Thread) (k : Kind) : Thread :=
    { u with vec := ⟨Vector.replicate 16 0, Vector.replicate 16 .full, Vector.replicate 4 0, Vector.replicate 4 .fp32⟩
             sys := { u.sys with frm := 0, fflags := 0, srseed := 0, satcnt := 0 }, kind := k, dirtyLines := ⟨[], false⟩ }
  (∀ (o : OpG) (s : State) (uid : Nat) (t : Thread), Issues (.anchor o) s uid t →
    let r := afterRead (.anchor o) s t
    let tile := tileOf (coreOf s.cur)
    let n := bitsOf (r.hdrWord t 8) 56 5
    let free := (List.range 16).filter fun k => !(List.range 32).any fun j => (r.seat (tile * 32 + j)).wbseg.getLsbD k
    (t.kind = .anchored → Completes (.anchor o) s uid r) ∧
    (t.kind ≠ .anchored → free.length < n → Traps (.anchor o) s uid 0x16 0x04 0) ∧
    (t.kind ≠ .anchored → n ≤ free.length →
      Completes (.anchor o) s uid (((r.dropClean (ownCluster s) t.asid).grantSlots s.cur (free.take n)).modThread uid fun u => cleared u .anchored))) ∧
  (∀ (o : OpG) (s : State) (uid : Nat) (t : Thread), Issues (.unanchor o) s uid t →
    (t.kind ≠ .anchored → Completes (.unanchor o) s uid (afterRead (.unanchor o) s t)) ∧
    (t.kind = .anchored → AfterAnswers (∃ x ∈ t.owed, x.cls = .writeBack ∨ (∃ n m, x.dest = .v n m) ∨
        ∃ q, (afterRead (.unanchor o) s t).req? x.req = some q ∧ q.op = .store ∧ q.size = 64)
        (.unanchor o) s uid t true false (parkAt · s.cur uid) fun r1 =>
      Completes (.unanchor o) s uid ((r1.modSeat s.cur fun x => { x with wbseg := 0 }).modThread uid fun u =>
        cleared u (if u.placed then .bound else .roaming))))

/-- R348 to R352, R186, R174: SETPOS by a thread of a launch without a board, or to a place off the board, traps; within the thread's own square or half,
or to another with room on the core of the thread for which no arrival waits, it writes the position of the thread and retires; to a place of another core its
refusals trap in order (0x02 of BOARD; 0x03, 0x06, 0x09, 0x05 and 0x07 of MIGRATE), and it moves the thread, or holds it in transit, its old entry
departing, while answers are owed. NEIGH of a thread that has no board, or no position, or too wide a radius, traps; else it sends its enumeration,
whose count is owed and which feeds its result queue. CELLQ of a thread without a position traps; else it writes the place of its square.
MIGR names a core of the launch; its refusals trap in order (0x02, 0x01, 0x03, 0x06, 0x08, 0x09; a thread that is there then stays; 0x05, 0x07, 0x02), and another thread is on its way once no answer is
owed.
The order of the checks of MIGR, and the place of MIGRATE 0x09 among those of SETPOS, is the model's reading (log entry 63). -/
def Obligations.BoardAndMigrResults : Prop :=
  (∀ (o : OpDA) (s : State) (uid : Nat) (t : Thread), Issues (.setpos o) s uid t →
     let i := Instr.setpos o
     let r := afterRead i s t
     let xy := src i s t 0
     let zw := src i s t 1
     (r.boardOf t = none → Traps i s uid 0x0C 0x04 xy) ∧
     (∀ b, r.boardOf t = some b →
       (b.square (b.rel xy zw) = none → Traps i s uid 0x0C 0x01 xy) ∧
       (∀ sq h e, b.square (b.rel xy zw) = some sq → b.entryOf uid = some (h, e) → (h.same (b.halfAt (b.morton sq) (b.rel xy zw))) = true →
         let own : Prop := (b.halfAt (b.morton sq) (b.rel xy zw)).owner = coreOf s.cur
         (t.kind = .anchored → t.placed = true ∨ own) → (t.role = true → own) → (t.inHandler = true ∨ t.inFrame = true → own) →
         ∃ s1 : State, Completes i s uid s1 ∧ s1.mem = r.mem ∧ s1.thread? uid = some { t with regs := { t.regs with xy := xy, zw := zw } }) ∧
       (∀ sq, b.square (b.rel xy zw) = some sq →
         let h := b.halfAt (b.morton sq) (b.rel xy zw)
         (∀ k e, b.entryOf uid = some (k, e) → k.same h = false) →
         (h.owner = coreOf s.cur → (t.kind = .anchored → t.placed = false) → h.entries.length < 64 → h.admission = [] →
           ∃ s1 : State, Completes i s uid s1 ∧ s1.mem = r.mem ∧
             s1.thread? uid = some { t with regs := { t.regs with xy := xy, zw := zw }, placed := true }) ∧
         (h.owner ≠ coreOf s.cur →
           (t.kind = .anchored → Traps i s uid 0x0C 0x02 xy) ∧
           (t.kind ≠ .anchored → t.role = true → Traps i s uid 0x16 0x03 xy) ∧
           (t.kind ≠ .anchored → t.role = false → t.inHandler = true ∨ t.inFrame = true → Traps i s uid 0x16 0x06 xy) ∧
           (t.kind ≠ .anchored → t.role = false → t.inHandler = false → t.inFrame = false →
             let refusal := [(r.doubletOf t, 0x09#8), (r.queueBound s.cur, 0x05#8), (t.dirtyShadow, 0x07#8)].find? (·.1)
             (∀ c, refusal = some c → Traps i s uid 0x16 c.2 xy) ∧
             (refusal = none → t.owed ≠ [] → ∃ s1 : State, Leads i s s1 ∧ s1.mem = r.mem ∧
               s1.thread? uid = some { t with loc := .transit s.cur, park := Park.init } ∧
               s1.mig? r.net.nextId = some ⟨uid, .setpos xy zw, coreOf s.cur, coreOf s.cur, .waiting, false⟩ ∧
               ⟨s.cycle + 8, .squareHandover r.net.nextId⟩ ∈ s1.work ∧ (∀ b1, s1.boardOf t = some b1 → b1.entryOf uid = none)) ∧
             (refusal = none → t.owed = [] →
               Leads i s (((((r.sendContext uid t (.setpos xy zw) (coreOf s.cur) h.owner).1.modThread uid fun u =>
                 { u with loc := .transit s.cur, park := Park.init }).countEv s.cur 8 1)).markDeparting t.launch uid true))))))) ∧
  ((∀ (o : OpDAq) (s : State) (uid : Nat) (t : Thread), Issues (.neigh o) s uid t →
     let i := Instr.neigh o
     let r := afterRead i s t
     let rho := src i s t 0
     (r.boardOf t = none → Traps i s uid 0x0C 0x04 rho) ∧
     (∀ b, r.boardOf t = some b →
       (t.placed = false → Traps i s uid 0x0C 0x06 rho) ∧
       (t.placed = true → b.rhoBound < rho.toNat → Traps i s uid 0x0C 0x05 rho) ∧
       (t.placed = true → rho.toNat ≤ b.rhoBound → checkResultQueue r (coreOf s.cur) t o.qn = .pass →
         Completes i s uid ((r.sendOwed uid { Req.make r s.cur uid t (.neigh rho o.qn.toNat) 0 8 with
           data := t.regs.xy.setWidth 512 ||| (t.regs.zw.setWidth 512 <<< 64) } .load [] (destOf o.d)).feedQueue (coreOf s.cur) o.qn.toNat
           (some r.net.nextId))))) ∧
   (∀ (o : OpD) (s : State) (uid : Nat) (t : Thread), Issues (.cellq o) s uid t →
     let i := Instr.cellq o
     let r := afterRead i s t
     (r.boardOf t = none → Traps i s uid 0x0C 0x06 0) ∧
     (∀ b, r.boardOf t = some b →
       (t.placed = false ∨ b.entryOf uid = none → Traps i s uid 0x0C 0x06 0) ∧
       (∀ h e, t.placed = true → b.entryOf uid = some (h, e) →
         Writes i s uid t o.d (BitVec.ofNat 64
           ((h.morton % 2 ^ 30) * 2 ^ 32 + h.path.length * 2 ^ 28 + (h.owner % 2048) * 2 ^ 16 + h.entries.length % 128)))))) ∧
  (∀ (o : OpA) (s : State) (uid : Nat) (t : Thread), Issues (.migr o) s uid t →
     let i := Instr.migr o
     let r := afterRead i s t
     let a := src i s t 0
     let early := [(t.role, 0x03#8), (t.sys.xstat.uh || t.sys.xstat.mode || t.inFrame, 0x06#8), (t.placed, 0x08#8), (r.doubletOf t, 0x09#8)].find? (·.1)
     let late := [(r.queueBound s.cur, 0x05#8), (t.dirtyShadow, 0x07#8)].find? (·.1)
     (2048 ≤ a.toNat → Traps i s uid 0x16 0x02 a) ∧
     (a.toNat < 2048 → t.kind = .anchored → Traps i s uid 0x16 0x01 a) ∧
     (∀ c, a.toNat < 2048 → t.kind ≠ .anchored → early = some c → Traps i s uid 0x16 c.2 a) ∧
     (a.toNat < 2048 → t.kind ≠ .anchored → early = none →
       (a.toNat = coreOf s.cur → Completes i s uid r) ∧
       (a.toNat ≠ coreOf s.cur →
         (∀ c, late = some c → Traps i s uid 0x16 c.2 a) ∧
         (late = none → r.launchOf t = none → Traps i s uid 0x16 0x02 a) ∧
         (late = none → ∀ l, r.launchOf t = some l →
           (NSet.has l.cores a.toNat = false → Traps i s uid 0x16 0x02 a) ∧
           (NSet.has l.cores a.toNat = true → t.owed ≠ [] → exec i s = .next (parkAt s s.cur uid)) ∧
           (NSet.has l.cores a.toNat = true → t.owed = [] →
             Leads i s (((r.sendContext uid t .migr (coreOf s.cur) a.toNat).1.modThread uid fun u =>
               { u with loc := .transit s.cur, park := Park.init }).countEv s.cur 8 1))))))


/-! ## Messages, queue registers and indexes -/

/-- R331, R333, R334, R153: a packet is put into the send queue of the seat, which holds eight; a full one parks. `.rel` releases first; a bad target or
queue address traps before. A SPAWN by a thread that no queue started leaves a deferred fault.
A SPAWN by a thread that no queue started, and the wait of `.rel` for write-backs on their way, follow the model's reading (log entries 62, 86). -/
def Obligations.SendResults : Prop :=
  let words (i : Instr) (s : State) (t : Thread) : List Word := ((takeSources i s s.cur t).drop 1).take 8
  let queued (i : Instr) (s : State) (uid : Nat) (t : Thread) (kind : MsgKind) (dst : Word) (p : List Word) (r1 : State) : Prop :=
    ((r1.seat s.cur).sendq.length < 8 → Completes i s uid (r1.sendMsg (r1.packet s.cur uid t kind dst p))) ∧
    (8 ≤ (r1.seat s.cur).sendq.length → exec i s = .next (parkAt s s.cur uid))
  let sends (i : Instr) (rel : Bool) (bad : Word → Prop) (kind : MsgKind) (s : State) (uid : Nat) (t : Thread) : Prop :=
    let a := src i s t 0
    (bad a → Traps i s uid 0x06 0x02 a) ∧
    (¬ bad a → rel = false → queued i s uid t kind a (words i s t) (afterRead i s t)) ∧
    (¬ bad a → rel = true → AfterRelease i s uid t true true (parkAt · s.cur uid) (queued i s uid t kind a (words i s t)))
  (∀ (o : OpSend) (s : State) (uid : Nat) (t : Thread), Issues (.send o) s uid t →
    sends (.send o) o.rel (fun a => 2 ^ 24 ≤ a.toNat ∨ bitsOf a 14 2 ≠ 0) .send s uid t) ∧
  (∀ (o : OpSend) (s : State) (uid : Nat) (t : Thread), Issues (.enq o) s uid t →
    sends (.enq o) o.rel (fun a => bitsOf a 17 39 ≠ 0) .enq s uid t) ∧
  (∀ (o : OpD) (s : State) (uid : Nat) (t : Thread), Issues (.spawn o) s uid t →
    (∀ q, t.origin.queue = some q → queued (.spawn o) s uid t .spawn (BitVec.ofNat 64 (s.device.toNat * 2 ^ 56 + q))
      ((takeSources (.spawn o) s s.cur t).take 8) (afterRead (.spawn o) s t)) ∧
    (t.origin.queue = none → Completes (.spawn o) s uid ((afterRead (.spawn o) s t).deferFault uid (poisonRec 0x06 0x04 0))))

/-- R140, R150, R196, R153, R109: a request that a thread sends has a number of its own and is on its way; its answer is owed, the register that takes
it is pending, the NOREPLY timer runs for 65,536 cycles, and no byte of memory changes. A packet has the last entry of the seat's send
queue; its acknowledgement is owed as a store's; it is injected when no earlier packet of the seat waits for its destination.
Which packets carry the timer is the model's reading (log entry 56). -/
def Obligations.RequestAndPacketSent : Prop :=
  (∀ (s : State) (uid : Nat) (t : Thread) (q : Req) (cls : AnsClass) (gran : List Granule) (d : Dest), s.thread? uid = some t →
     let s' := s.sendOwed uid q cls gran d
     s'.req? s.net.nextId = some { q with deadline := some (s.cycle + 65536) } ∧
     ⟨s.cycle + 1, q.nextEv s s.net.nextId⟩ ∈ s'.work ∧ ⟨s.cycle + 65536, q.timerEv s.net.nextId⟩ ∈ s'.work ∧
     s'.mem = s.mem ∧ (∀ v, v ≠ uid → s'.thread? v = s.thread? v) ∧
     ∃ t', s'.thread? uid = some t' ∧ t'.owed = t.owed ++ [⟨s.net.nextId, cls, gran, d, false⟩] ∧ t'.sys = t.sys ∧ t'.regs.pc = t.regs.pc ∧
       (∀ n, n < 24 → t'.regs.view n = if d = .g n then .pending else t.regs.view n) ∧
       (∀ n m, d = .v n m → n < 16 → vget t'.vec.vst n .full = .pending)) ∧
  (∀ (s : State) (uid : Nat) (t : Thread) (m : Msg), s.thread? uid = some t → m.uid = some uid → m.injected = false →
     let s' := s.sendMsg m
     (s'.seat m.seat).sendq = (s.seat m.seat).sendq ++ [s.net.nextId] ∧ s'.mem = s.mem ∧
     s'.thread? uid = some { t with owed := t.owed ++ [⟨s.net.nextId, .store, [], .none, false⟩] } ∧
     (∀ v, v ≠ uid → s'.thread? v = s.thread? v) ∧
     (s.req? s.net.nextId = none → (∀ k ∈ (s.seat m.seat).sendq, k ≠ s.net.nextId ∧ (s.msg? k).map (·.order) ≠ some m.order) →
       s'.msg? s.net.nextId = some { m with injected := true, stage := .going, deadline := some (s.cycle + 65536) } ∧
       ⟨s.cycle + 1, m.nextEv s s.net.nextId⟩ ∈ s'.work))

/-- R332, R336, R337, R407: RECV parks while no entry qualifies; otherwise its nine words go to their banks, the header being marked TAKEN as it is read.
With the banks free they are served at once: RECV writes the words and the header, TAKEN set, HEAD moves on, and it owes an acquire, with
that of its own cluster at once for a completion of another one's engine (R148); or the first poisoned word makes ECC fall due, and no entry is taken. WIDF writes a field of wid or an extent, IBXS the state of the inbox.
Service at the issue is the model's choice (log entry 18). -/
def Obligations.InboxResults : Prop :=
  (∀ (o : OpDA) (s : State) (uid : Nat) (t : Thread), Issues (.recv o) s uid t →
    let i := Instr.recv o
    let r := afterRead i s t
    let core := coreOf s.cur
    (r.recvEntries core t.asid t.sys.xstat.mode = [] → exec i s = .next (parkAt s s.cur uid)) ∧
    (∀ idx rest n base, r.recvEntries core t.asid t.sys.xstat.mode = idx :: rest → (r.core core).ring = some (n, base) →
      let cl := ownCluster s
      let place (j : Nat) : Nat := if j < 8 then slotOff n base idx + 8 * j else headerOff n base idx
      let header := r.localWord cl (place 8)
      let acquires (x : State) : State :=
        if bitsOf header 56 8 = 2 ∧ clusterOf (coreOf (bitsOf header 10 14)) ≠ cl then x.acquireLines cl (BitVec.ofNat 16 (bitsOf header 32 16)) else x
      Leads i s ((r.modCore core fun c => c.resetViews t.asid).localAccess s.cur uid (.recv o.d o.a idx) 0
        (((List.range 8).map fun j => ⟨slotOff n base idx + 8 * j, .read, j⟩) ++ [⟨headerOff n base idx, .atomic 4 1 0, 8⟩])) ∧
      ((∀ j, j < 9 → AtOnce r (place j)) →
        ((∀ j, j < 9 → r.localPoisoned cl (place j) = false) → ∃ s1 : State, s1.fab.threads = r.fab.threads ∧
          s1.mem = (r.localWrite cl (place 8) 255 (header ||| 1)).mem ∧
          Leads i s ((retire (((acquires (s1.headPastTaken core)).modThread uid fun u =>
            { u with regs := (List.range 8).foldl (fun g j => g.put (o.d.toNat + j) (r.localWord cl (place j))) u.regs, acquireDue := some false }).putD
            s.cur uid o.a (putBit header 0 true)) s.cur uid).newInterval s.cur)) ∧
        (∀ k, k < 9 → r.localPoisoned cl (place k) = true → (∀ j, j < k → r.localPoisoned cl (place j) = false) → ∃ s1 : State,
          exec i s = .next s1 ∧ (s1.seat s.cur).due = some ⟨0x10, 0x01, BitVec.ofNat 64 (place k / 8 * 8) - (r.seat s.cur).lbase⟩ ∧
          (s.MemOk → s1.localWord cl (place 8) = header))))) ∧
  (∀ (o : OpWidf) (s : State) (uid : Nat) (t : Thread), Issues (.widf o) s uid t →
    let width (j : Nat) : Nat := t.sys.widshape.toNat / 2 ^ (7 * j) % 128
    let low := ((List.range o.j.toNat).map width).foldl (· + ·) 0
    (o.e = false → Writes (.widf o) s uid t o.d (BitVec.ofNat 64 (t.regs.wid.toNat / 2 ^ low % 2 ^ width o.j.toNat))) ∧
    (o.e = true → width o.j.toNat = 0 → Writes (.widf o) s uid t o.d 1) ∧
    (o.e = true → width o.j.toNat ≠ 0 →
      Writes (.widf o) s uid t o.d (BitVec.ofNat 64 (max 1 ((afterRead (.widf o) s t).hdrWord t (1 + o.j.toNat)).toNat)))) ∧
  (∀ (o : OpD) (s : State) (uid : Nat) (t : Thread), Issues (.ibxs o) s uid t →
    let r := afterRead (.ibxs o) s t
    let c := r.core (coreOf s.cur)
    Writes (.ibxs o) s uid t o.d (BitVec.ofNat 64 ((if c.ovf then 2 ^ 63 else 0) + c.pending * 2 ^ 16
      + (r.recvEntries (coreOf s.cur) t.asid t.sys.xstat.mode).length % 2 ^ 16)))

/-- R287 to R291, R200, R289: QBIND binds a register that nothing holds, empty; the others act on a register bound under the thread's context, and a
register bound by another context or in another way traps QUEUE with its number.
That popped words go back is the model's choice (log entry 19). -/
def Obligations.QueueRegisterResults : Prop :=
  let own (s : State) (i : Instr) (t : Thread) (q : BitVec 4) : Option Queue := ((afterRead i s t).core (coreOf s.cur)).queue q.toNat
  let flushed (s : State) (x : Queue) : Nat := (x.words.filter fun w => decide (w.2 + 6 ≤ s.cycle)).length + x.spilled.length + x.overflow.length
  (∀ (o : OpQbind) (s : State) (uid : Nat) (t : Thread), Issues (.qbind o) s uid t →
    let i := Instr.qbind o
    let r := afterRead i s t
    let p := src i s t 0
    let kind := kindOfCode o.kind
    let placed : Prop := kind = .result → p.toNat % 64 = 0 ∧ p.toNat + 6144 ≤ (r.seat s.cur).segLen
    (kind = .result → p.toNat % 64 ≠ 0 → ∃ b, Traps i s uid 0x04 b p) ∧
    (placed → ∀ x, own s i t o.qn = some x → Traps i s uid 0x0B (if x.asid = t.asid then 0x04 else 0x02) (o.qn.setWidth 64)) ∧
    (placed → own s i t o.qn = none → kind = .port → portBad p = true → Traps i s uid 0x0B 0x06 (o.qn.setWidth 64)) ∧
    (placed → own s i t o.qn = none → (kind = .port → portBad p = false) →
      Completes i s uid (r.modCore (coreOf s.cur) fun c => c.setQueue o.qn.toNat
        (some { kind := kind, asid := t.asid, param := p, words := [], binder := uid, spilledTotal := 0, spilled := [],
                base := (r.seat s.cur).lbase.toNat + p.toNat, feeder := none, popped := 0, overflow := [], unwritten := [] })))) ∧
  (∀ (o : OpQd) (s : State) (uid : Nat) (t : Thread),
    (Issues (.qstat o) s uid t → let i := Instr.qstat o
      (own s i t o.qn = none → Writes i s uid t o.d 0) ∧
      (∀ x, own s i t o.qn = some x → x.asid ≠ t.asid → Traps i s uid 0x0B 0x02 (o.qn.setWidth 64)) ∧
      (∀ x, own s i t o.qn = some x → x.asid = t.asid → Writes i s uid t o.d (BitVec.ofNat 64 (2 ^ 63 + x.kind.code * 2 ^ 60 + x.asid.toNat * 2 ^ 32
        + (x.spilled.length % 2 ^ 16) * 2 ^ 16 + x.kind.cap * 256 + (afterRead i s t).qstatCount (coreOf s.cur) t x)))) ∧
    (Issues (.qflush o) s uid t → let i := Instr.qflush o
      (own s i t o.qn = none → Traps i s uid 0x0B 0x01 (o.qn.setWidth 64)) ∧
      (∀ x, own s i t o.qn = some x → x.asid ≠ t.asid → Traps i s uid 0x0B 0x02 (o.qn.setWidth 64)) ∧
      (∀ x, own s i t o.qn = some x → x.asid = t.asid → x.kind = .inbox → Traps i s uid 0x0B 0x07 (o.qn.setWidth 64)) ∧
      (∀ x, own s i t o.qn = some x → x.asid = t.asid → x.kind ≠ .inbox →
        Completes i s uid ((((afterRead i s t).modCore (coreOf s.cur) fun c => c.setQueue o.qn.toNat
          (some { x with words := x.words.filter fun w => decide ((afterRead i s t).cycle < w.2 + 6), spilled := [], overflow := [], unwritten := [] })).popFed x).putD
          s.cur uid o.d (BitVec.ofNat 64 (flushed (afterRead i s t) x))))) ∧
    (Issues (.qunbind o) s uid t → let i := Instr.qunbind o
      (own s i t o.qn = none → Traps i s uid 0x0B 0x01 (o.qn.setWidth 64)) ∧
      (∀ x, own s i t o.qn = some x → x.asid ≠ t.asid → Traps i s uid 0x0B 0x02 (o.qn.setWidth 64)) ∧
      (∀ x, own s i t o.qn = some x → x.asid = t.asid → (afterRead i s t).delivers (coreOf s.cur) o.qn.toNat x = true →
        Traps i s uid 0x0B 0x05 (o.qn.setWidth 64)) ∧
      (∀ x, own s i t o.qn = some x → x.asid = t.asid → (afterRead i s t).delivers (coreOf s.cur) o.qn.toNat x = false →
        Completes i s uid (((afterRead i s t).modCore (coreOf s.cur) fun c => c.setQueue o.qn.toNat none).putD s.cur uid o.d
          (BitVec.ofNat 64 (flushed (afterRead i s t) x))))))

/-- R338 to R346, R100: an index instruction checks its block and its result queue, parks while an earlier request of the thread to the index is open, and
otherwise sends its request, whose answer is owed; a search or an enumeration feeds its result queue.
That the answer of an IXSTAT is waited for is the model's reading (log entry 65). -/
def Obligations.IndexResults : Prop :=
  let sent (i : Instr) (s : State) (uid : Nat) (t : Thread) (op : ReqOp) (cls : AnsClass) (d : Dest) (q : Option (BitVec 4)) : Prop :=
    let r := afterRead i s t
    let n := (src i s t 0).toNat % 4096
    let r1 := r.sendOwed uid { Req.make r s.cur uid t op n 8 with off := (blockOff (src i s t 0)).toNat } cls [.index n] d
    (t.occupies (.index n) = true → exec i s = .next (parkAt s s.cur uid)) ∧
    (t.occupies (.index n) = false → Completes i s uid (match q with
      | some q => r1.feedQueue (coreOf s.cur) q.toNat (some r.net.nextId)
      | none => r1))
  let block (i : Instr) (s : State) (uid : Nat) (t : Thread) (good : Prop) : Prop :=
    let off := blockOff (src i s t 0)
    let len := ((afterRead i s t).seat s.cur).segLen
    (off.toNat % 64 ≠ 0 → ∃ b, Traps i s uid 0x04 b off) ∧
    (off.toNat % 64 = 0 → len < off.toNat + 64 → ∃ b v, Traps i s uid 0x05 b v) ∧
    (off.toNat % 64 = 0 → off.toNat + 64 ≤ len → good)
  let result (i : Instr) (s : State) (uid : Nat) (t : Thread) (q : BitVec 4) (good : Prop) : Prop :=
    let own := ((afterRead i s t).core (coreOf s.cur)).queue q.toNat
    (own = none → Traps i s uid 0x0B 0x01 (q.setWidth 64)) ∧
    (∀ x, own = some x → x.asid ≠ t.asid → Traps i s uid 0x0B 0x02 (q.setWidth 64)) ∧
    (∀ x, own = some x → x.asid = t.asid → x.kind ≠ .result → Traps i s uid 0x0B 0x08 (q.setWidth 64)) ∧
    (∀ x, own = some x → x.asid = t.asid → x.kind = .result → x.feeder ≠ none → exec i s = .next (parkAt s s.cur uid)) ∧
    (∀ x, own = some x → x.asid = t.asid → x.kind = .result → x.feeder = none → good)
  (∀ (o : OpDA) (s : State) (uid : Nat) (t : Thread),
    (Issues (.stvec o) s uid t → block (.stvec o) s uid t (sent (.stvec o) s uid t .stvec .store (destOf o.d) none)) ∧
    (Issues (.delvec o) s uid t → sent (.delvec o) s uid t (.delvec (src (.delvec o) s t 1)) .store .none none) ∧
    (Issues (.ixpin o) s uid t → sent (.ixpin o) s uid t .ixpin .load (destOf o.d) none) ∧
    (Issues (.ixunpin o) s uid t → sent (.ixunpin o) s uid t (.ixunpin (src (.ixunpin o) s t 1)) .store .none none)) ∧
  (∀ (o : OpLdnear) (s : State) (uid : Nat) (t : Thread), Issues (.ldnear o) s uid t →
    block (.ldnear o) s uid t (result (.ldnear o) s uid t o.qn
      (sent (.ldnear o) s uid t (.ldnear o.x o.qn.toNat) .load (destOf o.d) (some o.qn)))) ∧
  (∀ (o : OpAq) (s : State) (uid : Nat) (t : Thread), Issues (.ixstat o) s uid t →
    result (.ixstat o) s uid t o.qn (sent (.ixstat o) s uid t (.ixstat o.qn.toNat) .load .none (some o.qn)))

/-! ## Vector instructions -/

/-- R294, R299, R302, R301: the vector instructions whose result has neither rounding nor flags, element by element. -/
def Obligations.VectorElementResults : Prop :=
  let a (o : OpVt) (t : Thread) (j : Nat) : Nat := elemAt (elemBits o.t) (t.vreg o.va) j
  let b (o : OpVt) (t : Thread) (j : Nat) : Nat := elemAt (elemBits o.t) (t.vreg o.vb) j
  let each (c : OpVt → Instr) (f : Nat → Nat → Nat → Nat → Nat) : Prop := ∀ (o : OpVt) (s : State) (uid : Nat) (t : Thread), Issues (c o) s uid t →
    Elementwise (c o) s uid t o.vd (elemBits o.t) o.k fun j => f (elemBits o.t) (a o t j) (b o t j) (elemAt (elemBits o.t) (t.vreg o.vd) j)
  let signed (c : OpV → Instr) (f : Nat → Bool → Nat → Nat → Nat) : Prop := ∀ (o : OpV) (s : State) (uid : Nat) (t : Thread), Issues (c o) s uid t →
    Elementwise (c o) s uid t o.vd (elemBits o.t) o.k fun j =>
      f (elemBits o.t) (o.m3 == 1) (elemAt (elemBits o.t) (t.vreg o.va) j) (elemAt (elemBits o.t) (t.vreg o.vb) j)
  let less (n : Nat) (u : Bool) (x y : Nat) : Bool := if u then decide (x < y) else decide (toSigned n x < toSigned n y)
  let bits (c : OpVlog → Instr) (f : Nat → Nat → Nat) : Prop := ∀ (o : OpVlog) (s : State) (uid : Nat) (t : Thread), Issues (c o) s uid t →
    Elementwise (c o) s uid t o.vd 32 o.k fun j => f (elemAt 32 (t.vreg o.va) j) (elemAt 32 (t.vreg o.vb) j)
  let sign (c : OpVabs → Instr) (f : Nat → Nat → Nat) : Prop := ∀ (o : OpVabs) (s : State) (uid : Nat) (t : Thread), Issues (c o) s uid t →
    Elementwise (c o) s uid t o.vd (elemBits o.t) o.k fun j => f (elemBits o.t) (elemAt (elemBits o.t) (t.vreg o.va) j)
  each Instr.viaVadd (fun _ x y _ => x + y) ∧ each Instr.viaVsub (fun n x y _ => x + (2 ^ n - y)) ∧ each Instr.viaVmul (fun _ x y _ => x * y) ∧
  each Instr.vmad (fun _ x y z => z + x * y) ∧ each Instr.vshl (fun _ x y _ => x * 2 ^ y) ∧
  signed Instr.viaVmin (fun n u x y => if less n u x y then x else y) ∧ signed Instr.viaVmax (fun n u x y => if less n u x y then y else x) ∧
  signed Instr.vshr (fun n arith x y => if arith then ((toSigned n x / (2 ^ y : Nat)) % (2 ^ n : Nat)).toNat else x / 2 ^ y) ∧
  sign Instr.vabs (fun n x => x % 2 ^ (n - 1)) ∧ sign Instr.vneg (fun n x => x + 2 ^ (n - 1)) ∧
  bits Instr.vand (· &&& ·) ∧ bits Instr.vor (· ||| ·) ∧ bits Instr.vxor (· ^^^ ·) ∧
  (∀ (o : OpVt) (s : State) (uid : Nat) (t : Thread), Issues (.vshuf o) s uid t →
    Elementwise (.vshuf o) s uid t o.vd (elemBits o.t) o.k fun j => a o t (b o t j % (512 / elemBits o.t))) ∧
  (∀ (o : OpV) (s : State) (uid : Nat) (t : Thread),
    let n := elemBits o.t
    let x (v : BitVec 4) (j : Nat) : Nat := elemAt n (t.vreg v) j
    let odd := if o.m3 = 1 then 1 else 0
    (Issues (.vzip o) s uid t → Elementwise (.vzip o) s uid t o.vd n o.k fun j =>
      x (if j % 2 = 0 then o.va else o.vb) ((if o.m3 = 1 then 512 / n / 2 else 0) + j / 2)) ∧
    (Issues (.vunzip o) s uid t → Elementwise (.vunzip o) s uid t o.vd n o.k fun j =>
      if j < 512 / n / 2 then x o.va (2 * j + odd) else x o.vb (2 * (j - 512 / n / 2) + odd))) ∧
  (∀ (o : OpVlog) (s : State) (uid : Nat) (t : Thread), Issues (.vsel o) s uid t → ∃ l : Line, WritesV (.vsel o) s uid t o.vd l ∧
    ∀ j, j < 16 → elemAt 32 l j = elemAt 32 (t.vreg (if (t.kmask o.k.toNat).getLsbD j then o.va else o.vb)) j) ∧
  (∀ (o : OpVred) (s : State) (uid : Nat) (t : Thread), Issues (.vbcst o) s uid t →
    Elementwise (.vbcst o) s uid t o.va (elemBits o.t) o.k fun _ => (src (.vbcst o) s t 0).toNat) ∧
  (∀ (o : OpVidx) (s : State) (uid : Nat) (t : Thread), Issues (.vins o) s uid t → ∃ l : Line, WritesV (.vins o) s uid t o.va l ∧
    ∀ j, j < 512 / elemBits o.t → elemAt (elemBits o.t) l j =
      if j = o.imm.toNat then (src (.vins o) s t 0).toNat % 2 ^ elemBits o.t else elemAt (elemBits o.t) (t.vreg o.va) j)

/-- R299, R303 to R307, R294, R214, R215: the floating and converting vector instructions give each active element its rounded result, in the mode of M3 or
FRM; what the functions of their results answer, RoundingResults and ArithmeticResults say. QBLK makes a block of 32 codes with one scale byte, DQBLK gives
its values back, in one register or, for FP32, two. VRCP, VRSQ, VEX2 and VLG2 on f32 are within the bounds of R307 by a free offset (log entry 4). -/
def Obligations.VectorFloatResults : Prop :=
  (let on (c : OpV → Instr) (f : FFmt → Mode → FVal → FVal → FVal → FRes) : Prop := ∀ (o : OpV) (s : State) (uid : Nat) (t : Thread), Issues (c o) s uid t →
     let n := elemBits o.t
     let m := fmtOfCode o.t.toNat
     let x (v : BitVec 4) (j : Nat) : FVal := m.decode (elemOf n (t.vreg v) j)
     Folded (c o) s uid t o.vd n (512 / n) (activeElem n (t.kmask o.k.toNat)) (m3Code o.m3 t.sys.frm) (t.vreg o.vd)
       fun mode j => f m mode (x o.va j) (x o.vb j) (x o.vd j)
   let extreme (c : OpVt → Instr) (most : Bool) : Prop := ∀ (o : OpVt) (s : State) (uid : Nat) (t : Thread), Issues (c o) s uid t →
     let n := elemBits o.t
     Folded (c o) s uid t o.vd n (512 / n) (activeElem n (t.kmask o.k.toNat)) 1 (t.vreg o.vd)
       fun _ j => (fmtOfCode o.t.toNat).minMax most (elemOf n (t.vreg o.va) j) (elemOf n (t.vreg o.vb) j)
   let unary (c : OpVcvt → Instr) (f : FFmt → Mode → Nat → FRes) : Prop := ∀ (o : OpVcvt) (s : State) (uid : Nat) (t : Thread), Issues (c o) s uid t →
     let n := elemBits o.t
     Folded (c o) s uid t o.vd n (512 / n) (activeElem n (t.kmask o.k.toNat)) (m3Code o.m3 t.sys.frm) (t.vreg o.vd)
       fun mode j => f (fmtOfCode o.t.toNat) mode (elemOf n (t.vreg o.va) j)
   on Instr.vfaVadd (fun m r x y _ => m.sum r x y) ∧ on Instr.vfaVsub (fun m r x y _ => m.sum r x y.negate) ∧
   on Instr.vfaVmul (fun m r x y _ => m.product r x y) ∧ on Instr.vfma (fun m r x y z => m.fma r x y z) ∧
   extreme Instr.vfaVmin false ∧ extreme Instr.vfaVmax true ∧
   unary Instr.vrnd (fun m r x => m.integral r x) ∧ unary Instr.vrcp (fun m r x => m.special .rcp r x) ∧ unary Instr.vrsq (fun m r x => m.special .rsq r x) ∧
   unary Instr.vex2 (fun m r x => m.special .ex2 r x) ∧ unary Instr.vlg2 (fun m r x => m.special .lg2 r x) ∧
   unary Instr.vsqrt (fun m r x => m.special .sqrt r x) ∧
   (∀ (o : OpV) (s : State) (uid : Nat) (t : Thread), Issues (.vadds o) s uid t →
     let n := elemBits o.t
     Folded (.vadds o) s uid t o.vd n (512 / n) (activeElem n (t.kmask o.k.toNat)) 1 (t.vreg o.vd)
       fun _ j => addClamped n (o.m3 == 1) (elemOf n (t.vreg o.va) j) (elemOf n (t.vreg o.vb) j)) ∧
   (∀ (o : OpVcvt) (s : State) (uid : Nat) (t : Thread), Issues (.cvt o) s uid t →
     let ns := elemBits o.t
     let nd := codeBits (cvtDest o.m3)
     let wide := max ns nd
     Folded (.cvt o) s uid t o.vd nd (512 / wide) (activeElem wide (t.kmask o.k.toNat)) (frmCode t.sys.frm)
       (if nd < wide then t.vreg o.vd &&& BitVec.ofNat 512 (2 ^ (nd * (512 / wide)) - 1) else t.vreg o.vd)
       fun mode j => convertElem o.t (cvtDest o.m3) mode (elemOf ns (t.vreg o.va) j))) ∧
  ((∀ (o : OpQblk) (s : State) (uid : Nat) (t : Thread), Issues (.qblk o) s uid t →
     let n := elemBits o.t
     let xs := (if o.t = 6 then [o.va, o.va + 1] else [o.va]).flatMap fun v =>
       (List.range (512 / n)).map fun j => (fmtOfCode o.t.toNat).decode (elemOf n (t.vreg v) j)
     let e := blockExp o.typ.toNat xs
     let codes := xs.map (blockCode o.typ.toNat e)
     ∃ (l : Line) (flags : FFlags),
       Completes (.qblk o) s uid (((afterRead (.qblk o) s t).putV uid o.vd l).modThread uid fun u => u.absorb flags (codes.countP (·.sat)) t.sys.srseed) ∧
       (∀ j, j < 32 → elemAt 4 l j = ((codes.map (·.bits)).getD j 0) % 16) ∧ elemAt 8 l 16 = (o.typ.toNat * 64 + e) % 256 ∧
       (∀ b, flags.getLsbD b = true ↔ ∃ c ∈ codes, c.flags.getLsbD b = true)) ∧
   (∀ (o : OpDqblk) (s : State) (uid : Nat) (t : Thread), Issues (.dqblk o) s uid t →
     let n := elemBits o.t
     let value (j : Nat) : FRes := (fmtOfCode o.t.toNat).convert .rne (blockValue (elemOf 8 (t.vreg o.va) 16) (elemOf 4 (t.vreg o.va) j))
     ∃ (s1 : State) (l : Line) (flags : FFlags),
       Completes (.dqblk o) s uid ((s1.putV uid o.vd l).modThread uid fun u => u.absorb flags 0 t.sys.srseed) ∧
       (∀ j, j < 512 / n → elemAt n l j = (value j).bits % 2 ^ n) ∧
       (o.t ≠ 6 → s1 = afterRead (.dqblk o) s t) ∧
       (o.t = 6 → ∃ h : Line, s1 = (afterRead (.dqblk o) s t).putV uid (o.vd + 1) h ∧ ∀ j, j < 16 → elemAt 32 h j = (value (16 + j)).bits % 2 ^ 32)))

/-- R216, R217, R218: the rounding function itself. An exact value that is not zero, given as a magnitude m × 2^e, or as one that lies between m and m + 1
units with at least 24 bits below the quantum, is rounded once, in each mode and each format: to the value of the format's grid that the mode names, with
the sign kept; beyond the largest finite magnitude to infinity, to that magnitude, or in e4m3 to a saturated result; and with the flags OF, UF and NX. -/
def Obligations.RoundingResults : Prop :=
  ∀ (f : FFmt) (mode : Mode) (neg : Bool) (m : Nat) (e : Int) (sticky : Bool) (x : ℝ), f ∈ floatFmts → m ≠ 0 → (neg = true ↔ x < 0) →
    (sticky = false → |x| = m * (2 : ℝ) ^ e) →
    (sticky = true → 2 ^ (f.fbits + 25) ≤ m ∧ m * (2 : ℝ) ^ e < |x| ∧ |x| < (m + 1) * (2 : ℝ) ^ e) →
    Rounded f mode x (f.round mode neg m e sticky)

/-- R209 to R212, R216, R218 to R220, R303, R306, R307: what a pattern of each format is; sums, products and fused sums are the exact ones rounded once, with
the signs of exact zeros; NaNs and infinities, with the default NaN and NV; minima and maxima; conversions, to integers too, with their clamps; the special
cases with DZ; a sum that is exact with one rounding; and an element after a K-step: for FP64 one fused step after the other, for INT8 the clamped sum, for
the others one rounding of the accumulator and all products. -/
def Obligations.ArithmeticResults : Prop :=
  (floatFmts.map FFmt.width = [64, 32, 16, 16, 8, 8] ∧
   floatFmts.map FFmt.nanBits = [0x7FF8_0000_0000_0000, 0x7FC0_0000, 0x7E00, 0x7FC0, 0x7F, 0x7E] ∧
   ∀ f ∈ floatFmts, ∀ x : Nat, x < 2 ^ f.width →
     let frac := x % 2 ^ f.fbits
     let ex := x / 2 ^ f.fbits % 2 ^ f.ebits
     let neg := decide (2 ^ (f.ebits + f.fbits) ≤ x)
     let special : Prop := ex = 2 ^ f.ebits - 1 ∧ (f.hasInf = false → frac = 2 ^ f.fbits - 1)
     (¬ special → ∃ m e, f.decode x = .fin neg m e ∧
       m * (2 : ℝ) ^ e = if ex = 0 then (2 : ℝ) ^ (1 - (f.bias : Int)) * (frac / 2 ^ f.fbits)
                         else (2 : ℝ) ^ ((ex : Int) - f.bias) * (1 + frac / 2 ^ f.fbits)) ∧
     (special → f.hasInf = false → f.decode x = .nan false) ∧
     (special → f.hasInf = true → f.decode x = if frac = 0 then .inf neg else .nan (decide (frac < 2 ^ (f.fbits - 1))))) ∧
  (∀ (f : FFmt) (mode : Mode), f ∈ floatFmts →
    let nan (nv : Bool) : FRes := ⟨f.nanBits, if nv then flagNV else 0, false⟩
    let inf (neg : Bool) : FRes := if f.hasInf then ⟨f.infBits neg, 0, false⟩ else ⟨f.maxBits neg, flagOF ||| flagNX, true⟩
    let zero (neg : Bool) : FRes := ⟨f.zeroBits neg, 0, false⟩
    (∀ (a b c : FVal) (x y z : ℝ), a.Is x → b.Is y → c.Is z →
      (x + y ≠ 0 → Rounded f mode (x + y) (f.sum mode a b)) ∧
      (x = 0 → y = 0 → a.neg? = b.neg? → f.sum mode a b = zero a.neg?) ∧
      (x + y = 0 → x ≠ 0 ∨ a.neg? ≠ b.neg? → f.sum mode a b = zero (mode == .rdn)) ∧
      (x * y ≠ 0 → Rounded f mode (x * y) (f.product mode a b)) ∧
      (x * y = 0 → f.product mode a b = zero (a.neg? != b.neg?)) ∧
      (z + x * y ≠ 0 → Rounded f mode (z + x * y) (f.fma mode a b c)) ∧
      (z = 0 → x * y = 0 → c.neg? = (a.neg? != b.neg?) → f.fma mode a b c = zero c.neg?) ∧
      (z + x * y = 0 → z ≠ 0 ∨ c.neg? ≠ (a.neg? != b.neg?) → f.fma mode a b c = zero (mode == .rdn)) ∧
      (x ≠ 0 → Rounded f mode x (f.convert mode a)) ∧ (x = 0 → f.convert mode a = zero a.neg?)) ∧
    (∀ a b c : FVal,
      (a.isNan = true ∨ b.isNan = true → f.sum mode a b = nan (a.isSig || b.isSig) ∧ f.product mode a b = nan (a.isSig || b.isSig)) ∧
      (∀ m n, a = .inf m → b = .inf n → f.sum mode a b = (if m = n then inf m else nan true) ∧ f.product mode a b = inf (m != n)) ∧
      (∀ m n k e, a = .inf m → b = .fin n k e → f.sum mode a b = inf m ∧ f.sum mode b a = inf m ∧
        f.product mode a b = (if k = 0 then nan true else inf (m != n)) ∧ f.product mode b a = if k = 0 then nan true else inf (m != n)) ∧
      (a.isNan = true ∨ b.isNan = true ∨ c.isNan = true → (f.fma mode a b c).bits = f.nanBits ∧
        (a.isSig = true ∨ b.isSig = true ∨ c.isSig = true → f.fma mode a b c = nan true)) ∧
      (a.isInf = true ∧ b.isZero = true ∨ a.isZero = true ∧ b.isInf = true → f.fma mode a b c = nan true) ∧
      (∀ m n k, a.isNan = false → b.isNan = false → a = .inf m ∨ b = .inf m → a.isZero = false → b.isZero = false → n = (a.neg? != b.neg?) →
        (c = .inf k → f.fma mode a b c = if k = n then inf n else nan true) ∧ (c.isNan = false → c.isInf = false → f.fma mode a b c = inf n)) ∧
      (∀ m, a = .inf m → f.convert mode a = inf m) ∧ (a.isNan = true → f.convert mode a = nan a.isSig)) ∧
    (∀ (most : Bool) (p q : Nat),
      let a := f.decode p
      let b := f.decode q
      let r := f.minMax most p q
      r.flags = (if a.isSig || b.isSig then flagNV else 0) ∧ r.sat = false ∧
      (a.isNan = true → b.isNan = true → r.bits = f.nanBits) ∧ (a.isNan = true → b.isNan = false → r.bits = q) ∧
      (a.isNan = false → b.isNan = true → r.bits = p) ∧
      (∀ x y, a.Is x → b.Is y → x < y ∨ (x = 0 ∧ y = 0 ∧ a.neg? = true ∧ b.neg? = false) →
        r.bits = (if most then q else p) ∧ (f.minMax most q p).bits = if most then q else p)) ∧
    (∀ (n : Nat) (a : FVal), 0 < n →
      (a.isNan = true → toIntegral mode n a = ⟨0, flagNV, true⟩) ∧
      (∀ m, a = .inf m → toIntegral mode n a = ⟨if m then 2 ^ (n - 1) else 2 ^ (n - 1) - 1, flagNV ||| flagNX, true⟩) ∧
      (∀ x, a.Is x → ∃ k : Int, RoundsTo OnIntegers OnEvenIntegers mode x k ∧
        (k < -2 ^ (n - 1) → toIntegral mode n a = ⟨2 ^ (n - 1), flagNV ||| flagNX, true⟩) ∧
        (2 ^ (n - 1) ≤ k → toIntegral mode n a = ⟨2 ^ (n - 1) - 1, flagNV ||| flagNX, true⟩) ∧
        (-2 ^ (n - 1) ≤ k → k < 2 ^ (n - 1) → ∃ fl : FFlags, toIntegral mode n a = ⟨(k % (2 ^ n : Nat)).toNat, fl, false⟩ ∧
          (x = k → fl = 0) ∧ (x ≠ k → fl = flagNX)))) ∧
    (∀ (p : Nat),
      (f.decode p).isNan = true ∨ (∃ m, f.decode p = .inf m ∧ f.integral mode p = ⟨p, 0, false⟩) ∨
      ∃ (x : ℝ) (k : Int), (f.decode p).Is x ∧ RoundsTo OnIntegers OnEvenIntegers mode x k ∧
        (x = k → f.integral mode p = ⟨p, 0, false⟩) ∧
        (x ≠ k → (f.integral mode p).flags = flagNX ∧ (f.integral mode p).sat = false ∧
          (f.decode (f.integral mode p).bits).Is k ∧ (f.decode (f.integral mode p).bits).neg? = (f.decode p).neg?)) ∧
    (f.hasInf = true → ∀ (p : Nat),
      (∀ sg, f.decode p = .nan sg → ∀ fn, f.special fn mode p = nan sg) ∧
      (∀ n, f.decode p = .inf n → f.special .rcp mode p = zero n ∧ f.special .ex2 mode p = (if n then zero false else inf false) ∧
        f.special .rsq mode p = (if n then nan true else zero false) ∧ f.special .lg2 mode p = (if n then nan true else inf false) ∧
        f.special .sqrt mode p = if n then nan true else inf false) ∧
      (∀ n e, f.decode p = .fin n 0 e → f.special .rcp mode p = ⟨f.infBits n, flagDZ, false⟩ ∧ f.special .rsq mode p = ⟨f.infBits n, flagDZ, false⟩ ∧
        f.special .lg2 mode p = ⟨f.infBits true, flagDZ, false⟩ ∧ f.special .sqrt mode p = ⟨p, 0, false⟩) ∧
      (∀ m e, m ≠ 0 → f.decode p = .fin true m e → f.special .rsq mode p = nan true ∧ f.special .lg2 mode p = nan true ∧
        f.special .sqrt mode p = nan true))) ∧
  (∀ terms : List FVal,
    ((∃ t ∈ terms, t.isNan = true) ∨ (.inf true ∈ terms ∧ .inf false ∈ terms) → fF32.exactSum terms = fF32.nanBits) ∧
    (∀ n, (∀ t ∈ terms, t.isNan = false) → .inf n ∈ terms → .inf (!n) ∉ terms → fF32.exactSum terms = fF32.infBits n) ∧
    (∀ xs : List ℝ, List.Forall₂ FVal.Is terms xs →
      (xs.sum ≠ 0 → ∃ r, Rounded fF32 .rne xs.sum r ∧ fF32.exactSum terms = r.bits) ∧ (xs.sum = 0 → fF32.exactSum terms = fF32.zeroBits false))) ∧
  (∀ (old : Nat) (ps : List (FVal × FVal)) (p : FVal × FVal),
    kElem fmtF64 old [] = (old, false) ∧
    kElem fmtF64 old (ps ++ [p]) = ((fF64.fma .rne p.1 p.2 (fF64.decode (kElem fmtF64 old ps).1)).bits, false)) ∧
  (∀ (old : Nat) (zs : List (Int × Int)),
    let v (z : Int) : FVal := .fin (decide (z < 0)) z.natAbs 0
    let total := toSigned 32 old + (zs.map fun z => z.1 * z.2).sum
    let out := kElem 0 old (zs.map fun z => (v z.1, v z.2))
    (-2 ^ 31 ≤ total → total < 2 ^ 31 → out = ((total % (2 ^ 32 : Nat)).toNat, false)) ∧
    (2 ^ 31 ≤ total → out = (2 ^ 31 - 1, true)) ∧ (total < -2 ^ 31 → out = (2 ^ 31, true))) ∧
  (∀ (f : BitVec 4) (old : Nat) (ps : List (FVal × FVal)), f ≠ fmtF64 → f ≠ 0 →
    ∃ terms : List FVal, kElem f old ps = (fF32.exactSum (fF32.decode old :: terms), false) ∧
      List.Forall₂ (fun (p : FVal × FVal) t =>
        (∀ x y, p.1.Is x → p.2.Is y → t.Is (x * y)) ∧
        (p.1.isNan = true ∨ p.2.isNan = true ∨ (p.1.isInf = true ∧ p.2.isZero = true) ∨ (p.1.isZero = true ∧ p.2.isInf = true) → t.isNan = true) ∧
        (p.1.isInf = true ∨ p.2.isInf = true → p.1.isNan = false → p.2.isNan = false → p.1.isZero = false → p.2.isZero = false →
          t = .inf (p.1.neg? != p.2.neg?))) ps terms)

/-- R294, R296, R217: what a pass over the elements gives. In a mode other than stochastic rounding each active element is the function of its number, the
others keep their value, the flags are the union and SRSEED is unchanged; under stochastic rounding SRSEED takes one STEP for each active element,
before the element is rounded with the bits [63:40] that it then holds. -/
def Obligations.ElementPass : Prop :=
  ∀ (n count : Nat) (active : Nat → Bool) (code : Nat) (old : Line) (seed : Word) (f : Mode → Nat → FRes), 0 < n → n * count ≤ 512 →
    let a := vecFold n count active code old seed f
    let before (j : Nat) : Nat := ((List.range j).filter active).length
    let step (k : Nat) : Word := (List.range k).foldl (fun x _ => srStep x) seed
    let mode (j : Nat) : Mode := if code = 6 then .sr (bitsOf (step (before j + 1)) 40 24) else modeOf code 0
    (∀ j, j < count → elemAt n a.line j = if active j then (f (mode j) j).bits % 2 ^ n else elemAt n old j) ∧
    (∀ k, n * count ≤ k → k < 512 → a.line.getLsbD k = old.getLsbD k) ∧
    (∀ b, a.flags.getLsbD b = true ↔ ∃ j, j < count ∧ active j = true ∧ (f (mode j) j).flags.getLsbD b = true) ∧
    a.sat = ((List.range count).filter fun j => active j && (f (mode j) j).sat).length ∧
    a.seed = if code = 6 then step (before count) else seed

/-- R300: each granule that the mask makes active gets the condition of all its elements, combined by the mode; the others keep their bit; NV is raised for
a signalling NaN in an active element. -/
def Obligations.VectorCompareResults : Prop :=
  let sets (i : Instr) (s : State) (uid : Nat) (t : Thread) (mode kt : BitVec 2) (va vb : BitVec 4) (ty : BitVec 3) (k : BitVec 2)
      (cond : Nat → Bool) : Prop :=
    let n := elemBits ty
    let km := t.kmask k.toNat
    let signals (j : Nat) : Bool := isFloat ty &&
      (((fmtOfCode ty.toNat).decode (elemOf n (t.vreg va) j)).isSig || ((fmtOfCode ty.toNat).decode (elemOf n (t.vreg vb) j)).isSig)
    ∃ (m : BitVec 16) (nv : Bool),
      Completes i s uid ((afterRead i s t).modThread uid fun u => { u with regs := u.regs.setMask kt.toNat m }.raise (if nv then flagNV else 0)) ∧
      (nv = true ↔ ∃ j, j < 512 / n ∧ km.getLsbD (n * j / 32) = true ∧ signals j = true) ∧
      ∀ g, g < 16 →
        let all := (granuleElems ty g).all cond
        let old := (t.kmask kt.toNat).getLsbD g
        m.getLsbD g = if km.getLsbD g then (if mode = 1 then old && all else if mode = 2 then old || all else all) else old
  let compares (c : OpVcmp → Instr) (fF : FVal → FVal → Bool) (fI : Int → Int → Bool) : Prop :=
    ∀ (o : OpVcmp) (s : State) (uid : Nat) (t : Thread), Issues (c o) s uid t →
      let n := elemBits o.t
      let x (j : Nat) : Nat := elemOf n (t.vreg o.va) j
      let y (j : Nat) : Nat := elemOf n (t.vreg o.vb) j
      let m := fmtOfCode o.t.toNat
      sets (c o) s uid t o.mode o.kt o.va o.vb o.t o.k fun j =>
        if isFloat o.t then fF (m.decode (x j)) (m.decode (y j))
        else if o.m3 = 1 then fI (x j) (y j) else fI (toSigned n (x j)) (toSigned n (y j))
  compares Instr.vcmpEq (fun x y => x.eq y) (fun x y => x = y) ∧ compares Instr.vcmpNe (fun x y => !x.eq y) (fun x y => x ≠ y) ∧
  compares Instr.vcmpLt (fun x y => x.lt y) (fun x y => x < y) ∧ compares Instr.vcmpLe (fun x y => x.lt y || x.eq y) (fun x y => x ≤ y) ∧
  compares Instr.vcmpGt (fun x y => y.lt x) (fun x y => y < x) ∧ compares Instr.vcmpGe (fun x y => y.lt x || x.eq y) (fun x y => y ≤ x) ∧
  (∀ (o : OpVcmpU) (s : State) (uid : Nat) (t : Thread), Issues (.vcmpUnord o) s uid t →
    let m := fmtOfCode o.t.toNat
    sets (.vcmpUnord o) s uid t o.mode o.kt o.va o.vb o.t o.k fun j => isFloat o.t &&
      ((m.decode (elemOf (elemBits o.t) (t.vreg o.va) j)).isNan || (m.decode (elemOf (elemBits o.t) (t.vreg o.vb) j)).isNan))

/-- R301, R221: reductions, extraction, the dot product and the count of active elements. An integer reduction is the sum, the maximum or the minimum of
the active elements, sign-extended; a floating one is the tree of R221. -/
def Obligations.VectorToScalarResults : Prop :=
  let n (ty : BitVec 3) : Nat := elemBits ty
  let act (o : OpVred) (t : Thread) : List Nat := (List.range (512 / n o.t)).filter fun j => (t.kmask o.k.toNat).getLsbD (n o.t * j / 32)
  let val (o : OpVred) (t : Thread) (j : Nat) : Int := toSigned (n o.t) (elemAt (n o.t) (t.vreg o.va) j)
  let floatTree (i : Instr) (s : State) (uid : Nat) (t : Thread) (d : BitVec 6) (ty : BitVec 3) (va : BitVec 4) (k : BitVec 2) (code ident : Nat)
      (f : FFmt → Mode → Nat → Nat → FRes) : Prop :=
    let r := tree code (f (fmtOfCode ty.toNat)) 6 (reduceLeaves (n ty) (t.kmask k.toNat) ident id (t.vreg va)) ⟨0, t.sys.srseed⟩
    Completes i s uid (((afterRead i s t).putD s.cur uid d (BitVec.ofNat 64 r.1)).modThread uid fun u => u.absorb r.2.flags 0 r.2.seed)
  (∀ (o : OpVredadd) (s : State) (uid : Nat) (t : Thread), Issues (.vredadd o) s uid t →
    (isFloat o.t = true → floatTree (.vredadd o) s uid t o.d o.t o.va o.k (m3Code o.rnd t.sys.frm) (2 ^ (n o.t - 1))
      fun m r x y => m.sum r (m.decode x) (m.decode y)) ∧
    (isFloat o.t = false → Writes (.vredadd o) s uid t o.d (BitVec.ofInt 64
      (((List.range (512 / n o.t)).filter fun j => (t.kmask o.k.toNat).getLsbD (n o.t * j / 32)).map fun j =>
        toSigned (n o.t) (elemAt (n o.t) (t.vreg o.va) j)).sum))) ∧
  (∀ (o : OpVred) (s : State) (uid : Nat) (t : Thread),
    (Issues (.vredmax o) s uid t →
      (isFloat o.t = true → floatTree (.vredmax o) s uid t o.d o.t o.va o.k 1 ((fmtOfCode o.t.toNat).infBits true) fun m _ x y => m.minMax true x y) ∧
      (isFloat o.t = false → ∃ x : Int, Writes (.vredmax o) s uid t o.d (BitVec.ofInt 64 x) ∧ (∀ j ∈ act o t, val o t j ≤ x) ∧
        ((∃ j ∈ act o t, val o t j = x) ∨ (act o t = [] ∧ x = -2 ^ (n o.t - 1))))) ∧
    (Issues (.vredmin o) s uid t →
      (isFloat o.t = true → floatTree (.vredmin o) s uid t o.d o.t o.va o.k 1 ((fmtOfCode o.t.toNat).infBits false) fun m _ x y => m.minMax false x y) ∧
      (isFloat o.t = false → ∃ x : Int, Writes (.vredmin o) s uid t o.d (BitVec.ofInt 64 x) ∧ (∀ j ∈ act o t, x ≤ val o t j) ∧
        ((∃ j ∈ act o t, val o t j = x) ∨ (act o t = [] ∧ x = 2 ^ (n o.t - 1) - 1))))) ∧
  (∀ (o : OpVidx) (s : State) (uid : Nat) (t : Thread), Issues (.vext o) s uid t →
    let x := elemAt (n o.t) (t.vreg o.va) o.imm.toNat
    Writes (.vext o) s uid t o.d (if isFloat o.t then BitVec.ofNat 64 x else BitVec.ofInt 64 (toSigned (n o.t) x))) ∧
  (∀ (o : OpVdot) (s : State) (uid : Nat) (t : Thread), Issues (.vdot8 o) s uid t →
    let w := src (.vdot8 o) s t 0
    Writes (.vdot8 o) s uid t o.d (w + BitVec.ofInt 64
      (((List.range 64).filter fun j => (t.kmask o.k.toNat).getLsbD (j / 4)).map fun j =>
        toSigned 8 (elemAt 8 (t.vreg o.va) j) * toSigned 8 (w.toNat / 2 ^ (8 * (j % 8)) % 256)).sum)) ∧
  (∀ (o : OpVpopk) (s : State) (uid : Nat) (t : Thread), Issues (.vpopk o) s uid t →
    Writes (.vpopk o) s uid t o.d (BitVec.ofNat 64
      ((List.range (512 / n o.t)).filter fun j => (t.kmask o.k.toNat).getLsbD (n o.t * j / 32)).length))


/-! ## Matrix unit and engines -/

/-- R309 to R312, R314, R315, R317 to R319, R395: MFMT checks its address and reads word 0 of the descriptor as VLDG reads: it parks while an earlier access of
the thread or a write-back of its cluster has the granule, reads a resident line at once and otherwise sends a request for which the seat leaves the
rotation. An instruction of the matrix unit reads the copy of its format shadow, checks what it may
check at issue and hands its job to the unit of its tile; its seat leaves the rotation until the job completes. An MLDW whose source does not fit the segment
goes to the unit whatever its format is, to trap there; MMA and MST trap LSEG at issue, with the first offset outside, and do so before they read the
copy where the least extent of any format lies outside (R395). MRD copies the 64 bytes of
an accumulator row; MHINT starts the ramp of an idle unit and sets a hold window of 64 cycles for each unit of its argument.
The descriptor copies, and the wait of MFMT for a write-back of its cluster, follow the model's reading (log entries 26, 86). -/
def Obligations.MatrixUnitResults : Prop :=
  (∀ (o : OpMfmt) (s : State) (uid : Nat) (t : Thread), Issues (.mfmt o) s uid t →
     let i := Instr.mfmt o
     let r := afterRead i s t
     let va := src i s t 0
     let req := { Req.make r s.cur uid t (.descr o.n.toNat .mfmt) va.toNat 64 with mask := BitVec.allOnes 64 }
     (va.toNat % 64 ≠ 0 → ∃ b, Traps i s uid 0x04 b va) ∧
     (va.toNat % 64 = 0 → 2 ^ 48 ≤ va.toNat → Traps i s uid 0x06 0x01 va) ∧
     (va.toNat % 64 = 0 → va.toNat < 2 ^ 48 → t.occupies (.global (va.toNat / 64 * 64)) = true → exec i s = .next (parkAt s s.cur uid)) ∧
     (va.toNat % 64 = 0 → va.toNat < 2 ^ 48 → t.occupies (.global (va.toNat / 64 * 64)) = false →
       (∀ (s1 : State) l, r.ncLoad uid (ownCluster s) t.asid va.toNat (BitVec.allOnes 64) = some (s1, l) →
         let w := lineWord l.data 0
         (l.poison.getLsbD 0 = true → Traps i s uid 0x10 0x03 va) ∧
         (l.poison.getLsbD 0 = false → 10 < w.toNat % 16 → Traps i s uid 0x01 0x08 (BitVec.ofNat 64 (w.toNat % 16))) ∧
         (l.poison.getLsbD 0 = false → w.toNat % 16 ≤ 10 → Completes i s uid ((s1.countEv s.cur 5 1).modThread uid fun u =>
           { u with sys := { u.sys with fs := vset u.sys.fs o.n.toNat va }, fsCopy := vset u.fsCopy o.n.toNat (.word w) }))) ∧
       (r.ncLoad uid (ownCluster s) t.asid va.toNat (BitVec.allOnes 64) = none → r.mustWait s.cur t va.toNat = true →
         exec i s = .next (parkAt s s.cur uid)) ∧
       (r.ncLoad uid (ownCluster s) t.asid va.toNat (BitVec.allOnes 64) = none → r.mustWait s.cur t va.toNat = false →
         let q := (r.countEv s.cur 6 1).sendReq req
         Leads i s ((q.1.modSeat s.cur fun x => { x with off := some (.descriptor q.2) }).modThread uid fun u => { u with park := u.park.enter s.cycle })))) ∧
  (let handed (i : Instr) (s : State) (uid : Nat) (t : Thread) (op : MuOp) (a : Word) : Prop :=
     let r := afterRead i s t
     let job : MuJob := { seat := s.cur, uid := uid, op := op, off := a, base := (r.seat s.cur).lbase.toNat + a.toNat, segLen := (r.seat s.cur).segLen,
                          step := 0, taken := false, issued := r.cycle, completes := none, asked := 0, got := [], badOff := none, fetch := none, undo := [] }
     Leads i s (((r.modTile (tileOf (coreOf s.cur)) fun x => { x with jobs := x.jobs ++ [job] }).modSeat s.cur fun x =>
       { x with off := some .matrix }).addWork 1 (.matrixUnitTake (tileOf (coreOf s.cur))))
   let shadow (i : Instr) (s : State) (uid : Nat) (t : Thread) (fs : Nat) (good : Word → Prop) : Prop :=
     (vget t.fsCopy fs .invalid = .invalid → Traps i s uid 0x01 0x08 15) ∧
     (∀ b, vget t.fsCopy fs .invalid = .faulted b → Traps i s uid 0x06 b (vget t.sys.fs fs 0)) ∧
     (∀ w, vget t.fsCopy fs .invalid = .word w → 10 < w.toNat % 16 → Traps i s uid 0x01 0x08 (BitVec.ofNat 64 (w.toNat % 16))) ∧
     (∀ w, vget t.fsCopy fs .invalid = .word w → w.toNat % 16 ≤ 10 → good w)
   let fits (s : State) (i : Instr) (t : Thread) (a n : Nat) : Prop := a < ((afterRead i s t).seat s.cur).segLen ∧ a + n ≤ ((afterRead i s t).seat s.cur).segLen
   let outside (s : State) (i : Instr) (t : Thread) (a : Nat) : Word := BitVec.ofNat 64 (max a ((afterRead i s t).seat s.cur).segLen)
   (∀ (o : OpMx) (s : State) (uid : Nat) (t : Thread),
     (Issues (.mldw o) s uid t →
       let a := src (.mldw o) s t 0
       (a.toNat % 64 ≠ 0 → ∃ b, Traps (.mldw o) s uid 0x04 b a) ∧
       let steps := o.arg.toNat + 1
       let known := if o.acc = 2 then mldwNeed 2 5 steps [] else 8
       let go (f : BitVec 4) : Prop := handed (.mldw o) s uid t (.mldw o.acc o.slot.toNat steps f (encode (.mldw o))) a
       (a.toNat % 64 = 0 → ¬ fits s (.mldw o) t a.toNat known → go fmtF64) ∧
       (a.toNat % 64 = 0 → fits s (.mldw o) t a.toNat known → shadow (.mldw o) s uid t 1 fun w =>
         let f := descrFmt w
         let outside : Prop := matrixFmt f = true ∧ ¬ fits s (.mldw o) t a.toNat (mldwNeed o.acc f steps [])
         (mldwAccepts o.acc f = true ∨ outside → go f) ∧
         (mldwAccepts o.acc f = false → ¬ outside → Traps (.mldw o) s uid 0x01 0x07 (issueWord (.mldw o) t)))) ∧
     (∀ zero : Bool, let i := if zero then Instr.mmaz o else Instr.mma o
       Issues i s uid t →
         let a := src i s t 0
         let steps := o.arg.toNat + 1
         let plane : Word → Prop := fun w => descrFmt w = 10 → fits s i t (descrSplane w) (steps * 32)
         (a.toNat % 64 ≠ 0 → ∃ b, Traps i s uid 0x04 b a) ∧
         (a.toNat % 64 = 0 → ¬ fits s i t a.toNat (steps * 256) → ∃ b, Traps i s uid 0x05 b (outside s i t a.toNat)) ∧
         (a.toNat % 64 = 0 → fits s i t a.toNat (steps * 256) → shadow i s uid t 0 fun w =>
           (¬ fits s i t a.toNat (steps * aBytes (descrFmt w)) → ∃ b, Traps i s uid 0x05 b (outside s i t a.toNat)) ∧
           (fits s i t a.toNat (steps * aBytes (descrFmt w)) → ¬ plane w → ∃ b, Traps i s uid 0x05 b (outside s i t (descrSplane w))) ∧
           (fits s i t a.toNat (steps * aBytes (descrFmt w)) → plane w → handed i s uid t (.mma zero o.acc.toNat o.slot.toNat steps (descrFmt w) (((afterRead i s t).seat s.cur).lbase.toNat + descrSplane w) (encode i)) a))) ∧
   (∀ (o : OpMst) (s : State) (uid : Nat) (t : Thread), Issues (.mst o) s uid t →
     let a := src (.mst o) s t 0
     (a.toNat % 64 ≠ 0 → ∃ b, Traps (.mst o) s uid 0x04 b a) ∧
     (a.toNat % 64 = 0 → ¬ fits s (.mst o) t a.toNat 260 → ∃ b, Traps (.mst o) s uid 0x05 b (outside s (.mst o) t a.toNat)) ∧
     (a.toNat % 64 = 0 → fits s (.mst o) t a.toNat 260 → shadow (.mst o) s uid t 2 fun w =>
       let fit := fits s (.mst o) t a.toNat (mstBytes (descrFmt w) + 4)
       let ok := mstAccepts (vget t.vec.tag o.acc.toNat .fp32) (descrFmt w)
       (¬ fit → ∃ b, Traps (.mst o) s uid 0x05 b (outside s (.mst o) t a.toNat)) ∧
       (fit → ok = false → Traps (.mst o) s uid 0x01 0x07 (issueWord (.mst o) t)) ∧
       (fit → ok = true → handed (.mst o) s uid t (.mst o.acc.toNat o.clr (descrFmt w) (descrScale w)) a)))) ∧
  ((∀ (o : OpMrd) (s : State) (uid : Nat) (t : Thread), Issues (.mrd o) s uid t → ∃ l : Line, WritesV (.mrd o) s uid t o.vd l ∧
     ∀ b, b < 512 → l.getLsbD b = (vget t.vec.acc o.acc.toNat 0).getLsbD (512 * o.row.toNat + b)) ∧
   (∀ (o : OpMhint) (s : State) (uid : Nat) (t : Thread), Issues (.mhint o) s uid t →
     let i := Instr.mhint o
     let r := afterRead i s t
     let tile := tileOf (coreOf s.cur)
     let n := o.arg.toNat * 64
     ((r.tile tile).mu = .idle →
       Completes i s uid ((r.modTile tile fun x => { x with mu := .ramp (r.cycle + 1), pendingWindow := n }).addWork 65 (.rampEnd tile))) ∧
     (∀ c, (r.tile tile).mu = .down c →
       Completes i s uid ((r.modTile tile fun x => { x with mu := if n = 0 then x.mu else .full, windowEnd := r.cycle + n }).addWork n (.holdWindowEnd tile))) ∧
     ((r.tile tile).mu = .full ∨ (∃ c, (r.tile tile).mu = .ramp c) →
       Completes i s uid ((r.modTile tile fun x => { x with windowEnd := r.cycle + n }).addWork n (.holdWindowEnd tile))))))

/-- R323, R144, R327 to R329: ESET writes a shadow field unless the shadow is committed; EGO checks, releases and commits; ESTAT reads the engine's state;
ECAN marks what the seat has at the engine, and cancels the collectives that the seat has joined or committed a shadow for.
The wait for write-backs on their way and the release of a collective follow the model's reading (log entries 86, 96). -/
def Obligations.EngineInstructionResults : Prop :=
  (∀ (o : OpEset) (s : State) (uid : Nat) (t : Thread), Issues (.eset o) s uid t →
    let i := Instr.eset o
    let r := afterRead i s t
    ((r.seat s.cur).committed.getLsbD o.eng.toNat = true → exec i s = .next (parkAt s s.cur uid)) ∧
    ((r.seat s.cur).committed.getLsbD o.eng.toNat = false → Completes i s uid (r.modThread uid fun u =>
      { u with shadows := ⟨vset u.shadows.fields (32 * o.eng.toNat + o.field.toNat) (src i s t 0), putBit u.shadows.dirty o.eng.toNat true⟩ }))) ∧
  (∀ (o : OpEng) (s : State) (uid : Nat) (t : Thread), Issues (.ego o) s uid t →
    let i := Instr.ego o
    let r := afterRead i s t
    let e := o.eng.toNat
    let core := coreOf s.cur
    let eng := engineOf e core
    let k := kindOfEngine eng
    let fs := t.shadow e
    let wide := if k = .collective then r.scopeWide t.asid core (collScope fs) else false
    ((r.seat s.cur).committed.getLsbD e = true → exec i s = .next (parkAt s s.cur uid)) ∧
    ((r.seat s.cur).committed.getLsbD e = false →
      (∀ c b v, egoCheck r s.cur t k fs = .trap c b v → Traps i s uid c b v) ∧
      (egoCheck r s.cur t k fs = .pass → AfterRelease i s uid t wide true (parkAt · s.cur uid) fun r1 =>
        let x := r1.seat s.cur
        let op : EngOp := { kind := k, seat := s.cur, uid := uid, asid := t.asid, launch := t.launch, fields := fs, segBase := x.lbase.toNat,
                            segLen := x.segLen, ccore := if (fs.getD 8 0).getLsbD 63 then bitsOf (fs.getD 8 0) 0 11 else core, committedAt := r1.cycle,
                            done := 0, doneSet := [], started := [], status := none, cancelled := false, word := none }
        Completes i s uid (((r1.setEngine eng { r1.engine eng with committed := addCommitted op (r1.engine eng).committed }).modSeat s.cur fun y =>
          { y with committed := putBit y.committed e true }).modThread uid (fun u =>
            { u with shadows := ⟨u.shadows.fields, putBit u.shadows.dirty e false⟩ }) |>.addWork 1 (.engineShadowTake eng))))) ∧
  (∀ (o : OpEstat) (s : State) (uid : Nat) (t : Thread), Issues (.estat o) s uid t →
    let r := afterRead (.estat o) s t
    let e := o.eng.toNat
    Writes (.estat o) s uid t o.d (BitVec.ofNat 64 ((if r.activeAt s.cur e then 2 ^ 63 else 0) + (if (r.seat s.cur).committed.getLsbD e then 2 ^ 62 else 0)
      + e * 2 ^ 16 + (vget (r.seat s.cur).engStatus e 0xFF).toNat))) ∧
  (∀ (o : OpEng) (s : State) (uid : Nat) (t : Thread), Issues (.ecan o) s uid t →
    let r := afterRead (.ecan o) s t
    let eng := engineOf o.eng.toNat (coreOf s.cur)
    let mark (op : EngOp) : EngOp := if op.seat = s.cur then { op with cancelled := true, word := none } else op
    let r1 := r.setEngine eng { committed := (r.engine eng).committed.map mark, active := (r.engine eng).active.map mark }
    Completes (.ecan o) s uid (if o.eng.toNat = 2 then
        cancelShadows s.cur ((r.engine eng).committed.filter fun op => op.seat == s.cur) (cancelCollectives r s.cur)
      else r1.addWork 0 (.engineAccessReply eng)))

/-! ## Control and status registers, seats, contexts -/

/-- R363, R364: CSRR reads a register; CSRW, CSRS and CSRC read the old value, write the new one and put the old one into D. Only the ones of g[A] that CSRW
and CSRS write clear an OVF. The retirement is counted before the write.
R205, R363, R364: and what a write of a register leaves in it, read back. A register that is read-only keeps its value; the fields that a register
does not have read zero; MODE and SYS keep theirs.
That a supervisor writes PMC0 to PMC15 is the model's reading (log entry 61). -/
def Obligations.CsrResults : Prop :=
  (∀ (o : OpCsrr) (s : State) (uid : Nat) (t : Thread), Issues (.csrr o) s uid t →
    Writes (.csrr o) s uid t o.d (csrRead (afterRead (.csrr o) s t) s.cur t o.csr.toNat)) ∧
  (∀ (o : OpCsrw) (s : State) (uid : Nat) (t : Thread),
    let modifies (i : Instr) (f : Word → Word → Word) (clear : Word → Word) : Prop := Issues i s uid t →
      let r := afterRead i s t
      let old := csrRead r s.cur t o.csr.toNat
      Leads i s (retireCounted ((csrWrite (r.countEv s.cur 2 1) s.cur uid o.csr.toNat (f old (src i s t 0)) (clear (src i s t 0))).putD s.cur uid o.d old)
        s.cur uid)
    modifies (.csrw o) (fun _ v => v) id ∧ modifies (.csrs o) (fun old v => old ||| v) id ∧ modifies (.csrc o) (fun old v => old &&& ~~~ v) (fun _ => 0)) ∧
  (∀ (s : State) (seat uid : Nat) (t : Thread) (n : Nat) (w : Word), (s.seat seat).occ = some uid → s.thread? uid = some t →
    let s' := csrWrite s seat uid n w w
    ∃ t', s'.thread? uid = some t' ∧ t'.regs = t.regs ∧ t'.vec = t.vec ∧
      (n ∈ [0x02, 0x03, 0x50] ∨ (0x05 ≤ n ∧ n ≤ 0x08) ∨ (0x40 ≤ n ∧ n ≤ 0x4F) → csrRead s' seat t' n = w) ∧
      (n ∈ [0x01, 0x1E, 0x1F, 0x20] → csrRead s' seat t' n = w &&& 0xFFFF) ∧
      (n = 0x0D → csrRead s' seat t' n &&& 0xFFFF = w &&& 0xFFFF) ∧ (n = 0x0E → csrRead s' seat t' n = w &&& 0xFFFF_FFFF) ∧
      (n = 0x04 ∨ n = 0x29 → csrRead s' seat t' n = w &&& ~~~ 3) ∧
      (n = 0x15 → csrRead s' seat t' n = w &&& 0xBFF0_FFFF_FFFF_FFFC) ∧ (n = 0x16 → csrRead s' seat t' n = w &&& 0x0FFF_FFC0) ∧
      (n = 0x17 → csrRead s' seat t' n = (csrRead s seat t n &&& 0x7FFF_FFFF_FFFF_0000) ||| (w &&& 0xFFFF)
        ||| (csrRead s seat t n &&& ~~~ w &&& 0x8000_0000_0000_0000)) ∧
      (0x21 ≤ n ∧ n ≤ 0x24 → csrRead s' seat t' n = w &&& 0x8000_03FF_FFFF_FFC0) ∧ (n = 0x28 → csrRead s' seat t' n = w &&& 0x18_1780) ∧
      (n = 0x10 → csrRead s' seat t' n = w &&& 0xFF_FFC0) ∧ (n = 0x11 → csrRead s' seat t' n = w &&& 0x1FF_FFC0) ∧
      (n = 0x09 → csrRead s' seat t' n = if t.kind = .anchored then w &&& 7 else 0) ∧
      (n = 0x0A → csrRead s' seat t' n = if t.kind = .anchored then w &&& 31 else 0) ∧
      (n ∈ [0x0B, 0x0C] → csrRead s' seat t' n = if t.kind = .anchored then w else 0) ∧
      (n = 0x00 → csrRead s' seat t' n = (w &&& 0x1A) ||| (csrRead s seat t n &&& 0x05)) ∧
      (n ∈ [0x0F, 0x12, 0x13, 0x14, 0x18, 0x19, 0x1A, 0x1B, 0x1C, 0x1D, 0x25, 0x26, 0x27] → csrRead s' seat t' n = csrRead s seat t n))

/-- R371, R409: the seat-control instructions act on a seat of the issuing core, or on all seats of its role group, of a doublet on both seats, and write its status as it then stands; STOP leaves
the rotation while a local access or a matrix operation of the seats is open, and completes with the last one; START waits for a context that is being saved
from or loaded into one of them by the model's choice (log entry 120). -/
def Obligations.SeatControlResults : Prop :=
  (∀ (s : State) (uid n : Nat) (d : BitVec 6), (∀ k ∈ s.seatGroup n, s.primaryOf k ≠ s.cur → (s.seat k).quiet = true) →
    let r1 := s.modSeat s.cur fun x => { x with off := none }
    let r2 := if (s.seatGroup n).contains s.cur then r1.haltSeat s.cur else r1
    s.continueStop s.cur uid n d = retire (r2.putD s.cur uid d (r2.seatStatus n)) s.cur uid) ∧
  ∀ (o : OpDA) (s : State) (uid : Nat) (t : Thread),
    let seat (i : Instr) : Nat := coreOf s.cur * 8 + (src i s t 0).toNat % 8
    let r (i : Instr) : State := afterRead i s t
    (Issues (.seatctlStat o) s uid t → Writes (.seatctlStat o) s uid t o.d ((r (.seatctlStat o)).seatStatus (seat (.seatctlStat o)))) ∧
    (Issues (.seatctlStop o) s uid t →
      let i := Instr.seatctlStop o
      let group := (r i).seatGroup (seat i)
      let others := group.filter fun k => (r i).primaryOf k != s.cur
      let r1 := others.foldl (fun x k => x.modSeat k fun y => { y with stop := true }) (r i)
      let r2 := if group.contains s.cur then r1.haltSeat s.cur else r1
      ((∃ k ∈ others, (r1.seat k).quiet = false) → Leads i s (r1.leaveRotation s.cur uid (.stopping (seat i) o.d))) ∧
      ((∀ k ∈ others, (r1.seat k).quiet = true) → Completes i s uid (r2.putD s.cur uid o.d (r2.seatStatus (seat i))))) ∧
    (Issues (.seatctlStart o) s uid t →
      let i := Instr.seatctlStart o
      let group := (r i).seatGroup (seat i)
      let r1 := group.foldl (fun x k => x.modSeat k fun y => { y with stop := false, halt := false, tstop := false }) (r i)
      ((∃ k ∈ group, (r i).seatMoving k = true) → exec i s = .next (parkAt s s.cur uid)) ∧
      ((∀ k ∈ group, (r i).seatMoving k = false) → Completes i s uid (r1.putD s.cur uid o.d (r1.seatStatus (seat i))))) ∧
    (Issues (.seatctlWake o) s uid t →
      let i := Instr.seatctlWake o
      let r1 := match ((r i).seat (seat i)).occ with
        | some u => (r i).modThread u fun v => { v with bar := { v.bar with event := true } }
        | none => r i
      Completes i s uid (r1.putD s.cur uid o.d (r1.seatStatus (seat i))))

/-- R372 to R376, R404, R407, R409, R411, R433: CTXSAVE names another seat that is stopped and holds a thread, by either seat of a doublet,
or traps PRIV; the issuing seat leaves the rotation, and once
the access of that seat is complete, an anchored thread released and a doublet at a checkpoint, the core begins to write its context, block by block. CTXLOAD names another seat that is stopped and empty, or traps PRIV;
for a context that may be loaded the core begins to read the blocks. A seat whose context is on its way parks both. With the last block read the words are
checked again, and a poisoned one traps; then the discardable regions are cleared, and the seat has a thread with the registers, the PC and the context
number of the area, not started when it was not asked to go.
The times, the checks, the clears, the waits, the place of a doublet and what the package keeps are the model's readings (log entries 18, 28, 29, 53, 86,
88, 97, 98, 113, 120). -/
def Obligations.ContextMoveResults : Prop :=
  (∀ (o : OpCtxsave) (s : State) (uid : Nat) (t : Thread), Issues (.ctxsave o) s uid t →
     let i := Instr.ctxsave o
     let r := afterRead i s t
     let area := src i s t 0
     let named := coreOf s.cur * 8 + (src i s t 1).toNat % 8
     let n := r.primaryOf named
     let extent := areaBytes o.parts
     (named = s.cur → Traps i s uid 0x03 0x05 (Config.openXval 0x03 0x05)) ∧
     (named ≠ s.cur → r.seatMoving n = true → exec i s = .next (parkAt s s.cur uid)) ∧
     (named ≠ s.cur → r.seatMoving n = false → (r.seat n).stopped = false ∨ (r.seat n).occ = none →
       Traps i s uid 0x03 0x04 (Config.openXval 0x03 0x04)) ∧
     (∀ u v, named ≠ s.cur → r.seatMoving n = false → (r.seat n).stopped = true → (r.seat n).occ = some u → r.thread? u = some v →
       (area.toNat % 64 ≠ 0 → ∃ b, Traps i s uid 0x04 b area) ∧
       (area.toNat % 64 = 0 → (r.seat s.cur).segLen < area.toNat + extent ∨ (r.seat s.cur).segLen ≤ area.toNat → ∃ b v, Traps i s uid 0x05 b v) ∧
       (area.toNat % 64 = 0 → area.toNat < (r.seat s.cur).segLen → area.toNat + extent ≤ (r.seat s.cur).segLen →
         let place := (r.seat s.cur).lbase.toNat + area.toNat
         let waits (x : State) : Prop := Leads i s (x.leaveRotation s.cur uid (.saving n u area place o.parts))
         (v.loc = .seat n → (r.seat n).quiet = false → waits r) ∧
         (v.loc = .seat n → (r.seat n).quiet = true → v.kind ≠ .anchored →
           let full : Prop := o.parts.getLsbD 0 = true ∧ v.owed ≠ [] ∧ 64 ≤ r.routesTaken (coreOf n)
           (r.boundaryClear n = false → waits (r.wantCheckpoint n)) ∧
           (r.boundaryClear n = true → full → waits r) ∧
           (r.boundaryClear n = true → ¬ full → Leads i s ((r.newInterval n).startSave s.cur uid n u v area place o.parts))) ∧
         (v.loc = .seat n → (r.seat n).quiet = true → v.kind = .anchored →
           (v.owed ≠ [] → waits (r.wantCheckpoint n)) ∧
           (v.owed = [] → ¬ (r.releaseLines (clusterOf (coreOf n)) v = [] ∧ r.flyingFor (clusterOf (coreOf n)) v = []) → waits (r.wideWriteBack n u)) ∧
           (v.owed = [] → r.releaseLines (clusterOf (coreOf n)) v = [] → r.flyingFor (clusterOf (coreOf n)) v = [] → r.boundaryClear n = true →
             Leads i s (((r.modThread u fun x => { x with dirtyLines := ⟨[], false⟩ }).newInterval n).startSave s.cur uid n u
               { v with dirtyLines := ⟨[], false⟩ } area place o.parts)))))) ∧
  (∀ (o : OpCtxload) (s : State) (uid : Nat) (t : Thread), Issues (.ctxload o) s uid t →
     let i := Instr.ctxload o
     let r := afterRead i s t
     let area := src i s t 0
     let n := coreOf s.cur * 8 + (src i s t 1).toNat % 8
     let place := (r.seat s.cur).lbase.toNat + area.toNat
     let rd (k : Nat) : Word := r.localWord (ownCluster s) (place + 8 * k)
     let c := o.parts.getLsbD 1
     let known := (r.savedAs ((rd 30).setWidth 16) (BitVec.ofNat 32 ((rd 30).toNat / 2 ^ 16 % 2 ^ 32)) (rd 27)).map (·.uid)
     let moving : Prop := r.seatMoving n = true ∨ r.pairLoading n = true
     let misplaced : Prop := r.doubletOf { Thread.init with launch := BitVec.ofNat 32 ((rd 30).toNat / 2 ^ 16 % 2 ^ 32) } = true ∧ r.doubletPlace n = false
     let taken : Prop := bitsOf (rd 29) 24 2 = 1 ∧ c = true ∧ ∃ k, k < 16 ∧ (rd 48).getLsbD k = true ∧ r.slotGranted (tileOf (coreOf s.cur)) k (some n) = true
     (n = s.cur → Traps i s uid 0x03 0x05 (Config.openXval 0x03 0x05)) ∧
     (n ≠ s.cur → moving → exec i s = .next (parkAt s s.cur uid)) ∧
     (n ≠ s.cur → ¬ moving → (r.seat n).stopped = false ∨ (r.seat n).occ ≠ none →
       Traps i s uid 0x03 0x04 (Config.openXval 0x03 0x04)) ∧
     (n ≠ s.cur → ¬ moving → (r.seat n).stopped = true → (r.seat n).occ = none →
       (area.toNat % 64 ≠ 0 → ∃ b, Traps i s uid 0x04 b area) ∧
       (area.toNat % 64 = 0 → (r.seat s.cur).segLen < area.toNat + areaBytes o.parts ∨ (r.seat s.cur).segLen ≤ area.toNat → ∃ b v, Traps i s uid 0x05 b v) ∧
       (area.toNat % 64 = 0 → area.toNat < (r.seat s.cur).segLen → area.toNat + areaBytes o.parts ≤ (r.seat s.cur).segLen →
         (misplaced → Traps i s uid 0x03 0x04 (Config.openXval 0x03 0x04)) ∧
         (¬ misplaced → r.loadElsewhere (coreOf n) rd c = true → Traps i s uid 0x03 0x07 (Config.openXval 0x03 0x07)) ∧
         (¬ misplaced → r.loadElsewhere (coreOf n) rd c = false → taken → Traps i s uid 0x03 0x06 (Config.openXval 0x03 0x06)) ∧
         (¬ misplaced → r.loadElsewhere (coreOf n) rd c = false → ¬ taken → c = true → ∀ a b v, discCheck rd = .trap a b v → Traps i s uid a b v) ∧
         (¬ misplaced → r.loadElsewhere (coreOf n) rd c = false → ¬ taken → (c = true → discCheck rd = .pass) →
           Leads i s (r.moveBlocks s.cur uid (.restore n place known o.parts o.go false) area place ((areaWords o.parts).map fun k => (k, .read))))))) ∧
  (∀ (s : State) (by' seat place : Nat) (op : LocalOp) (uid : Option Nat) (parts : BitVec 5) (go : Bool),
     let rd (k : Nat) : Word := ((op.got.find? fun p => p.1 == k).map (·.2)).getD 0
     let c := parts.getLsbD 1
     let idle := s.modSeat by' fun x => { x with localOp := none, localDone := op.done, off := none }
     (∀ o, op.poison = some o → s.finishRestore by' op seat place uid parts go false = idle.trapDue by' 0x10 0x01 o) ∧
     (op.poison = none → ∀ a b v, s.loadRefusal seat rd c = some (a, b, v) →
       s.finishRestore by' op seat place uid parts go false = idle.trapDue by' a b v) ∧
     (op.poison = none → s.loadRefusal seat rd c = none →
       let clears := clearParts (coreOf by') rd
       (c = false ∨ clears = [] → s.finishRestore by' op seat place uid parts go false = (s.blocksMoved by' op).loadContext seat rd parts go) ∧
       (c = true → clears ≠ [] → ∃ s1 : State, s.finishRestore by' op seat place uid parts go false = s1 ∧ s1.mem = s.mem ∧
         (s1.seat by').localOp = some { op with kind := .restore seat place uid parts go true, remaining := clears.length } ∧
         ∀ p ∈ clears, ∃ x ∈ (s1.bank (bankOf (clusterOf (coreOf by')) p.2.2.off)).waiting,
           x.user = .seat by' ∧ x.part = p.2.2 ∧ x.arrival = s.cycle + p.1)) ∧
     s.finishRestore by' op seat place uid parts go true = (s.blocksMoved by' op).loadContext seat rd parts go) ∧
  (∀ (s : State) (seat : Nat) (rd : Nat → Word) (parts : BitVec 5) (go : Bool), (s.seat seat).stopped = true →
     let s1 := s.loadContext seat rd parts go
     ∃ u t', (s1.seat seat).occ = some u ∧ s1.thread? u = some t' ∧ t'.loc = .seat seat ∧ (∀ k, k < 24 → vget t'.regs.g k 0 = rd k) ∧
       t'.regs.pc = rd 28 &&& ~~~ 3 ∧ t'.regs.full = (rd 29).setWidth 24 ∧ t'.asid = (rd 30).setWidth 16 ∧ (s1.seat seat).stopped = !go)

/-- R373, R374, R375, R433: what the saving of a portable context does. Each word of the area is on its way to its bank, block n in the n-th cycle after the
issue; with the last one written the issuing instruction retires, the saved seat is empty, and the package knows whose context the area holds.
What the package keeps beside the area, and that the words are those of the issue, are the model's readings (log entries 29, 88). -/
def Obligations.SavedContext : Prop :=
  (∀ (s : State) (by' byUid seat u : Nat) (t : Thread) (off : Word) (place : Nat),
     let s' := s.startSave by' byUid seat u t off place 1
     let cl := clusterOf (coreOf by')
     let writes (k : Nat) (w : Word) : Prop := ∃ x ∈ (s'.bank (bankOf cl (place + 8 * k))).waiting,
       x.user = .seat by' ∧ x.part = ⟨place + 8 * k, .write 255 w, k⟩ ∧ x.arrival = s.cycle + 1 + k / 8 + transit (coreOf by') (place + 8 * k)
     (s'.seat by').off = some .context ∧ s'.mem = s.mem ∧ (∀ k, k < 24 → writes k (vget t.regs.g k 0)) ∧ writes 24 t.regs.pw ∧ writes 25 t.regs.xy ∧
     writes 26 t.regs.zw ∧ writes 27 t.regs.wid ∧ writes 28 t.regs.pc ∧ writes 30 (BitVec.ofNat 64 (t.launch.toNat * 2 ^ 16 + t.asid.toNat)) ∧
     writes 31 t.defer ∧ ∃ w : Word, writes 29 w ∧ w.setWidth 24 = t.regs.full ∧ w.extractLsb' 26 2 = t.prio ∧ w.getLsbD 28 = t.role ∧
       w.getLsbD 29 = t.placed ∧ w.extractLsb' 32 16 = t.limit ∧ w.extractLsb' 48 16 = BitVec.ofNat 16 (t.park.units s.cycle) ∧
       w.extractLsb' 24 2 = if t.kind = .anchored then 1 else if t.kind = .bound then 2 else 0) ∧
  (∀ (s : State) (by' : Nat) (op : LocalOp), (s.thread? op.uid).isSome = true →
     s.blocksMoved by' op = retire (s.modSeat by' fun x => { x with localOp := none, localDone := op.done, off := none }) by' op.uid) ∧
  (∀ (s : State) (by' seat u : Nat) (op : LocalOp) (t : Thread) (place : Nat), s.thread? u = some t → (s.seat seat).occ = some u →
     FMap.find? s.fab.doublets seat = none → by' ≠ seat → op.uid ≠ u → t.owed = [] → s.routeOf u = none →
     let s' := s.finishSave by' op seat u place 1
     s'.thread? u = none ∧ (s'.seat seat).occ = none ∧
     (t.cancelTaken = false → (∀ v ∈ s.disp.saved, v.uid ≠ u) →
       ∃ v ∈ s'.disp.saved, v.uid = u ∧ v.core = coreOf seat ∧ v.asid = t.asid ∧ v.launch = t.launch ∧ v.wid = t.regs.wid))


/-! ## Steps of seats, cores and clusters -/

/-- R370, R49, R285, R391, R385, R384, R174, R222, R368, R397: the steps that a seat or a core takes between instructions: TIMER, the limits of waits, CANCEL,
PARKSWAP, the taking of a seat, the arrival of a context, a fetched line, a trap notice.
The order within a turn, the timer at 0, the descriptor reads and the seat of an anchored thread are the model's readings (log entries 17, 23,
26, 52, 71); so is the wait of a seat into which a doublet is being loaded (120). -/
def Obligations.SeatStepResults : Prop :=
  (∀ (s : State) (seat uid : Nat), (s.seat seat).occ = some uid →
    ((s.seat seat).timerDue = true →
      exec (.timer seat) s = .next (takeTrap (s.modSeat seat fun x => { x with timerDue := false }) seat uid 0x0E 0x01 0)) ∧
    (∀ d, (s.seat seat).due = some d → d.cause = 0x08 →
      exec (.waitlimExpiry seat) s = .next (takeTrap (s.modSeat seat fun x => { x with due := none }) seat uid 0x08 d.sub d.xval))) ∧
  (∀ (s : State) (seat uid : Nat) (t : Thread), (s.seat seat).occ = some uid → s.thread? uid = some t →
    let withdrawn (level group : Nat) (b : Bool) : State :=
      (s.modThread uid fun u => { u with bar := { u.bar with barr := b, carr := false } }).modLaunch t.launch.toNat fun l =>
        l.setBarrier { l.barrier level group with count := (l.barrier level group).count - 1 }
    let n := t.bar.blev.toNat
    let core := coreOf seat
    (t.park.parked = true → t.park.counting = true → t.limit.toNat < t.park.units s.cycle →
      (t.bar.carr = false → t.bar.barr = true → s.barrierGen t n (s.groupOf t n t.regs.wid) = t.bar.bgen →
        exec (.barrierWaitLimit seat) s =
          .next (takeTrap (withdrawn n (s.groupOf t n t.regs.wid) false) seat uid 0x08 0x05 (BitVec.ofNat 64 n))) ∧
      (t.bar.carr = true → s.barrierGen t 7 0 = t.bar.bgen →
        exec (.barrierWaitLimit seat) s = .next (takeTrap (withdrawn 7 0 t.bar.barr) seat uid 0x08 0x06 6))) ∧
    (t.cancelTaken = false → t.sys.job.getLsbD 32 = true → (∃ c ∈ s.fw.cancels, c.1 = t.sys.job.setWidth 32 ∧ c.2 ≤ s.cycle) →
      exec (.cancel seat) s =
        .next (takeTrap (s.modThread uid fun u => { u with cancelTaken := true }) seat uid 0x17 0x01 ((t.sys.job.setWidth 32).setWidth 64))) ∧
    (s.swapDue seat t = true → ∃ (s' : State) (t' : Thread), exec (.parkswap seat) s = .next s' ∧ s'.mem = s.mem ∧
      (s'.seat seat).occ = none ∧ (s'.seat seat).off = some (.swap (s.cycle + 32)) ∧ s'.thread? uid = some t' ∧ t'.regs = t.regs ∧
      t'.loc = .runQueue core ∧ (s'.core core).runq = (s.core core).runq ++ [⟨uid, s.cycle⟩]) ∧
    ((s.core core).stops.find? (fun p => p.2.seat == seat) = none → exec (.trapNotice seat) s = .next s)) ∧
  (∀ (s : State) (seat uid : Nat) (n : Notice), (s.core (coreOf seat)).stops.find? (fun p => p.2.seat == seat) = some (uid, n) →
    let core := coreOf seat
    let header := headerWord 3 n.asid s.device n.seat
    let r := s.modCore core fun c => { c with stops := listErase (fun p => p.2.seat == seat) c.stops }
    ((s.iface core).ring = none ∨ (∀ p ∈ s.coreThreads core, p.2.2.sys.xstat.sys = false) →
      (s.removable seat uid = true → exec (.trapNotice seat) s = .next (r.removeTrapped uid n)) ∧
      (s.removable seat uid = false → exec (.trapNotice seat) s = .next (s.addWork 1 (.trapNotice seat)))) ∧
    ((s.iface core).ring ≠ none → (∃ p ∈ s.coreThreads core, p.2.2.sys.xstat.sys = true) →
      ((s.iface core).hasRoom = true → (s.core core).held = [] → exec (.trapNotice seat) s = .next (r.startEntry core n.payload header none)) ∧
      (((s.iface core).hasRoom = false ∨ (s.core core).held ≠ []) →
        ((s.core core).held.length < 2 →
          exec (.trapNotice seat) s = .next (r.modCore core fun c => { c with held := c.held ++ [(n.payload, header, none)] })) ∧
        (2 ≤ (s.core core).held.length → ∃ s' : State, exec (.trapNotice seat) s = .next s' ∧ s'.mem = s.mem ∧ n ∈ (s'.core core).notices)))) ∧
  (∀ (s : State) (seat : Nat), (s.seat seat).occ = none → (s.seat seat).stopped = false → s.pairLoading seat = false →
    let core := coreOf seat
    (∃ e ∈ (s.core core).runq, s.mayTake seat e.uid = true) →
    ∃ (e : RunEntry) (s' : State) (t t' : Thread), e ∈ (s.core core).runq ∧ s.mayTake seat e.uid = true ∧ s.thread? e.uid = some t ∧
      (∀ m ∈ (s.core core).runq, s.mayTake seat m.uid = true →
        s.entryPrio core e < s.entryPrio core m ∨ (s.entryPrio core e = s.entryPrio core m ∧ e.since ≤ m.since)) ∧
      exec (.seatTake seat) s = .next s' ∧ s'.mem = s.mem ∧ (s'.seat seat).occ = some e.uid ∧ (∀ m ∈ (s'.core core).runq, m.uid ≠ e.uid) ∧
      s'.thread? e.uid = some t' ∧ t'.regs = t.regs ∧ t'.loc = .seat seat ∧ t'.started = true) ∧
  (∀ (s : State) (id : Nat) (g : Mig) (t : Thread), s.mig? id = some g → g.stage ≠ .lost → g.stage ≠ .waiting → g.stage ≠ .queued → (∀ x z, g.kind ≠ .setpos x z) →
    s.thread? g.uid = some t → t.owed = [] →
    (64 ≤ s.coreLoad g.dst →
      let nacked (x : State) : State := (x.setMig id { g with stage := .nacked (s.cycle + 128) }).addWork 128 (.runQueueArrival id)
      (∀ n, t.loc = .transit n → exec (.runQueueArrival id) s = .next (nacked (s.countEv n 7 1))) ∧
      ((∀ n, t.loc ≠ .transit n) → exec (.runQueueArrival id) s = .next (nacked s))) ∧
    (s.coreLoad g.dst < 64 → g.kind ≠ .merge → ∃ (s' : State) (t' : Thread), exec (.runQueueArrival id) s = .next s' ∧ s'.mig? id = none ∧
      s'.thread? g.uid = some t' ∧ t'.loc = .runQueue g.dst ∧ (g.kind ≠ .migr → t'.regs = t.regs) ∧ ∃ e ∈ (s'.core g.dst).runq, e.uid = g.uid)) ∧
  (∀ (s : State) (id : Nat) (r : Req), s.req? id = some r → r.stage = .answered →
    (∀ d p rd w nc, r.answer = some (.data d p rd w nc) → ∃ s' : State, exec (.instructionFetchFill id) s = .next s' ∧
      (r.aged = 0 → p.getLsbD (r.off % 64 / 8) = false → s'.mem = s.mem) ∧
      (r.aged = 0 → ∀ k, k < 16 → p.getLsbD (k / 2) = false →
        s'.icacheWord (coreOf r.seat) r.asid (r.addr / 64 * 64 + 4 * k) = some (d.extractLsb' (32 * k) 32)) ∧
      ((s.seat r.seat).off = some (.fetch id) → (s'.seat r.seat).off = none)) ∧
    (∀ c b, r.answer = some (.fault c b) → (s.seat r.seat).off = some (.fetch id) → ∃ s' : State,
      exec (.instructionFetchFill id) s = .next s' ∧ (s'.seat r.seat).off = none ∧ (s'.seat r.seat).due = some ⟨c, b, BitVec.ofNat 64 r.off⟩))

/-- R37, R38, R20, R51 to R55, R18, R21, R165, R166, R460: a bank serves the access that arrived earliest; the interface of a cluster checks a mesh request
against its block owner, and its bank performs it or lets it wait; the wait table's attempts and limits; a bridge, which refuses a packet without a route or
of a function that has not accepted FABRIC.
Bank timing, the attempts of the wait table and the bridge are the model's choices (log entries 18, 21, 22, 25). -/
def Obligations.ClusterStepResults : Prop :=
  (∀ (s : State) (bank : Nat), (s.bank bank).free ≤ s.cycle → (∃ v ∈ (s.bank bank).waiting, v.arrival ≤ s.cycle) →
    ∃ w ∈ (s.bank bank).waiting, w.arrival ≤ s.cycle ∧
      (∀ v ∈ (s.bank bank).waiting, v.arrival ≤ s.cycle →
        w.arrival < v.arrival ∨ (w.arrival = v.arrival ∧ w.user.requester ≤ v.user.requester)) ∧
      exec (.bankService bank) s = .next
        (((s.setBank bank { waiting := listErase (fun v => v == w) (s.bank bank).waiting, free := s.cycle + 1 }).shield (bank / 512) w).serveAccess
          (bank / 512) w)) ∧
  (∀ (s : State) (cl a tr n : Nat) (p : BankPart) (op : LocalOp), (s.seat n).localOp = some op →
    (∀ k u pl ps, op.kind ≠ .save k u pl ps) → (∀ k pl u ps go clearing, op.kind ≠ .restore k pl u ps go clearing) →
    let late (o : LocalOp) : LocalOp := { o with done := max o.done (s.cycle + tr + 1) }
    let served (s' : State) (o : LocalOp) : Prop := s.serveAccess cl ⟨a, .seat n, tr, p⟩ =
      if o.remaining = 0 then s'.finishLocal n o else s'.modSeat n fun x => { x with localOp := some o }
    let q := s.performPart op.kind.logged n cl p.off p.op
    (op.kind = .vstore → op.poison.isSome = true → served s (late { op with remaining := op.remaining - 1 })) ∧
    (op.kind ≠ .vstore ∨ op.poison = none →
      served q.1 (late { op.take p q.2 with undo := (if q.2 = .poisoned then [] else op.replaces s cl p) ++ op.undo }))) ∧
  (∀ (s : State) (id : Nat) (r : Req), s.req? id = some r → r.stage = .going →
    let cl := r.addr / 2 ^ 51 % 32
    let off := r.addr % 2 ^ 24
    let o := (s.cluster cl).owner (off / 65536)
    let i := Instr.meshRequestAccept id
    let reads := r.op = .ldr ∨ ∃ k u m, r.op = .eng k u false m
    (o.v = false ∨ o.owner ≠ r.asid → exec i s = .next (s.answer id (.fault 0x06 0x04))) ∧
    (o.v = true → o.owner = r.asid → o.w = false → ¬ reads → exec i s = .next (s.answer id (.fault 0x06 0x05))) ∧
    (o.v = true → o.owner = r.asid → (o.w = true ∨ reads) → ∃ s' : State, exec i s = .next s' ∧ s'.mem = s.mem ∧
      s'.req? id = some { r with stage := .waiting } ∧ ⟨s.cycle, .mesh id, 0, ⟨off, .read, 0⟩⟩ ∈ (s'.bank (bankOf cl off)).waiting)) ∧
  (∀ (s : State) (id a tr : Nat) (p : BankPart) (r : Req), s.req? id = some r → r.stage = .waiting →
    let cl := r.addr / 2 ^ 51 % 32
    let off := r.addr % 2 ^ 24
    let data := r.data.extractLsb' 0 64
    let served (s' : State) : Prop := s.serveAccess cl ⟨a, .mesh id, tr, p⟩ = s'
    (r.op = .ldr → served (s.answer id (if s.localPoisoned cl off then .fault 0x10 0x01 else .word (s.localWord cl off)))) ∧
    (r.op = .str → served ((s.localWrite cl off 255 data).answer id (.ack true false))) ∧
    (r.op = .ldre ∨ r.op = .strf → s.localPoisoned cl off = true → served (s.answer id (.fault 0x10 0x01))) ∧
    (s.localPoisoned cl off = false →
      (r.op = .ldre → s.localFull cl off = true → served ((s.setFull cl off false).answer id (.word (s.localWord cl off)))) ∧
      (r.op = .strf → s.localFull cl off = false →
        served (((s.localWrite cl off 255 data).setFull cl off true).answer id (.ack true false))) ∧
      ((r.op = .ldre ∧ s.localFull cl off = false) ∨ (r.op = .strf ∧ s.localFull cl off = true) →
        (256 ≤ (s.cluster cl).waits.length → served (s.nack id)) ∧
        ((s.cluster cl).waits.length < 256 → served (((s.modCluster cl fun c =>
          { c with waits := c.waits ++ [⟨id, off, s.cycle, r.budget - r.off⟩] }).holdReq id).addWork 1024 (.waitBudgetBoundary cl id)))))) ∧
  (∀ (s : State) (cl off : Nat) (e : WaitEntry), (s.cluster cl).waits.find? (fun e => e.off == off / 8 * 8) = some e →
    (s.atBank (fun u => u == .attempt e.req) = true → exec (.waitTableAttempt cl off) s = .next s) ∧
    (s.atBank (fun u => u == .attempt e.req) = false → ∃ s' : State, exec (.waitTableAttempt cl off) s = .next s' ∧ s'.mem = s.mem ∧
      ⟨s.cycle + 1, .attempt e.req, 0, ⟨off / 8 * 8, .read, 0⟩⟩ ∈ (s'.bank (bankOf cl (off / 8 * 8))).waiting)) ∧
  (∀ (s : State) (cl id at' tr : Nat) (p : BankPart) (e : WaitEntry) (r : Req), (s.cluster cl).waits.find? (fun e => e.req == id) = some e →
    s.req? id = some r → r.addr / 2 ^ 51 % 32 = cl → s.localPoisoned cl (r.addr % 2 ^ 24) = false →
    let a := r.addr % 2 ^ 24
    let out := s.modCluster cl fun c => { c with waits := listErase (fun x => x.req == id) c.waits }
    (r.op = .ldre → s.serveAccess cl ⟨at', .attempt id, tr, p⟩ =
      if s.localFull cl a then (out.setFull cl a false).answer id (.word (s.localWord cl a)) else s) ∧
    (r.op = .strf → s.serveAccess cl ⟨at', .attempt id, tr, p⟩ = if s.localFull cl a then s else
      ((out.localWrite cl a 255 (r.data.extractLsb' 0 64)).setFull cl a true).answer id (.ack true false))) ∧
  (∀ (s : State) (cl id : Nat) (e : WaitEntry), (s.cluster cl).waits.find? (fun e => e.req == id) = some e → e.made + 1024 ≤ s.cycle →
    (e.budget = 0 → exec (.waitBudgetBoundary cl id) s =
      .next ((s.modCluster cl fun c => { c with waits := listErase (fun x => x.req == id) c.waits }).answer id .limit)) ∧
    (e.budget ≠ 0 → ∃ s' : State, exec (.waitBudgetBoundary cl id) s = .next s' ∧ s'.mem = s.mem ∧ s'.net = s.net ∧
      (s'.cluster cl).waits.find? (fun e => e.req == id) = some { e with made := e.made + 1024, budget := e.budget - 1 } ∧
      ⟨s.cycle + 1024, .waitBudgetBoundary cl id⟩ ∈ s'.work)) ∧
  (∀ (s : State) (id : Nat) (r : Req) (u : Nat), s.req? id = some r → r.stage = .answered → r.uid = some u →
    let s1 := (s.dropReq id).countEv r.seat 14 1
    (r.op = .ldre → exec (.limitReply id) s = .next (s1.deliver id u (.poison (poisonMesh 0x08 0x02 r.addr)))) ∧
    (r.op = .strf → exec (.limitReply id) s = .next ((s1.deferFault u (poisonMesh 0x08 0x03 r.addr)).deliver id u .nothing))) ∧
  (∀ (s : State) (id : Nat) (r : Req), s.req? id = some r → r.stage = .going →
    let k := s.pick 24
    let open' : Prop := (FMap.find? s.net.routes (256 * (k.1 % 12) + r.addr / 2 ^ 56 % 256)).isSome = true ∧
      ∃ f, FMap.find? s.fw.features (s.fnOf r.asid) = some f ∧ f.getLsbD 3 = true
    (¬ open' → exec (.bridgePacket id) s = .next (k.2.answer id (.fault 0x06 0x03))) ∧
    (open' → k.1 / 12 = 1 → exec (.bridgePacket id) s = .next (k.2.nack id)) ∧
    (open' → k.1 / 12 ≠ 1 → exec (.bridgePacket id) s = .next (k.2.setReq id { r with stage := .waiting })))

/-! ## Steps of the memory-edge stations and near caches -/

/-- R63 to R66, R59, R132, R133, R65, R71, R72: a request at its home station: a cached leaf is checked, a miss is walked, a replayable fault held and walked
again; host accesses; the revocation of a reservation; WAITRS; tier moves; invalidations and probes.
Delays, the replay, the records of a large page and the leaf of a write-back are the model's choices (log entries 1, 56, 67, 72 to 74, 84, 85). -/
def Obligations.StationStepResults : Prop :=
  (∀ (s : State) (id : Nat) (r : Req), s.req? id = some r → r.stage = .going →
    let st := r.home
    (s.pieceQueue r = true → exec (.stationRequest id) s = .next (s.holdForPiece id r)) ∧
    (s.pieceQueue r = false →
      (∀ e, (s.station st).cached r.asid r.addr = some e →
        exec (.stationRequest id) s = .next (s.afterCheck id r st (s.check64 r.asid r.addr (.leaf e.level e.entry) false r.op.needs.1 r.op.needs.2))) ∧
      ((s.station st).cached r.asid r.addr = none → 512 ≤ (s.station st).misses.length → exec (.stationRequest id) s = .next (s.nack id)) ∧
      ((s.station st).cached r.asid r.addr = none → (s.station st).misses.length < 512 → exec (.stationRequest id) s =
        .next (((s.setReq id { r with stage := .waiting }).modStation st fun x => { x with misses := x.misses ++ [id] }).addWork 1 (.tableWalk id))))) ∧
  (∀ (s : State) (id : Nat) (r : Req) (level : Nat) (e : Word), s.req? id = some r → (s.station r.home).misses = [id] → s.walk r.asid r.addr = .leaf level e →
    ∃ s1 : State, exec (.tableWalk id) s = .next (s1.afterCheck id { r with stage := .going } r.home
        (s1.check64 r.asid r.addr (.leaf level e) false r.op.needs.1 r.op.needs.2)) ∧
      s1.mem = s.mem ∧ s1.fab = s.fab ∧ s1.req? id = some { r with stage := .going } ∧ (s1.station r.home).misses = [] ∧
      (⟨r.asid, level, r.addr / 2 ^ levelShift level, e⟩ : TEntry) ∈ (s1.station r.home).tcache) ∧
  (∀ (s : State) (id : Nat) (r : Req) (st : Nat), s.req? id = some r →
    (∀ b, s.afterCheck id r st (.fault b) = s.answer id (.fault 0x06 b)) ∧
    (∀ pa rd wr nc, s.afterCheck id r st (.ok pa rd wr nc false) = s.performHome id r st pa rd wr nc) ∧
    (∀ pa rd wr nc, s.afterCheck id r st (.ok pa rd wr nc true) =
      ((s.setReq id { r with stage := .waiting }).modStation st fun x => { x with hostWait := x.hostWait ++ [id] }).addWork 1 (.hostAccessCompletion id)) ∧
    (s.afterCheck id r st .held = s.holdForPiece id r) ∧
    ((s.station st).holds.length < 1024 → (s.station (homeStation r.addr)).recorded.contains (r.asid, s.absentPage r.asid r.addr) = true →
      ((∀ n, r.op ≠ .descr n .start) → s.afterCheck id r st .replay =
        (s.modStation st fun x => { x with holds := x.holds ++ [⟨id, r.asid, (s.absentPage r.asid r.addr).1⟩] }).holdReq id) ∧
      (∀ n, r.op = .descr n .start → s.afterCheck id r st .replay = s.answer id .absent))) ∧
  (∀ (s : State) (st va : Nat) (asid : BitVec 16) (mine : List Hold),
    mine = (s.station st).holds.filter (fun h => h.asid == asid && h.page == va / 2 ^ 16) → ∃ kept : State,
      exec (.heldReplay st asid va) s = .next (mine.foldl (fun x h => x.replay h.req st) kept) ∧ kept.mem = s.mem ∧ kept.fab = s.fab ∧
      ∀ h, h ∈ (kept.station st).holds ↔ h ∈ (s.station st).holds ∧ ¬ (h.asid = asid ∧ h.page = va / 2 ^ 16)) ∧
  (∀ (s : State) (id st : Nat) (r : Req), s.req? id = some r →
    (s.pieceQueue r = true → s.replay id st = s.holdForPiece id r) ∧
    (s.pieceQueue r = false → ∃ s1 : State, s1.mem = s.mem ∧ s1.fab = s.fab ∧ s1.req? id = some { r with stage := .going } ∧
      s.replay id st = s1.afterCheck id { r with stage := .going } st (s1.check64 r.asid r.addr (s.walk r.asid r.addr) false r.op.needs.1 r.op.needs.2) ∧
      ∀ level e, s.walk r.asid r.addr = .leaf level e → (⟨r.asid, level, r.addr / 2 ^ levelShift level, e⟩ : TEntry) ∈ (s1.station st).tcache)) ∧
  (∀ (s : State) (id : Nat) (r : Req) (pa : Nat) (rd wr nc h : Bool), s.req? id = some r → (s.station r.home).hostWait.contains id = true →
    (s.modStation r.home fun x => { x with hostWait := listErase (fun j => j == id) x.hostWait }).access r.asid r.addr false r.op.needs.1 r.op.needs.2 =
      .ok pa rd wr nc h →
    exec (.hostAccessCompletion id) s =
      .next ((s.modStation r.home fun x => { x with hostWait := listErase (fun j => j == id) x.hostWait }).performHome id r r.home pa rd wr nc)) ∧
  (∀ (s : State) (st pa : Nat) (w : RsvWord) (k : HolderKey) (t : Nat), (s.station st).rsvAt pa = some w → w.holder = some (k, t) →
    (s.cycle < t + s.fw.rsvtime →
      exec (.rsvtimeRevocation st pa) s = .next (s.addWork (t + s.fw.rsvtime - s.cycle) (.rsvtimeRevocation st pa))) ∧
    (t + s.fw.rsvtime ≤ s.cycle → exec (.rsvtimeRevocation st pa) s = .next (s.endReservation st pa))) ∧
  (∀ (s : State) (id slot u : Nat) (r : Req), s.req? id = some r → r.uid = some u →
    (s.reporting id slot = true → (∀ w ∈ s.work, ∀ k, w.ev = .waitrsReport id k → w.due ≤ s.cycle → s.reporting id k = true → slot ≤ k) →
      exec (.waitrsReport id slot) s = .next (s.endWaitrs id u (.word (BitVec.ofNat 64 slot)))) ∧
    (s.reporting id slot = false → exec (.waitrsReport id slot) s = .next s) ∧
    (r.issued + (r.budget + 1) * 1024 ≤ s.cycle → exec (.waitrsLimit id) s = .next (s.endWaitrs id u (.word (BitVec.allOnes 64))))) ∧
  (∀ (s : State) (n : Nat) (m : Move), s.fw.moves = [m] → m.fn * 8 + m.q = n → m.waiting = [] → m.current < 16 →
    let old := physOf 3 m.oldEntry m.va / 2 ^ 16 * 2 ^ 16 + m.current * 4096
    let new := physOf 3 m.newEntry m.va / 2 ^ 16 * 2 ^ 16 + m.current * 4096
    let st := homeStation m.va
    (m.copying = false → (s.station st).rsvIn old 4096 = true → ∃ s' : State, exec (.tierPieceCopy n) s = .next s' ∧ s'.mem = s.mem ∧
      s'.fw.moves = [m] ∧ ⟨s.cycle + 8, .tierPieceCopy n⟩ ∈ s'.work) ∧
    (m.copying = false → (s.station st).rsvIn old 4096 = false → ∃ s' : State, exec (.tierPieceCopy n) s = .next s' ∧ s'.mem = s.mem ∧ s'.net = s.net ∧
      s'.fw.moves = [{ m with copying := true }]) ∧
    (m.copying = true → ∃ (s' : State) (c : Bool), exec (.tierPieceCopy n) s = .next s' ∧ s'.mem = copyWords old new 512 s.mem ∧ s'.fab = s.fab ∧
      s'.fw.moves = [{ m with copying := c, current := m.current + 1 }] ∧
      (m.current = 15 → c = false ∧ ⟨s.cycle + 1, .pageMove m.fn m.q⟩ ∈ s'.work))) ∧
  (∀ (s : State) (st va size : Nat) (asid : BitVec 16), ∃ s' : State, exec (.translationInvalidate st asid va size) s = .next s' ∧ s'.mem = s.mem ∧ s'.fab = s.fab ∧
    ∀ e, e ∈ (s'.station st).tcache ↔ e ∈ (s.station st).tcache ∧
      ¬ (e.asid = asid ∧ va < (e.page + 1) * 2 ^ levelShift e.level ∧ e.page * 2 ^ levelShift e.level < va + size)) ∧
  (∀ (s : State) (cl va size : Nat) (asid : BitVec 16), (∀ l ∈ (s.cluster cl).ncache, l.va % 64 = 0) →
    ∃ s' : State, exec (.nearCacheProbe cl asid va size) s = .next s' ∧ s'.mem = s.mem ∧
      (∀ l, l ∈ (s'.cluster cl).ncache ↔ l ∈ (s.cluster cl).ncache ∧ ¬ (l.asid = asid ∧ va < l.va + 64 ∧ l.va < va + size)))

/-- R58, R127 to R132, R471, R69: what a request that has passed its checks does at its home slice, to the byte: a load reads the granule; a store writes the
bytes of its mask; an atomic, a reduction and an SC write their word; an LR of a thread that holds and awaits no reservation reserves its word for RSVTIME
cycles and reads it, or queues for it. A write to a word that another thread holds
reserved waits in the word's queue. A CAS whose compare fails is the model's write of the word's own value (log entry 103), and a write to a reserved word is
another thread's by the model's reading (115). -/
def Obligations.HomeSliceResults : Prop :=
  ∀ (s : State) (id : Nat) (r : Req) (st pa : Nat) (rd wr nc : Bool), s.req? id = some r →
    let done := s.performHome id r st pa rd wr nc
    let m := s.phys64 pa
    let ack (x : State) : State := x.answer id (.ack wr nc)
    (r.op = .load ∨ r.op = .ifetch → done = s.answer id (.data (s.physLine pa) (s.physPoisonBits pa) rd wr nc)) ∧
    (s.rsvBlock st r pa = none →
      (r.op = .store ∨ r.op = .stgm → done = ack (s.physWrite pa r.mask r.data)) ∧
      (∀ f b e, r.op = .atom f b e → s.physPoisoned pa = false →
        (f = 0 → done = (s.physWrite64 pa (m + b)).answer id (.word m)) ∧ (f = 1 → done = (s.physWrite64 pa b).answer id (.word m)) ∧
        (f = 2 → done = (s.physWrite64 pa (if m = e then b else m)).answer id (.word m)) ∧
        (f = 5 → done = (s.physWrite64 pa (if m.toInt < b.toInt then b else m)).answer id (.word m))) ∧
      (∀ f b x, r.op = .red f b x → s.physPoisoned pa = false →
        (f = 0 → done = ack (s.physWrite64 pa (m + b))) ∧
        (f = 1 → ∃ w : Word, done = ack (s.physWrite64 pa w) ∧ w.extractLsb' 32 32 = m.extractLsb' 32 32 ∧
          w.extractLsb' 0 32 = BitVec.ofNat 32 (fF32.sum .rne (fF32.decode (m.toNat % 2 ^ 32)) (fF32.decode (b.toNat % 2 ^ 32))).bits) ∧
        (f = 2 → done = ack (s.physWrite64 pa (BitVec.ofNat 64 (fF64.sum .rne (fF64.decode m.toNat) (fF64.decode b.toNat)).bits))) ∧ (f = 3 → done = ack (s.physWrite64 pa (if b.toInt < m.toInt then b else m))) ∧
        (f = 4 → done = ack (s.physWrite64 pa (if m.toInt < b.toInt then b else m))) ∧ (f = 5 → done = ack (s.physWrite64 pa (m &&& b))) ∧
        (f = 6 → done = ack (s.physWrite64 pa (m ||| b))) ∧ (f = 7 → done = ack (s.physWrite64 pa (m ^^^ b)))) ∧
      ((∃ f b e, r.op = .atom f b e) ∨ (∃ f b x, r.op = .red f b x) → s.physPoisoned pa = true → done = s.answer id (.fault 0x10 0x03))) ∧
    (r.op = .lr → s.releaseHolder r.key = s →
      let word := pa / 8 * 8
      (1024 ≤ (s.station st).rsvEntries → done = s.nack id) ∧
      ((s.station st).rsvEntries < 1024 →
        (∀ w, (s.station st).rsvAt word = some w → done = (s.putRsv st { w with queue := w.queue ++ [id] }).holdReq id) ∧
        ((s.station st).rsvAt word = none → s.physPoisoned word = true → done = s.answer id (.fault 0x10 0x03)) ∧
        ((s.station st).rsvAt word = none → s.physPoisoned word = false →
          done = ((s.putRsv st ⟨word, some (r.key, s.cycle), []⟩).answer id (.word (s.phys64 word))).addWork s.fw.rsvtime (.rsvtimeRevocation st word)))) ∧
    (∀ b, r.op = .sc b →
      ((∀ w, (s.station st).rsvAt pa = some w → w.holder.map (·.1) ≠ some r.key) → done = s.answer id (.word 1)) ∧
      (∀ w, (s.station st).rsvAt pa = some w → w.holder.map (·.1) = some r.key →
        done = ((s.physWrite64 pa b).answer id (.word 0)).endReservation st pa)) ∧
    (∀ w, s.rsvBlock st r pa = some w → (s.station st).rsvEntries < 1024 → r.op = .store ∨ r.op = .stgm ∨ (∃ f b e, r.op = .atom f b e) ∨ (∃ f b x, r.op = .red f b x) →
      done = ((s.setReq id { r with flags := (wr, nc) }).putRsv st { w with queue := w.queue ++ [id] }).holdReq id)

/-! ## Answers, losses and combining points -/

/-- R196, R197, R109, R112, R75, R78, R140 to R142, R152 to R154, R63, R53, R470, R134 to R138: an answer fills its destination or is a fault that is deferred, and
is then no longer owed; notices and timers; what is sent again; losses; and the combining points, which merge requests, send one for all and
split the reply by the sums before each.
DETAIL of a late record is free, and the timers, losses, fills, the point in a machine-check record and what a damaged record silences follow the
model's readings (log entries 5, 15, 16, 56, 66, 80 to 82, 86, 104). -/
def Obligations.AnswerStepResults : Prop :=
  (∀ (s : State) (id u : Nat) (t : Thread) (o : Owed) (v : Fill), s.fab.doublets = [] → s.thread? u = some t → t.owed.find? (fun o => o.req == id) = some o →
    t.loc ≠ .gone →
    let rest := { t with owed := listErase (fun o => o.req == id) t.owed }
    s.deliver id u v = s.setThread u (if o.stale then rest else rest.fill o.dest v)) ∧
  (∀ (s : State) (id u : Nat) (r : Req), s.req? id = some r → r.stage = .answered → r.uid = some u →
    let s1 := s.dropReq id
    ((∀ p k e, r.op ≠ .watch p k e) →
      (∀ w, r.answer = some (.word w) → exec (.registerFill id) s = .next ((s1.afterAtomic r).deliver id u (.word w))) ∧
      (∀ d p rd w nc, r.answer = some (.data d p rd w nc) → exec (.registerFill id) s = .next (s1.deliver id u (r.dataFill d p))) ∧
      (∀ c b, r.answer = some (.fault c b) → exec (.registerFill id) s = .next (s1.deliver id u (.poison (r.record c b))))) ∧
    (∀ d p rd w nc, r.answer = some (.data d p rd w nc) →
      exec (.nearCacheFill id) s =
        .next ((s1.lineArrives r d p w nc).1.deliver id u (r.dataFill (s1.lineArrives r d p w nc).2.1 (s1.lineArrives r d p w nc).2.2)) ∧
      (s.ncFind (clusterOf (coreOf r.seat)) r.asid r.addr = none →
        exec (.nearCacheFill id) s = .next ((s1.ncFill (clusterOf (coreOf r.seat)) r.asid r.addr d p w nc r.aged).deliver id u (r.dataFill d p)))) ∧
    (∀ w nc, r.answer = some (.ack w nc) → r.op = .store → r.anchored = false →
      exec (.acknowledgement id) s = .next ((s1.deliver id u .nothing).storeAnswered r.seat id)) ∧
    (∀ c b, r.answer = some (.fault c b) → r.op.storeLike = true →
      exec (.acknowledgement id) s = .next (((s1.deferFault u (r.record c b)).deliver id u .nothing).storeAnswered r.seat id)) ∧
    (∀ fs t, r.op = .descr fs .start → r.anchored = false → s.thread? u = some t → vget t.fsCopy fs .invalid = .pending →
      vget t.sys.fs fs 0 = BitVec.ofNat 64 r.addr → ∀ d p rd w nc, r.answer = some (.data d p rd w nc) →
        exec (.descriptorArrival id) s = .next (s1.modThread u fun t =>
          { t with fsCopy := vset t.fsCopy fs (if p.getLsbD 0 then .pending else .word (lineWord d 0)) })) ∧
    (∀ fs t, r.op = .descr fs .mfmt → r.anchored = false → (s.seat r.seat).off = some (.descriptor id) → s.thread? u = some t →
      ∀ d rd w nc, r.answer = some (.data d 0 rd w nc) → (descrFmt (lineWord d 0)).toNat ≤ 10 →
        exec (.descriptorArrival id) s = .next (retire ((s1.modSeat r.seat fun x => { x with off := none }).modThread u fun t =>
          t.setFs fs (BitVec.ofNat 64 r.addr) (lineWord d 0)) r.seat u))) ∧
  (∀ (s : State) (id : Nat) (m : Msg) (u : Nat), s.req? id = none → s.msg? id = some m → m.stage = .answered → m.uid = some u →
    (∀ w nc, m.answer = some (.ack w nc) → exec (.acknowledgement id) s = .next ((s.closeMsg id).deliver id u .nothing)) ∧
    (∀ c b, m.answer = some (.fault c b) →
      exec (.acknowledgement id) s = .next (((s.closeMsg id).deferFault u (m.record c b)).deliver id u .nothing))) ∧
  (∀ (s : State) (id : Nat) (r : Req), s.req? id = some r →
    ((∀ p k e, r.op ≠ .watch p k e) → exec (.heldNotice id) s = .next (s.setReq id { r with deadline := none })) ∧
    (∀ parent slot e, r.op = .watch parent slot e →
      exec (.heldNotice id) s = .next ((s.setReq id { r with deadline := none }).slotAnswered parent slot)) ∧
    (∃ s1 : State, exec (.combinedNotice id) s = .next s1 ∧ s1.mem = s.mem ∧
      s1.req? id = some { r with deadline := some (s.cycle + 131072) }) ∧
    (∀ c, r.stage = .nacked c → c ≤ s.cycle →
      (r.op ≠ .ldre → r.op ≠ .strf → exec (.nackResend id) s = .next (s.resend id)) ∧
      (r.op = .ldre ∨ r.op = .strf → (s.cycle - r.issued) / 1024 ≤ r.budget →
        exec (.nackResend id) s = .next ((s.setReq id { r with off := (s.cycle - r.issued) / 1024 }).resend id)) ∧
      (r.op = .ldre ∨ r.op = .strf → r.budget < (s.cycle - r.issued) / 1024 → exec (.nackResend id) s = .next (s.limitReached id r))) ∧
    (∀ c, r.stage = .nacked c → s.cycle < c → exec (.nackResend id) s = .next (s.addWork (c - s.cycle) (.nackResend id))) ∧
    (r.stage = .going ∨ r.stage = .answered ∨ (∃ c, r.stage = .nacked c) → exec (.flitLoss id) s = .next (s.setReq id { r with stage := .lost })) ∧
    (r.stage = .waiting → exec (.flitLoss id) s =
      .next { s with work := s.work.filter fun w => w.ev != .heldNotice id && w.ev != .combinedNotice id }) ∧
    (∀ c u, r.deadline = some c → c ≤ s.cycle → r.uid = some u → r.stage = .silent → (∃ b, r.op = .atom 0 b 0) →
      exec (.vallost id) s = .next ((s.orphan id r).deliver id u (.poison (poisonRec 0x09 0x01 r.addr)))) ∧
    (∀ c u, r.deadline = some c → c ≤ s.cycle → r.uid = some u → r.stage ≠ .silent →
      let cause : BitVec 8 := if s.behindDamage (s.net.combs.length + 1) id then 0x09 else 0x0A
      (r.op = .load → exec (.noreply id) s = .next ((s.orphan id r).deliver id u (.poison (poisonRec cause 0x01 r.addr)))) ∧
      (r.op = .store → exec (.noreply id) s = .next (((s.orphan id r).deferFault u (poisonRec cause 0x02 r.addr)).deliver id u .nothing)) ∧
      (∀ cl, r.op = .writeBack cl →
        let rest := if r.stage = .lost then s.dropReq id else s.setReq id { r with op := .lateBack cl, uid := none, deadline := none }
        exec (.writeBackLoss id) s = .next (((rest.writeBackFault cl r 0x0A 0x02).writeBackOver id cl r).deliver id u .nothing)))) ∧
  (∀ (s : State) (id : Nat) (r : Req), s.req? id = some r → r.stage = .going → r.combinable = true → s.earlierMerge r = false →
    let cl := clusterOf (coreOf r.seat)
    let pending := s.net.combs.filter fun p => p.2.cluster == some cl && p.2.sent.isNone
    (pending.find? (fun p => p.2.isFor r) = none → pending.length < 64 → r.uid ≠ none → ∃ s1 : State, exec (.combinerMerge id) s = .next s1 ∧
      s1.req? id = some { r with stage := .waiting, comb := some s.net.nextId } ∧
      FMap.find? s1.net.combs s.net.nextId = some ⟨some cl, 0, r.asid, r.addr, r.isRed, r.minor, r.addend, id, [], s.cycle, none, none⟩ ∧
      ⟨s.cycle + 16, .combinerSend s.net.nextId⟩ ∈ s1.work) ∧
    (pending.find? (fun p => p.2.isFor r) = none → 64 ≤ pending.length → exec (.combinerMerge id) s = .next (s.addWork 0 (.stationRequest id))) ∧
    (∀ n e, pending.find? (fun p => p.2.isFor r) = some (n, e) → e.recs.length < 6 →
      exec (.combinerMerge id) s = .next (((s.setComb n { e with recs := e.recs ++ [⟨id, e.sum, false⟩], sum := combineWords e.isRed e.f e.sum r.addend }).waitAt
        n id r).addWork 1 (.combinedNotice id)))) ∧
  (∀ (s : State) (entry : Nat) (e : CombEntry) (a : Req), FMap.find? s.net.combs entry = some e → s.req? e.first = some a → e.sent = none →
    e.opened + 16 ≤ s.cycle →
    (e.recs = [] → exec (.combinerSend entry) s =
      .next (((s.dropComb entry).setReq e.first { a with comb := none, stage := .going }).addWork 0 (.stationRequest e.first))) ∧
    (e.recs ≠ [] → exec (.combinerSend entry) s = .next (s.sendCombined entry e a))) ∧
  (∀ (s : State) (ida idb router : Nat) (a b : Req), s.req? ida = some a → s.req? idb = some b → ida ≠ idb → a.stage = .going → b.stage = .going →
    s.atEgress ida = false → s.atEgress idb = false → a.combinable = true → b.combinable = true → a.asid = b.asid → a.addr = b.addr → a.isRed = b.isRed → a.minor = b.minor → s.routerRecords router < 32 →
    ∃ s1 : State, exec (.routerCombine ida idb router) s = .next s1 ∧ s1.mem = s.mem ∧ s1.fab = s.fab ∧ ∃ e, FMap.find? s1.net.combs s.net.nextId = some e ∧
      e.first = ida ∧ e.recs = [⟨idb, a.addend, false⟩] ∧ e.sum = combineWords a.isRed a.minor a.addend b.addend ∧ e.sent ≠ none) ∧
  (∀ (s : State) (entry j : Nat) (e : CombEntry) (f : Req) (a : Answer), FMap.find? s.net.combs entry = some e → e.sent = some j → s.req? j = some f →
    f.stage = .answered → f.answer = some a →
    let s1 := ((s.dropComb entry).dropReq j).passAnswer entry e.first a
    ((∀ h ∈ e.recs, h.damaged = false) → exec (.replySplit entry) s = .next (e.recs.foldl
      (fun s h => s.passAnswer entry h.req (match a with | .word v => .word (if e.isRed then v else v + h.before) | x => x)) s1)) ∧
    (∀ h q, e.recs = [h] → h.damaged = true → s1.req? h.req = some q → q.uid.isSome = true → exec (.replySplit entry) s =
      .next ((s1.setReq h.req { q with stage := .silent }).addWork (q.deadline.getD s1.cycle - s1.cycle) (.vallost h.req)))) ∧
  (∀ (s : State) (entry j : Nat) (e : CombEntry) (f : Req) (c : Nat), FMap.find? s.net.combs entry = some e → e.sent = some j → s.req? j = some f →
    f.deadline = some c → c ≤ s.cycle → (∀ h ∈ e.recs, h.damaged = false) → s.behindDamage (s.net.combs.length + 1) j = false →
    exec (.combiningPointTimeout entry) s = .next (e.recs.foldl (fun s h => s.timeOut entry h.req)
      (((s.dropComb entry).setReq j { f with comb := none, deadline := none }).timeOut entry e.first))) ∧
  (∀ (s : State) (entry j : Nat) (e : CombEntry) (f : Req) (c : Nat), FMap.find? s.net.combs entry = some e → e.sent = some j → s.req? j = some f →
    f.deadline = some c → c ≤ s.cycle → (∃ h ∈ e.recs, h.damaged = true) →
    let m := s.machineCheck (2 ^ 63 + (match e.cluster with | some c => 4096 + c | none => 8192 + e.router)) e.va e.asid
    let told (x : State) (h : HoistRec) : State :=
      if m.behindDamage (m.net.combs.length + 1) j = true ∨ h.damaged = true then silence (x.net.combs.length + 1) x h.req else x.timeOut entry h.req
    exec (.combiningPointTimeout entry) s =
      .next (e.recs.foldl told (told ((m.dropComb entry).setReq j { f with comb := none, deadline := none }) ⟨e.first, 0, false⟩)))

/-! ## Engines and arrivals at a core -/

/-- R143 to R149, R155, R403, R125, R158, R160, R292, R153: an engine takes the oldest shadow; an answered access, or one that its bank has served, moves its
word onward, counts its unit, or fails the operation; it begins its units and elements, starts and joins collectives, pushes stream words, ends
and reports; messages, held messages and port words are written, held or refused.
The order of units and of collectives, arrivals at banks, held messages and dropped packets are the model's choices (log entries 18, 20, 21, 24,
83, 90, 116). -/
def Obligations.EngineAndInboxStepResults : Prop :=
  (∀ (s : State) (eng : Nat) (op : EngOp) (rest : List EngOp), s.completionOut eng = false → eng < 544 → (s.engine eng).active = none →
    (s.engine eng).committed = op :: rest → ∃ s1 : State, exec (.engineShadowTake eng) s = .next s1 ∧ s1.mem = s.mem ∧
      s1.engine eng = ⟨rest, some op⟩ ∧ (s1.seat op.seat).committed.getLsbD (engineCode op.kind) = false ∧
      ⟨s.cycle + 1, .engineAccessReply eng⟩ ∈ s1.work) ∧
  (∀ (s : State) (eng : Nat), s.completionOut eng = true → exec (.engineShadowTake eng) s = .next s) ∧
  (∀ (s : State) (eng : Nat) (op : EngOp), (s.engine eng).active = some op → s.engReqs eng = [] → s.engineAtBank eng = false →
    (op.cancelled = true → exec (.engineCompletion eng) s =
      .next ((s.setEngine eng { s.engine eng with active := none }).sendCompletion eng op 0x01 0 op.doneWord 0)) ∧
    (∀ code b addr, op.cancelled = false → op.status = some (code, b, addr) → exec (.engineCompletion eng) s =
      .next ((s.setEngine eng { s.engine eng with active := none }).sendCompletion eng op code b op.doneWord addr)) ∧
    (op.cancelled = false → op.status = none → op.done = op.units → exec (.engineCompletion eng) s =
      .next ((s.setEngine eng { s.engine eng with active := none }).sendCompletion eng op 0x00 0 op.doneWord 0)) ∧
    (eng < 1024 → op.status ≠ none ∨ op.cancelled = true ∨ op.done = op.units → op.word = none →
      exec (.engineAccessReply eng) s = .next (s.addWork 1 (.engineCompletion eng))) ∧
    (∀ w x, op.word = some w → op.stopped = false → (s.core (streamOf op.fields (coreOf op.seat)).1).queue (streamOf op.fields (coreOf op.seat)).2 = some x →
      let p := streamOf op.fields (coreOf op.seat)
      let go (s : State) : State := (s.setActive eng ({ op with word := none }.finish op.done)).addWork 1 (.engineAccessReply eng)
      (x.kind ≠ .stream ∨ x.asid ≠ op.asid → exec (.streamPush eng) s =
        .next ((s.setActive eng ({ op with word := none }.fail 0x02 0 0)).addWork 1 (.engineAccessReply eng))) ∧
      (x.kind = .stream → x.asid = op.asid → x.words.length < 16 → x.overflow = [] → exec (.streamPush eng) s =
        .next (go (s.modCore p.1 fun c => c.setQueue p.2 (some { x with words := x.words ++ [(w, s.cycle)], feeder := some eng })))) ∧
      (x.kind = .stream → x.asid = op.asid → 16 ≤ x.words.length → s.asidOn p.1 op.asid = true → exec (.streamPush eng) s =
        .next (s.modCore p.1 fun c => c.setQueue p.2 (some { x with feeder := some eng }))))) ∧
  (∀ (s : State) (eng id u : Nat) (op : EngOp) (r : Req) (wr mesh : Bool), eng < 1024 → (s.engine eng).active = some op →
    (s.engReqs eng).find? (fun p => p.2.answer.isSome) = some (id, r) → r.op = .eng eng u wr mesh →
    let s1 := s.dropReq id
    let moves (w : Word) : Prop := ∃ s2 : State, UnitMoves s1 s2 eng op u w ∧ exec (.engineAccessReply eng) s = .next (engineGo s2 eng)
    let fails (code b : BitVec 8) : Prop := exec (.engineAccessReply eng) s = .next (engineGo (s1.setActive eng (op.fail code b r.addr)) eng)
    (∀ w, r.answer = some (.word w) → op.stopped = false → moves w) ∧
    (∀ d p rd w nc, r.answer = some (.data d p rd w nc) → op.stopped = false → s.ncFind (clusterOf (coreOf r.seat)) r.asid r.addr = none →
      (linePoisoned p r.mask = false → moves (BitVec.ofNat 64 (lineBytes d r.addr r.size))) ∧ (linePoisoned p r.mask = true → fails 0x03 0)) ∧
    (∀ a b, r.answer = some (.ack a b) → exec (.engineAccessReply eng) s = .next (engineGo
      ((if mesh then s1 else s1.ncRefresh (clusterOf (coreOf r.seat)) r.asid r.addr r.mask).setActive eng (op.finish u)) eng)) ∧
    (∀ c b, r.answer = some (.fault c b) → (c = 0x10 → fails 0x03 0) ∧ (c = 0x0A → fails 0x04 0) ∧ (c ≠ 0x10 → c ≠ 0x0A → fails 0x02 b))) ∧
  (∀ (s : State) (cl a eng u tr off lane : Nat) (op : EngOp), (s.engine eng).active = some op → clusterOf (coreOf op.seat) = cl →
    (∀ (m : BitVec 8) (d : Word),
      let served := s.serveAccess cl ⟨a, .engine eng u, tr, ⟨off, .write m d, lane⟩⟩
      (s.localPoisoned cl off = false ∨ m = 255 → served = ((s.localWrite cl off m d).setActive eng (op.finish u)).addWork 1 (.engineAccessReply eng)) ∧
      (s.localPoisoned cl off = true → m ≠ 255 → served = (s.setActive eng (op.fail 0x03 0 (op.dst u))).addWork 1 (.engineAccessReply eng))) ∧
    (∀ served, served = s.serveAccess cl ⟨a, .engine eng u, tr, ⟨off, .read, lane⟩⟩ →
      (s.localPoisoned cl off = true → served = (s.setActive eng (op.fail 0x03 0 (op.localSrc u))).addWork 1 (.engineAccessReply eng)) ∧
      (s.localPoisoned cl off = false → op.stopped = false → op.kind = .copy → ∃ s2 : State, UnitMoves s s2 eng op u (s.localWord cl off) ∧
        served = s2.addWork 1 (.engineAccessReply eng)))) ∧
  (∀ (s : State) (eng : Nat) (op : EngOp), eng < 1024 → (s.engine eng).active = some op → s.engReqs eng = [] → s.engineAtBank eng = false → op.word = none →
    op.stopped = false → op.done ≠ op.units → op.lowest < op.units → op.kind ≠ .copy ∨ copyDst (copyOpc op.fields) = .stream →
    exec (.engineAccessReply eng) s = .next ((startUnit s eng op op.lowest).addWork 1 (.engineAccessReply eng)) ∧
    (op.kind ≠ .copy → ∃ x ∈ ((startUnit s eng op op.lowest).bank (bankOf (clusterOf (coreOf op.seat)) (op.segBase + op.localSrc op.lowest))).waiting,
      x.user = .engine eng op.lowest ∧ x.part.off = op.segBase + fieldAt op.fields 2 + 4 * op.lowest ∧ x.part.op = .read)) ∧
  (∀ (s : State) (cid id u : Nat) (c : Collective) (r : Req) (wr mesh : Bool), FMap.find? s.fab.collectives cid = some c →
    (s.engReqs (1024 + cid)).find? (fun p => p.2.answer.isSome) = some (id, r) → r.op = .eng (1024 + cid) u wr mesh →
    let s1 := s.dropReq id
    let i := Instr.engineAccessReply (1024 + cid)
    (∀ d p rd w nc, r.answer = some (.data d p rd w nc) → s.ncFind (clusterOf (coreOf r.seat)) r.asid r.addr = none → linePoisoned p r.mask = false →
      exec i s = .next (collGo (s1.setColl cid { c with got := c.got ++ [(u, BitVec.ofNat 64 (lineBytes d r.addr r.size))] }) cid)) ∧
    (∀ a b, r.answer = some (.ack a b) → exec i s = .next (collGo (s1.ncRefresh (clusterOf (coreOf r.seat)) r.asid r.addr r.mask) cid)) ∧
    (∀ a b, r.answer = some (.fault a b) → c.status = none → a ≠ 0x10 → a ≠ 0x0A →
      exec i s = .next (collGo (s1.setColl cid { c with status := some (0x02, b, BitVec.ofNat 64 r.addr) }) cid))) ∧
  (∀ (s : State) (cid : Nat) (c : Collective), FMap.find? s.fab.collectives cid = some c → s.engReqs (1024 + cid) = [] → c.started = true →
    c.status = none → c.cancelled = false → c.writing = false → c.joined ≠ [] → collOpc (collFields c) = 0 → c.got.length = c.joined.length →
    (∀ j ∈ c.joined, fieldAt j.2.fields 2 + c.elem * collSize (collFields c) < 2 ^ 48) →
    let fs := collFields c
    let v := reduceElem (collType fs) (collRed fs) ((List.range c.joined.length).map fun p => ((FMap.find? c.got p).getD 0).toNat)
    ∃ s1 : State, exec (.engineAccessReply (1024 + cid)) s = .next s1 ∧ s1.mem = s.mem ∧
      ∀ p core op, c.joined[p]? = some (core, op) → ∃ id r, s1.req? id = some r ∧ r.op = .eng (1024 + cid) p true false ∧ r.asid = op.asid ∧
        r.addr = fieldAt op.fields 2 + c.elem * collSize fs ∧ r.mask = byteMask (r.addr % 64) (collSize fs) ∧
        r.data = placed r.addr (BitVec.ofNat 64 v)) ∧
  (∀ (xs : List Nat), reduceElem 2 0 xs = xs.sum % 2 ^ 32 ∧ reduceElem 3 0 xs = xs.sum % 2 ^ 64) ∧
  (∀ (s : State) (id : Nat) (c : Collective), FMap.find? s.fab.collectives id = some c →
    (c.started = false → c.ready ≠ none → enginesBusy s id c = true ∨ c.waits s = true → exec (.collectiveStart id) s = .next s) ∧
    (c.started = false → c.ready ≠ none → enginesBusy s id c = false → c.waits s = false → collAgrees s c (collFields c) = false →
      exec (.collectiveStart id) s = .next (endCollective s id { c with status := some (0x05, 0, 0) })) ∧
    (c.started = false → c.ready ≠ none → enginesBusy s id c = false → c.waits s = false → collAgrees s c (collFields c) = true →
      exec (.collectiveStart id) s = .next (collGo (s.setColl id { c with started := true }) id)) ∧
    (∀ d, c.joinDeadline = some d → d ≤ s.cycle → c.started = false → c.inTime s d = false →
      exec (.collectiveJoinTimeout id) s = .next (endCollective s id { c with status := some (0x06, 0, 0) })) ∧
    (∀ core op, (core, op) ∈ c.joined ∨ (op ∈ c.untaken s ∧ core = coreOf op.seat) →
      let f : BitVec 8 × BitVec 8 × Word := if c.cancelled then (0x01, 0, 0) else c.status.getD (0x00, 0, 0)
      ∃ k m, (endCollective s id c).msg? k = some m ∧ m.kind = .completion (engineOf 2 core) ∧
        m.payload = completionPayload op f.1 f.2.1 c.done f.2.2)) ∧
  (∀ (s : State) (eng id : Nat) (m : Msg) (d : Nat), s.net.msgs = [(id, m)] → m.kind = .completion eng → m.deadline = some d → d ≤ s.cycle →
    let core := targetCore m.dst
    exec (.completionDrop eng) s = .next ((((s.dropMsg id).countReceived m.launch core).faultRecord m.asid
      ⟨3, 0x15, 0x03, 3, core, m.launch, core, m.payload.getD 0 0⟩).1.addWork 0 (.engineShadowTake eng))) ∧
  (∀ (s : State) (id : Nat) (m : Msg), s.msg? id = some m → m.stage = .going →
    let core := targetCore m.dst
    let c := s.iface core
    let header := headerWord 1 m.asid s.device m.seat
    (m.kind = .send →
      (c.ring = none → exec (.inboxArrival id) s = .next (s.nack id)) ∧
      (c.ring ≠ none → 2 ≤ c.held.length → exec (.inboxArrival id) s = .next ((s.setOvf core).nack id)) ∧
      (c.ring ≠ none → c.held.length < 2 → s.seatAccepts (core * 8 + bitsOf m.dst 0 3) m.asid = false →
        exec (.inboxArrival id) s = .next (s.answerMsg id (.fault 0x06 0x04))) ∧
      (c.ring ≠ none → c.held.length < 2 → s.seatAccepts (core * 8 + bitsOf m.dst 0 3) m.asid = true →
        let taken (x : State) : State := x.setMsg id { m with stage := .waiting }
        (c.hasRoom = true → c.held = [] → exec (.inboxArrival id) s = .next (taken (s.startEntry core m.payload header (some id)))) ∧
        (c.hasRoom = false ∨ c.held ≠ [] → exec (.inboxArrival id) s =
          .next (taken (s.modCore core fun c => { c with held := c.held ++ [(m.payload, header, some id)] }))))) ∧
    (∀ eng, m.kind = .completion eng → c.hasRoom = true → c.held = [] → exec (.inboxArrival id) s =
      .next ((((s.startEntry core m.payload (headerWord 2 m.asid s.device m.seat) none).dropMsg id).countReceived m.launch core).addWork 0
        (.engineShadowTake eng)))) ∧
  (∀ (s : State) (core n base : Nat) (payload : List Word) (h : Word) (msg : Option Nat), (s.iface core).ring = some (n, base) →
    let idx := ((s.core core).tail + (s.core core).writing.length) % 65536
    let s' := s.startEntry core payload h msg
    let cl := clusterOf core
    s'.mem = s.mem ∧ (s'.core core).tail = (s.core core).tail ∧ (s'.core core).writing = (s.core core).writing ++ [⟨idx, payload, h, 9, 0, msg⟩] ∧
      (∀ j, j < 8 → ∃ w ∈ (s'.bank (bankOf cl (slotOff n base idx + 8 * j))).waiting, w.arrival = s.cycle + 1 ∧
        w.part = ⟨slotOff n base idx + 8 * j, .write 255 (payload.getD j 0), j⟩) ∧
      ∃ w ∈ (s'.bank (bankOf cl (headerOff n base idx))).waiting, w.arrival = s.cycle + 2 ∧ w.part = ⟨headerOff n base idx, .write 255 h, 0⟩) ∧
  (∀ (s : State) (core : Nat),
    ((s.core core).writing = [] → (s.iface core).hasRoom = false → exec (.inboxHeldWrite core) s = .next s) ∧
    (∀ p h m, (s.core core).writing = [] → (s.core core).held = [(p, h, m)] → (s.core core).notices = [] → (s.iface core).hasRoom = true →
      exec (.inboxHeldWrite core) s = .next ((s.modCore core fun c => { c with held := [] }).startEntry core p h m)) ∧
    (∀ e, (s.core core).writing = [e] → e.left = 0 → e.ready ≤ s.cycle → (s.core core).held = [] → (s.core core).notices = [] →
      ((s.countEntry core e).core core).tail = ((s.core core).tail + 1) % 65536 ∧
      (e.msg = none → exec (.inboxHeldWrite core) s = .next (s.countEntry core e)) ∧
      (∀ id, e.msg = some id → exec (.inboxHeldWrite core) s = .next ((s.countEntry core e).answerMsg id (.ack true false))))) ∧
  (∀ (s : State) (id q : Nat) (m : Msg), s.msg? id = some m → m.stage = .going → m.kind = .port q →
    let core := m.dst.toNat % 2048
    let own := (s.core core).queue q
    (own = none → exec (.portWordArrival id) s = .next (s.answerMsg id (.fault 0x06 0x04))) ∧
    (∀ x, own = some x → x.kind ≠ .port ∨ x.asid ≠ m.asid ∨ x.param.toNat % 2048 ≠ coreOf m.seat ∨ x.param.toNat / 2 ^ 16 % 256 ≠ s.device.toNat →
      exec (.portWordArrival id) s = .next (s.answerMsg id (.fault 0x06 0x04))) ∧
    (∀ x, own = some x → x.kind = .port → x.asid = m.asid → x.param.toNat % 2048 = coreOf m.seat → x.param.toNat / 2 ^ 16 % 256 = s.device.toNat →
      (8 ≤ x.words.length → exec (.portWordArrival id) s = .next (s.nack id)) ∧
      (x.words.length < 8 → exec (.portWordArrival id) s =
        .next ((s.modCore core fun c => c.setQueue q (some { x with words := x.words ++ [(m.payload.getD 0 0, m.sentAt)] })).answerMsg id (.ack true false)))))

/-! ## Dispatch, the board and the Ladder -/

/-- R163, R334, R379 to R383, R387 to R391, R193, R472, R180: a station admits and selects packets and expands them into threads; dependence counters; sweeps and the
end of a launch; cancels.
Placement, launch numbers, sweeps, ring faults, graph packets, the reach of a cancel and the time for which a job's id is kept are the model's choices
(log entries 15, 20, 31 to 36, 48, 58, 85, 89, 107, 116). -/
def Obligations.DispatchStepResults : Prop :=
  (∀ (s : State) (id : Nat) (m : Msg), s.msg? id = some m → m.stage = .going →
    let key := m.dst.toNat % 2 ^ 17
    let i := Instr.enqAdmission id
    (s.queue? key = none → exec i s = .next (s.answerMsg id (.fault 0x06 0x04))) ∧
    (∀ q, s.queue? key = some q →
      (q.v = false ∨ q.asid ≠ m.asid → exec i s = .next (s.answerMsg id (.fault 0x06 0x04))) ∧
      (q.v = true → q.asid = m.asid → (s.disp? (queueStation key)).cancelled.contains (q.jobOf m.payload) = true →
        exec i s = .next ((s.landPieces q.asid).answerMsg id (.ack true false))) ∧
      (q.v = true → q.asid = m.asid → (s.disp? (queueStation key)).cancelled.contains (q.jobOf m.payload) = false →
        (2 ^ q.log2n.toNat ≤ (q.tail - q.head).toNat → exec i s = .next (s.nack id)) ∧
        ((q.tail - q.head).toNat < 2 ^ q.log2n.toNat → m.kind = .enq →
          ∀ pa rd wr nc h, (s.landPieces q.asid).access q.asid (q.ring + 64 * (q.tail.toNat % 2 ^ q.log2n.toNat)) false false true = .ok pa rd wr nc h →
            ∃ s1 : State, exec i s = .next (s1.answerMsg id (.ack true false)) ∧
              s1.mem = ((s.landPieces q.asid).physWrite pa (BitVec.allOnes 64) (packetLine m.payload)).mem ∧
              ∃ q', s1.queue? key = some q' ∧ q'.tail = q.tail + 1 ∧ q'.head = q.head)))) ∧
  (∀ (s : State) (key : Nat) (q : QueueRec), s.queue? key = some q →
    (∀ i, (∀ p ∈ s.net.reqs, p.2.op ≠ .ring key) → q.v = true → q.wanted = some i → ∃ s1 : State,
      exec (.ringPacketFetch key) s = .next s1 ∧ s1.mem = s.mem ∧ s1.req? s.net.nextId ≠ none ∧
      ∀ r, s1.req? s.net.nextId = some r → r.op = .ring key ∧ r.off = i ∧ r.asid = q.asid ∧ r.addr = q.ring + 64 * (i % 2 ^ q.log2n.toNat)) ∧
    (∀ id r d p rd w nc, s.net.reqs.find? (fun p => p.2.op == .ring key && p.2.stage == .answered) = some (id, r) → r.answer = some (.data d p rd w nc) →
      (p = 0 → q.wanted = some r.off → ∃ (s1 : State) (q' : QueueRec), exec (.ringPacketFetch key) s = .next s1 ∧ s1.mem = s.mem ∧
        s1.queue? key = some q' ∧ q'.head = q.head ∧ q'.tail = q.tail ∧ (r.off, packetOf d) ∈ q'.headCache) ∧
      (p ≠ 0 → r.off = q.head.toNat → q.head ≠ q.tail →
        exec (.ringPacketFetch key) s = .next (((s.dropReq id).dropHead key q 0x10 0x06).fetchPacket key)))) ∧
  (∀ (s : State) (st key : Nat) (q : QueueRec) (p : List Word), (s.disp? st).slots.length < 4 → s.winner st = some (key, q) →
    q.headPacket = some p → ∃ s1 : State, exec (.dispatchSelection st) s = .next s1 ∧
      (∃ q', s1.queue? key = some q' ∧ q'.head = q.head + 1 ∧ q'.tail = q.tail ∧
        q'.headCache = q.headCache.filter fun e => e.1 != q.head.toNat) ∧
      ((s.disp? st).cancelled.contains (q.jobOf p) = false → q.dropped.contains q.head.toNat = false →
        ∃ x, (s1.disp? st).slots = (s.disp? st).slots ++ [x] ∧ x.packet = p ∧ x.queue = key ∧ x.next = 0 ∧ x.job = q.jobOf p)) ∧
  (∀ (s : State) (st task : Nat) (x : Slot4) (l : Launch), (s.disp? st).slots.find? (fun x => x.task == task) = some x → s.launch? x.launch.toNat = some l →
    (x.packet.getD 2 0).toNat % 2 ^ 32 ≤ x.next → exec (.expansion st task) s = .next (let y := s.endExpansion st x
      if y.slotNext st task = s.slotNext st task then y else y.laterExpansions st)) ∧
  (∀ (s : State) (st task core last : Nat) (new : List (Nat × Nat × Nat)) (x : Slot4) (l : Launch),
    (s.disp? st).slots.find? (fun x => x.task == task) = some x → s.launch? x.launch.toNat = some l → x.next < (x.packet.getD 2 0).toNat % 2 ^ 32 →
    x.exhausted = false → s.placeFor l x.nextWid x.lastPlaced = some (core, last, new) →
    exec (.expansion st task) s = .next (let y := expandSome st task 3 (s.placeThread st x l core last new)
      if y.slotNext st task = s.slotNext st task then y else y.laterExpansions st) ∧
    (∀ (y : State) w, w ∈ (y.laterExpansions st).work → ∀ k, w.ev = .expansion st k → y.cycle < w.due) ∧
    ∃ t, (s.placeThread st x l core last new).thread? s.net.nextId = some t ∧ t.regs.wid = x.nextWid ∧
      t.regs.pc = BitVec.ofNat 64 ((x.packet.getD 0 0).toNat / 4 % 2 ^ 46 * 4) ∧ t.regs.pw = 1 ∧ t.regs.full = BitVec.allOnes 24 ∧
      (∀ n, n < 24 → vget t.regs.g n 0 = if n < 3 then x.packet.getD (5 + n) 0 else 0) ∧ t.asid = l.asid ∧ t.launch = x.launch ∧
      t.loc = .moving (s.net.nextId + 1)) ∧
  (∀ (s : State) (die ctr : Nat), let k := die * 4096 + ctr % 4096
    let d := s.dep? k
    (d.v = false → exec (.dependenceDecrement die ctr) s = .next s) ∧
    (d.v = true → s.selectsNow (s.gatedQueue die (BitVec.ofNat 12 ctr)) = true →
      exec (.dependenceDecrement die ctr) s = .next (s.addWork 0 (.dependenceDecrement die ctr))) ∧
    (s.selectsNow (s.gatedQueue die (BitVec.ofNat 12 ctr)) = false →
    (d.v = true → 1 < d.count.toNat → exec (.dependenceDecrement die ctr) s = .next (s.setDep k { d with count := d.count - 1 })) ∧
    (d.v = true → d.count = 1 → d.graph = 4095 → ∃ s1 : State, exec (.dependenceDecrement die ctr) s = .next s1 ∧ s1.mem = s.mem ∧
      s1.dep? k = { d with count := 0 }) ∧
    (∀ key q, d.v = true → d.count = 0 → s.gatedQueue die (BitVec.ofNat 12 ctr) = some (key, q) → exec (.dependenceDecrement die ctr) s =
      .next ((s.setDep k { d with under := true }).faultRecord q.asid
        ⟨3, 0x18, 0x02, 1, k, 0, queueStation key, BitVec.ofNat 64 (d.graph.toNat * 65536 + d.node.toNat)⟩).1))) ∧
  (∀ (s : State) (n : Nat) (l : Launch), s.launch? n = some l →
    let sums := (countSum l.sent, countSum l.received)
    let f := s.forgetJobs
    (f.launchIdle (BitVec.ofNat 32 n) l = true → sums.1 = sums.2 → l.lastSweep = some sums → exec (.sweepPennant n) s = .next (f.endLaunch n l)) ∧
    (f.launchIdle (BitVec.ofNat 32 n) l = true → sums.1 = sums.2 → l.lastSweep ≠ some sums → ∃ s1 : State, exec (.sweepPennant n) s = .next s1 ∧ s1.mem = s.mem ∧
      s1.launch? n = some { l with lastSweep := some sums }) ∧
    (f.launchIdle (BitVec.ofNat 32 n) l = false ∨ sums.1 ≠ sums.2 → ∃ s1 : State, exec (.sweepPennant n) s = .next s1 ∧ s1.mem = s.mem ∧
      s1.launch? n = some { l with lastSweep := none })) ∧
  (∀ (s : State) (id d : Nat) (m : Msg), s.msg? id = some m → m.kind = .launchDone → m.deadline = some d → d ≤ s.cycle →
    exec (.launchCompletionDrop id) s =
      .next ((s.dropMsg id).faultRecord m.asid ⟨3, 0x18, 0x03, 4, targetCore m.dst, 0, 0, m.launch.setWidth 64⟩).1) ∧
  (∀ (s : State) (job dest : Nat),
    (dest < 16 → ∃ s1 : State, exec (.cancelBroadcast job dest) s = .next s1 ∧ s1.mem = s.mem ∧ s1.fab = s.fab ∧
      (s.jobOpen (BitVec.ofNat 32 job) = true → BitVec.ofNat 32 job ∈ (s1.disp? dest).cancelled) ∧
      (s.jobOpen (BitVec.ofNat 32 job) = false → BitVec.ofNat 32 job ∉ (s1.disp? dest).cancelled ∧ ∀ c ∈ s1.fw.cancels, c.1 ≠ BitVec.ofNat 32 job)) ∧
    (16 ≤ dest → exec (.cancelBroadcast job dest) s = .next (s.markCancelled (dest - 16) (BitVec.ofNat 32 job))))

/-- R122, R187, R190, R453, R350, R86 to R89, R96, R97, R100 to R102, R104, R106, R200: a mover's arrival at its square, the removal of a departing entry, admission; an enumeration;
the sequencer's admission and commit of inserts and deletes; searches, the engines that their packets pass through, their results, which spill through the
banks, reclamation and sampled recall.
A full core, a full admission queue, the delays of a retry, a spilled word's arrival at its bank, the words spilled, the order of arrivals of several halves,
the path of an exhaustive scan, reclamation and damage in a re-run are the model's choices (log entries 1, 18, 21, 60, 75 to 79, 94, 100, 110, 118, 119,
121). -/
def Obligations.BoardAndLadderStepResults : Prop :=
  (∀ (s : State) (id : Nat) (g : Mig) (t : Thread) (xy zw : Word) (b : Board) (sq : List Nat), s.mig? id = some g → g.kind = .setpos xy zw → g.admission = false →
    s.thread? g.uid = some t → s.board? t.launch = some b → b.square (b.rel xy zw) = some sq →
    let h := b.halfAt (b.morton sq) (b.rel xy zw)
    let home := g.atHome t
    let nacked : State := ((match t.loc with | .transit n => s.countEv n 7 1 | _ => s).setMig id { g with stage := .nacked (s.cycle + 128) }).addWork 128 (.squareHandover id)
    (h.owner ≠ g.dst → home = false → exec (.squareHandover id) s = .next ((s.setMig id { g with dst := h.owner }).addWork 1 (.squareHandover id))) ∧
    (h.owner ≠ g.dst → home = true →
      (t.owed = [] → exec (.squareHandover id) s = .next (s.sendOn id g t h.owner)) ∧
      (t.owed ≠ [] → exec (.squareHandover id) s = .next (s.addWork 8 (.squareHandover id)))) ∧
    (h.owner = g.dst → h.entries.length < 64 → h.admission = [] → home = false → s.cacheFull g.dst = true → exec (.squareHandover id) s = .next nacked) ∧
    (h.owner = g.dst → 64 ≤ h.entries.length → s.splitHalf t.launch b h = none → s.boardTrap t = true → h.admission = [] → ∀ n, t.loc = .transit n →
      exec (.squareHandover id) s = .next (((((if home then s else s.countReceived t.launch g.src).dropMig id).markDeparting t.launch g.uid false).modThread g.uid
        fun t => { t with loc := .seat n }).trapDue n 0x0C 0x03 xy)) ∧
    (h.owner = g.dst → (64 ≤ h.entries.length ∧ s.splitHalf t.launch b h = none ∧ (s.boardTrap t = false ∨ h.admission ≠ [])) ∨
        (h.entries.length < 64 ∧ h.admission ≠ []) →
      (16 ≤ s.admissionLoad g.dst → exec (.squareHandover id) s = .next nacked) ∧
      (s.admissionLoad g.dst < 16 → ∃ (s' : State) (b' : Board), exec (.squareHandover id) s = .next s' ∧ s'.mem = s.mem ∧
        s'.board? t.launch = some b' ∧ b' = b.putHalf { h with admission := h.admission ++ [id] })) ∧
    (h.owner = g.dst → h.entries.length < 64 → h.admission = [] → home = true ∨ s.cacheFull g.dst = false →
      exec (.squareHandover id) s = .next (s.admitMover id g t b h xy zw))) ∧
  (∀ (s : State) (launch tid sq : Nat) (b : Board) (h : Half), s.board? (BitVec.ofNat 32 launch) = some b →
    b.halves.find? (fun h => h.morton == sq && h.entries.any fun e => e.tid == BitVec.ofNat 64 tid && e.departing) = some h →
    exec (.departingRemoval launch tid sq) s = .next ((s.setBoard (BitVec.ofNat 32 launch) (b.putHalf
      { h with entries := listErase (fun e => e.tid == BitVec.ofNat 64 tid && e.departing) h.entries })).addWork 0
        (.admission (BitVec.ofNat 32 launch).toNat sq))) ∧
  (∀ (s : State) (launch sq id : Nat) (b : Board) (h : Half) (rest : List Nat) (g : Mig) (t : Thread) (xy zw : Word),
    s.board? (BitVec.ofNat 32 launch) = some b → b.halves.filter (fun h => h.morton == sq) = [h] → h.admission = id :: rest →
    s.mig? id = some g → g.kind = .setpos xy zw → s.thread? g.uid = some t →
    let k := b.halfAt sq (b.rel xy zw)
    let b' := b.putHalf { h with admission := rest }
    let k' := b'.halfAt sq (b'.rel xy zw)
    let here : Prop := g.atHome t = true
    (g.dst = k.owner → 64 ≤ k.entries.length → exec (.admission launch sq) s = .next s) ∧
    (g.dst = k.owner → g.dst = k'.owner → k.entries.length < 64 → here ∨ s.cacheFull g.dst = false → exec (.admission launch sq) s =
      .next (((s.setBoard (BitVec.ofNat 32 launch) b').addWork 0 (.admission launch sq)).admitMover id g t b' k' xy zw)) ∧
    (g.dst = k.owner → k.entries.length < 64 → ¬ here → s.cacheFull g.dst = true → exec (.admission launch sq) s = .next (s.addWork 128 (.admission launch sq))) ∧
    (g.dst ≠ k.owner → t.owed ≠ [] → exec (.admission launch sq) s = .next (s.addWork 128 (.admission launch sq))) ∧
    (g.dst ≠ k.owner → g.dst ≠ k'.owner → t.owed = [] → ∃ s' : State, exec (.admission launch sq) s = .next s' ∧ s'.mem = s.mem ∧
      s'.mig? id = some { g with src := g.dst, dst := k'.owner, stage := .going, admission := false } ∧ ⟨s.cycle + 1, .squareHandover id⟩ ∈ s'.work)) ∧
  (∀ (s : State) (id q : Nat) (r : Req) (rho : Word) (b : Board), s.req? id = some r → r.op = .neigh rho q → r.results = [] → r.answer = none →
    s.board? r.key.launch = some b →
    let r' := { r with deadline := none, stage := .waiting }
    (b.nextHalf r' rho = none → exec (.neighSquareQuery id) s =
      .next (((s.setReq id r').unfeed id r' q).answer id (.word (BitVec.ofNat 64 (r.delivered / 2))))) ∧
    (∀ h, b.nextHalf r' rho = some h → s.resultRoom r' q < 128 → exec (.neighSquareQuery id) s = .next (s.setReq id r')) ∧
    (∀ h, b.nextHalf r' rho = some h → 128 ≤ s.resultRoom r' q → ∃ (s1 : State) (r1 : Req), exec (.neighSquareQuery id) s = .next s1 ∧ s1.mem = s.mem ∧
      s1.fab = s.fab ∧ s1.req? id = some r1 ∧ r1.snap = BitVec.ofNat 64 (h.order + 1) ∧
      ∀ e ∈ h.entries, b.holds e = true → neighReports b r' rho e = true → e.tid ∈ r1.results)) ∧
  (∀ (s : State) (id : Nat) (r : Req), s.req? id = some r → r.stage = .going → r.reading.getD 0 = 0 → s.laterArrival r = false →
    (s.index? r.addr = none → exec (.ladderAdmission id) s = .next (s.indexFail id r 0x14 0x01 r.addr)) ∧
    (∀ ix, s.index? r.addr = some ix →
      (ix.asid ≠ r.asid ∨ ix.destroying = true → exec (.ladderAdmission id) s = .next (s.indexFail id r 0x14 0x01 r.addr)) ∧
      (ix.asid = r.asid → ix.destroying = false → r.needsBlock = true → exec (.ladderAdmission id) s = .next (s.readLadderBlock id r ix)) ∧
      (ix.asid = r.asid → ix.destroying = false → ix.admitted = [] →
        (r.op = .stvec → r.reading = some 0 → ∀ w1 v v', readBlock s r ix = .ok 0 w1 v → ix.accept v = some v' → exec (.ladderAdmission id) s =
          .next (((s.setReq id { r with stage := .waiting, seen := v', snap := w1 }).countSent r.key.launch (coreOf r.seat)).admitCommit r.addr id ix)) ∧
        (r.op = .ixpin → ix.pins.length < 4096 → exec (.ladderAdmission id) s =
          .next ((s.setIndex r.addr { ix with pins := ix.pins ++ [BitVec.ofNat 64 ix.next - 1] }).answer id (.word (BitVec.ofNat 64 ix.next - 1)))) ∧
        (r.op = .ixpin → 4096 ≤ ix.pins.length → exec (.ladderAdmission id) s = .next (s.indexFail id r 0x14 0x02 r.addr)) ∧
        (∀ d, r.op = .delvec d → exec (.ladderAdmission id) s =
          .next ((s.setReq id { r with stage := .waiting }).setIndex r.addr { ix with admitted := [id] } |>.addWork 1 (.insertCommit id)))))) ∧
  (∀ (s : State) (id : Nat) (r : Req) (ix : LIndex) (rest : List Nat), s.req? id = some r → s.index? r.addr = some ix → ix.admitted = id :: rest →
    let ix1 : LIndex := { ix with admitted := rest, travels := FMap.erase ix.travels id }
    (r.op = .stvec → ix.cap ≤ ix.entries.length → ∃ s1 : State, exec (.insertCommit id) s = .next s1 ∧ s1.mem = s.mem ∧
      s1.index? r.addr = some ix1 ∧ ∃ r', s1.req? id = some r' ∧ r'.answer = some (.fault 0x14 0x03)) ∧
    (r.op = .stvec → ix.entries.length < ix.cap → FMap.find? ix.travels id = none →
      exec (.insertCommit id) s = .next (s.sendQuery id r (ix1.insertPath r.seen))) ∧
    (∀ ix', r.op = .stvec → ix.entries.length < ix.cap → FMap.find? ix.travels id ≠ none → ix1.insert r.seen r.snap = .ok ix' →
      ∃ s1 : State, exec (.insertCommit id) s = .next s1 ∧ s1.mem = s.mem ∧ s1.index? r.addr = some ix' ∧
        ∃ r', s1.req? id = some r' ∧ r'.answer = some (.word (BitVec.ofNat 64 ix.next))) ∧
    (∀ d e, r.op = .delvec d → FMap.find? ix.entries d.toNat = some e → e.del = none → ∃ (s1 : State) (ix' : LIndex), exec (.insertCommit id) s = .next s1 ∧
      s1.mem = s.mem ∧ s1.index? r.addr = some ix' ∧ ix'.next = ix.next + 1 ∧ FMap.find? ix'.entries d.toNat = some { e with del := some ix.next }) ∧
    (∀ d, r.op = .delvec d → FMap.find? ix.entries d.toNat = none → ∃ (s1 : State) (ix' : LIndex), exec (.insertCommit id) s = .next s1 ∧ s1.mem = s.mem ∧
      s1.index? r.addr = some ix' ∧ ix'.next = ix.next ∧ ix'.delmiss = ix.delmiss + 1)) ∧
  (∀ (s : State) (id c : Nat) (rest : List Nat) (r : Req) (ix : LIndex), s.req? id = some r → s.index? r.addr = some ix →
    FMap.find? ix.travels id = some (c :: rest) → s.packetAt id c = false → exec (.queryPacket id) s =
      .next ((s.countReceived r.key.launch (coreOf r.seat)).sendQuery id r rest)) ∧
  (∀ (s : State) (id : Nat) (path : List Nat) (r : Req) (ix : LIndex), s.index? r.addr = some ix →
    let s' := s.sendQuery id r path
    s'.index? r.addr = some { ix with travels := FMap.insert ix.travels id path } ∧ ⟨s.cycle + 1, .queryPacket id⟩ ∈ s'.work) ∧
  (∀ (s : State) (id : Nat) (r : Req) (ix : LIndex), s.req? id = some r → s.index? r.addr = some ix → FMap.find? ix.travels id = some [] →
    r.op = .stvec → exec (.queryPacket id) s = .next (s.addWork 1 (.insertCommit id))) ∧
  (∀ (s : State) (id q : Nat) (x : Bool) (r : Req) (ix : LIndex), s.req? id = some r → s.index? r.addr = some ix → r.op = .ldnear x q → r.stage = .waiting →
    FMap.find? ix.travels id = some [] → r.results = [] → r.delivered = 0 →
    let k := r.mask.toNat % 512
    let old : LIndex := { ix with entries := (FMap.find? ix.graphs id).getD ix.entries }
    let found := old.search r.seen r.snap (r.mask.toNat / 512 % 1024) k x
    (∀ d, ix.damagedIn found.2.1 = some d → ∃ (s1 : State) (r' : Req), exec (.queryPacket id) s = .next s1 ∧ s1.req? id = some r' ∧
      r'.answer = some (.fault 0x10 0x04)) ∧
    (ix.damagedIn found.2.1 = none → found.1 ≠ [] → ∃ s1 : State, exec (.queryPacket id) s = .next s1 ∧ s1.mem = s.mem ∧
      s1.req? id = some { r with results := found.1.flatMap fun e =>
        [BitVec.ofNat 64 e.2, ((FMap.find? old.entries e.2).map (·.payload)).getD 0, old.distWord r.seen (old.vecOf e.2)] } ∧
      ⟨s.cycle + 1, .resultStreamArrival id⟩ ∈ s1.work)) ∧
  (∀ (s : State) (core q : Nat) (w : Word) (x : Queue), (s.core core).queue q = some x → x.kind = .result → 16 ≤ x.words.length ∨ x.spilled ≠ [] →
    let s' := s.pushResult core q w
    let off := x.spillOff x.spilledTotal
    s'.mem = s.mem ∧ (∃ x', (s'.core core).queue q = some x' ∧ x'.words = x.words ∧ x'.spilled = x.spilled ++ [x.spilledTotal] ∧
      x'.spilledTotal = x.spilledTotal + 1) ∧
    ∃ b ∈ (s'.bank (bankOf (clusterOf core) off)).waiting, b.arrival = s.cycle ∧ b.user.requester = 98 ∧ b.part.off = off ∧ b.part.op = .write 255 w) ∧
  (∀ (s : State) (id q : Nat) (r : Req) (w w' : Word) (rest : List Word), s.req? id = some r → (∃ x, r.op = .ldnear x q) ∨ r.op = .ixstat q →
    r.results = w :: w' :: rest → exec (.resultStreamArrival id) s =
      .next (((s.pushResult (coreOf r.seat) q w).setReq id { r with results := w' :: rest, delivered := r.delivered + 1 }).addWork 1 (.resultStreamArrival id))) ∧
  (∀ (s : State) (n ord : Nat) (ix : LIndex), s.index? n = some ix →
    exec (.reclamation n ord) s = .next (if ix.reclaimable.contains ord then s.setIndex n (ix.reclaim ord) else s)) ∧
  (∀ (s : State) (id n : Nat) (ix : LIndex) (v : List Nat) (snap : Word) (k : Nat) (got : List Nat), s.indexes = [(n, ix)] → ix.reruns = [(id, v, snap, k, got)] →
    let first := ((ix.scan v snap).take k).map (·.2)
    ∃ (s1 : State) (ix' : LIndex), exec (.sampledRerun id) s = .next s1 ∧ s1.mem = s.mem ∧ s1.index? n = some ix' ∧ ix'.sampled = ix.sampled + 1 ∧
      ix'.samplek = ix.samplek + BitVec.ofNat 64 first.length ∧ ix'.misses = ix.misses + BitVec.ofNat 64 (first.filter fun o => !got.contains o).length ∧
      ix'.reruns = [])

/-! ## The matrix unit, doublets, the host and soft errors -/

/-- R309, R313 to R318, R220, R465, R410, R412: the matrix unit takes an MMA after its checks and takes K-steps; completions and the states of R317; the checkpoints of
a doublet, their commit, and the rollback of a mismatch.
The second mismatch, poisoned operands and the cycles of an image and a rollback follow the model's readings (log entries 38, 50, 54, 70). -/
def Obligations.MatrixAndDoubletStepResults : Prop :=
  (∀ (s : State) (tile : Nat) (j : MuJob) (t : Thread), (s.tile tile).current = some j → s.thread? j.uid = some t →
    (∀ zero acc slot steps f sp w, j.op = .mma zero acc slot steps f sp w → j.taken = false →
      (s.slotRec tile slot = none → exec (.matrixUnitTake tile) s = .next (s.jobTrap tile j 0x01 0x07 (w.setWidth 64))) ∧
      (∀ r, s.slotRec tile slot = some r → pairOk f r.fmt = false ∨ r.kcnt < steps →
        exec (.matrixUnitTake tile) s = .next (s.jobTrap tile j 0x01 0x07 (w.setWidth 64))) ∧
      (∀ r, s.slotRec tile slot = some r → pairOk f r.fmt = true → steps ≤ r.kcnt → acc < 4 → ∃ (s1 : State) (t' : Thread),
        exec (.matrixUnitTake tile) s = .next s1 ∧ s1.mem = s.mem ∧ ⟨s.cycle, .kStep tile⟩ ∈ s1.work ∧ s1.thread? j.uid = some t' ∧ t'.regs = t.regs ∧
        vget t'.vec.tag acc .fp32 = accTag f ∧ (zero = false → t'.vec.acc = t.vec.acc) ∧
        (zero = true → ∀ e, e < accCount (accTag f) → accElem (vget t'.vec.acc acc 0) (accBits (accTag f)) e = 0))) ∧
    (∀ acc clr f scale, j.op = .mst acc clr f scale → j.asked = 0 → exec (.matrixUnitTake tile) s = .next (s.mstNext tile j acc f scale t)) ∧
    (∀ acc clr f scale o, j.badOff = some o → s.mstWritten tile j acc clr f scale t =
      (undoStores (tile / 16) j.undo s).jobTrap tile j 0x10 0x01 (j.segOff o)) ∧
    (∀ mode slot steps f w, j.op = .mldw mode slot steps f w → j.asked = 0 →
      exec (.matrixUnitTake tile) s = .next (s.mldwNext tile j mode slot steps f w)) ∧
    (∀ zero acc slot steps f sp w, j.op = .mma zero acc slot steps f sp w → j.taken = true →
      ((s.tile tile).mayStep s.cycle s.fw.throttle = false ∨ (s.tile tile).operand (j.entry f sp j.step) = none →
        exec (.kStep tile) s = .next ((s.fetchOperand tile 3).addWork 1 (.kStep tile))) ∧
      (∀ r e, (s.tile tile).mayStep s.cycle s.fw.throttle = true → (s.tile tile).operand (j.entry f sp j.step) = some e → s.slotRec tile slot = some r →
        (r.damaged = true → exec (.kStep tile) s = .next (s.jobTrap tile j 0x10 0x05 0)) ∧
        (r.damaged = false → e.poison = none → acc < 4 →
        let out := kCombine f (vget t.vec.acc acc 0) (s.localBytes (tile / 16) e.off e.len) (s.localBytes (tile / 16) e.scaleOff e.scaleLen) r j.step
        ∃ (s1 : State) (t' : Thread), exec (.kStep tile) s = .next s1 ∧ s1.mem = s.mem ∧ s1.thread? j.uid = some t' ∧ t'.regs = t.regs ∧
          vget t'.vec.acc acc 0 = out.1 ∧ t'.sys.satcnt = t.sys.satcnt + BitVec.ofNat 64 out.2)))) ∧
  (∀ (s : State) (tile c : Nat) (j : MuJob), (s.tile tile).jobs = [j] → j.completes = some c →
    (s.cycle < c → exec (.matrixCompletion tile) s = .next s) ∧
    (c ≤ s.cycle → (s.seat j.seat).off = some .matrix → exec (.matrixCompletion tile) s =
      .next (retire ((s.modTile tile fun x => { x with jobs := [] }).modSeat j.seat fun x =>
        { x with off := none, nextTurn := max x.nextTurn (s.cycle + 1) }) j.seat j.uid))) ∧
  (∀ (s : State) (tile since : Nat),
    ((s.tile tile).mu = .ramp since → s.cycle < since + 64 → exec (.rampEnd tile) s = .next s) ∧
    ((s.tile tile).mu = .ramp since → since + 64 ≤ s.cycle → (s.tile tile).working = true ∨ s.cycle < (s.tile tile).windowEnd →
      ∃ s1 : State, exec (.rampEnd tile) s = .next s1 ∧ s1.mem = s.mem ∧ (s1.tile tile).mu = .full) ∧
    ((s.tile tile).mu = .full → (s.tile tile).working = false → (s.tile tile).windowEnd ≤ s.cycle → exec (.holdWindowEnd tile) s =
      .next ((s.setTile tile { s.tile tile with mu := .down s.cycle }).addWork 64 (.downEnd tile))) ∧
    ((s.tile tile).working = true ∨ s.cycle < (s.tile tile).windowEnd → exec (.holdWindowEnd tile) s = .next s) ∧
    ((s.tile tile).mu = .down since → since + 64 ≤ s.cycle → exec (.downEnd tile) s =
      .next (s.setTile tile { s.tile tile with mu := .idle, idleSince := s.cycle }))) ∧
  (∀ (s : State) (core seat uid : Nat) (d : Doublet) (t : Thread), s.doublet? seat = some d → (s.seat seat).occ = some uid → s.thread? uid = some t →
    let late := d.since + max 1 ((s.seat seat).doubletc.toNat / 2 ^ 16 % 2 ^ 16) * 1024 ≤ s.cycle
    (d.committing = [] → d.wanted = true ∨ late → s.heldReady seat d = true → ∃ (s1 : State) (d' : Doublet), exec (.checkpoint core seat) s = .next s1 ∧
      s1.mem.phys = s.mem.phys ∧ s1.doublet? seat = some d' ∧ d'.log = [] ∧ d'.held = [] ∧ d'.since = s.cycle ∧
      (d.held = [] → s1.mem = s.mem ∧ d'.image = some t ∧ d'.seatImage = some (s.seat seat) ∧ d'.committing = [] ∧
        (12288 ≤ (s.seat seat).llim.toNat → ∀ k v, (k, v) ∈ t.areaData (s.seat seat) s.cycle 15 →
          let off := (s.seat seat).limitOf + 4096 + 8 * k
          ∃ x ∈ (s1.bank (bankOf (clusterOf (coreOf seat)) off)).waiting, x.user = .doublet seat ∧ x.part.off = off ∧ x.part.op = .write 255 v))) ∧
    (d.committing = [] → d.wanted = true ∨ late → s.heldReady seat d = false →
      exec (.checkpoint core seat) s = .next (s.addWork 1 (.checkpoint (coreOf seat) seat))) ∧
    (d.committing = [] → d.wanted = false → ¬ late → exec (.checkpoint core seat) s = .next s) ∧
    (d.committing = [] → d.wanted = true → exec (.checkpointCommit core seat) s = .next (s.addWork 0 (.checkpoint (coreOf seat) seat))) ∧
    (d.committing ≠ [] ∨ d.wanted = false → exec (.checkpointCommit core seat) s = .next s) ∧
    ((s.seat seat).undoing = true → exec (.doubletMismatch core seat) s = .next s) ∧
    ((s.seat seat).undoing = false → d.lastMismatch ≠ some t.regs.pc → ∃ (s1 : State) (t' : Thread) (d' : Doublet), exec (.doubletMismatch core seat) s = .next s1 ∧ s1.thread? uid = some t' ∧
      s1.mem = s.mem ∧ s1.doublet? seat = some d' ∧ d'.log = [] ∧ d'.held = [] ∧ d'.lastMismatch = some t.regs.pc ∧
      (d.log ≠ [] → (s1.seat seat).undoing = true ∧ ∀ e ∈ d.log,
        ∃ x ∈ (s1.bank (bankOf (clusterOf (coreOf seat)) e.1)).waiting, x.user = .seat seat ∧ x.part.off = e.1 ∧ x.part.op = .restore e.2.2 e.2.1) ∧
      (∀ i, d.image = some i → t'.regs = i.regs ∧ t'.vec = i.vec ∧ t'.bar = i.bar ∧ t'.defer = i.defer ∧ t'.sys = { i.sys with job := t.sys.job }) ∧
      (s1.seat seat).doubletc = setBits (s.seat seat).doubletc 32 32 ((s.seat seat).doubletc.toNat / 2 ^ 32 % 2 ^ 32 + 1)) ∧
    ((s.seat seat).undoing = false → d.lastMismatch = some t.regs.pc → exec (.doubletMismatch core seat) s = .next (((s.rollback seat uid d t).setDoublet seat
      { d with log := [], held := [], lastMismatch := some t.regs.pc }).trapBoth seat uid t.regs.pc)))

/-- R43, R205, R465, R457, R456, R64, R406 to R408, R392, R393, R142: device reset; the power measurement; the writes of the host's registers; the link; and what a soft
error does to the array that holds it.
What a device reset keeps, the throttle, ring indices, fields of records and an error in a combining entry itself are the model's choices (log entries 10,
16, 43, 45, 46, 50, 104). -/
def Obligations.HostStepResults : Prop :=
  (∀ s : State, ∃ s1 : State, exec .deviceReset s = .next s1 ∧
    s1.mem.spad = [] ∧ s1.mem.spadEmpty = [] ∧ s1.mem.spadPoison = [] ∧ s1.mem.phys = s.mem.phys ∧ s1.fab = State.reset.fab ∧ s1.tables = State.reset.tables ∧
    s1.fw.features = [] ∧ s1.fw.contexts = [] ∧ s1.fw.throttle = 16 ∧ s1.fw.rsvtime = 4096 ∧ s1.cycle = 0) ∧
  (∀ (s : State) (watts junction : Nat), junction < 120 → ∃ s1 : State, exec (.powerMeasurement watts junction) s = .next s1 ∧ s1.mem = s.mem ∧ s1.fab = s.fab ∧
    (s.fw.powerCap < watts ∨ 105 ≤ junction → s1.fw.throttle = max 1 (s.fw.throttle - 1)) ∧
    (watts ≤ s.fw.powerCap → junction < 105 → s1.fw.throttle = min 16 (s.fw.throttle + 1))) ∧
  (∀ (s : State) (watts junction n : Nat), 120 ≤ junction → n < 16384 → ∃ s1 : State, exec (.powerMeasurement watts junction) s = .next s1 ∧ (s1.seat n).stop = true) ∧
  (∀ (s : State) (fn q : Nat) (v : Word), fn < 256 → q < 8 →
    exec (.cmdtailDoorbell fn q v) s = .next ((s.setHq fn q { s.hq fn q with cmdtail := v.setWidth 16 }).hostGo fn q) ∧
    exec (.cplheadWrite fn q v) s = .next ((s.setHq fn q { s.hq fn q with cplhead := v.setWidth 16 }).hostGo fn q) ∧
    exec (.queueEnable fn q v) s = .next ((s.setHq fn q { s.hq fn q with
      cmd := v &&& ~~~ 0xE
      latched := if v.getLsbD 0 = true ∧ (s.hq fn q).cmd.getLsbD 0 = false then v &&& ~~~ 0xE else (s.hq fn q).latched }).hostGo fn q) ∧
    (∃ x : HostQueue, exec (.evlostClear fn q v) s = .next ((s.setHq fn q x).hostGo fn q) ∧ x.cmd = (s.hq fn q).cmd ∧ x.cmdtail = (s.hq fn q).cmdtail ∧
      x.cpl.getLsbD 1 = ((s.hq fn q).cpl.getLsbD 1 && !v.getLsbD 1)) ∧
    exec (.hostRegisterWrite fn (0x100 + 0x40 * q + 0x08) v) s = exec (.cmdtailDoorbell fn q v) s ∧
    exec (.hostRegisterWrite fn (0x100 + 0x40 * q + 0x10) v) s = .next s) ∧
  (∀ s : State, exec .hostLinkDown s = .next { s with host := { s.host with linkUp := false } } ∧
    exec .hostLinkUp s = .next { s with host := { s.host with linkUp := true } }) ∧
  (∀ (s : State) (seat uid n : Nat) (t : Thread), (s.seat seat).occ = some uid → s.thread? uid = some t →
    exec (.softError (.corrected seat)) s = .next (s.countEv seat 15 1) ∧
    (n < 24 → exec (.softError (.gReg seat n)) s = .next (s.modThread uid fun u => { u with regs := u.regs.poison n (poisonRec 0x10 0x02 n) })) ∧
    (n < 16 → exec (.softError (.vReg seat n)) s = .next (s.modThread uid fun u => { u with vec := u.vec.poison n (poisonRec 0x10 0x02 n) })) ∧
    exec (.softError (.pwReg seat)) s = .next (s.modThread uid fun u => { u with regs := { u.regs with pwPoison := some (poisonRec 0x10 0x02 40) } })) ∧
  (∀ (s : State) (cl off : Nat), cl < 32 → off < 2 ^ 24 → exec (.softError (.scratchpad cl off)) s = .next (s.setLocalPoison cl off true)) ∧
  (∀ (s : State) (tier pa : Nat), tier < 2 → pa < 2 ^ 52 → ∃ s1 : State, exec (.softError (.home tier pa)) s = .next s1 ∧ s1.mem.phys = s.mem.phys ∧ s1.fab = s.fab ∧
    s1.physPoisoned (tier * 2 ^ 52 + pa) = true) ∧
  (∀ (s : State) (key : Nat) (q : QueueRec), s.queue? key = some q → ∃ s1 : State,
    exec (.softError (.queueRecord key)) s = .next (s1.queueRecord key q 0x10 0x06 (BitVec.allOnes 64)) ∧ s1.queue? key = some { q with stopped := true }) ∧
  (∀ (s : State) (cl va : Nat) (asid : BitVec 16) (l : NLine), s.ncFind cl asid va = some l →
    let j := va % 64 / 8
    let i := Instr.softError (.nearCache cl asid va)
    (l.dirty = 0 → exec i s = .next (s.ncDrop cl asid va)) ∧
    (l.dirty ≠ 0 → (maskWords l.dirty).getLsbD j = true → exec i s = .next ((s.ncDrop cl asid va).sendWriteBackOf cl l none (BitVec.ofNat 8 (2 ^ j)))) ∧
    (l.dirty ≠ 0 → (maskWords l.dirty).getLsbD j = false → exec i s = .next (s.ncPut cl { l with poison := putBit l.poison j true }))) ∧
  (∀ (s : State) (n ord : Nat) (ix : LIndex) (e : LEntry), s.index? n = some ix → FMap.find? ix.entries ord = some e → ∃ (s1 : State) (ix' : LIndex),
    exec (.softError (.ladderEntry n ord)) s = .next s1 ∧ s1.mem = s.mem ∧ s1.index? n = some ix' ∧
    FMap.find? ix'.entries ord = some { e with damaged := true } ∧ ix'.next = ix.next) ∧
  (∀ (s : State) (tile n : Nat) (r : SlotRec), s.slotRec tile n = some r → ∃ s1 : State, exec (.softError (.weightSlot tile n)) s = .next s1 ∧
    s1.mem = s.mem ∧ s1.slotRec tile n = some { r with damaged := true } ∧ ∀ m, m ≠ n → s1.slotRec tile m = s.slotRec tile m) ∧
  (∀ (s : State) (core pos : Nat) (e : RunEntry) (t : Thread), (s.core core).runq[pos]? = some e → s.thread? e.uid = some t → ∃ s1 : State,
    exec (.softError (.contextCache core pos)) s = .next s1 ∧ (∀ t', s1.thread? e.uid = some t' → t'.loc = .gone)) ∧
  (∀ (s : State) (core va : Nat) (asid : BitVec 16), ∃ s1 : State, exec (.softError (.icacheLine core asid va)) s = .next s1 ∧ s1.mem = s.mem ∧
    ∀ l ∈ (s1.core core).icache, l ∈ (s.core core).icache ∧ ¬ (l.asid = asid ∧ l.va = lineOf va)) ∧
  (∀ (s : State) (st va : Nat) (asid : BitVec 16), ∃ s1 : State, exec (.softError (.translation st asid va)) s = .next s1 ∧ s1.mem = s.mem ∧
    s1.tables = s.tables ∧ ∀ e ∈ (s1.station st).tcache, ¬ (e.asid = asid ∧ e.page = va / 2 ^ levelShift e.level)) ∧
  (∀ (s : State) (key : Nat) (q : QueueRec), s.queue? key = some q → q.headPacket ≠ none → exec (.softError (.headCache key)) s =
    .next ((s.dropHead key q 0x10 0x06).addWork 1 (.ringPacketFetch key))) ∧
  (∀ (s : State) (die ctr : Nat), let k := die * 4096 + ctr % 4096
    let i := Instr.softError (.depCounter die ctr)
    ((s.dep? k).v = false → exec i s = .next s) ∧
    (∀ key q, (s.dep? k).v = true → (s.dep? k).graph = 4095 → s.gatedQueue die (BitVec.ofNat 12 ctr) = some (key, q) →
      exec i s = .next ((s.setQueue key { q with stopped := true }).queueRecord key q 0x10 0x06 (BitVec.allOnes 64))) ∧
    ((s.dep? k).v = true → (s.dep? k).graph ≠ 4095 → ∃ s1 : State, exec i s = .next s1 ∧ s1.mem = s.mem ∧ (s1.dep? k).v = false)) ∧
  (∀ (s : State) (entry pos : Nat) (e : CombEntry) (r : HoistRec), FMap.find? s.net.combs entry = some e → e.recs[pos]? = some r →
    exec (.softError (.hoistRecord entry pos)) s = .next ((s.setComb entry { e with recs := listSet e.recs pos { r with damaged := true } }).machineCheck
      (match e.cluster with | some c => 4096 + c | none => 8192 + e.router) e.va e.asid)) ∧
  (∀ (s : State) (entry pos : Nat) (e : CombEntry), FMap.find? s.net.combs entry = some e → e.recs[pos]? = none → exec (.softError (.hoistRecord entry pos)) s =
    .next (s.machineCheck (match e.cluster with | some c => 4096 + c | none => 8192 + e.router) e.va e.asid))

/-! ## Firmware commands -/

/-- R459 to R466, R22, R70, R80, R82, R107, R177, R184, R389, R390, R413 to R415: each command of R462 has its effect and completes, or is refused with a status of R463.
The delays of a command that waits, the commands that wait for each other, the order of refusals and the corners of commands are the model's choices
(log entries 1, 9, 37, 39 to 42, 44, 47 to 49, 59, 84, 87, 109). -/
def Obligations.CommandResults : Prop :=
  ∀ (s : State) (fn q : Nat) (w : Nat → Word),
    let asid := cmdAsid w
    let neg := FMap.find? s.fw.features fn
    let wrote (a : Nat) (bytes : List Byte) : State := s.hostBytes a bytes
    let ends (i : Instr) (s' : State) (st : Nat) (res : List Word) : Prop := CmdEnds i s fn q s' st res
    let waits (i : Instr) (op : Nat) (s' : State) (delay phase : Nat) : Prop := CmdWaits i s fn q op s' delay phase
    (Commanded s fn q 0x01 w → ∃ bytes : List Byte, bytes.length = 144 ∧ bytes.take 16 = leBytes s.offered0 ++ leBytes s.offered1 ∧
      ends (.ident fn q) (wrote (w 1).toNat bytes) 0 []) ∧
    (Commanded s fn q 0x02 w →
      (neg ≠ none → ends (.negotiate fn q) s 4 []) ∧
      (neg = none → fn = 0 → w 3 = 0 → w 4 = 0 → w 2 &&& ~~~ s.offered1 = 0 →
        ends (.negotiate fn q) { s with fw := { s.fw with features := FMap.insert s.fw.features fn (w 2) } } 0 [w 2]) ∧
      (neg = none → fn = 0 → w 2 &&& ~~~ s.offered1 ≠ 0 → ends (.negotiate fn q) s 2 [])) ∧
    (Commanded s fn q 0x03 w → neg ≠ none →
      (fn ≠ 0 → ends (.deviceSet fn q) s 8 []) ∧
      (fn = 0 → 256 ≤ (w 1).toNat → (w 1).toNat ≤ 65536 → ends (.deviceSet fn q) { s with fw := { s.fw with rsvtime := (w 1).toNat } } 0 []) ∧
      (fn = 0 → (w 1).toNat < 256 ∨ 65536 < (w 1).toNat → ends (.deviceSet fn q) s 2 [])) ∧
    (Commanded s fn q 0x03 w → neg = none → ends (.deviceSet fn q) s 7 []) ∧
    (Commanded s fn q 0x04 w → neg ≠ none → fn = 0 → 600 ≤ (w 1).toNat → (w 1).toNat ≤ s.part.maxPower →
      ends (.powerCap fn q) { s with fw := { s.fw with powerCap := (w 1).toNat } } 0 [w 1]) ∧
    (Commanded s fn q 0x05 w → neg ≠ none → (w 1).toNat < 2 ^ 16 → s.owns fn ((w 1).setWidth 16) = true →
      s.contextBusy fn q 0x05 ((w 1).setWidth 16) = false →
      s.span ((w 1).setWidth 16) (w 2).toNat (w 3).toNat true false = .ok → s.vaPoison ((w 1).setWidth 16) (w 2).toNat (w 3).toNat = none →
      ∃ bytes : List Byte, ends (.attest fn q) ({ s with freeCtr := s.freeCtr + 1 }.hostBytes (w 5).toNat bytes) 0 [] ∧
        bytes.take 56 = s.hostRead (w 4).toNat 48 ++ leBytes s.offered0) ∧
    (Commanded s fn q 0x10 w → neg ≠ none → w 1 = 0 → (w 3).extractLsb' 48 16 = 0 → (w 3).getLsbD 5 = false → 5 ≤ faultqN (w 3) → faultqN (w 3) ≤ 16 →
      (∀ a, s.newAsid = some a → ∃ c : Context, c.fn = fn ∧ c.sys = false ∧ c.debug = false ∧ c.deleg = w 2 &&& delegMask ∧ c.scopes = [] ∧ c.boards = [] ∧
        ends (.ctxCreate fn q) { s.setContext a c with freeCtr := s.freeCtr + 1 } 0 [a.setWidth 64]) ∧
      (s.newAsid = none → ends (.ctxCreate fn q) s 5 [])) ∧
    (Commanded s fn q 0x11 w → neg ≠ none → s.owns fn asid = false → ends (.ctxDestroy fn q) s 3 []) ∧
    (neg ≠ none → s.owns fn asid = true →
      (Commanded s fn q 0x11 w → s.contextBusy fn q 0x11 asid = true → waits (.ctxDestroy fn q) 0x11 s 8 0) ∧
      (Commanded s fn q 0x12 w → s.contextBusy fn q 0x12 asid = true → waits (.map fn q) 0x12 s 8 0)) ∧
    (CtxReady s fn q w →
      (Commanded s fn q 0x11 w → ends (.ctxDestroy fn q) (s.removeContext asid) 0 []) ∧
      (Commanded s fn q 0x12 w → rangeBad (w 1).toNat (w 2).toNat (w 5).toNat = true → ends (.map fn q) s 2 []) ∧
      (Commanded s fn q 0x12 w → rangeBad (w 1).toNat (w 2).toNat (w 5).toNat = false → (w 3).toNat < 256 → (w 3).toNat / 8 % 4 = 0 →
        let level := 3 - (w 2).toNat
        let bytes := (w 5).toNat * pageSize (w 2).toNat
        s.rangeMoving asid (w 1).toNat bytes = false → s.rangeBusy asid (w 1).toNat bytes level = false → ∀ leaves,
        mapLeaves s fn level (pageSize (w 2).toNat) (w 3).toNat (w 4).toNat s.freeCtr (w 5).toNat (w 1).toNat = .ok leaves →
          waits (.map fn q) 0x12 ((leaves.foldl (fun (s : State) p => s.setEntry asid level p.1 p.2) { s with freeCtr := s.freeCtr + (w 5).toNat }).sendProbes asid
            (w 1).toNat bytes) 8 1) ∧
      (Commanded s fn q 0x13 w → rangeBad (w 1).toNat (w 2).toNat (w 4).toNat = true → ends (.unmap fn q) s 2 []) ∧
      (Commanded s fn q 0x13 w → rangeBad (w 1).toNat (w 2).toNat (w 4).toNat = false → w 3 = 1 →
        let level := 3 - (w 2).toNat
        let bytes := (w 4).toNat * pageSize (w 2).toNat
        s.rangeMoving asid (w 1).toNat bytes = false → s.rangeBusy asid (w 1).toNat bytes level = false →
          waits (.unmap fn q) 0x13 (((pageVas (w 1).toNat (pageSize (w 2).toNat) (w 4).toNat).foldl (fun s v => s.setEntry asid level v (notPresentEntry level v)) s).sendProbes asid
            (w 1).toNat bytes) 8 1) ∧
      (Commanded s fn q 0x14 w → ∀ e, s.leafAt asid 3 (w 1).toNat = some e → (w 1).toNat % 2 ^ 16 = 0 → (w 1).toNat < 2 ^ 48 →
        (w 2).toNat < 2 → entryV e = true → entryTier e < 2 → (w 2 = 1 → s.feature fn 2 = true) → s.rangeMoving asid (w 1).toNat (2 ^ 16) = false →
        ((w 2).toNat = entryTier e → ends (.pageMove fn q) s 0 []) ∧
        ((w 2).toNat ≠ entryTier e →
          let new := mapLeaf ((setBits e 3 2 (w 2).toNat).toNat % 128) (allocFrame (w 2).toNat 3 (w 1).toNat s.freeCtr)
          (s.frameFree 3 (2 ^ 16) (w 1).toNat s.freeCtr new [] = false → ends (.pageMove fn q) s 5 []) ∧
          (s.frameFree 3 (2 ^ 16) (w 1).toNat s.freeCtr new [] = true →
            waits (.pageMove fn q) 0x14 (s.beginMove fn q asid (w 1).toNat e new) 8 1))) ∧
      (Commanded s fn q 0x15 w → (w 1).extractLsb' 0 6 = 0 → (w 1).extractLsb' 11 45 = 0 → (w 2).toNat < 256 → (w 3).extractLsb' 16 14 = 0 →
        (w 3).extractLsb' 32 32 = 0 → (w 1).extractLsb' 56 8 = s.device →
        let cl := (w 1).toNat / 2 ^ 6 % 32
        let old := (s.cluster cl).owner (w 2).toNat
        let o : BlockOwner := ⟨(w 3).getLsbD 31, (w 3).getLsbD 30, (w 3).setWidth 16⟩
        (o.v = true ∨ o.owner ≠ 0 → s.owns fn o.owner = false → ends (.blockSet fn q) s 3 []) ∧
        (o.v = false → old.v = true → s.context? old.owner ≠ none → s.owns fn old.owner = false → ends (.blockSet fn q) s 3 []) ∧
        (o.v = true → old.v = true → old.owner ≠ o.owner → s.owns fn o.owner = true → ends (.blockSet fn q) s 4 []) ∧
        ((o.v = true → s.owns fn o.owner = true ∧ (old.v = false ∨ old.owner = o.owner)) →
          (o.v = false → (o.owner = 0 ∨ s.owns fn o.owner = true) ∧ (old.v = false ∨ s.context? old.owner = none ∨ s.owns fn old.owner = true)) →
          (s.blockInUse cl (w 2).toNat = true → waits (.blockSet fn q) 0x15 s 8 0) ∧
          (s.blockInUse cl (w 2).toNat = false → ends (.blockSet fn q) (s.setBlockOwner cl (w 2).toNat o) 0 []))) ∧
      (Commanded s fn q 0x16 w → w 1 = 1 → 8 ≤ (w 4).toNat → (w 4).toNat ≤ 2 ^ 32 → (w 4).toNat % 8 = 0 →
        (∀ a, s.span asid (w 3).toNat (w 4).toNat true false = .bad a → ends (.memCopy fn q) s 6 [BitVec.ofNat 64 a]) ∧
        (s.span asid (w 3).toNat (w 4).toNat true false = .ok → s.vaPoison asid (w 3).toNat (w 4).toNat = none →
          ((w 3).toNat % 8 = 0 → ends (.memCopy fn q) (copyHost asid true (w 2).toNat (w 3).toNat ((w 4).toNat / 8) s) 0 [w 4]) ∧
          ((w 3).toNat % 8 ≠ 0 → ends (.memCopy fn q) (copyBytes asid true (w 2).toNat (w 3).toNat (w 4).toNat ((w 4).toNat / 8 + 1) s) 0 [w 4]))) ∧
      (Commanded s fn q 0x20 w → (w 1).extractLsb' 16 48 ≠ 0 ∨ (w 3).toNat < 4 ∨ 20 < (w 3).toNat ∨ (w 2).toNat % 64 ≠ 0 ∨ 2 ^ 48 ≤ (w 2).toNat →
        ends (.queueCreate fn q) s 2 []) ∧
      (Commanded s fn q 0x20 w → (w 1).extractLsb' 16 48 = 0 → 4 ≤ (w 3).toNat → (w 3).toNat ≤ 20 → (w 2).toNat % 64 = 0 → (w 2).toNat < 2 ^ 48 →
        (w 4).toNat % 64 = 0 → (w 5).toNat < 16 → (w 1).getLsbD 3 = false → s.readable asid (w 4).toNat 256 = .ok →
        let h (j : Nat) : Word := s.vaWord asid ((w 4).toNat + 8 * j)
        h 17 = 0 → headerBad h = false → h 9 = 0 → (h 7).getLsbD 23 = false → (h 15).toNat % 16 ≠ 1 ∨ (h 16).toNat / 2 ^ 56 % 256 = s.device.toNat → ∀ key, s.freeQueue (w 5).toNat = some key →
          ∃ (s' : State) (r : QueueRec), ends (.queueCreate fn q) s' 0 [s.queueAddress key] ∧ s'.mem = s.mem ∧ s'.queue? key = some r ∧ r.v = true ∧
            r.asid = asid ∧ r.ring = (w 2).toNat ∧ r.log2n.toNat = (w 3).toNat ∧ r.prio = (w 1).setWidth 2 ∧ r.tail = 0 ∧ r.head = 0 ∧ r.depv = false) ∧
      (Commanded s fn q 0x21 w → ∀ key r, s.ownQueue asid (w 1) = some (key, r) → ∃ s' : State, ends (.queueDestroy fn q) s' 0 [] ∧ s'.mem = s.mem ∧
        s'.fab = s.fab ∧ s'.queue? key = none ∧ ∀ k, k ≠ key → s'.queue? k = s.queue? k) ∧
      (Commanded s fn q 0x22 w → (w 1).extractLsb' 17 39 = 0 → (w 1).extractLsb' 56 8 = s.device → ∀ key r s', s.ownQueue asid (w 1) = some (key, r) →
        ((∃ k, s.admitPacket key r ((List.range 8).map fun j => w (8 + j)) none (!r.trig && !r.depv) = .taken s' k) → ends (.queueSubmit fn q) s' 0 []) ∧
        (s.admitPacket key r ((List.range 8).map fun j => w (8 + j)) none (!r.trig && !r.depv) = .full → waits (.queueSubmit fn q) 0x22 s 128 0) ∧
        (∀ va, s.admitPacket key r ((List.range 8).map fun j => w (8 + j)) none (!r.trig && !r.depv) = .notPresent va →
          waits (.queueSubmit fn q) 0x22 (s.recordPage asid va 1).1 128 (if (s.recordPage asid va 1).2 then 1 else 0))) ∧
      (Commanded s fn q 0x23 w → 8 ≤ (w 1).toNat → (w 1).toNat ≤ 31 → (w 3).toNat < 2 → s.scopeHeld asid (w 1).toNat = false → ∀ c, s.context? asid = some c →
        ends (.scopeSet fn q) (s.setContext asid { c with scopes := if w 3 = 1 then FMap.erase c.scopes (w 1).toNat else FMap.insert c.scopes (w 1).toNat (s.scopeBlock (w 2).toNat) }) 0 []) ∧
      (Commanded s fn q 0x24 w → (w 1).toNat % 64 ≠ 0 → ends (.boardSet fn q) s 2 []) ∧
      (Commanded s fn q 0x24 w → (w 1).toNat % 64 = 0 → s.readable asid (w 1).toNat 64 = .ok → ∀ b c,
        boardOfWords (fun j => s.vaWord asid ((w 1).toNat + 8 * j)) [] 0 0 = some b → s.context? asid = some c → (w 1).toNat ∉ c.boards →
          ends (.boardSet fn q) (s.setContext asid { c with boards := c.boards ++ [(w 1).toNat] }) 0 []) ∧
      (Commanded s fn q 0x25 w → (indexOfBlock asid fun j => s.host64 ((w 1).toNat + 8 * j)) = none → ends (.indexCreate fn q) s 2 []) ∧
      (Commanded s fn q 0x25 w → ∀ n ix leaves, (indexOfBlock asid fun j => s.host64 ((w 1).toNat + 8 * j)) = some (n, ix) → ix.srn = 0 → s.index? n = none →
        s.rangeMapped asid ix.storage ix.size = false → mapLeaves s fn 3 (2 ^ 16) 7 0 s.freeCtr (ix.size / 2 ^ 16) ix.storage = .ok leaves →
        waits (.indexCreate fn q) 0x25 ((mapStorage asid leaves { s.setIndex n ix with freeCtr := s.freeCtr + ix.size / 2 ^ 16 }).sendProbes asid ix.storage
          ix.size) 8 (2 * n + 1)) ∧
      (Commanded s fn q 0x26 w → s.index? (w 1).toNat = none → ends (.indexDestroy fn q) s 2 []) ∧
      (Commanded s fn q 0x26 w → ∀ ix, s.index? (w 1).toNat = some ix → ix.asid = asid →
        (s.indexOpen (w 1).toNat ix = true → waits (.indexDestroy fn q) 0x26 (s.setIndex (w 1).toNat { ix with destroying := true }) 8 0) ∧
        (s.indexOpen (w 1).toNat ix = false → ∃ s' : State, waits (.indexDestroy fn q) 0x26 s' 8 1 ∧ s'.mem = s.mem ∧
          s'.index? (w 1).toNat = some { ix with destroying := true })) ∧
      (Commanded s fn q 0x30 w → (w 1).toNat ≤ 4094 → 1 ≤ (w 2).toNat → (w 2).toNat ≤ 4096 → FMap.find? s.disp.graphs (w 1).toNat = none → ∀ nodes,
        graphTable s asid ((List.range (w 2).toNat).map (s.nodeEntry (w 3).toNat)) = some nodes →
          ends (.graphCreate fn q) (s.setGraph (w 1).toNat { asid := asid, v0 := nodes, v1 := nodes, cur := false, replays := [] }) 0 []) ∧
      (Commanded s fn q 0x31 w → ∀ g nodes, s.graph? (w 1).toNat asid = some g → (w 2).toNat < (g.table g.cur).length →
        graphTable s asid (listSet ((g.table g.cur).map fun x => (s.queueAddress x.queue, x)) (w 2).toNat (s.nodeEntry (w 3).toNat 0)) = some nodes →
        (g.liveOf g.cur = 0 → ends (.graphPatch fn q) (s.setGraph (w 1).toNat (g.setTable g.cur nodes)) 0 []) ∧
        (g.liveOf g.cur ≠ 0 → g.liveOf (!g.cur) = 0 →
          ends (.graphPatch fn q) (s.setGraph (w 1).toNat { g.setTable (!g.cur) nodes with cur := !g.cur }) 0 []) ∧
        (g.liveOf g.cur ≠ 0 → g.liveOf (!g.cur) ≠ 0 → waits (.graphPatch fn q) 0x31 s 64 0)) ∧
      (Commanded s fn q 0x32 w → s.graph? (w 1).toNat asid = none → ends (.graphReplay fn q) s 2 []) ∧
      (Commanded s fn q 0x32 w → ∀ g x r s1 k, s.graph? (w 1).toNat asid = some g → g.replays = [] → g.table g.cur = [x] → x.preds = 0 →
        s.queue? x.queue = some r → r.v = true → r.asid = asid → r.depv = false →
        (s.setGraph (w 1).toNat { g with replays := [⟨g.cur, [0], [0], [], none, fn * 8 + q⟩] }).admitPacket x.queue r x.packet none true = .taken s1 (some k) →
        ∃ (s' : State) (g' : Graph), waits (.graphReplay fn q) 0x32 s' 128 1 ∧ s'.mem = s1.mem ∧ s'.queue? x.queue = s1.queue? x.queue ∧
          FMap.find? s'.disp.graphs (w 1).toNat = some g' ∧ g'.replays = [⟨g.cur, [0], [], [(0, x.queue, k)], none, fn * 8 + q⟩]) ∧
      (Commanded s fn q 0x33 w → (w 1).toNat < 2 ^ 32 → (∀ k, k < 16 → s.cancelFull k ((w 1).setWidth 32) = false) → ∃ s' : State,
        waits (.jobCancel fn q) 0x33 s' 8 1 ∧ s'.mem = s.mem ∧ s'.fab = s.fab ∧ ((w 1).setWidth 32, s.cycle + (w 2).toNat * 1024) ∈ s'.fw.cancels ∧
        ∀ k, k < 16 → ⟨s.cycle + 8, .cancelBroadcast (w 1).toNat k⟩ ∈ s'.work)) ∧
    (∀ uid t, DebugReady s fn q w uid t →
      let n := (w 1).toNat
      (Commanded s fn q 0x40 w → (s.seat n).dbgHalt = false → ∃ s' : State, ends (.debugHalt fn q) s' 0 [] ∧ s'.mem = s.mem ∧ (s'.seat n).dbgHalt = true) ∧
      (Commanded s fn q 0x41 w → ∃ s' : State, ends (.debugResume fn q) s' 0 [] ∧ s'.mem = s.mem ∧ (s'.seat n).dbgHalt = false ∧ (s'.seat n).halt = false) ∧
      (Commanded s fn q 0x42 w →
        ((w 2).toNat < 24 → ends (.debugRegread fn q) s 0 [vget t.regs.g (w 2).toNat 0]) ∧ (w 2 = 40 → ends (.debugRegread fn q) s 0 [t.regs.pw]) ∧
        (w 2 = 64 → ends (.debugRegread fn q) s 0 [t.regs.pc]) ∧ (24 ≤ (w 2).toNat → (w 2).toNat < 40 → ends (.debugRegread fn q) s 2 [])) ∧
      (Commanded s fn q 0x43 w → (w 2).toNat < 24 → ∃ (s' : State) (t' : Thread), ends (.debugRegwrite fn q) s' 0 [] ∧ s'.mem = s.mem ∧ s'.thread? uid = some t' ∧
        t'.regs = t.regs.put (w 2).toNat (w 3) ∧ ∀ o ∈ t'.owed, o.dest = .g (w 2).toNat → o.stale = true) ∧
      (Commanded s fn q 0x44 w → ∀ v, debugExtent (s.seat n) (w 2) (w 4).toNat = .error v → ends (.debugLocalread fn q) s 6 [v]) ∧
      (Commanded s fn q 0x44 w → ∀ p, debugExtent (s.seat n) (w 2) (w 4).toNat = .ok p → s.firstPoison (clusterOf (coreOf n)) p (w 4).toNat = none →
        ends (.debugLocalread fn q) (wrote (w 3).toNat ((List.range (w 4).toNat).map fun i => Mem.read s.mem.spad (spadAddr (clusterOf (coreOf n)) (p + i)))) 0 []) ∧
      (Commanded s fn q 0x45 w → ∀ v, debugExtent (s.seat n) (w 2) (w 4).toNat = .error v → ends (.debugLocalwrite fn q) s 6 [v]) ∧
      (Commanded s fn q 0x45 w → w 4 = 8 → ∀ p, debugExtent (s.seat n) (w 2) 8 = .ok p → p % 8 = 0 → ∃ s' : State, ends (.debugLocalwrite fn q) s' 0 [] ∧
        s'.mem.phys = s.mem.phys ∧ s'.mem.spadEmpty = s.mem.spadEmpty ∧ s'.localPoisoned (clusterOf (coreOf n)) p = false ∧
        (s.MemOk → ∀ j, j < 8 → Mem.read s'.mem.spad (spadAddr (clusterOf (coreOf n)) (p + j)) = Mem.read s.mem.phys (hostAddr ((w 3).toNat + j)))) ∧
      (Commanded s fn q 0x46 w → ∀ c, s.context? t.asid = some c → ends (.debugBreakarm fn q) (s.setContext t.asid { c with breakArmed := true }) 0 []) ∧
      (Commanded s fn q 0x47 w → ∀ c, s.context? t.asid = some c → ends (.debugBreakoff fn q) (s.setContext t.asid { c with breakArmed := false }) 0 [])) ∧
    -- a change of mappings goes on until its probes, and then its stations, have reported (R65)
    (∀ va bytes, va = (w 1).toNat →
      (CommandAt s fn q 0x12 w 1 → bytes = (w 5).toNat * pageSize (w 2).toNat → s.probesOpen asid va bytes = false →
        waits (.map fn q) 0x12 (s.sendInvalidates asid va bytes) 2 2) ∧
      (CommandAt s fn q 0x12 w 2 → bytes = (w 5).toNat * pageSize (w 2).toNat → s.stationsOpen asid va bytes = false →
        ends (.map fn q) (s.replayRange asid va bytes) 0 [w 5]) ∧
      (CommandAt s fn q 0x13 w 2 → bytes = (w 4).toNat * pageSize (w 2).toNat → s.stationsOpen asid va bytes = false →
        ends (.unmap fn q) (s.replayRange asid va bytes) 0 []) ∧
      (CommandAt s fn q 0x14 w 5 → bytes = 2 ^ 16 → s.stationsOpen asid va bytes = false → ∃ s' : State, ends (.pageMove fn q) s' 0 [] ∧ s'.mem = s.mem ∧
        ∀ m ∈ s'.fw.moves, m.fn * 8 + m.q ≠ fn * 8 + q)) ∧
    (∀ n ix, CommandAt s fn q 0x25 w (2 * n + 2) → s.index? n = some ix → s.stationsOpen asid ix.storage ix.size = false →
      ends (.indexCreate fn q) (s.replayRange asid ix.storage ix.size) 0 []) ∧
    (∀ ix, CommandAt s fn q 0x26 w 2 → s.index? (w 1).toNat = some ix → s.stationsOpen asid ix.storage ix.size = false → ∃ s' : State,
      ends (.indexDestroy fn q) s' 0 [] ∧ s'.mem = s.mem ∧ s'.index? (w 1).toNat = none) ∧
    (∀ g r, CommandAt s fn q 0x32 w 1 → s.graph? (w 1).toNat asid = some g → g.replays = [r] → r.cmd = fn * 8 + q → r.toWrite = [] →
      (r.undispatched = [] → r.aborted = none → ends (.graphReplay fn q) (s.setGraph (w 1).toNat { g with replays := [] }) 0 []) ∧
      (∀ node, r.aborted = some node → ends (.graphReplay fn q) (s.setGraph (w 1).toNat { g with replays := [] }) 10 [BitVec.ofNat 64 node])) ∧
    (CommandAt s fn q 0x33 w 1 → (w 1).toNat < 2 ^ 32 →
      (s.broadcasting (w 1).toNat = false → ends (.jobCancel fn q) s 0 []) ∧
      (s.broadcasting (w 1).toNat = true → waits (.jobCancel fn q) 0x33 s 8 1)) ∧
    (∀ op, Commanded s fn q op w → op = 0 ∨ 0x48 ≤ op → ends (.badop fn q) s 1 [])

/-! ## Frames -/

/-- What an instruction of the scalar or the vector unit leaves unchanged, whether it retires, parks or traps: every byte of memory but
the pieces of pages that moves copy, where a read from the overflow of a stream may find them (R71, log entry 85); every other thread and seat, but for the counters of a doublet's secondary; the registers of its own seat; of its own thread, every
register that it does not name as a destination, pw unless it writes predicates or masks, and every special register but those of a trap
that it takes (R367), FRAMEST (R230), and the flags, saturations and draws of the instructions that have any (R212, R216, R217). -/
def Obligations.ComputationFrame : Prop :=
  ∀ (i : Instr) (s s' : State) (uid : Nat) (t : Thread), isScalar i = true ∨ mayCount i = true → Seated s uid t → exec i s = .next s' →
    BytesKept s s' 0 0 ∧ s'.mem.spadEmpty = s.mem.spadEmpty ∧
    s'.fw = { s.fw with moves := s'.fw.moves } ∧ s'.host = s.host ∧ s'.tables = s.tables ∧ s'.indexes = s.indexes ∧
    (∀ v, v ≠ uid → s'.thread? v = s.thread? v) ∧ (∀ n, n ≠ s.cur → s'.seat n = { s.seat n with pmc := (s'.seat n).pmc } ∧ (n ≠ s.cur + 8 ∨ s.doublet? s.cur = none → s'.seat n = s.seat n)) ∧
    (∀ c, (s'.core c).inboxb = (s.core c).inboxb ∧ (s'.core c).prioAging = (s.core c).prioAging ∧ (s'.core c).parkswap = (s.core c).parkswap) ∧
    (let y := s'.seat s.cur
     y = { s.seat s.cur with pmc := y.pmc, pops := y.pops, fetched := y.fetched, localOp := y.localOp, sendq := y.sendq, tstop := y.tstop }) ∧
    ∃ t', s'.thread? uid = some t' ∧ RegsKept t t' (destRegs i) (vdsts i) (writesPw i) ∧
      t' = { t with regs := t'.regs, sys := t'.sys, vec := t'.vec, owed := t'.owed, park := t'.park, frame := t'.frame } ∧
      ((∀ n ∈ destRegs i, isQ n = false) → t'.owed = t.owed) ∧
      (mayCount i = false → t'.sys.fflags = t.sys.fflags ∧ t'.sys.satcnt = t.sys.satcnt ∧ t'.sys.srseed = t.sys.srseed) ∧
      t'.sys = { t.sys with xstat := t'.sys.xstat, xcause := t'.sys.xcause, xval := t'.sys.xval, xpc := t'.sys.xpc, framest := t'.sys.framest
                            fflags := t'.sys.fflags, satcnt := t'.sys.satcnt, srseed := t'.sys.srseed } ∧
      ((∃ c b v, s' = takeTrap s s.cur uid c b v) ∨
        (t'.sys.xstat = t.sys.xstat ∧ t'.sys.xcause = t.sys.xcause ∧ t'.sys.xval = t.sys.xval ∧ t'.sys.xpc = t.sys.xpc))

/-- What an access leaves unchanged at its issue. LDL and LDLS leave every byte of memory, STL every byte but the `size` bytes at LBASE plus the segment
offset (R273), a SYNC instruction or a local atomic every byte but those of its word (R46, R279), and an access that goes out as a request every
byte (R274, R275); always but the pieces of pages that moves copy (R71, log entry 85). The full/empty bits are those that were, but
for the word of LDE, STF and SETE (R44, R46). Registers that are no destination, pw, and the vector registers keep their values. -/
def Obligations.AccessFrame : Prop :=
  ∀ (s s' : State) (uid : Nat) (t : Thread), Seated s uid t →
    let kept (i : Instr) : Prop := ∃ t', s'.thread? uid = some t' ∧ RegsKept t t' (destRegs i) (vdsts i) false
    let byte (i : Instr) (off : Word) : Nat := spadAddr (ownCluster s) (((afterRead i s t).seat s.cur).lbase.toNat + off.toNat)
    let word (i : Instr) (off : Word) : Nat := spadAddr (ownCluster s) ((((afterRead i s t).seat s.cur).lbase.toNat + off.toNat) / 8 * 8)
    let fullKept : Prop := s'.mem.spadEmpty = s.mem.spadEmpty
    let fullBut (a : Nat) : Prop := ∀ k, k ≠ a / 8 → NSet.has s'.mem.spadEmpty k = NSet.has s.mem.spadEmpty k
    (∀ o : OpM,
      let off (i : Instr) : Word := src i s t 0 + o.off.signExtend 64 * BitVec.ofNat 64 (2 ^ o.sz.toNat)
      (exec (.ldl o) s = .next s' → BytesKept s s' 0 0 ∧ fullKept ∧ kept (.ldl o)) ∧
      (exec (.ldls o) s = .next s' → BytesKept s s' 0 0 ∧ fullKept ∧ kept (.ldls o)) ∧
      (exec (.stl o) s = .next s' → BytesKept s s' (byte (.stl o) (off (.stl o))) (2 ^ o.sz.toNat) ∧ fullKept ∧ kept (.stl o))) ∧
    (∀ o : OpMS,
      let off (i : Instr) : Word := src i s t 0 + o.off.signExtend 64 * 8
      (exec (.ldw o) s = .next s' → BytesKept s s' 0 0 ∧ fullKept ∧ kept (.ldw o)) ∧
      (exec (.lde o) s = .next s' → s.MemOk → BytesKept s s' 0 0 ∧ fullBut (word (.lde o) (off (.lde o))) ∧ kept (.lde o)) ∧
      (exec (.stf o) s = .next s' → s.MemOk → BytesKept s s' (word (.stf o) (off (.stf o))) 8 ∧ fullBut (word (.stf o) (off (.stf o))) ∧ kept (.stf o))) ∧
    (∀ o : OpMA, exec (.sete o) s = .next s' → s.MemOk →
      BytesKept s s' 0 0 ∧ fullBut (word (.sete o) (src (.sete o) s t 0 + o.off.signExtend 64 * 8)) ∧ kept (.sete o)) ∧
    (∀ (o : OpR) (i : Instr), i ∈ [Instr.faal o, .swapl o, .casl o, .fandl o, .forl o, .fxorl o, .fminl o, .fmaxl o] → exec i s = .next s' →
      BytesKept s s' (word i (src i s t 0)) 8 ∧ fullKept ∧ kept i) ∧
    (∀ i : Instr, isRequest i = true → exec i s = .next s' → BytesKept s s' 0 0 ∧ fullKept ∧ kept i)

/-! ## Encoding -/

/-- Each well-formed instruction that has a word is what the decoder reads from its word, with every operand at every value that the encoding admits;
and a word that the decoder accepts is the word of the instruction that it reads, which is well formed: no bit is dropped (R222 to R245). -/
def Obligations.DecodeEncodeAgree : Prop :=
  (∀ i : Instr, i.wellFormed = true → decode (encode i) = .ok i) ∧
  (∀ (w : BitVec 32) (i : Instr), decode w = .ok i → i.wellFormed = true ∧ encode i = w)

/-- R225, R240, R241, R243, R245: words written out from their fields, major first, and what they decode to. -/
def Obligations.DecodedWords : Prop :=
  decode (0b000001#6 ++ 5#6 ++ 6#6 ++ 7#6 ++ 0b01#2 ++ 0b001#3 ++ 0#3) = .ok (.sub ⟨5, 6, 7, false, true, 0⟩) ∧
  decode (0b001000#6 ++ 1#6 ++ 2#6 ++ 0b1#1 ++ 0b1111111111#10 ++ 3#3) = .ok (.addi ⟨1, 2, true, 0x3FF, 3⟩) ∧
  decode (0b001101#6 ++ 2#3 ++ 1#3 ++ 24#6 ++ 0b0#1 ++ 0b010#3 ++ 64#7 ++ 0#3) = .ok (.cmpiLt ⟨2, 1, 24, false, 64, 0⟩) ∧
  decode (0b010100#6 ++ 0b11111111111111111111111#23 ++ 7#3) = .ok (.br ⟨0x7FFFFF, 7⟩) ∧
  decode (0b000000#6 ++ 0#12 ++ 1#4 ++ 0b1010101#7 ++ 0#3) = .ok (.trap ⟨0b1010101, 0⟩) ∧
  decode (0b000000#6 ++ 3#6 ++ 0#6 ++ 2#4 ++ 0x41#7 ++ 0#3) = .ok (.csrr ⟨3, 0x41, 0⟩) ∧
  decode (0#32) = .ok .ill ∧
  decode (0xFFFF_FFFF#32) = .error .unassignedMajor ∧
  decode (0b000001#6 ++ 5#6 ++ 6#6 ++ 7#6 ++ 0b01#2 ++ 0b001#3 ++ 0#3) ≠ decode (0b000001#6 ++ 5#6 ++ 7#6 ++ 6#6 ++ 0b01#2 ++ 0b001#3 ++ 0#3)

/-! ## Every step -/

/-- A step always answers a next state: none stops the machine. -/
def Obligations.StepAnswersNext : Prop := ∀ s : State, Answers (Sys2Proof.Machine.step s)

/-- Every step keeps memory in its canonical form, so that equal memories are equal data. -/
def Obligations.StepKeepsMemory : Prop := ∀ s s' : State, s.MemOk → Sys2Proof.Machine.step s = .next s' → s'.MemOk

/-- R202, R204: every step keeps the fixed bits of pw of every thread, p0 reading 1 and [63:56] zero; and no step brings a thread of a context other than
the system context into supervisor mode. -/
def Obligations.StepKeepsModes : Prop := ∀ s s' : State, s.ModesOk → Sys2Proof.Machine.step s = .next s' → s'.ModesOk

/-- R43, R205, R132, R465: the machine at device reset. No seat holds a thread; XVEC, SSCR0 to SSCR3, QUANTUM, TIMER, LBASE,
LLIM, WBSEG, DISC0 to DISC3, DOUBLETC, DELEG, PMC0 to PMC15 and PMCSEL of every seat are 0; PARKSWAP is 256 and INBOXB and INBOXP are 0; every
scratchpad word is 0, full and clean; no context, no queue record of a station and no bound queue register exists, RSVTIME is 4,096 and the throttle 16; memory has its canonical form, and every byte behind the stations reads 0,
which is the model's choice where the specification gives no value (log entry 2); so are the empty seats, run queues, contexts, queue records and bound
queue registers (log entry 6). -/
def Obligations.ResetState : Prop :=
  State.reset.MemOk ∧ State.reset.ModesOk ∧
  (∀ n, (State.reset.seat n).occ = none ∧ (State.reset.seat n).xvec = 0 ∧ (State.reset.seat n).lbase = 0 ∧ (State.reset.seat n).llim = 0 ∧
    (State.reset.seat n).quantum = 0 ∧ (State.reset.seat n).timer = 0 ∧ (State.reset.seat n).deleg = 0 ∧ (State.reset.seat n).wbseg = 0 ∧
    (State.reset.seat n).doubletc = 0 ∧ (State.reset.seat n).pmcsel = 0 ∧ (State.reset.seat n).stopped = false ∧
    (∀ k, vget (State.reset.seat n).sscr k 0 = 0 ∧ vget (State.reset.seat n).disc k 0 = 0 ∧ vget (State.reset.seat n).pmc k 0 = 0)) ∧
  (∀ c, (State.reset.core c).parkswap = 256 ∧ (State.reset.core c).inboxb = 0 ∧ (State.reset.core c).inboxp = 0 ∧ (State.reset.core c).runq = [] ∧
    ∀ q, (State.reset.core c).queue q = none) ∧
  (∀ cl off, State.reset.localWord cl off = 0 ∧ State.reset.localFull cl off = true ∧ State.reset.localPoisoned cl off = false) ∧
  (∀ uid, State.reset.thread? uid = none) ∧ (∀ a, State.reset.context? a = none) ∧ (∀ key, State.reset.queue? key = none) ∧ State.reset.fw.rsvtime = 4096 ∧ State.reset.fw.throttle = 16 ∧
  (∀ a, Mem.read State.reset.mem.phys a = 0)

end
end

