-- ==== Sys2Proof/Laws/Encode.lean ====
section
/-!
SUPPORT. What the decoder reads from a word that the encoder packs: one law for each shape of instruction, on the bits that the shape
leaves zero and on its fields.
-/

set_option Elab.async false

section

set_option linter.unusedSimpArgs false
set_option linter.unusedTactic false
set_option linter.unreachableTactic false

namespace Sys2Proof.Laws

/-- A field outside the fixed bits of a row is read as it was packed. -/
theorem field_of_or {b p K : BitVec 32} {k n : Nat} {x : BitVec n} (h : b &&& K = 0) (hk : K.extractLsb' k n = BitVec.allOnes n)
    (hp : p.extractLsb' k n = x) : (b ||| p).extractLsb' k n = x := by
  have h1 : (b &&& K).extractLsb' k n = b.extractLsb' k n := by rw [BitVec.extractLsb'_and, hk]; simp
  rw [BitVec.extractLsb'_or, ← h1, h, hp]; simp

/-- The same for one bit. -/
theorem bit_of_or {b p K : BitVec 32} {k : Nat} {x : Bool} (h : b &&& K = 0) (hk : K.getLsbD k = true)
    (hp : p.getLsbD k = x) : (b ||| p).getLsbD k = x := by
  have h1 : (b &&& K).getLsbD k = b.getLsbD k := by rw [BitVec.getLsbD_and, hk]; simp
  rw [BitVec.getLsbD_or, ← h1, h, hp]; simp

/-- The bits that a shape leaves zero are those of the row. -/
theorem fixed_of_or {b p Z : BitVec 32} {k n : Nat} (h : p &&& Z = 0) (hk : Z.extractLsb' k n = BitVec.allOnes n) :
    (b ||| p).extractLsb' k n = b.extractLsb' k n := by
  have h1 : (p &&& Z).extractLsb' k n = p.extractLsb' k n := by rw [BitVec.extractLsb'_and, hk]; simp
  rw [BitVec.extractLsb'_or, ← h1, h]; simp

/-- The bits that a shape leaves zero do not differ from the row's. -/
theorem reserved_of_or {b p Z m : BitVec 32} (h : p &&& Z = 0) (hb : b &&& ~~~Z = 0) (hm : m &&& ~~~Z = 0) :
    ((b ||| p) ^^^ b) &&& m = 0 := by
  ext i hi
  have h1 := congrArg (·[i]) h
  have h2 := congrArg (·[i]) hb
  have h3 := congrArg (·[i]) hm
  simp at h1 h2 h3 ⊢
  cases hp : p[i] <;> cases hbb : b[i] <;> cases hmm : m[i] <;> simp_all

/-- A row whose reserved bits are clean and whose instruction is well formed passes the checks. -/
theorem check_of_wellFormed {w : BitVec 32} {r : Row} (h : r.instr.wellFormed = true) (h3 : (w ^^^ r.base) &&& r.zero3 = 0)
    (h7 : (w ^^^ r.base) &&& r.zero7 = 0) (h4 : (w ^^^ r.base) &&& r.zero4 = 0) : r.check w = .ok r.instr := by
  simp only [Instr.wellFormed, Bool.and_eq_true, Bool.not_eq_true'] at h
  simp [Row.check, h, h3, h7, h4]

theorem mask_OpG (o : OpG) : packOpG o &&& 0xfffffff8#32 = 0 := by
  have e : 0xfffffff8#32 = BitVec.allOnes 29 ++ 0#3 := by decide
  rw [e, packOpG]
  repeat rw [BitVec.and_append]
  simp

theorem read_OpG {b : BitVec 32} (o : OpG) (h : b &&& 0x00000007#32 = 0) : readOpG (b ||| packOpG o) = o := by
  cases o
  simp only [readOpG, OpG.mk.injEq]
  refine field_of_or h (by decide) ?_
  all_goals simp (disch := decide) only [packOpG, BitVec.extractLsb'_append_eq_of_add_le, BitVec.extractLsb'_append_eq_of_le,
    BitVec.extractLsb'_eq_self, Nat.reduceSub, Nat.sub_self, BitVec.getLsbD_append, bit, BitVec.getLsbD_ofBool]
  all_goals simp

theorem mask_OpR (o : OpR) : packOpR o &&& 0xfc000038#32 = 0 := by
  have e : 0xfc000038#32 = BitVec.allOnes 6 ++ 0#6 ++ 0#6 ++ 0#6 ++ 0#1 ++ 0#1 ++ BitVec.allOnes 3 ++ 0#3 := by decide
  rw [e, packOpR]
  repeat rw [BitVec.and_append]
  simp

theorem read_OpR {b : BitVec 32} (o : OpR) (h : b &&& 0x03ffffc7#32 = 0) : readOpR (b ||| packOpR o) = o := by
  cases o
  simp only [readOpR, OpR.mk.injEq]
  refine ⟨field_of_or h (by decide) ?_, field_of_or h (by decide) ?_, field_of_or h (by decide) ?_, bit_of_or h (by decide) ?_, bit_of_or h (by decide) ?_, field_of_or h (by decide) ?_⟩
  all_goals simp (disch := decide) only [packOpR, BitVec.extractLsb'_append_eq_of_add_le, BitVec.extractLsb'_append_eq_of_le,
    BitVec.extractLsb'_eq_self, Nat.reduceSub, Nat.sub_self, BitVec.getLsbD_append, bit, BitVec.getLsbD_ofBool]
  all_goals simp

theorem mask_OpRDA (o : OpRDA) : packOpRDA o &&& 0xfc003f78#32 = 0 := by
  have e : 0xfc003f78#32 = BitVec.allOnes 6 ++ 0#6 ++ 0#6 ++ BitVec.allOnes 6 ++ 0#1 ++ BitVec.allOnes 4 ++ 0#3 := by decide
  rw [e, packOpRDA]
  repeat rw [BitVec.and_append]
  simp

theorem read_OpRDA {b : BitVec 32} (o : OpRDA) (h : b &&& 0x03ffc087#32 = 0) : readOpRDA (b ||| packOpRDA o) = o := by
  cases o
  simp only [readOpRDA, OpRDA.mk.injEq]
  refine ⟨field_of_or h (by decide) ?_, field_of_or h (by decide) ?_, bit_of_or h (by decide) ?_, field_of_or h (by decide) ?_⟩
  all_goals simp (disch := decide) only [packOpRDA, BitVec.extractLsb'_append_eq_of_add_le, BitVec.extractLsb'_append_eq_of_le,
    BitVec.extractLsb'_eq_self, Nat.reduceSub, Nat.sub_self, BitVec.getLsbD_append, bit, BitVec.getLsbD_ofBool]
  all_goals simp

theorem mask_OpRA (o : OpRA) : packOpRA o &&& 0xfff03f78#32 = 0 := by
  have e : 0xfff03f78#32 = BitVec.allOnes 12 ++ 0#6 ++ BitVec.allOnes 6 ++ 0#1 ++ BitVec.allOnes 4 ++ 0#3 := by decide
  rw [e, packOpRA]
  repeat rw [BitVec.and_append]
  simp

theorem read_OpRA {b : BitVec 32} (o : OpRA) (h : b &&& 0x000fc087#32 = 0) : readOpRA (b ||| packOpRA o) = o := by
  cases o
  simp only [readOpRA, OpRA.mk.injEq]
  refine ⟨field_of_or h (by decide) ?_, bit_of_or h (by decide) ?_, field_of_or h (by decide) ?_⟩
  all_goals simp (disch := decide) only [packOpRA, BitVec.extractLsb'_append_eq_of_add_le, BitVec.extractLsb'_append_eq_of_le,
    BitVec.extractLsb'_eq_self, Nat.reduceSub, Nat.sub_self, BitVec.getLsbD_append, bit, BitVec.getLsbD_ofBool]
  all_goals simp

theorem mask_OpCmp (o : OpCmp) : packOpCmp o &&& 0xfc000038#32 = 0 := by
  have e : 0xfc000038#32 = BitVec.allOnes 6 ++ 0#3 ++ 0#3 ++ 0#6 ++ 0#6 ++ 0#1 ++ 0#1 ++ BitVec.allOnes 3 ++ 0#3 := by decide
  rw [e, packOpCmp]
  repeat rw [BitVec.and_append]
  simp

theorem read_OpCmp {b : BitVec 32} (o : OpCmp) (h : b &&& 0x03ffffc7#32 = 0) : readOpCmp (b ||| packOpCmp o) = o := by
  cases o
  simp only [readOpCmp, OpCmp.mk.injEq]
  refine ⟨field_of_or h (by decide) ?_, field_of_or h (by decide) ?_, field_of_or h (by decide) ?_, field_of_or h (by decide) ?_, bit_of_or h (by decide) ?_, bit_of_or h (by decide) ?_, field_of_or h (by decide) ?_⟩
  all_goals simp (disch := decide) only [packOpCmp, BitVec.extractLsb'_append_eq_of_add_le, BitVec.extractLsb'_append_eq_of_le,
    BitVec.extractLsb'_eq_self, Nat.reduceSub, Nat.sub_self, BitVec.getLsbD_append, bit, BitVec.getLsbD_ofBool]
  all_goals simp

theorem mask_OpRed (o : OpRed) : packOpRed o &&& 0xffe00038#32 = 0 := by
  have e : 0xffe00038#32 = BitVec.allOnes 11 ++ 0#1 ++ 0#6 ++ 0#6 ++ 0#1 ++ 0#1 ++ BitVec.allOnes 3 ++ 0#3 := by decide
  rw [e, packOpRed]
  repeat rw [BitVec.and_append]
  simp

theorem read_OpRed {b : BitVec 32} (o : OpRed) (h : b &&& 0x001fffc7#32 = 0) : readOpRed (b ||| packOpRed o) = o := by
  cases o
  simp only [readOpRed, OpRed.mk.injEq]
  refine ⟨bit_of_or h (by decide) ?_, field_of_or h (by decide) ?_, field_of_or h (by decide) ?_, bit_of_or h (by decide) ?_, bit_of_or h (by decide) ?_, field_of_or h (by decide) ?_⟩
  all_goals simp (disch := decide) only [packOpRed, BitVec.extractLsb'_append_eq_of_add_le, BitVec.extractLsb'_append_eq_of_le,
    BitVec.extractLsb'_eq_self, Nat.reduceSub, Nat.sub_self, BitVec.getLsbD_append, bit, BitVec.getLsbD_ofBool]
  all_goals simp

theorem mask_OpP3 (o : OpP3) : packOpP3 o &&& 0xff8e38f8#32 = 0 := by
  have e : 0xff8e38f8#32 = BitVec.allOnes 9 ++ 0#3 ++ BitVec.allOnes 3 ++ 0#3 ++ BitVec.allOnes 3 ++ 0#3 ++ BitVec.allOnes 5 ++ 0#3 := by decide
  rw [e, packOpP3]
  repeat rw [BitVec.and_append]
  simp

theorem read_OpP3 {b : BitVec 32} (o : OpP3) (h : b &&& 0x0071c707#32 = 0) : readOpP3 (b ||| packOpP3 o) = o := by
  cases o
  simp only [readOpP3, OpP3.mk.injEq]
  refine ⟨field_of_or h (by decide) ?_, field_of_or h (by decide) ?_, field_of_or h (by decide) ?_, field_of_or h (by decide) ?_⟩
  all_goals simp (disch := decide) only [packOpP3, BitVec.extractLsb'_append_eq_of_add_le, BitVec.extractLsb'_append_eq_of_le,
    BitVec.extractLsb'_eq_self, Nat.reduceSub, Nat.sub_self, BitVec.getLsbD_append, bit, BitVec.getLsbD_ofBool]
  all_goals simp

theorem mask_OpP2 (o : OpP2) : packOpP2 o &&& 0xff8e3ff8#32 = 0 := by
  have e : 0xff8e3ff8#32 = BitVec.allOnes 9 ++ 0#3 ++ BitVec.allOnes 3 ++ 0#3 ++ BitVec.allOnes 11 ++ 0#3 := by decide
  rw [e, packOpP2]
  repeat rw [BitVec.and_append]
  simp

theorem read_OpP2 {b : BitVec 32} (o : OpP2) (h : b &&& 0x0071c007#32 = 0) : readOpP2 (b ||| packOpP2 o) = o := by
  cases o
  simp only [readOpP2, OpP2.mk.injEq]
  refine ⟨field_of_or h (by decide) ?_, field_of_or h (by decide) ?_, field_of_or h (by decide) ?_⟩
  all_goals simp (disch := decide) only [packOpP2, BitVec.extractLsb'_append_eq_of_add_le, BitVec.extractLsb'_append_eq_of_le,
    BitVec.extractLsb'_eq_self, Nat.reduceSub, Nat.sub_self, BitVec.getLsbD_append, bit, BitVec.getLsbD_ofBool]
  all_goals simp

theorem mask_OpK2 (o : OpK2) : packOpK2 o &&& 0xffcf3ff8#32 = 0 := by
  have e : 0xffcf3ff8#32 = BitVec.allOnes 10 ++ 0#2 ++ BitVec.allOnes 4 ++ 0#2 ++ BitVec.allOnes 11 ++ 0#3 := by decide
  rw [e, packOpK2]
  repeat rw [BitVec.and_append]
  simp

theorem read_OpK2 {b : BitVec 32} (o : OpK2) (h : b &&& 0x0030c007#32 = 0) : readOpK2 (b ||| packOpK2 o) = o := by
  cases o
  simp only [readOpK2, OpK2.mk.injEq]
  refine ⟨field_of_or h (by decide) ?_, field_of_or h (by decide) ?_, field_of_or h (by decide) ?_⟩
  all_goals simp (disch := decide) only [packOpK2, BitVec.extractLsb'_append_eq_of_add_le, BitVec.extractLsb'_append_eq_of_le,
    BitVec.extractLsb'_eq_self, Nat.reduceSub, Nat.sub_self, BitVec.getLsbD_append, bit, BitVec.getLsbD_ofBool]
  all_goals simp

theorem mask_OpI (o : OpI) : packOpI o &&& 0xfc000000#32 = 0 := by
  have e : 0xfc000000#32 = BitVec.allOnes 6 ++ 0#6 ++ 0#6 ++ 0#1 ++ 0#10 ++ 0#3 := by decide
  rw [e, packOpI]
  repeat rw [BitVec.and_append]
  simp

theorem read_OpI {b : BitVec 32} (o : OpI) (h : b &&& 0x03ffffff#32 = 0) : readOpI (b ||| packOpI o) = o := by
  cases o
  simp only [readOpI, OpI.mk.injEq]
  refine ⟨field_of_or h (by decide) ?_, field_of_or h (by decide) ?_, bit_of_or h (by decide) ?_, field_of_or h (by decide) ?_, field_of_or h (by decide) ?_⟩
  all_goals simp (disch := decide) only [packOpI, BitVec.extractLsb'_append_eq_of_add_le, BitVec.extractLsb'_append_eq_of_le,
    BitVec.extractLsb'_eq_self, Nat.reduceSub, Nat.sub_self, BitVec.getLsbD_append, bit, BitVec.getLsbD_ofBool]
  all_goals simp

theorem mask_OpShi (o : OpShi) : packOpShi o &&& 0xfc001e00#32 = 0 := by
  have e : 0xfc001e00#32 = BitVec.allOnes 6 ++ 0#6 ++ 0#6 ++ 0#1 ++ BitVec.allOnes 4 ++ 0#6 ++ 0#3 := by decide
  rw [e, packOpShi]
  repeat rw [BitVec.and_append]
  simp

theorem read_OpShi {b : BitVec 32} (o : OpShi) (h : b &&& 0x03ffe1ff#32 = 0) : readOpShi (b ||| packOpShi o) = o := by
  cases o
  simp only [readOpShi, OpShi.mk.injEq]
  refine ⟨field_of_or h (by decide) ?_, field_of_or h (by decide) ?_, bit_of_or h (by decide) ?_, field_of_or h (by decide) ?_, field_of_or h (by decide) ?_⟩
  all_goals simp (disch := decide) only [packOpShi, BitVec.extractLsb'_append_eq_of_add_le, BitVec.extractLsb'_append_eq_of_le,
    BitVec.extractLsb'_eq_self, Nat.reduceSub, Nat.sub_self, BitVec.getLsbD_append, bit, BitVec.getLsbD_ofBool]
  all_goals simp

theorem mask_OpCmpi (o : OpCmpi) : packOpCmpi o &&& 0xfc001c00#32 = 0 := by
  have e : 0xfc001c00#32 = BitVec.allOnes 6 ++ 0#3 ++ 0#3 ++ 0#6 ++ 0#1 ++ BitVec.allOnes 3 ++ 0#7 ++ 0#3 := by decide
  rw [e, packOpCmpi]
  repeat rw [BitVec.and_append]
  simp

theorem read_OpCmpi {b : BitVec 32} (o : OpCmpi) (h : b &&& 0x03ffe3ff#32 = 0) : readOpCmpi (b ||| packOpCmpi o) = o := by
  cases o
  simp only [readOpCmpi, OpCmpi.mk.injEq]
  refine ⟨field_of_or h (by decide) ?_, field_of_or h (by decide) ?_, field_of_or h (by decide) ?_, bit_of_or h (by decide) ?_, field_of_or h (by decide) ?_, field_of_or h (by decide) ?_⟩
  all_goals simp (disch := decide) only [packOpCmpi, BitVec.extractLsb'_append_eq_of_add_le, BitVec.extractLsb'_append_eq_of_le,
    BitVec.extractLsb'_eq_self, Nat.reduceSub, Nat.sub_self, BitVec.getLsbD_append, bit, BitVec.getLsbD_ofBool]
  all_goals simp

theorem mask_OpL (o : OpL) : packOpL o &&& 0xfc000000#32 = 0 := by
  have e : 0xfc000000#32 = BitVec.allOnes 6 ++ 0#6 ++ 0#17 ++ 0#3 := by decide
  rw [e, packOpL]
  repeat rw [BitVec.and_append]
  simp

theorem read_OpL {b : BitVec 32} (o : OpL) (h : b &&& 0x03ffffff#32 = 0) : readOpL (b ||| packOpL o) = o := by
  cases o
  simp only [readOpL, OpL.mk.injEq]
  refine ⟨field_of_or h (by decide) ?_, field_of_or h (by decide) ?_, field_of_or h (by decide) ?_⟩
  all_goals simp (disch := decide) only [packOpL, BitVec.extractLsb'_append_eq_of_add_le, BitVec.extractLsb'_append_eq_of_le,
    BitVec.extractLsb'_eq_self, Nat.reduceSub, Nat.sub_self, BitVec.getLsbD_append, bit, BitVec.getLsbD_ofBool]
  all_goals simp

theorem mask_OpL16 (o : OpL16) : packOpL16 o &&& 0xfc080000#32 = 0 := by
  have e : 0xfc080000#32 = BitVec.allOnes 6 ++ 0#6 ++ BitVec.allOnes 1 ++ 0#16 ++ 0#3 := by decide
  rw [e, packOpL16]
  repeat rw [BitVec.and_append]
  simp

theorem read_OpL16 {b : BitVec 32} (o : OpL16) (h : b &&& 0x03f7ffff#32 = 0) : readOpL16 (b ||| packOpL16 o) = o := by
  cases o
  simp only [readOpL16, OpL16.mk.injEq]
  refine ⟨field_of_or h (by decide) ?_, field_of_or h (by decide) ?_, field_of_or h (by decide) ?_⟩
  all_goals simp (disch := decide) only [packOpL16, BitVec.extractLsb'_append_eq_of_add_le, BitVec.extractLsb'_append_eq_of_le,
    BitVec.extractLsb'_eq_self, Nat.reduceSub, Nat.sub_self, BitVec.getLsbD_append, bit, BitVec.getLsbD_ofBool]
  all_goals simp

theorem mask_OpB (o : OpB) : packOpB o &&& 0xfc000000#32 = 0 := by
  have e : 0xfc000000#32 = BitVec.allOnes 6 ++ 0#23 ++ 0#3 := by decide
  rw [e, packOpB]
  repeat rw [BitVec.and_append]
  simp

theorem read_OpB {b : BitVec 32} (o : OpB) (h : b &&& 0x03ffffff#32 = 0) : readOpB (b ||| packOpB o) = o := by
  cases o
  simp only [readOpB, OpB.mk.injEq]
  refine ⟨field_of_or h (by decide) ?_, field_of_or h (by decide) ?_⟩
  all_goals simp (disch := decide) only [packOpB, BitVec.extractLsb'_append_eq_of_add_le, BitVec.extractLsb'_append_eq_of_le,
    BitVec.extractLsb'_eq_self, Nat.reduceSub, Nat.sub_self, BitVec.getLsbD_append, bit, BitVec.getLsbD_ofBool]
  all_goals simp

theorem mask_OpBF (o : OpBF) : packOpBF o &&& 0xfc000000#32 = 0 := by
  have e : 0xfc000000#32 = BitVec.allOnes 6 ++ 0#6 ++ 0#6 ++ 0#6 ++ 0#5 ++ 0#3 := by decide
  rw [e, packOpBF]
  repeat rw [BitVec.and_append]
  simp

theorem read_OpBF {b : BitVec 32} (o : OpBF) (h : b &&& 0x03ffffff#32 = 0) : readOpBF (b ||| packOpBF o) = o := by
  cases o
  simp only [readOpBF, OpBF.mk.injEq]
  refine ⟨field_of_or h (by decide) ?_, field_of_or h (by decide) ?_, field_of_or h (by decide) ?_, field_of_or h (by decide) ?_, field_of_or h (by decide) ?_⟩
  all_goals simp (disch := decide) only [packOpBF, BitVec.extractLsb'_append_eq_of_add_le, BitVec.extractLsb'_append_eq_of_le,
    BitVec.extractLsb'_eq_self, Nat.reduceSub, Nat.sub_self, BitVec.getLsbD_append, bit, BitVec.getLsbD_ofBool]
  all_goals simp

theorem mask_OpRepf (o : OpRepf) : packOpRepf o &&& 0xfc0003f8#32 = 0 := by
  have e : 0xfc0003f8#32 = BitVec.allOnes 6 ++ 0#6 ++ 0#2 ++ 0#2 ++ 0#2 ++ 0#4 ++ BitVec.allOnes 7 ++ 0#3 := by decide
  rw [e, packOpRepf]
  repeat rw [BitVec.and_append]
  simp

theorem read_OpRepf {b : BitVec 32} (o : OpRepf) (h : b &&& 0x03fffc07#32 = 0) : readOpRepf (b ||| packOpRepf o) = o := by
  cases o
  simp only [readOpRepf, OpRepf.mk.injEq]
  refine ⟨field_of_or h (by decide) ?_, field_of_or h (by decide) ?_, field_of_or h (by decide) ?_, field_of_or h (by decide) ?_, field_of_or h (by decide) ?_, field_of_or h (by decide) ?_⟩
  all_goals simp (disch := decide) only [packOpRepf, BitVec.extractLsb'_append_eq_of_add_le, BitVec.extractLsb'_append_eq_of_le,
    BitVec.extractLsb'_eq_self, Nat.reduceSub, Nat.sub_self, BitVec.getLsbD_append, bit, BitVec.getLsbD_ofBool]
  all_goals simp

theorem mask_OpM (o : OpM) : packOpM o &&& 0xfc000000#32 = 0 := by
  have e : 0xfc000000#32 = BitVec.allOnes 6 ++ 0#6 ++ 0#6 ++ 0#1 ++ 0#2 ++ 0#8 ++ 0#3 := by decide
  rw [e, packOpM]
  repeat rw [BitVec.and_append]
  simp

theorem read_OpM {b : BitVec 32} (o : OpM) (h : b &&& 0x03ffffff#32 = 0) : readOpM (b ||| packOpM o) = o := by
  cases o
  simp only [readOpM, OpM.mk.injEq]
  refine ⟨field_of_or h (by decide) ?_, field_of_or h (by decide) ?_, bit_of_or h (by decide) ?_, field_of_or h (by decide) ?_, field_of_or h (by decide) ?_, field_of_or h (by decide) ?_⟩
  all_goals simp (disch := decide) only [packOpM, BitVec.extractLsb'_append_eq_of_add_le, BitVec.extractLsb'_append_eq_of_le,
    BitVec.extractLsb'_eq_self, Nat.reduceSub, Nat.sub_self, BitVec.getLsbD_append, bit, BitVec.getLsbD_ofBool]
  all_goals simp

theorem mask_OpMS (o : OpMS) : packOpMS o &&& 0xfc001800#32 = 0 := by
  have e : 0xfc001800#32 = BitVec.allOnes 6 ++ 0#6 ++ 0#6 ++ 0#1 ++ BitVec.allOnes 2 ++ 0#8 ++ 0#3 := by decide
  rw [e, packOpMS]
  repeat rw [BitVec.and_append]
  simp

theorem read_OpMS {b : BitVec 32} (o : OpMS) (h : b &&& 0x03ffe7ff#32 = 0) : readOpMS (b ||| packOpMS o) = o := by
  cases o
  simp only [readOpMS, OpMS.mk.injEq]
  refine ⟨field_of_or h (by decide) ?_, field_of_or h (by decide) ?_, bit_of_or h (by decide) ?_, field_of_or h (by decide) ?_, field_of_or h (by decide) ?_⟩
  all_goals simp (disch := decide) only [packOpMS, BitVec.extractLsb'_append_eq_of_add_le, BitVec.extractLsb'_append_eq_of_le,
    BitVec.extractLsb'_eq_self, Nat.reduceSub, Nat.sub_self, BitVec.getLsbD_append, bit, BitVec.getLsbD_ofBool]
  all_goals simp

theorem mask_OpMA (o : OpMA) : packOpMA o &&& 0xfff01800#32 = 0 := by
  have e : 0xfff01800#32 = BitVec.allOnes 12 ++ 0#6 ++ 0#1 ++ BitVec.allOnes 2 ++ 0#8 ++ 0#3 := by decide
  rw [e, packOpMA]
  repeat rw [BitVec.and_append]
  simp

theorem read_OpMA {b : BitVec 32} (o : OpMA) (h : b &&& 0x000fe7ff#32 = 0) : readOpMA (b ||| packOpMA o) = o := by
  cases o
  simp only [readOpMA, OpMA.mk.injEq]
  refine ⟨field_of_or h (by decide) ?_, bit_of_or h (by decide) ?_, field_of_or h (by decide) ?_, field_of_or h (by decide) ?_⟩
  all_goals simp (disch := decide) only [packOpMA, BitVec.extractLsb'_append_eq_of_add_le, BitVec.extractLsb'_append_eq_of_le,
    BitVec.extractLsb'_eq_self, Nat.reduceSub, Nat.sub_self, BitVec.getLsbD_append, bit, BitVec.getLsbD_ofBool]
  all_goals simp

theorem mask_OpStgm (o : OpStgm) : packOpStgm o &&& 0xfc003800#32 = 0 := by
  have e : 0xfc003800#32 = BitVec.allOnes 6 ++ 0#6 ++ 0#6 ++ BitVec.allOnes 3 ++ 0#8 ++ 0#3 := by decide
  rw [e, packOpStgm]
  repeat rw [BitVec.and_append]
  simp

theorem read_OpStgm {b : BitVec 32} (o : OpStgm) (h : b &&& 0x03ffc7ff#32 = 0) : readOpStgm (b ||| packOpStgm o) = o := by
  cases o
  simp only [readOpStgm, OpStgm.mk.injEq]
  refine ⟨field_of_or h (by decide) ?_, field_of_or h (by decide) ?_, field_of_or h (by decide) ?_, field_of_or h (by decide) ?_⟩
  all_goals simp (disch := decide) only [packOpStgm, BitVec.extractLsb'_append_eq_of_add_le, BitVec.extractLsb'_append_eq_of_le,
    BitVec.extractLsb'_eq_self, Nat.reduceSub, Nat.sub_self, BitVec.getLsbD_append, bit, BitVec.getLsbD_ofBool]
  all_goals simp

theorem mask_OpFence (o : OpFence) : packOpFence o &&& 0xfffffc00#32 = 0 := by
  have e : 0xfffffc00#32 = BitVec.allOnes 22 ++ 0#2 ++ 0#5 ++ 0#3 := by decide
  rw [e, packOpFence]
  repeat rw [BitVec.and_append]
  simp

theorem read_OpFence {b : BitVec 32} (o : OpFence) (h : b &&& 0x000003ff#32 = 0) : readOpFence (b ||| packOpFence o) = o := by
  cases o
  simp only [readOpFence, OpFence.mk.injEq]
  refine ⟨field_of_or h (by decide) ?_, field_of_or h (by decide) ?_, field_of_or h (by decide) ?_⟩
  all_goals simp (disch := decide) only [packOpFence, BitVec.extractLsb'_append_eq_of_add_le, BitVec.extractLsb'_append_eq_of_le,
    BitVec.extractLsb'_eq_self, Nat.reduceSub, Nat.sub_self, BitVec.getLsbD_append, bit, BitVec.getLsbD_ofBool]
  all_goals simp

theorem mask_OpBar (o : OpBar) : packOpBar o &&& 0xfffffc78#32 = 0 := by
  have e : 0xfffffc78#32 = BitVec.allOnes 22 ++ 0#3 ++ BitVec.allOnes 4 ++ 0#3 := by decide
  rw [e, packOpBar]
  repeat rw [BitVec.and_append]
  simp

theorem read_OpBar {b : BitVec 32} (o : OpBar) (h : b &&& 0x00000387#32 = 0) : readOpBar (b ||| packOpBar o) = o := by
  cases o
  simp only [readOpBar, OpBar.mk.injEq]
  refine ⟨field_of_or h (by decide) ?_, field_of_or h (by decide) ?_⟩
  all_goals simp (disch := decide) only [packOpBar, BitVec.extractLsb'_append_eq_of_add_le, BitVec.extractLsb'_append_eq_of_le,
    BitVec.extractLsb'_eq_self, Nat.reduceSub, Nat.sub_self, BitVec.getLsbD_append, bit, BitVec.getLsbD_ofBool]
  all_goals simp

theorem mask_OpQbind (o : OpQbind) : packOpQbind o &&& 0xfff03c00#32 = 0 := by
  have e : 0xfff03c00#32 = BitVec.allOnes 12 ++ 0#6 ++ BitVec.allOnes 4 ++ 0#3 ++ 0#4 ++ 0#3 := by decide
  rw [e, packOpQbind]
  repeat rw [BitVec.and_append]
  simp

theorem read_OpQbind {b : BitVec 32} (o : OpQbind) (h : b &&& 0x000fc3ff#32 = 0) : readOpQbind (b ||| packOpQbind o) = o := by
  cases o
  simp only [readOpQbind, OpQbind.mk.injEq]
  refine ⟨field_of_or h (by decide) ?_, field_of_or h (by decide) ?_, field_of_or h (by decide) ?_, field_of_or h (by decide) ?_⟩
  all_goals simp (disch := decide) only [packOpQbind, BitVec.extractLsb'_append_eq_of_add_le, BitVec.extractLsb'_append_eq_of_le,
    BitVec.extractLsb'_eq_self, Nat.reduceSub, Nat.sub_self, BitVec.getLsbD_append, bit, BitVec.getLsbD_ofBool]
  all_goals simp

theorem mask_OpQd (o : OpQd) : packOpQd o &&& 0xfc0fff80#32 = 0 := by
  have e : 0xfc0fff80#32 = BitVec.allOnes 6 ++ 0#6 ++ BitVec.allOnes 13 ++ 0#4 ++ 0#3 := by decide
  rw [e, packOpQd]
  repeat rw [BitVec.and_append]
  simp

theorem read_OpQd {b : BitVec 32} (o : OpQd) (h : b &&& 0x03f0007f#32 = 0) : readOpQd (b ||| packOpQd o) = o := by
  cases o
  simp only [readOpQd, OpQd.mk.injEq]
  refine ⟨field_of_or h (by decide) ?_, field_of_or h (by decide) ?_, field_of_or h (by decide) ?_⟩
  all_goals simp (disch := decide) only [packOpQd, BitVec.extractLsb'_append_eq_of_add_le, BitVec.extractLsb'_append_eq_of_le,
    BitVec.extractLsb'_eq_self, Nat.reduceSub, Nat.sub_self, BitVec.getLsbD_append, bit, BitVec.getLsbD_ofBool]
  all_goals simp

theorem mask_OpVM (o : OpVM) : packOpVM o &&& 0xfc000738#32 = 0 := by
  have e : 0xfc000738#32 = BitVec.allOnes 6 ++ 0#4 ++ 0#6 ++ 0#5 ++ BitVec.allOnes 3 ++ 0#2 ++ BitVec.allOnes 3 ++ 0#3 := by decide
  rw [e, packOpVM]
  repeat rw [BitVec.and_append]
  simp

theorem read_OpVM {b : BitVec 32} (o : OpVM) (h : b &&& 0x03fff8c7#32 = 0) : readOpVM (b ||| packOpVM o) = o := by
  cases o
  simp only [readOpVM, OpVM.mk.injEq]
  refine ⟨field_of_or h (by decide) ?_, field_of_or h (by decide) ?_, field_of_or h (by decide) ?_, field_of_or h (by decide) ?_, field_of_or h (by decide) ?_⟩
  all_goals simp (disch := decide) only [packOpVM, BitVec.extractLsb'_append_eq_of_add_le, BitVec.extractLsb'_append_eq_of_le,
    BitVec.extractLsb'_eq_self, Nat.reduceSub, Nat.sub_self, BitVec.getLsbD_append, bit, BitVec.getLsbD_ofBool]
  all_goals simp

theorem mask_OpVMb (o : OpVMb) : packOpVMb o &&& 0xfc000700#32 = 0 := by
  have e : 0xfc000700#32 = BitVec.allOnes 6 ++ 0#4 ++ 0#6 ++ 0#5 ++ BitVec.allOnes 3 ++ 0#2 ++ 0#3 ++ 0#3 := by decide
  rw [e, packOpVMb]
  repeat rw [BitVec.and_append]
  simp

theorem read_OpVMb {b : BitVec 32} (o : OpVMb) (h : b &&& 0x03fff8ff#32 = 0) : readOpVMb (b ||| packOpVMb o) = o := by
  cases o
  simp only [readOpVMb, OpVMb.mk.injEq]
  refine ⟨field_of_or h (by decide) ?_, field_of_or h (by decide) ?_, field_of_or h (by decide) ?_, field_of_or h (by decide) ?_, field_of_or h (by decide) ?_, field_of_or h (by decide) ?_⟩
  all_goals simp (disch := decide) only [packOpVMb, BitVec.extractLsb'_append_eq_of_add_le, BitVec.extractLsb'_append_eq_of_le,
    BitVec.extractLsb'_eq_self, Nat.reduceSub, Nat.sub_self, BitVec.getLsbD_append, bit, BitVec.getLsbD_ofBool]
  all_goals simp

theorem mask_OpV (o : OpV) : packOpV o &&& 0xfc000700#32 = 0 := by
  have e : 0xfc000700#32 = BitVec.allOnes 6 ++ 0#4 ++ 0#4 ++ 0#4 ++ 0#3 ++ BitVec.allOnes 3 ++ 0#2 ++ 0#3 ++ 0#3 := by decide
  rw [e, packOpV]
  repeat rw [BitVec.and_append]
  simp

theorem read_OpV {b : BitVec 32} (o : OpV) (h : b &&& 0x03fff8ff#32 = 0) : readOpV (b ||| packOpV o) = o := by
  cases o
  simp only [readOpV, OpV.mk.injEq]
  refine ⟨field_of_or h (by decide) ?_, field_of_or h (by decide) ?_, field_of_or h (by decide) ?_, field_of_or h (by decide) ?_, field_of_or h (by decide) ?_, field_of_or h (by decide) ?_, field_of_or h (by decide) ?_⟩
  all_goals simp (disch := decide) only [packOpV, BitVec.extractLsb'_append_eq_of_add_le, BitVec.extractLsb'_append_eq_of_le,
    BitVec.extractLsb'_eq_self, Nat.reduceSub, Nat.sub_self, BitVec.getLsbD_append, bit, BitVec.getLsbD_ofBool]
  all_goals simp

theorem mask_OpVt (o : OpVt) : packOpVt o &&& 0xfc000738#32 = 0 := by
  have e : 0xfc000738#32 = BitVec.allOnes 6 ++ 0#4 ++ 0#4 ++ 0#4 ++ 0#3 ++ BitVec.allOnes 3 ++ 0#2 ++ BitVec.allOnes 3 ++ 0#3 := by decide
  rw [e, packOpVt]
  repeat rw [BitVec.and_append]
  simp

theorem read_OpVt {b : BitVec 32} (o : OpVt) (h : b &&& 0x03fff8c7#32 = 0) : readOpVt (b ||| packOpVt o) = o := by
  cases o
  simp only [readOpVt, OpVt.mk.injEq]
  refine ⟨field_of_or h (by decide) ?_, field_of_or h (by decide) ?_, field_of_or h (by decide) ?_, field_of_or h (by decide) ?_, field_of_or h (by decide) ?_, field_of_or h (by decide) ?_⟩
  all_goals simp (disch := decide) only [packOpVt, BitVec.extractLsb'_append_eq_of_add_le, BitVec.extractLsb'_append_eq_of_le,
    BitVec.extractLsb'_eq_self, Nat.reduceSub, Nat.sub_self, BitVec.getLsbD_append, bit, BitVec.getLsbD_ofBool]
  all_goals simp

theorem mask_OpVabs (o : OpVabs) : packOpVabs o &&& 0xfc03c738#32 = 0 := by
  have e : 0xfc03c738#32 = BitVec.allOnes 6 ++ 0#4 ++ 0#4 ++ BitVec.allOnes 4 ++ 0#3 ++ BitVec.allOnes 3 ++ 0#2 ++ BitVec.allOnes 3 ++ 0#3 := by decide
  rw [e, packOpVabs]
  repeat rw [BitVec.and_append]
  simp

theorem read_OpVabs {b : BitVec 32} (o : OpVabs) (h : b &&& 0x03fc38c7#32 = 0) : readOpVabs (b ||| packOpVabs o) = o := by
  cases o
  simp only [readOpVabs, OpVabs.mk.injEq]
  refine ⟨field_of_or h (by decide) ?_, field_of_or h (by decide) ?_, field_of_or h (by decide) ?_, field_of_or h (by decide) ?_, field_of_or h (by decide) ?_⟩
  all_goals simp (disch := decide) only [packOpVabs, BitVec.extractLsb'_append_eq_of_add_le, BitVec.extractLsb'_append_eq_of_le,
    BitVec.extractLsb'_eq_self, Nat.reduceSub, Nat.sub_self, BitVec.getLsbD_append, bit, BitVec.getLsbD_ofBool]
  all_goals simp

theorem mask_OpVcmp (o : OpVcmp) : packOpVcmp o &&& 0xfc000700#32 = 0 := by
  have e : 0xfc000700#32 = BitVec.allOnes 6 ++ 0#2 ++ 0#2 ++ 0#4 ++ 0#4 ++ 0#3 ++ BitVec.allOnes 3 ++ 0#2 ++ 0#3 ++ 0#3 := by decide
  rw [e, packOpVcmp]
  repeat rw [BitVec.and_append]
  simp

theorem read_OpVcmp {b : BitVec 32} (o : OpVcmp) (h : b &&& 0x03fff8ff#32 = 0) : readOpVcmp (b ||| packOpVcmp o) = o := by
  cases o
  simp only [readOpVcmp, OpVcmp.mk.injEq]
  refine ⟨field_of_or h (by decide) ?_, field_of_or h (by decide) ?_, field_of_or h (by decide) ?_, field_of_or h (by decide) ?_, field_of_or h (by decide) ?_, field_of_or h (by decide) ?_, field_of_or h (by decide) ?_, field_of_or h (by decide) ?_⟩
  all_goals simp (disch := decide) only [packOpVcmp, BitVec.extractLsb'_append_eq_of_add_le, BitVec.extractLsb'_append_eq_of_le,
    BitVec.extractLsb'_eq_self, Nat.reduceSub, Nat.sub_self, BitVec.getLsbD_append, bit, BitVec.getLsbD_ofBool]
  all_goals simp

theorem mask_OpVcmpU (o : OpVcmpU) : packOpVcmpU o &&& 0xfc000738#32 = 0 := by
  have e : 0xfc000738#32 = BitVec.allOnes 6 ++ 0#2 ++ 0#2 ++ 0#4 ++ 0#4 ++ 0#3 ++ BitVec.allOnes 3 ++ 0#2 ++ BitVec.allOnes 3 ++ 0#3 := by decide
  rw [e, packOpVcmpU]
  repeat rw [BitVec.and_append]
  simp

theorem read_OpVcmpU {b : BitVec 32} (o : OpVcmpU) (h : b &&& 0x03fff8c7#32 = 0) : readOpVcmpU (b ||| packOpVcmpU o) = o := by
  cases o
  simp only [readOpVcmpU, OpVcmpU.mk.injEq]
  refine ⟨field_of_or h (by decide) ?_, field_of_or h (by decide) ?_, field_of_or h (by decide) ?_, field_of_or h (by decide) ?_, field_of_or h (by decide) ?_, field_of_or h (by decide) ?_, field_of_or h (by decide) ?_⟩
  all_goals simp (disch := decide) only [packOpVcmpU, BitVec.extractLsb'_append_eq_of_add_le, BitVec.extractLsb'_append_eq_of_le,
    BitVec.extractLsb'_eq_self, Nat.reduceSub, Nat.sub_self, BitVec.getLsbD_append, bit, BitVec.getLsbD_ofBool]
  all_goals simp

theorem mask_OpVredadd (o : OpVredadd) : packOpVredadd o &&& 0xfc0007c0#32 = 0 := by
  have e : 0xfc0007c0#32 = BitVec.allOnes 6 ++ 0#6 ++ 0#4 ++ 0#2 ++ 0#3 ++ BitVec.allOnes 5 ++ 0#3 ++ 0#3 := by decide
  rw [e, packOpVredadd]
  repeat rw [BitVec.and_append]
  simp

theorem read_OpVredadd {b : BitVec 32} (o : OpVredadd) (h : b &&& 0x03fff83f#32 = 0) : readOpVredadd (b ||| packOpVredadd o) = o := by
  cases o
  simp only [readOpVredadd, OpVredadd.mk.injEq]
  refine ⟨field_of_or h (by decide) ?_, field_of_or h (by decide) ?_, field_of_or h (by decide) ?_, field_of_or h (by decide) ?_, field_of_or h (by decide) ?_, field_of_or h (by decide) ?_⟩
  all_goals simp (disch := decide) only [packOpVredadd, BitVec.extractLsb'_append_eq_of_add_le, BitVec.extractLsb'_append_eq_of_le,
    BitVec.extractLsb'_eq_self, Nat.reduceSub, Nat.sub_self, BitVec.getLsbD_append, bit, BitVec.getLsbD_ofBool]
  all_goals simp

theorem mask_OpVred (o : OpVred) : packOpVred o &&& 0xfc0007f8#32 = 0 := by
  have e : 0xfc0007f8#32 = BitVec.allOnes 6 ++ 0#6 ++ 0#4 ++ 0#2 ++ 0#3 ++ BitVec.allOnes 8 ++ 0#3 := by decide
  rw [e, packOpVred]
  repeat rw [BitVec.and_append]
  simp

theorem read_OpVred {b : BitVec 32} (o : OpVred) (h : b &&& 0x03fff807#32 = 0) : readOpVred (b ||| packOpVred o) = o := by
  cases o
  simp only [readOpVred, OpVred.mk.injEq]
  refine ⟨field_of_or h (by decide) ?_, field_of_or h (by decide) ?_, field_of_or h (by decide) ?_, field_of_or h (by decide) ?_, field_of_or h (by decide) ?_⟩
  all_goals simp (disch := decide) only [packOpVred, BitVec.extractLsb'_append_eq_of_add_le, BitVec.extractLsb'_append_eq_of_le,
    BitVec.extractLsb'_eq_self, Nat.reduceSub, Nat.sub_self, BitVec.getLsbD_append, bit, BitVec.getLsbD_ofBool]
  all_goals simp

theorem mask_OpVidx (o : OpVidx) : packOpVidx o &&& 0xfc00c700#32 = 0 := by
  have e : 0xfc00c700#32 = BitVec.allOnes 6 ++ 0#6 ++ 0#4 ++ BitVec.allOnes 2 ++ 0#3 ++ BitVec.allOnes 3 ++ 0#5 ++ 0#3 := by decide
  rw [e, packOpVidx]
  repeat rw [BitVec.and_append]
  simp

theorem read_OpVidx {b : BitVec 32} (o : OpVidx) (h : b &&& 0x03ff38ff#32 = 0) : readOpVidx (b ||| packOpVidx o) = o := by
  cases o
  simp only [readOpVidx, OpVidx.mk.injEq]
  refine ⟨field_of_or h (by decide) ?_, field_of_or h (by decide) ?_, field_of_or h (by decide) ?_, field_of_or h (by decide) ?_, field_of_or h (by decide) ?_⟩
  all_goals simp (disch := decide) only [packOpVidx, BitVec.extractLsb'_append_eq_of_add_le, BitVec.extractLsb'_append_eq_of_le,
    BitVec.extractLsb'_eq_self, Nat.reduceSub, Nat.sub_self, BitVec.getLsbD_append, bit, BitVec.getLsbD_ofBool]
  all_goals simp

theorem mask_OpVdot (o : OpVdot) : packOpVdot o &&& 0xfc003ff8#32 = 0 := by
  have e : 0xfc003ff8#32 = BitVec.allOnes 6 ++ 0#6 ++ 0#4 ++ 0#2 ++ BitVec.allOnes 11 ++ 0#3 := by decide
  rw [e, packOpVdot]
  repeat rw [BitVec.and_append]
  simp

theorem read_OpVdot {b : BitVec 32} (o : OpVdot) (h : b &&& 0x03ffc007#32 = 0) : readOpVdot (b ||| packOpVdot o) = o := by
  cases o
  simp only [readOpVdot, OpVdot.mk.injEq]
  refine ⟨field_of_or h (by decide) ?_, field_of_or h (by decide) ?_, field_of_or h (by decide) ?_, field_of_or h (by decide) ?_⟩
  all_goals simp (disch := decide) only [packOpVdot, BitVec.extractLsb'_append_eq_of_add_le, BitVec.extractLsb'_append_eq_of_le,
    BitVec.extractLsb'_eq_self, Nat.reduceSub, Nat.sub_self, BitVec.getLsbD_append, bit, BitVec.getLsbD_ofBool]
  all_goals simp

theorem mask_OpVpopk (o : OpVpopk) : packOpVpopk o &&& 0xfc0f07f8#32 = 0 := by
  have e : 0xfc0f07f8#32 = BitVec.allOnes 6 ++ 0#6 ++ BitVec.allOnes 4 ++ 0#2 ++ 0#3 ++ BitVec.allOnes 8 ++ 0#3 := by decide
  rw [e, packOpVpopk]
  repeat rw [BitVec.and_append]
  simp

theorem read_OpVpopk {b : BitVec 32} (o : OpVpopk) (h : b &&& 0x03f0f807#32 = 0) : readOpVpopk (b ||| packOpVpopk o) = o := by
  cases o
  simp only [readOpVpopk, OpVpopk.mk.injEq]
  refine ⟨field_of_or h (by decide) ?_, field_of_or h (by decide) ?_, field_of_or h (by decide) ?_, field_of_or h (by decide) ?_⟩
  all_goals simp (disch := decide) only [packOpVpopk, BitVec.extractLsb'_append_eq_of_add_le, BitVec.extractLsb'_append_eq_of_le,
    BitVec.extractLsb'_eq_self, Nat.reduceSub, Nat.sub_self, BitVec.getLsbD_append, bit, BitVec.getLsbD_ofBool]
  all_goals simp

theorem mask_OpVlog (o : OpVlog) : packOpVlog o &&& 0xfc003f38#32 = 0 := by
  have e : 0xfc003f38#32 = BitVec.allOnes 6 ++ 0#4 ++ 0#4 ++ 0#4 ++ BitVec.allOnes 6 ++ 0#2 ++ BitVec.allOnes 3 ++ 0#3 := by decide
  rw [e, packOpVlog]
  repeat rw [BitVec.and_append]
  simp

theorem read_OpVlog {b : BitVec 32} (o : OpVlog) (h : b &&& 0x03ffc0c7#32 = 0) : readOpVlog (b ||| packOpVlog o) = o := by
  cases o
  simp only [readOpVlog, OpVlog.mk.injEq]
  refine ⟨field_of_or h (by decide) ?_, field_of_or h (by decide) ?_, field_of_or h (by decide) ?_, field_of_or h (by decide) ?_, field_of_or h (by decide) ?_⟩
  all_goals simp (disch := decide) only [packOpVlog, BitVec.extractLsb'_append_eq_of_add_le, BitVec.extractLsb'_append_eq_of_le,
    BitVec.extractLsb'_eq_self, Nat.reduceSub, Nat.sub_self, BitVec.getLsbD_append, bit, BitVec.getLsbD_ofBool]
  all_goals simp

theorem mask_OpVcvt (o : OpVcvt) : packOpVcvt o &&& 0xfc03c700#32 = 0 := by
  have e : 0xfc03c700#32 = BitVec.allOnes 6 ++ 0#4 ++ 0#4 ++ BitVec.allOnes 4 ++ 0#3 ++ BitVec.allOnes 3 ++ 0#2 ++ 0#3 ++ 0#3 := by decide
  rw [e, packOpVcvt]
  repeat rw [BitVec.and_append]
  simp

theorem read_OpVcvt {b : BitVec 32} (o : OpVcvt) (h : b &&& 0x03fc38ff#32 = 0) : readOpVcvt (b ||| packOpVcvt o) = o := by
  cases o
  simp only [readOpVcvt, OpVcvt.mk.injEq]
  refine ⟨field_of_or h (by decide) ?_, field_of_or h (by decide) ?_, field_of_or h (by decide) ?_, field_of_or h (by decide) ?_, field_of_or h (by decide) ?_, field_of_or h (by decide) ?_⟩
  all_goals simp (disch := decide) only [packOpVcvt, BitVec.extractLsb'_append_eq_of_add_le, BitVec.extractLsb'_append_eq_of_le,
    BitVec.extractLsb'_eq_self, Nat.reduceSub, Nat.sub_self, BitVec.getLsbD_append, bit, BitVec.getLsbD_ofBool]
  all_goals simp

theorem mask_OpQblk (o : OpQblk) : packOpQblk o &&& 0xfc03c7e0#32 = 0 := by
  have e : 0xfc03c7e0#32 = BitVec.allOnes 6 ++ 0#4 ++ 0#4 ++ BitVec.allOnes 4 ++ 0#3 ++ BitVec.allOnes 6 ++ 0#2 ++ 0#3 := by decide
  rw [e, packOpQblk]
  repeat rw [BitVec.and_append]
  simp

theorem read_OpQblk {b : BitVec 32} (o : OpQblk) (h : b &&& 0x03fc381f#32 = 0) : readOpQblk (b ||| packOpQblk o) = o := by
  cases o
  simp only [readOpQblk, OpQblk.mk.injEq]
  refine ⟨field_of_or h (by decide) ?_, field_of_or h (by decide) ?_, field_of_or h (by decide) ?_, field_of_or h (by decide) ?_, field_of_or h (by decide) ?_⟩
  all_goals simp (disch := decide) only [packOpQblk, BitVec.extractLsb'_append_eq_of_add_le, BitVec.extractLsb'_append_eq_of_le,
    BitVec.extractLsb'_eq_self, Nat.reduceSub, Nat.sub_self, BitVec.getLsbD_append, bit, BitVec.getLsbD_ofBool]
  all_goals simp

theorem mask_OpDqblk (o : OpDqblk) : packOpDqblk o &&& 0xfc03c7f8#32 = 0 := by
  have e : 0xfc03c7f8#32 = BitVec.allOnes 6 ++ 0#4 ++ 0#4 ++ BitVec.allOnes 4 ++ 0#3 ++ BitVec.allOnes 8 ++ 0#3 := by decide
  rw [e, packOpDqblk]
  repeat rw [BitVec.and_append]
  simp

theorem read_OpDqblk {b : BitVec 32} (o : OpDqblk) (h : b &&& 0x03fc3807#32 = 0) : readOpDqblk (b ||| packOpDqblk o) = o := by
  cases o
  simp only [readOpDqblk, OpDqblk.mk.injEq]
  refine ⟨field_of_or h (by decide) ?_, field_of_or h (by decide) ?_, field_of_or h (by decide) ?_, field_of_or h (by decide) ?_⟩
  all_goals simp (disch := decide) only [packOpDqblk, BitVec.extractLsb'_append_eq_of_add_le, BitVec.extractLsb'_append_eq_of_le,
    BitVec.extractLsb'_eq_self, Nat.reduceSub, Nat.sub_self, BitVec.getLsbD_append, bit, BitVec.getLsbD_ofBool]
  all_goals simp

theorem mask_OpMx (o : OpMx) : packOpMx o &&& 0xfc003c00#32 = 0 := by
  have e : 0xfc003c00#32 = BitVec.allOnes 6 ++ 0#2 ++ 0#4 ++ 0#6 ++ BitVec.allOnes 4 ++ 0#7 ++ 0#3 := by decide
  rw [e, packOpMx]
  repeat rw [BitVec.and_append]
  simp

theorem read_OpMx {b : BitVec 32} (o : OpMx) (h : b &&& 0x03ffc3ff#32 = 0) : readOpMx (b ||| packOpMx o) = o := by
  cases o
  simp only [readOpMx, OpMx.mk.injEq]
  refine ⟨field_of_or h (by decide) ?_, field_of_or h (by decide) ?_, field_of_or h (by decide) ?_, field_of_or h (by decide) ?_, field_of_or h (by decide) ?_⟩
  all_goals simp (disch := decide) only [packOpMx, BitVec.extractLsb'_append_eq_of_add_le, BitVec.extractLsb'_append_eq_of_le,
    BitVec.extractLsb'_eq_self, Nat.reduceSub, Nat.sub_self, BitVec.getLsbD_append, bit, BitVec.getLsbD_ofBool]
  all_goals simp

theorem mask_OpMst (o : OpMst) : packOpMst o &&& 0xfcf03ff0#32 = 0 := by
  have e : 0xfcf03ff0#32 = BitVec.allOnes 6 ++ 0#2 ++ BitVec.allOnes 4 ++ 0#6 ++ BitVec.allOnes 10 ++ 0#1 ++ 0#3 := by decide
  rw [e, packOpMst]
  repeat rw [BitVec.and_append]
  simp

theorem read_OpMst {b : BitVec 32} (o : OpMst) (h : b &&& 0x030fc00f#32 = 0) : readOpMst (b ||| packOpMst o) = o := by
  cases o
  simp only [readOpMst, OpMst.mk.injEq]
  refine ⟨field_of_or h (by decide) ?_, field_of_or h (by decide) ?_, bit_of_or h (by decide) ?_, field_of_or h (by decide) ?_⟩
  all_goals simp (disch := decide) only [packOpMst, BitVec.extractLsb'_append_eq_of_add_le, BitVec.extractLsb'_append_eq_of_le,
    BitVec.extractLsb'_eq_self, Nat.reduceSub, Nat.sub_self, BitVec.getLsbD_append, bit, BitVec.getLsbD_ofBool]
  all_goals simp

theorem mask_OpMhint (o : OpMhint) : packOpMhint o &&& 0xfffffc00#32 = 0 := by
  have e : 0xfffffc00#32 = BitVec.allOnes 22 ++ 0#7 ++ 0#3 := by decide
  rw [e, packOpMhint]
  repeat rw [BitVec.and_append]
  simp

theorem read_OpMhint {b : BitVec 32} (o : OpMhint) (h : b &&& 0x000003ff#32 = 0) : readOpMhint (b ||| packOpMhint o) = o := by
  cases o
  simp only [readOpMhint, OpMhint.mk.injEq]
  refine ⟨field_of_or h (by decide) ?_, field_of_or h (by decide) ?_⟩
  all_goals simp (disch := decide) only [packOpMhint, BitVec.extractLsb'_append_eq_of_add_le, BitVec.extractLsb'_append_eq_of_le,
    BitVec.extractLsb'_eq_self, Nat.reduceSub, Nat.sub_self, BitVec.getLsbD_append, bit, BitVec.getLsbD_ofBool]
  all_goals simp

theorem mask_OpMfmt (o : OpMfmt) : packOpMfmt o &&& 0xffc03ff8#32 = 0 := by
  have e : 0xffc03ff8#32 = BitVec.allOnes 10 ++ 0#2 ++ 0#6 ++ BitVec.allOnes 11 ++ 0#3 := by decide
  rw [e, packOpMfmt]
  repeat rw [BitVec.and_append]
  simp

theorem read_OpMfmt {b : BitVec 32} (o : OpMfmt) (h : b &&& 0x003fc007#32 = 0) : readOpMfmt (b ||| packOpMfmt o) = o := by
  cases o
  simp only [readOpMfmt, OpMfmt.mk.injEq]
  refine ⟨field_of_or h (by decide) ?_, field_of_or h (by decide) ?_, field_of_or h (by decide) ?_⟩
  all_goals simp (disch := decide) only [packOpMfmt, BitVec.extractLsb'_append_eq_of_add_le, BitVec.extractLsb'_append_eq_of_le,
    BitVec.extractLsb'_eq_self, Nat.reduceSub, Nat.sub_self, BitVec.getLsbD_append, bit, BitVec.getLsbD_ofBool]
  all_goals simp

theorem mask_OpMrd (o : OpMrd) : packOpMrd o &&& 0xfc0fff80#32 = 0 := by
  have e : 0xfc0fff80#32 = BitVec.allOnes 6 ++ 0#2 ++ 0#4 ++ BitVec.allOnes 13 ++ 0#4 ++ 0#3 := by decide
  rw [e, packOpMrd]
  repeat rw [BitVec.and_append]
  simp

theorem read_OpMrd {b : BitVec 32} (o : OpMrd) (h : b &&& 0x03f0007f#32 = 0) : readOpMrd (b ||| packOpMrd o) = o := by
  cases o
  simp only [readOpMrd, OpMrd.mk.injEq]
  refine ⟨field_of_or h (by decide) ?_, field_of_or h (by decide) ?_, field_of_or h (by decide) ?_, field_of_or h (by decide) ?_⟩
  all_goals simp (disch := decide) only [packOpMrd, BitVec.extractLsb'_append_eq_of_add_le, BitVec.extractLsb'_append_eq_of_le,
    BitVec.extractLsb'_eq_self, Nat.reduceSub, Nat.sub_self, BitVec.getLsbD_append, bit, BitVec.getLsbD_ofBool]
  all_goals simp

theorem mask_OpEset (o : OpEset) : packOpEset o &&& 0xfff03c00#32 = 0 := by
  have e : 0xfff03c00#32 = BitVec.allOnes 12 ++ 0#6 ++ BitVec.allOnes 4 ++ 0#2 ++ 0#5 ++ 0#3 := by decide
  rw [e, packOpEset]
  repeat rw [BitVec.and_append]
  simp

theorem read_OpEset {b : BitVec 32} (o : OpEset) (h : b &&& 0x000fc3ff#32 = 0) : readOpEset (b ||| packOpEset o) = o := by
  cases o
  simp only [readOpEset, OpEset.mk.injEq]
  refine ⟨field_of_or h (by decide) ?_, field_of_or h (by decide) ?_, field_of_or h (by decide) ?_, field_of_or h (by decide) ?_⟩
  all_goals simp (disch := decide) only [packOpEset, BitVec.extractLsb'_append_eq_of_add_le, BitVec.extractLsb'_append_eq_of_le,
    BitVec.extractLsb'_eq_self, Nat.reduceSub, Nat.sub_self, BitVec.getLsbD_append, bit, BitVec.getLsbD_ofBool]
  all_goals simp

theorem mask_OpEng (o : OpEng) : packOpEng o &&& 0xfffffcf8#32 = 0 := by
  have e : 0xfffffcf8#32 = BitVec.allOnes 22 ++ 0#2 ++ BitVec.allOnes 5 ++ 0#3 := by decide
  rw [e, packOpEng]
  repeat rw [BitVec.and_append]
  simp

theorem read_OpEng {b : BitVec 32} (o : OpEng) (h : b &&& 0x00000307#32 = 0) : readOpEng (b ||| packOpEng o) = o := by
  cases o
  simp only [readOpEng, OpEng.mk.injEq]
  refine ⟨field_of_or h (by decide) ?_, field_of_or h (by decide) ?_⟩
  all_goals simp (disch := decide) only [packOpEng, BitVec.extractLsb'_append_eq_of_add_le, BitVec.extractLsb'_append_eq_of_le,
    BitVec.extractLsb'_eq_self, Nat.reduceSub, Nat.sub_self, BitVec.getLsbD_append, bit, BitVec.getLsbD_ofBool]
  all_goals simp

theorem mask_OpEstat (o : OpEstat) : packOpEstat o &&& 0xfc0ffcf8#32 = 0 := by
  have e : 0xfc0ffcf8#32 = BitVec.allOnes 6 ++ 0#6 ++ BitVec.allOnes 10 ++ 0#2 ++ BitVec.allOnes 5 ++ 0#3 := by decide
  rw [e, packOpEstat]
  repeat rw [BitVec.and_append]
  simp

theorem read_OpEstat {b : BitVec 32} (o : OpEstat) (h : b &&& 0x03f00307#32 = 0) : readOpEstat (b ||| packOpEstat o) = o := by
  cases o
  simp only [readOpEstat, OpEstat.mk.injEq]
  refine ⟨field_of_or h (by decide) ?_, field_of_or h (by decide) ?_, field_of_or h (by decide) ?_⟩
  all_goals simp (disch := decide) only [packOpEstat, BitVec.extractLsb'_append_eq_of_add_le, BitVec.extractLsb'_append_eq_of_le,
    BitVec.extractLsb'_eq_self, Nat.reduceSub, Nat.sub_self, BitVec.getLsbD_append, bit, BitVec.getLsbD_ofBool]
  all_goals simp

theorem mask_OpSend (o : OpSend) : packOpSend o &&& 0xfc003ff0#32 = 0 := by
  have e : 0xfc003ff0#32 = BitVec.allOnes 6 ++ 0#6 ++ 0#6 ++ BitVec.allOnes 10 ++ 0#1 ++ 0#3 := by decide
  rw [e, packOpSend]
  repeat rw [BitVec.and_append]
  simp

theorem read_OpSend {b : BitVec 32} (o : OpSend) (h : b &&& 0x03ffc00f#32 = 0) : readOpSend (b ||| packOpSend o) = o := by
  cases o
  simp only [readOpSend, OpSend.mk.injEq]
  refine ⟨field_of_or h (by decide) ?_, field_of_or h (by decide) ?_, bit_of_or h (by decide) ?_, field_of_or h (by decide) ?_⟩
  all_goals simp (disch := decide) only [packOpSend, BitVec.extractLsb'_append_eq_of_add_le, BitVec.extractLsb'_append_eq_of_le,
    BitVec.extractLsb'_eq_self, Nat.reduceSub, Nat.sub_self, BitVec.getLsbD_append, bit, BitVec.getLsbD_ofBool]
  all_goals simp

theorem mask_OpDA (o : OpDA) : packOpDA o &&& 0xfc003ff8#32 = 0 := by
  have e : 0xfc003ff8#32 = BitVec.allOnes 6 ++ 0#6 ++ 0#6 ++ BitVec.allOnes 11 ++ 0#3 := by decide
  rw [e, packOpDA]
  repeat rw [BitVec.and_append]
  simp

theorem read_OpDA {b : BitVec 32} (o : OpDA) (h : b &&& 0x03ffc007#32 = 0) : readOpDA (b ||| packOpDA o) = o := by
  cases o
  simp only [readOpDA, OpDA.mk.injEq]
  refine ⟨field_of_or h (by decide) ?_, field_of_or h (by decide) ?_, field_of_or h (by decide) ?_⟩
  all_goals simp (disch := decide) only [packOpDA, BitVec.extractLsb'_append_eq_of_add_le, BitVec.extractLsb'_append_eq_of_le,
    BitVec.extractLsb'_eq_self, Nat.reduceSub, Nat.sub_self, BitVec.getLsbD_append, bit, BitVec.getLsbD_ofBool]
  all_goals simp

theorem mask_OpD (o : OpD) : packOpD o &&& 0xfc0ffff8#32 = 0 := by
  have e : 0xfc0ffff8#32 = BitVec.allOnes 6 ++ 0#6 ++ BitVec.allOnes 17 ++ 0#3 := by decide
  rw [e, packOpD]
  repeat rw [BitVec.and_append]
  simp

theorem read_OpD {b : BitVec 32} (o : OpD) (h : b &&& 0x03f00007#32 = 0) : readOpD (b ||| packOpD o) = o := by
  cases o
  simp only [readOpD, OpD.mk.injEq]
  refine ⟨field_of_or h (by decide) ?_, field_of_or h (by decide) ?_⟩
  all_goals simp (disch := decide) only [packOpD, BitVec.extractLsb'_append_eq_of_add_le, BitVec.extractLsb'_append_eq_of_le,
    BitVec.extractLsb'_eq_self, Nat.reduceSub, Nat.sub_self, BitVec.getLsbD_append, bit, BitVec.getLsbD_ofBool]
  all_goals simp

theorem mask_OpA (o : OpA) : packOpA o &&& 0xfff03ff8#32 = 0 := by
  have e : 0xfff03ff8#32 = BitVec.allOnes 12 ++ 0#6 ++ BitVec.allOnes 11 ++ 0#3 := by decide
  rw [e, packOpA]
  repeat rw [BitVec.and_append]
  simp

theorem read_OpA {b : BitVec 32} (o : OpA) (h : b &&& 0x000fc007#32 = 0) : readOpA (b ||| packOpA o) = o := by
  cases o
  simp only [readOpA, OpA.mk.injEq]
  refine ⟨field_of_or h (by decide) ?_, field_of_or h (by decide) ?_⟩
  all_goals simp (disch := decide) only [packOpA, BitVec.extractLsb'_append_eq_of_add_le, BitVec.extractLsb'_append_eq_of_le,
    BitVec.extractLsb'_eq_self, Nat.reduceSub, Nat.sub_self, BitVec.getLsbD_append, bit, BitVec.getLsbD_ofBool]
  all_goals simp

theorem mask_OpWidf (o : OpWidf) : packOpWidf o &&& 0xfc0fff80#32 = 0 := by
  have e : 0xfc0fff80#32 = BitVec.allOnes 6 ++ 0#6 ++ BitVec.allOnes 13 ++ 0#1 ++ 0#3 ++ 0#3 := by decide
  rw [e, packOpWidf]
  repeat rw [BitVec.and_append]
  simp

theorem read_OpWidf {b : BitVec 32} (o : OpWidf) (h : b &&& 0x03f0007f#32 = 0) : readOpWidf (b ||| packOpWidf o) = o := by
  cases o
  simp only [readOpWidf, OpWidf.mk.injEq]
  refine ⟨field_of_or h (by decide) ?_, bit_of_or h (by decide) ?_, field_of_or h (by decide) ?_, field_of_or h (by decide) ?_⟩
  all_goals simp (disch := decide) only [packOpWidf, BitVec.extractLsb'_append_eq_of_add_le, BitVec.extractLsb'_append_eq_of_le,
    BitVec.extractLsb'_eq_self, Nat.reduceSub, Nat.sub_self, BitVec.getLsbD_append, bit, BitVec.getLsbD_ofBool]
  all_goals simp

theorem mask_OpLdnear (o : OpLdnear) : packOpLdnear o &&& 0xfc003f00#32 = 0 := by
  have e : 0xfc003f00#32 = BitVec.allOnes 6 ++ 0#6 ++ 0#6 ++ BitVec.allOnes 6 ++ 0#1 ++ 0#4 ++ 0#3 := by decide
  rw [e, packOpLdnear]
  repeat rw [BitVec.and_append]
  simp

theorem read_OpLdnear {b : BitVec 32} (o : OpLdnear) (h : b &&& 0x03ffc0ff#32 = 0) : readOpLdnear (b ||| packOpLdnear o) = o := by
  cases o
  simp only [readOpLdnear, OpLdnear.mk.injEq]
  refine ⟨field_of_or h (by decide) ?_, field_of_or h (by decide) ?_, bit_of_or h (by decide) ?_, field_of_or h (by decide) ?_, field_of_or h (by decide) ?_⟩
  all_goals simp (disch := decide) only [packOpLdnear, BitVec.extractLsb'_append_eq_of_add_le, BitVec.extractLsb'_append_eq_of_le,
    BitVec.extractLsb'_eq_self, Nat.reduceSub, Nat.sub_self, BitVec.getLsbD_append, bit, BitVec.getLsbD_ofBool]
  all_goals simp

theorem mask_OpAq (o : OpAq) : packOpAq o &&& 0xfff03f80#32 = 0 := by
  have e : 0xfff03f80#32 = BitVec.allOnes 12 ++ 0#6 ++ BitVec.allOnes 7 ++ 0#4 ++ 0#3 := by decide
  rw [e, packOpAq]
  repeat rw [BitVec.and_append]
  simp

theorem read_OpAq {b : BitVec 32} (o : OpAq) (h : b &&& 0x000fc07f#32 = 0) : readOpAq (b ||| packOpAq o) = o := by
  cases o
  simp only [readOpAq, OpAq.mk.injEq]
  refine ⟨field_of_or h (by decide) ?_, field_of_or h (by decide) ?_, field_of_or h (by decide) ?_⟩
  all_goals simp (disch := decide) only [packOpAq, BitVec.extractLsb'_append_eq_of_add_le, BitVec.extractLsb'_append_eq_of_le,
    BitVec.extractLsb'_eq_self, Nat.reduceSub, Nat.sub_self, BitVec.getLsbD_append, bit, BitVec.getLsbD_ofBool]
  all_goals simp

theorem mask_OpDAq (o : OpDAq) : packOpDAq o &&& 0xfc003f80#32 = 0 := by
  have e : 0xfc003f80#32 = BitVec.allOnes 6 ++ 0#6 ++ 0#6 ++ BitVec.allOnes 7 ++ 0#4 ++ 0#3 := by decide
  rw [e, packOpDAq]
  repeat rw [BitVec.and_append]
  simp

theorem read_OpDAq {b : BitVec 32} (o : OpDAq) (h : b &&& 0x03ffc07f#32 = 0) : readOpDAq (b ||| packOpDAq o) = o := by
  cases o
  simp only [readOpDAq, OpDAq.mk.injEq]
  refine ⟨field_of_or h (by decide) ?_, field_of_or h (by decide) ?_, field_of_or h (by decide) ?_, field_of_or h (by decide) ?_⟩
  all_goals simp (disch := decide) only [packOpDAq, BitVec.extractLsb'_append_eq_of_add_le, BitVec.extractLsb'_append_eq_of_le,
    BitVec.extractLsb'_eq_self, Nat.reduceSub, Nat.sub_self, BitVec.getLsbD_append, bit, BitVec.getLsbD_ofBool]
  all_goals simp

theorem mask_OpTrap (o : OpTrap) : packOpTrap o &&& 0xfffffc00#32 = 0 := by
  have e : 0xfffffc00#32 = BitVec.allOnes 22 ++ 0#7 ++ 0#3 := by decide
  rw [e, packOpTrap]
  repeat rw [BitVec.and_append]
  simp

theorem read_OpTrap {b : BitVec 32} (o : OpTrap) (h : b &&& 0x000003ff#32 = 0) : readOpTrap (b ||| packOpTrap o) = o := by
  cases o
  simp only [readOpTrap, OpTrap.mk.injEq]
  refine ⟨field_of_or h (by decide) ?_, field_of_or h (by decide) ?_⟩
  all_goals simp (disch := decide) only [packOpTrap, BitVec.extractLsb'_append_eq_of_add_le, BitVec.extractLsb'_append_eq_of_le,
    BitVec.extractLsb'_eq_self, Nat.reduceSub, Nat.sub_self, BitVec.getLsbD_append, bit, BitVec.getLsbD_ofBool]
  all_goals simp

theorem mask_OpCsrr (o : OpCsrr) : packOpCsrr o &&& 0xfc0ffc00#32 = 0 := by
  have e : 0xfc0ffc00#32 = BitVec.allOnes 6 ++ 0#6 ++ BitVec.allOnes 10 ++ 0#7 ++ 0#3 := by decide
  rw [e, packOpCsrr]
  repeat rw [BitVec.and_append]
  simp

theorem read_OpCsrr {b : BitVec 32} (o : OpCsrr) (h : b &&& 0x03f003ff#32 = 0) : readOpCsrr (b ||| packOpCsrr o) = o := by
  cases o
  simp only [readOpCsrr, OpCsrr.mk.injEq]
  refine ⟨field_of_or h (by decide) ?_, field_of_or h (by decide) ?_, field_of_or h (by decide) ?_⟩
  all_goals simp (disch := decide) only [packOpCsrr, BitVec.extractLsb'_append_eq_of_add_le, BitVec.extractLsb'_append_eq_of_le,
    BitVec.extractLsb'_eq_self, Nat.reduceSub, Nat.sub_self, BitVec.getLsbD_append, bit, BitVec.getLsbD_ofBool]
  all_goals simp

theorem mask_OpCsrw (o : OpCsrw) : packOpCsrw o &&& 0xfc003c00#32 = 0 := by
  have e : 0xfc003c00#32 = BitVec.allOnes 6 ++ 0#6 ++ 0#6 ++ BitVec.allOnes 4 ++ 0#7 ++ 0#3 := by decide
  rw [e, packOpCsrw]
  repeat rw [BitVec.and_append]
  simp

theorem read_OpCsrw {b : BitVec 32} (o : OpCsrw) (h : b &&& 0x03ffc3ff#32 = 0) : readOpCsrw (b ||| packOpCsrw o) = o := by
  cases o
  simp only [readOpCsrw, OpCsrw.mk.injEq]
  refine ⟨field_of_or h (by decide) ?_, field_of_or h (by decide) ?_, field_of_or h (by decide) ?_, field_of_or h (by decide) ?_⟩
  all_goals simp (disch := decide) only [packOpCsrw, BitVec.extractLsb'_append_eq_of_add_le, BitVec.extractLsb'_append_eq_of_le,
    BitVec.extractLsb'_eq_self, Nat.reduceSub, Nat.sub_self, BitVec.getLsbD_append, bit, BitVec.getLsbD_ofBool]
  all_goals simp

theorem mask_OpCtxsave (o : OpCtxsave) : packOpCtxsave o &&& 0xfc003f00#32 = 0 := by
  have e : 0xfc003f00#32 = BitVec.allOnes 6 ++ 0#6 ++ 0#6 ++ BitVec.allOnes 6 ++ 0#5 ++ 0#3 := by decide
  rw [e, packOpCtxsave]
  repeat rw [BitVec.and_append]
  simp

theorem read_OpCtxsave {b : BitVec 32} (o : OpCtxsave) (h : b &&& 0x03ffc0ff#32 = 0) : readOpCtxsave (b ||| packOpCtxsave o) = o := by
  cases o
  simp only [readOpCtxsave, OpCtxsave.mk.injEq]
  refine ⟨field_of_or h (by decide) ?_, field_of_or h (by decide) ?_, field_of_or h (by decide) ?_, field_of_or h (by decide) ?_⟩
  all_goals simp (disch := decide) only [packOpCtxsave, BitVec.extractLsb'_append_eq_of_add_le, BitVec.extractLsb'_append_eq_of_le,
    BitVec.extractLsb'_eq_self, Nat.reduceSub, Nat.sub_self, BitVec.getLsbD_append, bit, BitVec.getLsbD_ofBool]
  all_goals simp

theorem mask_OpCtxload (o : OpCtxload) : packOpCtxload o &&& 0xfc003e00#32 = 0 := by
  have e : 0xfc003e00#32 = BitVec.allOnes 6 ++ 0#6 ++ 0#6 ++ BitVec.allOnes 5 ++ 0#1 ++ 0#5 ++ 0#3 := by decide
  rw [e, packOpCtxload]
  repeat rw [BitVec.and_append]
  simp

theorem read_OpCtxload {b : BitVec 32} (o : OpCtxload) (h : b &&& 0x03ffc1ff#32 = 0) : readOpCtxload (b ||| packOpCtxload o) = o := by
  cases o
  simp only [readOpCtxload, OpCtxload.mk.injEq]
  refine ⟨field_of_or h (by decide) ?_, field_of_or h (by decide) ?_, bit_of_or h (by decide) ?_, field_of_or h (by decide) ?_, field_of_or h (by decide) ?_⟩
  all_goals simp (disch := decide) only [packOpCtxload, BitVec.extractLsb'_append_eq_of_add_le, BitVec.extractLsb'_append_eq_of_le,
    BitVec.extractLsb'_eq_self, Nat.reduceSub, Nat.sub_self, BitVec.getLsbD_append, bit, BitVec.getLsbD_ofBool]
  all_goals simp

/-! ## Families -/

theorem decodeRow_Sys {w : BitVec 32} (h : w.extractLsb' 26 6 = 0#6) : decodeRow w = decodeSys w := by
  simp [decodeRow, h]

theorem decodeSys_SysMisc {w : BitVec 32} (h : w.extractLsb' 10 4 = 0#4) : decodeSys w = decodeSysMisc w := by
  simp [decodeSys, h]

theorem decodeSys_Seatctl {w : BitVec 32} (h : w.extractLsb' 10 4 = 8#4) : decodeSys w = decodeSeatctl w := by
  simp [decodeSys, h]

theorem decodeRow_Alu {w : BitVec 32} (h : w.extractLsb' 26 6 = 1#6) : decodeRow w = decodeAlu w := by
  simp [decodeRow, h]

theorem decodeRow_Shm {w : BitVec 32} (h : w.extractLsb' 26 6 = 2#6) : decodeRow w = decodeShm w := by
  simp [decodeRow, h]

theorem decodeRow_Mul {w : BitVec 32} (h : w.extractLsb' 26 6 = 3#6) : decodeRow w = decodeMul w := by
  simp [decodeRow, h]

theorem decodeRow_Bit {w : BitVec 32} (h : w.extractLsb' 26 6 = 4#6) : decodeRow w = decodeBit w := by
  simp [decodeRow, h]

theorem decodeRow_Cmp {w : BitVec 32} (h : w.extractLsb' 26 6 = 5#6) : decodeRow w = decodeCmp w := by
  simp [decodeRow, h]

theorem decodeRow_Adr {w : BitVec 32} (h : w.extractLsb' 26 6 = 6#6) : decodeRow w = decodeAdr w := by
  simp [decodeRow, h]

theorem decodeRow_Shi {w : BitVec 32} (h : w.extractLsb' 26 6 = 12#6) : decodeRow w = decodeShi w := by
  simp [decodeRow, h]

theorem decodeRow_Cmpi {w : BitVec 32} (h : w.extractLsb' 26 6 = 13#6) : decodeRow w = decodeCmpi w := by
  simp [decodeRow, h]

theorem decodeRow_Jmp {w : BitVec 32} (h : w.extractLsb' 26 6 = 22#6) : decodeRow w = decodeJmp w := by
  simp [decodeRow, h]

theorem decodeRow_Prd {w : BitVec 32} (h : w.extractLsb' 26 6 = 24#6) : decodeRow w = decodePrd w := by
  simp [decodeRow, h]

theorem decodeRow_Sync {w : BitVec 32} (h : w.extractLsb' 26 6 = 38#6) : decodeRow w = decodeSync w := by
  simp [decodeRow, h]

theorem decodeRow_Rmt {w : BitVec 32} (h : w.extractLsb' 26 6 = 39#6) : decodeRow w = decodeRmt w := by
  simp [decodeRow, h]

theorem decodeRow_Atl {w : BitVec 32} (h : w.extractLsb' 26 6 = 40#6) : decodeRow w = decodeAtl w := by
  simp [decodeRow, h]

theorem decodeRow_Atg {w : BitVec 32} (h : w.extractLsb' 26 6 = 41#6) : decodeRow w = decodeAtg w := by
  simp [decodeRow, h]

theorem decodeRow_Red {w : BitVec 32} (h : w.extractLsb' 26 6 = 42#6) : decodeRow w = decodeRed w := by
  simp [decodeRow, h]

theorem decodeRow_Fen {w : BitVec 32} (h : w.extractLsb' 26 6 = 43#6) : decodeRow w = decodeFen w := by
  simp [decodeRow, h]

theorem decodeRow_Qop {w : BitVec 32} (h : w.extractLsb' 26 6 = 44#6) : decodeRow w = decodeQop w := by
  simp [decodeRow, h]

theorem decodeRow_Vmem {w : BitVec 32} (h : w.extractLsb' 26 6 = 48#6) : decodeRow w = decodeVmem w := by
  simp [decodeRow, h]

theorem decodeRow_Vfa {w : BitVec 32} (h : w.extractLsb' 26 6 = 49#6) : decodeRow w = decodeVfa w := by
  simp [decodeRow, h]

theorem decodeRow_Via {w : BitVec 32} (h : w.extractLsb' 26 6 = 50#6) : decodeRow w = decodeVia w := by
  simp [decodeRow, h]

theorem decodeRow_Vcmp {w : BitVec 32} (h : w.extractLsb' 26 6 = 51#6) : decodeRow w = decodeVcmp w := by
  simp [decodeRow, h]

theorem decodeRow_Vxs {w : BitVec 32} (h : w.extractLsb' 26 6 = 52#6) : decodeRow w = decodeVxs w := by
  simp [decodeRow, h]

theorem decodeRow_Vprm {w : BitVec 32} (h : w.extractLsb' 26 6 = 53#6) : decodeRow w = decodeVprm w := by
  simp [decodeRow, h]

theorem decodeRow_Vcvt {w : BitVec 32} (h : w.extractLsb' 26 6 = 54#6) : decodeRow w = decodeVcvt w := by
  simp [decodeRow, h]

theorem decodeRow_Vsfu {w : BitVec 32} (h : w.extractLsb' 26 6 = 55#6) : decodeRow w = decodeVsfu w := by
  simp [decodeRow, h]

theorem decodeRow_Mx {w : BitVec 32} (h : w.extractLsb' 26 6 = 56#6) : decodeRow w = decodeMx w := by
  simp [decodeRow, h]

theorem decodeRow_Eng {w : BitVec 32} (h : w.extractLsb' 26 6 = 58#6) : decodeRow w = decodeEng w := by
  simp [decodeRow, h]

theorem decodeRow_Msg {w : BitVec 32} (h : w.extractLsb' 26 6 = 59#6) : decodeRow w = decodeMsg w := by
  simp [decodeRow, h]

theorem decodeRow_Idx {w : BitVec 32} (h : w.extractLsb' 26 6 = 60#6) : decodeRow w = decodeIdx w := by
  simp [decodeRow, h]

theorem decodeRow_Pos {w : BitVec 32} (h : w.extractLsb' 26 6 = 61#6) : decodeRow w = decodePos w := by
  simp [decodeRow, h]

end Sys2Proof.Laws

end
end

