-- ==== Sys2Proof/Laws/Store.lean ====
section
/-!
SUPPORT. Laws of the sparse maps, of the sets of numbers and of bytes of memory: a read after a write, what a write leaves alone, and that
every memory operation keeps the canonical form.
-/

set_option Elab.async false

namespace Sys2Proof.Machine

/-! ## Sparse maps -/

@[simp] theorem FMap.find?_nil {α : Type} (n : Nat) : FMap.find? ([] : FMap α) n = none := rfl

@[simp] theorem FMap.find?_insert_self {α : Type} (m : FMap α) (n : Nat) (x : α) : FMap.find? (FMap.insert m n x) n = some x := by
  induction m with
  | nil => simp [FMap.insert, FMap.find?]
  | cons p rest ih =>
    obtain ⟨k, v⟩ := p
    simp only [FMap.insert]
    split
    · simp [FMap.find?]
    · split
      · simp [FMap.find?]
      · simp [FMap.find?, *]

@[simp] theorem FMap.find?_insert_ne {α : Type} (m : FMap α) {n k : Nat} (x : α) (h : k ≠ n) :
    FMap.find? (FMap.insert m n x) k = FMap.find? m k := by
  induction m with
  | nil => simp [FMap.insert, FMap.find?, h]
  | cons p rest ih =>
    obtain ⟨j, v⟩ := p
    simp only [FMap.insert]
    split
    · simp [FMap.find?, h]
    · split
      · subst n; simp [FMap.find?, h]
      · simp [FMap.find?, ih]

@[simp] theorem FMap.find?_erase_ne {α : Type} (m : FMap α) {n k : Nat} (h : k ≠ n) :
    FMap.find? (FMap.erase m n) k = FMap.find? m k := by
  induction m with
  | nil => rfl
  | cons p rest ih =>
    obtain ⟨j, v⟩ := p
    simp only [FMap.erase]
    split
    · subst n; simp [FMap.find?, h]
    · simp [FMap.find?, ih]

@[simp] theorem FMap.find?_modify_self {α : Type} (m : FMap α) (n : Nat) (f : α → α) :
    FMap.find? (FMap.modify m n f) n = (FMap.find? m n).map f := by
  simp only [FMap.modify]
  split <;> simp [*]

@[simp] theorem FMap.find?_modify_ne {α : Type} (m : FMap α) {n k : Nat} (f : α → α) (h : k ≠ n) :
    FMap.find? (FMap.modify m n f) k = FMap.find? m k := by
  simp only [FMap.modify]
  split <;> simp [*]

/-! ## Bytes of memory -/

theorem Mem.wf_cons {k : Nat} {v : Byte} {rest : Mem} (h : Mem.wf ((k, v) :: rest) = true) :
    v ≠ 0 ∧ Mem.wf rest = true ∧ ∀ p ∈ rest, k < p.1 := by
  induction rest generalizing k v with
  | nil => simpa [Mem.wf] using h
  | cons p rest ih =>
    obtain ⟨j, w⟩ := p
    simp only [Mem.wf, Bool.and_eq_true, decide_eq_true_eq, bne_iff_ne, ne_eq] at h
    obtain ⟨⟨h1, h2⟩, h3⟩ := h
    refine ⟨h2, h3, fun q hq => ?_⟩
    rcases List.mem_cons.1 hq with rfl | hq
    · exact h1
    · exact Nat.lt_trans h1 ((ih h3).2.2 q hq)

theorem Mem.wf_of_cons {k : Nat} {v : Byte} {rest : Mem} (hv : v ≠ 0) (hr : Mem.wf rest = true) (hk : ∀ p ∈ rest, k < p.1) :
    Mem.wf ((k, v) :: rest) = true := by
  cases rest with
  | nil => simpa [Mem.wf] using hv
  | cons p rest => exact (by simpa [Mem.wf, hr, hk p (by simp)] using hv)

theorem Mem.mem_write {m : Mem} {n : Nat} {x : Byte} {p : Nat × Byte} (h : p ∈ Mem.write m n x) : p ∈ m ∨ p = (n, x) := by
  induction m with
  | nil => simp only [Mem.write] at h; split at h <;> simp_all
  | cons q rest ih =>
    obtain ⟨k, v⟩ := q
    simp only [Mem.write] at h
    split at h
    · split at h
      · exact .inl h
      · rcases List.mem_cons.1 h with h | h
        · exact .inr h
        · exact .inl h
    · split at h
      · split at h
        · exact .inl (List.mem_cons_of_mem _ h)
        · rcases List.mem_cons.1 h with h | h
          · exact .inr h
          · exact .inl (List.mem_cons_of_mem _ h)
      · rcases List.mem_cons.1 h with h | h
        · exact .inl (by simp [h])
        · rcases ih h with h | h
          · exact .inl (List.mem_cons_of_mem _ h)
          · exact .inr h

/-- A write keeps the canonical form. -/
@[simp] theorem Mem.wf_write {m : Mem} (h : Mem.wf m = true) (n : Nat) (x : Byte) : Mem.wf (Mem.write m n x) = true := by
  induction m with
  | nil => simp only [Mem.write]; split <;> simp_all [Mem.wf]
  | cons p rest ih =>
    obtain ⟨k, v⟩ := p
    obtain ⟨hv, hr, hk⟩ := Mem.wf_cons h
    simp only [Mem.write]
    split
    · rename_i hn
      split
      · exact h
      · rename_i hx
        refine Mem.wf_of_cons hx h fun p hp => ?_
        rcases List.mem_cons.1 hp with rfl | hp
        · exact hn
        · exact Nat.lt_trans hn (hk p hp)
    · split
      · split
        · exact hr
        · rename_i hnk hx
          exact Mem.wf_of_cons hx hr fun p hp => by subst hnk; exact hk p hp
      · rename_i h1 h2
        refine Mem.wf_of_cons hv (ih hr) fun p hp => ?_
        rcases Mem.mem_write hp with hp | rfl
        · exact hk p hp
        · show k < n
          omega

theorem Mem.read_eq_zero {m : Mem} {n : Nat} (h : ∀ p ∈ m, n ≠ p.1) : Mem.read m n = 0 := by
  induction m with
  | nil => rfl
  | cons p rest ih =>
    obtain ⟨k, v⟩ := p
    have h1 := h (k, v) (by simp)
    simp only [Mem.read]
    rw [if_neg h1]
    exact ih fun q hq => h q (by simp [hq])

/-- A byte written reads back. -/
@[simp] theorem Mem.read_write_self {m : Mem} (h : Mem.wf m = true) (n : Nat) (x : Byte) : Mem.read (Mem.write m n x) n = x := by
  induction m with
  | nil =>
    simp only [Mem.write]
    split
    · simp_all [Mem.read]
    · simp [Mem.read]
  | cons p rest ih =>
    obtain ⟨k, v⟩ := p
    obtain ⟨hv, hr, hk⟩ := Mem.wf_cons h
    simp only [Mem.write]
    split
    · rename_i hn
      split
      · rename_i hx
        rw [hx]
        refine Mem.read_eq_zero fun q hq => ?_
        rcases List.mem_cons.1 hq with rfl | hq
        · exact Nat.ne_of_lt hn
        · exact Nat.ne_of_lt (Nat.lt_trans hn (hk q hq))
      · simp [Mem.read]
    · split
      · rename_i hnk
        split
        · rename_i hx
          rw [hx]
          exact Mem.read_eq_zero fun q hq => by subst hnk; exact Nat.ne_of_lt (hk q hq)
        · simp [Mem.read]
      · rename_i hnk
        simp only [Mem.read]
        rw [if_neg hnk]
        exact ih hr

/-- A write leaves every other byte alone. -/
@[simp] theorem Mem.read_write_ne (m : Mem) {n k : Nat} (x : Byte) (h : k ≠ n) : Mem.read (Mem.write m n x) k = Mem.read m k := by
  induction m with
  | nil => simp only [Mem.write]; split <;> simp [Mem.read, h]
  | cons p rest ih =>
    obtain ⟨j, v⟩ := p
    simp only [Mem.write]
    split
    · split <;> simp [Mem.read, h]
    · split
      · subst n
        split <;> simp [Mem.read, h]
      · simp [Mem.read, ih]

@[simp] theorem Mem.wf_writeNat {m : Mem} (h : Mem.wf m = true) (a n x : Nat) : Mem.wf (Mem.writeNat m a n x) = true := by
  induction n generalizing m a x with
  | zero => exact h
  | succ n ih => exact ih (Mem.wf_write h _ _) _ _

@[simp] theorem Mem.wf_write64 {m : Mem} (h : Mem.wf m = true) (a : Nat) (w : Word) : Mem.wf (Mem.write64 m a w) = true :=
  Mem.wf_writeNat h a 8 w.toNat

@[simp] theorem Mem.wf_writeMask {m : Mem} (h : Mem.wf m = true) (a n k x : Nat) : Mem.wf (Mem.writeMask m a n k x) = true := by
  induction n generalizing m a k x with
  | zero => exact h
  | succ n ih =>
    simp only [Mem.writeMask]
    split
    · exact ih (Mem.wf_write h _ _) _ _ _
    · exact ih h _ _ _

/-- A write of n bytes leaves the bytes outside them alone. -/
theorem Mem.read_writeNat_ne (m : Mem) (a n x : Nat) {k : Nat} (h : k < a ∨ a + n ≤ k) :
    Mem.read (Mem.writeNat m a n x) k = Mem.read m k := by
  induction n generalizing m a x with
  | zero => rfl
  | succ n ih =>
    simp only [Mem.writeNat]
    rw [ih _ _ _ (by omega), Mem.read_write_ne _ _ (by omega)]

/-- A masked write leaves the bytes outside its extent alone. -/
theorem Mem.read_writeMask_ne (m : Mem) (a n w x : Nat) {k : Nat} (h : k < a ∨ a + n ≤ k) :
    Mem.read (Mem.writeMask m a n w x) k = Mem.read m k := by
  induction n generalizing m a w x with
  | zero => rfl
  | succ n ih =>
    simp only [Mem.writeMask]
    rw [ih _ _ _ _ (by omega)]
    split
    · rw [Mem.read_write_ne _ _ (by omega)]
    · rfl

/-- A masked write of a byte that the mask does not enable leaves it alone. -/
theorem Mem.read_writeMask_off (m : Mem) (a n w x : Nat) {k : Nat} (h : w.testBit (k - a) = false) (hk : a ≤ k) :
    Mem.read (Mem.writeMask m a n w x) k = Mem.read m k := by
  induction n generalizing m a w x with
  | zero => rfl
  | succ n ih =>
    simp only [Mem.writeMask]
    by_cases hka : k = a
    · subst hka
      have h0 : w % 2 ≠ 1 := by
        intro h1
        simp [Nat.testBit_zero, h1] at h
      rw [Mem.read_writeMask_ne _ _ _ _ _ (Or.inl (by omega)), if_neg h0]
    · have e : k - a = (k - (a + 1)) + 1 := by omega
      rw [ih _ _ _ _ (by rw [e, Nat.testBit_succ] at h; exact h) (by omega)]
      split
      · rw [Mem.read_write_ne _ _ hka]
      · rfl

/-- The bytes of a write of n bytes read back as the number written. -/
theorem Mem.readNat_writeNat {m : Mem} (h : Mem.wf m = true) (a n x : Nat) :
    Mem.readNat (Mem.writeNat m a n x) a n = x % 256 ^ n := by
  induction n generalizing m a x with
  | zero => simp [Mem.readNat, Nat.mod_one]
  | succ n ih =>
    simp only [Mem.readNat, Mem.writeNat]
    rw [ih (Mem.wf_write h _ _), Mem.read_writeNat_ne _ _ _ _ (Or.inl (by omega)), Mem.read_write_self h]
    rw [BitVec.toNat_ofNat, show 2 ^ 8 = 256 from rfl, show 256 ^ (n + 1) = 256 * 256 ^ n by ring, Nat.mod_mul]

/-- A word written reads back. -/
@[simp] theorem Mem.read64_write64 {m : Mem} (h : Mem.wf m = true) (a : Nat) (w : Word) : Mem.read64 (Mem.write64 m a w) a = w := by
  simp only [Mem.read64, Mem.write64]
  rw [Mem.readNat_writeNat h]
  apply BitVec.eq_of_toNat_eq
  have := w.isLt
  simp only [BitVec.toNat_ofNat]
  rw [Nat.mod_eq_of_lt (show w.toNat < 256 ^ 8 by omega), Nat.mod_eq_of_lt this]

/-! ## Vectors -/

@[simp] theorem vget_vset_self {α : Type} {n : Nat} (v : Vector α n) {i : Nat} (x d : α) (h : i < n) : vget (vset v i x) i d = x := by
  simp [vget, vset, h]

@[simp] theorem vget_vset_ne {α : Type} {n : Nat} (v : Vector α n) {i j : Nat} (x d : α) (h : j ≠ i) :
    vget (vset v i x) j d = vget v j d := by
  simp only [vget, vset]
  rw [Vector.getElem?_setIfInBounds_ne (Ne.symm h)]

end Sys2Proof.Machine
end

