-- ==== Sys2Proof/Laws/State.lean ====
section
/-!
SUPPORT. What each update of State leaves alone, field by field, and what a read of the unit that it writes gives.
-/

set_option Elab.async false

namespace Sys2Proof.Machine

/-! ## State.setThread -/

@[simp] theorem State.setThread_part (s : State) (uid : Nat) (t : Thread) : (s.setThread uid t).part = s.part := rfl
@[simp] theorem State.setThread_device (s : State) (uid : Nat) (t : Thread) : (s.setThread uid t).device = s.device := rfl
@[simp] theorem State.setThread_cycle (s : State) (uid : Nat) (t : Thread) : (s.setThread uid t).cycle = s.cycle := rfl
@[simp] theorem State.setThread_cur (s : State) (uid : Nat) (t : Thread) : (s.setThread uid t).cur = s.cur := rfl
@[simp] theorem State.setThread_mem (s : State) (uid : Nat) (t : Thread) : (s.setThread uid t).mem = s.mem := rfl
@[simp] theorem State.setThread_tables (s : State) (uid : Nat) (t : Thread) : (s.setThread uid t).tables = s.tables := rfl
@[simp] theorem State.setThread_net (s : State) (uid : Nat) (t : Thread) : (s.setThread uid t).net = s.net := rfl
@[simp] theorem State.setThread_disp (s : State) (uid : Nat) (t : Thread) : (s.setThread uid t).disp = s.disp := rfl
@[simp] theorem State.setThread_indexes (s : State) (uid : Nat) (t : Thread) : (s.setThread uid t).indexes = s.indexes := rfl
@[simp] theorem State.setThread_fw (s : State) (uid : Nat) (t : Thread) : (s.setThread uid t).fw = s.fw := rfl
@[simp] theorem State.setThread_host (s : State) (uid : Nat) (t : Thread) : (s.setThread uid t).host = s.host := rfl
@[simp] theorem State.setThread_sched (s : State) (uid : Nat) (t : Thread) : (s.setThread uid t).sched = s.sched := rfl
@[simp] theorem State.setThread_picks (s : State) (uid : Nat) (t : Thread) : (s.setThread uid t).picks = s.picks := rfl
@[simp] theorem State.setThread_work (s : State) (uid : Nat) (t : Thread) : (s.setThread uid t).work = s.work := rfl
@[simp] theorem State.setThread_freeCtr (s : State) (uid : Nat) (t : Thread) : (s.setThread uid t).freeCtr = s.freeCtr := rfl
@[simp] theorem State.setThread_fab_seats (s : State) (uid : Nat) (t : Thread) : (s.setThread uid t).fab.seats = s.fab.seats := rfl
@[simp] theorem State.setThread_fab_cores (s : State) (uid : Nat) (t : Thread) : (s.setThread uid t).fab.cores = s.fab.cores := rfl
@[simp] theorem State.setThread_fab_tiles (s : State) (uid : Nat) (t : Thread) : (s.setThread uid t).fab.tiles = s.fab.tiles := rfl
@[simp] theorem State.setThread_fab_clusters (s : State) (uid : Nat) (t : Thread) : (s.setThread uid t).fab.clusters = s.fab.clusters := rfl
@[simp] theorem State.setThread_fab_banks (s : State) (uid : Nat) (t : Thread) : (s.setThread uid t).fab.banks = s.fab.banks := rfl
@[simp] theorem State.setThread_fab_engines (s : State) (uid : Nat) (t : Thread) : (s.setThread uid t).fab.engines = s.fab.engines := rfl
@[simp] theorem State.setThread_fab_collectives (s : State) (uid : Nat) (t : Thread) : (s.setThread uid t).fab.collectives = s.fab.collectives := rfl
@[simp] theorem State.setThread_fab_doublets (s : State) (uid : Nat) (t : Thread) : (s.setThread uid t).fab.doublets = s.fab.doublets := rfl

/-! ## State.modThread -/

@[simp] theorem State.modThread_part (s : State) (uid : Nat) (f : Thread → Thread) : (s.modThread uid f).part = s.part := rfl
@[simp] theorem State.modThread_device (s : State) (uid : Nat) (f : Thread → Thread) : (s.modThread uid f).device = s.device := rfl
@[simp] theorem State.modThread_cycle (s : State) (uid : Nat) (f : Thread → Thread) : (s.modThread uid f).cycle = s.cycle := rfl
@[simp] theorem State.modThread_cur (s : State) (uid : Nat) (f : Thread → Thread) : (s.modThread uid f).cur = s.cur := rfl
@[simp] theorem State.modThread_mem (s : State) (uid : Nat) (f : Thread → Thread) : (s.modThread uid f).mem = s.mem := rfl
@[simp] theorem State.modThread_tables (s : State) (uid : Nat) (f : Thread → Thread) : (s.modThread uid f).tables = s.tables := rfl
@[simp] theorem State.modThread_net (s : State) (uid : Nat) (f : Thread → Thread) : (s.modThread uid f).net = s.net := rfl
@[simp] theorem State.modThread_disp (s : State) (uid : Nat) (f : Thread → Thread) : (s.modThread uid f).disp = s.disp := rfl
@[simp] theorem State.modThread_indexes (s : State) (uid : Nat) (f : Thread → Thread) : (s.modThread uid f).indexes = s.indexes := rfl
@[simp] theorem State.modThread_fw (s : State) (uid : Nat) (f : Thread → Thread) : (s.modThread uid f).fw = s.fw := rfl
@[simp] theorem State.modThread_host (s : State) (uid : Nat) (f : Thread → Thread) : (s.modThread uid f).host = s.host := rfl
@[simp] theorem State.modThread_sched (s : State) (uid : Nat) (f : Thread → Thread) : (s.modThread uid f).sched = s.sched := rfl
@[simp] theorem State.modThread_picks (s : State) (uid : Nat) (f : Thread → Thread) : (s.modThread uid f).picks = s.picks := rfl
@[simp] theorem State.modThread_work (s : State) (uid : Nat) (f : Thread → Thread) : (s.modThread uid f).work = s.work := rfl
@[simp] theorem State.modThread_freeCtr (s : State) (uid : Nat) (f : Thread → Thread) : (s.modThread uid f).freeCtr = s.freeCtr := rfl
@[simp] theorem State.modThread_fab_seats (s : State) (uid : Nat) (f : Thread → Thread) : (s.modThread uid f).fab.seats = s.fab.seats := rfl
@[simp] theorem State.modThread_fab_cores (s : State) (uid : Nat) (f : Thread → Thread) : (s.modThread uid f).fab.cores = s.fab.cores := rfl
@[simp] theorem State.modThread_fab_tiles (s : State) (uid : Nat) (f : Thread → Thread) : (s.modThread uid f).fab.tiles = s.fab.tiles := rfl
@[simp] theorem State.modThread_fab_clusters (s : State) (uid : Nat) (f : Thread → Thread) : (s.modThread uid f).fab.clusters = s.fab.clusters := rfl
@[simp] theorem State.modThread_fab_banks (s : State) (uid : Nat) (f : Thread → Thread) : (s.modThread uid f).fab.banks = s.fab.banks := rfl
@[simp] theorem State.modThread_fab_engines (s : State) (uid : Nat) (f : Thread → Thread) : (s.modThread uid f).fab.engines = s.fab.engines := rfl
@[simp] theorem State.modThread_fab_collectives (s : State) (uid : Nat) (f : Thread → Thread) : (s.modThread uid f).fab.collectives = s.fab.collectives := rfl
@[simp] theorem State.modThread_fab_doublets (s : State) (uid : Nat) (f : Thread → Thread) : (s.modThread uid f).fab.doublets = s.fab.doublets := rfl

/-! ## State.dropThread -/

@[simp] theorem State.dropThread_part (s : State) (uid : Nat) : (s.dropThread uid).part = s.part := rfl
@[simp] theorem State.dropThread_device (s : State) (uid : Nat) : (s.dropThread uid).device = s.device := rfl
@[simp] theorem State.dropThread_cycle (s : State) (uid : Nat) : (s.dropThread uid).cycle = s.cycle := rfl
@[simp] theorem State.dropThread_cur (s : State) (uid : Nat) : (s.dropThread uid).cur = s.cur := rfl
@[simp] theorem State.dropThread_mem (s : State) (uid : Nat) : (s.dropThread uid).mem = s.mem := rfl
@[simp] theorem State.dropThread_tables (s : State) (uid : Nat) : (s.dropThread uid).tables = s.tables := rfl
@[simp] theorem State.dropThread_net (s : State) (uid : Nat) : (s.dropThread uid).net = s.net := rfl
@[simp] theorem State.dropThread_disp (s : State) (uid : Nat) : (s.dropThread uid).disp = s.disp := rfl
@[simp] theorem State.dropThread_indexes (s : State) (uid : Nat) : (s.dropThread uid).indexes = s.indexes := rfl
@[simp] theorem State.dropThread_fw (s : State) (uid : Nat) : (s.dropThread uid).fw = s.fw := rfl
@[simp] theorem State.dropThread_host (s : State) (uid : Nat) : (s.dropThread uid).host = s.host := rfl
@[simp] theorem State.dropThread_sched (s : State) (uid : Nat) : (s.dropThread uid).sched = s.sched := rfl
@[simp] theorem State.dropThread_picks (s : State) (uid : Nat) : (s.dropThread uid).picks = s.picks := rfl
@[simp] theorem State.dropThread_work (s : State) (uid : Nat) : (s.dropThread uid).work = s.work := rfl
@[simp] theorem State.dropThread_freeCtr (s : State) (uid : Nat) : (s.dropThread uid).freeCtr = s.freeCtr := rfl
@[simp] theorem State.dropThread_fab_seats (s : State) (uid : Nat) : (s.dropThread uid).fab.seats = s.fab.seats := rfl
@[simp] theorem State.dropThread_fab_cores (s : State) (uid : Nat) : (s.dropThread uid).fab.cores = s.fab.cores := rfl
@[simp] theorem State.dropThread_fab_tiles (s : State) (uid : Nat) : (s.dropThread uid).fab.tiles = s.fab.tiles := rfl
@[simp] theorem State.dropThread_fab_clusters (s : State) (uid : Nat) : (s.dropThread uid).fab.clusters = s.fab.clusters := rfl
@[simp] theorem State.dropThread_fab_banks (s : State) (uid : Nat) : (s.dropThread uid).fab.banks = s.fab.banks := rfl
@[simp] theorem State.dropThread_fab_engines (s : State) (uid : Nat) : (s.dropThread uid).fab.engines = s.fab.engines := rfl
@[simp] theorem State.dropThread_fab_collectives (s : State) (uid : Nat) : (s.dropThread uid).fab.collectives = s.fab.collectives := rfl
@[simp] theorem State.dropThread_fab_doublets (s : State) (uid : Nat) : (s.dropThread uid).fab.doublets = s.fab.doublets := rfl

/-! ## State.setSeat -/

@[simp] theorem State.setSeat_part (s : State) (n : Nat) (x : Seat) : (s.setSeat n x).part = s.part := rfl
@[simp] theorem State.setSeat_device (s : State) (n : Nat) (x : Seat) : (s.setSeat n x).device = s.device := rfl
@[simp] theorem State.setSeat_cycle (s : State) (n : Nat) (x : Seat) : (s.setSeat n x).cycle = s.cycle := rfl
@[simp] theorem State.setSeat_cur (s : State) (n : Nat) (x : Seat) : (s.setSeat n x).cur = s.cur := rfl
@[simp] theorem State.setSeat_mem (s : State) (n : Nat) (x : Seat) : (s.setSeat n x).mem = s.mem := rfl
@[simp] theorem State.setSeat_tables (s : State) (n : Nat) (x : Seat) : (s.setSeat n x).tables = s.tables := rfl
@[simp] theorem State.setSeat_net (s : State) (n : Nat) (x : Seat) : (s.setSeat n x).net = s.net := rfl
@[simp] theorem State.setSeat_disp (s : State) (n : Nat) (x : Seat) : (s.setSeat n x).disp = s.disp := rfl
@[simp] theorem State.setSeat_indexes (s : State) (n : Nat) (x : Seat) : (s.setSeat n x).indexes = s.indexes := rfl
@[simp] theorem State.setSeat_fw (s : State) (n : Nat) (x : Seat) : (s.setSeat n x).fw = s.fw := rfl
@[simp] theorem State.setSeat_host (s : State) (n : Nat) (x : Seat) : (s.setSeat n x).host = s.host := rfl
@[simp] theorem State.setSeat_sched (s : State) (n : Nat) (x : Seat) : (s.setSeat n x).sched = s.sched := rfl
@[simp] theorem State.setSeat_picks (s : State) (n : Nat) (x : Seat) : (s.setSeat n x).picks = s.picks := rfl
@[simp] theorem State.setSeat_work (s : State) (n : Nat) (x : Seat) : (s.setSeat n x).work = s.work := rfl
@[simp] theorem State.setSeat_freeCtr (s : State) (n : Nat) (x : Seat) : (s.setSeat n x).freeCtr = s.freeCtr := rfl
@[simp] theorem State.setSeat_fab_threads (s : State) (n : Nat) (x : Seat) : (s.setSeat n x).fab.threads = s.fab.threads := rfl
@[simp] theorem State.setSeat_fab_cores (s : State) (n : Nat) (x : Seat) : (s.setSeat n x).fab.cores = s.fab.cores := rfl
@[simp] theorem State.setSeat_fab_tiles (s : State) (n : Nat) (x : Seat) : (s.setSeat n x).fab.tiles = s.fab.tiles := rfl
@[simp] theorem State.setSeat_fab_clusters (s : State) (n : Nat) (x : Seat) : (s.setSeat n x).fab.clusters = s.fab.clusters := rfl
@[simp] theorem State.setSeat_fab_banks (s : State) (n : Nat) (x : Seat) : (s.setSeat n x).fab.banks = s.fab.banks := rfl
@[simp] theorem State.setSeat_fab_engines (s : State) (n : Nat) (x : Seat) : (s.setSeat n x).fab.engines = s.fab.engines := rfl
@[simp] theorem State.setSeat_fab_collectives (s : State) (n : Nat) (x : Seat) : (s.setSeat n x).fab.collectives = s.fab.collectives := rfl
@[simp] theorem State.setSeat_fab_doublets (s : State) (n : Nat) (x : Seat) : (s.setSeat n x).fab.doublets = s.fab.doublets := rfl

/-! ## State.modSeat -/

@[simp] theorem State.modSeat_part (s : State) (n : Nat) (f : Seat → Seat) : (s.modSeat n f).part = s.part := rfl
@[simp] theorem State.modSeat_device (s : State) (n : Nat) (f : Seat → Seat) : (s.modSeat n f).device = s.device := rfl
@[simp] theorem State.modSeat_cycle (s : State) (n : Nat) (f : Seat → Seat) : (s.modSeat n f).cycle = s.cycle := rfl
@[simp] theorem State.modSeat_cur (s : State) (n : Nat) (f : Seat → Seat) : (s.modSeat n f).cur = s.cur := rfl
@[simp] theorem State.modSeat_mem (s : State) (n : Nat) (f : Seat → Seat) : (s.modSeat n f).mem = s.mem := rfl
@[simp] theorem State.modSeat_tables (s : State) (n : Nat) (f : Seat → Seat) : (s.modSeat n f).tables = s.tables := rfl
@[simp] theorem State.modSeat_net (s : State) (n : Nat) (f : Seat → Seat) : (s.modSeat n f).net = s.net := rfl
@[simp] theorem State.modSeat_disp (s : State) (n : Nat) (f : Seat → Seat) : (s.modSeat n f).disp = s.disp := rfl
@[simp] theorem State.modSeat_indexes (s : State) (n : Nat) (f : Seat → Seat) : (s.modSeat n f).indexes = s.indexes := rfl
@[simp] theorem State.modSeat_fw (s : State) (n : Nat) (f : Seat → Seat) : (s.modSeat n f).fw = s.fw := rfl
@[simp] theorem State.modSeat_host (s : State) (n : Nat) (f : Seat → Seat) : (s.modSeat n f).host = s.host := rfl
@[simp] theorem State.modSeat_sched (s : State) (n : Nat) (f : Seat → Seat) : (s.modSeat n f).sched = s.sched := rfl
@[simp] theorem State.modSeat_picks (s : State) (n : Nat) (f : Seat → Seat) : (s.modSeat n f).picks = s.picks := rfl
@[simp] theorem State.modSeat_work (s : State) (n : Nat) (f : Seat → Seat) : (s.modSeat n f).work = s.work := rfl
@[simp] theorem State.modSeat_freeCtr (s : State) (n : Nat) (f : Seat → Seat) : (s.modSeat n f).freeCtr = s.freeCtr := rfl
@[simp] theorem State.modSeat_fab_threads (s : State) (n : Nat) (f : Seat → Seat) : (s.modSeat n f).fab.threads = s.fab.threads := rfl
@[simp] theorem State.modSeat_fab_cores (s : State) (n : Nat) (f : Seat → Seat) : (s.modSeat n f).fab.cores = s.fab.cores := rfl
@[simp] theorem State.modSeat_fab_tiles (s : State) (n : Nat) (f : Seat → Seat) : (s.modSeat n f).fab.tiles = s.fab.tiles := rfl
@[simp] theorem State.modSeat_fab_clusters (s : State) (n : Nat) (f : Seat → Seat) : (s.modSeat n f).fab.clusters = s.fab.clusters := rfl
@[simp] theorem State.modSeat_fab_banks (s : State) (n : Nat) (f : Seat → Seat) : (s.modSeat n f).fab.banks = s.fab.banks := rfl
@[simp] theorem State.modSeat_fab_engines (s : State) (n : Nat) (f : Seat → Seat) : (s.modSeat n f).fab.engines = s.fab.engines := rfl
@[simp] theorem State.modSeat_fab_collectives (s : State) (n : Nat) (f : Seat → Seat) : (s.modSeat n f).fab.collectives = s.fab.collectives := rfl
@[simp] theorem State.modSeat_fab_doublets (s : State) (n : Nat) (f : Seat → Seat) : (s.modSeat n f).fab.doublets = s.fab.doublets := rfl

/-! ## State.setCore -/

@[simp] theorem State.setCore_part (s : State) (n : Nat) (x : Core) : (s.setCore n x).part = s.part := rfl
@[simp] theorem State.setCore_device (s : State) (n : Nat) (x : Core) : (s.setCore n x).device = s.device := rfl
@[simp] theorem State.setCore_cycle (s : State) (n : Nat) (x : Core) : (s.setCore n x).cycle = s.cycle := rfl
@[simp] theorem State.setCore_cur (s : State) (n : Nat) (x : Core) : (s.setCore n x).cur = s.cur := rfl
@[simp] theorem State.setCore_mem (s : State) (n : Nat) (x : Core) : (s.setCore n x).mem = s.mem := rfl
@[simp] theorem State.setCore_tables (s : State) (n : Nat) (x : Core) : (s.setCore n x).tables = s.tables := rfl
@[simp] theorem State.setCore_net (s : State) (n : Nat) (x : Core) : (s.setCore n x).net = s.net := rfl
@[simp] theorem State.setCore_disp (s : State) (n : Nat) (x : Core) : (s.setCore n x).disp = s.disp := rfl
@[simp] theorem State.setCore_indexes (s : State) (n : Nat) (x : Core) : (s.setCore n x).indexes = s.indexes := rfl
@[simp] theorem State.setCore_fw (s : State) (n : Nat) (x : Core) : (s.setCore n x).fw = s.fw := rfl
@[simp] theorem State.setCore_host (s : State) (n : Nat) (x : Core) : (s.setCore n x).host = s.host := rfl
@[simp] theorem State.setCore_sched (s : State) (n : Nat) (x : Core) : (s.setCore n x).sched = s.sched := rfl
@[simp] theorem State.setCore_picks (s : State) (n : Nat) (x : Core) : (s.setCore n x).picks = s.picks := rfl
@[simp] theorem State.setCore_work (s : State) (n : Nat) (x : Core) : (s.setCore n x).work = s.work := rfl
@[simp] theorem State.setCore_freeCtr (s : State) (n : Nat) (x : Core) : (s.setCore n x).freeCtr = s.freeCtr := rfl
@[simp] theorem State.setCore_fab_threads (s : State) (n : Nat) (x : Core) : (s.setCore n x).fab.threads = s.fab.threads := rfl
@[simp] theorem State.setCore_fab_seats (s : State) (n : Nat) (x : Core) : (s.setCore n x).fab.seats = s.fab.seats := rfl
@[simp] theorem State.setCore_fab_tiles (s : State) (n : Nat) (x : Core) : (s.setCore n x).fab.tiles = s.fab.tiles := rfl
@[simp] theorem State.setCore_fab_clusters (s : State) (n : Nat) (x : Core) : (s.setCore n x).fab.clusters = s.fab.clusters := rfl
@[simp] theorem State.setCore_fab_banks (s : State) (n : Nat) (x : Core) : (s.setCore n x).fab.banks = s.fab.banks := rfl
@[simp] theorem State.setCore_fab_engines (s : State) (n : Nat) (x : Core) : (s.setCore n x).fab.engines = s.fab.engines := rfl
@[simp] theorem State.setCore_fab_collectives (s : State) (n : Nat) (x : Core) : (s.setCore n x).fab.collectives = s.fab.collectives := rfl
@[simp] theorem State.setCore_fab_doublets (s : State) (n : Nat) (x : Core) : (s.setCore n x).fab.doublets = s.fab.doublets := rfl

/-! ## State.modCore -/

@[simp] theorem State.modCore_part (s : State) (n : Nat) (f : Core → Core) : (s.modCore n f).part = s.part := rfl
@[simp] theorem State.modCore_device (s : State) (n : Nat) (f : Core → Core) : (s.modCore n f).device = s.device := rfl
@[simp] theorem State.modCore_cycle (s : State) (n : Nat) (f : Core → Core) : (s.modCore n f).cycle = s.cycle := rfl
@[simp] theorem State.modCore_cur (s : State) (n : Nat) (f : Core → Core) : (s.modCore n f).cur = s.cur := rfl
@[simp] theorem State.modCore_mem (s : State) (n : Nat) (f : Core → Core) : (s.modCore n f).mem = s.mem := rfl
@[simp] theorem State.modCore_tables (s : State) (n : Nat) (f : Core → Core) : (s.modCore n f).tables = s.tables := rfl
@[simp] theorem State.modCore_net (s : State) (n : Nat) (f : Core → Core) : (s.modCore n f).net = s.net := rfl
@[simp] theorem State.modCore_disp (s : State) (n : Nat) (f : Core → Core) : (s.modCore n f).disp = s.disp := rfl
@[simp] theorem State.modCore_indexes (s : State) (n : Nat) (f : Core → Core) : (s.modCore n f).indexes = s.indexes := rfl
@[simp] theorem State.modCore_fw (s : State) (n : Nat) (f : Core → Core) : (s.modCore n f).fw = s.fw := rfl
@[simp] theorem State.modCore_host (s : State) (n : Nat) (f : Core → Core) : (s.modCore n f).host = s.host := rfl
@[simp] theorem State.modCore_sched (s : State) (n : Nat) (f : Core → Core) : (s.modCore n f).sched = s.sched := rfl
@[simp] theorem State.modCore_picks (s : State) (n : Nat) (f : Core → Core) : (s.modCore n f).picks = s.picks := rfl
@[simp] theorem State.modCore_work (s : State) (n : Nat) (f : Core → Core) : (s.modCore n f).work = s.work := rfl
@[simp] theorem State.modCore_freeCtr (s : State) (n : Nat) (f : Core → Core) : (s.modCore n f).freeCtr = s.freeCtr := rfl
@[simp] theorem State.modCore_fab_threads (s : State) (n : Nat) (f : Core → Core) : (s.modCore n f).fab.threads = s.fab.threads := rfl
@[simp] theorem State.modCore_fab_seats (s : State) (n : Nat) (f : Core → Core) : (s.modCore n f).fab.seats = s.fab.seats := rfl
@[simp] theorem State.modCore_fab_tiles (s : State) (n : Nat) (f : Core → Core) : (s.modCore n f).fab.tiles = s.fab.tiles := rfl
@[simp] theorem State.modCore_fab_clusters (s : State) (n : Nat) (f : Core → Core) : (s.modCore n f).fab.clusters = s.fab.clusters := rfl
@[simp] theorem State.modCore_fab_banks (s : State) (n : Nat) (f : Core → Core) : (s.modCore n f).fab.banks = s.fab.banks := rfl
@[simp] theorem State.modCore_fab_engines (s : State) (n : Nat) (f : Core → Core) : (s.modCore n f).fab.engines = s.fab.engines := rfl
@[simp] theorem State.modCore_fab_collectives (s : State) (n : Nat) (f : Core → Core) : (s.modCore n f).fab.collectives = s.fab.collectives := rfl
@[simp] theorem State.modCore_fab_doublets (s : State) (n : Nat) (f : Core → Core) : (s.modCore n f).fab.doublets = s.fab.doublets := rfl

/-! ## State.setTile -/

@[simp] theorem State.setTile_part (s : State) (n : Nat) (x : Tile) : (s.setTile n x).part = s.part := rfl
@[simp] theorem State.setTile_device (s : State) (n : Nat) (x : Tile) : (s.setTile n x).device = s.device := rfl
@[simp] theorem State.setTile_cycle (s : State) (n : Nat) (x : Tile) : (s.setTile n x).cycle = s.cycle := rfl
@[simp] theorem State.setTile_cur (s : State) (n : Nat) (x : Tile) : (s.setTile n x).cur = s.cur := rfl
@[simp] theorem State.setTile_mem (s : State) (n : Nat) (x : Tile) : (s.setTile n x).mem = s.mem := rfl
@[simp] theorem State.setTile_tables (s : State) (n : Nat) (x : Tile) : (s.setTile n x).tables = s.tables := rfl
@[simp] theorem State.setTile_net (s : State) (n : Nat) (x : Tile) : (s.setTile n x).net = s.net := rfl
@[simp] theorem State.setTile_disp (s : State) (n : Nat) (x : Tile) : (s.setTile n x).disp = s.disp := rfl
@[simp] theorem State.setTile_indexes (s : State) (n : Nat) (x : Tile) : (s.setTile n x).indexes = s.indexes := rfl
@[simp] theorem State.setTile_fw (s : State) (n : Nat) (x : Tile) : (s.setTile n x).fw = s.fw := rfl
@[simp] theorem State.setTile_host (s : State) (n : Nat) (x : Tile) : (s.setTile n x).host = s.host := rfl
@[simp] theorem State.setTile_sched (s : State) (n : Nat) (x : Tile) : (s.setTile n x).sched = s.sched := rfl
@[simp] theorem State.setTile_picks (s : State) (n : Nat) (x : Tile) : (s.setTile n x).picks = s.picks := rfl
@[simp] theorem State.setTile_work (s : State) (n : Nat) (x : Tile) : (s.setTile n x).work = s.work := rfl
@[simp] theorem State.setTile_freeCtr (s : State) (n : Nat) (x : Tile) : (s.setTile n x).freeCtr = s.freeCtr := rfl
@[simp] theorem State.setTile_fab_threads (s : State) (n : Nat) (x : Tile) : (s.setTile n x).fab.threads = s.fab.threads := rfl
@[simp] theorem State.setTile_fab_seats (s : State) (n : Nat) (x : Tile) : (s.setTile n x).fab.seats = s.fab.seats := rfl
@[simp] theorem State.setTile_fab_cores (s : State) (n : Nat) (x : Tile) : (s.setTile n x).fab.cores = s.fab.cores := rfl
@[simp] theorem State.setTile_fab_clusters (s : State) (n : Nat) (x : Tile) : (s.setTile n x).fab.clusters = s.fab.clusters := rfl
@[simp] theorem State.setTile_fab_banks (s : State) (n : Nat) (x : Tile) : (s.setTile n x).fab.banks = s.fab.banks := rfl
@[simp] theorem State.setTile_fab_engines (s : State) (n : Nat) (x : Tile) : (s.setTile n x).fab.engines = s.fab.engines := rfl
@[simp] theorem State.setTile_fab_collectives (s : State) (n : Nat) (x : Tile) : (s.setTile n x).fab.collectives = s.fab.collectives := rfl
@[simp] theorem State.setTile_fab_doublets (s : State) (n : Nat) (x : Tile) : (s.setTile n x).fab.doublets = s.fab.doublets := rfl

/-! ## State.modTile -/

@[simp] theorem State.modTile_part (s : State) (n : Nat) (f : Tile → Tile) : (s.modTile n f).part = s.part := rfl
@[simp] theorem State.modTile_device (s : State) (n : Nat) (f : Tile → Tile) : (s.modTile n f).device = s.device := rfl
@[simp] theorem State.modTile_cycle (s : State) (n : Nat) (f : Tile → Tile) : (s.modTile n f).cycle = s.cycle := rfl
@[simp] theorem State.modTile_cur (s : State) (n : Nat) (f : Tile → Tile) : (s.modTile n f).cur = s.cur := rfl
@[simp] theorem State.modTile_mem (s : State) (n : Nat) (f : Tile → Tile) : (s.modTile n f).mem = s.mem := rfl
@[simp] theorem State.modTile_tables (s : State) (n : Nat) (f : Tile → Tile) : (s.modTile n f).tables = s.tables := rfl
@[simp] theorem State.modTile_net (s : State) (n : Nat) (f : Tile → Tile) : (s.modTile n f).net = s.net := rfl
@[simp] theorem State.modTile_disp (s : State) (n : Nat) (f : Tile → Tile) : (s.modTile n f).disp = s.disp := rfl
@[simp] theorem State.modTile_indexes (s : State) (n : Nat) (f : Tile → Tile) : (s.modTile n f).indexes = s.indexes := rfl
@[simp] theorem State.modTile_fw (s : State) (n : Nat) (f : Tile → Tile) : (s.modTile n f).fw = s.fw := rfl
@[simp] theorem State.modTile_host (s : State) (n : Nat) (f : Tile → Tile) : (s.modTile n f).host = s.host := rfl
@[simp] theorem State.modTile_sched (s : State) (n : Nat) (f : Tile → Tile) : (s.modTile n f).sched = s.sched := rfl
@[simp] theorem State.modTile_picks (s : State) (n : Nat) (f : Tile → Tile) : (s.modTile n f).picks = s.picks := rfl
@[simp] theorem State.modTile_work (s : State) (n : Nat) (f : Tile → Tile) : (s.modTile n f).work = s.work := rfl
@[simp] theorem State.modTile_freeCtr (s : State) (n : Nat) (f : Tile → Tile) : (s.modTile n f).freeCtr = s.freeCtr := rfl
@[simp] theorem State.modTile_fab_threads (s : State) (n : Nat) (f : Tile → Tile) : (s.modTile n f).fab.threads = s.fab.threads := rfl
@[simp] theorem State.modTile_fab_seats (s : State) (n : Nat) (f : Tile → Tile) : (s.modTile n f).fab.seats = s.fab.seats := rfl
@[simp] theorem State.modTile_fab_cores (s : State) (n : Nat) (f : Tile → Tile) : (s.modTile n f).fab.cores = s.fab.cores := rfl
@[simp] theorem State.modTile_fab_clusters (s : State) (n : Nat) (f : Tile → Tile) : (s.modTile n f).fab.clusters = s.fab.clusters := rfl
@[simp] theorem State.modTile_fab_banks (s : State) (n : Nat) (f : Tile → Tile) : (s.modTile n f).fab.banks = s.fab.banks := rfl
@[simp] theorem State.modTile_fab_engines (s : State) (n : Nat) (f : Tile → Tile) : (s.modTile n f).fab.engines = s.fab.engines := rfl
@[simp] theorem State.modTile_fab_collectives (s : State) (n : Nat) (f : Tile → Tile) : (s.modTile n f).fab.collectives = s.fab.collectives := rfl
@[simp] theorem State.modTile_fab_doublets (s : State) (n : Nat) (f : Tile → Tile) : (s.modTile n f).fab.doublets = s.fab.doublets := rfl

/-! ## State.setCluster -/

@[simp] theorem State.setCluster_part (s : State) (n : Nat) (x : Cluster) : (s.setCluster n x).part = s.part := rfl
@[simp] theorem State.setCluster_device (s : State) (n : Nat) (x : Cluster) : (s.setCluster n x).device = s.device := rfl
@[simp] theorem State.setCluster_cycle (s : State) (n : Nat) (x : Cluster) : (s.setCluster n x).cycle = s.cycle := rfl
@[simp] theorem State.setCluster_cur (s : State) (n : Nat) (x : Cluster) : (s.setCluster n x).cur = s.cur := rfl
@[simp] theorem State.setCluster_mem (s : State) (n : Nat) (x : Cluster) : (s.setCluster n x).mem = s.mem := rfl
@[simp] theorem State.setCluster_tables (s : State) (n : Nat) (x : Cluster) : (s.setCluster n x).tables = s.tables := rfl
@[simp] theorem State.setCluster_net (s : State) (n : Nat) (x : Cluster) : (s.setCluster n x).net = s.net := rfl
@[simp] theorem State.setCluster_disp (s : State) (n : Nat) (x : Cluster) : (s.setCluster n x).disp = s.disp := rfl
@[simp] theorem State.setCluster_indexes (s : State) (n : Nat) (x : Cluster) : (s.setCluster n x).indexes = s.indexes := rfl
@[simp] theorem State.setCluster_fw (s : State) (n : Nat) (x : Cluster) : (s.setCluster n x).fw = s.fw := rfl
@[simp] theorem State.setCluster_host (s : State) (n : Nat) (x : Cluster) : (s.setCluster n x).host = s.host := rfl
@[simp] theorem State.setCluster_sched (s : State) (n : Nat) (x : Cluster) : (s.setCluster n x).sched = s.sched := rfl
@[simp] theorem State.setCluster_picks (s : State) (n : Nat) (x : Cluster) : (s.setCluster n x).picks = s.picks := rfl
@[simp] theorem State.setCluster_work (s : State) (n : Nat) (x : Cluster) : (s.setCluster n x).work = s.work := rfl
@[simp] theorem State.setCluster_freeCtr (s : State) (n : Nat) (x : Cluster) : (s.setCluster n x).freeCtr = s.freeCtr := rfl
@[simp] theorem State.setCluster_fab_threads (s : State) (n : Nat) (x : Cluster) : (s.setCluster n x).fab.threads = s.fab.threads := rfl
@[simp] theorem State.setCluster_fab_seats (s : State) (n : Nat) (x : Cluster) : (s.setCluster n x).fab.seats = s.fab.seats := rfl
@[simp] theorem State.setCluster_fab_cores (s : State) (n : Nat) (x : Cluster) : (s.setCluster n x).fab.cores = s.fab.cores := rfl
@[simp] theorem State.setCluster_fab_tiles (s : State) (n : Nat) (x : Cluster) : (s.setCluster n x).fab.tiles = s.fab.tiles := rfl
@[simp] theorem State.setCluster_fab_banks (s : State) (n : Nat) (x : Cluster) : (s.setCluster n x).fab.banks = s.fab.banks := rfl
@[simp] theorem State.setCluster_fab_engines (s : State) (n : Nat) (x : Cluster) : (s.setCluster n x).fab.engines = s.fab.engines := rfl
@[simp] theorem State.setCluster_fab_collectives (s : State) (n : Nat) (x : Cluster) : (s.setCluster n x).fab.collectives = s.fab.collectives := rfl
@[simp] theorem State.setCluster_fab_doublets (s : State) (n : Nat) (x : Cluster) : (s.setCluster n x).fab.doublets = s.fab.doublets := rfl

/-! ## State.modCluster -/

@[simp] theorem State.modCluster_part (s : State) (n : Nat) (f : Cluster → Cluster) : (s.modCluster n f).part = s.part := rfl
@[simp] theorem State.modCluster_device (s : State) (n : Nat) (f : Cluster → Cluster) : (s.modCluster n f).device = s.device := rfl
@[simp] theorem State.modCluster_cycle (s : State) (n : Nat) (f : Cluster → Cluster) : (s.modCluster n f).cycle = s.cycle := rfl
@[simp] theorem State.modCluster_cur (s : State) (n : Nat) (f : Cluster → Cluster) : (s.modCluster n f).cur = s.cur := rfl
@[simp] theorem State.modCluster_mem (s : State) (n : Nat) (f : Cluster → Cluster) : (s.modCluster n f).mem = s.mem := rfl
@[simp] theorem State.modCluster_tables (s : State) (n : Nat) (f : Cluster → Cluster) : (s.modCluster n f).tables = s.tables := rfl
@[simp] theorem State.modCluster_net (s : State) (n : Nat) (f : Cluster → Cluster) : (s.modCluster n f).net = s.net := rfl
@[simp] theorem State.modCluster_disp (s : State) (n : Nat) (f : Cluster → Cluster) : (s.modCluster n f).disp = s.disp := rfl
@[simp] theorem State.modCluster_indexes (s : State) (n : Nat) (f : Cluster → Cluster) : (s.modCluster n f).indexes = s.indexes := rfl
@[simp] theorem State.modCluster_fw (s : State) (n : Nat) (f : Cluster → Cluster) : (s.modCluster n f).fw = s.fw := rfl
@[simp] theorem State.modCluster_host (s : State) (n : Nat) (f : Cluster → Cluster) : (s.modCluster n f).host = s.host := rfl
@[simp] theorem State.modCluster_sched (s : State) (n : Nat) (f : Cluster → Cluster) : (s.modCluster n f).sched = s.sched := rfl
@[simp] theorem State.modCluster_picks (s : State) (n : Nat) (f : Cluster → Cluster) : (s.modCluster n f).picks = s.picks := rfl
@[simp] theorem State.modCluster_work (s : State) (n : Nat) (f : Cluster → Cluster) : (s.modCluster n f).work = s.work := rfl
@[simp] theorem State.modCluster_freeCtr (s : State) (n : Nat) (f : Cluster → Cluster) : (s.modCluster n f).freeCtr = s.freeCtr := rfl
@[simp] theorem State.modCluster_fab_threads (s : State) (n : Nat) (f : Cluster → Cluster) : (s.modCluster n f).fab.threads = s.fab.threads := rfl
@[simp] theorem State.modCluster_fab_seats (s : State) (n : Nat) (f : Cluster → Cluster) : (s.modCluster n f).fab.seats = s.fab.seats := rfl
@[simp] theorem State.modCluster_fab_cores (s : State) (n : Nat) (f : Cluster → Cluster) : (s.modCluster n f).fab.cores = s.fab.cores := rfl
@[simp] theorem State.modCluster_fab_tiles (s : State) (n : Nat) (f : Cluster → Cluster) : (s.modCluster n f).fab.tiles = s.fab.tiles := rfl
@[simp] theorem State.modCluster_fab_banks (s : State) (n : Nat) (f : Cluster → Cluster) : (s.modCluster n f).fab.banks = s.fab.banks := rfl
@[simp] theorem State.modCluster_fab_engines (s : State) (n : Nat) (f : Cluster → Cluster) : (s.modCluster n f).fab.engines = s.fab.engines := rfl
@[simp] theorem State.modCluster_fab_collectives (s : State) (n : Nat) (f : Cluster → Cluster) : (s.modCluster n f).fab.collectives = s.fab.collectives := rfl
@[simp] theorem State.modCluster_fab_doublets (s : State) (n : Nat) (f : Cluster → Cluster) : (s.modCluster n f).fab.doublets = s.fab.doublets := rfl

/-! ## State.setBank -/

@[simp] theorem State.setBank_part (s : State) (n : Nat) (x : Bank) : (s.setBank n x).part = s.part := rfl
@[simp] theorem State.setBank_device (s : State) (n : Nat) (x : Bank) : (s.setBank n x).device = s.device := rfl
@[simp] theorem State.setBank_cycle (s : State) (n : Nat) (x : Bank) : (s.setBank n x).cycle = s.cycle := rfl
@[simp] theorem State.setBank_cur (s : State) (n : Nat) (x : Bank) : (s.setBank n x).cur = s.cur := rfl
@[simp] theorem State.setBank_mem (s : State) (n : Nat) (x : Bank) : (s.setBank n x).mem = s.mem := rfl
@[simp] theorem State.setBank_tables (s : State) (n : Nat) (x : Bank) : (s.setBank n x).tables = s.tables := rfl
@[simp] theorem State.setBank_net (s : State) (n : Nat) (x : Bank) : (s.setBank n x).net = s.net := rfl
@[simp] theorem State.setBank_disp (s : State) (n : Nat) (x : Bank) : (s.setBank n x).disp = s.disp := rfl
@[simp] theorem State.setBank_indexes (s : State) (n : Nat) (x : Bank) : (s.setBank n x).indexes = s.indexes := rfl
@[simp] theorem State.setBank_fw (s : State) (n : Nat) (x : Bank) : (s.setBank n x).fw = s.fw := rfl
@[simp] theorem State.setBank_host (s : State) (n : Nat) (x : Bank) : (s.setBank n x).host = s.host := rfl
@[simp] theorem State.setBank_sched (s : State) (n : Nat) (x : Bank) : (s.setBank n x).sched = s.sched := rfl
@[simp] theorem State.setBank_picks (s : State) (n : Nat) (x : Bank) : (s.setBank n x).picks = s.picks := rfl
@[simp] theorem State.setBank_work (s : State) (n : Nat) (x : Bank) : (s.setBank n x).work = s.work := rfl
@[simp] theorem State.setBank_freeCtr (s : State) (n : Nat) (x : Bank) : (s.setBank n x).freeCtr = s.freeCtr := rfl
@[simp] theorem State.setBank_fab_threads (s : State) (n : Nat) (x : Bank) : (s.setBank n x).fab.threads = s.fab.threads := rfl
@[simp] theorem State.setBank_fab_seats (s : State) (n : Nat) (x : Bank) : (s.setBank n x).fab.seats = s.fab.seats := rfl
@[simp] theorem State.setBank_fab_cores (s : State) (n : Nat) (x : Bank) : (s.setBank n x).fab.cores = s.fab.cores := rfl
@[simp] theorem State.setBank_fab_tiles (s : State) (n : Nat) (x : Bank) : (s.setBank n x).fab.tiles = s.fab.tiles := rfl
@[simp] theorem State.setBank_fab_clusters (s : State) (n : Nat) (x : Bank) : (s.setBank n x).fab.clusters = s.fab.clusters := rfl
@[simp] theorem State.setBank_fab_engines (s : State) (n : Nat) (x : Bank) : (s.setBank n x).fab.engines = s.fab.engines := rfl
@[simp] theorem State.setBank_fab_collectives (s : State) (n : Nat) (x : Bank) : (s.setBank n x).fab.collectives = s.fab.collectives := rfl
@[simp] theorem State.setBank_fab_doublets (s : State) (n : Nat) (x : Bank) : (s.setBank n x).fab.doublets = s.fab.doublets := rfl

/-! ## State.setEngine -/

@[simp] theorem State.setEngine_part (s : State) (n : Nat) (x : Engine) : (s.setEngine n x).part = s.part := rfl
@[simp] theorem State.setEngine_device (s : State) (n : Nat) (x : Engine) : (s.setEngine n x).device = s.device := rfl
@[simp] theorem State.setEngine_cycle (s : State) (n : Nat) (x : Engine) : (s.setEngine n x).cycle = s.cycle := rfl
@[simp] theorem State.setEngine_cur (s : State) (n : Nat) (x : Engine) : (s.setEngine n x).cur = s.cur := rfl
@[simp] theorem State.setEngine_mem (s : State) (n : Nat) (x : Engine) : (s.setEngine n x).mem = s.mem := rfl
@[simp] theorem State.setEngine_tables (s : State) (n : Nat) (x : Engine) : (s.setEngine n x).tables = s.tables := rfl
@[simp] theorem State.setEngine_net (s : State) (n : Nat) (x : Engine) : (s.setEngine n x).net = s.net := rfl
@[simp] theorem State.setEngine_disp (s : State) (n : Nat) (x : Engine) : (s.setEngine n x).disp = s.disp := rfl
@[simp] theorem State.setEngine_indexes (s : State) (n : Nat) (x : Engine) : (s.setEngine n x).indexes = s.indexes := rfl
@[simp] theorem State.setEngine_fw (s : State) (n : Nat) (x : Engine) : (s.setEngine n x).fw = s.fw := rfl
@[simp] theorem State.setEngine_host (s : State) (n : Nat) (x : Engine) : (s.setEngine n x).host = s.host := rfl
@[simp] theorem State.setEngine_sched (s : State) (n : Nat) (x : Engine) : (s.setEngine n x).sched = s.sched := rfl
@[simp] theorem State.setEngine_picks (s : State) (n : Nat) (x : Engine) : (s.setEngine n x).picks = s.picks := rfl
@[simp] theorem State.setEngine_work (s : State) (n : Nat) (x : Engine) : (s.setEngine n x).work = s.work := rfl
@[simp] theorem State.setEngine_freeCtr (s : State) (n : Nat) (x : Engine) : (s.setEngine n x).freeCtr = s.freeCtr := rfl
@[simp] theorem State.setEngine_fab_threads (s : State) (n : Nat) (x : Engine) : (s.setEngine n x).fab.threads = s.fab.threads := rfl
@[simp] theorem State.setEngine_fab_seats (s : State) (n : Nat) (x : Engine) : (s.setEngine n x).fab.seats = s.fab.seats := rfl
@[simp] theorem State.setEngine_fab_cores (s : State) (n : Nat) (x : Engine) : (s.setEngine n x).fab.cores = s.fab.cores := rfl
@[simp] theorem State.setEngine_fab_tiles (s : State) (n : Nat) (x : Engine) : (s.setEngine n x).fab.tiles = s.fab.tiles := rfl
@[simp] theorem State.setEngine_fab_clusters (s : State) (n : Nat) (x : Engine) : (s.setEngine n x).fab.clusters = s.fab.clusters := rfl
@[simp] theorem State.setEngine_fab_banks (s : State) (n : Nat) (x : Engine) : (s.setEngine n x).fab.banks = s.fab.banks := rfl
@[simp] theorem State.setEngine_fab_collectives (s : State) (n : Nat) (x : Engine) : (s.setEngine n x).fab.collectives = s.fab.collectives := rfl
@[simp] theorem State.setEngine_fab_doublets (s : State) (n : Nat) (x : Engine) : (s.setEngine n x).fab.doublets = s.fab.doublets := rfl

/-! ## State.setStation -/

@[simp] theorem State.setStation_part (s : State) (n : Nat) (x : Station) : (s.setStation n x).part = s.part := rfl
@[simp] theorem State.setStation_device (s : State) (n : Nat) (x : Station) : (s.setStation n x).device = s.device := rfl
@[simp] theorem State.setStation_cycle (s : State) (n : Nat) (x : Station) : (s.setStation n x).cycle = s.cycle := rfl
@[simp] theorem State.setStation_cur (s : State) (n : Nat) (x : Station) : (s.setStation n x).cur = s.cur := rfl
@[simp] theorem State.setStation_fab (s : State) (n : Nat) (x : Station) : (s.setStation n x).fab = s.fab := rfl
@[simp] theorem State.setStation_mem (s : State) (n : Nat) (x : Station) : (s.setStation n x).mem = s.mem := rfl
@[simp] theorem State.setStation_tables (s : State) (n : Nat) (x : Station) : (s.setStation n x).tables = s.tables := rfl
@[simp] theorem State.setStation_disp (s : State) (n : Nat) (x : Station) : (s.setStation n x).disp = s.disp := rfl
@[simp] theorem State.setStation_indexes (s : State) (n : Nat) (x : Station) : (s.setStation n x).indexes = s.indexes := rfl
@[simp] theorem State.setStation_fw (s : State) (n : Nat) (x : Station) : (s.setStation n x).fw = s.fw := rfl
@[simp] theorem State.setStation_host (s : State) (n : Nat) (x : Station) : (s.setStation n x).host = s.host := rfl
@[simp] theorem State.setStation_sched (s : State) (n : Nat) (x : Station) : (s.setStation n x).sched = s.sched := rfl
@[simp] theorem State.setStation_picks (s : State) (n : Nat) (x : Station) : (s.setStation n x).picks = s.picks := rfl
@[simp] theorem State.setStation_work (s : State) (n : Nat) (x : Station) : (s.setStation n x).work = s.work := rfl
@[simp] theorem State.setStation_freeCtr (s : State) (n : Nat) (x : Station) : (s.setStation n x).freeCtr = s.freeCtr := rfl
@[simp] theorem State.setStation_net_reqs (s : State) (n : Nat) (x : Station) : (s.setStation n x).net.reqs = s.net.reqs := rfl
@[simp] theorem State.setStation_net_combs (s : State) (n : Nat) (x : Station) : (s.setStation n x).net.combs = s.net.combs := rfl
@[simp] theorem State.setStation_net_msgs (s : State) (n : Nat) (x : Station) : (s.setStation n x).net.msgs = s.net.msgs := rfl
@[simp] theorem State.setStation_net_migs (s : State) (n : Nat) (x : Station) : (s.setStation n x).net.migs = s.net.migs := rfl
@[simp] theorem State.setStation_net_nextId (s : State) (n : Nat) (x : Station) : (s.setStation n x).net.nextId = s.net.nextId := rfl
@[simp] theorem State.setStation_net_routes (s : State) (n : Nat) (x : Station) : (s.setStation n x).net.routes = s.net.routes := rfl

/-! ## State.modStation -/

@[simp] theorem State.modStation_part (s : State) (n : Nat) (f : Station → Station) : (s.modStation n f).part = s.part := rfl
@[simp] theorem State.modStation_device (s : State) (n : Nat) (f : Station → Station) : (s.modStation n f).device = s.device := rfl
@[simp] theorem State.modStation_cycle (s : State) (n : Nat) (f : Station → Station) : (s.modStation n f).cycle = s.cycle := rfl
@[simp] theorem State.modStation_cur (s : State) (n : Nat) (f : Station → Station) : (s.modStation n f).cur = s.cur := rfl
@[simp] theorem State.modStation_fab (s : State) (n : Nat) (f : Station → Station) : (s.modStation n f).fab = s.fab := rfl
@[simp] theorem State.modStation_mem (s : State) (n : Nat) (f : Station → Station) : (s.modStation n f).mem = s.mem := rfl
@[simp] theorem State.modStation_tables (s : State) (n : Nat) (f : Station → Station) : (s.modStation n f).tables = s.tables := rfl
@[simp] theorem State.modStation_disp (s : State) (n : Nat) (f : Station → Station) : (s.modStation n f).disp = s.disp := rfl
@[simp] theorem State.modStation_indexes (s : State) (n : Nat) (f : Station → Station) : (s.modStation n f).indexes = s.indexes := rfl
@[simp] theorem State.modStation_fw (s : State) (n : Nat) (f : Station → Station) : (s.modStation n f).fw = s.fw := rfl
@[simp] theorem State.modStation_host (s : State) (n : Nat) (f : Station → Station) : (s.modStation n f).host = s.host := rfl
@[simp] theorem State.modStation_sched (s : State) (n : Nat) (f : Station → Station) : (s.modStation n f).sched = s.sched := rfl
@[simp] theorem State.modStation_picks (s : State) (n : Nat) (f : Station → Station) : (s.modStation n f).picks = s.picks := rfl
@[simp] theorem State.modStation_work (s : State) (n : Nat) (f : Station → Station) : (s.modStation n f).work = s.work := rfl
@[simp] theorem State.modStation_freeCtr (s : State) (n : Nat) (f : Station → Station) : (s.modStation n f).freeCtr = s.freeCtr := rfl
@[simp] theorem State.modStation_net_reqs (s : State) (n : Nat) (f : Station → Station) : (s.modStation n f).net.reqs = s.net.reqs := rfl
@[simp] theorem State.modStation_net_combs (s : State) (n : Nat) (f : Station → Station) : (s.modStation n f).net.combs = s.net.combs := rfl
@[simp] theorem State.modStation_net_msgs (s : State) (n : Nat) (f : Station → Station) : (s.modStation n f).net.msgs = s.net.msgs := rfl
@[simp] theorem State.modStation_net_migs (s : State) (n : Nat) (f : Station → Station) : (s.modStation n f).net.migs = s.net.migs := rfl
@[simp] theorem State.modStation_net_nextId (s : State) (n : Nat) (f : Station → Station) : (s.modStation n f).net.nextId = s.net.nextId := rfl
@[simp] theorem State.modStation_net_routes (s : State) (n : Nat) (f : Station → Station) : (s.modStation n f).net.routes = s.net.routes := rfl

/-! ## State.setReq -/

@[simp] theorem State.setReq_part (s : State) (n : Nat) (x : Req) : (s.setReq n x).part = s.part := rfl
@[simp] theorem State.setReq_device (s : State) (n : Nat) (x : Req) : (s.setReq n x).device = s.device := rfl
@[simp] theorem State.setReq_cycle (s : State) (n : Nat) (x : Req) : (s.setReq n x).cycle = s.cycle := rfl
@[simp] theorem State.setReq_cur (s : State) (n : Nat) (x : Req) : (s.setReq n x).cur = s.cur := rfl
@[simp] theorem State.setReq_fab (s : State) (n : Nat) (x : Req) : (s.setReq n x).fab = s.fab := rfl
@[simp] theorem State.setReq_mem (s : State) (n : Nat) (x : Req) : (s.setReq n x).mem = s.mem := rfl
@[simp] theorem State.setReq_tables (s : State) (n : Nat) (x : Req) : (s.setReq n x).tables = s.tables := rfl
@[simp] theorem State.setReq_disp (s : State) (n : Nat) (x : Req) : (s.setReq n x).disp = s.disp := rfl
@[simp] theorem State.setReq_indexes (s : State) (n : Nat) (x : Req) : (s.setReq n x).indexes = s.indexes := rfl
@[simp] theorem State.setReq_fw (s : State) (n : Nat) (x : Req) : (s.setReq n x).fw = s.fw := rfl
@[simp] theorem State.setReq_host (s : State) (n : Nat) (x : Req) : (s.setReq n x).host = s.host := rfl
@[simp] theorem State.setReq_sched (s : State) (n : Nat) (x : Req) : (s.setReq n x).sched = s.sched := rfl
@[simp] theorem State.setReq_picks (s : State) (n : Nat) (x : Req) : (s.setReq n x).picks = s.picks := rfl
@[simp] theorem State.setReq_work (s : State) (n : Nat) (x : Req) : (s.setReq n x).work = s.work := rfl
@[simp] theorem State.setReq_freeCtr (s : State) (n : Nat) (x : Req) : (s.setReq n x).freeCtr = s.freeCtr := rfl
@[simp] theorem State.setReq_net_combs (s : State) (n : Nat) (x : Req) : (s.setReq n x).net.combs = s.net.combs := rfl
@[simp] theorem State.setReq_net_msgs (s : State) (n : Nat) (x : Req) : (s.setReq n x).net.msgs = s.net.msgs := rfl
@[simp] theorem State.setReq_net_migs (s : State) (n : Nat) (x : Req) : (s.setReq n x).net.migs = s.net.migs := rfl
@[simp] theorem State.setReq_net_stations (s : State) (n : Nat) (x : Req) : (s.setReq n x).net.stations = s.net.stations := rfl
@[simp] theorem State.setReq_net_nextId (s : State) (n : Nat) (x : Req) : (s.setReq n x).net.nextId = s.net.nextId := rfl
@[simp] theorem State.setReq_net_routes (s : State) (n : Nat) (x : Req) : (s.setReq n x).net.routes = s.net.routes := rfl

/-! ## State.dropReq -/

@[simp] theorem State.dropReq_part (s : State) (n : Nat) : (s.dropReq n).part = s.part := rfl
@[simp] theorem State.dropReq_device (s : State) (n : Nat) : (s.dropReq n).device = s.device := rfl
@[simp] theorem State.dropReq_cycle (s : State) (n : Nat) : (s.dropReq n).cycle = s.cycle := rfl
@[simp] theorem State.dropReq_cur (s : State) (n : Nat) : (s.dropReq n).cur = s.cur := rfl
@[simp] theorem State.dropReq_fab (s : State) (n : Nat) : (s.dropReq n).fab = s.fab := rfl
@[simp] theorem State.dropReq_mem (s : State) (n : Nat) : (s.dropReq n).mem = s.mem := rfl
@[simp] theorem State.dropReq_tables (s : State) (n : Nat) : (s.dropReq n).tables = s.tables := rfl
@[simp] theorem State.dropReq_disp (s : State) (n : Nat) : (s.dropReq n).disp = s.disp := rfl
@[simp] theorem State.dropReq_indexes (s : State) (n : Nat) : (s.dropReq n).indexes = s.indexes := rfl
@[simp] theorem State.dropReq_fw (s : State) (n : Nat) : (s.dropReq n).fw = s.fw := rfl
@[simp] theorem State.dropReq_host (s : State) (n : Nat) : (s.dropReq n).host = s.host := rfl
@[simp] theorem State.dropReq_sched (s : State) (n : Nat) : (s.dropReq n).sched = s.sched := rfl
@[simp] theorem State.dropReq_picks (s : State) (n : Nat) : (s.dropReq n).picks = s.picks := rfl
@[simp] theorem State.dropReq_work (s : State) (n : Nat) : (s.dropReq n).work = s.work := rfl
@[simp] theorem State.dropReq_freeCtr (s : State) (n : Nat) : (s.dropReq n).freeCtr = s.freeCtr := rfl
@[simp] theorem State.dropReq_net_combs (s : State) (n : Nat) : (s.dropReq n).net.combs = s.net.combs := rfl
@[simp] theorem State.dropReq_net_msgs (s : State) (n : Nat) : (s.dropReq n).net.msgs = s.net.msgs := rfl
@[simp] theorem State.dropReq_net_migs (s : State) (n : Nat) : (s.dropReq n).net.migs = s.net.migs := rfl
@[simp] theorem State.dropReq_net_stations (s : State) (n : Nat) : (s.dropReq n).net.stations = s.net.stations := rfl
@[simp] theorem State.dropReq_net_nextId (s : State) (n : Nat) : (s.dropReq n).net.nextId = s.net.nextId := rfl
@[simp] theorem State.dropReq_net_routes (s : State) (n : Nat) : (s.dropReq n).net.routes = s.net.routes := rfl

/-! ## State.setMsg -/

@[simp] theorem State.setMsg_part (s : State) (n : Nat) (x : Msg) : (s.setMsg n x).part = s.part := rfl
@[simp] theorem State.setMsg_device (s : State) (n : Nat) (x : Msg) : (s.setMsg n x).device = s.device := rfl
@[simp] theorem State.setMsg_cycle (s : State) (n : Nat) (x : Msg) : (s.setMsg n x).cycle = s.cycle := rfl
@[simp] theorem State.setMsg_cur (s : State) (n : Nat) (x : Msg) : (s.setMsg n x).cur = s.cur := rfl
@[simp] theorem State.setMsg_fab (s : State) (n : Nat) (x : Msg) : (s.setMsg n x).fab = s.fab := rfl
@[simp] theorem State.setMsg_mem (s : State) (n : Nat) (x : Msg) : (s.setMsg n x).mem = s.mem := rfl
@[simp] theorem State.setMsg_tables (s : State) (n : Nat) (x : Msg) : (s.setMsg n x).tables = s.tables := rfl
@[simp] theorem State.setMsg_disp (s : State) (n : Nat) (x : Msg) : (s.setMsg n x).disp = s.disp := rfl
@[simp] theorem State.setMsg_indexes (s : State) (n : Nat) (x : Msg) : (s.setMsg n x).indexes = s.indexes := rfl
@[simp] theorem State.setMsg_fw (s : State) (n : Nat) (x : Msg) : (s.setMsg n x).fw = s.fw := rfl
@[simp] theorem State.setMsg_host (s : State) (n : Nat) (x : Msg) : (s.setMsg n x).host = s.host := rfl
@[simp] theorem State.setMsg_sched (s : State) (n : Nat) (x : Msg) : (s.setMsg n x).sched = s.sched := rfl
@[simp] theorem State.setMsg_picks (s : State) (n : Nat) (x : Msg) : (s.setMsg n x).picks = s.picks := rfl
@[simp] theorem State.setMsg_work (s : State) (n : Nat) (x : Msg) : (s.setMsg n x).work = s.work := rfl
@[simp] theorem State.setMsg_freeCtr (s : State) (n : Nat) (x : Msg) : (s.setMsg n x).freeCtr = s.freeCtr := rfl
@[simp] theorem State.setMsg_net_reqs (s : State) (n : Nat) (x : Msg) : (s.setMsg n x).net.reqs = s.net.reqs := rfl
@[simp] theorem State.setMsg_net_combs (s : State) (n : Nat) (x : Msg) : (s.setMsg n x).net.combs = s.net.combs := rfl
@[simp] theorem State.setMsg_net_migs (s : State) (n : Nat) (x : Msg) : (s.setMsg n x).net.migs = s.net.migs := rfl
@[simp] theorem State.setMsg_net_stations (s : State) (n : Nat) (x : Msg) : (s.setMsg n x).net.stations = s.net.stations := rfl
@[simp] theorem State.setMsg_net_nextId (s : State) (n : Nat) (x : Msg) : (s.setMsg n x).net.nextId = s.net.nextId := rfl
@[simp] theorem State.setMsg_net_routes (s : State) (n : Nat) (x : Msg) : (s.setMsg n x).net.routes = s.net.routes := rfl

/-! ## State.dropMsg -/

@[simp] theorem State.dropMsg_part (s : State) (n : Nat) : (s.dropMsg n).part = s.part := rfl
@[simp] theorem State.dropMsg_device (s : State) (n : Nat) : (s.dropMsg n).device = s.device := rfl
@[simp] theorem State.dropMsg_cycle (s : State) (n : Nat) : (s.dropMsg n).cycle = s.cycle := rfl
@[simp] theorem State.dropMsg_cur (s : State) (n : Nat) : (s.dropMsg n).cur = s.cur := rfl
@[simp] theorem State.dropMsg_fab (s : State) (n : Nat) : (s.dropMsg n).fab = s.fab := rfl
@[simp] theorem State.dropMsg_mem (s : State) (n : Nat) : (s.dropMsg n).mem = s.mem := rfl
@[simp] theorem State.dropMsg_tables (s : State) (n : Nat) : (s.dropMsg n).tables = s.tables := rfl
@[simp] theorem State.dropMsg_disp (s : State) (n : Nat) : (s.dropMsg n).disp = s.disp := rfl
@[simp] theorem State.dropMsg_indexes (s : State) (n : Nat) : (s.dropMsg n).indexes = s.indexes := rfl
@[simp] theorem State.dropMsg_fw (s : State) (n : Nat) : (s.dropMsg n).fw = s.fw := rfl
@[simp] theorem State.dropMsg_host (s : State) (n : Nat) : (s.dropMsg n).host = s.host := rfl
@[simp] theorem State.dropMsg_sched (s : State) (n : Nat) : (s.dropMsg n).sched = s.sched := rfl
@[simp] theorem State.dropMsg_picks (s : State) (n : Nat) : (s.dropMsg n).picks = s.picks := rfl
@[simp] theorem State.dropMsg_work (s : State) (n : Nat) : (s.dropMsg n).work = s.work := rfl
@[simp] theorem State.dropMsg_freeCtr (s : State) (n : Nat) : (s.dropMsg n).freeCtr = s.freeCtr := rfl
@[simp] theorem State.dropMsg_net_reqs (s : State) (n : Nat) : (s.dropMsg n).net.reqs = s.net.reqs := rfl
@[simp] theorem State.dropMsg_net_combs (s : State) (n : Nat) : (s.dropMsg n).net.combs = s.net.combs := rfl
@[simp] theorem State.dropMsg_net_migs (s : State) (n : Nat) : (s.dropMsg n).net.migs = s.net.migs := rfl
@[simp] theorem State.dropMsg_net_stations (s : State) (n : Nat) : (s.dropMsg n).net.stations = s.net.stations := rfl
@[simp] theorem State.dropMsg_net_nextId (s : State) (n : Nat) : (s.dropMsg n).net.nextId = s.net.nextId := rfl
@[simp] theorem State.dropMsg_net_routes (s : State) (n : Nat) : (s.dropMsg n).net.routes = s.net.routes := rfl

/-! ## State.setMig -/

@[simp] theorem State.setMig_part (s : State) (n : Nat) (x : Mig) : (s.setMig n x).part = s.part := rfl
@[simp] theorem State.setMig_device (s : State) (n : Nat) (x : Mig) : (s.setMig n x).device = s.device := rfl
@[simp] theorem State.setMig_cycle (s : State) (n : Nat) (x : Mig) : (s.setMig n x).cycle = s.cycle := rfl
@[simp] theorem State.setMig_cur (s : State) (n : Nat) (x : Mig) : (s.setMig n x).cur = s.cur := rfl
@[simp] theorem State.setMig_fab (s : State) (n : Nat) (x : Mig) : (s.setMig n x).fab = s.fab := rfl
@[simp] theorem State.setMig_mem (s : State) (n : Nat) (x : Mig) : (s.setMig n x).mem = s.mem := rfl
@[simp] theorem State.setMig_tables (s : State) (n : Nat) (x : Mig) : (s.setMig n x).tables = s.tables := rfl
@[simp] theorem State.setMig_disp (s : State) (n : Nat) (x : Mig) : (s.setMig n x).disp = s.disp := rfl
@[simp] theorem State.setMig_indexes (s : State) (n : Nat) (x : Mig) : (s.setMig n x).indexes = s.indexes := rfl
@[simp] theorem State.setMig_fw (s : State) (n : Nat) (x : Mig) : (s.setMig n x).fw = s.fw := rfl
@[simp] theorem State.setMig_host (s : State) (n : Nat) (x : Mig) : (s.setMig n x).host = s.host := rfl
@[simp] theorem State.setMig_sched (s : State) (n : Nat) (x : Mig) : (s.setMig n x).sched = s.sched := rfl
@[simp] theorem State.setMig_picks (s : State) (n : Nat) (x : Mig) : (s.setMig n x).picks = s.picks := rfl
@[simp] theorem State.setMig_work (s : State) (n : Nat) (x : Mig) : (s.setMig n x).work = s.work := rfl
@[simp] theorem State.setMig_freeCtr (s : State) (n : Nat) (x : Mig) : (s.setMig n x).freeCtr = s.freeCtr := rfl
@[simp] theorem State.setMig_net_reqs (s : State) (n : Nat) (x : Mig) : (s.setMig n x).net.reqs = s.net.reqs := rfl
@[simp] theorem State.setMig_net_combs (s : State) (n : Nat) (x : Mig) : (s.setMig n x).net.combs = s.net.combs := rfl
@[simp] theorem State.setMig_net_msgs (s : State) (n : Nat) (x : Mig) : (s.setMig n x).net.msgs = s.net.msgs := rfl
@[simp] theorem State.setMig_net_stations (s : State) (n : Nat) (x : Mig) : (s.setMig n x).net.stations = s.net.stations := rfl
@[simp] theorem State.setMig_net_nextId (s : State) (n : Nat) (x : Mig) : (s.setMig n x).net.nextId = s.net.nextId := rfl
@[simp] theorem State.setMig_net_routes (s : State) (n : Nat) (x : Mig) : (s.setMig n x).net.routes = s.net.routes := rfl

/-! ## State.dropMig -/

@[simp] theorem State.dropMig_part (s : State) (n : Nat) : (s.dropMig n).part = s.part := rfl
@[simp] theorem State.dropMig_device (s : State) (n : Nat) : (s.dropMig n).device = s.device := rfl
@[simp] theorem State.dropMig_cycle (s : State) (n : Nat) : (s.dropMig n).cycle = s.cycle := rfl
@[simp] theorem State.dropMig_cur (s : State) (n : Nat) : (s.dropMig n).cur = s.cur := rfl
@[simp] theorem State.dropMig_fab (s : State) (n : Nat) : (s.dropMig n).fab = s.fab := rfl
@[simp] theorem State.dropMig_mem (s : State) (n : Nat) : (s.dropMig n).mem = s.mem := rfl
@[simp] theorem State.dropMig_tables (s : State) (n : Nat) : (s.dropMig n).tables = s.tables := rfl
@[simp] theorem State.dropMig_disp (s : State) (n : Nat) : (s.dropMig n).disp = s.disp := rfl
@[simp] theorem State.dropMig_indexes (s : State) (n : Nat) : (s.dropMig n).indexes = s.indexes := rfl
@[simp] theorem State.dropMig_fw (s : State) (n : Nat) : (s.dropMig n).fw = s.fw := rfl
@[simp] theorem State.dropMig_host (s : State) (n : Nat) : (s.dropMig n).host = s.host := rfl
@[simp] theorem State.dropMig_sched (s : State) (n : Nat) : (s.dropMig n).sched = s.sched := rfl
@[simp] theorem State.dropMig_picks (s : State) (n : Nat) : (s.dropMig n).picks = s.picks := rfl
@[simp] theorem State.dropMig_work (s : State) (n : Nat) : (s.dropMig n).work = s.work := rfl
@[simp] theorem State.dropMig_freeCtr (s : State) (n : Nat) : (s.dropMig n).freeCtr = s.freeCtr := rfl
@[simp] theorem State.dropMig_net_reqs (s : State) (n : Nat) : (s.dropMig n).net.reqs = s.net.reqs := rfl
@[simp] theorem State.dropMig_net_combs (s : State) (n : Nat) : (s.dropMig n).net.combs = s.net.combs := rfl
@[simp] theorem State.dropMig_net_msgs (s : State) (n : Nat) : (s.dropMig n).net.msgs = s.net.msgs := rfl
@[simp] theorem State.dropMig_net_stations (s : State) (n : Nat) : (s.dropMig n).net.stations = s.net.stations := rfl
@[simp] theorem State.dropMig_net_nextId (s : State) (n : Nat) : (s.dropMig n).net.nextId = s.net.nextId := rfl
@[simp] theorem State.dropMig_net_routes (s : State) (n : Nat) : (s.dropMig n).net.routes = s.net.routes := rfl

/-! ## State.setDisp -/

@[simp] theorem State.setDisp_part (s : State) (n : Nat) (x : DispStation) : (s.setDisp n x).part = s.part := rfl
@[simp] theorem State.setDisp_device (s : State) (n : Nat) (x : DispStation) : (s.setDisp n x).device = s.device := rfl
@[simp] theorem State.setDisp_cycle (s : State) (n : Nat) (x : DispStation) : (s.setDisp n x).cycle = s.cycle := rfl
@[simp] theorem State.setDisp_cur (s : State) (n : Nat) (x : DispStation) : (s.setDisp n x).cur = s.cur := rfl
@[simp] theorem State.setDisp_fab (s : State) (n : Nat) (x : DispStation) : (s.setDisp n x).fab = s.fab := rfl
@[simp] theorem State.setDisp_mem (s : State) (n : Nat) (x : DispStation) : (s.setDisp n x).mem = s.mem := rfl
@[simp] theorem State.setDisp_tables (s : State) (n : Nat) (x : DispStation) : (s.setDisp n x).tables = s.tables := rfl
@[simp] theorem State.setDisp_net (s : State) (n : Nat) (x : DispStation) : (s.setDisp n x).net = s.net := rfl
@[simp] theorem State.setDisp_indexes (s : State) (n : Nat) (x : DispStation) : (s.setDisp n x).indexes = s.indexes := rfl
@[simp] theorem State.setDisp_fw (s : State) (n : Nat) (x : DispStation) : (s.setDisp n x).fw = s.fw := rfl
@[simp] theorem State.setDisp_host (s : State) (n : Nat) (x : DispStation) : (s.setDisp n x).host = s.host := rfl
@[simp] theorem State.setDisp_sched (s : State) (n : Nat) (x : DispStation) : (s.setDisp n x).sched = s.sched := rfl
@[simp] theorem State.setDisp_picks (s : State) (n : Nat) (x : DispStation) : (s.setDisp n x).picks = s.picks := rfl
@[simp] theorem State.setDisp_work (s : State) (n : Nat) (x : DispStation) : (s.setDisp n x).work = s.work := rfl
@[simp] theorem State.setDisp_freeCtr (s : State) (n : Nat) (x : DispStation) : (s.setDisp n x).freeCtr = s.freeCtr := rfl
@[simp] theorem State.setDisp_disp_queues (s : State) (n : Nat) (x : DispStation) : (s.setDisp n x).disp.queues = s.disp.queues := rfl
@[simp] theorem State.setDisp_disp_deps (s : State) (n : Nat) (x : DispStation) : (s.setDisp n x).disp.deps = s.disp.deps := rfl
@[simp] theorem State.setDisp_disp_graphs (s : State) (n : Nat) (x : DispStation) : (s.setDisp n x).disp.graphs = s.disp.graphs := rfl
@[simp] theorem State.setDisp_disp_launches (s : State) (n : Nat) (x : DispStation) : (s.setDisp n x).disp.launches = s.disp.launches := rfl
@[simp] theorem State.setDisp_disp_tasks (s : State) (n : Nat) (x : DispStation) : (s.setDisp n x).disp.tasks = s.disp.tasks := rfl
@[simp] theorem State.setDisp_disp_saved (s : State) (n : Nat) (x : DispStation) : (s.setDisp n x).disp.saved = s.disp.saved := rfl

/-! ## State.setQueue -/

@[simp] theorem State.setQueue_part (s : State) (n : Nat) (x : QueueRec) : (s.setQueue n x).part = s.part := rfl
@[simp] theorem State.setQueue_device (s : State) (n : Nat) (x : QueueRec) : (s.setQueue n x).device = s.device := rfl
@[simp] theorem State.setQueue_cycle (s : State) (n : Nat) (x : QueueRec) : (s.setQueue n x).cycle = s.cycle := rfl
@[simp] theorem State.setQueue_cur (s : State) (n : Nat) (x : QueueRec) : (s.setQueue n x).cur = s.cur := rfl
@[simp] theorem State.setQueue_fab (s : State) (n : Nat) (x : QueueRec) : (s.setQueue n x).fab = s.fab := rfl
@[simp] theorem State.setQueue_mem (s : State) (n : Nat) (x : QueueRec) : (s.setQueue n x).mem = s.mem := rfl
@[simp] theorem State.setQueue_tables (s : State) (n : Nat) (x : QueueRec) : (s.setQueue n x).tables = s.tables := rfl
@[simp] theorem State.setQueue_net (s : State) (n : Nat) (x : QueueRec) : (s.setQueue n x).net = s.net := rfl
@[simp] theorem State.setQueue_indexes (s : State) (n : Nat) (x : QueueRec) : (s.setQueue n x).indexes = s.indexes := rfl
@[simp] theorem State.setQueue_fw (s : State) (n : Nat) (x : QueueRec) : (s.setQueue n x).fw = s.fw := rfl
@[simp] theorem State.setQueue_host (s : State) (n : Nat) (x : QueueRec) : (s.setQueue n x).host = s.host := rfl
@[simp] theorem State.setQueue_sched (s : State) (n : Nat) (x : QueueRec) : (s.setQueue n x).sched = s.sched := rfl
@[simp] theorem State.setQueue_picks (s : State) (n : Nat) (x : QueueRec) : (s.setQueue n x).picks = s.picks := rfl
@[simp] theorem State.setQueue_work (s : State) (n : Nat) (x : QueueRec) : (s.setQueue n x).work = s.work := rfl
@[simp] theorem State.setQueue_freeCtr (s : State) (n : Nat) (x : QueueRec) : (s.setQueue n x).freeCtr = s.freeCtr := rfl
@[simp] theorem State.setQueue_disp_stations (s : State) (n : Nat) (x : QueueRec) : (s.setQueue n x).disp.stations = s.disp.stations := rfl
@[simp] theorem State.setQueue_disp_deps (s : State) (n : Nat) (x : QueueRec) : (s.setQueue n x).disp.deps = s.disp.deps := rfl
@[simp] theorem State.setQueue_disp_graphs (s : State) (n : Nat) (x : QueueRec) : (s.setQueue n x).disp.graphs = s.disp.graphs := rfl
@[simp] theorem State.setQueue_disp_launches (s : State) (n : Nat) (x : QueueRec) : (s.setQueue n x).disp.launches = s.disp.launches := rfl
@[simp] theorem State.setQueue_disp_tasks (s : State) (n : Nat) (x : QueueRec) : (s.setQueue n x).disp.tasks = s.disp.tasks := rfl
@[simp] theorem State.setQueue_disp_saved (s : State) (n : Nat) (x : QueueRec) : (s.setQueue n x).disp.saved = s.disp.saved := rfl

/-! ## State.setLaunch -/

@[simp] theorem State.setLaunch_part (s : State) (n : Nat) (x : Launch) : (s.setLaunch n x).part = s.part := rfl
@[simp] theorem State.setLaunch_device (s : State) (n : Nat) (x : Launch) : (s.setLaunch n x).device = s.device := rfl
@[simp] theorem State.setLaunch_cycle (s : State) (n : Nat) (x : Launch) : (s.setLaunch n x).cycle = s.cycle := rfl
@[simp] theorem State.setLaunch_cur (s : State) (n : Nat) (x : Launch) : (s.setLaunch n x).cur = s.cur := rfl
@[simp] theorem State.setLaunch_fab (s : State) (n : Nat) (x : Launch) : (s.setLaunch n x).fab = s.fab := rfl
@[simp] theorem State.setLaunch_mem (s : State) (n : Nat) (x : Launch) : (s.setLaunch n x).mem = s.mem := rfl
@[simp] theorem State.setLaunch_tables (s : State) (n : Nat) (x : Launch) : (s.setLaunch n x).tables = s.tables := rfl
@[simp] theorem State.setLaunch_net (s : State) (n : Nat) (x : Launch) : (s.setLaunch n x).net = s.net := rfl
@[simp] theorem State.setLaunch_indexes (s : State) (n : Nat) (x : Launch) : (s.setLaunch n x).indexes = s.indexes := rfl
@[simp] theorem State.setLaunch_fw (s : State) (n : Nat) (x : Launch) : (s.setLaunch n x).fw = s.fw := rfl
@[simp] theorem State.setLaunch_host (s : State) (n : Nat) (x : Launch) : (s.setLaunch n x).host = s.host := rfl
@[simp] theorem State.setLaunch_sched (s : State) (n : Nat) (x : Launch) : (s.setLaunch n x).sched = s.sched := rfl
@[simp] theorem State.setLaunch_picks (s : State) (n : Nat) (x : Launch) : (s.setLaunch n x).picks = s.picks := rfl
@[simp] theorem State.setLaunch_work (s : State) (n : Nat) (x : Launch) : (s.setLaunch n x).work = s.work := rfl
@[simp] theorem State.setLaunch_freeCtr (s : State) (n : Nat) (x : Launch) : (s.setLaunch n x).freeCtr = s.freeCtr := rfl
@[simp] theorem State.setLaunch_disp_stations (s : State) (n : Nat) (x : Launch) : (s.setLaunch n x).disp.stations = s.disp.stations := rfl
@[simp] theorem State.setLaunch_disp_queues (s : State) (n : Nat) (x : Launch) : (s.setLaunch n x).disp.queues = s.disp.queues := rfl
@[simp] theorem State.setLaunch_disp_deps (s : State) (n : Nat) (x : Launch) : (s.setLaunch n x).disp.deps = s.disp.deps := rfl
@[simp] theorem State.setLaunch_disp_graphs (s : State) (n : Nat) (x : Launch) : (s.setLaunch n x).disp.graphs = s.disp.graphs := rfl
@[simp] theorem State.setLaunch_disp_tasks (s : State) (n : Nat) (x : Launch) : (s.setLaunch n x).disp.tasks = s.disp.tasks := rfl
@[simp] theorem State.setLaunch_disp_saved (s : State) (n : Nat) (x : Launch) : (s.setLaunch n x).disp.saved = s.disp.saved := rfl

/-! ## State.modLaunch -/

@[simp] theorem State.modLaunch_part (s : State) (n : Nat) (f : Launch → Launch) : (s.modLaunch n f).part = s.part := rfl
@[simp] theorem State.modLaunch_device (s : State) (n : Nat) (f : Launch → Launch) : (s.modLaunch n f).device = s.device := rfl
@[simp] theorem State.modLaunch_cycle (s : State) (n : Nat) (f : Launch → Launch) : (s.modLaunch n f).cycle = s.cycle := rfl
@[simp] theorem State.modLaunch_cur (s : State) (n : Nat) (f : Launch → Launch) : (s.modLaunch n f).cur = s.cur := rfl
@[simp] theorem State.modLaunch_fab (s : State) (n : Nat) (f : Launch → Launch) : (s.modLaunch n f).fab = s.fab := rfl
@[simp] theorem State.modLaunch_mem (s : State) (n : Nat) (f : Launch → Launch) : (s.modLaunch n f).mem = s.mem := rfl
@[simp] theorem State.modLaunch_tables (s : State) (n : Nat) (f : Launch → Launch) : (s.modLaunch n f).tables = s.tables := rfl
@[simp] theorem State.modLaunch_net (s : State) (n : Nat) (f : Launch → Launch) : (s.modLaunch n f).net = s.net := rfl
@[simp] theorem State.modLaunch_indexes (s : State) (n : Nat) (f : Launch → Launch) : (s.modLaunch n f).indexes = s.indexes := rfl
@[simp] theorem State.modLaunch_fw (s : State) (n : Nat) (f : Launch → Launch) : (s.modLaunch n f).fw = s.fw := rfl
@[simp] theorem State.modLaunch_host (s : State) (n : Nat) (f : Launch → Launch) : (s.modLaunch n f).host = s.host := rfl
@[simp] theorem State.modLaunch_sched (s : State) (n : Nat) (f : Launch → Launch) : (s.modLaunch n f).sched = s.sched := rfl
@[simp] theorem State.modLaunch_picks (s : State) (n : Nat) (f : Launch → Launch) : (s.modLaunch n f).picks = s.picks := rfl
@[simp] theorem State.modLaunch_work (s : State) (n : Nat) (f : Launch → Launch) : (s.modLaunch n f).work = s.work := rfl
@[simp] theorem State.modLaunch_freeCtr (s : State) (n : Nat) (f : Launch → Launch) : (s.modLaunch n f).freeCtr = s.freeCtr := rfl
@[simp] theorem State.modLaunch_disp_stations (s : State) (n : Nat) (f : Launch → Launch) : (s.modLaunch n f).disp.stations = s.disp.stations := rfl
@[simp] theorem State.modLaunch_disp_queues (s : State) (n : Nat) (f : Launch → Launch) : (s.modLaunch n f).disp.queues = s.disp.queues := rfl
@[simp] theorem State.modLaunch_disp_deps (s : State) (n : Nat) (f : Launch → Launch) : (s.modLaunch n f).disp.deps = s.disp.deps := rfl
@[simp] theorem State.modLaunch_disp_graphs (s : State) (n : Nat) (f : Launch → Launch) : (s.modLaunch n f).disp.graphs = s.disp.graphs := rfl
@[simp] theorem State.modLaunch_disp_tasks (s : State) (n : Nat) (f : Launch → Launch) : (s.modLaunch n f).disp.tasks = s.disp.tasks := rfl
@[simp] theorem State.modLaunch_disp_saved (s : State) (n : Nat) (f : Launch → Launch) : (s.modLaunch n f).disp.saved = s.disp.saved := rfl

/-! ## State.setContext -/

@[simp] theorem State.setContext_part (s : State) (asid : BitVec 16) (x : Context) : (s.setContext asid x).part = s.part := rfl
@[simp] theorem State.setContext_device (s : State) (asid : BitVec 16) (x : Context) : (s.setContext asid x).device = s.device := rfl
@[simp] theorem State.setContext_cycle (s : State) (asid : BitVec 16) (x : Context) : (s.setContext asid x).cycle = s.cycle := rfl
@[simp] theorem State.setContext_cur (s : State) (asid : BitVec 16) (x : Context) : (s.setContext asid x).cur = s.cur := rfl
@[simp] theorem State.setContext_fab (s : State) (asid : BitVec 16) (x : Context) : (s.setContext asid x).fab = s.fab := rfl
@[simp] theorem State.setContext_mem (s : State) (asid : BitVec 16) (x : Context) : (s.setContext asid x).mem = s.mem := rfl
@[simp] theorem State.setContext_tables (s : State) (asid : BitVec 16) (x : Context) : (s.setContext asid x).tables = s.tables := rfl
@[simp] theorem State.setContext_net (s : State) (asid : BitVec 16) (x : Context) : (s.setContext asid x).net = s.net := rfl
@[simp] theorem State.setContext_disp (s : State) (asid : BitVec 16) (x : Context) : (s.setContext asid x).disp = s.disp := rfl
@[simp] theorem State.setContext_indexes (s : State) (asid : BitVec 16) (x : Context) : (s.setContext asid x).indexes = s.indexes := rfl
@[simp] theorem State.setContext_host (s : State) (asid : BitVec 16) (x : Context) : (s.setContext asid x).host = s.host := rfl
@[simp] theorem State.setContext_sched (s : State) (asid : BitVec 16) (x : Context) : (s.setContext asid x).sched = s.sched := rfl
@[simp] theorem State.setContext_picks (s : State) (asid : BitVec 16) (x : Context) : (s.setContext asid x).picks = s.picks := rfl
@[simp] theorem State.setContext_work (s : State) (asid : BitVec 16) (x : Context) : (s.setContext asid x).work = s.work := rfl
@[simp] theorem State.setContext_freeCtr (s : State) (asid : BitVec 16) (x : Context) : (s.setContext asid x).freeCtr = s.freeCtr := rfl

/-! ## State.setIndex -/

@[simp] theorem State.setIndex_part (s : State) (n : Nat) (x : LIndex) : (s.setIndex n x).part = s.part := rfl
@[simp] theorem State.setIndex_device (s : State) (n : Nat) (x : LIndex) : (s.setIndex n x).device = s.device := rfl
@[simp] theorem State.setIndex_cycle (s : State) (n : Nat) (x : LIndex) : (s.setIndex n x).cycle = s.cycle := rfl
@[simp] theorem State.setIndex_cur (s : State) (n : Nat) (x : LIndex) : (s.setIndex n x).cur = s.cur := rfl
@[simp] theorem State.setIndex_fab (s : State) (n : Nat) (x : LIndex) : (s.setIndex n x).fab = s.fab := rfl
@[simp] theorem State.setIndex_mem (s : State) (n : Nat) (x : LIndex) : (s.setIndex n x).mem = s.mem := rfl
@[simp] theorem State.setIndex_tables (s : State) (n : Nat) (x : LIndex) : (s.setIndex n x).tables = s.tables := rfl
@[simp] theorem State.setIndex_net (s : State) (n : Nat) (x : LIndex) : (s.setIndex n x).net = s.net := rfl
@[simp] theorem State.setIndex_disp (s : State) (n : Nat) (x : LIndex) : (s.setIndex n x).disp = s.disp := rfl
@[simp] theorem State.setIndex_fw (s : State) (n : Nat) (x : LIndex) : (s.setIndex n x).fw = s.fw := rfl
@[simp] theorem State.setIndex_host (s : State) (n : Nat) (x : LIndex) : (s.setIndex n x).host = s.host := rfl
@[simp] theorem State.setIndex_sched (s : State) (n : Nat) (x : LIndex) : (s.setIndex n x).sched = s.sched := rfl
@[simp] theorem State.setIndex_picks (s : State) (n : Nat) (x : LIndex) : (s.setIndex n x).picks = s.picks := rfl
@[simp] theorem State.setIndex_work (s : State) (n : Nat) (x : LIndex) : (s.setIndex n x).work = s.work := rfl
@[simp] theorem State.setIndex_freeCtr (s : State) (n : Nat) (x : LIndex) : (s.setIndex n x).freeCtr = s.freeCtr := rfl

/-! ## State.addWork -/

@[simp] theorem State.addWork_part (s : State) (delay : Nat) (ev : Ev) : (s.addWork delay ev).part = s.part := rfl
@[simp] theorem State.addWork_device (s : State) (delay : Nat) (ev : Ev) : (s.addWork delay ev).device = s.device := rfl
@[simp] theorem State.addWork_cycle (s : State) (delay : Nat) (ev : Ev) : (s.addWork delay ev).cycle = s.cycle := rfl
@[simp] theorem State.addWork_cur (s : State) (delay : Nat) (ev : Ev) : (s.addWork delay ev).cur = s.cur := rfl
@[simp] theorem State.addWork_fab (s : State) (delay : Nat) (ev : Ev) : (s.addWork delay ev).fab = s.fab := rfl
@[simp] theorem State.addWork_mem (s : State) (delay : Nat) (ev : Ev) : (s.addWork delay ev).mem = s.mem := rfl
@[simp] theorem State.addWork_tables (s : State) (delay : Nat) (ev : Ev) : (s.addWork delay ev).tables = s.tables := rfl
@[simp] theorem State.addWork_net (s : State) (delay : Nat) (ev : Ev) : (s.addWork delay ev).net = s.net := rfl
@[simp] theorem State.addWork_disp (s : State) (delay : Nat) (ev : Ev) : (s.addWork delay ev).disp = s.disp := rfl
@[simp] theorem State.addWork_indexes (s : State) (delay : Nat) (ev : Ev) : (s.addWork delay ev).indexes = s.indexes := rfl
@[simp] theorem State.addWork_fw (s : State) (delay : Nat) (ev : Ev) : (s.addWork delay ev).fw = s.fw := rfl
@[simp] theorem State.addWork_host (s : State) (delay : Nat) (ev : Ev) : (s.addWork delay ev).host = s.host := rfl
@[simp] theorem State.addWork_sched (s : State) (delay : Nat) (ev : Ev) : (s.addWork delay ev).sched = s.sched := rfl
@[simp] theorem State.addWork_picks (s : State) (delay : Nat) (ev : Ev) : (s.addWork delay ev).picks = s.picks := rfl
@[simp] theorem State.addWork_freeCtr (s : State) (delay : Nat) (ev : Ev) : (s.addWork delay ev).freeCtr = s.freeCtr := rfl

/-! ## Reads of a unit after an update -/

@[simp] theorem State.thread?_setThread_self (s : State) (uid : Nat) (t : Thread) : (s.setThread uid t).thread? uid = some t := by
  simp [State.thread?, State.setThread]
@[simp] theorem State.thread?_setThread_ne (s : State) {uid v : Nat} (t : Thread) (h : v ≠ uid) :
    (s.setThread uid t).thread? v = s.thread? v := by
  simp [State.thread?, State.setThread, h]
@[simp] theorem State.thread?_modThread_self (s : State) (uid : Nat) (f : Thread → Thread) :
    (s.modThread uid f).thread? uid = (s.thread? uid).map f := by
  simp [State.thread?, State.modThread]
@[simp] theorem State.thread?_modThread_ne (s : State) {uid v : Nat} (f : Thread → Thread) (h : v ≠ uid) :
    (s.modThread uid f).thread? v = s.thread? v := by
  simp [State.thread?, State.modThread, h]
@[simp] theorem State.seat_setSeat_self (s : State) (n : Nat) (x : Seat) : (s.setSeat n x).seat n = x := by
  simp [State.seat, State.setSeat]
@[simp] theorem State.seat_setSeat_ne (s : State) {n k : Nat} (x : Seat) (h : k ≠ n) : (s.setSeat n x).seat k = s.seat k := by
  simp [State.seat, State.setSeat, h]
@[simp] theorem State.seat_modSeat_self (s : State) (n : Nat) (f : Seat → Seat) : (s.modSeat n f).seat n = f (s.seat n) := by
  simp [State.modSeat]
@[simp] theorem State.seat_modSeat_ne (s : State) {n k : Nat} (f : Seat → Seat) (h : k ≠ n) : (s.modSeat n f).seat k = s.seat k := by
  simp [State.modSeat, h]
@[simp] theorem State.core_setCore_self (s : State) (n : Nat) (x : Core) : (s.setCore n x).core n = x := by
  simp [State.core, State.setCore]
@[simp] theorem State.core_setCore_ne (s : State) {n k : Nat} (x : Core) (h : k ≠ n) : (s.setCore n x).core k = s.core k := by
  simp [State.core, State.setCore, h]
@[simp] theorem State.core_modCore_self (s : State) (n : Nat) (f : Core → Core) : (s.modCore n f).core n = f (s.core n) := by
  simp [State.modCore]
@[simp] theorem State.core_modCore_ne (s : State) {n k : Nat} (f : Core → Core) (h : k ≠ n) : (s.modCore n f).core k = s.core k := by
  simp [State.modCore, h]
@[simp] theorem State.tile_setTile_self (s : State) (n : Nat) (x : Tile) : (s.setTile n x).tile n = x := by
  simp [State.tile, State.setTile]
@[simp] theorem State.tile_modTile_self (s : State) (n : Nat) (f : Tile → Tile) : (s.modTile n f).tile n = f (s.tile n) := by
  simp [State.modTile]
@[simp] theorem State.req?_setReq_self (s : State) (n : Nat) (x : Req) : (s.setReq n x).req? n = some x := by
  simp [State.req?, State.setReq]
@[simp] theorem State.msg?_setMsg_self (s : State) (n : Nat) (x : Msg) : (s.setMsg n x).msg? n = some x := by
  simp [State.msg?, State.setMsg]
@[simp] theorem State.context?_setContext_self (s : State) (asid : BitVec 16) (x : Context) : (s.setContext asid x).context? asid = some x := by
  simp [State.context?, State.setContext]

/-- What a seat, a thread, a core or a context reads depends on its own map alone. -/
theorem State.seat_of_seats {s t : State} (h : t.fab.seats = s.fab.seats) (n : Nat) : t.seat n = s.seat n := by
  simp only [State.seat, h]
theorem State.thread_of_threads {s t : State} (h : t.fab.threads = s.fab.threads) (n : Nat) : t.thread? n = s.thread? n := by
  simp only [State.thread?, h]
theorem State.core_of_cores {s t : State} (h : t.fab.cores = s.fab.cores) (n : Nat) : t.core n = s.core n := by
  simp only [State.core, h]

@[simp] theorem State.seat_setThread (s : State) (uid : Nat) (t : Thread) (n : Nat) : (s.setThread uid t).seat n = s.seat n := rfl
@[simp] theorem State.seat_modThread (s : State) (uid : Nat) (f : Thread → Thread) (n : Nat) : (s.modThread uid f).seat n = s.seat n := rfl
@[simp] theorem State.seat_modCore (s : State) (k : Nat) (f : Core → Core) (n : Nat) : (s.modCore k f).seat n = s.seat n := rfl
@[simp] theorem State.seat_addWork (s : State) (d : Nat) (e : Ev) (n : Nat) : (s.addWork d e).seat n = s.seat n := rfl
@[simp] theorem State.thread?_modSeat (s : State) (n : Nat) (f : Seat → Seat) (u : Nat) : (s.modSeat n f).thread? u = s.thread? u := rfl
@[simp] theorem State.thread?_setSeat (s : State) (n : Nat) (x : Seat) (u : Nat) : (s.setSeat n x).thread? u = s.thread? u := rfl
@[simp] theorem State.thread?_modCore (s : State) (k : Nat) (f : Core → Core) (u : Nat) : (s.modCore k f).thread? u = s.thread? u := rfl
@[simp] theorem State.thread?_addWork (s : State) (d : Nat) (e : Ev) (u : Nat) : (s.addWork d e).thread? u = s.thread? u := rfl
@[simp] theorem State.core_modThread (s : State) (uid : Nat) (f : Thread → Thread) (k : Nat) : (s.modThread uid f).core k = s.core k := rfl
@[simp] theorem State.core_modSeat (s : State) (n : Nat) (f : Seat → Seat) (k : Nat) : (s.modSeat n f).core k = s.core k := rfl
@[simp] theorem State.core_addWork (s : State) (d : Nat) (e : Ev) (k : Nat) : (s.addWork d e).core k = s.core k := rfl


end Sys2Proof.Machine
end

