-- ==== Sys2Proof/Laws/Memory.lean ====
section
/-!
SUPPORT. Memory keeps its canonical form: one law for each operation that writes it, and the one that `noteWrite`, which follows a write to physical
memory, leaves memory alone.
-/

set_option Elab.async false

namespace Sys2Proof.Machine

/-! ## Sets of numbers -/

theorem NSet.wf_cons {k : Nat} {rest : NSet} (h : NSet.wf (k :: rest) = true) : NSet.wf rest = true ∧ ∀ n ∈ rest, k < n := by
  induction rest generalizing k with
  | nil => simp [NSet.wf]
  | cons j r ih =>
    simp only [NSet.wf, Bool.and_eq_true, decide_eq_true_eq] at h
    refine ⟨h.2, fun n hn => ?_⟩
    rcases List.mem_cons.1 hn with rfl | hn
    · exact h.1
    · exact Nat.lt_trans h.1 ((ih h.2).2 n hn)

theorem NSet.wf_of_cons {k : Nat} {rest : NSet} (hr : NSet.wf rest = true) (hk : ∀ n ∈ rest, k < n) : NSet.wf (k :: rest) = true := by
  cases rest with
  | nil => rfl
  | cons j r => simp [NSet.wf, hr, hk j (by simp)]

theorem NSet.mem_add {s : NSet} {n k : Nat} (h : k ∈ NSet.add s n) : k ∈ s ∨ k = n := by
  induction s with
  | nil => simpa [NSet.add] using h
  | cons j r ih =>
    simp only [NSet.add] at h
    split at h
    · simp only [List.mem_cons] at h ⊢; tauto
    · split at h
      · exact .inl h
      · simp only [List.mem_cons] at h ⊢
        rcases h with h | h
        · exact .inl (.inl h)
        · rcases ih h with h | h
          · exact .inl (.inr h)
          · exact .inr h

theorem NSet.mem_del {s : NSet} {n k : Nat} (h : k ∈ NSet.del s n) : k ∈ s := by
  induction s with
  | nil => simp [NSet.del] at h
  | cons j r ih =>
    simp only [NSet.del] at h
    split at h
    · simp [h]
    · rcases List.mem_cons.1 h with rfl | h
      · simp
      · simp [ih h]

@[simp] theorem NSet.wf_add {s : NSet} (h : NSet.wf s = true) (n : Nat) : NSet.wf (NSet.add s n) = true := by
  induction s with
  | nil => rfl
  | cons k r ih =>
    obtain ⟨hr, hk⟩ := NSet.wf_cons h
    simp only [NSet.add]
    split
    · rename_i hn
      refine NSet.wf_of_cons h fun m hm => ?_
      rcases List.mem_cons.1 hm with rfl | hm
      · exact hn
      · exact Nat.lt_trans hn (hk m hm)
    · split
      · exact h
      · refine NSet.wf_of_cons (ih hr) fun m hm => ?_
        rcases NSet.mem_add hm with hm | rfl
        · exact hk m hm
        · omega

@[simp] theorem NSet.wf_del {s : NSet} (h : NSet.wf s = true) (n : Nat) : NSet.wf (NSet.del s n) = true := by
  induction s with
  | nil => rfl
  | cons k r ih =>
    obtain ⟨hr, hk⟩ := NSet.wf_cons h
    simp only [NSet.del]
    split
    · exact hr
    · exact NSet.wf_of_cons (ih hr) fun m hm => hk m (NSet.mem_del hm)

@[simp] theorem NSet.wf_put {s : NSet} (h : NSet.wf s = true) (n : Nat) (b : Bool) : NSet.wf (NSet.put s n b) = true := by
  cases b <;> simp [NSet.put, h]

theorem NSet.wf_foldl {f : NSet → Nat → NSet} (hf : ∀ p j, NSet.wf p = true → NSet.wf (f p j) = true) (xs : List Nat) :
    ∀ p, NSet.wf p = true → NSet.wf (xs.foldl f p) = true := by
  induction xs with
  | nil => exact fun _ h => h
  | cons x rest ih => exact fun p h => ih _ (hf p x h)

@[simp] theorem NSet.has_add_ne (s : NSet) {n k : Nat} (h : k ≠ n) : NSet.has (NSet.add s n) k = NSet.has s k := by
  induction s with
  | nil => simp [NSet.add, NSet.has, h]
  | cons j r ih =>
    simp only [NSet.add]
    split
    · simp [NSet.has, h]
    · split
      · rfl
      · simp only [NSet.has, List.contains_cons] at ih ⊢; rw [ih]

@[simp] theorem NSet.has_del_ne (s : NSet) {n k : Nat} (h : k ≠ n) : NSet.has (NSet.del s n) k = NSet.has s k := by
  induction s with
  | nil => rfl
  | cons j r ih =>
    simp only [NSet.del]
    split
    · rename_i hn; subst hn; simp [NSet.has, h]
    · simp only [NSet.has, List.contains_cons] at ih ⊢; rw [ih]

@[simp] theorem NSet.has_put_ne (s : NSet) {n k : Nat} (b : Bool) (h : k ≠ n) : NSet.has (NSet.put s n b) k = NSet.has s k := by
  cases b <;> simp [NSet.put, h]

/-! ## Memory as a whole -/

theorem Memory.wf_iff (m : Memory) : m.wf = true ↔
    Mem.wf m.spad = true ∧ Mem.wf m.phys = true ∧ NSet.wf m.spadEmpty = true ∧ NSet.wf m.spadPoison = true ∧ NSet.wf m.physPoison = true := by
  simp [Memory.wf, and_assoc]

theorem Memory.wf_intro {m : Memory} (h1 : Mem.wf m.spad = true) (h2 : Mem.wf m.phys = true) (h3 : NSet.wf m.spadEmpty = true)
    (h4 : NSet.wf m.spadPoison = true) (h5 : NSet.wf m.physPoison = true) : m.wf = true :=
  (Memory.wf_iff m).2 ⟨h1, h2, h3, h4, h5⟩

/-- Memory at reset. -/
theorem reset_mem_wf : State.reset.mem.wf = true := rfl

/-- An update that leaves memory alone keeps its form. -/
theorem State.MemOk.of_mem {s s' : State} (h : s.MemOk) (e : s'.mem = s.mem) : s'.MemOk := by
  rw [State.MemOk, e]; exact h

/-! ## The scratchpad -/

theorem State.MemOk.localWrite {s : State} (h : s.MemOk) (cl o : Nat) (m : BitVec 8) (w : Word) : (s.localWrite cl o m w).MemOk := by
  obtain ⟨h1, h2, h3, h4, h5⟩ := (Memory.wf_iff _).1 h
  refine Memory.wf_intro (Mem.wf_writeMask h1 ..) h2 h3 ?_ h5
  simp only [State.localWrite]
  split
  · exact NSet.wf_del h4 _
  · exact h4

theorem State.MemOk.setFull {s : State} (h : s.MemOk) (cl o : Nat) (b : Bool) : (s.setFull cl o b).MemOk := by
  obtain ⟨h1, h2, h3, h4, h5⟩ := (Memory.wf_iff _).1 h
  simp only [State.setFull]
  split
  · exact h
  · split <;> exact Memory.wf_intro h1 h2 (NSet.wf_put h3 ..) h4 h5

theorem State.MemOk.setLocalPoison {s : State} (h : s.MemOk) (cl o : Nat) (b : Bool) : (s.setLocalPoison cl o b).MemOk := by
  obtain ⟨h1, h2, h3, h4, h5⟩ := (Memory.wf_iff _).1 h
  exact Memory.wf_intro h1 h2 h3 (NSet.wf_put h4 ..) h5

/-! ## Physical memory -/

/-- A watch that hears of a write changes the requests, the stations and the work, and no byte. -/
@[simp] theorem State.noteWrite_mem (s : State) (a : Nat) : (s.noteWrite a).mem = s.mem := by
  have fold : ∀ (ws : List Watch) (s : State), (ws.foldl State.reportWatch s).mem = s.mem := by
    intro ws
    induction ws with
    | nil => intro s; rfl
    | cons w rest ih =>
      intro s
      rw [List.foldl_cons, ih, State.reportWatch]
      split
      · split <;> rfl
      · rfl
  simp only [State.noteWrite]
  split
  · rfl
  · exact fold _ s

theorem State.MemOk.physWrite {s : State} (h : s.MemOk) (a : Nat) (m : BitVec 64) (d : Line) : (s.physWrite a m d).MemOk := by
  obtain ⟨h1, h2, h3, h4, h5⟩ := (Memory.wf_iff _).1 h
  simp only [State.physWrite]
  split
  · exact h
  · rw [State.MemOk, State.noteWrite_mem]
    refine Memory.wf_intro h1 (Mem.wf_writeMask h2 ..) h3 h4 (NSet.wf_foldl (fun p j hp => ?_) _ _ h5)
    split
    · exact NSet.wf_del hp _
    · exact hp

theorem State.MemOk.physWrite64 {s : State} (h : s.MemOk) (a : Nat) (w : Word) : (s.physWrite64 a w).MemOk := by
  obtain ⟨h1, h2, h3, h4, h5⟩ := (Memory.wf_iff _).1 h
  simp only [State.physWrite64]
  rw [State.MemOk, State.noteWrite_mem]
  exact Memory.wf_intro h1 (Mem.wf_write64 h2 ..) h3 h4 (NSet.wf_del h5 _)

theorem State.MemOk.hostWrite64 {s : State} (h : s.MemOk) (a : Nat) (w : Word) : (s.hostWrite64 a w).MemOk := h.physWrite64 _ w

theorem State.MemOk.hostBytes {s : State} (h : s.MemOk) (a : Nat) (bs : List Byte) : (s.hostBytes a bs).MemOk := by
  induction bs generalizing s a with
  | nil => exact h
  | cons b rest ih =>
    obtain ⟨h1, h2, h3, h4, h5⟩ := (Memory.wf_iff _).1 h
    rw [State.hostBytes]
    refine ih ?_ _
    exact Memory.wf_intro h1 (Mem.wf_write h2 ..) h3 h4 h5

theorem State.MemOk.poisonWords {s : State} (h : s.MemOk) (pa : Nat) (ws : BitVec 8) : (s.poisonWords pa ws).MemOk := by
  obtain ⟨h1, h2, h3, h4, h5⟩ := (Memory.wf_iff _).1 h
  refine Memory.wf_intro h1 h2 h3 h4 (NSet.wf_foldl (fun p j hp => ?_) _ _ h5)
  split
  · exact NSet.wf_add hp _
  · exact hp

theorem copyWords_wf {m : Memory} (h : m.wf = true) (src dst n : Nat) : (copyWords src dst n m).wf = true := by
  induction n generalizing m with
  | zero => exact h
  | succ n ih =>
    obtain ⟨h1, h2, h3, h4, h5⟩ := (Memory.wf_iff _).1 h
    exact ih (Memory.wf_intro h1 (Mem.wf_write64 h2 ..) h3 h4 (NSet.wf_put h5 ..))

end Sys2Proof.Machine
end

