-- ==== Sys2Proof/Laws/Ops.lean ====
section
/-!
SUPPORT. One law for each shared operation over instructions and threads: what `issue` answers, what a retirement, a park, a trap and a
write of a register do.
-/

set_option Elab.async false

namespace Sys2Proof.Machine

/-! ## Issue -/

/-- An instruction whose conditions hold passes its tests. -/
theorem gate_of_issues {i : Instr} {s : State} {uid : Nat} {t : Thread} (h : Issues i s uid t) : gate i s s.cur t = .go := by
  have hg : (if (guardField i).toNat = 0 then Test.pass else testPoisonG t 40) = .pass := by
    rcases h.guardClean with h | h
    · simp [h]
    · simp [testPoisonG, h]
  simp [gate, hg, h.guard, h.legal, h.regs, h.mode, h.sources, h.bindings, h.dests, h.checkpoint, h.reads]

/-- The meaning of an instruction of a seat that holds a thread. -/
theorem issue_seated {i : Instr} {s : State} {uid : Nat} {t : Thread} (h : Seated s uid t) (body : Body) :
    issue i s body = .next (issueAt i s s.cur uid t body) := by
  simp [issue, h.seat, h.thread]

/-- What an instruction that issues answers: its body's effect. -/
theorem issue_go {i : Instr} {s : State} {uid : Nat} {t : Thread} (h : Issues i s uid t) (body : Body) :
    issue i s body = .next (
      let r := body (popSources i s s.cur t) uid t (takeSources i s s.cur t)
      if r.consumes then (r.finish s s.cur uid).intervalAfter i s.cur
      else if r.stands then (r.finish s s.cur uid).giveBack s.cur
      else r.finish s s.cur uid) := by
  rw [issue_seated h.toSeated]
  simp only [issueAt, gate_of_issues h]

/-- An instruction is performed only on a seat that holds a thread. -/
theorem issue_cases {i : Instr} {s s' : State} {body : Body} (h : issue i s body = .next s') :
    ∃ uid t, Seated s uid t ∧ s' = issueAt i s s.cur uid t body := by
  simp only [issue] at h
  split at h
  · cases h
  · rename_i uid ho
    split at h
    · cases h
    · rename_i t ht
      exact ⟨uid, t, ⟨ho, ht⟩, by simpa using h.symm⟩

/-- What an attempt to issue can do: it retires without effect, parks, has words read for its pops, traps, or its body decides. -/
theorem issueAt_cases (i : Instr) (s : State) (seat uid : Nat) (t : Thread) (body : Body) :
    (gate i s seat t = .skip ∧ issueAt i s seat uid t body = retire s seat uid) ∨
    (gate i s seat t = .park ∧ issueAt i s seat uid t body = parkAt s seat uid) ∨
    (gate i s seat t = .checkpoint ∧ issueAt i s seat uid t body = parkAt (s.wantCheckpoint seat) seat uid) ∨
    (∃ offs, gate i s seat t = .fetch offs ∧ issueAt i s seat uid t body = s.fetchPops seat uid offs) ∨
    (∃ c b v, gate i s seat t = .trap c b v ∧ issueAt i s seat uid t body = takeTrap s seat uid c b v) ∨
    (∃ c b v, gate i s seat t = .unbound c b v ∧ ∃ c' b' v',
      ((body s uid t (takeSources i s seat t)).addressTrap = some (c', b', v') ∨
        ((body s uid t (takeSources i s seat t)).addressTrap = none ∧ (c', b', v') = (c, b, v))) ∧
      issueAt i s seat uid t body = takeTrap s seat uid c' b' v') ∨
    (gate i s seat t = .go ∧ ∃ r, r = body (popSources i s seat t) uid t (takeSources i s seat t) ∧
      issueAt i s seat uid t body =
        if r.consumes then (r.finish s seat uid).intervalAfter i seat
        else if r.stands then (r.finish s seat uid).giveBack seat
        else r.finish s seat uid) := by
  simp only [issueAt]
  cases gate i s seat t with
  | unbound c b v =>
    cases h : (body s uid t (takeSources i s seat t)).addressTrap with
    | none => exact .inr (.inr (.inr (.inr (.inr (.inl ⟨c, b, v, rfl, c, b, v, by simp⟩)))))
    | some p => exact .inr (.inr (.inr (.inr (.inr (.inl ⟨c, b, v, rfl, p.1, p.2.1, p.2.2, by simp⟩)))))
  | _ => simp

/-! ## What an instruction answers by the answer of its body -/

section
variable {i : Instr} {s : State} {uid : Nat} {t : Thread} {body : Body}

theorem issue_done (h : Issues i s uid t) {s' : State} (hb : body (popSources i s s.cur t) uid t (takeSources i s s.cur t) = .done s') :
    issue i s body = .next ((retire s' s.cur uid).intervalAfter i s.cur) := by
  simp [issue_go h, hb, Res.consumes, Res.finish]

theorem issue_jump (h : Issues i s uid t) {s' : State} {pc : Word}
    (hb : body (popSources i s s.cur t) uid t (takeSources i s s.cur t) = .jump s' pc) :
    issue i s body = .next ((retireTo s' s.cur uid pc).intervalAfter i s.cur) := by
  simp [issue_go h, hb, Res.consumes, Res.finish]

theorem issue_leave (h : Issues i s uid t) {s' : State} (hb : body (popSources i s s.cur t) uid t (takeSources i s s.cur t) = .leave s') :
    issue i s body = .next (s'.intervalAfter i s.cur) := by
  simp [issue_go h, hb, Res.consumes, Res.finish]

theorem issue_park (h : Issues i s uid t) (hb : body (popSources i s s.cur t) uid t (takeSources i s s.cur t) = .park) :
    issue i s body = .next (parkAt s s.cur uid) := by
  simp [issue_go h, hb, Res.consumes, Res.stands, Res.finish]

theorem issue_trap (h : Issues i s uid t) {c b : BitVec 8} {v : Word}
    (hb : body (popSources i s s.cur t) uid t (takeSources i s s.cur t) = .trap c b v) :
    issue i s body = .next (takeTrap s s.cur uid c b v) := by
  simp [issue_go h, hb, Res.consumes, Res.stands, Res.finish]

theorem issue_wait (h : Issues i s uid t) {s' : State} (hb : body (popSources i s s.cur t) uid t (takeSources i s s.cur t) = .wait s') :
    issue i s body = .next ((parkWait s' s.cur uid).giveBack s.cur) := by
  simp [issue_go h, hb, Res.consumes, Res.stands, Res.finish]

theorem issue_parkIn (h : Issues i s uid t) {s' : State} (hb : body (popSources i s s.cur t) uid t (takeSources i s s.cur t) = .parkIn s') :
    issue i s body = .next ((parkAt s' s.cur uid).giveBack s.cur) := by
  simp [issue_go h, hb, Res.consumes, Res.stands, Res.finish]

theorem issue_trapIn (h : Issues i s uid t) {s' : State} {c b : BitVec 8} {v : Word}
    (hb : body (popSources i s s.cur t) uid t (takeSources i s s.cur t) = .trapIn s' c b v) :
    issue i s body = .next ((takeTrap s' s.cur uid c b v).giveBack s.cur) := by
  simp [issue_go h, hb, Res.consumes, Res.stands, Res.finish]

end

/-! ## The seat that `cur` names -/

/-- Reading the sources moves neither `cur` nor a thread's place. -/
@[simp] theorem State.popFed_cur (s : State) (x : Queue) : (s.popFed x).cur = s.cur := by
  simp only [State.popFed]
  split <;> rfl

@[simp] theorem State.roomInRing_cur (s : State) (core : Nat) : (s.roomInRing core).cur = s.cur := by
  simp only [State.roomInRing]
  split <;> rfl

@[simp] theorem State.localWrite_cur (s : State) (c o : Nat) (m : BitVec 8) (w : Word) : (s.localWrite c o m w).cur = s.cur := rfl

@[simp] theorem State.headPastTaken_cur (s : State) (core : Nat) : (s.headPastTaken core).cur = s.cur := by
  simp only [State.headPastTaken]
  split <;> simp [State.setCore]

@[simp] theorem State.landPieces_cur (s : State) (asid : BitVec 16) : (s.landPieces asid).cur = s.cur := by
  simp only [State.landPieces]
  split <;> rfl

@[simp] theorem State.popQueue_cur (s : State) (seat q : Nat) (t : Thread) : (s.popQueue seat q t).2.cur = s.cur := by
  simp only [State.popQueue]
  repeat' split
  all_goals simp [State.freeW]

@[simp] theorem State.keepPop_cur (s : State) (seat : Nat) (p : Option PopRec) : (s.keepPop seat p).cur = s.cur := by
  cases p <;> rfl

theorem popAll_cur (seat : Nat) (t : Thread) (ns : List Nat) (s : State) : (popAll seat t ns s).2.cur = s.cur := by
  induction ns generalizing s with
  | nil => rfl
  | cons n rest ih =>
    simp only [popAll]
    split <;> simp [ih]

@[simp] theorem State.occupyBanks_cur (s : State) (core : Nat) (offs : List Nat) : (s.occupyBanks core offs).cur = s.cur := by
  simp only [State.occupyBanks]
  induction offs generalizing s with
  | nil => rfl
  | cons o rest ih => exact (ih _).trans rfl

@[simp] theorem popSources_cur (i : Instr) (s : State) (seat : Nat) (t : Thread) : (popSources i s seat t).cur = s.cur := by
  simp [popSources, popAll_cur]

end Sys2Proof.Machine
end

