-- ==== Sys2Proof/Laws/Frames.lean ====
section
/-!
SUPPORT. What the shared operations of an instruction leave alone: counting, retiring, parking, trapping and writing a register leave memory and
every other thread as they were.
-/

set_option Elab.async false

namespace Sys2Proof.Machine

/-! ## Memory -/

@[simp] theorem State.countAt_mem (s : State) (n ev k : Nat) : (s.countAt n ev k).mem = s.mem := by
  simp only [State.countAt]; split <;> rfl

@[simp] theorem State.countEv_mem (s : State) (n ev k : Nat) : (s.countEv n ev k).mem = s.mem := by
  simp only [State.countEv]; split <;> simp

@[simp] theorem queueParts_mem (u : BankUser) (c : Nat) (l : List (Nat × Nat × BankPart)) (s : State) : (queueParts u c l s).mem = s.mem := by
  induction l generalizing s with
  | nil => rfl
  | cons p rest ih => simp [queueParts, ih]

@[simp] theorem State.postTaken_mem (s : State) (n : Nat) (p : PopRec) : (s.postTaken n p).mem = s.mem := by
  simp only [State.postTaken]
  repeat' split
  all_goals simp

@[simp] theorem State.dropPops_mem (s : State) (n : Nat) : (s.dropPops n).mem = s.mem := by
  simp only [State.dropPops]; split <;> rfl

@[simp] theorem State.forgetPops_mem (s : State) (n : Nat) : (s.forgetPops n).mem = s.mem := by
  simp only [State.forgetPops, State.dropPops_mem]
  generalize (s.seat n).pops = l
  induction l generalizing s with
  | nil => rfl
  | cons p rest ih => simp [ih]

@[simp] theorem retire_mem (s : State) (n uid : Nat) : (retire s n uid).mem = s.mem := by
  simp [retire]

@[simp] theorem retireTo_mem (s : State) (n uid : Nat) (pc : Word) : (retireTo s n uid pc).mem = s.mem := by
  simp [retireTo]

@[simp] theorem parkAt_mem (s : State) (n uid : Nat) : (parkAt s n uid).mem = s.mem := by
  simp [parkAt]

@[simp] theorem parkWait_mem (s : State) (n uid : Nat) : (parkWait s n uid).mem = s.mem := by
  simp [parkWait]

@[simp] theorem returnTo_mem (s : State) (n uid : Nat) (pc : Word) : (returnTo s n uid pc).mem = s.mem := rfl

@[simp] theorem State.trapStop_mem (s : State) (n uid : Nat) (a : BitVec 16) (y : SysRegs) : (s.trapStop n uid a y).mem = s.mem := by
  simp [State.trapStop]

@[simp] theorem takeTrap_mem (s : State) (n uid : Nat) (c b : BitVec 8) (v : Word) : (takeTrap s n uid c b v).mem = s.mem := by
  simp only [takeTrap]
  split
  · rfl
  · split
    · simp
    · simp
    · rw [State.trapStop_mem]; simp

@[simp] theorem State.newInterval_mem (s : State) (n : Nat) : (s.newInterval n).mem = s.mem := by
  simp only [State.newInterval]
  split <;> rfl

@[simp] theorem State.intervalAfter_mem (s : State) (i : Instr) (n : Nat) : (s.intervalAfter i n).mem = s.mem := by
  simp only [State.intervalAfter]
  split
  · exact s.newInterval_mem n
  · rfl

@[simp] theorem State.wantCheckpoint_mem (s : State) (n : Nat) : (s.wantCheckpoint n).mem = s.mem := by
  simp only [State.wantCheckpoint]
  split
  · rfl
  · split <;> rfl

@[simp] theorem State.inject_mem (s : State) (id : Nat) : (s.inject id).mem = s.mem := by
  simp only [State.inject]
  split
  · simp only [State.arm, State.countSent]
    repeat' split
    all_goals rfl
  · rfl

@[simp] theorem State.injectNext_mem (s : State) (n : Nat) (o : Nat × Nat) : (s.injectNext n o).mem = s.mem := by
  simp only [State.injectNext]
  split
  · rfl
  · split
    · split <;> simp
    · rfl

@[simp] theorem State.sendMsg_mem (s : State) (m : Msg) : (s.sendMsg m).mem = s.mem := by
  simp only [State.sendMsg, State.injectNext_mem]
  split <;> rfl

@[simp] theorem State.pushQueue_mem (s : State) (n uid : Nat) (t : Thread) (q : Nat) (w : Word) : (s.pushQueue n uid t q w).mem = s.mem := by
  simp only [State.pushQueue]
  split
  · rfl
  · split <;> simp

@[simp] theorem State.putD_mem (s : State) (n uid : Nat) (d : BitVec 6) (w : Word) : (s.putD n uid d w).mem = s.mem := by
  simp only [State.putD]
  split
  · rfl
  · split
    · split <;> simp
    · rfl

@[simp] theorem State.putV_mem (s : State) (uid : Nat) (n : BitVec 4) (l : Line) : (s.putV uid n l).mem = s.mem := rfl

/-! ## Threads -/

@[simp] theorem State.countAt_thread? (s : State) (n ev k v : Nat) : (s.countAt n ev k).thread? v = s.thread? v := by
  simp only [State.countAt]; split <;> rfl

@[simp] theorem State.countEv_thread? (s : State) (n ev k v : Nat) : (s.countEv n ev k).thread? v = s.thread? v := by
  simp only [State.countEv]; split <;> simp

@[simp] theorem queueParts_thread? (u : BankUser) (c : Nat) (l : List (Nat × Nat × BankPart)) (s : State) (v : Nat) :
    (queueParts u c l s).thread? v = s.thread? v := by
  induction l generalizing s with
  | nil => rfl
  | cons p rest ih => simp only [queueParts, ih]; rfl

@[simp] theorem State.postTaken_thread? (s : State) (n : Nat) (p : PopRec) (v : Nat) : (s.postTaken n p).thread? v = s.thread? v := by
  simp only [State.postTaken]
  repeat' split
  all_goals simp

@[simp] theorem State.dropPops_thread? (s : State) (n v : Nat) : (s.dropPops n).thread? v = s.thread? v := by
  simp only [State.dropPops]; split <;> rfl

@[simp] theorem State.forgetPops_thread? (s : State) (n v : Nat) : (s.forgetPops n).thread? v = s.thread? v := by
  simp only [State.forgetPops, State.dropPops_thread?]
  generalize (s.seat n).pops = l
  induction l generalizing s with
  | nil => rfl
  | cons p rest ih => simp [ih]

theorem State.modThread_thread?_ne (s : State) (uid : Nat) (f : Thread → Thread) {v : Nat} (h : v ≠ uid) :
    (s.modThread uid f).thread? v = s.thread? v := FMap.find?_modify_ne _ _ h

theorem State.modThread_thread?_self (s : State) (uid : Nat) (f : Thread → Thread) :
    (s.modThread uid f).thread? uid = (s.thread? uid).map f := FMap.find?_modify_self _ _ _

/-- A retirement: the thread moves on and its wait ends. -/
theorem retire_thread?_self (s : State) (n uid : Nat) :
    (retire s n uid).thread? uid = (s.thread? uid).map fun t => { t.advance with park := Park.init } := by
  simp [retire]

theorem retire_thread?_ne (s : State) (n uid : Nat) {v : Nat} (h : v ≠ uid) : (retire s n uid).thread? v = s.thread? v := by
  simp [retire, State.modThread_thread?_ne _ _ _ h]

theorem parkAt_thread?_ne (s : State) (n uid : Nat) {v : Nat} (h : v ≠ uid) : (parkAt s n uid).thread? v = s.thread? v := by
  simp [parkAt, State.modThread_thread?_ne _ _ _ h]

@[simp] theorem State.trapStop_thread? (s : State) (n uid : Nat) (a : BitVec 16) (y : SysRegs) (v : Nat) :
    (s.trapStop n uid a y).thread? v = s.thread? v := by
  simp [State.trapStop]

theorem takeTrap_thread?_ne (s : State) (n uid : Nat) (c b : BitVec 8) (x : Word) {v : Nat} (h : v ≠ uid) :
    (takeTrap s n uid c b x).thread? v = s.thread? v := by
  have ins (s : State) (t : Thread) : (s.setThread uid t).thread? v = s.thread? v := FMap.find?_insert_ne _ _ h
  have e : (s.countEv n 13 1).thread? v = s.thread? v := State.countEv_thread? ..
  simp only [takeTrap]
  split
  · rfl
  · split
    · rw [ins, e]
    · rw [ins, e]
    · rw [State.trapStop_thread?, ins, e]

/-- A general register that is written reads as the value, and no other register of the file changes. -/
theorem Regs.view_put (r : Regs) {n : Nat} (v : Word) (h : n < 24) : (r.put n v).view n = .full v := by
  have hb : (putBit r.full n true).getLsbD n = true := by
    simp only [putBit, if_true, BitVec.getLsbD_or, BitVec.getLsbD_ofNat, Nat.testBit_two_pow_self, h, decide_true, Bool.and_self, Bool.or_true]
  simp [Regs.view, Regs.put, hb, vget_vset_self _ _ _ h]

end Sys2Proof.Machine
end

