-- ==== Sys2Proof/Laws/PerInstr.lean ====
section
/-!
SUPPORT. The family `Encode` of claims made per instruction: the decoder reads a well-formed instruction back from its word.
-/

section

set_option linter.unusedSimpArgs false
set_option Elab.async false

/-- What is claimed of each instruction. -/
def Sys2Proof.Laws.Encode.Statement (i : Sys2Proof.Instr) : Prop := i.wellFormed = true → Sys2Proof.decode (Sys2Proof.encode i) = .ok i

namespace Sys2Proof.Laws

/-- A word whose row is an instruction's, with clean reserved bits, decodes to the instruction. -/
theorem decode_of_row {w b z3 z7 z4 : BitVec 32} {i : Instr} (h : decodeRow w = .ok ⟨i, b, z3, z7, z4⟩) (hw : i.wellFormed = true)
    (h3 : (w ^^^ b) &&& z3 = 0) (h7 : (w ^^^ b) &&& z7 = 0) (h4 : (w ^^^ b) &&& z4 = 0) : decode w = .ok i := by
  have e := check_of_wellFormed (w := w) (r := ⟨i, b, z3, z7, z4⟩) hw h3 h7 h4
  simp only [decode, h, e]

end Sys2Proof.Laws

open Sys2Proof Sys2Proof.Laws

theorem Sys2Proof.Laws.Encode.add (o : OpR) : Encode.Statement (.add o) := by
  intro h
  have e : decodeRow (encode (.add o)) = .ok ⟨.add o, 0x04000000, 0x00000000, 0x00000000, 0x00000000⟩ := by
    rw [encode, decodeRow_Alu]
    · simp (disch := decide) only [decodeAlu, fixed_of_or (mask_OpR o), read_OpR o]
      try rfl
    · rw [fixed_of_or (mask_OpR o) (by decide)]; decide
  exact decode_of_row e h (reserved_of_or (mask_OpR o) (by decide) (by decide)) (reserved_of_or (mask_OpR o) (by decide) (by decide))
    (reserved_of_or (mask_OpR o) (by decide) (by decide))

theorem Sys2Proof.Laws.Encode.sub (o : OpR) : Encode.Statement (.sub o) := by
  intro h
  have e : decodeRow (encode (.sub o)) = .ok ⟨.sub o, 0x04000008, 0x00000000, 0x00000000, 0x00000000⟩ := by
    rw [encode, decodeRow_Alu]
    · simp (disch := decide) only [decodeAlu, fixed_of_or (mask_OpR o), read_OpR o]
      try rfl
    · rw [fixed_of_or (mask_OpR o) (by decide)]; decide
  exact decode_of_row e h (reserved_of_or (mask_OpR o) (by decide) (by decide)) (reserved_of_or (mask_OpR o) (by decide) (by decide))
    (reserved_of_or (mask_OpR o) (by decide) (by decide))

theorem Sys2Proof.Laws.Encode.and (o : OpR) : Encode.Statement (.and o) := by
  intro h
  have e : decodeRow (encode (.and o)) = .ok ⟨.and o, 0x04000010, 0x00000000, 0x00000000, 0x00000000⟩ := by
    rw [encode, decodeRow_Alu]
    · simp (disch := decide) only [decodeAlu, fixed_of_or (mask_OpR o), read_OpR o]
      try rfl
    · rw [fixed_of_or (mask_OpR o) (by decide)]; decide
  exact decode_of_row e h (reserved_of_or (mask_OpR o) (by decide) (by decide)) (reserved_of_or (mask_OpR o) (by decide) (by decide))
    (reserved_of_or (mask_OpR o) (by decide) (by decide))

theorem Sys2Proof.Laws.Encode.or (o : OpR) : Encode.Statement (.or o) := by
  intro h
  have e : decodeRow (encode (.or o)) = .ok ⟨.or o, 0x04000018, 0x00000000, 0x00000000, 0x00000000⟩ := by
    rw [encode, decodeRow_Alu]
    · simp (disch := decide) only [decodeAlu, fixed_of_or (mask_OpR o), read_OpR o]
      try rfl
    · rw [fixed_of_or (mask_OpR o) (by decide)]; decide
  exact decode_of_row e h (reserved_of_or (mask_OpR o) (by decide) (by decide)) (reserved_of_or (mask_OpR o) (by decide) (by decide))
    (reserved_of_or (mask_OpR o) (by decide) (by decide))

theorem Sys2Proof.Laws.Encode.xor (o : OpR) : Encode.Statement (.xor o) := by
  intro h
  have e : decodeRow (encode (.xor o)) = .ok ⟨.xor o, 0x04000020, 0x00000000, 0x00000000, 0x00000000⟩ := by
    rw [encode, decodeRow_Alu]
    · simp (disch := decide) only [decodeAlu, fixed_of_or (mask_OpR o), read_OpR o]
      try rfl
    · rw [fixed_of_or (mask_OpR o) (by decide)]; decide
  exact decode_of_row e h (reserved_of_or (mask_OpR o) (by decide) (by decide)) (reserved_of_or (mask_OpR o) (by decide) (by decide))
    (reserved_of_or (mask_OpR o) (by decide) (by decide))

theorem Sys2Proof.Laws.Encode.andn (o : OpR) : Encode.Statement (.andn o) := by
  intro h
  have e : decodeRow (encode (.andn o)) = .ok ⟨.andn o, 0x04000028, 0x00000000, 0x00000000, 0x00000000⟩ := by
    rw [encode, decodeRow_Alu]
    · simp (disch := decide) only [decodeAlu, fixed_of_or (mask_OpR o), read_OpR o]
      try rfl
    · rw [fixed_of_or (mask_OpR o) (by decide)]; decide
  exact decode_of_row e h (reserved_of_or (mask_OpR o) (by decide) (by decide)) (reserved_of_or (mask_OpR o) (by decide) (by decide))
    (reserved_of_or (mask_OpR o) (by decide) (by decide))

theorem Sys2Proof.Laws.Encode.orn (o : OpR) : Encode.Statement (.orn o) := by
  intro h
  have e : decodeRow (encode (.orn o)) = .ok ⟨.orn o, 0x04000030, 0x00000000, 0x00000000, 0x00000000⟩ := by
    rw [encode, decodeRow_Alu]
    · simp (disch := decide) only [decodeAlu, fixed_of_or (mask_OpR o), read_OpR o]
      try rfl
    · rw [fixed_of_or (mask_OpR o) (by decide)]; decide
  exact decode_of_row e h (reserved_of_or (mask_OpR o) (by decide) (by decide)) (reserved_of_or (mask_OpR o) (by decide) (by decide))
    (reserved_of_or (mask_OpR o) (by decide) (by decide))

theorem Sys2Proof.Laws.Encode.xnor (o : OpR) : Encode.Statement (.xnor o) := by
  intro h
  have e : decodeRow (encode (.xnor o)) = .ok ⟨.xnor o, 0x04000038, 0x00000000, 0x00000000, 0x00000000⟩ := by
    rw [encode, decodeRow_Alu]
    · simp (disch := decide) only [decodeAlu, fixed_of_or (mask_OpR o), read_OpR o]
      try rfl
    · rw [fixed_of_or (mask_OpR o) (by decide)]; decide
  exact decode_of_row e h (reserved_of_or (mask_OpR o) (by decide) (by decide)) (reserved_of_or (mask_OpR o) (by decide) (by decide))
    (reserved_of_or (mask_OpR o) (by decide) (by decide))

theorem Sys2Proof.Laws.Encode.shl (o : OpR) : Encode.Statement (.shl o) := by
  intro h
  have e : decodeRow (encode (.shl o)) = .ok ⟨.shl o, 0x08000000, 0x00000000, 0x00000000, 0x00000000⟩ := by
    rw [encode, decodeRow_Shm]
    · simp (disch := decide) only [decodeShm, fixed_of_or (mask_OpR o), read_OpR o]
      try rfl
    · rw [fixed_of_or (mask_OpR o) (by decide)]; decide
  exact decode_of_row e h (reserved_of_or (mask_OpR o) (by decide) (by decide)) (reserved_of_or (mask_OpR o) (by decide) (by decide))
    (reserved_of_or (mask_OpR o) (by decide) (by decide))

theorem Sys2Proof.Laws.Encode.shr (o : OpR) : Encode.Statement (.shr o) := by
  intro h
  have e : decodeRow (encode (.shr o)) = .ok ⟨.shr o, 0x08000008, 0x00000000, 0x00000000, 0x00000000⟩ := by
    rw [encode, decodeRow_Shm]
    · simp (disch := decide) only [decodeShm, fixed_of_or (mask_OpR o), read_OpR o]
      try rfl
    · rw [fixed_of_or (mask_OpR o) (by decide)]; decide
  exact decode_of_row e h (reserved_of_or (mask_OpR o) (by decide) (by decide)) (reserved_of_or (mask_OpR o) (by decide) (by decide))
    (reserved_of_or (mask_OpR o) (by decide) (by decide))

theorem Sys2Proof.Laws.Encode.sar (o : OpR) : Encode.Statement (.sar o) := by
  intro h
  have e : decodeRow (encode (.sar o)) = .ok ⟨.sar o, 0x08000010, 0x00000000, 0x00000000, 0x00000000⟩ := by
    rw [encode, decodeRow_Shm]
    · simp (disch := decide) only [decodeShm, fixed_of_or (mask_OpR o), read_OpR o]
      try rfl
    · rw [fixed_of_or (mask_OpR o) (by decide)]; decide
  exact decode_of_row e h (reserved_of_or (mask_OpR o) (by decide) (by decide)) (reserved_of_or (mask_OpR o) (by decide) (by decide))
    (reserved_of_or (mask_OpR o) (by decide) (by decide))

theorem Sys2Proof.Laws.Encode.rol (o : OpR) : Encode.Statement (.rol o) := by
  intro h
  have e : decodeRow (encode (.rol o)) = .ok ⟨.rol o, 0x08000018, 0x00000000, 0x00000000, 0x00000000⟩ := by
    rw [encode, decodeRow_Shm]
    · simp (disch := decide) only [decodeShm, fixed_of_or (mask_OpR o), read_OpR o]
      try rfl
    · rw [fixed_of_or (mask_OpR o) (by decide)]; decide
  exact decode_of_row e h (reserved_of_or (mask_OpR o) (by decide) (by decide)) (reserved_of_or (mask_OpR o) (by decide) (by decide))
    (reserved_of_or (mask_OpR o) (by decide) (by decide))

theorem Sys2Proof.Laws.Encode.min (o : OpR) : Encode.Statement (.min o) := by
  intro h
  have e : decodeRow (encode (.min o)) = .ok ⟨.min o, 0x08000020, 0x00000000, 0x00000000, 0x00000000⟩ := by
    rw [encode, decodeRow_Shm]
    · simp (disch := decide) only [decodeShm, fixed_of_or (mask_OpR o), read_OpR o]
      try rfl
    · rw [fixed_of_or (mask_OpR o) (by decide)]; decide
  exact decode_of_row e h (reserved_of_or (mask_OpR o) (by decide) (by decide)) (reserved_of_or (mask_OpR o) (by decide) (by decide))
    (reserved_of_or (mask_OpR o) (by decide) (by decide))

theorem Sys2Proof.Laws.Encode.max (o : OpR) : Encode.Statement (.max o) := by
  intro h
  have e : decodeRow (encode (.max o)) = .ok ⟨.max o, 0x08000028, 0x00000000, 0x00000000, 0x00000000⟩ := by
    rw [encode, decodeRow_Shm]
    · simp (disch := decide) only [decodeShm, fixed_of_or (mask_OpR o), read_OpR o]
      try rfl
    · rw [fixed_of_or (mask_OpR o) (by decide)]; decide
  exact decode_of_row e h (reserved_of_or (mask_OpR o) (by decide) (by decide)) (reserved_of_or (mask_OpR o) (by decide) (by decide))
    (reserved_of_or (mask_OpR o) (by decide) (by decide))

theorem Sys2Proof.Laws.Encode.minu (o : OpR) : Encode.Statement (.minu o) := by
  intro h
  have e : decodeRow (encode (.minu o)) = .ok ⟨.minu o, 0x08000030, 0x00000000, 0x00000000, 0x00000000⟩ := by
    rw [encode, decodeRow_Shm]
    · simp (disch := decide) only [decodeShm, fixed_of_or (mask_OpR o), read_OpR o]
      try rfl
    · rw [fixed_of_or (mask_OpR o) (by decide)]; decide
  exact decode_of_row e h (reserved_of_or (mask_OpR o) (by decide) (by decide)) (reserved_of_or (mask_OpR o) (by decide) (by decide))
    (reserved_of_or (mask_OpR o) (by decide) (by decide))

theorem Sys2Proof.Laws.Encode.maxu (o : OpR) : Encode.Statement (.maxu o) := by
  intro h
  have e : decodeRow (encode (.maxu o)) = .ok ⟨.maxu o, 0x08000038, 0x00000000, 0x00000000, 0x00000000⟩ := by
    rw [encode, decodeRow_Shm]
    · simp (disch := decide) only [decodeShm, fixed_of_or (mask_OpR o), read_OpR o]
      try rfl
    · rw [fixed_of_or (mask_OpR o) (by decide)]; decide
  exact decode_of_row e h (reserved_of_or (mask_OpR o) (by decide) (by decide)) (reserved_of_or (mask_OpR o) (by decide) (by decide))
    (reserved_of_or (mask_OpR o) (by decide) (by decide))

theorem Sys2Proof.Laws.Encode.mul (o : OpR) : Encode.Statement (.mul o) := by
  intro h
  have e : decodeRow (encode (.mul o)) = .ok ⟨.mul o, 0x0C000000, 0x00000000, 0x00000000, 0x00000000⟩ := by
    rw [encode, decodeRow_Mul]
    · simp (disch := decide) only [decodeMul, fixed_of_or (mask_OpR o), read_OpR o]
      try rfl
    · rw [fixed_of_or (mask_OpR o) (by decide)]; decide
  exact decode_of_row e h (reserved_of_or (mask_OpR o) (by decide) (by decide)) (reserved_of_or (mask_OpR o) (by decide) (by decide))
    (reserved_of_or (mask_OpR o) (by decide) (by decide))

theorem Sys2Proof.Laws.Encode.mulh (o : OpR) : Encode.Statement (.mulh o) := by
  intro h
  have e : decodeRow (encode (.mulh o)) = .ok ⟨.mulh o, 0x0C000008, 0x00000000, 0x00000000, 0x00000000⟩ := by
    rw [encode, decodeRow_Mul]
    · simp (disch := decide) only [decodeMul, fixed_of_or (mask_OpR o), read_OpR o]
      try rfl
    · rw [fixed_of_or (mask_OpR o) (by decide)]; decide
  exact decode_of_row e h (reserved_of_or (mask_OpR o) (by decide) (by decide)) (reserved_of_or (mask_OpR o) (by decide) (by decide))
    (reserved_of_or (mask_OpR o) (by decide) (by decide))

theorem Sys2Proof.Laws.Encode.mulhu (o : OpR) : Encode.Statement (.mulhu o) := by
  intro h
  have e : decodeRow (encode (.mulhu o)) = .ok ⟨.mulhu o, 0x0C000010, 0x00000000, 0x00000000, 0x00000000⟩ := by
    rw [encode, decodeRow_Mul]
    · simp (disch := decide) only [decodeMul, fixed_of_or (mask_OpR o), read_OpR o]
      try rfl
    · rw [fixed_of_or (mask_OpR o) (by decide)]; decide
  exact decode_of_row e h (reserved_of_or (mask_OpR o) (by decide) (by decide)) (reserved_of_or (mask_OpR o) (by decide) (by decide))
    (reserved_of_or (mask_OpR o) (by decide) (by decide))

theorem Sys2Proof.Laws.Encode.mulhsu (o : OpR) : Encode.Statement (.mulhsu o) := by
  intro h
  have e : decodeRow (encode (.mulhsu o)) = .ok ⟨.mulhsu o, 0x0C000018, 0x00000000, 0x00000000, 0x00000000⟩ := by
    rw [encode, decodeRow_Mul]
    · simp (disch := decide) only [decodeMul, fixed_of_or (mask_OpR o), read_OpR o]
      try rfl
    · rw [fixed_of_or (mask_OpR o) (by decide)]; decide
  exact decode_of_row e h (reserved_of_or (mask_OpR o) (by decide) (by decide)) (reserved_of_or (mask_OpR o) (by decide) (by decide))
    (reserved_of_or (mask_OpR o) (by decide) (by decide))

theorem Sys2Proof.Laws.Encode.div (o : OpR) : Encode.Statement (.div o) := by
  intro h
  have e : decodeRow (encode (.div o)) = .ok ⟨.div o, 0x0C000020, 0x00000000, 0x00000000, 0x00000000⟩ := by
    rw [encode, decodeRow_Mul]
    · simp (disch := decide) only [decodeMul, fixed_of_or (mask_OpR o), read_OpR o]
      try rfl
    · rw [fixed_of_or (mask_OpR o) (by decide)]; decide
  exact decode_of_row e h (reserved_of_or (mask_OpR o) (by decide) (by decide)) (reserved_of_or (mask_OpR o) (by decide) (by decide))
    (reserved_of_or (mask_OpR o) (by decide) (by decide))

theorem Sys2Proof.Laws.Encode.divu (o : OpR) : Encode.Statement (.divu o) := by
  intro h
  have e : decodeRow (encode (.divu o)) = .ok ⟨.divu o, 0x0C000028, 0x00000000, 0x00000000, 0x00000000⟩ := by
    rw [encode, decodeRow_Mul]
    · simp (disch := decide) only [decodeMul, fixed_of_or (mask_OpR o), read_OpR o]
      try rfl
    · rw [fixed_of_or (mask_OpR o) (by decide)]; decide
  exact decode_of_row e h (reserved_of_or (mask_OpR o) (by decide) (by decide)) (reserved_of_or (mask_OpR o) (by decide) (by decide))
    (reserved_of_or (mask_OpR o) (by decide) (by decide))

theorem Sys2Proof.Laws.Encode.rem (o : OpR) : Encode.Statement (.rem o) := by
  intro h
  have e : decodeRow (encode (.rem o)) = .ok ⟨.rem o, 0x0C000030, 0x00000000, 0x00000000, 0x00000000⟩ := by
    rw [encode, decodeRow_Mul]
    · simp (disch := decide) only [decodeMul, fixed_of_or (mask_OpR o), read_OpR o]
      try rfl
    · rw [fixed_of_or (mask_OpR o) (by decide)]; decide
  exact decode_of_row e h (reserved_of_or (mask_OpR o) (by decide) (by decide)) (reserved_of_or (mask_OpR o) (by decide) (by decide))
    (reserved_of_or (mask_OpR o) (by decide) (by decide))

theorem Sys2Proof.Laws.Encode.remu (o : OpR) : Encode.Statement (.remu o) := by
  intro h
  have e : decodeRow (encode (.remu o)) = .ok ⟨.remu o, 0x0C000038, 0x00000000, 0x00000000, 0x00000000⟩ := by
    rw [encode, decodeRow_Mul]
    · simp (disch := decide) only [decodeMul, fixed_of_or (mask_OpR o), read_OpR o]
      try rfl
    · rw [fixed_of_or (mask_OpR o) (by decide)]; decide
  exact decode_of_row e h (reserved_of_or (mask_OpR o) (by decide) (by decide)) (reserved_of_or (mask_OpR o) (by decide) (by decide))
    (reserved_of_or (mask_OpR o) (by decide) (by decide))

theorem Sys2Proof.Laws.Encode.clz (o : OpRDA) : Encode.Statement (.clz o) := by
  intro h
  have e : decodeRow (encode (.clz o)) = .ok ⟨.clz o, 0x10000000, 0x00000000, 0x00000000, 0x00003F40⟩ := by
    rw [encode, decodeRow_Bit]
    · simp (disch := decide) only [decodeBit, fixed_of_or (mask_OpRDA o), read_OpRDA o]
      try rfl
    · rw [fixed_of_or (mask_OpRDA o) (by decide)]; decide
  exact decode_of_row e h (reserved_of_or (mask_OpRDA o) (by decide) (by decide)) (reserved_of_or (mask_OpRDA o) (by decide) (by decide))
    (reserved_of_or (mask_OpRDA o) (by decide) (by decide))

theorem Sys2Proof.Laws.Encode.ctz (o : OpRDA) : Encode.Statement (.ctz o) := by
  intro h
  have e : decodeRow (encode (.ctz o)) = .ok ⟨.ctz o, 0x10000008, 0x00000000, 0x00000000, 0x00003F40⟩ := by
    rw [encode, decodeRow_Bit]
    · simp (disch := decide) only [decodeBit, fixed_of_or (mask_OpRDA o), read_OpRDA o]
      try rfl
    · rw [fixed_of_or (mask_OpRDA o) (by decide)]; decide
  exact decode_of_row e h (reserved_of_or (mask_OpRDA o) (by decide) (by decide)) (reserved_of_or (mask_OpRDA o) (by decide) (by decide))
    (reserved_of_or (mask_OpRDA o) (by decide) (by decide))

theorem Sys2Proof.Laws.Encode.popc (o : OpRDA) : Encode.Statement (.popc o) := by
  intro h
  have e : decodeRow (encode (.popc o)) = .ok ⟨.popc o, 0x10000010, 0x00000000, 0x00000000, 0x00003F40⟩ := by
    rw [encode, decodeRow_Bit]
    · simp (disch := decide) only [decodeBit, fixed_of_or (mask_OpRDA o), read_OpRDA o]
      try rfl
    · rw [fixed_of_or (mask_OpRDA o) (by decide)]; decide
  exact decode_of_row e h (reserved_of_or (mask_OpRDA o) (by decide) (by decide)) (reserved_of_or (mask_OpRDA o) (by decide) (by decide))
    (reserved_of_or (mask_OpRDA o) (by decide) (by decide))

theorem Sys2Proof.Laws.Encode.brev (o : OpRDA) : Encode.Statement (.brev o) := by
  intro h
  have e : decodeRow (encode (.brev o)) = .ok ⟨.brev o, 0x10000018, 0x00000000, 0x00000000, 0x00003F40⟩ := by
    rw [encode, decodeRow_Bit]
    · simp (disch := decide) only [decodeBit, fixed_of_or (mask_OpRDA o), read_OpRDA o]
      try rfl
    · rw [fixed_of_or (mask_OpRDA o) (by decide)]; decide
  exact decode_of_row e h (reserved_of_or (mask_OpRDA o) (by decide) (by decide)) (reserved_of_or (mask_OpRDA o) (by decide) (by decide))
    (reserved_of_or (mask_OpRDA o) (by decide) (by decide))

theorem Sys2Proof.Laws.Encode.bswap (o : OpRDA) : Encode.Statement (.bswap o) := by
  intro h
  have e : decodeRow (encode (.bswap o)) = .ok ⟨.bswap o, 0x10000020, 0x00000000, 0x00000000, 0x00003F40⟩ := by
    rw [encode, decodeRow_Bit]
    · simp (disch := decide) only [decodeBit, fixed_of_or (mask_OpRDA o), read_OpRDA o]
      try rfl
    · rw [fixed_of_or (mask_OpRDA o) (by decide)]; decide
  exact decode_of_row e h (reserved_of_or (mask_OpRDA o) (by decide) (by decide)) (reserved_of_or (mask_OpRDA o) (by decide) (by decide))
    (reserved_of_or (mask_OpRDA o) (by decide) (by decide))

theorem Sys2Proof.Laws.Encode.sext (o : OpR) : Encode.Statement (.sext o) := by
  intro h
  have e : decodeRow (encode (.sext o)) = .ok ⟨.sext o, 0x10000028, 0x00000000, 0x00000000, 0x00000000⟩ := by
    rw [encode, decodeRow_Bit]
    · simp (disch := decide) only [decodeBit, fixed_of_or (mask_OpR o), read_OpR o]
      try rfl
    · rw [fixed_of_or (mask_OpR o) (by decide)]; decide
  exact decode_of_row e h (reserved_of_or (mask_OpR o) (by decide) (by decide)) (reserved_of_or (mask_OpR o) (by decide) (by decide))
    (reserved_of_or (mask_OpR o) (by decide) (by decide))

theorem Sys2Proof.Laws.Encode.zext (o : OpR) : Encode.Statement (.zext o) := by
  intro h
  have e : decodeRow (encode (.zext o)) = .ok ⟨.zext o, 0x10000030, 0x00000000, 0x00000000, 0x00000000⟩ := by
    rw [encode, decodeRow_Bit]
    · simp (disch := decide) only [decodeBit, fixed_of_or (mask_OpR o), read_OpR o]
      try rfl
    · rw [fixed_of_or (mask_OpR o) (by decide)]; decide
  exact decode_of_row e h (reserved_of_or (mask_OpR o) (by decide) (by decide)) (reserved_of_or (mask_OpR o) (by decide) (by decide))
    (reserved_of_or (mask_OpR o) (by decide) (by decide))

theorem Sys2Proof.Laws.Encode.abs (o : OpRDA) : Encode.Statement (.abs o) := by
  intro h
  have e : decodeRow (encode (.abs o)) = .ok ⟨.abs o, 0x10000038, 0x00000000, 0x00000000, 0x00003F40⟩ := by
    rw [encode, decodeRow_Bit]
    · simp (disch := decide) only [decodeBit, fixed_of_or (mask_OpRDA o), read_OpRDA o]
      try rfl
    · rw [fixed_of_or (mask_OpRDA o) (by decide)]; decide
  exact decode_of_row e h (reserved_of_or (mask_OpRDA o) (by decide) (by decide)) (reserved_of_or (mask_OpRDA o) (by decide) (by decide))
    (reserved_of_or (mask_OpRDA o) (by decide) (by decide))

theorem Sys2Proof.Laws.Encode.cmpEq (o : OpCmp) : Encode.Statement (.cmpEq o) := by
  intro h
  have e : decodeRow (encode (.cmpEq o)) = .ok ⟨.cmpEq o, 0x14000000, 0x00000000, 0x00000000, 0x00000000⟩ := by
    rw [encode, decodeRow_Cmp]
    · simp (disch := decide) only [decodeCmp, fixed_of_or (mask_OpCmp o), read_OpCmp o]
      try rfl
    · rw [fixed_of_or (mask_OpCmp o) (by decide)]; decide
  exact decode_of_row e h (reserved_of_or (mask_OpCmp o) (by decide) (by decide)) (reserved_of_or (mask_OpCmp o) (by decide) (by decide))
    (reserved_of_or (mask_OpCmp o) (by decide) (by decide))

theorem Sys2Proof.Laws.Encode.cmpNe (o : OpCmp) : Encode.Statement (.cmpNe o) := by
  intro h
  have e : decodeRow (encode (.cmpNe o)) = .ok ⟨.cmpNe o, 0x14000008, 0x00000000, 0x00000000, 0x00000000⟩ := by
    rw [encode, decodeRow_Cmp]
    · simp (disch := decide) only [decodeCmp, fixed_of_or (mask_OpCmp o), read_OpCmp o]
      try rfl
    · rw [fixed_of_or (mask_OpCmp o) (by decide)]; decide
  exact decode_of_row e h (reserved_of_or (mask_OpCmp o) (by decide) (by decide)) (reserved_of_or (mask_OpCmp o) (by decide) (by decide))
    (reserved_of_or (mask_OpCmp o) (by decide) (by decide))

theorem Sys2Proof.Laws.Encode.cmpLt (o : OpCmp) : Encode.Statement (.cmpLt o) := by
  intro h
  have e : decodeRow (encode (.cmpLt o)) = .ok ⟨.cmpLt o, 0x14000010, 0x00000000, 0x00000000, 0x00000000⟩ := by
    rw [encode, decodeRow_Cmp]
    · simp (disch := decide) only [decodeCmp, fixed_of_or (mask_OpCmp o), read_OpCmp o]
      try rfl
    · rw [fixed_of_or (mask_OpCmp o) (by decide)]; decide
  exact decode_of_row e h (reserved_of_or (mask_OpCmp o) (by decide) (by decide)) (reserved_of_or (mask_OpCmp o) (by decide) (by decide))
    (reserved_of_or (mask_OpCmp o) (by decide) (by decide))

theorem Sys2Proof.Laws.Encode.cmpGe (o : OpCmp) : Encode.Statement (.cmpGe o) := by
  intro h
  have e : decodeRow (encode (.cmpGe o)) = .ok ⟨.cmpGe o, 0x14000018, 0x00000000, 0x00000000, 0x00000000⟩ := by
    rw [encode, decodeRow_Cmp]
    · simp (disch := decide) only [decodeCmp, fixed_of_or (mask_OpCmp o), read_OpCmp o]
      try rfl
    · rw [fixed_of_or (mask_OpCmp o) (by decide)]; decide
  exact decode_of_row e h (reserved_of_or (mask_OpCmp o) (by decide) (by decide)) (reserved_of_or (mask_OpCmp o) (by decide) (by decide))
    (reserved_of_or (mask_OpCmp o) (by decide) (by decide))

theorem Sys2Proof.Laws.Encode.cmpLtu (o : OpCmp) : Encode.Statement (.cmpLtu o) := by
  intro h
  have e : decodeRow (encode (.cmpLtu o)) = .ok ⟨.cmpLtu o, 0x14000020, 0x00000000, 0x00000000, 0x00000000⟩ := by
    rw [encode, decodeRow_Cmp]
    · simp (disch := decide) only [decodeCmp, fixed_of_or (mask_OpCmp o), read_OpCmp o]
      try rfl
    · rw [fixed_of_or (mask_OpCmp o) (by decide)]; decide
  exact decode_of_row e h (reserved_of_or (mask_OpCmp o) (by decide) (by decide)) (reserved_of_or (mask_OpCmp o) (by decide) (by decide))
    (reserved_of_or (mask_OpCmp o) (by decide) (by decide))

theorem Sys2Proof.Laws.Encode.cmpGeu (o : OpCmp) : Encode.Statement (.cmpGeu o) := by
  intro h
  have e : decodeRow (encode (.cmpGeu o)) = .ok ⟨.cmpGeu o, 0x14000028, 0x00000000, 0x00000000, 0x00000000⟩ := by
    rw [encode, decodeRow_Cmp]
    · simp (disch := decide) only [decodeCmp, fixed_of_or (mask_OpCmp o), read_OpCmp o]
      try rfl
    · rw [fixed_of_or (mask_OpCmp o) (by decide)]; decide
  exact decode_of_row e h (reserved_of_or (mask_OpCmp o) (by decide) (by decide)) (reserved_of_or (mask_OpCmp o) (by decide) (by decide))
    (reserved_of_or (mask_OpCmp o) (by decide) (by decide))

theorem Sys2Proof.Laws.Encode.cmpTst (o : OpCmp) : Encode.Statement (.cmpTst o) := by
  intro h
  have e : decodeRow (encode (.cmpTst o)) = .ok ⟨.cmpTst o, 0x14000030, 0x00000000, 0x00000000, 0x00000000⟩ := by
    rw [encode, decodeRow_Cmp]
    · simp (disch := decide) only [decodeCmp, fixed_of_or (mask_OpCmp o), read_OpCmp o]
      try rfl
    · rw [fixed_of_or (mask_OpCmp o) (by decide)]; decide
  exact decode_of_row e h (reserved_of_or (mask_OpCmp o) (by decide) (by decide)) (reserved_of_or (mask_OpCmp o) (by decide) (by decide))
    (reserved_of_or (mask_OpCmp o) (by decide) (by decide))

theorem Sys2Proof.Laws.Encode.cmpTstn (o : OpCmp) : Encode.Statement (.cmpTstn o) := by
  intro h
  have e : decodeRow (encode (.cmpTstn o)) = .ok ⟨.cmpTstn o, 0x14000038, 0x00000000, 0x00000000, 0x00000000⟩ := by
    rw [encode, decodeRow_Cmp]
    · simp (disch := decide) only [decodeCmp, fixed_of_or (mask_OpCmp o), read_OpCmp o]
      try rfl
    · rw [fixed_of_or (mask_OpCmp o) (by decide)]; decide
  exact decode_of_row e h (reserved_of_or (mask_OpCmp o) (by decide) (by decide)) (reserved_of_or (mask_OpCmp o) (by decide) (by decide))
    (reserved_of_or (mask_OpCmp o) (by decide) (by decide))

theorem Sys2Proof.Laws.Encode.lea1 (o : OpR) : Encode.Statement (.lea1 o) := by
  intro h
  have e : decodeRow (encode (.lea1 o)) = .ok ⟨.lea1 o, 0x18000000, 0x00000000, 0x00000000, 0x00000000⟩ := by
    rw [encode, decodeRow_Adr]
    · simp (disch := decide) only [decodeAdr, fixed_of_or (mask_OpR o), read_OpR o]
      try rfl
    · rw [fixed_of_or (mask_OpR o) (by decide)]; decide
  exact decode_of_row e h (reserved_of_or (mask_OpR o) (by decide) (by decide)) (reserved_of_or (mask_OpR o) (by decide) (by decide))
    (reserved_of_or (mask_OpR o) (by decide) (by decide))

theorem Sys2Proof.Laws.Encode.lea2 (o : OpR) : Encode.Statement (.lea2 o) := by
  intro h
  have e : decodeRow (encode (.lea2 o)) = .ok ⟨.lea2 o, 0x18000008, 0x00000000, 0x00000000, 0x00000000⟩ := by
    rw [encode, decodeRow_Adr]
    · simp (disch := decide) only [decodeAdr, fixed_of_or (mask_OpR o), read_OpR o]
      try rfl
    · rw [fixed_of_or (mask_OpR o) (by decide)]; decide
  exact decode_of_row e h (reserved_of_or (mask_OpR o) (by decide) (by decide)) (reserved_of_or (mask_OpR o) (by decide) (by decide))
    (reserved_of_or (mask_OpR o) (by decide) (by decide))

theorem Sys2Proof.Laws.Encode.lea4 (o : OpR) : Encode.Statement (.lea4 o) := by
  intro h
  have e : decodeRow (encode (.lea4 o)) = .ok ⟨.lea4 o, 0x18000010, 0x00000000, 0x00000000, 0x00000000⟩ := by
    rw [encode, decodeRow_Adr]
    · simp (disch := decide) only [decodeAdr, fixed_of_or (mask_OpR o), read_OpR o]
      try rfl
    · rw [fixed_of_or (mask_OpR o) (by decide)]; decide
  exact decode_of_row e h (reserved_of_or (mask_OpR o) (by decide) (by decide)) (reserved_of_or (mask_OpR o) (by decide) (by decide))
    (reserved_of_or (mask_OpR o) (by decide) (by decide))

theorem Sys2Proof.Laws.Encode.lea8 (o : OpR) : Encode.Statement (.lea8 o) := by
  intro h
  have e : decodeRow (encode (.lea8 o)) = .ok ⟨.lea8 o, 0x18000018, 0x00000000, 0x00000000, 0x00000000⟩ := by
    rw [encode, decodeRow_Adr]
    · simp (disch := decide) only [decodeAdr, fixed_of_or (mask_OpR o), read_OpR o]
      try rfl
    · rw [fixed_of_or (mask_OpR o) (by decide)]; decide
  exact decode_of_row e h (reserved_of_or (mask_OpR o) (by decide) (by decide)) (reserved_of_or (mask_OpR o) (by decide) (by decide))
    (reserved_of_or (mask_OpR o) (by decide) (by decide))

theorem Sys2Proof.Laws.Encode.adds (o : OpR) : Encode.Statement (.adds o) := by
  intro h
  have e : decodeRow (encode (.adds o)) = .ok ⟨.adds o, 0x18000020, 0x00000000, 0x00000000, 0x00000000⟩ := by
    rw [encode, decodeRow_Adr]
    · simp (disch := decide) only [decodeAdr, fixed_of_or (mask_OpR o), read_OpR o]
      try rfl
    · rw [fixed_of_or (mask_OpR o) (by decide)]; decide
  exact decode_of_row e h (reserved_of_or (mask_OpR o) (by decide) (by decide)) (reserved_of_or (mask_OpR o) (by decide) (by decide))
    (reserved_of_or (mask_OpR o) (by decide) (by decide))

theorem Sys2Proof.Laws.Encode.subs (o : OpR) : Encode.Statement (.subs o) := by
  intro h
  have e : decodeRow (encode (.subs o)) = .ok ⟨.subs o, 0x18000028, 0x00000000, 0x00000000, 0x00000000⟩ := by
    rw [encode, decodeRow_Adr]
    · simp (disch := decide) only [decodeAdr, fixed_of_or (mask_OpR o), read_OpR o]
      try rfl
    · rw [fixed_of_or (mask_OpR o) (by decide)]; decide
  exact decode_of_row e h (reserved_of_or (mask_OpR o) (by decide) (by decide)) (reserved_of_or (mask_OpR o) (by decide) (by decide))
    (reserved_of_or (mask_OpR o) (by decide) (by decide))

theorem Sys2Proof.Laws.Encode.addus (o : OpR) : Encode.Statement (.addus o) := by
  intro h
  have e : decodeRow (encode (.addus o)) = .ok ⟨.addus o, 0x18000030, 0x00000000, 0x00000000, 0x00000000⟩ := by
    rw [encode, decodeRow_Adr]
    · simp (disch := decide) only [decodeAdr, fixed_of_or (mask_OpR o), read_OpR o]
      try rfl
    · rw [fixed_of_or (mask_OpR o) (by decide)]; decide
  exact decode_of_row e h (reserved_of_or (mask_OpR o) (by decide) (by decide)) (reserved_of_or (mask_OpR o) (by decide) (by decide))
    (reserved_of_or (mask_OpR o) (by decide) (by decide))

theorem Sys2Proof.Laws.Encode.subus (o : OpR) : Encode.Statement (.subus o) := by
  intro h
  have e : decodeRow (encode (.subus o)) = .ok ⟨.subus o, 0x18000038, 0x00000000, 0x00000000, 0x00000000⟩ := by
    rw [encode, decodeRow_Adr]
    · simp (disch := decide) only [decodeAdr, fixed_of_or (mask_OpR o), read_OpR o]
      try rfl
    · rw [fixed_of_or (mask_OpR o) (by decide)]; decide
  exact decode_of_row e h (reserved_of_or (mask_OpR o) (by decide) (by decide)) (reserved_of_or (mask_OpR o) (by decide) (by decide))
    (reserved_of_or (mask_OpR o) (by decide) (by decide))

theorem Sys2Proof.Laws.Encode.bfs (o : OpBF) : Encode.Statement (.bfs o) := by
  intro h
  have e : decodeRow (encode (.bfs o)) = .ok ⟨.bfs o, 0x1C000000, 0x00000000, 0x00000000, 0x00000000⟩ := by
    rw [encode]
    simp (disch := decide) only [decodeRow, fixed_of_or (mask_OpBF o), read_OpBF o]
    try rfl
  exact decode_of_row e h (reserved_of_or (mask_OpBF o) (by decide) (by decide)) (reserved_of_or (mask_OpBF o) (by decide) (by decide))
    (reserved_of_or (mask_OpBF o) (by decide) (by decide))

theorem Sys2Proof.Laws.Encode.bfx (o : OpBF) : Encode.Statement (.bfx o) := by
  intro h
  have e : decodeRow (encode (.bfx o)) = .ok ⟨.bfx o, 0x3C000000, 0x00000000, 0x00000000, 0x00000000⟩ := by
    rw [encode]
    simp (disch := decide) only [decodeRow, fixed_of_or (mask_OpBF o), read_OpBF o]
    try rfl
  exact decode_of_row e h (reserved_of_or (mask_OpBF o) (by decide) (by decide)) (reserved_of_or (mask_OpBF o) (by decide) (by decide))
    (reserved_of_or (mask_OpBF o) (by decide) (by decide))

theorem Sys2Proof.Laws.Encode.addi (o : OpI) : Encode.Statement (.addi o) := by
  intro h
  have e : decodeRow (encode (.addi o)) = .ok ⟨.addi o, 0x20000000, 0x00000000, 0x00000000, 0x00000000⟩ := by
    rw [encode]
    simp (disch := decide) only [decodeRow, fixed_of_or (mask_OpI o), read_OpI o]
    try rfl
  exact decode_of_row e h (reserved_of_or (mask_OpI o) (by decide) (by decide)) (reserved_of_or (mask_OpI o) (by decide) (by decide))
    (reserved_of_or (mask_OpI o) (by decide) (by decide))

theorem Sys2Proof.Laws.Encode.andi (o : OpI) : Encode.Statement (.andi o) := by
  intro h
  have e : decodeRow (encode (.andi o)) = .ok ⟨.andi o, 0x24000000, 0x00000000, 0x00000000, 0x00000000⟩ := by
    rw [encode]
    simp (disch := decide) only [decodeRow, fixed_of_or (mask_OpI o), read_OpI o]
    try rfl
  exact decode_of_row e h (reserved_of_or (mask_OpI o) (by decide) (by decide)) (reserved_of_or (mask_OpI o) (by decide) (by decide))
    (reserved_of_or (mask_OpI o) (by decide) (by decide))

theorem Sys2Proof.Laws.Encode.ori (o : OpI) : Encode.Statement (.ori o) := by
  intro h
  have e : decodeRow (encode (.ori o)) = .ok ⟨.ori o, 0x28000000, 0x00000000, 0x00000000, 0x00000000⟩ := by
    rw [encode]
    simp (disch := decide) only [decodeRow, fixed_of_or (mask_OpI o), read_OpI o]
    try rfl
  exact decode_of_row e h (reserved_of_or (mask_OpI o) (by decide) (by decide)) (reserved_of_or (mask_OpI o) (by decide) (by decide))
    (reserved_of_or (mask_OpI o) (by decide) (by decide))

theorem Sys2Proof.Laws.Encode.xori (o : OpI) : Encode.Statement (.xori o) := by
  intro h
  have e : decodeRow (encode (.xori o)) = .ok ⟨.xori o, 0x2C000000, 0x00000000, 0x00000000, 0x00000000⟩ := by
    rw [encode]
    simp (disch := decide) only [decodeRow, fixed_of_or (mask_OpI o), read_OpI o]
    try rfl
  exact decode_of_row e h (reserved_of_or (mask_OpI o) (by decide) (by decide)) (reserved_of_or (mask_OpI o) (by decide) (by decide))
    (reserved_of_or (mask_OpI o) (by decide) (by decide))

theorem Sys2Proof.Laws.Encode.muli (o : OpI) : Encode.Statement (.muli o) := by
  intro h
  have e : decodeRow (encode (.muli o)) = .ok ⟨.muli o, 0x38000000, 0x00000000, 0x00000000, 0x00000000⟩ := by
    rw [encode]
    simp (disch := decide) only [decodeRow, fixed_of_or (mask_OpI o), read_OpI o]
    try rfl
  exact decode_of_row e h (reserved_of_or (mask_OpI o) (by decide) (by decide)) (reserved_of_or (mask_OpI o) (by decide) (by decide))
    (reserved_of_or (mask_OpI o) (by decide) (by decide))

theorem Sys2Proof.Laws.Encode.shli (o : OpShi) : Encode.Statement (.shli o) := by
  intro h
  have e : decodeRow (encode (.shli o)) = .ok ⟨.shli o, 0x30000000, 0x00000000, 0x00000000, 0x00000200⟩ := by
    rw [encode, decodeRow_Shi]
    · simp (disch := decide) only [decodeShi, fixed_of_or (mask_OpShi o), read_OpShi o]
      try rfl
    · rw [fixed_of_or (mask_OpShi o) (by decide)]; decide
  exact decode_of_row e h (reserved_of_or (mask_OpShi o) (by decide) (by decide)) (reserved_of_or (mask_OpShi o) (by decide) (by decide))
    (reserved_of_or (mask_OpShi o) (by decide) (by decide))

theorem Sys2Proof.Laws.Encode.shri (o : OpShi) : Encode.Statement (.shri o) := by
  intro h
  have e : decodeRow (encode (.shri o)) = .ok ⟨.shri o, 0x30000400, 0x00000000, 0x00000000, 0x00000200⟩ := by
    rw [encode, decodeRow_Shi]
    · simp (disch := decide) only [decodeShi, fixed_of_or (mask_OpShi o), read_OpShi o]
      try rfl
    · rw [fixed_of_or (mask_OpShi o) (by decide)]; decide
  exact decode_of_row e h (reserved_of_or (mask_OpShi o) (by decide) (by decide)) (reserved_of_or (mask_OpShi o) (by decide) (by decide))
    (reserved_of_or (mask_OpShi o) (by decide) (by decide))

theorem Sys2Proof.Laws.Encode.sari (o : OpShi) : Encode.Statement (.sari o) := by
  intro h
  have e : decodeRow (encode (.sari o)) = .ok ⟨.sari o, 0x30000800, 0x00000000, 0x00000000, 0x00000200⟩ := by
    rw [encode, decodeRow_Shi]
    · simp (disch := decide) only [decodeShi, fixed_of_or (mask_OpShi o), read_OpShi o]
      try rfl
    · rw [fixed_of_or (mask_OpShi o) (by decide)]; decide
  exact decode_of_row e h (reserved_of_or (mask_OpShi o) (by decide) (by decide)) (reserved_of_or (mask_OpShi o) (by decide) (by decide))
    (reserved_of_or (mask_OpShi o) (by decide) (by decide))

theorem Sys2Proof.Laws.Encode.roli (o : OpShi) : Encode.Statement (.roli o) := by
  intro h
  have e : decodeRow (encode (.roli o)) = .ok ⟨.roli o, 0x30000C00, 0x00000000, 0x00000000, 0x00000200⟩ := by
    rw [encode, decodeRow_Shi]
    · simp (disch := decide) only [decodeShi, fixed_of_or (mask_OpShi o), read_OpShi o]
      try rfl
    · rw [fixed_of_or (mask_OpShi o) (by decide)]; decide
  exact decode_of_row e h (reserved_of_or (mask_OpShi o) (by decide) (by decide)) (reserved_of_or (mask_OpShi o) (by decide) (by decide))
    (reserved_of_or (mask_OpShi o) (by decide) (by decide))

theorem Sys2Proof.Laws.Encode.cmpiEq (o : OpCmpi) : Encode.Statement (.cmpiEq o) := by
  intro h
  have e : decodeRow (encode (.cmpiEq o)) = .ok ⟨.cmpiEq o, 0x34000000, 0x00000000, 0x00000000, 0x00000000⟩ := by
    rw [encode, decodeRow_Cmpi]
    · simp (disch := decide) only [decodeCmpi, fixed_of_or (mask_OpCmpi o), read_OpCmpi o]
      try rfl
    · rw [fixed_of_or (mask_OpCmpi o) (by decide)]; decide
  exact decode_of_row e h (reserved_of_or (mask_OpCmpi o) (by decide) (by decide)) (reserved_of_or (mask_OpCmpi o) (by decide) (by decide))
    (reserved_of_or (mask_OpCmpi o) (by decide) (by decide))

theorem Sys2Proof.Laws.Encode.cmpiNe (o : OpCmpi) : Encode.Statement (.cmpiNe o) := by
  intro h
  have e : decodeRow (encode (.cmpiNe o)) = .ok ⟨.cmpiNe o, 0x34000400, 0x00000000, 0x00000000, 0x00000000⟩ := by
    rw [encode, decodeRow_Cmpi]
    · simp (disch := decide) only [decodeCmpi, fixed_of_or (mask_OpCmpi o), read_OpCmpi o]
      try rfl
    · rw [fixed_of_or (mask_OpCmpi o) (by decide)]; decide
  exact decode_of_row e h (reserved_of_or (mask_OpCmpi o) (by decide) (by decide)) (reserved_of_or (mask_OpCmpi o) (by decide) (by decide))
    (reserved_of_or (mask_OpCmpi o) (by decide) (by decide))

theorem Sys2Proof.Laws.Encode.cmpiLt (o : OpCmpi) : Encode.Statement (.cmpiLt o) := by
  intro h
  have e : decodeRow (encode (.cmpiLt o)) = .ok ⟨.cmpiLt o, 0x34000800, 0x00000000, 0x00000000, 0x00000000⟩ := by
    rw [encode, decodeRow_Cmpi]
    · simp (disch := decide) only [decodeCmpi, fixed_of_or (mask_OpCmpi o), read_OpCmpi o]
      try rfl
    · rw [fixed_of_or (mask_OpCmpi o) (by decide)]; decide
  exact decode_of_row e h (reserved_of_or (mask_OpCmpi o) (by decide) (by decide)) (reserved_of_or (mask_OpCmpi o) (by decide) (by decide))
    (reserved_of_or (mask_OpCmpi o) (by decide) (by decide))

theorem Sys2Proof.Laws.Encode.cmpiGe (o : OpCmpi) : Encode.Statement (.cmpiGe o) := by
  intro h
  have e : decodeRow (encode (.cmpiGe o)) = .ok ⟨.cmpiGe o, 0x34000C00, 0x00000000, 0x00000000, 0x00000000⟩ := by
    rw [encode, decodeRow_Cmpi]
    · simp (disch := decide) only [decodeCmpi, fixed_of_or (mask_OpCmpi o), read_OpCmpi o]
      try rfl
    · rw [fixed_of_or (mask_OpCmpi o) (by decide)]; decide
  exact decode_of_row e h (reserved_of_or (mask_OpCmpi o) (by decide) (by decide)) (reserved_of_or (mask_OpCmpi o) (by decide) (by decide))
    (reserved_of_or (mask_OpCmpi o) (by decide) (by decide))

theorem Sys2Proof.Laws.Encode.cmpiLtu (o : OpCmpi) : Encode.Statement (.cmpiLtu o) := by
  intro h
  have e : decodeRow (encode (.cmpiLtu o)) = .ok ⟨.cmpiLtu o, 0x34001000, 0x00000000, 0x00000000, 0x00000000⟩ := by
    rw [encode, decodeRow_Cmpi]
    · simp (disch := decide) only [decodeCmpi, fixed_of_or (mask_OpCmpi o), read_OpCmpi o]
      try rfl
    · rw [fixed_of_or (mask_OpCmpi o) (by decide)]; decide
  exact decode_of_row e h (reserved_of_or (mask_OpCmpi o) (by decide) (by decide)) (reserved_of_or (mask_OpCmpi o) (by decide) (by decide))
    (reserved_of_or (mask_OpCmpi o) (by decide) (by decide))

theorem Sys2Proof.Laws.Encode.cmpiGeu (o : OpCmpi) : Encode.Statement (.cmpiGeu o) := by
  intro h
  have e : decodeRow (encode (.cmpiGeu o)) = .ok ⟨.cmpiGeu o, 0x34001400, 0x00000000, 0x00000000, 0x00000000⟩ := by
    rw [encode, decodeRow_Cmpi]
    · simp (disch := decide) only [decodeCmpi, fixed_of_or (mask_OpCmpi o), read_OpCmpi o]
      try rfl
    · rw [fixed_of_or (mask_OpCmpi o) (by decide)]; decide
  exact decode_of_row e h (reserved_of_or (mask_OpCmpi o) (by decide) (by decide)) (reserved_of_or (mask_OpCmpi o) (by decide) (by decide))
    (reserved_of_or (mask_OpCmpi o) (by decide) (by decide))

theorem Sys2Proof.Laws.Encode.cmpiTst (o : OpCmpi) : Encode.Statement (.cmpiTst o) := by
  intro h
  have e : decodeRow (encode (.cmpiTst o)) = .ok ⟨.cmpiTst o, 0x34001800, 0x00000000, 0x00000000, 0x00000000⟩ := by
    rw [encode, decodeRow_Cmpi]
    · simp (disch := decide) only [decodeCmpi, fixed_of_or (mask_OpCmpi o), read_OpCmpi o]
      try rfl
    · rw [fixed_of_or (mask_OpCmpi o) (by decide)]; decide
  exact decode_of_row e h (reserved_of_or (mask_OpCmpi o) (by decide) (by decide)) (reserved_of_or (mask_OpCmpi o) (by decide) (by decide))
    (reserved_of_or (mask_OpCmpi o) (by decide) (by decide))

theorem Sys2Proof.Laws.Encode.cmpiTstn (o : OpCmpi) : Encode.Statement (.cmpiTstn o) := by
  intro h
  have e : decodeRow (encode (.cmpiTstn o)) = .ok ⟨.cmpiTstn o, 0x34001C00, 0x00000000, 0x00000000, 0x00000000⟩ := by
    rw [encode, decodeRow_Cmpi]
    · simp (disch := decide) only [decodeCmpi, fixed_of_or (mask_OpCmpi o), read_OpCmpi o]
      try rfl
    · rw [fixed_of_or (mask_OpCmpi o) (by decide)]; decide
  exact decode_of_row e h (reserved_of_or (mask_OpCmpi o) (by decide) (by decide)) (reserved_of_or (mask_OpCmpi o) (by decide) (by decide))
    (reserved_of_or (mask_OpCmpi o) (by decide) (by decide))

theorem Sys2Proof.Laws.Encode.movi (o : OpL) : Encode.Statement (.movi o) := by
  intro h
  have e : decodeRow (encode (.movi o)) = .ok ⟨.movi o, 0x40000000, 0x00000000, 0x00000000, 0x00000000⟩ := by
    rw [encode]
    simp (disch := decide) only [decodeRow, fixed_of_or (mask_OpL o), read_OpL o]
    try rfl
  exact decode_of_row e h (reserved_of_or (mask_OpL o) (by decide) (by decide)) (reserved_of_or (mask_OpL o) (by decide) (by decide))
    (reserved_of_or (mask_OpL o) (by decide) (by decide))

theorem Sys2Proof.Laws.Encode.movh (o : OpL16) : Encode.Statement (.movh o) := by
  intro h
  have e : decodeRow (encode (.movh o)) = .ok ⟨.movh o, 0x44000000, 0x00000000, 0x00000000, 0x00080000⟩ := by
    rw [encode]
    simp (disch := decide) only [decodeRow, fixed_of_or (mask_OpL16 o), read_OpL16 o]
    try rfl
  exact decode_of_row e h (reserved_of_or (mask_OpL16 o) (by decide) (by decide)) (reserved_of_or (mask_OpL16 o) (by decide) (by decide))
    (reserved_of_or (mask_OpL16 o) (by decide) (by decide))

theorem Sys2Proof.Laws.Encode.pcrel (o : OpL) : Encode.Statement (.pcrel o) := by
  intro h
  have e : decodeRow (encode (.pcrel o)) = .ok ⟨.pcrel o, 0x48000000, 0x00000000, 0x00000000, 0x00000000⟩ := by
    rw [encode]
    simp (disch := decide) only [decodeRow, fixed_of_or (mask_OpL o), read_OpL o]
    try rfl
  exact decode_of_row e h (reserved_of_or (mask_OpL o) (by decide) (by decide)) (reserved_of_or (mask_OpL o) (by decide) (by decide))
    (reserved_of_or (mask_OpL o) (by decide) (by decide))

theorem Sys2Proof.Laws.Encode.br (o : OpB) : Encode.Statement (.br o) := by
  intro h
  have e : decodeRow (encode (.br o)) = .ok ⟨.br o, 0x50000000, 0x00000000, 0x00000000, 0x00000000⟩ := by
    rw [encode]
    simp (disch := decide) only [decodeRow, fixed_of_or (mask_OpB o), read_OpB o]
    try rfl
  exact decode_of_row e h (reserved_of_or (mask_OpB o) (by decide) (by decide)) (reserved_of_or (mask_OpB o) (by decide) (by decide))
    (reserved_of_or (mask_OpB o) (by decide) (by decide))

theorem Sys2Proof.Laws.Encode.call (o : OpB) : Encode.Statement (.call o) := by
  intro h
  have e : decodeRow (encode (.call o)) = .ok ⟨.call o, 0x54000000, 0x00000000, 0x00000000, 0x00000000⟩ := by
    rw [encode]
    simp (disch := decide) only [decodeRow, fixed_of_or (mask_OpB o), read_OpB o]
    try rfl
  exact decode_of_row e h (reserved_of_or (mask_OpB o) (by decide) (by decide)) (reserved_of_or (mask_OpB o) (by decide) (by decide))
    (reserved_of_or (mask_OpB o) (by decide) (by decide))

theorem Sys2Proof.Laws.Encode.jr (o : OpRA) : Encode.Statement (.jr o) := by
  intro h
  have e : decodeRow (encode (.jr o)) = .ok ⟨.jr o, 0x58000000, 0x00000000, 0x00000000, 0x03F03F40⟩ := by
    rw [encode, decodeRow_Jmp]
    · simp (disch := decide) only [decodeJmp, fixed_of_or (mask_OpRA o), read_OpRA o]
      try rfl
    · rw [fixed_of_or (mask_OpRA o) (by decide)]; decide
  exact decode_of_row e h (reserved_of_or (mask_OpRA o) (by decide) (by decide)) (reserved_of_or (mask_OpRA o) (by decide) (by decide))
    (reserved_of_or (mask_OpRA o) (by decide) (by decide))

theorem Sys2Proof.Laws.Encode.jalr (o : OpRDA) : Encode.Statement (.jalr o) := by
  intro h
  have e : decodeRow (encode (.jalr o)) = .ok ⟨.jalr o, 0x58000008, 0x00000000, 0x00000000, 0x00003F40⟩ := by
    rw [encode, decodeRow_Jmp]
    · simp (disch := decide) only [decodeJmp, fixed_of_or (mask_OpRDA o), read_OpRDA o]
      try rfl
    · rw [fixed_of_or (mask_OpRDA o) (by decide)]; decide
  exact decode_of_row e h (reserved_of_or (mask_OpRDA o) (by decide) (by decide)) (reserved_of_or (mask_OpRDA o) (by decide) (by decide))
    (reserved_of_or (mask_OpRDA o) (by decide) (by decide))

theorem Sys2Proof.Laws.Encode.ret (o : OpG) : Encode.Statement (.ret o) := by
  intro h
  have e : decodeRow (encode (.ret o)) = .ok ⟨.ret o, 0x58000010, 0x00000000, 0x00000000, 0x03FFFFC0⟩ := by
    rw [encode, decodeRow_Jmp]
    · simp (disch := decide) only [decodeJmp, fixed_of_or (mask_OpG o), read_OpG o]
      try rfl
    · rw [fixed_of_or (mask_OpG o) (by decide)]; decide
  exact decode_of_row e h (reserved_of_or (mask_OpG o) (by decide) (by decide)) (reserved_of_or (mask_OpG o) (by decide) (by decide))
    (reserved_of_or (mask_OpG o) (by decide) (by decide))

theorem Sys2Proof.Laws.Encode.repf (o : OpRepf) : Encode.Statement (.repf o) := by
  intro h
  have e : decodeRow (encode (.repf o)) = .ok ⟨.repf o, 0x5C000000, 0x00000000, 0x00000000, 0x000003F8⟩ := by
    rw [encode]
    simp (disch := decide) only [decodeRow, fixed_of_or (mask_OpRepf o), read_OpRepf o]
    try rfl
  exact decode_of_row e h (reserved_of_or (mask_OpRepf o) (by decide) (by decide)) (reserved_of_or (mask_OpRepf o) (by decide) (by decide))
    (reserved_of_or (mask_OpRepf o) (by decide) (by decide))

theorem Sys2Proof.Laws.Encode.pand (o : OpP3) : Encode.Statement (.pand o) := by
  intro h
  have e : decodeRow (encode (.pand o)) = .ok ⟨.pand o, 0x60000000, 0x00000000, 0x00000000, 0x038E38C0⟩ := by
    rw [encode, decodeRow_Prd]
    · simp (disch := decide) only [decodePrd, fixed_of_or (mask_OpP3 o), read_OpP3 o]
      try rfl
    · rw [fixed_of_or (mask_OpP3 o) (by decide)]; decide
  exact decode_of_row e h (reserved_of_or (mask_OpP3 o) (by decide) (by decide)) (reserved_of_or (mask_OpP3 o) (by decide) (by decide))
    (reserved_of_or (mask_OpP3 o) (by decide) (by decide))

theorem Sys2Proof.Laws.Encode.por (o : OpP3) : Encode.Statement (.por o) := by
  intro h
  have e : decodeRow (encode (.por o)) = .ok ⟨.por o, 0x60000008, 0x00000000, 0x00000000, 0x038E38C0⟩ := by
    rw [encode, decodeRow_Prd]
    · simp (disch := decide) only [decodePrd, fixed_of_or (mask_OpP3 o), read_OpP3 o]
      try rfl
    · rw [fixed_of_or (mask_OpP3 o) (by decide)]; decide
  exact decode_of_row e h (reserved_of_or (mask_OpP3 o) (by decide) (by decide)) (reserved_of_or (mask_OpP3 o) (by decide) (by decide))
    (reserved_of_or (mask_OpP3 o) (by decide) (by decide))

theorem Sys2Proof.Laws.Encode.pxor (o : OpP3) : Encode.Statement (.pxor o) := by
  intro h
  have e : decodeRow (encode (.pxor o)) = .ok ⟨.pxor o, 0x60000010, 0x00000000, 0x00000000, 0x038E38C0⟩ := by
    rw [encode, decodeRow_Prd]
    · simp (disch := decide) only [decodePrd, fixed_of_or (mask_OpP3 o), read_OpP3 o]
      try rfl
    · rw [fixed_of_or (mask_OpP3 o) (by decide)]; decide
  exact decode_of_row e h (reserved_of_or (mask_OpP3 o) (by decide) (by decide)) (reserved_of_or (mask_OpP3 o) (by decide) (by decide))
    (reserved_of_or (mask_OpP3 o) (by decide) (by decide))

theorem Sys2Proof.Laws.Encode.pnot (o : OpP2) : Encode.Statement (.pnot o) := by
  intro h
  have e : decodeRow (encode (.pnot o)) = .ok ⟨.pnot o, 0x60000018, 0x00000000, 0x00000000, 0x038E3FC0⟩ := by
    rw [encode, decodeRow_Prd]
    · simp (disch := decide) only [decodePrd, fixed_of_or (mask_OpP2 o), read_OpP2 o]
      try rfl
    · rw [fixed_of_or (mask_OpP2 o) (by decide)]; decide
  exact decode_of_row e h (reserved_of_or (mask_OpP2 o) (by decide) (by decide)) (reserved_of_or (mask_OpP2 o) (by decide) (by decide))
    (reserved_of_or (mask_OpP2 o) (by decide) (by decide))

theorem Sys2Proof.Laws.Encode.pget (o : OpD) : Encode.Statement (.pget o) := by
  intro h
  have e : decodeRow (encode (.pget o)) = .ok ⟨.pget o, 0x60000020, 0x00000000, 0x00000000, 0x000FFFC0⟩ := by
    rw [encode, decodeRow_Prd]
    · simp (disch := decide) only [decodePrd, fixed_of_or (mask_OpD o), read_OpD o]
      try rfl
    · rw [fixed_of_or (mask_OpD o) (by decide)]; decide
  exact decode_of_row e h (reserved_of_or (mask_OpD o) (by decide) (by decide)) (reserved_of_or (mask_OpD o) (by decide) (by decide))
    (reserved_of_or (mask_OpD o) (by decide) (by decide))

theorem Sys2Proof.Laws.Encode.pset (o : OpRA) : Encode.Statement (.pset o) := by
  intro h
  have e : decodeRow (encode (.pset o)) = .ok ⟨.pset o, 0x60000028, 0x00000000, 0x00000000, 0x03F03F40⟩ := by
    rw [encode, decodeRow_Prd]
    · simp (disch := decide) only [decodePrd, fixed_of_or (mask_OpRA o), read_OpRA o]
      try rfl
    · rw [fixed_of_or (mask_OpRA o) (by decide)]; decide
  exact decode_of_row e h (reserved_of_or (mask_OpRA o) (by decide) (by decide)) (reserved_of_or (mask_OpRA o) (by decide) (by decide))
    (reserved_of_or (mask_OpRA o) (by decide) (by decide))

theorem Sys2Proof.Laws.Encode.kmov (o : OpK2) : Encode.Statement (.kmov o) := by
  intro h
  have e : decodeRow (encode (.kmov o)) = .ok ⟨.kmov o, 0x60000030, 0x00000000, 0x00000000, 0x03CF3FC0⟩ := by
    rw [encode, decodeRow_Prd]
    · simp (disch := decide) only [decodePrd, fixed_of_or (mask_OpK2 o), read_OpK2 o]
      try rfl
    · rw [fixed_of_or (mask_OpK2 o) (by decide)]; decide
  exact decode_of_row e h (reserved_of_or (mask_OpK2 o) (by decide) (by decide)) (reserved_of_or (mask_OpK2 o) (by decide) (by decide))
    (reserved_of_or (mask_OpK2 o) (by decide) (by decide))

theorem Sys2Proof.Laws.Encode.ldl (o : OpM) : Encode.Statement (.ldl o) := by
  intro h
  have e : decodeRow (encode (.ldl o)) = .ok ⟨.ldl o, 0x80000000, 0x00000000, 0x00000000, 0x00000000⟩ := by
    rw [encode]
    simp (disch := decide) only [decodeRow, fixed_of_or (mask_OpM o), read_OpM o]
    try rfl
  exact decode_of_row e h (reserved_of_or (mask_OpM o) (by decide) (by decide)) (reserved_of_or (mask_OpM o) (by decide) (by decide))
    (reserved_of_or (mask_OpM o) (by decide) (by decide))

theorem Sys2Proof.Laws.Encode.ldls (o : OpM) : Encode.Statement (.ldls o) := by
  intro h
  have e : decodeRow (encode (.ldls o)) = .ok ⟨.ldls o, 0x84000000, 0x00000000, 0x00000000, 0x00000000⟩ := by
    rw [encode]
    simp (disch := decide) only [decodeRow, fixed_of_or (mask_OpM o), read_OpM o]
    try rfl
  exact decode_of_row e h (reserved_of_or (mask_OpM o) (by decide) (by decide)) (reserved_of_or (mask_OpM o) (by decide) (by decide))
    (reserved_of_or (mask_OpM o) (by decide) (by decide))

theorem Sys2Proof.Laws.Encode.stl (o : OpM) : Encode.Statement (.stl o) := by
  intro h
  have e : decodeRow (encode (.stl o)) = .ok ⟨.stl o, 0x88000000, 0x00000000, 0x00000000, 0x00000000⟩ := by
    rw [encode]
    simp (disch := decide) only [decodeRow, fixed_of_or (mask_OpM o), read_OpM o]
    try rfl
  exact decode_of_row e h (reserved_of_or (mask_OpM o) (by decide) (by decide)) (reserved_of_or (mask_OpM o) (by decide) (by decide))
    (reserved_of_or (mask_OpM o) (by decide) (by decide))

theorem Sys2Proof.Laws.Encode.ldg (o : OpM) : Encode.Statement (.ldg o) := by
  intro h
  have e : decodeRow (encode (.ldg o)) = .ok ⟨.ldg o, 0x8C000000, 0x00000000, 0x00000000, 0x00000000⟩ := by
    rw [encode]
    simp (disch := decide) only [decodeRow, fixed_of_or (mask_OpM o), read_OpM o]
    try rfl
  exact decode_of_row e h (reserved_of_or (mask_OpM o) (by decide) (by decide)) (reserved_of_or (mask_OpM o) (by decide) (by decide))
    (reserved_of_or (mask_OpM o) (by decide) (by decide))

theorem Sys2Proof.Laws.Encode.ldgs (o : OpM) : Encode.Statement (.ldgs o) := by
  intro h
  have e : decodeRow (encode (.ldgs o)) = .ok ⟨.ldgs o, 0x90000000, 0x00000000, 0x00000000, 0x00000000⟩ := by
    rw [encode]
    simp (disch := decide) only [decodeRow, fixed_of_or (mask_OpM o), read_OpM o]
    try rfl
  exact decode_of_row e h (reserved_of_or (mask_OpM o) (by decide) (by decide)) (reserved_of_or (mask_OpM o) (by decide) (by decide))
    (reserved_of_or (mask_OpM o) (by decide) (by decide))

theorem Sys2Proof.Laws.Encode.stg (o : OpM) : Encode.Statement (.stg o) := by
  intro h
  have e : decodeRow (encode (.stg o)) = .ok ⟨.stg o, 0x94000000, 0x00000000, 0x00000000, 0x00000000⟩ := by
    rw [encode]
    simp (disch := decide) only [decodeRow, fixed_of_or (mask_OpM o), read_OpM o]
    try rfl
  exact decode_of_row e h (reserved_of_or (mask_OpM o) (by decide) (by decide)) (reserved_of_or (mask_OpM o) (by decide) (by decide))
    (reserved_of_or (mask_OpM o) (by decide) (by decide))

theorem Sys2Proof.Laws.Encode.ldw (o : OpMS) : Encode.Statement (.ldw o) := by
  intro h
  have e : decodeRow (encode (.ldw o)) = .ok ⟨.ldw o, 0x98000000, 0x00000000, 0x00000000, 0x00000000⟩ := by
    rw [encode, decodeRow_Sync]
    · simp (disch := decide) only [decodeSync, fixed_of_or (mask_OpMS o), read_OpMS o]
      try rfl
    · rw [fixed_of_or (mask_OpMS o) (by decide)]; decide
  exact decode_of_row e h (reserved_of_or (mask_OpMS o) (by decide) (by decide)) (reserved_of_or (mask_OpMS o) (by decide) (by decide))
    (reserved_of_or (mask_OpMS o) (by decide) (by decide))

theorem Sys2Proof.Laws.Encode.lde (o : OpMS) : Encode.Statement (.lde o) := by
  intro h
  have e : decodeRow (encode (.lde o)) = .ok ⟨.lde o, 0x98000800, 0x00000000, 0x00000000, 0x00000000⟩ := by
    rw [encode, decodeRow_Sync]
    · simp (disch := decide) only [decodeSync, fixed_of_or (mask_OpMS o), read_OpMS o]
      try rfl
    · rw [fixed_of_or (mask_OpMS o) (by decide)]; decide
  exact decode_of_row e h (reserved_of_or (mask_OpMS o) (by decide) (by decide)) (reserved_of_or (mask_OpMS o) (by decide) (by decide))
    (reserved_of_or (mask_OpMS o) (by decide) (by decide))

theorem Sys2Proof.Laws.Encode.stf (o : OpMS) : Encode.Statement (.stf o) := by
  intro h
  have e : decodeRow (encode (.stf o)) = .ok ⟨.stf o, 0x98001000, 0x00000000, 0x00000000, 0x00000000⟩ := by
    rw [encode, decodeRow_Sync]
    · simp (disch := decide) only [decodeSync, fixed_of_or (mask_OpMS o), read_OpMS o]
      try rfl
    · rw [fixed_of_or (mask_OpMS o) (by decide)]; decide
  exact decode_of_row e h (reserved_of_or (mask_OpMS o) (by decide) (by decide)) (reserved_of_or (mask_OpMS o) (by decide) (by decide))
    (reserved_of_or (mask_OpMS o) (by decide) (by decide))

theorem Sys2Proof.Laws.Encode.sete (o : OpMA) : Encode.Statement (.sete o) := by
  intro h
  have e : decodeRow (encode (.sete o)) = .ok ⟨.sete o, 0x98001800, 0x00000000, 0x00000000, 0x03F00000⟩ := by
    rw [encode, decodeRow_Sync]
    · simp (disch := decide) only [decodeSync, fixed_of_or (mask_OpMA o), read_OpMA o]
      try rfl
    · rw [fixed_of_or (mask_OpMA o) (by decide)]; decide
  exact decode_of_row e h (reserved_of_or (mask_OpMA o) (by decide) (by decide)) (reserved_of_or (mask_OpMA o) (by decide) (by decide))
    (reserved_of_or (mask_OpMA o) (by decide) (by decide))

theorem Sys2Proof.Laws.Encode.ldr (o : OpMS) : Encode.Statement (.ldr o) := by
  intro h
  have e : decodeRow (encode (.ldr o)) = .ok ⟨.ldr o, 0x9C000000, 0x00000000, 0x00000000, 0x00000000⟩ := by
    rw [encode, decodeRow_Rmt]
    · simp (disch := decide) only [decodeRmt, fixed_of_or (mask_OpMS o), read_OpMS o]
      try rfl
    · rw [fixed_of_or (mask_OpMS o) (by decide)]; decide
  exact decode_of_row e h (reserved_of_or (mask_OpMS o) (by decide) (by decide)) (reserved_of_or (mask_OpMS o) (by decide) (by decide))
    (reserved_of_or (mask_OpMS o) (by decide) (by decide))

theorem Sys2Proof.Laws.Encode.str (o : OpMS) : Encode.Statement (.str o) := by
  intro h
  have e : decodeRow (encode (.str o)) = .ok ⟨.str o, 0x9C000800, 0x00000000, 0x00000000, 0x00000000⟩ := by
    rw [encode, decodeRow_Rmt]
    · simp (disch := decide) only [decodeRmt, fixed_of_or (mask_OpMS o), read_OpMS o]
      try rfl
    · rw [fixed_of_or (mask_OpMS o) (by decide)]; decide
  exact decode_of_row e h (reserved_of_or (mask_OpMS o) (by decide) (by decide)) (reserved_of_or (mask_OpMS o) (by decide) (by decide))
    (reserved_of_or (mask_OpMS o) (by decide) (by decide))

theorem Sys2Proof.Laws.Encode.ldre (o : OpMS) : Encode.Statement (.ldre o) := by
  intro h
  have e : decodeRow (encode (.ldre o)) = .ok ⟨.ldre o, 0x9C001000, 0x00000000, 0x00000000, 0x00000000⟩ := by
    rw [encode, decodeRow_Rmt]
    · simp (disch := decide) only [decodeRmt, fixed_of_or (mask_OpMS o), read_OpMS o]
      try rfl
    · rw [fixed_of_or (mask_OpMS o) (by decide)]; decide
  exact decode_of_row e h (reserved_of_or (mask_OpMS o) (by decide) (by decide)) (reserved_of_or (mask_OpMS o) (by decide) (by decide))
    (reserved_of_or (mask_OpMS o) (by decide) (by decide))

theorem Sys2Proof.Laws.Encode.strf (o : OpMS) : Encode.Statement (.strf o) := by
  intro h
  have e : decodeRow (encode (.strf o)) = .ok ⟨.strf o, 0x9C001800, 0x00000000, 0x00000000, 0x00000000⟩ := by
    rw [encode, decodeRow_Rmt]
    · simp (disch := decide) only [decodeRmt, fixed_of_or (mask_OpMS o), read_OpMS o]
      try rfl
    · rw [fixed_of_or (mask_OpMS o) (by decide)]; decide
  exact decode_of_row e h (reserved_of_or (mask_OpMS o) (by decide) (by decide)) (reserved_of_or (mask_OpMS o) (by decide) (by decide))
    (reserved_of_or (mask_OpMS o) (by decide) (by decide))

theorem Sys2Proof.Laws.Encode.stgm (o : OpStgm) : Encode.Statement (.stgm o) := by
  intro h
  have e : decodeRow (encode (.stgm o)) = .ok ⟨.stgm o, 0xB4001800, 0x00000000, 0x00000000, 0x00003800⟩ := by
    rw [encode]
    simp (disch := decide) only [decodeRow, fixed_of_or (mask_OpStgm o), read_OpStgm o]
    try rfl
  exact decode_of_row e h (reserved_of_or (mask_OpStgm o) (by decide) (by decide)) (reserved_of_or (mask_OpStgm o) (by decide) (by decide))
    (reserved_of_or (mask_OpStgm o) (by decide) (by decide))

theorem Sys2Proof.Laws.Encode.faal (o : OpR) : Encode.Statement (.faal o) := by
  intro h
  have e : decodeRow (encode (.faal o)) = .ok ⟨.faal o, 0xA0000000, 0x00000000, 0x00000000, 0x00000000⟩ := by
    rw [encode, decodeRow_Atl]
    · simp (disch := decide) only [decodeAtl, fixed_of_or (mask_OpR o), read_OpR o]
      try rfl
    · rw [fixed_of_or (mask_OpR o) (by decide)]; decide
  exact decode_of_row e h (reserved_of_or (mask_OpR o) (by decide) (by decide)) (reserved_of_or (mask_OpR o) (by decide) (by decide))
    (reserved_of_or (mask_OpR o) (by decide) (by decide))

theorem Sys2Proof.Laws.Encode.swapl (o : OpR) : Encode.Statement (.swapl o) := by
  intro h
  have e : decodeRow (encode (.swapl o)) = .ok ⟨.swapl o, 0xA0000008, 0x00000000, 0x00000000, 0x00000000⟩ := by
    rw [encode, decodeRow_Atl]
    · simp (disch := decide) only [decodeAtl, fixed_of_or (mask_OpR o), read_OpR o]
      try rfl
    · rw [fixed_of_or (mask_OpR o) (by decide)]; decide
  exact decode_of_row e h (reserved_of_or (mask_OpR o) (by decide) (by decide)) (reserved_of_or (mask_OpR o) (by decide) (by decide))
    (reserved_of_or (mask_OpR o) (by decide) (by decide))

theorem Sys2Proof.Laws.Encode.casl (o : OpR) : Encode.Statement (.casl o) := by
  intro h
  have e : decodeRow (encode (.casl o)) = .ok ⟨.casl o, 0xA0000010, 0x00000000, 0x00000000, 0x00000000⟩ := by
    rw [encode, decodeRow_Atl]
    · simp (disch := decide) only [decodeAtl, fixed_of_or (mask_OpR o), read_OpR o]
      try rfl
    · rw [fixed_of_or (mask_OpR o) (by decide)]; decide
  exact decode_of_row e h (reserved_of_or (mask_OpR o) (by decide) (by decide)) (reserved_of_or (mask_OpR o) (by decide) (by decide))
    (reserved_of_or (mask_OpR o) (by decide) (by decide))

theorem Sys2Proof.Laws.Encode.fandl (o : OpR) : Encode.Statement (.fandl o) := by
  intro h
  have e : decodeRow (encode (.fandl o)) = .ok ⟨.fandl o, 0xA0000018, 0x00000000, 0x00000000, 0x00000000⟩ := by
    rw [encode, decodeRow_Atl]
    · simp (disch := decide) only [decodeAtl, fixed_of_or (mask_OpR o), read_OpR o]
      try rfl
    · rw [fixed_of_or (mask_OpR o) (by decide)]; decide
  exact decode_of_row e h (reserved_of_or (mask_OpR o) (by decide) (by decide)) (reserved_of_or (mask_OpR o) (by decide) (by decide))
    (reserved_of_or (mask_OpR o) (by decide) (by decide))

theorem Sys2Proof.Laws.Encode.forl (o : OpR) : Encode.Statement (.forl o) := by
  intro h
  have e : decodeRow (encode (.forl o)) = .ok ⟨.forl o, 0xA0000020, 0x00000000, 0x00000000, 0x00000000⟩ := by
    rw [encode, decodeRow_Atl]
    · simp (disch := decide) only [decodeAtl, fixed_of_or (mask_OpR o), read_OpR o]
      try rfl
    · rw [fixed_of_or (mask_OpR o) (by decide)]; decide
  exact decode_of_row e h (reserved_of_or (mask_OpR o) (by decide) (by decide)) (reserved_of_or (mask_OpR o) (by decide) (by decide))
    (reserved_of_or (mask_OpR o) (by decide) (by decide))

theorem Sys2Proof.Laws.Encode.fxorl (o : OpR) : Encode.Statement (.fxorl o) := by
  intro h
  have e : decodeRow (encode (.fxorl o)) = .ok ⟨.fxorl o, 0xA0000028, 0x00000000, 0x00000000, 0x00000000⟩ := by
    rw [encode, decodeRow_Atl]
    · simp (disch := decide) only [decodeAtl, fixed_of_or (mask_OpR o), read_OpR o]
      try rfl
    · rw [fixed_of_or (mask_OpR o) (by decide)]; decide
  exact decode_of_row e h (reserved_of_or (mask_OpR o) (by decide) (by decide)) (reserved_of_or (mask_OpR o) (by decide) (by decide))
    (reserved_of_or (mask_OpR o) (by decide) (by decide))

theorem Sys2Proof.Laws.Encode.fminl (o : OpR) : Encode.Statement (.fminl o) := by
  intro h
  have e : decodeRow (encode (.fminl o)) = .ok ⟨.fminl o, 0xA0000030, 0x00000000, 0x00000000, 0x00000000⟩ := by
    rw [encode, decodeRow_Atl]
    · simp (disch := decide) only [decodeAtl, fixed_of_or (mask_OpR o), read_OpR o]
      try rfl
    · rw [fixed_of_or (mask_OpR o) (by decide)]; decide
  exact decode_of_row e h (reserved_of_or (mask_OpR o) (by decide) (by decide)) (reserved_of_or (mask_OpR o) (by decide) (by decide))
    (reserved_of_or (mask_OpR o) (by decide) (by decide))

theorem Sys2Proof.Laws.Encode.fmaxl (o : OpR) : Encode.Statement (.fmaxl o) := by
  intro h
  have e : decodeRow (encode (.fmaxl o)) = .ok ⟨.fmaxl o, 0xA0000038, 0x00000000, 0x00000000, 0x00000000⟩ := by
    rw [encode, decodeRow_Atl]
    · simp (disch := decide) only [decodeAtl, fixed_of_or (mask_OpR o), read_OpR o]
      try rfl
    · rw [fixed_of_or (mask_OpR o) (by decide)]; decide
  exact decode_of_row e h (reserved_of_or (mask_OpR o) (by decide) (by decide)) (reserved_of_or (mask_OpR o) (by decide) (by decide))
    (reserved_of_or (mask_OpR o) (by decide) (by decide))

theorem Sys2Proof.Laws.Encode.faa (o : OpR) : Encode.Statement (.faa o) := by
  intro h
  have e : decodeRow (encode (.faa o)) = .ok ⟨.faa o, 0xA4000000, 0x00000000, 0x00000000, 0x00000000⟩ := by
    rw [encode, decodeRow_Atg]
    · simp (disch := decide) only [decodeAtg, fixed_of_or (mask_OpR o), read_OpR o]
      try rfl
    · rw [fixed_of_or (mask_OpR o) (by decide)]; decide
  exact decode_of_row e h (reserved_of_or (mask_OpR o) (by decide) (by decide)) (reserved_of_or (mask_OpR o) (by decide) (by decide))
    (reserved_of_or (mask_OpR o) (by decide) (by decide))

theorem Sys2Proof.Laws.Encode.swap (o : OpR) : Encode.Statement (.swap o) := by
  intro h
  have e : decodeRow (encode (.swap o)) = .ok ⟨.swap o, 0xA4000008, 0x00000000, 0x00000000, 0x00000000⟩ := by
    rw [encode, decodeRow_Atg]
    · simp (disch := decide) only [decodeAtg, fixed_of_or (mask_OpR o), read_OpR o]
      try rfl
    · rw [fixed_of_or (mask_OpR o) (by decide)]; decide
  exact decode_of_row e h (reserved_of_or (mask_OpR o) (by decide) (by decide)) (reserved_of_or (mask_OpR o) (by decide) (by decide))
    (reserved_of_or (mask_OpR o) (by decide) (by decide))

theorem Sys2Proof.Laws.Encode.cas (o : OpR) : Encode.Statement (.cas o) := by
  intro h
  have e : decodeRow (encode (.cas o)) = .ok ⟨.cas o, 0xA4000010, 0x00000000, 0x00000000, 0x00000000⟩ := by
    rw [encode, decodeRow_Atg]
    · simp (disch := decide) only [decodeAtg, fixed_of_or (mask_OpR o), read_OpR o]
      try rfl
    · rw [fixed_of_or (mask_OpR o) (by decide)]; decide
  exact decode_of_row e h (reserved_of_or (mask_OpR o) (by decide) (by decide)) (reserved_of_or (mask_OpR o) (by decide) (by decide))
    (reserved_of_or (mask_OpR o) (by decide) (by decide))

theorem Sys2Proof.Laws.Encode.lr (o : OpRDA) : Encode.Statement (.lr o) := by
  intro h
  have e : decodeRow (encode (.lr o)) = .ok ⟨.lr o, 0xA4000018, 0x00000000, 0x00000000, 0x00003F40⟩ := by
    rw [encode, decodeRow_Atg]
    · simp (disch := decide) only [decodeAtg, fixed_of_or (mask_OpRDA o), read_OpRDA o]
      try rfl
    · rw [fixed_of_or (mask_OpRDA o) (by decide)]; decide
  exact decode_of_row e h (reserved_of_or (mask_OpRDA o) (by decide) (by decide)) (reserved_of_or (mask_OpRDA o) (by decide) (by decide))
    (reserved_of_or (mask_OpRDA o) (by decide) (by decide))

theorem Sys2Proof.Laws.Encode.sc (o : OpR) : Encode.Statement (.sc o) := by
  intro h
  have e : decodeRow (encode (.sc o)) = .ok ⟨.sc o, 0xA4000020, 0x00000000, 0x00000000, 0x00000000⟩ := by
    rw [encode, decodeRow_Atg]
    · simp (disch := decide) only [decodeAtg, fixed_of_or (mask_OpR o), read_OpR o]
      try rfl
    · rw [fixed_of_or (mask_OpR o) (by decide)]; decide
  exact decode_of_row e h (reserved_of_or (mask_OpR o) (by decide) (by decide)) (reserved_of_or (mask_OpR o) (by decide) (by decide))
    (reserved_of_or (mask_OpR o) (by decide) (by decide))

theorem Sys2Proof.Laws.Encode.amax (o : OpR) : Encode.Statement (.amax o) := by
  intro h
  have e : decodeRow (encode (.amax o)) = .ok ⟨.amax o, 0xA4000028, 0x00000000, 0x00000000, 0x00000000⟩ := by
    rw [encode, decodeRow_Atg]
    · simp (disch := decide) only [decodeAtg, fixed_of_or (mask_OpR o), read_OpR o]
      try rfl
    · rw [fixed_of_or (mask_OpR o) (by decide)]; decide
  exact decode_of_row e h (reserved_of_or (mask_OpR o) (by decide) (by decide)) (reserved_of_or (mask_OpR o) (by decide) (by decide))
    (reserved_of_or (mask_OpR o) (by decide) (by decide))

theorem Sys2Proof.Laws.Encode.waitrs (o : OpR) : Encode.Statement (.waitrs o) := by
  intro h
  have e : decodeRow (encode (.waitrs o)) = .ok ⟨.waitrs o, 0xA4000030, 0x00000000, 0x00000000, 0x00000000⟩ := by
    rw [encode, decodeRow_Atg]
    · simp (disch := decide) only [decodeAtg, fixed_of_or (mask_OpR o), read_OpR o]
      try rfl
    · rw [fixed_of_or (mask_OpR o) (by decide)]; decide
  exact decode_of_row e h (reserved_of_or (mask_OpR o) (by decide) (by decide)) (reserved_of_or (mask_OpR o) (by decide) (by decide))
    (reserved_of_or (mask_OpR o) (by decide) (by decide))

theorem Sys2Proof.Laws.Encode.rsvrel (o : OpRA) : Encode.Statement (.rsvrel o) := by
  intro h
  have e : decodeRow (encode (.rsvrel o)) = .ok ⟨.rsvrel o, 0xA4000038, 0x00000000, 0x00000000, 0x03F03F40⟩ := by
    rw [encode, decodeRow_Atg]
    · simp (disch := decide) only [decodeAtg, fixed_of_or (mask_OpRA o), read_OpRA o]
      try rfl
    · rw [fixed_of_or (mask_OpRA o) (by decide)]; decide
  exact decode_of_row e h (reserved_of_or (mask_OpRA o) (by decide) (by decide)) (reserved_of_or (mask_OpRA o) (by decide) (by decide))
    (reserved_of_or (mask_OpRA o) (by decide) (by decide))

theorem Sys2Proof.Laws.Encode.raddI64 (o : OpRed) : Encode.Statement (.raddI64 o) := by
  intro h
  have e : decodeRow (encode (.raddI64 o)) = .ok ⟨.raddI64 o, 0xA8000000, 0x00000000, 0x03E00000, 0x00000000⟩ := by
    rw [encode, decodeRow_Red]
    · simp (disch := decide) only [decodeRed, fixed_of_or (mask_OpRed o), read_OpRed o]
      try rfl
    · rw [fixed_of_or (mask_OpRed o) (by decide)]; decide
  exact decode_of_row e h (reserved_of_or (mask_OpRed o) (by decide) (by decide)) (reserved_of_or (mask_OpRed o) (by decide) (by decide))
    (reserved_of_or (mask_OpRed o) (by decide) (by decide))

theorem Sys2Proof.Laws.Encode.raddF32 (o : OpRed) : Encode.Statement (.raddF32 o) := by
  intro h
  have e : decodeRow (encode (.raddF32 o)) = .ok ⟨.raddF32 o, 0xA8000008, 0x00000000, 0x03E00000, 0x00000000⟩ := by
    rw [encode, decodeRow_Red]
    · simp (disch := decide) only [decodeRed, fixed_of_or (mask_OpRed o), read_OpRed o]
      try rfl
    · rw [fixed_of_or (mask_OpRed o) (by decide)]; decide
  exact decode_of_row e h (reserved_of_or (mask_OpRed o) (by decide) (by decide)) (reserved_of_or (mask_OpRed o) (by decide) (by decide))
    (reserved_of_or (mask_OpRed o) (by decide) (by decide))

theorem Sys2Proof.Laws.Encode.raddF64 (o : OpRed) : Encode.Statement (.raddF64 o) := by
  intro h
  have e : decodeRow (encode (.raddF64 o)) = .ok ⟨.raddF64 o, 0xA8000010, 0x00000000, 0x03E00000, 0x00000000⟩ := by
    rw [encode, decodeRow_Red]
    · simp (disch := decide) only [decodeRed, fixed_of_or (mask_OpRed o), read_OpRed o]
      try rfl
    · rw [fixed_of_or (mask_OpRed o) (by decide)]; decide
  exact decode_of_row e h (reserved_of_or (mask_OpRed o) (by decide) (by decide)) (reserved_of_or (mask_OpRed o) (by decide) (by decide))
    (reserved_of_or (mask_OpRed o) (by decide) (by decide))

theorem Sys2Proof.Laws.Encode.rmin (o : OpRed) : Encode.Statement (.rmin o) := by
  intro h
  have e : decodeRow (encode (.rmin o)) = .ok ⟨.rmin o, 0xA8000018, 0x00000000, 0x03E00000, 0x00000000⟩ := by
    rw [encode, decodeRow_Red]
    · simp (disch := decide) only [decodeRed, fixed_of_or (mask_OpRed o), read_OpRed o]
      try rfl
    · rw [fixed_of_or (mask_OpRed o) (by decide)]; decide
  exact decode_of_row e h (reserved_of_or (mask_OpRed o) (by decide) (by decide)) (reserved_of_or (mask_OpRed o) (by decide) (by decide))
    (reserved_of_or (mask_OpRed o) (by decide) (by decide))

theorem Sys2Proof.Laws.Encode.rmax (o : OpRed) : Encode.Statement (.rmax o) := by
  intro h
  have e : decodeRow (encode (.rmax o)) = .ok ⟨.rmax o, 0xA8000020, 0x00000000, 0x03E00000, 0x00000000⟩ := by
    rw [encode, decodeRow_Red]
    · simp (disch := decide) only [decodeRed, fixed_of_or (mask_OpRed o), read_OpRed o]
      try rfl
    · rw [fixed_of_or (mask_OpRed o) (by decide)]; decide
  exact decode_of_row e h (reserved_of_or (mask_OpRed o) (by decide) (by decide)) (reserved_of_or (mask_OpRed o) (by decide) (by decide))
    (reserved_of_or (mask_OpRed o) (by decide) (by decide))

theorem Sys2Proof.Laws.Encode.rand (o : OpRed) : Encode.Statement (.rand o) := by
  intro h
  have e : decodeRow (encode (.rand o)) = .ok ⟨.rand o, 0xA8000028, 0x00000000, 0x03E00000, 0x00000000⟩ := by
    rw [encode, decodeRow_Red]
    · simp (disch := decide) only [decodeRed, fixed_of_or (mask_OpRed o), read_OpRed o]
      try rfl
    · rw [fixed_of_or (mask_OpRed o) (by decide)]; decide
  exact decode_of_row e h (reserved_of_or (mask_OpRed o) (by decide) (by decide)) (reserved_of_or (mask_OpRed o) (by decide) (by decide))
    (reserved_of_or (mask_OpRed o) (by decide) (by decide))

theorem Sys2Proof.Laws.Encode.ror (o : OpRed) : Encode.Statement (.ror o) := by
  intro h
  have e : decodeRow (encode (.ror o)) = .ok ⟨.ror o, 0xA8000030, 0x00000000, 0x03E00000, 0x00000000⟩ := by
    rw [encode, decodeRow_Red]
    · simp (disch := decide) only [decodeRed, fixed_of_or (mask_OpRed o), read_OpRed o]
      try rfl
    · rw [fixed_of_or (mask_OpRed o) (by decide)]; decide
  exact decode_of_row e h (reserved_of_or (mask_OpRed o) (by decide) (by decide)) (reserved_of_or (mask_OpRed o) (by decide) (by decide))
    (reserved_of_or (mask_OpRed o) (by decide) (by decide))

theorem Sys2Proof.Laws.Encode.rxor (o : OpRed) : Encode.Statement (.rxor o) := by
  intro h
  have e : decodeRow (encode (.rxor o)) = .ok ⟨.rxor o, 0xA8000038, 0x00000000, 0x03E00000, 0x00000000⟩ := by
    rw [encode, decodeRow_Red]
    · simp (disch := decide) only [decodeRed, fixed_of_or (mask_OpRed o), read_OpRed o]
      try rfl
    · rw [fixed_of_or (mask_OpRed o) (by decide)]; decide
  exact decode_of_row e h (reserved_of_or (mask_OpRed o) (by decide) (by decide)) (reserved_of_or (mask_OpRed o) (by decide) (by decide))
    (reserved_of_or (mask_OpRed o) (by decide) (by decide))

theorem Sys2Proof.Laws.Encode.fence (o : OpFence) : Encode.Statement (.fence o) := by
  intro h
  have e : decodeRow (encode (.fence o)) = .ok ⟨.fence o, 0xAC000000, 0x00000000, 0x00000000, 0x03FFC000⟩ := by
    rw [encode, decodeRow_Fen]
    · simp (disch := decide) only [decodeFen, fixed_of_or (mask_OpFence o), read_OpFence o]
      try rfl
    · rw [fixed_of_or (mask_OpFence o) (by decide)]; decide
  exact decode_of_row e h (reserved_of_or (mask_OpFence o) (by decide) (by decide)) (reserved_of_or (mask_OpFence o) (by decide) (by decide))
    (reserved_of_or (mask_OpFence o) (by decide) (by decide))

theorem Sys2Proof.Laws.Encode.bar (o : OpBar) : Encode.Statement (.bar o) := by
  intro h
  have e : decodeRow (encode (.bar o)) = .ok ⟨.bar o, 0xAC000400, 0x00000000, 0x00000000, 0x03FFC078⟩ := by
    rw [encode, decodeRow_Fen]
    · simp (disch := decide) only [decodeFen, fixed_of_or (mask_OpBar o), read_OpBar o]
      try rfl
    · rw [fixed_of_or (mask_OpBar o) (by decide)]; decide
  exact decode_of_row e h (reserved_of_or (mask_OpBar o) (by decide) (by decide)) (reserved_of_or (mask_OpBar o) (by decide) (by decide))
    (reserved_of_or (mask_OpBar o) (by decide) (by decide))

theorem Sys2Proof.Laws.Encode.qbind (o : OpQbind) : Encode.Statement (.qbind o) := by
  intro h
  have e : decodeRow (encode (.qbind o)) = .ok ⟨.qbind o, 0xB0000000, 0x00000000, 0x00000000, 0x03F00000⟩ := by
    rw [encode, decodeRow_Qop]
    · simp (disch := decide) only [decodeQop, fixed_of_or (mask_OpQbind o), read_OpQbind o]
      try rfl
    · rw [fixed_of_or (mask_OpQbind o) (by decide)]; decide
  exact decode_of_row e h (reserved_of_or (mask_OpQbind o) (by decide) (by decide)) (reserved_of_or (mask_OpQbind o) (by decide) (by decide))
    (reserved_of_or (mask_OpQbind o) (by decide) (by decide))

theorem Sys2Proof.Laws.Encode.qstat (o : OpQd) : Encode.Statement (.qstat o) := by
  intro h
  have e : decodeRow (encode (.qstat o)) = .ok ⟨.qstat o, 0xB0000400, 0x00000000, 0x00000000, 0x000FC380⟩ := by
    rw [encode, decodeRow_Qop]
    · simp (disch := decide) only [decodeQop, fixed_of_or (mask_OpQd o), read_OpQd o]
      try rfl
    · rw [fixed_of_or (mask_OpQd o) (by decide)]; decide
  exact decode_of_row e h (reserved_of_or (mask_OpQd o) (by decide) (by decide)) (reserved_of_or (mask_OpQd o) (by decide) (by decide))
    (reserved_of_or (mask_OpQd o) (by decide) (by decide))

theorem Sys2Proof.Laws.Encode.qflush (o : OpQd) : Encode.Statement (.qflush o) := by
  intro h
  have e : decodeRow (encode (.qflush o)) = .ok ⟨.qflush o, 0xB0000800, 0x00000000, 0x00000000, 0x000FC380⟩ := by
    rw [encode, decodeRow_Qop]
    · simp (disch := decide) only [decodeQop, fixed_of_or (mask_OpQd o), read_OpQd o]
      try rfl
    · rw [fixed_of_or (mask_OpQd o) (by decide)]; decide
  exact decode_of_row e h (reserved_of_or (mask_OpQd o) (by decide) (by decide)) (reserved_of_or (mask_OpQd o) (by decide) (by decide))
    (reserved_of_or (mask_OpQd o) (by decide) (by decide))

theorem Sys2Proof.Laws.Encode.qunbind (o : OpQd) : Encode.Statement (.qunbind o) := by
  intro h
  have e : decodeRow (encode (.qunbind o)) = .ok ⟨.qunbind o, 0xB0000C00, 0x00000000, 0x00000000, 0x000FC380⟩ := by
    rw [encode, decodeRow_Qop]
    · simp (disch := decide) only [decodeQop, fixed_of_or (mask_OpQd o), read_OpQd o]
      try rfl
    · rw [fixed_of_or (mask_OpQd o) (by decide)]; decide
  exact decode_of_row e h (reserved_of_or (mask_OpQd o) (by decide) (by decide)) (reserved_of_or (mask_OpQd o) (by decide) (by decide))
    (reserved_of_or (mask_OpQd o) (by decide) (by decide))

theorem Sys2Proof.Laws.Encode.vldl (o : OpVM) : Encode.Statement (.vldl o) := by
  intro h
  have e : decodeRow (encode (.vldl o)) = .ok ⟨.vldl o, 0xC0000000, 0x00000038, 0x00000000, 0x00000000⟩ := by
    rw [encode, decodeRow_Vmem]
    · simp (disch := decide) only [decodeVmem, fixed_of_or (mask_OpVM o), read_OpVM o]
      try rfl
    · rw [fixed_of_or (mask_OpVM o) (by decide)]; decide
  exact decode_of_row e h (reserved_of_or (mask_OpVM o) (by decide) (by decide)) (reserved_of_or (mask_OpVM o) (by decide) (by decide))
    (reserved_of_or (mask_OpVM o) (by decide) (by decide))

theorem Sys2Proof.Laws.Encode.vstl (o : OpVM) : Encode.Statement (.vstl o) := by
  intro h
  have e : decodeRow (encode (.vstl o)) = .ok ⟨.vstl o, 0xC0000100, 0x00000038, 0x00000000, 0x00000000⟩ := by
    rw [encode, decodeRow_Vmem]
    · simp (disch := decide) only [decodeVmem, fixed_of_or (mask_OpVM o), read_OpVM o]
      try rfl
    · rw [fixed_of_or (mask_OpVM o) (by decide)]; decide
  exact decode_of_row e h (reserved_of_or (mask_OpVM o) (by decide) (by decide)) (reserved_of_or (mask_OpVM o) (by decide) (by decide))
    (reserved_of_or (mask_OpVM o) (by decide) (by decide))

theorem Sys2Proof.Laws.Encode.vldg (o : OpVM) : Encode.Statement (.vldg o) := by
  intro h
  have e : decodeRow (encode (.vldg o)) = .ok ⟨.vldg o, 0xC0000200, 0x00000038, 0x00000000, 0x00000000⟩ := by
    rw [encode, decodeRow_Vmem]
    · simp (disch := decide) only [decodeVmem, fixed_of_or (mask_OpVM o), read_OpVM o]
      try rfl
    · rw [fixed_of_or (mask_OpVM o) (by decide)]; decide
  exact decode_of_row e h (reserved_of_or (mask_OpVM o) (by decide) (by decide)) (reserved_of_or (mask_OpVM o) (by decide) (by decide))
    (reserved_of_or (mask_OpVM o) (by decide) (by decide))

theorem Sys2Proof.Laws.Encode.vstg (o : OpVM) : Encode.Statement (.vstg o) := by
  intro h
  have e : decodeRow (encode (.vstg o)) = .ok ⟨.vstg o, 0xC0000300, 0x00000038, 0x00000000, 0x00000000⟩ := by
    rw [encode, decodeRow_Vmem]
    · simp (disch := decide) only [decodeVmem, fixed_of_or (mask_OpVM o), read_OpVM o]
      try rfl
    · rw [fixed_of_or (mask_OpVM o) (by decide)]; decide
  exact decode_of_row e h (reserved_of_or (mask_OpVM o) (by decide) (by decide)) (reserved_of_or (mask_OpVM o) (by decide) (by decide))
    (reserved_of_or (mask_OpVM o) (by decide) (by decide))

theorem Sys2Proof.Laws.Encode.vgatl (o : OpVM) : Encode.Statement (.vgatl o) := by
  intro h
  have e : decodeRow (encode (.vgatl o)) = .ok ⟨.vgatl o, 0xC0000400, 0x00000038, 0x00000000, 0x00000000⟩ := by
    rw [encode, decodeRow_Vmem]
    · simp (disch := decide) only [decodeVmem, fixed_of_or (mask_OpVM o), read_OpVM o]
      try rfl
    · rw [fixed_of_or (mask_OpVM o) (by decide)]; decide
  exact decode_of_row e h (reserved_of_or (mask_OpVM o) (by decide) (by decide)) (reserved_of_or (mask_OpVM o) (by decide) (by decide))
    (reserved_of_or (mask_OpVM o) (by decide) (by decide))

theorem Sys2Proof.Laws.Encode.vscal (o : OpVM) : Encode.Statement (.vscal o) := by
  intro h
  have e : decodeRow (encode (.vscal o)) = .ok ⟨.vscal o, 0xC0000500, 0x00000038, 0x00000000, 0x00000000⟩ := by
    rw [encode, decodeRow_Vmem]
    · simp (disch := decide) only [decodeVmem, fixed_of_or (mask_OpVM o), read_OpVM o]
      try rfl
    · rw [fixed_of_or (mask_OpVM o) (by decide)]; decide
  exact decode_of_row e h (reserved_of_or (mask_OpVM o) (by decide) (by decide)) (reserved_of_or (mask_OpVM o) (by decide) (by decide))
    (reserved_of_or (mask_OpVM o) (by decide) (by decide))

theorem Sys2Proof.Laws.Encode.vldb (o : OpVMb) : Encode.Statement (.vldb o) := by
  intro h
  have e : decodeRow (encode (.vldb o)) = .ok ⟨.vldb o, 0xC0000600, 0x00000000, 0x00000000, 0x00000000⟩ := by
    rw [encode, decodeRow_Vmem]
    · simp (disch := decide) only [decodeVmem, fixed_of_or (mask_OpVMb o), read_OpVMb o]
      try rfl
    · rw [fixed_of_or (mask_OpVMb o) (by decide)]; decide
  exact decode_of_row e h (reserved_of_or (mask_OpVMb o) (by decide) (by decide)) (reserved_of_or (mask_OpVMb o) (by decide) (by decide))
    (reserved_of_or (mask_OpVMb o) (by decide) (by decide))

theorem Sys2Proof.Laws.Encode.vfaVadd (o : OpV) : Encode.Statement (.vfaVadd o) := by
  intro h
  have e : decodeRow (encode (.vfaVadd o)) = .ok ⟨.vfaVadd o, 0xC4000000, 0x00000000, 0x00000000, 0x00000000⟩ := by
    rw [encode, decodeRow_Vfa]
    · simp (disch := decide) only [decodeVfa, fixed_of_or (mask_OpV o), read_OpV o]
      try rfl
    · rw [fixed_of_or (mask_OpV o) (by decide)]; decide
  exact decode_of_row e h (reserved_of_or (mask_OpV o) (by decide) (by decide)) (reserved_of_or (mask_OpV o) (by decide) (by decide))
    (reserved_of_or (mask_OpV o) (by decide) (by decide))

theorem Sys2Proof.Laws.Encode.vfaVsub (o : OpV) : Encode.Statement (.vfaVsub o) := by
  intro h
  have e : decodeRow (encode (.vfaVsub o)) = .ok ⟨.vfaVsub o, 0xC4000100, 0x00000000, 0x00000000, 0x00000000⟩ := by
    rw [encode, decodeRow_Vfa]
    · simp (disch := decide) only [decodeVfa, fixed_of_or (mask_OpV o), read_OpV o]
      try rfl
    · rw [fixed_of_or (mask_OpV o) (by decide)]; decide
  exact decode_of_row e h (reserved_of_or (mask_OpV o) (by decide) (by decide)) (reserved_of_or (mask_OpV o) (by decide) (by decide))
    (reserved_of_or (mask_OpV o) (by decide) (by decide))

theorem Sys2Proof.Laws.Encode.vfaVmul (o : OpV) : Encode.Statement (.vfaVmul o) := by
  intro h
  have e : decodeRow (encode (.vfaVmul o)) = .ok ⟨.vfaVmul o, 0xC4000200, 0x00000000, 0x00000000, 0x00000000⟩ := by
    rw [encode, decodeRow_Vfa]
    · simp (disch := decide) only [decodeVfa, fixed_of_or (mask_OpV o), read_OpV o]
      try rfl
    · rw [fixed_of_or (mask_OpV o) (by decide)]; decide
  exact decode_of_row e h (reserved_of_or (mask_OpV o) (by decide) (by decide)) (reserved_of_or (mask_OpV o) (by decide) (by decide))
    (reserved_of_or (mask_OpV o) (by decide) (by decide))

theorem Sys2Proof.Laws.Encode.vfma (o : OpV) : Encode.Statement (.vfma o) := by
  intro h
  have e : decodeRow (encode (.vfma o)) = .ok ⟨.vfma o, 0xC4000300, 0x00000000, 0x00000000, 0x00000000⟩ := by
    rw [encode, decodeRow_Vfa]
    · simp (disch := decide) only [decodeVfa, fixed_of_or (mask_OpV o), read_OpV o]
      try rfl
    · rw [fixed_of_or (mask_OpV o) (by decide)]; decide
  exact decode_of_row e h (reserved_of_or (mask_OpV o) (by decide) (by decide)) (reserved_of_or (mask_OpV o) (by decide) (by decide))
    (reserved_of_or (mask_OpV o) (by decide) (by decide))

theorem Sys2Proof.Laws.Encode.vfaVmin (o : OpVt) : Encode.Statement (.vfaVmin o) := by
  intro h
  have e : decodeRow (encode (.vfaVmin o)) = .ok ⟨.vfaVmin o, 0xC4000400, 0x00000038, 0x00000000, 0x00000000⟩ := by
    rw [encode, decodeRow_Vfa]
    · simp (disch := decide) only [decodeVfa, fixed_of_or (mask_OpVt o), read_OpVt o]
      try rfl
    · rw [fixed_of_or (mask_OpVt o) (by decide)]; decide
  exact decode_of_row e h (reserved_of_or (mask_OpVt o) (by decide) (by decide)) (reserved_of_or (mask_OpVt o) (by decide) (by decide))
    (reserved_of_or (mask_OpVt o) (by decide) (by decide))

theorem Sys2Proof.Laws.Encode.vfaVmax (o : OpVt) : Encode.Statement (.vfaVmax o) := by
  intro h
  have e : decodeRow (encode (.vfaVmax o)) = .ok ⟨.vfaVmax o, 0xC4000500, 0x00000038, 0x00000000, 0x00000000⟩ := by
    rw [encode, decodeRow_Vfa]
    · simp (disch := decide) only [decodeVfa, fixed_of_or (mask_OpVt o), read_OpVt o]
      try rfl
    · rw [fixed_of_or (mask_OpVt o) (by decide)]; decide
  exact decode_of_row e h (reserved_of_or (mask_OpVt o) (by decide) (by decide)) (reserved_of_or (mask_OpVt o) (by decide) (by decide))
    (reserved_of_or (mask_OpVt o) (by decide) (by decide))

theorem Sys2Proof.Laws.Encode.vabs (o : OpVabs) : Encode.Statement (.vabs o) := by
  intro h
  have e : decodeRow (encode (.vabs o)) = .ok ⟨.vabs o, 0xC4000600, 0x00000038, 0x00000000, 0x0003C000⟩ := by
    rw [encode, decodeRow_Vfa]
    · simp (disch := decide) only [decodeVfa, fixed_of_or (mask_OpVabs o), read_OpVabs o]
      try rfl
    · rw [fixed_of_or (mask_OpVabs o) (by decide)]; decide
  exact decode_of_row e h (reserved_of_or (mask_OpVabs o) (by decide) (by decide)) (reserved_of_or (mask_OpVabs o) (by decide) (by decide))
    (reserved_of_or (mask_OpVabs o) (by decide) (by decide))

theorem Sys2Proof.Laws.Encode.vneg (o : OpVabs) : Encode.Statement (.vneg o) := by
  intro h
  have e : decodeRow (encode (.vneg o)) = .ok ⟨.vneg o, 0xC4000700, 0x00000038, 0x00000000, 0x0003C000⟩ := by
    rw [encode, decodeRow_Vfa]
    · simp (disch := decide) only [decodeVfa, fixed_of_or (mask_OpVabs o), read_OpVabs o]
      try rfl
    · rw [fixed_of_or (mask_OpVabs o) (by decide)]; decide
  exact decode_of_row e h (reserved_of_or (mask_OpVabs o) (by decide) (by decide)) (reserved_of_or (mask_OpVabs o) (by decide) (by decide))
    (reserved_of_or (mask_OpVabs o) (by decide) (by decide))

theorem Sys2Proof.Laws.Encode.viaVadd (o : OpVt) : Encode.Statement (.viaVadd o) := by
  intro h
  have e : decodeRow (encode (.viaVadd o)) = .ok ⟨.viaVadd o, 0xC8000000, 0x00000038, 0x00000000, 0x00000000⟩ := by
    rw [encode, decodeRow_Via]
    · simp (disch := decide) only [decodeVia, fixed_of_or (mask_OpVt o), read_OpVt o]
      try rfl
    · rw [fixed_of_or (mask_OpVt o) (by decide)]; decide
  exact decode_of_row e h (reserved_of_or (mask_OpVt o) (by decide) (by decide)) (reserved_of_or (mask_OpVt o) (by decide) (by decide))
    (reserved_of_or (mask_OpVt o) (by decide) (by decide))

theorem Sys2Proof.Laws.Encode.viaVsub (o : OpVt) : Encode.Statement (.viaVsub o) := by
  intro h
  have e : decodeRow (encode (.viaVsub o)) = .ok ⟨.viaVsub o, 0xC8000100, 0x00000038, 0x00000000, 0x00000000⟩ := by
    rw [encode, decodeRow_Via]
    · simp (disch := decide) only [decodeVia, fixed_of_or (mask_OpVt o), read_OpVt o]
      try rfl
    · rw [fixed_of_or (mask_OpVt o) (by decide)]; decide
  exact decode_of_row e h (reserved_of_or (mask_OpVt o) (by decide) (by decide)) (reserved_of_or (mask_OpVt o) (by decide) (by decide))
    (reserved_of_or (mask_OpVt o) (by decide) (by decide))

theorem Sys2Proof.Laws.Encode.viaVmul (o : OpVt) : Encode.Statement (.viaVmul o) := by
  intro h
  have e : decodeRow (encode (.viaVmul o)) = .ok ⟨.viaVmul o, 0xC8000200, 0x00000038, 0x00000000, 0x00000000⟩ := by
    rw [encode, decodeRow_Via]
    · simp (disch := decide) only [decodeVia, fixed_of_or (mask_OpVt o), read_OpVt o]
      try rfl
    · rw [fixed_of_or (mask_OpVt o) (by decide)]; decide
  exact decode_of_row e h (reserved_of_or (mask_OpVt o) (by decide) (by decide)) (reserved_of_or (mask_OpVt o) (by decide) (by decide))
    (reserved_of_or (mask_OpVt o) (by decide) (by decide))

theorem Sys2Proof.Laws.Encode.vmad (o : OpVt) : Encode.Statement (.vmad o) := by
  intro h
  have e : decodeRow (encode (.vmad o)) = .ok ⟨.vmad o, 0xC8000300, 0x00000038, 0x00000000, 0x00000000⟩ := by
    rw [encode, decodeRow_Via]
    · simp (disch := decide) only [decodeVia, fixed_of_or (mask_OpVt o), read_OpVt o]
      try rfl
    · rw [fixed_of_or (mask_OpVt o) (by decide)]; decide
  exact decode_of_row e h (reserved_of_or (mask_OpVt o) (by decide) (by decide)) (reserved_of_or (mask_OpVt o) (by decide) (by decide))
    (reserved_of_or (mask_OpVt o) (by decide) (by decide))

theorem Sys2Proof.Laws.Encode.viaVmin (o : OpV) : Encode.Statement (.viaVmin o) := by
  intro h
  have e : decodeRow (encode (.viaVmin o)) = .ok ⟨.viaVmin o, 0xC8000400, 0x00000000, 0x00000000, 0x00000000⟩ := by
    rw [encode, decodeRow_Via]
    · simp (disch := decide) only [decodeVia, fixed_of_or (mask_OpV o), read_OpV o]
      try rfl
    · rw [fixed_of_or (mask_OpV o) (by decide)]; decide
  exact decode_of_row e h (reserved_of_or (mask_OpV o) (by decide) (by decide)) (reserved_of_or (mask_OpV o) (by decide) (by decide))
    (reserved_of_or (mask_OpV o) (by decide) (by decide))

theorem Sys2Proof.Laws.Encode.viaVmax (o : OpV) : Encode.Statement (.viaVmax o) := by
  intro h
  have e : decodeRow (encode (.viaVmax o)) = .ok ⟨.viaVmax o, 0xC8000500, 0x00000000, 0x00000000, 0x00000000⟩ := by
    rw [encode, decodeRow_Via]
    · simp (disch := decide) only [decodeVia, fixed_of_or (mask_OpV o), read_OpV o]
      try rfl
    · rw [fixed_of_or (mask_OpV o) (by decide)]; decide
  exact decode_of_row e h (reserved_of_or (mask_OpV o) (by decide) (by decide)) (reserved_of_or (mask_OpV o) (by decide) (by decide))
    (reserved_of_or (mask_OpV o) (by decide) (by decide))

theorem Sys2Proof.Laws.Encode.vadds (o : OpV) : Encode.Statement (.vadds o) := by
  intro h
  have e : decodeRow (encode (.vadds o)) = .ok ⟨.vadds o, 0xC8000600, 0x00000000, 0x00000000, 0x00000000⟩ := by
    rw [encode, decodeRow_Via]
    · simp (disch := decide) only [decodeVia, fixed_of_or (mask_OpV o), read_OpV o]
      try rfl
    · rw [fixed_of_or (mask_OpV o) (by decide)]; decide
  exact decode_of_row e h (reserved_of_or (mask_OpV o) (by decide) (by decide)) (reserved_of_or (mask_OpV o) (by decide) (by decide))
    (reserved_of_or (mask_OpV o) (by decide) (by decide))

theorem Sys2Proof.Laws.Encode.vshl (o : OpVt) : Encode.Statement (.vshl o) := by
  intro h
  have e : decodeRow (encode (.vshl o)) = .ok ⟨.vshl o, 0xC8000700, 0x00000038, 0x00000000, 0x00000000⟩ := by
    rw [encode, decodeRow_Via]
    · simp (disch := decide) only [decodeVia, fixed_of_or (mask_OpVt o), read_OpVt o]
      try rfl
    · rw [fixed_of_or (mask_OpVt o) (by decide)]; decide
  exact decode_of_row e h (reserved_of_or (mask_OpVt o) (by decide) (by decide)) (reserved_of_or (mask_OpVt o) (by decide) (by decide))
    (reserved_of_or (mask_OpVt o) (by decide) (by decide))

theorem Sys2Proof.Laws.Encode.vcmpEq (o : OpVcmp) : Encode.Statement (.vcmpEq o) := by
  intro h
  have e : decodeRow (encode (.vcmpEq o)) = .ok ⟨.vcmpEq o, 0xCC000000, 0x00000000, 0x00000000, 0x00000000⟩ := by
    rw [encode, decodeRow_Vcmp]
    · simp (disch := decide) only [decodeVcmp, fixed_of_or (mask_OpVcmp o), read_OpVcmp o]
      try rfl
    · rw [fixed_of_or (mask_OpVcmp o) (by decide)]; decide
  exact decode_of_row e h (reserved_of_or (mask_OpVcmp o) (by decide) (by decide)) (reserved_of_or (mask_OpVcmp o) (by decide) (by decide))
    (reserved_of_or (mask_OpVcmp o) (by decide) (by decide))

theorem Sys2Proof.Laws.Encode.vcmpNe (o : OpVcmp) : Encode.Statement (.vcmpNe o) := by
  intro h
  have e : decodeRow (encode (.vcmpNe o)) = .ok ⟨.vcmpNe o, 0xCC000100, 0x00000000, 0x00000000, 0x00000000⟩ := by
    rw [encode, decodeRow_Vcmp]
    · simp (disch := decide) only [decodeVcmp, fixed_of_or (mask_OpVcmp o), read_OpVcmp o]
      try rfl
    · rw [fixed_of_or (mask_OpVcmp o) (by decide)]; decide
  exact decode_of_row e h (reserved_of_or (mask_OpVcmp o) (by decide) (by decide)) (reserved_of_or (mask_OpVcmp o) (by decide) (by decide))
    (reserved_of_or (mask_OpVcmp o) (by decide) (by decide))

theorem Sys2Proof.Laws.Encode.vcmpLt (o : OpVcmp) : Encode.Statement (.vcmpLt o) := by
  intro h
  have e : decodeRow (encode (.vcmpLt o)) = .ok ⟨.vcmpLt o, 0xCC000200, 0x00000000, 0x00000000, 0x00000000⟩ := by
    rw [encode, decodeRow_Vcmp]
    · simp (disch := decide) only [decodeVcmp, fixed_of_or (mask_OpVcmp o), read_OpVcmp o]
      try rfl
    · rw [fixed_of_or (mask_OpVcmp o) (by decide)]; decide
  exact decode_of_row e h (reserved_of_or (mask_OpVcmp o) (by decide) (by decide)) (reserved_of_or (mask_OpVcmp o) (by decide) (by decide))
    (reserved_of_or (mask_OpVcmp o) (by decide) (by decide))

theorem Sys2Proof.Laws.Encode.vcmpLe (o : OpVcmp) : Encode.Statement (.vcmpLe o) := by
  intro h
  have e : decodeRow (encode (.vcmpLe o)) = .ok ⟨.vcmpLe o, 0xCC000300, 0x00000000, 0x00000000, 0x00000000⟩ := by
    rw [encode, decodeRow_Vcmp]
    · simp (disch := decide) only [decodeVcmp, fixed_of_or (mask_OpVcmp o), read_OpVcmp o]
      try rfl
    · rw [fixed_of_or (mask_OpVcmp o) (by decide)]; decide
  exact decode_of_row e h (reserved_of_or (mask_OpVcmp o) (by decide) (by decide)) (reserved_of_or (mask_OpVcmp o) (by decide) (by decide))
    (reserved_of_or (mask_OpVcmp o) (by decide) (by decide))

theorem Sys2Proof.Laws.Encode.vcmpGt (o : OpVcmp) : Encode.Statement (.vcmpGt o) := by
  intro h
  have e : decodeRow (encode (.vcmpGt o)) = .ok ⟨.vcmpGt o, 0xCC000400, 0x00000000, 0x00000000, 0x00000000⟩ := by
    rw [encode, decodeRow_Vcmp]
    · simp (disch := decide) only [decodeVcmp, fixed_of_or (mask_OpVcmp o), read_OpVcmp o]
      try rfl
    · rw [fixed_of_or (mask_OpVcmp o) (by decide)]; decide
  exact decode_of_row e h (reserved_of_or (mask_OpVcmp o) (by decide) (by decide)) (reserved_of_or (mask_OpVcmp o) (by decide) (by decide))
    (reserved_of_or (mask_OpVcmp o) (by decide) (by decide))

theorem Sys2Proof.Laws.Encode.vcmpGe (o : OpVcmp) : Encode.Statement (.vcmpGe o) := by
  intro h
  have e : decodeRow (encode (.vcmpGe o)) = .ok ⟨.vcmpGe o, 0xCC000500, 0x00000000, 0x00000000, 0x00000000⟩ := by
    rw [encode, decodeRow_Vcmp]
    · simp (disch := decide) only [decodeVcmp, fixed_of_or (mask_OpVcmp o), read_OpVcmp o]
      try rfl
    · rw [fixed_of_or (mask_OpVcmp o) (by decide)]; decide
  exact decode_of_row e h (reserved_of_or (mask_OpVcmp o) (by decide) (by decide)) (reserved_of_or (mask_OpVcmp o) (by decide) (by decide))
    (reserved_of_or (mask_OpVcmp o) (by decide) (by decide))

theorem Sys2Proof.Laws.Encode.vcmpUnord (o : OpVcmpU) : Encode.Statement (.vcmpUnord o) := by
  intro h
  have e : decodeRow (encode (.vcmpUnord o)) = .ok ⟨.vcmpUnord o, 0xCC000600, 0x00000038, 0x00000000, 0x00000000⟩ := by
    rw [encode, decodeRow_Vcmp]
    · simp (disch := decide) only [decodeVcmp, fixed_of_or (mask_OpVcmpU o), read_OpVcmpU o]
      try rfl
    · rw [fixed_of_or (mask_OpVcmpU o) (by decide)]; decide
  exact decode_of_row e h (reserved_of_or (mask_OpVcmpU o) (by decide) (by decide)) (reserved_of_or (mask_OpVcmpU o) (by decide) (by decide))
    (reserved_of_or (mask_OpVcmpU o) (by decide) (by decide))

theorem Sys2Proof.Laws.Encode.vredadd (o : OpVredadd) : Encode.Statement (.vredadd o) := by
  intro h
  have e : decodeRow (encode (.vredadd o)) = .ok ⟨.vredadd o, 0xD0000000, 0x00000000, 0x00000000, 0x000000C0⟩ := by
    rw [encode, decodeRow_Vxs]
    · simp (disch := decide) only [decodeVxs, fixed_of_or (mask_OpVredadd o), read_OpVredadd o]
      try rfl
    · rw [fixed_of_or (mask_OpVredadd o) (by decide)]; decide
  exact decode_of_row e h (reserved_of_or (mask_OpVredadd o) (by decide) (by decide)) (reserved_of_or (mask_OpVredadd o) (by decide) (by decide))
    (reserved_of_or (mask_OpVredadd o) (by decide) (by decide))

theorem Sys2Proof.Laws.Encode.vredmax (o : OpVred) : Encode.Statement (.vredmax o) := by
  intro h
  have e : decodeRow (encode (.vredmax o)) = .ok ⟨.vredmax o, 0xD0000100, 0x00000000, 0x00000000, 0x000000F8⟩ := by
    rw [encode, decodeRow_Vxs]
    · simp (disch := decide) only [decodeVxs, fixed_of_or (mask_OpVred o), read_OpVred o]
      try rfl
    · rw [fixed_of_or (mask_OpVred o) (by decide)]; decide
  exact decode_of_row e h (reserved_of_or (mask_OpVred o) (by decide) (by decide)) (reserved_of_or (mask_OpVred o) (by decide) (by decide))
    (reserved_of_or (mask_OpVred o) (by decide) (by decide))

theorem Sys2Proof.Laws.Encode.vredmin (o : OpVred) : Encode.Statement (.vredmin o) := by
  intro h
  have e : decodeRow (encode (.vredmin o)) = .ok ⟨.vredmin o, 0xD0000200, 0x00000000, 0x00000000, 0x000000F8⟩ := by
    rw [encode, decodeRow_Vxs]
    · simp (disch := decide) only [decodeVxs, fixed_of_or (mask_OpVred o), read_OpVred o]
      try rfl
    · rw [fixed_of_or (mask_OpVred o) (by decide)]; decide
  exact decode_of_row e h (reserved_of_or (mask_OpVred o) (by decide) (by decide)) (reserved_of_or (mask_OpVred o) (by decide) (by decide))
    (reserved_of_or (mask_OpVred o) (by decide) (by decide))

theorem Sys2Proof.Laws.Encode.vext (o : OpVidx) : Encode.Statement (.vext o) := by
  intro h
  have e : decodeRow (encode (.vext o)) = .ok ⟨.vext o, 0xD0000300, 0x00000000, 0x00000000, 0x0000C000⟩ := by
    rw [encode, decodeRow_Vxs]
    · simp (disch := decide) only [decodeVxs, fixed_of_or (mask_OpVidx o), read_OpVidx o]
      try rfl
    · rw [fixed_of_or (mask_OpVidx o) (by decide)]; decide
  exact decode_of_row e h (reserved_of_or (mask_OpVidx o) (by decide) (by decide)) (reserved_of_or (mask_OpVidx o) (by decide) (by decide))
    (reserved_of_or (mask_OpVidx o) (by decide) (by decide))

theorem Sys2Proof.Laws.Encode.vins (o : OpVidx) : Encode.Statement (.vins o) := by
  intro h
  have e : decodeRow (encode (.vins o)) = .ok ⟨.vins o, 0xD0000400, 0x00000000, 0x00000000, 0x0000C000⟩ := by
    rw [encode, decodeRow_Vxs]
    · simp (disch := decide) only [decodeVxs, fixed_of_or (mask_OpVidx o), read_OpVidx o]
      try rfl
    · rw [fixed_of_or (mask_OpVidx o) (by decide)]; decide
  exact decode_of_row e h (reserved_of_or (mask_OpVidx o) (by decide) (by decide)) (reserved_of_or (mask_OpVidx o) (by decide) (by decide))
    (reserved_of_or (mask_OpVidx o) (by decide) (by decide))

theorem Sys2Proof.Laws.Encode.vbcst (o : OpVred) : Encode.Statement (.vbcst o) := by
  intro h
  have e : decodeRow (encode (.vbcst o)) = .ok ⟨.vbcst o, 0xD0000500, 0x00000000, 0x00000000, 0x000000F8⟩ := by
    rw [encode, decodeRow_Vxs]
    · simp (disch := decide) only [decodeVxs, fixed_of_or (mask_OpVred o), read_OpVred o]
      try rfl
    · rw [fixed_of_or (mask_OpVred o) (by decide)]; decide
  exact decode_of_row e h (reserved_of_or (mask_OpVred o) (by decide) (by decide)) (reserved_of_or (mask_OpVred o) (by decide) (by decide))
    (reserved_of_or (mask_OpVred o) (by decide) (by decide))

theorem Sys2Proof.Laws.Encode.vdot8 (o : OpVdot) : Encode.Statement (.vdot8 o) := by
  intro h
  have e : decodeRow (encode (.vdot8 o)) = .ok ⟨.vdot8 o, 0xD0000600, 0x00003800, 0x00000000, 0x000000F8⟩ := by
    rw [encode, decodeRow_Vxs]
    · simp (disch := decide) only [decodeVxs, fixed_of_or (mask_OpVdot o), read_OpVdot o]
      try rfl
    · rw [fixed_of_or (mask_OpVdot o) (by decide)]; decide
  exact decode_of_row e h (reserved_of_or (mask_OpVdot o) (by decide) (by decide)) (reserved_of_or (mask_OpVdot o) (by decide) (by decide))
    (reserved_of_or (mask_OpVdot o) (by decide) (by decide))

theorem Sys2Proof.Laws.Encode.vpopk (o : OpVpopk) : Encode.Statement (.vpopk o) := by
  intro h
  have e : decodeRow (encode (.vpopk o)) = .ok ⟨.vpopk o, 0xD0000700, 0x00000000, 0x00000000, 0x000F00F8⟩ := by
    rw [encode, decodeRow_Vxs]
    · simp (disch := decide) only [decodeVxs, fixed_of_or (mask_OpVpopk o), read_OpVpopk o]
      try rfl
    · rw [fixed_of_or (mask_OpVpopk o) (by decide)]; decide
  exact decode_of_row e h (reserved_of_or (mask_OpVpopk o) (by decide) (by decide)) (reserved_of_or (mask_OpVpopk o) (by decide) (by decide))
    (reserved_of_or (mask_OpVpopk o) (by decide) (by decide))

theorem Sys2Proof.Laws.Encode.vsel (o : OpVlog) : Encode.Statement (.vsel o) := by
  intro h
  have e : decodeRow (encode (.vsel o)) = .ok ⟨.vsel o, 0xD4001000, 0x00003838, 0x00000000, 0x00000000⟩ := by
    rw [encode, decodeRow_Vprm]
    · simp (disch := decide) only [decodeVprm, fixed_of_or (mask_OpVlog o), read_OpVlog o]
      try rfl
    · rw [fixed_of_or (mask_OpVlog o) (by decide)]; decide
  exact decode_of_row e h (reserved_of_or (mask_OpVlog o) (by decide) (by decide)) (reserved_of_or (mask_OpVlog o) (by decide) (by decide))
    (reserved_of_or (mask_OpVlog o) (by decide) (by decide))

theorem Sys2Proof.Laws.Encode.vshuf (o : OpVt) : Encode.Statement (.vshuf o) := by
  intro h
  have e : decodeRow (encode (.vshuf o)) = .ok ⟨.vshuf o, 0xD4000100, 0x00000038, 0x00000000, 0x00000000⟩ := by
    rw [encode, decodeRow_Vprm]
    · simp (disch := decide) only [decodeVprm, fixed_of_or (mask_OpVt o), read_OpVt o]
      try rfl
    · rw [fixed_of_or (mask_OpVt o) (by decide)]; decide
  exact decode_of_row e h (reserved_of_or (mask_OpVt o) (by decide) (by decide)) (reserved_of_or (mask_OpVt o) (by decide) (by decide))
    (reserved_of_or (mask_OpVt o) (by decide) (by decide))

theorem Sys2Proof.Laws.Encode.vzip (o : OpV) : Encode.Statement (.vzip o) := by
  intro h
  have e : decodeRow (encode (.vzip o)) = .ok ⟨.vzip o, 0xD4000200, 0x00000000, 0x00000000, 0x00000000⟩ := by
    rw [encode, decodeRow_Vprm]
    · simp (disch := decide) only [decodeVprm, fixed_of_or (mask_OpV o), read_OpV o]
      try rfl
    · rw [fixed_of_or (mask_OpV o) (by decide)]; decide
  exact decode_of_row e h (reserved_of_or (mask_OpV o) (by decide) (by decide)) (reserved_of_or (mask_OpV o) (by decide) (by decide))
    (reserved_of_or (mask_OpV o) (by decide) (by decide))

theorem Sys2Proof.Laws.Encode.vunzip (o : OpV) : Encode.Statement (.vunzip o) := by
  intro h
  have e : decodeRow (encode (.vunzip o)) = .ok ⟨.vunzip o, 0xD4000300, 0x00000000, 0x00000000, 0x00000000⟩ := by
    rw [encode, decodeRow_Vprm]
    · simp (disch := decide) only [decodeVprm, fixed_of_or (mask_OpV o), read_OpV o]
      try rfl
    · rw [fixed_of_or (mask_OpV o) (by decide)]; decide
  exact decode_of_row e h (reserved_of_or (mask_OpV o) (by decide) (by decide)) (reserved_of_or (mask_OpV o) (by decide) (by decide))
    (reserved_of_or (mask_OpV o) (by decide) (by decide))

theorem Sys2Proof.Laws.Encode.vand (o : OpVlog) : Encode.Statement (.vand o) := by
  intro h
  have e : decodeRow (encode (.vand o)) = .ok ⟨.vand o, 0xD4001400, 0x00003838, 0x00000000, 0x00000000⟩ := by
    rw [encode, decodeRow_Vprm]
    · simp (disch := decide) only [decodeVprm, fixed_of_or (mask_OpVlog o), read_OpVlog o]
      try rfl
    · rw [fixed_of_or (mask_OpVlog o) (by decide)]; decide
  exact decode_of_row e h (reserved_of_or (mask_OpVlog o) (by decide) (by decide)) (reserved_of_or (mask_OpVlog o) (by decide) (by decide))
    (reserved_of_or (mask_OpVlog o) (by decide) (by decide))

theorem Sys2Proof.Laws.Encode.vor (o : OpVlog) : Encode.Statement (.vor o) := by
  intro h
  have e : decodeRow (encode (.vor o)) = .ok ⟨.vor o, 0xD4001500, 0x00003838, 0x00000000, 0x00000000⟩ := by
    rw [encode, decodeRow_Vprm]
    · simp (disch := decide) only [decodeVprm, fixed_of_or (mask_OpVlog o), read_OpVlog o]
      try rfl
    · rw [fixed_of_or (mask_OpVlog o) (by decide)]; decide
  exact decode_of_row e h (reserved_of_or (mask_OpVlog o) (by decide) (by decide)) (reserved_of_or (mask_OpVlog o) (by decide) (by decide))
    (reserved_of_or (mask_OpVlog o) (by decide) (by decide))

theorem Sys2Proof.Laws.Encode.vxor (o : OpVlog) : Encode.Statement (.vxor o) := by
  intro h
  have e : decodeRow (encode (.vxor o)) = .ok ⟨.vxor o, 0xD4001600, 0x00003838, 0x00000000, 0x00000000⟩ := by
    rw [encode, decodeRow_Vprm]
    · simp (disch := decide) only [decodeVprm, fixed_of_or (mask_OpVlog o), read_OpVlog o]
      try rfl
    · rw [fixed_of_or (mask_OpVlog o) (by decide)]; decide
  exact decode_of_row e h (reserved_of_or (mask_OpVlog o) (by decide) (by decide)) (reserved_of_or (mask_OpVlog o) (by decide) (by decide))
    (reserved_of_or (mask_OpVlog o) (by decide) (by decide))

theorem Sys2Proof.Laws.Encode.vshr (o : OpV) : Encode.Statement (.vshr o) := by
  intro h
  have e : decodeRow (encode (.vshr o)) = .ok ⟨.vshr o, 0xD4000700, 0x00000000, 0x00000000, 0x00000000⟩ := by
    rw [encode, decodeRow_Vprm]
    · simp (disch := decide) only [decodeVprm, fixed_of_or (mask_OpV o), read_OpV o]
      try rfl
    · rw [fixed_of_or (mask_OpV o) (by decide)]; decide
  exact decode_of_row e h (reserved_of_or (mask_OpV o) (by decide) (by decide)) (reserved_of_or (mask_OpV o) (by decide) (by decide))
    (reserved_of_or (mask_OpV o) (by decide) (by decide))

theorem Sys2Proof.Laws.Encode.cvt (o : OpVcvt) : Encode.Statement (.cvt o) := by
  intro h
  have e : decodeRow (encode (.cvt o)) = .ok ⟨.cvt o, 0xD8000000, 0x00000000, 0x00000000, 0x0003C000⟩ := by
    rw [encode, decodeRow_Vcvt]
    · simp (disch := decide) only [decodeVcvt, fixed_of_or (mask_OpVcvt o), read_OpVcvt o]
      try rfl
    · rw [fixed_of_or (mask_OpVcvt o) (by decide)]; decide
  exact decode_of_row e h (reserved_of_or (mask_OpVcvt o) (by decide) (by decide)) (reserved_of_or (mask_OpVcvt o) (by decide) (by decide))
    (reserved_of_or (mask_OpVcvt o) (by decide) (by decide))

theorem Sys2Proof.Laws.Encode.qblk (o : OpQblk) : Encode.Statement (.qblk o) := by
  intro h
  have e : decodeRow (encode (.qblk o)) = .ok ⟨.qblk o, 0xD8000100, 0x00000020, 0x00000000, 0x0003C0C0⟩ := by
    rw [encode, decodeRow_Vcvt]
    · simp (disch := decide) only [decodeVcvt, fixed_of_or (mask_OpQblk o), read_OpQblk o]
      try rfl
    · rw [fixed_of_or (mask_OpQblk o) (by decide)]; decide
  exact decode_of_row e h (reserved_of_or (mask_OpQblk o) (by decide) (by decide)) (reserved_of_or (mask_OpQblk o) (by decide) (by decide))
    (reserved_of_or (mask_OpQblk o) (by decide) (by decide))

theorem Sys2Proof.Laws.Encode.dqblk (o : OpDqblk) : Encode.Statement (.dqblk o) := by
  intro h
  have e : decodeRow (encode (.dqblk o)) = .ok ⟨.dqblk o, 0xD8000200, 0x00000038, 0x00000000, 0x0003C0C0⟩ := by
    rw [encode, decodeRow_Vcvt]
    · simp (disch := decide) only [decodeVcvt, fixed_of_or (mask_OpDqblk o), read_OpDqblk o]
      try rfl
    · rw [fixed_of_or (mask_OpDqblk o) (by decide)]; decide
  exact decode_of_row e h (reserved_of_or (mask_OpDqblk o) (by decide) (by decide)) (reserved_of_or (mask_OpDqblk o) (by decide) (by decide))
    (reserved_of_or (mask_OpDqblk o) (by decide) (by decide))

theorem Sys2Proof.Laws.Encode.vrnd (o : OpVcvt) : Encode.Statement (.vrnd o) := by
  intro h
  have e : decodeRow (encode (.vrnd o)) = .ok ⟨.vrnd o, 0xD8000300, 0x00000000, 0x00000000, 0x0003C000⟩ := by
    rw [encode, decodeRow_Vcvt]
    · simp (disch := decide) only [decodeVcvt, fixed_of_or (mask_OpVcvt o), read_OpVcvt o]
      try rfl
    · rw [fixed_of_or (mask_OpVcvt o) (by decide)]; decide
  exact decode_of_row e h (reserved_of_or (mask_OpVcvt o) (by decide) (by decide)) (reserved_of_or (mask_OpVcvt o) (by decide) (by decide))
    (reserved_of_or (mask_OpVcvt o) (by decide) (by decide))

theorem Sys2Proof.Laws.Encode.vrcp (o : OpVcvt) : Encode.Statement (.vrcp o) := by
  intro h
  have e : decodeRow (encode (.vrcp o)) = .ok ⟨.vrcp o, 0xDC000000, 0x00000000, 0x00000000, 0x0003C000⟩ := by
    rw [encode, decodeRow_Vsfu]
    · simp (disch := decide) only [decodeVsfu, fixed_of_or (mask_OpVcvt o), read_OpVcvt o]
      try rfl
    · rw [fixed_of_or (mask_OpVcvt o) (by decide)]; decide
  exact decode_of_row e h (reserved_of_or (mask_OpVcvt o) (by decide) (by decide)) (reserved_of_or (mask_OpVcvt o) (by decide) (by decide))
    (reserved_of_or (mask_OpVcvt o) (by decide) (by decide))

theorem Sys2Proof.Laws.Encode.vrsq (o : OpVcvt) : Encode.Statement (.vrsq o) := by
  intro h
  have e : decodeRow (encode (.vrsq o)) = .ok ⟨.vrsq o, 0xDC000100, 0x00000000, 0x00000000, 0x0003C000⟩ := by
    rw [encode, decodeRow_Vsfu]
    · simp (disch := decide) only [decodeVsfu, fixed_of_or (mask_OpVcvt o), read_OpVcvt o]
      try rfl
    · rw [fixed_of_or (mask_OpVcvt o) (by decide)]; decide
  exact decode_of_row e h (reserved_of_or (mask_OpVcvt o) (by decide) (by decide)) (reserved_of_or (mask_OpVcvt o) (by decide) (by decide))
    (reserved_of_or (mask_OpVcvt o) (by decide) (by decide))

theorem Sys2Proof.Laws.Encode.vex2 (o : OpVcvt) : Encode.Statement (.vex2 o) := by
  intro h
  have e : decodeRow (encode (.vex2 o)) = .ok ⟨.vex2 o, 0xDC000200, 0x00000000, 0x00000000, 0x0003C000⟩ := by
    rw [encode, decodeRow_Vsfu]
    · simp (disch := decide) only [decodeVsfu, fixed_of_or (mask_OpVcvt o), read_OpVcvt o]
      try rfl
    · rw [fixed_of_or (mask_OpVcvt o) (by decide)]; decide
  exact decode_of_row e h (reserved_of_or (mask_OpVcvt o) (by decide) (by decide)) (reserved_of_or (mask_OpVcvt o) (by decide) (by decide))
    (reserved_of_or (mask_OpVcvt o) (by decide) (by decide))

theorem Sys2Proof.Laws.Encode.vlg2 (o : OpVcvt) : Encode.Statement (.vlg2 o) := by
  intro h
  have e : decodeRow (encode (.vlg2 o)) = .ok ⟨.vlg2 o, 0xDC000300, 0x00000000, 0x00000000, 0x0003C000⟩ := by
    rw [encode, decodeRow_Vsfu]
    · simp (disch := decide) only [decodeVsfu, fixed_of_or (mask_OpVcvt o), read_OpVcvt o]
      try rfl
    · rw [fixed_of_or (mask_OpVcvt o) (by decide)]; decide
  exact decode_of_row e h (reserved_of_or (mask_OpVcvt o) (by decide) (by decide)) (reserved_of_or (mask_OpVcvt o) (by decide) (by decide))
    (reserved_of_or (mask_OpVcvt o) (by decide) (by decide))

theorem Sys2Proof.Laws.Encode.vsqrt (o : OpVcvt) : Encode.Statement (.vsqrt o) := by
  intro h
  have e : decodeRow (encode (.vsqrt o)) = .ok ⟨.vsqrt o, 0xDC000400, 0x00000000, 0x00000000, 0x0003C000⟩ := by
    rw [encode, decodeRow_Vsfu]
    · simp (disch := decide) only [decodeVsfu, fixed_of_or (mask_OpVcvt o), read_OpVcvt o]
      try rfl
    · rw [fixed_of_or (mask_OpVcvt o) (by decide)]; decide
  exact decode_of_row e h (reserved_of_or (mask_OpVcvt o) (by decide) (by decide)) (reserved_of_or (mask_OpVcvt o) (by decide) (by decide))
    (reserved_of_or (mask_OpVcvt o) (by decide) (by decide))

theorem Sys2Proof.Laws.Encode.mldw (o : OpMx) : Encode.Statement (.mldw o) := by
  intro h
  have e : decodeRow (encode (.mldw o)) = .ok ⟨.mldw o, 0xE0000000, 0x00000000, 0x00000000, 0x00000000⟩ := by
    rw [encode, decodeRow_Mx]
    · simp (disch := decide) only [decodeMx, fixed_of_or (mask_OpMx o), read_OpMx o]
      try rfl
    · rw [fixed_of_or (mask_OpMx o) (by decide)]; decide
  exact decode_of_row e h (reserved_of_or (mask_OpMx o) (by decide) (by decide)) (reserved_of_or (mask_OpMx o) (by decide) (by decide))
    (reserved_of_or (mask_OpMx o) (by decide) (by decide))

theorem Sys2Proof.Laws.Encode.mma (o : OpMx) : Encode.Statement (.mma o) := by
  intro h
  have e : decodeRow (encode (.mma o)) = .ok ⟨.mma o, 0xE0000400, 0x00000000, 0x00000000, 0x00000000⟩ := by
    rw [encode, decodeRow_Mx]
    · simp (disch := decide) only [decodeMx, fixed_of_or (mask_OpMx o), read_OpMx o]
      try rfl
    · rw [fixed_of_or (mask_OpMx o) (by decide)]; decide
  exact decode_of_row e h (reserved_of_or (mask_OpMx o) (by decide) (by decide)) (reserved_of_or (mask_OpMx o) (by decide) (by decide))
    (reserved_of_or (mask_OpMx o) (by decide) (by decide))

theorem Sys2Proof.Laws.Encode.mmaz (o : OpMx) : Encode.Statement (.mmaz o) := by
  intro h
  have e : decodeRow (encode (.mmaz o)) = .ok ⟨.mmaz o, 0xE0000800, 0x00000000, 0x00000000, 0x00000000⟩ := by
    rw [encode, decodeRow_Mx]
    · simp (disch := decide) only [decodeMx, fixed_of_or (mask_OpMx o), read_OpMx o]
      try rfl
    · rw [fixed_of_or (mask_OpMx o) (by decide)]; decide
  exact decode_of_row e h (reserved_of_or (mask_OpMx o) (by decide) (by decide)) (reserved_of_or (mask_OpMx o) (by decide) (by decide))
    (reserved_of_or (mask_OpMx o) (by decide) (by decide))

theorem Sys2Proof.Laws.Encode.mst (o : OpMst) : Encode.Statement (.mst o) := by
  intro h
  have e : decodeRow (encode (.mst o)) = .ok ⟨.mst o, 0xE0000C00, 0x00000000, 0x00000000, 0x00F003F0⟩ := by
    rw [encode, decodeRow_Mx]
    · simp (disch := decide) only [decodeMx, fixed_of_or (mask_OpMst o), read_OpMst o]
      try rfl
    · rw [fixed_of_or (mask_OpMst o) (by decide)]; decide
  exact decode_of_row e h (reserved_of_or (mask_OpMst o) (by decide) (by decide)) (reserved_of_or (mask_OpMst o) (by decide) (by decide))
    (reserved_of_or (mask_OpMst o) (by decide) (by decide))

theorem Sys2Proof.Laws.Encode.mhint (o : OpMhint) : Encode.Statement (.mhint o) := by
  intro h
  have e : decodeRow (encode (.mhint o)) = .ok ⟨.mhint o, 0xE0001000, 0x00000000, 0x00000000, 0x03FFC000⟩ := by
    rw [encode, decodeRow_Mx]
    · simp (disch := decide) only [decodeMx, fixed_of_or (mask_OpMhint o), read_OpMhint o]
      try rfl
    · rw [fixed_of_or (mask_OpMhint o) (by decide)]; decide
  exact decode_of_row e h (reserved_of_or (mask_OpMhint o) (by decide) (by decide)) (reserved_of_or (mask_OpMhint o) (by decide) (by decide))
    (reserved_of_or (mask_OpMhint o) (by decide) (by decide))

theorem Sys2Proof.Laws.Encode.mfmt (o : OpMfmt) : Encode.Statement (.mfmt o) := by
  intro h
  have e : decodeRow (encode (.mfmt o)) = .ok ⟨.mfmt o, 0xE0001400, 0x00000000, 0x00000000, 0x03C003F8⟩ := by
    rw [encode, decodeRow_Mx]
    · simp (disch := decide) only [decodeMx, fixed_of_or (mask_OpMfmt o), read_OpMfmt o]
      try rfl
    · rw [fixed_of_or (mask_OpMfmt o) (by decide)]; decide
  exact decode_of_row e h (reserved_of_or (mask_OpMfmt o) (by decide) (by decide)) (reserved_of_or (mask_OpMfmt o) (by decide) (by decide))
    (reserved_of_or (mask_OpMfmt o) (by decide) (by decide))

theorem Sys2Proof.Laws.Encode.mrd (o : OpMrd) : Encode.Statement (.mrd o) := by
  intro h
  have e : decodeRow (encode (.mrd o)) = .ok ⟨.mrd o, 0xE0001800, 0x00000000, 0x00000000, 0x000FC380⟩ := by
    rw [encode, decodeRow_Mx]
    · simp (disch := decide) only [decodeMx, fixed_of_or (mask_OpMrd o), read_OpMrd o]
      try rfl
    · rw [fixed_of_or (mask_OpMrd o) (by decide)]; decide
  exact decode_of_row e h (reserved_of_or (mask_OpMrd o) (by decide) (by decide)) (reserved_of_or (mask_OpMrd o) (by decide) (by decide))
    (reserved_of_or (mask_OpMrd o) (by decide) (by decide))

theorem Sys2Proof.Laws.Encode.eset (o : OpEset) : Encode.Statement (.eset o) := by
  intro h
  have e : decodeRow (encode (.eset o)) = .ok ⟨.eset o, 0xE8000000, 0x00000000, 0x00000000, 0x03F00000⟩ := by
    rw [encode, decodeRow_Eng]
    · simp (disch := decide) only [decodeEng, fixed_of_or (mask_OpEset o), read_OpEset o]
      try rfl
    · rw [fixed_of_or (mask_OpEset o) (by decide)]; decide
  exact decode_of_row e h (reserved_of_or (mask_OpEset o) (by decide) (by decide)) (reserved_of_or (mask_OpEset o) (by decide) (by decide))
    (reserved_of_or (mask_OpEset o) (by decide) (by decide))

theorem Sys2Proof.Laws.Encode.ego (o : OpEng) : Encode.Statement (.ego o) := by
  intro h
  have e : decodeRow (encode (.ego o)) = .ok ⟨.ego o, 0xE8000400, 0x00000000, 0x00000000, 0x03FFC0F8⟩ := by
    rw [encode, decodeRow_Eng]
    · simp (disch := decide) only [decodeEng, fixed_of_or (mask_OpEng o), read_OpEng o]
      try rfl
    · rw [fixed_of_or (mask_OpEng o) (by decide)]; decide
  exact decode_of_row e h (reserved_of_or (mask_OpEng o) (by decide) (by decide)) (reserved_of_or (mask_OpEng o) (by decide) (by decide))
    (reserved_of_or (mask_OpEng o) (by decide) (by decide))

theorem Sys2Proof.Laws.Encode.estat (o : OpEstat) : Encode.Statement (.estat o) := by
  intro h
  have e : decodeRow (encode (.estat o)) = .ok ⟨.estat o, 0xE8000800, 0x00000000, 0x00000000, 0x000FC0F8⟩ := by
    rw [encode, decodeRow_Eng]
    · simp (disch := decide) only [decodeEng, fixed_of_or (mask_OpEstat o), read_OpEstat o]
      try rfl
    · rw [fixed_of_or (mask_OpEstat o) (by decide)]; decide
  exact decode_of_row e h (reserved_of_or (mask_OpEstat o) (by decide) (by decide)) (reserved_of_or (mask_OpEstat o) (by decide) (by decide))
    (reserved_of_or (mask_OpEstat o) (by decide) (by decide))

theorem Sys2Proof.Laws.Encode.ecan (o : OpEng) : Encode.Statement (.ecan o) := by
  intro h
  have e : decodeRow (encode (.ecan o)) = .ok ⟨.ecan o, 0xE8000C00, 0x00000000, 0x00000000, 0x03FFC0F8⟩ := by
    rw [encode, decodeRow_Eng]
    · simp (disch := decide) only [decodeEng, fixed_of_or (mask_OpEng o), read_OpEng o]
      try rfl
    · rw [fixed_of_or (mask_OpEng o) (by decide)]; decide
  exact decode_of_row e h (reserved_of_or (mask_OpEng o) (by decide) (by decide)) (reserved_of_or (mask_OpEng o) (by decide) (by decide))
    (reserved_of_or (mask_OpEng o) (by decide) (by decide))

theorem Sys2Proof.Laws.Encode.send (o : OpSend) : Encode.Statement (.send o) := by
  intro h
  have e : decodeRow (encode (.send o)) = .ok ⟨.send o, 0xEC000000, 0x00000000, 0x00000000, 0x000003F0⟩ := by
    rw [encode, decodeRow_Msg]
    · simp (disch := decide) only [decodeMsg, fixed_of_or (mask_OpSend o), read_OpSend o]
      try rfl
    · rw [fixed_of_or (mask_OpSend o) (by decide)]; decide
  exact decode_of_row e h (reserved_of_or (mask_OpSend o) (by decide) (by decide)) (reserved_of_or (mask_OpSend o) (by decide) (by decide))
    (reserved_of_or (mask_OpSend o) (by decide) (by decide))

theorem Sys2Proof.Laws.Encode.recv (o : OpDA) : Encode.Statement (.recv o) := by
  intro h
  have e : decodeRow (encode (.recv o)) = .ok ⟨.recv o, 0xEC000400, 0x00000000, 0x00000000, 0x000003F8⟩ := by
    rw [encode, decodeRow_Msg]
    · simp (disch := decide) only [decodeMsg, fixed_of_or (mask_OpDA o), read_OpDA o]
      try rfl
    · rw [fixed_of_or (mask_OpDA o) (by decide)]; decide
  exact decode_of_row e h (reserved_of_or (mask_OpDA o) (by decide) (by decide)) (reserved_of_or (mask_OpDA o) (by decide) (by decide))
    (reserved_of_or (mask_OpDA o) (by decide) (by decide))

theorem Sys2Proof.Laws.Encode.enq (o : OpSend) : Encode.Statement (.enq o) := by
  intro h
  have e : decodeRow (encode (.enq o)) = .ok ⟨.enq o, 0xEC000800, 0x00000000, 0x00000000, 0x000003F0⟩ := by
    rw [encode, decodeRow_Msg]
    · simp (disch := decide) only [decodeMsg, fixed_of_or (mask_OpSend o), read_OpSend o]
      try rfl
    · rw [fixed_of_or (mask_OpSend o) (by decide)]; decide
  exact decode_of_row e h (reserved_of_or (mask_OpSend o) (by decide) (by decide)) (reserved_of_or (mask_OpSend o) (by decide) (by decide))
    (reserved_of_or (mask_OpSend o) (by decide) (by decide))

theorem Sys2Proof.Laws.Encode.spawn (o : OpD) : Encode.Statement (.spawn o) := by
  intro h
  have e : decodeRow (encode (.spawn o)) = .ok ⟨.spawn o, 0xEC000C00, 0x00000000, 0x00000000, 0x000FC3F8⟩ := by
    rw [encode, decodeRow_Msg]
    · simp (disch := decide) only [decodeMsg, fixed_of_or (mask_OpD o), read_OpD o]
      try rfl
    · rw [fixed_of_or (mask_OpD o) (by decide)]; decide
  exact decode_of_row e h (reserved_of_or (mask_OpD o) (by decide) (by decide)) (reserved_of_or (mask_OpD o) (by decide) (by decide))
    (reserved_of_or (mask_OpD o) (by decide) (by decide))

theorem Sys2Proof.Laws.Encode.exit (o : OpG) : Encode.Statement (.exit o) := by
  intro h
  have e : decodeRow (encode (.exit o)) = .ok ⟨.exit o, 0xEC001000, 0x00000000, 0x00000000, 0x03FFC3F8⟩ := by
    rw [encode, decodeRow_Msg]
    · simp (disch := decide) only [decodeMsg, fixed_of_or (mask_OpG o), read_OpG o]
      try rfl
    · rw [fixed_of_or (mask_OpG o) (by decide)]; decide
  exact decode_of_row e h (reserved_of_or (mask_OpG o) (by decide) (by decide)) (reserved_of_or (mask_OpG o) (by decide) (by decide))
    (reserved_of_or (mask_OpG o) (by decide) (by decide))

theorem Sys2Proof.Laws.Encode.widf (o : OpWidf) : Encode.Statement (.widf o) := by
  intro h
  have e : decodeRow (encode (.widf o)) = .ok ⟨.widf o, 0xEC001400, 0x00000000, 0x00000000, 0x000FC380⟩ := by
    rw [encode, decodeRow_Msg]
    · simp (disch := decide) only [decodeMsg, fixed_of_or (mask_OpWidf o), read_OpWidf o]
      try rfl
    · rw [fixed_of_or (mask_OpWidf o) (by decide)]; decide
  exact decode_of_row e h (reserved_of_or (mask_OpWidf o) (by decide) (by decide)) (reserved_of_or (mask_OpWidf o) (by decide) (by decide))
    (reserved_of_or (mask_OpWidf o) (by decide) (by decide))

theorem Sys2Proof.Laws.Encode.ibxs (o : OpD) : Encode.Statement (.ibxs o) := by
  intro h
  have e : decodeRow (encode (.ibxs o)) = .ok ⟨.ibxs o, 0xEC001800, 0x00000000, 0x00000000, 0x000FC3F8⟩ := by
    rw [encode, decodeRow_Msg]
    · simp (disch := decide) only [decodeMsg, fixed_of_or (mask_OpD o), read_OpD o]
      try rfl
    · rw [fixed_of_or (mask_OpD o) (by decide)]; decide
  exact decode_of_row e h (reserved_of_or (mask_OpD o) (by decide) (by decide)) (reserved_of_or (mask_OpD o) (by decide) (by decide))
    (reserved_of_or (mask_OpD o) (by decide) (by decide))

theorem Sys2Proof.Laws.Encode.stvec (o : OpDA) : Encode.Statement (.stvec o) := by
  intro h
  have e : decodeRow (encode (.stvec o)) = .ok ⟨.stvec o, 0xF0000000, 0x00000000, 0x00000000, 0x000003F8⟩ := by
    rw [encode, decodeRow_Idx]
    · simp (disch := decide) only [decodeIdx, fixed_of_or (mask_OpDA o), read_OpDA o]
      try rfl
    · rw [fixed_of_or (mask_OpDA o) (by decide)]; decide
  exact decode_of_row e h (reserved_of_or (mask_OpDA o) (by decide) (by decide)) (reserved_of_or (mask_OpDA o) (by decide) (by decide))
    (reserved_of_or (mask_OpDA o) (by decide) (by decide))

theorem Sys2Proof.Laws.Encode.ldnear (o : OpLdnear) : Encode.Statement (.ldnear o) := by
  intro h
  have e : decodeRow (encode (.ldnear o)) = .ok ⟨.ldnear o, 0xF0000400, 0x00000000, 0x00000000, 0x00000300⟩ := by
    rw [encode, decodeRow_Idx]
    · simp (disch := decide) only [decodeIdx, fixed_of_or (mask_OpLdnear o), read_OpLdnear o]
      try rfl
    · rw [fixed_of_or (mask_OpLdnear o) (by decide)]; decide
  exact decode_of_row e h (reserved_of_or (mask_OpLdnear o) (by decide) (by decide)) (reserved_of_or (mask_OpLdnear o) (by decide) (by decide))
    (reserved_of_or (mask_OpLdnear o) (by decide) (by decide))

theorem Sys2Proof.Laws.Encode.delvec (o : OpDA) : Encode.Statement (.delvec o) := by
  intro h
  have e : decodeRow (encode (.delvec o)) = .ok ⟨.delvec o, 0xF0000800, 0x00000000, 0x00000000, 0x000003F8⟩ := by
    rw [encode, decodeRow_Idx]
    · simp (disch := decide) only [decodeIdx, fixed_of_or (mask_OpDA o), read_OpDA o]
      try rfl
    · rw [fixed_of_or (mask_OpDA o) (by decide)]; decide
  exact decode_of_row e h (reserved_of_or (mask_OpDA o) (by decide) (by decide)) (reserved_of_or (mask_OpDA o) (by decide) (by decide))
    (reserved_of_or (mask_OpDA o) (by decide) (by decide))

theorem Sys2Proof.Laws.Encode.ixpin (o : OpDA) : Encode.Statement (.ixpin o) := by
  intro h
  have e : decodeRow (encode (.ixpin o)) = .ok ⟨.ixpin o, 0xF0000C00, 0x00000000, 0x00000000, 0x000003F8⟩ := by
    rw [encode, decodeRow_Idx]
    · simp (disch := decide) only [decodeIdx, fixed_of_or (mask_OpDA o), read_OpDA o]
      try rfl
    · rw [fixed_of_or (mask_OpDA o) (by decide)]; decide
  exact decode_of_row e h (reserved_of_or (mask_OpDA o) (by decide) (by decide)) (reserved_of_or (mask_OpDA o) (by decide) (by decide))
    (reserved_of_or (mask_OpDA o) (by decide) (by decide))

theorem Sys2Proof.Laws.Encode.ixunpin (o : OpDA) : Encode.Statement (.ixunpin o) := by
  intro h
  have e : decodeRow (encode (.ixunpin o)) = .ok ⟨.ixunpin o, 0xF0001000, 0x00000000, 0x00000000, 0x000003F8⟩ := by
    rw [encode, decodeRow_Idx]
    · simp (disch := decide) only [decodeIdx, fixed_of_or (mask_OpDA o), read_OpDA o]
      try rfl
    · rw [fixed_of_or (mask_OpDA o) (by decide)]; decide
  exact decode_of_row e h (reserved_of_or (mask_OpDA o) (by decide) (by decide)) (reserved_of_or (mask_OpDA o) (by decide) (by decide))
    (reserved_of_or (mask_OpDA o) (by decide) (by decide))

theorem Sys2Proof.Laws.Encode.ixstat (o : OpAq) : Encode.Statement (.ixstat o) := by
  intro h
  have e : decodeRow (encode (.ixstat o)) = .ok ⟨.ixstat o, 0xF0001400, 0x00000000, 0x00000000, 0x03F00380⟩ := by
    rw [encode, decodeRow_Idx]
    · simp (disch := decide) only [decodeIdx, fixed_of_or (mask_OpAq o), read_OpAq o]
      try rfl
    · rw [fixed_of_or (mask_OpAq o) (by decide)]; decide
  exact decode_of_row e h (reserved_of_or (mask_OpAq o) (by decide) (by decide)) (reserved_of_or (mask_OpAq o) (by decide) (by decide))
    (reserved_of_or (mask_OpAq o) (by decide) (by decide))

theorem Sys2Proof.Laws.Encode.setpos (o : OpDA) : Encode.Statement (.setpos o) := by
  intro h
  have e : decodeRow (encode (.setpos o)) = .ok ⟨.setpos o, 0xF4000000, 0x00000000, 0x00000000, 0x000003F8⟩ := by
    rw [encode, decodeRow_Pos]
    · simp (disch := decide) only [decodePos, fixed_of_or (mask_OpDA o), read_OpDA o]
      try rfl
    · rw [fixed_of_or (mask_OpDA o) (by decide)]; decide
  exact decode_of_row e h (reserved_of_or (mask_OpDA o) (by decide) (by decide)) (reserved_of_or (mask_OpDA o) (by decide) (by decide))
    (reserved_of_or (mask_OpDA o) (by decide) (by decide))

theorem Sys2Proof.Laws.Encode.neigh (o : OpDAq) : Encode.Statement (.neigh o) := by
  intro h
  have e : decodeRow (encode (.neigh o)) = .ok ⟨.neigh o, 0xF4000400, 0x00000000, 0x00000000, 0x00000380⟩ := by
    rw [encode, decodeRow_Pos]
    · simp (disch := decide) only [decodePos, fixed_of_or (mask_OpDAq o), read_OpDAq o]
      try rfl
    · rw [fixed_of_or (mask_OpDAq o) (by decide)]; decide
  exact decode_of_row e h (reserved_of_or (mask_OpDAq o) (by decide) (by decide)) (reserved_of_or (mask_OpDAq o) (by decide) (by decide))
    (reserved_of_or (mask_OpDAq o) (by decide) (by decide))

theorem Sys2Proof.Laws.Encode.cellq (o : OpD) : Encode.Statement (.cellq o) := by
  intro h
  have e : decodeRow (encode (.cellq o)) = .ok ⟨.cellq o, 0xF4000800, 0x00000000, 0x00000000, 0x000FC3F8⟩ := by
    rw [encode, decodeRow_Pos]
    · simp (disch := decide) only [decodePos, fixed_of_or (mask_OpD o), read_OpD o]
      try rfl
    · rw [fixed_of_or (mask_OpD o) (by decide)]; decide
  exact decode_of_row e h (reserved_of_or (mask_OpD o) (by decide) (by decide)) (reserved_of_or (mask_OpD o) (by decide) (by decide))
    (reserved_of_or (mask_OpD o) (by decide) (by decide))

theorem Sys2Proof.Laws.Encode.migr (o : OpA) : Encode.Statement (.migr o) := by
  intro h
  have e : decodeRow (encode (.migr o)) = .ok ⟨.migr o, 0xF4000C00, 0x00000000, 0x00000000, 0x03F003F8⟩ := by
    rw [encode, decodeRow_Pos]
    · simp (disch := decide) only [decodePos, fixed_of_or (mask_OpA o), read_OpA o]
      try rfl
    · rw [fixed_of_or (mask_OpA o) (by decide)]; decide
  exact decode_of_row e h (reserved_of_or (mask_OpA o) (by decide) (by decide)) (reserved_of_or (mask_OpA o) (by decide) (by decide))
    (reserved_of_or (mask_OpA o) (by decide) (by decide))

theorem Sys2Proof.Laws.Encode.anchor (o : OpG) : Encode.Statement (.anchor o) := by
  intro h
  have e : decodeRow (encode (.anchor o)) = .ok ⟨.anchor o, 0xF4001000, 0x00000000, 0x00000000, 0x03FFC3F8⟩ := by
    rw [encode, decodeRow_Pos]
    · simp (disch := decide) only [decodePos, fixed_of_or (mask_OpG o), read_OpG o]
      try rfl
    · rw [fixed_of_or (mask_OpG o) (by decide)]; decide
  exact decode_of_row e h (reserved_of_or (mask_OpG o) (by decide) (by decide)) (reserved_of_or (mask_OpG o) (by decide) (by decide))
    (reserved_of_or (mask_OpG o) (by decide) (by decide))

theorem Sys2Proof.Laws.Encode.unanchor (o : OpG) : Encode.Statement (.unanchor o) := by
  intro h
  have e : decodeRow (encode (.unanchor o)) = .ok ⟨.unanchor o, 0xF4001400, 0x00000000, 0x00000000, 0x03FFC3F8⟩ := by
    rw [encode, decodeRow_Pos]
    · simp (disch := decide) only [decodePos, fixed_of_or (mask_OpG o), read_OpG o]
      try rfl
    · rw [fixed_of_or (mask_OpG o) (by decide)]; decide
  exact decode_of_row e h (reserved_of_or (mask_OpG o) (by decide) (by decide)) (reserved_of_or (mask_OpG o) (by decide) (by decide))
    (reserved_of_or (mask_OpG o) (by decide) (by decide))

theorem Sys2Proof.Laws.Encode.cellsync (o : OpG) : Encode.Statement (.cellsync o) := by
  intro h
  have e : decodeRow (encode (.cellsync o)) = .ok ⟨.cellsync o, 0xF4001800, 0x00000000, 0x00000000, 0x03FFC3F8⟩ := by
    rw [encode, decodeRow_Pos]
    · simp (disch := decide) only [decodePos, fixed_of_or (mask_OpG o), read_OpG o]
      try rfl
    · rw [fixed_of_or (mask_OpG o) (by decide)]; decide
  exact decode_of_row e h (reserved_of_or (mask_OpG o) (by decide) (by decide)) (reserved_of_or (mask_OpG o) (by decide) (by decide))
    (reserved_of_or (mask_OpG o) (by decide) (by decide))

theorem Sys2Proof.Laws.Encode.ill : Encode.Statement .ill := fun _ => by decide

theorem Sys2Proof.Laws.Encode.nop (o : OpG) : Encode.Statement (.nop o) := by
  intro h
  have e : decodeRow (encode (.nop o)) = .ok ⟨.nop o, 0x00000008, 0x00000000, 0x00000000, 0x03FFC000⟩ := by
    rw [encode, decodeRow_Sys, decodeSys_SysMisc]
    · simp (disch := decide) only [decodeSysMisc, fixed_of_or (mask_OpG o), read_OpG o]
      try rfl
    · rw [fixed_of_or (mask_OpG o) (by decide)]; decide
    · rw [fixed_of_or (mask_OpG o) (by decide)]; decide
  exact decode_of_row e h (reserved_of_or (mask_OpG o) (by decide) (by decide)) (reserved_of_or (mask_OpG o) (by decide) (by decide))
    (reserved_of_or (mask_OpG o) (by decide) (by decide))

theorem Sys2Proof.Laws.Encode.ifence (o : OpG) : Encode.Statement (.ifence o) := by
  intro h
  have e : decodeRow (encode (.ifence o)) = .ok ⟨.ifence o, 0x00000010, 0x00000000, 0x00000000, 0x03FFC000⟩ := by
    rw [encode, decodeRow_Sys, decodeSys_SysMisc]
    · simp (disch := decide) only [decodeSysMisc, fixed_of_or (mask_OpG o), read_OpG o]
      try rfl
    · rw [fixed_of_or (mask_OpG o) (by decide)]; decide
    · rw [fixed_of_or (mask_OpG o) (by decide)]; decide
  exact decode_of_row e h (reserved_of_or (mask_OpG o) (by decide) (by decide)) (reserved_of_or (mask_OpG o) (by decide) (by decide))
    (reserved_of_or (mask_OpG o) (by decide) (by decide))

theorem Sys2Proof.Laws.Encode.eret (o : OpG) : Encode.Statement (.eret o) := by
  intro h
  have e : decodeRow (encode (.eret o)) = .ok ⟨.eret o, 0x00000018, 0x00000000, 0x00000000, 0x03FFC000⟩ := by
    rw [encode, decodeRow_Sys, decodeSys_SysMisc]
    · simp (disch := decide) only [decodeSysMisc, fixed_of_or (mask_OpG o), read_OpG o]
      try rfl
    · rw [fixed_of_or (mask_OpG o) (by decide)]; decide
    · rw [fixed_of_or (mask_OpG o) (by decide)]; decide
  exact decode_of_row e h (reserved_of_or (mask_OpG o) (by decide) (by decide)) (reserved_of_or (mask_OpG o) (by decide) (by decide))
    (reserved_of_or (mask_OpG o) (by decide) (by decide))

theorem Sys2Proof.Laws.Encode.halt (o : OpG) : Encode.Statement (.halt o) := by
  intro h
  have e : decodeRow (encode (.halt o)) = .ok ⟨.halt o, 0x00000020, 0x00000000, 0x00000000, 0x03FFC000⟩ := by
    rw [encode, decodeRow_Sys, decodeSys_SysMisc]
    · simp (disch := decide) only [decodeSysMisc, fixed_of_or (mask_OpG o), read_OpG o]
      try rfl
    · rw [fixed_of_or (mask_OpG o) (by decide)]; decide
    · rw [fixed_of_or (mask_OpG o) (by decide)]; decide
  exact decode_of_row e h (reserved_of_or (mask_OpG o) (by decide) (by decide)) (reserved_of_or (mask_OpG o) (by decide) (by decide))
    (reserved_of_or (mask_OpG o) (by decide) (by decide))

theorem Sys2Proof.Laws.Encode.wfe (o : OpG) : Encode.Statement (.wfe o) := by
  intro h
  have e : decodeRow (encode (.wfe o)) = .ok ⟨.wfe o, 0x00000028, 0x00000000, 0x00000000, 0x03FFC000⟩ := by
    rw [encode, decodeRow_Sys, decodeSys_SysMisc]
    · simp (disch := decide) only [decodeSysMisc, fixed_of_or (mask_OpG o), read_OpG o]
      try rfl
    · rw [fixed_of_or (mask_OpG o) (by decide)]; decide
    · rw [fixed_of_or (mask_OpG o) (by decide)]; decide
  exact decode_of_row e h (reserved_of_or (mask_OpG o) (by decide) (by decide)) (reserved_of_or (mask_OpG o) (by decide) (by decide))
    (reserved_of_or (mask_OpG o) (by decide) (by decide))

theorem Sys2Proof.Laws.Encode.dbgbrk (o : OpG) : Encode.Statement (.dbgbrk o) := by
  intro h
  have e : decodeRow (encode (.dbgbrk o)) = .ok ⟨.dbgbrk o, 0x00000030, 0x00000000, 0x00000000, 0x03FFC000⟩ := by
    rw [encode, decodeRow_Sys, decodeSys_SysMisc]
    · simp (disch := decide) only [decodeSysMisc, fixed_of_or (mask_OpG o), read_OpG o]
      try rfl
    · rw [fixed_of_or (mask_OpG o) (by decide)]; decide
    · rw [fixed_of_or (mask_OpG o) (by decide)]; decide
  exact decode_of_row e h (reserved_of_or (mask_OpG o) (by decide) (by decide)) (reserved_of_or (mask_OpG o) (by decide) (by decide))
    (reserved_of_or (mask_OpG o) (by decide) (by decide))

theorem Sys2Proof.Laws.Encode.trap (o : OpTrap) : Encode.Statement (.trap o) := by
  intro h
  have e : decodeRow (encode (.trap o)) = .ok ⟨.trap o, 0x00000400, 0x00000000, 0x00000000, 0x03FFC000⟩ := by
    rw [encode, decodeRow_Sys]
    · simp (disch := decide) only [decodeSys, fixed_of_or (mask_OpTrap o), read_OpTrap o]
      try rfl
    · rw [fixed_of_or (mask_OpTrap o) (by decide)]; decide
  exact decode_of_row e h (reserved_of_or (mask_OpTrap o) (by decide) (by decide)) (reserved_of_or (mask_OpTrap o) (by decide) (by decide))
    (reserved_of_or (mask_OpTrap o) (by decide) (by decide))

theorem Sys2Proof.Laws.Encode.csrr (o : OpCsrr) : Encode.Statement (.csrr o) := by
  intro h
  have e : decodeRow (encode (.csrr o)) = .ok ⟨.csrr o, 0x00000800, 0x00000000, 0x00000000, 0x000FC000⟩ := by
    rw [encode, decodeRow_Sys]
    · simp (disch := decide) only [decodeSys, fixed_of_or (mask_OpCsrr o), read_OpCsrr o]
      try rfl
    · rw [fixed_of_or (mask_OpCsrr o) (by decide)]; decide
  exact decode_of_row e h (reserved_of_or (mask_OpCsrr o) (by decide) (by decide)) (reserved_of_or (mask_OpCsrr o) (by decide) (by decide))
    (reserved_of_or (mask_OpCsrr o) (by decide) (by decide))

theorem Sys2Proof.Laws.Encode.csrw (o : OpCsrw) : Encode.Statement (.csrw o) := by
  intro h
  have e : decodeRow (encode (.csrw o)) = .ok ⟨.csrw o, 0x00000C00, 0x00000000, 0x00000000, 0x00000000⟩ := by
    rw [encode, decodeRow_Sys]
    · simp (disch := decide) only [decodeSys, fixed_of_or (mask_OpCsrw o), read_OpCsrw o]
      try rfl
    · rw [fixed_of_or (mask_OpCsrw o) (by decide)]; decide
  exact decode_of_row e h (reserved_of_or (mask_OpCsrw o) (by decide) (by decide)) (reserved_of_or (mask_OpCsrw o) (by decide) (by decide))
    (reserved_of_or (mask_OpCsrw o) (by decide) (by decide))

theorem Sys2Proof.Laws.Encode.csrs (o : OpCsrw) : Encode.Statement (.csrs o) := by
  intro h
  have e : decodeRow (encode (.csrs o)) = .ok ⟨.csrs o, 0x00001000, 0x00000000, 0x00000000, 0x00000000⟩ := by
    rw [encode, decodeRow_Sys]
    · simp (disch := decide) only [decodeSys, fixed_of_or (mask_OpCsrw o), read_OpCsrw o]
      try rfl
    · rw [fixed_of_or (mask_OpCsrw o) (by decide)]; decide
  exact decode_of_row e h (reserved_of_or (mask_OpCsrw o) (by decide) (by decide)) (reserved_of_or (mask_OpCsrw o) (by decide) (by decide))
    (reserved_of_or (mask_OpCsrw o) (by decide) (by decide))

theorem Sys2Proof.Laws.Encode.csrc (o : OpCsrw) : Encode.Statement (.csrc o) := by
  intro h
  have e : decodeRow (encode (.csrc o)) = .ok ⟨.csrc o, 0x00001400, 0x00000000, 0x00000000, 0x00000000⟩ := by
    rw [encode, decodeRow_Sys]
    · simp (disch := decide) only [decodeSys, fixed_of_or (mask_OpCsrw o), read_OpCsrw o]
      try rfl
    · rw [fixed_of_or (mask_OpCsrw o) (by decide)]; decide
  exact decode_of_row e h (reserved_of_or (mask_OpCsrw o) (by decide) (by decide)) (reserved_of_or (mask_OpCsrw o) (by decide) (by decide))
    (reserved_of_or (mask_OpCsrw o) (by decide) (by decide))

theorem Sys2Proof.Laws.Encode.ctxsave (o : OpCtxsave) : Encode.Statement (.ctxsave o) := by
  intro h
  have e : decodeRow (encode (.ctxsave o)) = .ok ⟨.ctxsave o, 0x00001800, 0x00000000, 0x00000000, 0x00000300⟩ := by
    rw [encode, decodeRow_Sys]
    · simp (disch := decide) only [decodeSys, fixed_of_or (mask_OpCtxsave o), read_OpCtxsave o]
      try rfl
    · rw [fixed_of_or (mask_OpCtxsave o) (by decide)]; decide
  exact decode_of_row e h (reserved_of_or (mask_OpCtxsave o) (by decide) (by decide)) (reserved_of_or (mask_OpCtxsave o) (by decide) (by decide))
    (reserved_of_or (mask_OpCtxsave o) (by decide) (by decide))

theorem Sys2Proof.Laws.Encode.ctxload (o : OpCtxload) : Encode.Statement (.ctxload o) := by
  intro h
  have e : decodeRow (encode (.ctxload o)) = .ok ⟨.ctxload o, 0x00001C00, 0x00000000, 0x00000000, 0x00000200⟩ := by
    rw [encode, decodeRow_Sys]
    · simp (disch := decide) only [decodeSys, fixed_of_or (mask_OpCtxload o), read_OpCtxload o]
      try rfl
    · rw [fixed_of_or (mask_OpCtxload o) (by decide)]; decide
  exact decode_of_row e h (reserved_of_or (mask_OpCtxload o) (by decide) (by decide)) (reserved_of_or (mask_OpCtxload o) (by decide) (by decide))
    (reserved_of_or (mask_OpCtxload o) (by decide) (by decide))

theorem Sys2Proof.Laws.Encode.seatctlStat (o : OpDA) : Encode.Statement (.seatctlStat o) := by
  intro h
  have e : decodeRow (encode (.seatctlStat o)) = .ok ⟨.seatctlStat o, 0x00002000, 0x00000000, 0x00000000, 0x000003C0⟩ := by
    rw [encode, decodeRow_Sys, decodeSys_Seatctl]
    · simp (disch := decide) only [decodeSeatctl, fixed_of_or (mask_OpDA o), read_OpDA o]
      try rfl
    · rw [fixed_of_or (mask_OpDA o) (by decide)]; decide
    · rw [fixed_of_or (mask_OpDA o) (by decide)]; decide
  exact decode_of_row e h (reserved_of_or (mask_OpDA o) (by decide) (by decide)) (reserved_of_or (mask_OpDA o) (by decide) (by decide))
    (reserved_of_or (mask_OpDA o) (by decide) (by decide))

theorem Sys2Proof.Laws.Encode.seatctlStop (o : OpDA) : Encode.Statement (.seatctlStop o) := by
  intro h
  have e : decodeRow (encode (.seatctlStop o)) = .ok ⟨.seatctlStop o, 0x00002008, 0x00000000, 0x00000000, 0x000003C0⟩ := by
    rw [encode, decodeRow_Sys, decodeSys_Seatctl]
    · simp (disch := decide) only [decodeSeatctl, fixed_of_or (mask_OpDA o), read_OpDA o]
      try rfl
    · rw [fixed_of_or (mask_OpDA o) (by decide)]; decide
    · rw [fixed_of_or (mask_OpDA o) (by decide)]; decide
  exact decode_of_row e h (reserved_of_or (mask_OpDA o) (by decide) (by decide)) (reserved_of_or (mask_OpDA o) (by decide) (by decide))
    (reserved_of_or (mask_OpDA o) (by decide) (by decide))

theorem Sys2Proof.Laws.Encode.seatctlStart (o : OpDA) : Encode.Statement (.seatctlStart o) := by
  intro h
  have e : decodeRow (encode (.seatctlStart o)) = .ok ⟨.seatctlStart o, 0x00002010, 0x00000000, 0x00000000, 0x000003C0⟩ := by
    rw [encode, decodeRow_Sys, decodeSys_Seatctl]
    · simp (disch := decide) only [decodeSeatctl, fixed_of_or (mask_OpDA o), read_OpDA o]
      try rfl
    · rw [fixed_of_or (mask_OpDA o) (by decide)]; decide
    · rw [fixed_of_or (mask_OpDA o) (by decide)]; decide
  exact decode_of_row e h (reserved_of_or (mask_OpDA o) (by decide) (by decide)) (reserved_of_or (mask_OpDA o) (by decide) (by decide))
    (reserved_of_or (mask_OpDA o) (by decide) (by decide))

theorem Sys2Proof.Laws.Encode.seatctlWake (o : OpDA) : Encode.Statement (.seatctlWake o) := by
  intro h
  have e : decodeRow (encode (.seatctlWake o)) = .ok ⟨.seatctlWake o, 0x00002018, 0x00000000, 0x00000000, 0x000003C0⟩ := by
    rw [encode, decodeRow_Sys, decodeSys_Seatctl]
    · simp (disch := decide) only [decodeSeatctl, fixed_of_or (mask_OpDA o), read_OpDA o]
      try rfl
    · rw [fixed_of_or (mask_OpDA o) (by decide)]; decide
    · rw [fixed_of_or (mask_OpDA o) (by decide)]; decide
  exact decode_of_row e h (reserved_of_or (mask_OpDA o) (by decide) (by decide)) (reserved_of_or (mask_OpDA o) (by decide) (by decide))
    (reserved_of_or (mask_OpDA o) (by decide) (by decide))

theorem Sys2Proof.Laws.Encode.timer (seat : Nat) : Encode.Statement (.timer seat) := fun h => nomatch h
theorem Sys2Proof.Laws.Encode.waitlimExpiry (seat : Nat) : Encode.Statement (.waitlimExpiry seat) := fun h => nomatch h
theorem Sys2Proof.Laws.Encode.barrierWaitLimit (seat : Nat) : Encode.Statement (.barrierWaitLimit seat) := fun h => nomatch h
theorem Sys2Proof.Laws.Encode.bankService (bank : Nat) : Encode.Statement (.bankService bank) := fun h => nomatch h
theorem Sys2Proof.Laws.Encode.meshRequestAccept (req : Nat) : Encode.Statement (.meshRequestAccept req) := fun h => nomatch h
theorem Sys2Proof.Laws.Encode.waitTableAttempt (cluster : Nat) (off : Nat) : Encode.Statement (.waitTableAttempt cluster off) := fun h => nomatch h
theorem Sys2Proof.Laws.Encode.waitBudgetBoundary (cluster : Nat) (req : Nat) : Encode.Statement (.waitBudgetBoundary cluster req) := fun h => nomatch h
theorem Sys2Proof.Laws.Encode.nackResend (req : Nat) : Encode.Statement (.nackResend req) := fun h => nomatch h
theorem Sys2Proof.Laws.Encode.registerFill (req : Nat) : Encode.Statement (.registerFill req) := fun h => nomatch h
theorem Sys2Proof.Laws.Encode.acknowledgement (req : Nat) : Encode.Statement (.acknowledgement req) := fun h => nomatch h
theorem Sys2Proof.Laws.Encode.limitReply (req : Nat) : Encode.Statement (.limitReply req) := fun h => nomatch h
theorem Sys2Proof.Laws.Encode.heldNotice (req : Nat) : Encode.Statement (.heldNotice req) := fun h => nomatch h
theorem Sys2Proof.Laws.Encode.combinedNotice (req : Nat) : Encode.Statement (.combinedNotice req) := fun h => nomatch h
theorem Sys2Proof.Laws.Encode.noreply (req : Nat) : Encode.Statement (.noreply req) := fun h => nomatch h
theorem Sys2Proof.Laws.Encode.vallost (req : Nat) : Encode.Statement (.vallost req) := fun h => nomatch h
theorem Sys2Proof.Laws.Encode.combiningPointTimeout (entry : Nat) : Encode.Statement (.combiningPointTimeout entry) := fun h => nomatch h
theorem Sys2Proof.Laws.Encode.flitLoss (req : Nat) : Encode.Statement (.flitLoss req) := fun h => nomatch h
theorem Sys2Proof.Laws.Encode.stationRequest (req : Nat) : Encode.Statement (.stationRequest req) := fun h => nomatch h
theorem Sys2Proof.Laws.Encode.tableWalk (req : Nat) : Encode.Statement (.tableWalk req) := fun h => nomatch h
theorem Sys2Proof.Laws.Encode.heldReplay (station : Nat) (asid : BitVec 16) (va : Nat) : Encode.Statement (.heldReplay station asid va) := fun h => nomatch h
theorem Sys2Proof.Laws.Encode.rsvtimeRevocation (station : Nat) (va : Nat) : Encode.Statement (.rsvtimeRevocation station va) := fun h => nomatch h
theorem Sys2Proof.Laws.Encode.waitrsReport (req : Nat) (slot : Nat) : Encode.Statement (.waitrsReport req slot) := fun h => nomatch h
theorem Sys2Proof.Laws.Encode.waitrsLimit (req : Nat) : Encode.Statement (.waitrsLimit req) := fun h => nomatch h
theorem Sys2Proof.Laws.Encode.tierPieceCopy (move : Nat) : Encode.Statement (.tierPieceCopy move) := fun h => nomatch h
theorem Sys2Proof.Laws.Encode.nearCacheProbe (cluster : Nat) (asid : BitVec 16) (va : Nat) (size : Nat) : Encode.Statement (.nearCacheProbe cluster asid va size) := fun h => nomatch h
theorem Sys2Proof.Laws.Encode.translationInvalidate (station : Nat) (asid : BitVec 16) (va : Nat) (size : Nat) : Encode.Statement (.translationInvalidate station asid va size) := fun h => nomatch h
theorem Sys2Proof.Laws.Encode.nearCacheFill (req : Nat) : Encode.Statement (.nearCacheFill req) := fun h => nomatch h
theorem Sys2Proof.Laws.Encode.writeBackLoss (req : Nat) : Encode.Statement (.writeBackLoss req) := fun h => nomatch h
theorem Sys2Proof.Laws.Encode.combinerMerge (req : Nat) : Encode.Statement (.combinerMerge req) := fun h => nomatch h
theorem Sys2Proof.Laws.Encode.combinerSend (entry : Nat) : Encode.Statement (.combinerSend entry) := fun h => nomatch h
theorem Sys2Proof.Laws.Encode.routerCombine (reqA : Nat) (reqB : Nat) (router : Nat) : Encode.Statement (.routerCombine reqA reqB router) := fun h => nomatch h
theorem Sys2Proof.Laws.Encode.replySplit (entry : Nat) : Encode.Statement (.replySplit entry) := fun h => nomatch h
theorem Sys2Proof.Laws.Encode.engineShadowTake (eng : Nat) : Encode.Statement (.engineShadowTake eng) := fun h => nomatch h
theorem Sys2Proof.Laws.Encode.streamPush (eng : Nat) : Encode.Statement (.streamPush eng) := fun h => nomatch h
theorem Sys2Proof.Laws.Encode.collectiveStart (op : Nat) : Encode.Statement (.collectiveStart op) := fun h => nomatch h
theorem Sys2Proof.Laws.Encode.collectiveJoinTimeout (op : Nat) : Encode.Statement (.collectiveJoinTimeout op) := fun h => nomatch h
theorem Sys2Proof.Laws.Encode.engineCompletion (eng : Nat) : Encode.Statement (.engineCompletion eng) := fun h => nomatch h
theorem Sys2Proof.Laws.Encode.completionDrop (eng : Nat) : Encode.Statement (.completionDrop eng) := fun h => nomatch h
theorem Sys2Proof.Laws.Encode.inboxArrival (msg : Nat) : Encode.Statement (.inboxArrival msg) := fun h => nomatch h
theorem Sys2Proof.Laws.Encode.inboxHeldWrite (core : Nat) : Encode.Statement (.inboxHeldWrite core) := fun h => nomatch h
theorem Sys2Proof.Laws.Encode.portWordArrival (msg : Nat) : Encode.Statement (.portWordArrival msg) := fun h => nomatch h
theorem Sys2Proof.Laws.Encode.enqAdmission (msg : Nat) : Encode.Statement (.enqAdmission msg) := fun h => nomatch h
theorem Sys2Proof.Laws.Encode.ringPacketFetch (queue : Nat) : Encode.Statement (.ringPacketFetch queue) := fun h => nomatch h
theorem Sys2Proof.Laws.Encode.dispatchSelection (station : Nat) : Encode.Statement (.dispatchSelection station) := fun h => nomatch h
theorem Sys2Proof.Laws.Encode.expansion (station : Nat) (slot : Nat) : Encode.Statement (.expansion station slot) := fun h => nomatch h
theorem Sys2Proof.Laws.Encode.runQueueArrival (mig : Nat) : Encode.Statement (.runQueueArrival mig) := fun h => nomatch h
theorem Sys2Proof.Laws.Encode.seatTake (seat : Nat) : Encode.Statement (.seatTake seat) := fun h => nomatch h
theorem Sys2Proof.Laws.Encode.parkswap (seat : Nat) : Encode.Statement (.parkswap seat) := fun h => nomatch h
theorem Sys2Proof.Laws.Encode.instructionFetchFill (req : Nat) : Encode.Statement (.instructionFetchFill req) := fun h => nomatch h
theorem Sys2Proof.Laws.Encode.descriptorArrival (req : Nat) : Encode.Statement (.descriptorArrival req) := fun h => nomatch h
theorem Sys2Proof.Laws.Encode.dependenceDecrement (die : Nat) (ctr : Nat) : Encode.Statement (.dependenceDecrement die ctr) := fun h => nomatch h
theorem Sys2Proof.Laws.Encode.sweepPennant (launch : Nat) : Encode.Statement (.sweepPennant launch) := fun h => nomatch h
theorem Sys2Proof.Laws.Encode.launchCompletionDrop (msg : Nat) : Encode.Statement (.launchCompletionDrop msg) := fun h => nomatch h
theorem Sys2Proof.Laws.Encode.cancelBroadcast (job : Nat) (dest : Nat) : Encode.Statement (.cancelBroadcast job dest) := fun h => nomatch h
theorem Sys2Proof.Laws.Encode.cancel (seat : Nat) : Encode.Statement (.cancel seat) := fun h => nomatch h
theorem Sys2Proof.Laws.Encode.trapNotice (seat : Nat) : Encode.Statement (.trapNotice seat) := fun h => nomatch h
theorem Sys2Proof.Laws.Encode.squareHandover (mig : Nat) : Encode.Statement (.squareHandover mig) := fun h => nomatch h
theorem Sys2Proof.Laws.Encode.departingRemoval (launch : Nat) (tid : Nat) (sq : Nat) : Encode.Statement (.departingRemoval launch tid sq) := fun h => nomatch h
theorem Sys2Proof.Laws.Encode.admission (launch : Nat) (sq : Nat) : Encode.Statement (.admission launch sq) := fun h => nomatch h
theorem Sys2Proof.Laws.Encode.neighSquareQuery (req : Nat) : Encode.Statement (.neighSquareQuery req) := fun h => nomatch h
theorem Sys2Proof.Laws.Encode.ladderAdmission (req : Nat) : Encode.Statement (.ladderAdmission req) := fun h => nomatch h
theorem Sys2Proof.Laws.Encode.insertCommit (req : Nat) : Encode.Statement (.insertCommit req) := fun h => nomatch h
theorem Sys2Proof.Laws.Encode.queryPacket (req : Nat) : Encode.Statement (.queryPacket req) := fun h => nomatch h
theorem Sys2Proof.Laws.Encode.reclamation (index : Nat) (ord : Nat) : Encode.Statement (.reclamation index ord) := fun h => nomatch h
theorem Sys2Proof.Laws.Encode.sampledRerun (req : Nat) : Encode.Statement (.sampledRerun req) := fun h => nomatch h
theorem Sys2Proof.Laws.Encode.matrixUnitTake (tile : Nat) : Encode.Statement (.matrixUnitTake tile) := fun h => nomatch h
theorem Sys2Proof.Laws.Encode.kStep (tile : Nat) : Encode.Statement (.kStep tile) := fun h => nomatch h
theorem Sys2Proof.Laws.Encode.matrixCompletion (tile : Nat) : Encode.Statement (.matrixCompletion tile) := fun h => nomatch h
theorem Sys2Proof.Laws.Encode.rampEnd (tile : Nat) : Encode.Statement (.rampEnd tile) := fun h => nomatch h
theorem Sys2Proof.Laws.Encode.holdWindowEnd (tile : Nat) : Encode.Statement (.holdWindowEnd tile) := fun h => nomatch h
theorem Sys2Proof.Laws.Encode.downEnd (tile : Nat) : Encode.Statement (.downEnd tile) := fun h => nomatch h
theorem Sys2Proof.Laws.Encode.checkpoint (core : Nat) (seat : Nat) : Encode.Statement (.checkpoint core seat) := fun h => nomatch h
theorem Sys2Proof.Laws.Encode.checkpointCommit (core : Nat) (seat : Nat) : Encode.Statement (.checkpointCommit core seat) := fun h => nomatch h
theorem Sys2Proof.Laws.Encode.doubletMismatch (core : Nat) (seat : Nat) : Encode.Statement (.doubletMismatch core seat) := fun h => nomatch h
theorem Sys2Proof.Laws.Encode.bridgePacket (req : Nat) : Encode.Statement (.bridgePacket req) := fun h => nomatch h
theorem Sys2Proof.Laws.Encode.deviceReset : Encode.Statement (.deviceReset) := fun h => nomatch h
theorem Sys2Proof.Laws.Encode.powerMeasurement (watts : Nat) (junction : Nat) : Encode.Statement (.powerMeasurement watts junction) := fun h => nomatch h
theorem Sys2Proof.Laws.Encode.cmdtailDoorbell (fn : Nat) (q : Nat) (val : BitVec 64) : Encode.Statement (.cmdtailDoorbell fn q val) := fun h => nomatch h
theorem Sys2Proof.Laws.Encode.queueEnable (fn : Nat) (q : Nat) (val : BitVec 64) : Encode.Statement (.queueEnable fn q val) := fun h => nomatch h
theorem Sys2Proof.Laws.Encode.cplheadWrite (fn : Nat) (q : Nat) (val : BitVec 64) : Encode.Statement (.cplheadWrite fn q val) := fun h => nomatch h
theorem Sys2Proof.Laws.Encode.evlostClear (fn : Nat) (q : Nat) (val : BitVec 64) : Encode.Statement (.evlostClear fn q val) := fun h => nomatch h
theorem Sys2Proof.Laws.Encode.hostRegisterWrite (fn : Nat) (off : Nat) (val : BitVec 64) : Encode.Statement (.hostRegisterWrite fn off val) := fun h => nomatch h
theorem Sys2Proof.Laws.Encode.ident (fn : Nat) (q : Nat) : Encode.Statement (.ident fn q) := fun h => nomatch h
theorem Sys2Proof.Laws.Encode.negotiate (fn : Nat) (q : Nat) : Encode.Statement (.negotiate fn q) := fun h => nomatch h
theorem Sys2Proof.Laws.Encode.deviceSet (fn : Nat) (q : Nat) : Encode.Statement (.deviceSet fn q) := fun h => nomatch h
theorem Sys2Proof.Laws.Encode.powerCap (fn : Nat) (q : Nat) : Encode.Statement (.powerCap fn q) := fun h => nomatch h
theorem Sys2Proof.Laws.Encode.attest (fn : Nat) (q : Nat) : Encode.Statement (.attest fn q) := fun h => nomatch h
theorem Sys2Proof.Laws.Encode.ctxCreate (fn : Nat) (q : Nat) : Encode.Statement (.ctxCreate fn q) := fun h => nomatch h
theorem Sys2Proof.Laws.Encode.ctxDestroy (fn : Nat) (q : Nat) : Encode.Statement (.ctxDestroy fn q) := fun h => nomatch h
theorem Sys2Proof.Laws.Encode.map (fn : Nat) (q : Nat) : Encode.Statement (.map fn q) := fun h => nomatch h
theorem Sys2Proof.Laws.Encode.unmap (fn : Nat) (q : Nat) : Encode.Statement (.unmap fn q) := fun h => nomatch h
theorem Sys2Proof.Laws.Encode.pageMove (fn : Nat) (q : Nat) : Encode.Statement (.pageMove fn q) := fun h => nomatch h
theorem Sys2Proof.Laws.Encode.blockSet (fn : Nat) (q : Nat) : Encode.Statement (.blockSet fn q) := fun h => nomatch h
theorem Sys2Proof.Laws.Encode.memCopy (fn : Nat) (q : Nat) : Encode.Statement (.memCopy fn q) := fun h => nomatch h
theorem Sys2Proof.Laws.Encode.queueCreate (fn : Nat) (q : Nat) : Encode.Statement (.queueCreate fn q) := fun h => nomatch h
theorem Sys2Proof.Laws.Encode.queueDestroy (fn : Nat) (q : Nat) : Encode.Statement (.queueDestroy fn q) := fun h => nomatch h
theorem Sys2Proof.Laws.Encode.queueSubmit (fn : Nat) (q : Nat) : Encode.Statement (.queueSubmit fn q) := fun h => nomatch h
theorem Sys2Proof.Laws.Encode.scopeSet (fn : Nat) (q : Nat) : Encode.Statement (.scopeSet fn q) := fun h => nomatch h
theorem Sys2Proof.Laws.Encode.boardSet (fn : Nat) (q : Nat) : Encode.Statement (.boardSet fn q) := fun h => nomatch h
theorem Sys2Proof.Laws.Encode.indexCreate (fn : Nat) (q : Nat) : Encode.Statement (.indexCreate fn q) := fun h => nomatch h
theorem Sys2Proof.Laws.Encode.indexDestroy (fn : Nat) (q : Nat) : Encode.Statement (.indexDestroy fn q) := fun h => nomatch h
theorem Sys2Proof.Laws.Encode.graphCreate (fn : Nat) (q : Nat) : Encode.Statement (.graphCreate fn q) := fun h => nomatch h
theorem Sys2Proof.Laws.Encode.graphPatch (fn : Nat) (q : Nat) : Encode.Statement (.graphPatch fn q) := fun h => nomatch h
theorem Sys2Proof.Laws.Encode.graphReplay (fn : Nat) (q : Nat) : Encode.Statement (.graphReplay fn q) := fun h => nomatch h
theorem Sys2Proof.Laws.Encode.jobCancel (fn : Nat) (q : Nat) : Encode.Statement (.jobCancel fn q) := fun h => nomatch h
theorem Sys2Proof.Laws.Encode.debugHalt (fn : Nat) (q : Nat) : Encode.Statement (.debugHalt fn q) := fun h => nomatch h
theorem Sys2Proof.Laws.Encode.debugResume (fn : Nat) (q : Nat) : Encode.Statement (.debugResume fn q) := fun h => nomatch h
theorem Sys2Proof.Laws.Encode.debugRegread (fn : Nat) (q : Nat) : Encode.Statement (.debugRegread fn q) := fun h => nomatch h
theorem Sys2Proof.Laws.Encode.debugRegwrite (fn : Nat) (q : Nat) : Encode.Statement (.debugRegwrite fn q) := fun h => nomatch h
theorem Sys2Proof.Laws.Encode.debugLocalread (fn : Nat) (q : Nat) : Encode.Statement (.debugLocalread fn q) := fun h => nomatch h
theorem Sys2Proof.Laws.Encode.debugLocalwrite (fn : Nat) (q : Nat) : Encode.Statement (.debugLocalwrite fn q) := fun h => nomatch h
theorem Sys2Proof.Laws.Encode.debugBreakarm (fn : Nat) (q : Nat) : Encode.Statement (.debugBreakarm fn q) := fun h => nomatch h
theorem Sys2Proof.Laws.Encode.debugBreakoff (fn : Nat) (q : Nat) : Encode.Statement (.debugBreakoff fn q) := fun h => nomatch h
theorem Sys2Proof.Laws.Encode.unassignedEncoding (w : BitVec 32) : Encode.Statement (.unassignedEncoding w) := fun h => nomatch h
theorem Sys2Proof.Laws.Encode.badop (fn : Nat) (q : Nat) : Encode.Statement (.badop fn q) := fun h => nomatch h
theorem Sys2Proof.Laws.Encode.hostLinkDown : Encode.Statement (.hostLinkDown) := fun h => nomatch h
theorem Sys2Proof.Laws.Encode.hostLinkUp : Encode.Statement (.hostLinkUp) := fun h => nomatch h
theorem Sys2Proof.Laws.Encode.hostAccessCompletion (req : Nat) : Encode.Statement (.hostAccessCompletion req) := fun h => nomatch h
theorem Sys2Proof.Laws.Encode.softError (err : SoftErr) : Encode.Statement (.softError err) := fun h => nomatch h
theorem Sys2Proof.Laws.Encode.engineAccessReply (eng : Nat) : Encode.Statement (.engineAccessReply eng) := fun h => nomatch h
theorem Sys2Proof.Laws.Encode.resultStreamArrival (req : Nat) : Encode.Statement (.resultStreamArrival req) := fun h => nomatch h

end
end

