-- ==== Sys2Proof/Tests/Slice0.lean ====
section
/-!
SUPPORT. Tests: words written out from the encoding tables and what they decode to; the refusals of the well-formedness checks and of the decoder; a
small machine in which every instruction issues, and states that meet the hypotheses of the statements; results of single steps, worked out by
hand from the rules.
-/

section

set_option Elab.async false

open Sys2Proof

/-! ## Decoding -/

/-- Major 0x00 (R240, R241): one word of each row, its fields written out from the high bits down. -/
theorem test_decode_sys :
    decode (0b00000000000000000000000000001#29 ++ 0b010#3) = .ok (.nop ⟨2⟩) ∧
    decode (0b00000000000000000000000000010#29 ++ 0b001#3) = .ok (.ifence ⟨1⟩) ∧
    decode (0b00000000000000000000000000011#29 ++ 0b010#3) = .ok (.eret ⟨2⟩) ∧
    decode (0b00000000000000000000000000100#29 ++ 0b101#3) = .ok (.halt ⟨5⟩) ∧
    decode (0b00000000000000000000000000101#29 ++ 0b011#3) = .ok (.wfe ⟨3⟩) ∧
    decode (0b00000000000000000000000000110#29 ++ 0b100#3) = .ok (.dbgbrk ⟨4⟩) ∧
    decode (0b0000000000000000000001#22 ++ 0b1101000#7 ++ 0b100#3) = .ok (.trap ⟨104, 4⟩) ∧
    decode (0b000000#6 ++ 0b000100#6 ++ 0b0000000010#10 ++ 0b0011111#7 ++ 0b101#3) = .ok (.csrr ⟨4, 31, 5⟩) ∧
    decode (0b000000#6 ++ 0b011100#6 ++ 0b101001#6 ++ 0b0011#4 ++ 0b0010000#7 ++ 0b011#3) = .ok (.csrw ⟨28, 41, 16, 3⟩) ∧
    decode (0b000000#6 ++ 0b101010#6 ++ 0b001101#6 ++ 0b0100#4 ++ 0b0100001#7 ++ 0b010#3) = .ok (.csrs ⟨42, 13, 33, 2⟩) ∧
    decode (0b000000#6 ++ 0b111010#6 ++ 0b101101#6 ++ 0b0101#4 ++ 0b1001100#7 ++ 0b101#3) = .ok (.csrc ⟨58, 45, 76, 5⟩) ∧
    decode (0b000000#6 ++ 0b110111#6 ++ 0b110000#6 ++ 0b011000#6 ++ 0b01000#5 ++ 0b101#3) = .ok (.ctxsave ⟨55, 48, 8, 5⟩) ∧
    decode (0b000000#6 ++ 0b101000#6 ++ 0b001010#6 ++ 0b01110#5 ++ 0b1#1 ++ 0b11111#5 ++ 0b010#3) = .ok (.ctxload ⟨40, 10, true, 31, 2⟩) ∧
    decode (0b000000#6 ++ 0b100111#6 ++ 0b000110#6 ++ 0b10000000000#11 ++ 0b111#3) = .ok (.seatctlStat ⟨39, 6, 7⟩) ∧
    decode (0b000000#6 ++ 0b001110#6 ++ 0b001010#6 ++ 0b10000000001#11 ++ 0b110#3) = .ok (.seatctlStop ⟨14, 10, 6⟩) ∧
    decode (0b000000#6 ++ 0b010000#6 ++ 0b111000#6 ++ 0b10000000010#11 ++ 0b010#3) = .ok (.seatctlStart ⟨16, 56, 2⟩) ∧
    decode (0b000000#6 ++ 0b011010#6 ++ 0b101100#6 ++ 0b10000000011#11 ++ 0b110#3) = .ok (.seatctlWake ⟨26, 44, 6⟩) := by decide

/-- Major 0x01 (R240, R241): one word of each row, its fields written out from the high bits down. -/
theorem test_decode_alu :
    decode (0b000001#6 ++ 0b101000#6 ++ 0b010001#6 ++ 0b110000#6 ++ 0b1#1 ++ 0b1#1 ++ 0b000#3 ++ 0b111#3) = .ok (.add ⟨40, 17, 48, true, true, 7⟩) ∧
    decode (0b000001#6 ++ 0b100011#6 ++ 0b010111#6 ++ 0b100000#6 ++ 0b1#1 ++ 0b1#1 ++ 0b001#3 ++ 0b101#3) = .ok (.sub ⟨35, 23, 32, true, true, 5⟩) ∧
    decode (0b000001#6 ++ 0b111000#6 ++ 0b011011#6 ++ 0b000101#6 ++ 0b1#1 ++ 0b1#1 ++ 0b010#3 ++ 0b001#3) = .ok (.and ⟨56, 27, 5, true, true, 1⟩) ∧
    decode (0b000001#6 ++ 0b110110#6 ++ 0b011100#6 ++ 0b011101#6 ++ 0b1#1 ++ 0b1#1 ++ 0b011#3 ++ 0b111#3) = .ok (.or ⟨54, 28, 29, true, true, 7⟩) ∧
    decode (0b000001#6 ++ 0b011011#6 ++ 0b111110#6 ++ 0b100010#6 ++ 0b1#1 ++ 0b1#1 ++ 0b100#3 ++ 0b010#3) = .ok (.xor ⟨27, 62, 34, true, true, 2⟩) ∧
    decode (0b000001#6 ++ 0b110111#6 ++ 0b011110#6 ++ 0b101001#6 ++ 0b1#1 ++ 0b1#1 ++ 0b101#3 ++ 0b011#3) = .ok (.andn ⟨55, 30, 41, true, true, 3⟩) ∧
    decode (0b000001#6 ++ 0b111110#6 ++ 0b100110#6 ++ 0b110101#6 ++ 0b1#1 ++ 0b1#1 ++ 0b110#3 ++ 0b001#3) = .ok (.orn ⟨62, 38, 53, true, true, 1⟩) ∧
    decode (0b000001#6 ++ 0b010011#6 ++ 0b111010#6 ++ 0b110010#6 ++ 0b1#1 ++ 0b1#1 ++ 0b111#3 ++ 0b110#3) = .ok (.xnor ⟨19, 58, 50, true, true, 6⟩) := by decide

/-- Major 0x02 (R240, R241): one word of each row, its fields written out from the high bits down. -/
theorem test_decode_shm :
    decode (0b000010#6 ++ 0b111110#6 ++ 0b001110#6 ++ 0b111111#6 ++ 0b1#1 ++ 0b1#1 ++ 0b000#3 ++ 0b100#3) = .ok (.shl ⟨62, 14, 63, true, true, 4⟩) ∧
    decode (0b000010#6 ++ 0b000011#6 ++ 0b001110#6 ++ 0b010101#6 ++ 0b1#1 ++ 0b1#1 ++ 0b001#3 ++ 0b101#3) = .ok (.shr ⟨3, 14, 21, true, true, 5⟩) ∧
    decode (0b000010#6 ++ 0b110001#6 ++ 0b101000#6 ++ 0b000010#6 ++ 0b1#1 ++ 0b1#1 ++ 0b010#3 ++ 0b010#3) = .ok (.sar ⟨49, 40, 2, true, true, 2⟩) ∧
    decode (0b000010#6 ++ 0b111101#6 ++ 0b110101#6 ++ 0b001110#6 ++ 0b1#1 ++ 0b1#1 ++ 0b011#3 ++ 0b111#3) = .ok (.rol ⟨61, 53, 14, true, true, 7⟩) ∧
    decode (0b000010#6 ++ 0b010011#6 ++ 0b110110#6 ++ 0b001111#6 ++ 0b1#1 ++ 0b1#1 ++ 0b100#3 ++ 0b001#3) = .ok (.min ⟨19, 54, 15, true, true, 1⟩) ∧
    decode (0b000010#6 ++ 0b101100#6 ++ 0b111101#6 ++ 0b101101#6 ++ 0b1#1 ++ 0b1#1 ++ 0b101#3 ++ 0b111#3) = .ok (.max ⟨44, 61, 45, true, true, 7⟩) ∧
    decode (0b000010#6 ++ 0b010010#6 ++ 0b100101#6 ++ 0b001010#6 ++ 0b1#1 ++ 0b1#1 ++ 0b110#3 ++ 0b101#3) = .ok (.minu ⟨18, 37, 10, true, true, 5⟩) ∧
    decode (0b000010#6 ++ 0b100101#6 ++ 0b111010#6 ++ 0b111100#6 ++ 0b1#1 ++ 0b1#1 ++ 0b111#3 ++ 0b010#3) = .ok (.maxu ⟨37, 58, 60, true, true, 2⟩) := by decide

/-- Major 0x03 (R240, R241): one word of each row, its fields written out from the high bits down. -/
theorem test_decode_mul :
    decode (0b000011#6 ++ 0b000011#6 ++ 0b111011#6 ++ 0b010000#6 ++ 0b1#1 ++ 0b1#1 ++ 0b000#3 ++ 0b100#3) = .ok (.mul ⟨3, 59, 16, true, true, 4⟩) ∧
    decode (0b000011#6 ++ 0b010100#6 ++ 0b110100#6 ++ 0b101101#6 ++ 0b1#1 ++ 0b1#1 ++ 0b001#3 ++ 0b100#3) = .ok (.mulh ⟨20, 52, 45, true, true, 4⟩) ∧
    decode (0b000011#6 ++ 0b100000#6 ++ 0b111000#6 ++ 0b001110#6 ++ 0b1#1 ++ 0b1#1 ++ 0b010#3 ++ 0b011#3) = .ok (.mulhu ⟨32, 56, 14, true, true, 3⟩) ∧
    decode (0b000011#6 ++ 0b110010#6 ++ 0b101000#6 ++ 0b001101#6 ++ 0b1#1 ++ 0b1#1 ++ 0b011#3 ++ 0b001#3) = .ok (.mulhsu ⟨50, 40, 13, true, true, 1⟩) ∧
    decode (0b000011#6 ++ 0b011011#6 ++ 0b100100#6 ++ 0b011011#6 ++ 0b1#1 ++ 0b1#1 ++ 0b100#3 ++ 0b001#3) = .ok (.div ⟨27, 36, 27, true, true, 1⟩) ∧
    decode (0b000011#6 ++ 0b001100#6 ++ 0b010111#6 ++ 0b100010#6 ++ 0b1#1 ++ 0b1#1 ++ 0b101#3 ++ 0b100#3) = .ok (.divu ⟨12, 23, 34, true, true, 4⟩) ∧
    decode (0b000011#6 ++ 0b001101#6 ++ 0b111110#6 ++ 0b011000#6 ++ 0b1#1 ++ 0b1#1 ++ 0b110#3 ++ 0b001#3) = .ok (.rem ⟨13, 62, 24, true, true, 1⟩) ∧
    decode (0b000011#6 ++ 0b000111#6 ++ 0b111101#6 ++ 0b101000#6 ++ 0b1#1 ++ 0b1#1 ++ 0b111#3 ++ 0b011#3) = .ok (.remu ⟨7, 61, 40, true, true, 3⟩) := by decide

/-- Major 0x04 (R240, R241): one word of each row, its fields written out from the high bits down. -/
theorem test_decode_bit :
    decode (0b000100#6 ++ 0b010110#6 ++ 0b000100#6 ++ 0b000000#6 ++ 0b1#1 ++ 0b0000#4 ++ 0b101#3) = .ok (.clz ⟨22, 4, true, 5⟩) ∧
    decode (0b000100#6 ++ 0b010100#6 ++ 0b100111#6 ++ 0b000000#6 ++ 0b1#1 ++ 0b0001#4 ++ 0b001#3) = .ok (.ctz ⟨20, 39, true, 1⟩) ∧
    decode (0b000100#6 ++ 0b100000#6 ++ 0b111010#6 ++ 0b000000#6 ++ 0b1#1 ++ 0b0010#4 ++ 0b001#3) = .ok (.popc ⟨32, 58, true, 1⟩) ∧
    decode (0b000100#6 ++ 0b010010#6 ++ 0b010001#6 ++ 0b000000#6 ++ 0b1#1 ++ 0b0011#4 ++ 0b111#3) = .ok (.brev ⟨18, 17, true, 7⟩) ∧
    decode (0b000100#6 ++ 0b001101#6 ++ 0b011011#6 ++ 0b000000#6 ++ 0b1#1 ++ 0b0100#4 ++ 0b101#3) = .ok (.bswap ⟨13, 27, true, 5⟩) ∧
    decode (0b000100#6 ++ 0b010001#6 ++ 0b111001#6 ++ 0b111011#6 ++ 0b1#1 ++ 0b1#1 ++ 0b101#3 ++ 0b110#3) = .ok (.sext ⟨17, 57, 59, true, true, 6⟩) ∧
    decode (0b000100#6 ++ 0b101011#6 ++ 0b010010#6 ++ 0b010100#6 ++ 0b1#1 ++ 0b1#1 ++ 0b110#3 ++ 0b001#3) = .ok (.zext ⟨43, 18, 20, true, true, 1⟩) ∧
    decode (0b000100#6 ++ 0b011101#6 ++ 0b000100#6 ++ 0b000000#6 ++ 0b1#1 ++ 0b0111#4 ++ 0b010#3) = .ok (.abs ⟨29, 4, true, 2⟩) := by decide

/-- Major 0x05 (R240, R241): one word of each row, its fields written out from the high bits down. -/
theorem test_decode_cmp :
    decode (0b000101#6 ++ 0b001#3 ++ 0b101#3 ++ 0b010010#6 ++ 0b111101#6 ++ 0b1#1 ++ 0b1#1 ++ 0b000#3 ++ 0b100#3) = .ok (.cmpEq ⟨1, 5, 18, 61, true, true, 4⟩) ∧
    decode (0b000101#6 ++ 0b010#3 ++ 0b011#3 ++ 0b000111#6 ++ 0b101111#6 ++ 0b1#1 ++ 0b1#1 ++ 0b001#3 ++ 0b001#3) = .ok (.cmpNe ⟨2, 3, 7, 47, true, true, 1⟩) ∧
    decode (0b000101#6 ++ 0b011#3 ++ 0b001#3 ++ 0b110100#6 ++ 0b011110#6 ++ 0b1#1 ++ 0b1#1 ++ 0b010#3 ++ 0b001#3) = .ok (.cmpLt ⟨3, 1, 52, 30, true, true, 1⟩) ∧
    decode (0b000101#6 ++ 0b011#3 ++ 0b111#3 ++ 0b101110#6 ++ 0b011111#6 ++ 0b1#1 ++ 0b1#1 ++ 0b011#3 ++ 0b111#3) = .ok (.cmpGe ⟨3, 7, 46, 31, true, true, 7⟩) ∧
    decode (0b000101#6 ++ 0b010#3 ++ 0b100#3 ++ 0b001111#6 ++ 0b110001#6 ++ 0b1#1 ++ 0b1#1 ++ 0b100#3 ++ 0b001#3) = .ok (.cmpLtu ⟨2, 4, 15, 49, true, true, 1⟩) ∧
    decode (0b000101#6 ++ 0b011#3 ++ 0b100#3 ++ 0b011101#6 ++ 0b100110#6 ++ 0b1#1 ++ 0b1#1 ++ 0b101#3 ++ 0b001#3) = .ok (.cmpGeu ⟨3, 4, 29, 38, true, true, 1⟩) ∧
    decode (0b000101#6 ++ 0b010#3 ++ 0b110#3 ++ 0b101010#6 ++ 0b111001#6 ++ 0b1#1 ++ 0b1#1 ++ 0b110#3 ++ 0b010#3) = .ok (.cmpTst ⟨2, 6, 42, 57, true, true, 2⟩) ∧
    decode (0b000101#6 ++ 0b010#3 ++ 0b011#3 ++ 0b001101#6 ++ 0b001010#6 ++ 0b1#1 ++ 0b1#1 ++ 0b111#3 ++ 0b011#3) = .ok (.cmpTstn ⟨2, 3, 13, 10, true, true, 3⟩) := by decide

/-- Major 0x06 (R240, R241): one word of each row, its fields written out from the high bits down. -/
theorem test_decode_adr :
    decode (0b000110#6 ++ 0b000100#6 ++ 0b000110#6 ++ 0b110100#6 ++ 0b1#1 ++ 0b1#1 ++ 0b000#3 ++ 0b111#3) = .ok (.lea1 ⟨4, 6, 52, true, true, 7⟩) ∧
    decode (0b000110#6 ++ 0b010011#6 ++ 0b101101#6 ++ 0b100010#6 ++ 0b1#1 ++ 0b1#1 ++ 0b001#3 ++ 0b110#3) = .ok (.lea2 ⟨19, 45, 34, true, true, 6⟩) ∧
    decode (0b000110#6 ++ 0b101111#6 ++ 0b111001#6 ++ 0b000111#6 ++ 0b1#1 ++ 0b1#1 ++ 0b010#3 ++ 0b100#3) = .ok (.lea4 ⟨47, 57, 7, true, true, 4⟩) ∧
    decode (0b000110#6 ++ 0b000111#6 ++ 0b011011#6 ++ 0b101011#6 ++ 0b1#1 ++ 0b1#1 ++ 0b011#3 ++ 0b010#3) = .ok (.lea8 ⟨7, 27, 43, true, true, 2⟩) ∧
    decode (0b000110#6 ++ 0b100111#6 ++ 0b000011#6 ++ 0b010011#6 ++ 0b1#1 ++ 0b1#1 ++ 0b100#3 ++ 0b111#3) = .ok (.adds ⟨39, 3, 19, true, true, 7⟩) ∧
    decode (0b000110#6 ++ 0b111110#6 ++ 0b111011#6 ++ 0b011100#6 ++ 0b1#1 ++ 0b1#1 ++ 0b101#3 ++ 0b111#3) = .ok (.subs ⟨62, 59, 28, true, true, 7⟩) ∧
    decode (0b000110#6 ++ 0b110000#6 ++ 0b110011#6 ++ 0b110011#6 ++ 0b1#1 ++ 0b1#1 ++ 0b110#3 ++ 0b010#3) = .ok (.addus ⟨48, 51, 51, true, true, 2⟩) ∧
    decode (0b000110#6 ++ 0b110110#6 ++ 0b101001#6 ++ 0b001011#6 ++ 0b1#1 ++ 0b1#1 ++ 0b111#3 ++ 0b110#3) = .ok (.subus ⟨54, 41, 11, true, true, 6⟩) := by decide

/-- Major 0x0c (R240, R241): one word of each row, its fields written out from the high bits down. -/
theorem test_decode_shi :
    decode (0b001100#6 ++ 0b011110#6 ++ 0b111000#6 ++ 0b1#1 ++ 0b0000#4 ++ 0b001100#6 ++ 0b010#3) = .ok (.shli ⟨30, 56, true, 12, 2⟩) ∧
    decode (0b001100#6 ++ 0b101101#6 ++ 0b101001#6 ++ 0b1#1 ++ 0b0010#4 ++ 0b010010#6 ++ 0b001#3) = .ok (.shri ⟨45, 41, true, 18, 1⟩) ∧
    decode (0b001100#6 ++ 0b101010#6 ++ 0b111110#6 ++ 0b1#1 ++ 0b0100#4 ++ 0b001110#6 ++ 0b100#3) = .ok (.sari ⟨42, 62, true, 14, 4⟩) ∧
    decode (0b001100#6 ++ 0b001111#6 ++ 0b100101#6 ++ 0b1#1 ++ 0b0110#4 ++ 0b111101#6 ++ 0b010#3) = .ok (.roli ⟨15, 37, true, 61, 2⟩) := by decide

/-- Major 0x0d (R240, R241): one word of each row, its fields written out from the high bits down. -/
theorem test_decode_cmpi :
    decode (0b001101#6 ++ 0b011#3 ++ 0b101#3 ++ 0b011010#6 ++ 0b1#1 ++ 0b000#3 ++ 0b0100100#7 ++ 0b111#3) = .ok (.cmpiEq ⟨3, 5, 26, true, 36, 7⟩) ∧
    decode (0b001101#6 ++ 0b011#3 ++ 0b010#3 ++ 0b101101#6 ++ 0b1#1 ++ 0b001#3 ++ 0b0001011#7 ++ 0b100#3) = .ok (.cmpiNe ⟨3, 2, 45, true, 11, 4⟩) ∧
    decode (0b001101#6 ++ 0b010#3 ++ 0b010#3 ++ 0b111101#6 ++ 0b1#1 ++ 0b010#3 ++ 0b0111010#7 ++ 0b001#3) = .ok (.cmpiLt ⟨2, 2, 61, true, 58, 1⟩) ∧
    decode (0b001101#6 ++ 0b010#3 ++ 0b010#3 ++ 0b011000#6 ++ 0b1#1 ++ 0b011#3 ++ 0b1111001#7 ++ 0b010#3) = .ok (.cmpiGe ⟨2, 2, 24, true, 121, 2⟩) ∧
    decode (0b001101#6 ++ 0b011#3 ++ 0b100#3 ++ 0b101010#6 ++ 0b1#1 ++ 0b100#3 ++ 0b0011010#7 ++ 0b011#3) = .ok (.cmpiLtu ⟨3, 4, 42, true, 26, 3⟩) ∧
    decode (0b001101#6 ++ 0b010#3 ++ 0b011#3 ++ 0b000001#6 ++ 0b1#1 ++ 0b101#3 ++ 0b1000001#7 ++ 0b010#3) = .ok (.cmpiGeu ⟨2, 3, 1, true, 65, 2⟩) ∧
    decode (0b001101#6 ++ 0b001#3 ++ 0b010#3 ++ 0b001101#6 ++ 0b1#1 ++ 0b110#3 ++ 0b1110011#7 ++ 0b001#3) = .ok (.cmpiTst ⟨1, 2, 13, true, 115, 1⟩) ∧
    decode (0b001101#6 ++ 0b010#3 ++ 0b011#3 ++ 0b000110#6 ++ 0b1#1 ++ 0b111#3 ++ 0b1100011#7 ++ 0b110#3) = .ok (.cmpiTstn ⟨2, 3, 6, true, 99, 6⟩) := by decide

/-- Major 0x16 (R240, R241): one word of each row, its fields written out from the high bits down. -/
theorem test_decode_jmp :
    decode (0b010110000000#12 ++ 0b001011#6 ++ 0b000000#6 ++ 0b1#1 ++ 0b0000#4 ++ 0b100#3) = .ok (.jr ⟨11, true, 4⟩) ∧
    decode (0b010110#6 ++ 0b000111#6 ++ 0b010101#6 ++ 0b000000#6 ++ 0b1#1 ++ 0b0001#4 ++ 0b100#3) = .ok (.jalr ⟨7, 21, true, 4⟩) ∧
    decode (0b01011000000000000000000000010#29 ++ 0b001#3) = .ok (.ret ⟨1⟩) := by decide

/-- Major 0x18 (R240, R241): one word of each row, its fields written out from the high bits down. -/
theorem test_decode_prd :
    decode (0b011000000#9 ++ 0b011#3 ++ 0b000#3 ++ 0b101#3 ++ 0b000#3 ++ 0b101#3 ++ 0b00000#5 ++ 0b110#3) = .ok (.pand ⟨3, 5, 5, 6⟩) ∧
    decode (0b011000000#9 ++ 0b111#3 ++ 0b000#3 ++ 0b011#3 ++ 0b000#3 ++ 0b110#3 ++ 0b00001#5 ++ 0b010#3) = .ok (.por ⟨7, 3, 6, 2⟩) ∧
    decode (0b011000000#9 ++ 0b111#3 ++ 0b000#3 ++ 0b110#3 ++ 0b000#3 ++ 0b011#3 ++ 0b00010#5 ++ 0b111#3) = .ok (.pxor ⟨7, 6, 3, 7⟩) ∧
    decode (0b011000000#9 ++ 0b101#3 ++ 0b000#3 ++ 0b101#3 ++ 0b00000000011#11 ++ 0b100#3) = .ok (.pnot ⟨5, 5, 4⟩) ∧
    decode (0b011000#6 ++ 0b111100#6 ++ 0b00000000000000100#17 ++ 0b010#3) = .ok (.pget ⟨60, 2⟩) ∧
    decode (0b011000000000#12 ++ 0b100111#6 ++ 0b000000#6 ++ 0b1#1 ++ 0b0101#4 ++ 0b011#3) = .ok (.pset ⟨39, true, 3⟩) ∧
    decode (0b0110000000#10 ++ 0b01#2 ++ 0b0000#4 ++ 0b10#2 ++ 0b00000000110#11 ++ 0b001#3) = .ok (.kmov ⟨1, 2, 1⟩) := by decide

/-- Major 0x26 (R240, R241): one word of each row, its fields written out from the high bits down. -/
theorem test_decode_sync :
    decode (0b100110#6 ++ 0b000111#6 ++ 0b010110#6 ++ 0b1#1 ++ 0b00#2 ++ 0b00101110#8 ++ 0b001#3) = .ok (.ldw ⟨7, 22, true, 46, 1⟩) ∧
    decode (0b100110#6 ++ 0b000010#6 ++ 0b100000#6 ++ 0b1#1 ++ 0b01#2 ++ 0b10000000#8 ++ 0b001#3) = .ok (.lde ⟨2, 32, true, 128, 1⟩) ∧
    decode (0b100110#6 ++ 0b001010#6 ++ 0b100011#6 ++ 0b1#1 ++ 0b10#2 ++ 0b10100011#8 ++ 0b111#3) = .ok (.stf ⟨10, 35, true, 163, 7⟩) ∧
    decode (0b100110000000#12 ++ 0b111110#6 ++ 0b1#1 ++ 0b11#2 ++ 0b11010011#8 ++ 0b001#3) = .ok (.sete ⟨62, true, 211, 1⟩) := by decide

/-- Major 0x27 (R240, R241): one word of each row, its fields written out from the high bits down. -/
theorem test_decode_rmt :
    decode (0b100111#6 ++ 0b100001#6 ++ 0b110010#6 ++ 0b1#1 ++ 0b00#2 ++ 0b01000101#8 ++ 0b011#3) = .ok (.ldr ⟨33, 50, true, 69, 3⟩) ∧
    decode (0b100111#6 ++ 0b111101#6 ++ 0b110001#6 ++ 0b1#1 ++ 0b01#2 ++ 0b10011001#8 ++ 0b111#3) = .ok (.str ⟨61, 49, true, 153, 7⟩) ∧
    decode (0b100111#6 ++ 0b100101#6 ++ 0b011100#6 ++ 0b1#1 ++ 0b10#2 ++ 0b11111011#8 ++ 0b100#3) = .ok (.ldre ⟨37, 28, true, 251, 4⟩) ∧
    decode (0b100111#6 ++ 0b101010#6 ++ 0b101100#6 ++ 0b1#1 ++ 0b11#2 ++ 0b01001111#8 ++ 0b100#3) = .ok (.strf ⟨42, 44, true, 79, 4⟩) := by decide

/-- Major 0x28 (R240, R241): one word of each row, its fields written out from the high bits down. -/
theorem test_decode_atl :
    decode (0b101000#6 ++ 0b110001#6 ++ 0b100101#6 ++ 0b010000#6 ++ 0b1#1 ++ 0b1#1 ++ 0b000#3 ++ 0b110#3) = .ok (.faal ⟨49, 37, 16, true, true, 6⟩) ∧
    decode (0b101000#6 ++ 0b011010#6 ++ 0b111111#6 ++ 0b110100#6 ++ 0b1#1 ++ 0b1#1 ++ 0b001#3 ++ 0b110#3) = .ok (.swapl ⟨26, 63, 52, true, true, 6⟩) ∧
    decode (0b101000#6 ++ 0b000100#6 ++ 0b111000#6 ++ 0b101101#6 ++ 0b1#1 ++ 0b1#1 ++ 0b010#3 ++ 0b101#3) = .ok (.casl ⟨4, 56, 45, true, true, 5⟩) ∧
    decode (0b101000#6 ++ 0b101101#6 ++ 0b000111#6 ++ 0b100011#6 ++ 0b1#1 ++ 0b1#1 ++ 0b011#3 ++ 0b010#3) = .ok (.fandl ⟨45, 7, 35, true, true, 2⟩) ∧
    decode (0b101000#6 ++ 0b101010#6 ++ 0b001011#6 ++ 0b100000#6 ++ 0b1#1 ++ 0b1#1 ++ 0b100#3 ++ 0b001#3) = .ok (.forl ⟨42, 11, 32, true, true, 1⟩) ∧
    decode (0b101000#6 ++ 0b001001#6 ++ 0b010110#6 ++ 0b101000#6 ++ 0b1#1 ++ 0b1#1 ++ 0b101#3 ++ 0b011#3) = .ok (.fxorl ⟨9, 22, 40, true, true, 3⟩) ∧
    decode (0b101000#6 ++ 0b000010#6 ++ 0b010100#6 ++ 0b000101#6 ++ 0b1#1 ++ 0b1#1 ++ 0b110#3 ++ 0b100#3) = .ok (.fminl ⟨2, 20, 5, true, true, 4⟩) ∧
    decode (0b101000#6 ++ 0b100101#6 ++ 0b100111#6 ++ 0b011101#6 ++ 0b1#1 ++ 0b1#1 ++ 0b111#3 ++ 0b011#3) = .ok (.fmaxl ⟨37, 39, 29, true, true, 3⟩) := by decide

/-- Major 0x29 (R240, R241): one word of each row, its fields written out from the high bits down. -/
theorem test_decode_atg :
    decode (0b101001#6 ++ 0b010101#6 ++ 0b101000#6 ++ 0b101110#6 ++ 0b1#1 ++ 0b1#1 ++ 0b000#3 ++ 0b010#3) = .ok (.faa ⟨21, 40, 46, true, true, 2⟩) ∧
    decode (0b101001#6 ++ 0b111110#6 ++ 0b111011#6 ++ 0b101000#6 ++ 0b1#1 ++ 0b1#1 ++ 0b001#3 ++ 0b110#3) = .ok (.swap ⟨62, 59, 40, true, true, 6⟩) ∧
    decode (0b101001#6 ++ 0b111001#6 ++ 0b110100#6 ++ 0b011100#6 ++ 0b1#1 ++ 0b1#1 ++ 0b010#3 ++ 0b010#3) = .ok (.cas ⟨57, 52, 28, true, true, 2⟩) ∧
    decode (0b101001#6 ++ 0b110000#6 ++ 0b110110#6 ++ 0b000000#6 ++ 0b1#1 ++ 0b0011#4 ++ 0b001#3) = .ok (.lr ⟨48, 54, true, 1⟩) ∧
    decode (0b101001#6 ++ 0b100110#6 ++ 0b100100#6 ++ 0b101000#6 ++ 0b1#1 ++ 0b1#1 ++ 0b100#3 ++ 0b011#3) = .ok (.sc ⟨38, 36, 40, true, true, 3⟩) ∧
    decode (0b101001#6 ++ 0b100000#6 ++ 0b100101#6 ++ 0b110111#6 ++ 0b1#1 ++ 0b1#1 ++ 0b101#3 ++ 0b111#3) = .ok (.amax ⟨32, 37, 55, true, true, 7⟩) ∧
    decode (0b101001#6 ++ 0b001110#6 ++ 0b000011#6 ++ 0b111111#6 ++ 0b1#1 ++ 0b1#1 ++ 0b110#3 ++ 0b101#3) = .ok (.waitrs ⟨14, 3, 63, true, true, 5⟩) ∧
    decode (0b101001000000#12 ++ 0b111111#6 ++ 0b000000#6 ++ 0b1#1 ++ 0b0111#4 ++ 0b110#3) = .ok (.rsvrel ⟨63, true, 6⟩) := by decide

/-- Major 0x2a (R240, R241): one word of each row, its fields written out from the high bits down. -/
theorem test_decode_red :
    decode (0b10101000000#11 ++ 0b1#1 ++ 0b010111#6 ++ 0b010001#6 ++ 0b1#1 ++ 0b1#1 ++ 0b000#3 ++ 0b111#3) = .ok (.raddI64 ⟨true, 23, 17, true, true, 7⟩) ∧
    decode (0b10101000000#11 ++ 0b1#1 ++ 0b010100#6 ++ 0b010001#6 ++ 0b1#1 ++ 0b1#1 ++ 0b001#3 ++ 0b011#3) = .ok (.raddF32 ⟨true, 20, 17, true, true, 3⟩) ∧
    decode (0b10101000000#11 ++ 0b1#1 ++ 0b111010#6 ++ 0b110101#6 ++ 0b1#1 ++ 0b1#1 ++ 0b010#3 ++ 0b010#3) = .ok (.raddF64 ⟨true, 58, 53, true, true, 2⟩) ∧
    decode (0b10101000000#11 ++ 0b1#1 ++ 0b000001#6 ++ 0b010100#6 ++ 0b1#1 ++ 0b1#1 ++ 0b011#3 ++ 0b101#3) = .ok (.rmin ⟨true, 1, 20, true, true, 5⟩) ∧
    decode (0b10101000000#11 ++ 0b1#1 ++ 0b011010#6 ++ 0b100000#6 ++ 0b1#1 ++ 0b1#1 ++ 0b100#3 ++ 0b100#3) = .ok (.rmax ⟨true, 26, 32, true, true, 4⟩) ∧
    decode (0b10101000000#11 ++ 0b1#1 ++ 0b111001#6 ++ 0b000011#6 ++ 0b1#1 ++ 0b1#1 ++ 0b101#3 ++ 0b111#3) = .ok (.rand ⟨true, 57, 3, true, true, 7⟩) ∧
    decode (0b10101000000#11 ++ 0b1#1 ++ 0b000110#6 ++ 0b110011#6 ++ 0b1#1 ++ 0b1#1 ++ 0b110#3 ++ 0b010#3) = .ok (.ror ⟨true, 6, 51, true, true, 2⟩) ∧
    decode (0b10101000000#11 ++ 0b1#1 ++ 0b101101#6 ++ 0b100000#6 ++ 0b1#1 ++ 0b1#1 ++ 0b111#3 ++ 0b011#3) = .ok (.rxor ⟨true, 45, 32, true, true, 3⟩) := by decide

/-- Major 0x2b (R240, R241): one word of each row, its fields written out from the high bits down. -/
theorem test_decode_fen :
    decode (0b1010110000000000000000#22 ++ 0b01#2 ++ 0b10101#5 ++ 0b011#3) = .ok (.fence ⟨1, 21, 3⟩) ∧
    decode (0b1010110000000000000001#22 ++ 0b011#3 ++ 0b0000#4 ++ 0b110#3) = .ok (.bar ⟨3, 6⟩) := by decide

/-- Major 0x2c (R240, R241): one word of each row, its fields written out from the high bits down. -/
theorem test_decode_qop :
    decode (0b101100000000#12 ++ 0b110110#6 ++ 0b0000#4 ++ 0b100#3 ++ 0b1100#4 ++ 0b010#3) = .ok (.qbind ⟨54, 4, 12, 2⟩) ∧
    decode (0b101100#6 ++ 0b011010#6 ++ 0b0000000001000#13 ++ 0b0010#4 ++ 0b111#3) = .ok (.qstat ⟨26, 2, 7⟩) ∧
    decode (0b101100#6 ++ 0b110010#6 ++ 0b0000000010000#13 ++ 0b0101#4 ++ 0b110#3) = .ok (.qflush ⟨50, 5, 6⟩) ∧
    decode (0b101100#6 ++ 0b100100#6 ++ 0b0000000011000#13 ++ 0b0101#4 ++ 0b010#3) = .ok (.qunbind ⟨36, 5, 2⟩) := by decide

/-- Major 0x30 (R240, R241): one word of each row, its fields written out from the high bits down. -/
theorem test_decode_vmem :
    decode (0b110000#6 ++ 0b1010#4 ++ 0b010111#6 ++ 0b01100#5 ++ 0b000#3 ++ 0b11#2 ++ 0b000#3 ++ 0b100#3) = .ok (.vldl ⟨10, 23, 12, 3, 4⟩) ∧
    decode (0b110000#6 ++ 0b1010#4 ++ 0b100010#6 ++ 0b00011#5 ++ 0b001#3 ++ 0b01#2 ++ 0b000#3 ++ 0b111#3) = .ok (.vstl ⟨10, 34, 3, 1, 7⟩) ∧
    decode (0b110000#6 ++ 0b1000#4 ++ 0b101111#6 ++ 0b11100#5 ++ 0b010#3 ++ 0b01#2 ++ 0b000#3 ++ 0b100#3) = .ok (.vldg ⟨8, 47, 28, 1, 4⟩) ∧
    decode (0b110000#6 ++ 0b1011#4 ++ 0b100101#6 ++ 0b11011#5 ++ 0b011#3 ++ 0b01#2 ++ 0b000#3 ++ 0b101#3) = .ok (.vstg ⟨11, 37, 27, 1, 5⟩) ∧
    decode (0b110000#6 ++ 0b1100#4 ++ 0b100001#6 ++ 0b11000#5 ++ 0b100#3 ++ 0b10#2 ++ 0b000#3 ++ 0b100#3) = .ok (.vgatl ⟨12, 33, 24, 2, 4⟩) ∧
    decode (0b110000#6 ++ 0b1000#4 ++ 0b101101#6 ++ 0b11001#5 ++ 0b101#3 ++ 0b10#2 ++ 0b000#3 ++ 0b101#3) = .ok (.vscal ⟨8, 45, 25, 2, 5⟩) ∧
    decode (0b110000#6 ++ 0b1011#4 ++ 0b010110#6 ++ 0b10100#5 ++ 0b110#3 ++ 0b10#2 ++ 0b010#3 ++ 0b110#3) = .ok (.vldb ⟨11, 22, 20, 2, 2, 6⟩) := by decide

/-- Major 0x31 (R240, R241): one word of each row, its fields written out from the high bits down. -/
theorem test_decode_vfa :
    decode (0b110001#6 ++ 0b0100#4 ++ 0b1000#4 ++ 0b1011#4 ++ 0b100#3 ++ 0b000#3 ++ 0b01#2 ++ 0b010#3 ++ 0b010#3) = .ok (.vfaVadd ⟨4, 8, 11, 4, 1, 2, 2⟩) ∧
    decode (0b110001#6 ++ 0b1001#4 ++ 0b0101#4 ++ 0b1011#4 ++ 0b100#3 ++ 0b001#3 ++ 0b01#2 ++ 0b101#3 ++ 0b101#3) = .ok (.vfaVsub ⟨9, 5, 11, 4, 1, 5, 5⟩) ∧
    decode (0b110001#6 ++ 0b1110#4 ++ 0b1110#4 ++ 0b1011#4 ++ 0b100#3 ++ 0b010#3 ++ 0b11#2 ++ 0b001#3 ++ 0b011#3) = .ok (.vfaVmul ⟨14, 14, 11, 4, 3, 1, 3⟩) ∧
    decode (0b110001#6 ++ 0b1011#4 ++ 0b0110#4 ++ 0b1000#4 ++ 0b101#3 ++ 0b011#3 ++ 0b11#2 ++ 0b001#3 ++ 0b110#3) = .ok (.vfma ⟨11, 6, 8, 5, 3, 1, 6⟩) ∧
    decode (0b110001#6 ++ 0b1011#4 ++ 0b0001#4 ++ 0b0100#4 ++ 0b111#3 ++ 0b100#3 ++ 0b11#2 ++ 0b000#3 ++ 0b011#3) = .ok (.vfaVmin ⟨11, 1, 4, 7, 3, 3⟩) ∧
    decode (0b110001#6 ++ 0b0110#4 ++ 0b0001#4 ++ 0b1111#4 ++ 0b100#3 ++ 0b101#3 ++ 0b01#2 ++ 0b000#3 ++ 0b010#3) = .ok (.vfaVmax ⟨6, 1, 15, 4, 1, 2⟩) ∧
    decode (0b110001#6 ++ 0b0100#4 ++ 0b0010#4 ++ 0b0000#4 ++ 0b110#3 ++ 0b110#3 ++ 0b10#2 ++ 0b000#3 ++ 0b111#3) = .ok (.vabs ⟨4, 2, 6, 2, 7⟩) ∧
    decode (0b110001#6 ++ 0b0001#4 ++ 0b1101#4 ++ 0b0000#4 ++ 0b101#3 ++ 0b111#3 ++ 0b11#2 ++ 0b000#3 ++ 0b100#3) = .ok (.vneg ⟨1, 13, 5, 3, 4⟩) := by decide

/-- Major 0x32 (R240, R241): one word of each row, its fields written out from the high bits down. -/
theorem test_decode_via :
    decode (0b110010#6 ++ 0b1111#4 ++ 0b0010#4 ++ 0b1111#4 ++ 0b010#3 ++ 0b000#3 ++ 0b01#2 ++ 0b000#3 ++ 0b011#3) = .ok (.viaVadd ⟨15, 2, 15, 2, 1, 3⟩) ∧
    decode (0b110010#6 ++ 0b0111#4 ++ 0b0100#4 ++ 0b1111#4 ++ 0b010#3 ++ 0b001#3 ++ 0b01#2 ++ 0b000#3 ++ 0b011#3) = .ok (.viaVsub ⟨7, 4, 15, 2, 1, 3⟩) ∧
    decode (0b110010#6 ++ 0b1101#4 ++ 0b1000#4 ++ 0b0110#4 ++ 0b010#3 ++ 0b010#3 ++ 0b10#2 ++ 0b000#3 ++ 0b001#3) = .ok (.viaVmul ⟨13, 8, 6, 2, 2, 1⟩) ∧
    decode (0b110010#6 ++ 0b1100#4 ++ 0b0110#4 ++ 0b0111#4 ++ 0b011#3 ++ 0b011#3 ++ 0b10#2 ++ 0b000#3 ++ 0b111#3) = .ok (.vmad ⟨12, 6, 7, 3, 2, 7⟩) ∧
    decode (0b110010#6 ++ 0b0100#4 ++ 0b1111#4 ++ 0b1010#4 ++ 0b011#3 ++ 0b100#3 ++ 0b01#2 ++ 0b001#3 ++ 0b010#3) = .ok (.viaVmin ⟨4, 15, 10, 3, 1, 1, 2⟩) ∧
    decode (0b110010#6 ++ 0b1001#4 ++ 0b1001#4 ++ 0b0100#4 ++ 0b010#3 ++ 0b101#3 ++ 0b10#2 ++ 0b001#3 ++ 0b101#3) = .ok (.viaVmax ⟨9, 9, 4, 2, 2, 1, 5⟩) ∧
    decode (0b110010#6 ++ 0b0111#4 ++ 0b1010#4 ++ 0b1001#4 ++ 0b001#3 ++ 0b110#3 ++ 0b10#2 ++ 0b001#3 ++ 0b111#3) = .ok (.vadds ⟨7, 10, 9, 1, 2, 1, 7⟩) ∧
    decode (0b110010#6 ++ 0b0011#4 ++ 0b1000#4 ++ 0b0110#4 ++ 0b011#3 ++ 0b111#3 ++ 0b10#2 ++ 0b000#3 ++ 0b010#3) = .ok (.vshl ⟨3, 8, 6, 3, 2, 2⟩) := by decide

/-- Major 0x33 (R240, R241): one word of each row, its fields written out from the high bits down. -/
theorem test_decode_vcmp :
    decode (0b110011#6 ++ 0b01#2 ++ 0b11#2 ++ 0b0001#4 ++ 0b1011#4 ++ 0b010#3 ++ 0b000#3 ++ 0b10#2 ++ 0b001#3 ++ 0b110#3) = .ok (.vcmpEq ⟨1, 3, 1, 11, 2, 2, 1, 6⟩) ∧
    decode (0b110011#6 ++ 0b10#2 ++ 0b01#2 ++ 0b0011#4 ++ 0b1100#4 ++ 0b001#3 ++ 0b001#3 ++ 0b10#2 ++ 0b001#3 ++ 0b011#3) = .ok (.vcmpNe ⟨2, 1, 3, 12, 1, 2, 1, 3⟩) ∧
    decode (0b110011#6 ++ 0b10#2 ++ 0b01#2 ++ 0b0000#4 ++ 0b0010#4 ++ 0b000#3 ++ 0b010#3 ++ 0b00#2 ++ 0b000#3 ++ 0b001#3) = .ok (.vcmpLt ⟨2, 1, 0, 2, 0, 0, 0, 1⟩) ∧
    decode (0b110011#6 ++ 0b10#2 ++ 0b01#2 ++ 0b1111#4 ++ 0b0110#4 ++ 0b010#3 ++ 0b011#3 ++ 0b01#2 ++ 0b001#3 ++ 0b011#3) = .ok (.vcmpLe ⟨2, 1, 15, 6, 2, 1, 1, 3⟩) ∧
    decode (0b110011#6 ++ 0b10#2 ++ 0b11#2 ++ 0b0100#4 ++ 0b1001#4 ++ 0b011#3 ++ 0b100#3 ++ 0b11#2 ++ 0b001#3 ++ 0b111#3) = .ok (.vcmpGt ⟨2, 3, 4, 9, 3, 3, 1, 7⟩) ∧
    decode (0b110011#6 ++ 0b10#2 ++ 0b01#2 ++ 0b0001#4 ++ 0b0110#4 ++ 0b001#3 ++ 0b101#3 ++ 0b11#2 ++ 0b001#3 ++ 0b011#3) = .ok (.vcmpGe ⟨2, 1, 1, 6, 1, 3, 1, 3⟩) ∧
    decode (0b110011#6 ++ 0b10#2 ++ 0b11#2 ++ 0b1100#4 ++ 0b0111#4 ++ 0b101#3 ++ 0b110#3 ++ 0b01#2 ++ 0b000#3 ++ 0b100#3) = .ok (.vcmpUnord ⟨2, 3, 12, 7, 5, 1, 4⟩) := by decide

/-- Major 0x34 (R240, R241): one word of each row, its fields written out from the high bits down. -/
theorem test_decode_vxs :
    decode (0b110100#6 ++ 0b110101#6 ++ 0b1110#4 ++ 0b10#2 ++ 0b100#3 ++ 0b00000#5 ++ 0b010#3 ++ 0b101#3) = .ok (.vredadd ⟨53, 14, 2, 4, 2, 5⟩) ∧
    decode (0b110100#6 ++ 0b101101#6 ++ 0b1111#4 ++ 0b11#2 ++ 0b010#3 ++ 0b00100000#8 ++ 0b111#3) = .ok (.vredmax ⟨45, 15, 3, 2, 7⟩) ∧
    decode (0b110100#6 ++ 0b110101#6 ++ 0b1001#4 ++ 0b01#2 ++ 0b011#3 ++ 0b01000000#8 ++ 0b101#3) = .ok (.vredmin ⟨53, 9, 1, 3, 5⟩) ∧
    decode (0b110100#6 ++ 0b010110#6 ++ 0b0111#4 ++ 0b00#2 ++ 0b110#3 ++ 0b011#3 ++ 0b00110#5 ++ 0b010#3) = .ok (.vext ⟨22, 7, 6, 6, 2⟩) ∧
    decode (0b110100#6 ++ 0b110111#6 ++ 0b0101#4 ++ 0b00#2 ++ 0b001#3 ++ 0b100#3 ++ 0b11011#5 ++ 0b100#3) = .ok (.vins ⟨55, 5, 1, 27, 4⟩) ∧
    decode (0b110100#6 ++ 0b101001#6 ++ 0b0001#4 ++ 0b10#2 ++ 0b110#3 ++ 0b10100000#8 ++ 0b011#3) = .ok (.vbcst ⟨41, 1, 2, 6, 3⟩) ∧
    decode (0b110100#6 ++ 0b011111#6 ++ 0b0111#4 ++ 0b11#2 ++ 0b00011000000#11 ++ 0b111#3) = .ok (.vdot8 ⟨31, 7, 3, 7⟩) ∧
    decode (0b110100#6 ++ 0b010010#6 ++ 0b0000#4 ++ 0b01#2 ++ 0b110#3 ++ 0b11100000#8 ++ 0b111#3) = .ok (.vpopk ⟨18, 1, 6, 7⟩) := by decide

/-- Major 0x35 (R240, R241): one word of each row, its fields written out from the high bits down. -/
theorem test_decode_vprm :
    decode (0b110101#6 ++ 0b0001#4 ++ 0b0010#4 ++ 0b1010#4 ++ 0b010000#6 ++ 0b10#2 ++ 0b000#3 ++ 0b111#3) = .ok (.vsel ⟨1, 2, 10, 2, 7⟩) ∧
    decode (0b110101#6 ++ 0b0101#4 ++ 0b1001#4 ++ 0b0110#4 ++ 0b010#3 ++ 0b001#3 ++ 0b10#2 ++ 0b000#3 ++ 0b111#3) = .ok (.vshuf ⟨5, 9, 6, 2, 2, 7⟩) ∧
    decode (0b110101#6 ++ 0b1010#4 ++ 0b1000#4 ++ 0b0101#4 ++ 0b111#3 ++ 0b010#3 ++ 0b10#2 ++ 0b001#3 ++ 0b011#3) = .ok (.vzip ⟨10, 8, 5, 7, 2, 1, 3⟩) ∧
    decode (0b110101#6 ++ 0b1110#4 ++ 0b0100#4 ++ 0b0100#4 ++ 0b101#3 ++ 0b011#3 ++ 0b01#2 ++ 0b001#3 ++ 0b011#3) = .ok (.vunzip ⟨14, 4, 4, 5, 1, 1, 3⟩) ∧
    decode (0b110101#6 ++ 0b0111#4 ++ 0b0001#4 ++ 0b1101#4 ++ 0b010100#6 ++ 0b10#2 ++ 0b000#3 ++ 0b111#3) = .ok (.vand ⟨7, 1, 13, 2, 7⟩) ∧
    decode (0b110101#6 ++ 0b0001#4 ++ 0b1111#4 ++ 0b0001#4 ++ 0b010101#6 ++ 0b10#2 ++ 0b000#3 ++ 0b011#3) = .ok (.vor ⟨1, 15, 1, 2, 3⟩) ∧
    decode (0b110101#6 ++ 0b1100#4 ++ 0b0111#4 ++ 0b0010#4 ++ 0b010110#6 ++ 0b01#2 ++ 0b000#3 ++ 0b111#3) = .ok (.vxor ⟨12, 7, 2, 1, 7⟩) ∧
    decode (0b110101#6 ++ 0b1111#4 ++ 0b1100#4 ++ 0b0111#4 ++ 0b011#3 ++ 0b111#3 ++ 0b11#2 ++ 0b001#3 ++ 0b010#3) = .ok (.vshr ⟨15, 12, 7, 3, 3, 1, 2⟩) := by decide

/-- Major 0x36 (R240, R241): one word of each row, its fields written out from the high bits down. -/
theorem test_decode_vcvt :
    decode (0b110110#6 ++ 0b1001#4 ++ 0b1011#4 ++ 0b0000#4 ++ 0b100#3 ++ 0b000#3 ++ 0b11#2 ++ 0b110#3 ++ 0b110#3) = .ok (.cvt ⟨9, 11, 4, 3, 6, 6⟩) ∧
    decode (0b110110#6 ++ 0b0100#4 ++ 0b1111#4 ++ 0b0000#4 ++ 0b100#3 ++ 0b001000#6 ++ 0b01#2 ++ 0b011#3) = .ok (.qblk ⟨4, 15, 4, 1, 3⟩) ∧
    decode (0b110110#6 ++ 0b1100#4 ++ 0b0110#4 ++ 0b0000#4 ++ 0b110#3 ++ 0b01000000#8 ++ 0b001#3) = .ok (.dqblk ⟨12, 6, 6, 1⟩) ∧
    decode (0b110110#6 ++ 0b1010#4 ++ 0b1011#4 ++ 0b0000#4 ++ 0b101#3 ++ 0b011#3 ++ 0b11#2 ++ 0b100#3 ++ 0b111#3) = .ok (.vrnd ⟨10, 11, 5, 3, 4, 7⟩) := by decide

/-- Major 0x37 (R240, R241): one word of each row, its fields written out from the high bits down. -/
theorem test_decode_vsfu :
    decode (0b110111#6 ++ 0b1010#4 ++ 0b1110#4 ++ 0b0000#4 ++ 0b101#3 ++ 0b000#3 ++ 0b11#2 ++ 0b011#3 ++ 0b110#3) = .ok (.vrcp ⟨10, 14, 5, 3, 3, 6⟩) ∧
    decode (0b110111#6 ++ 0b1000#4 ++ 0b0110#4 ++ 0b0000#4 ++ 0b100#3 ++ 0b001#3 ++ 0b11#2 ++ 0b100#3 ++ 0b011#3) = .ok (.vrsq ⟨8, 6, 4, 3, 4, 3⟩) ∧
    decode (0b110111#6 ++ 0b0100#4 ++ 0b1000#4 ++ 0b0000#4 ++ 0b100#3 ++ 0b010#3 ++ 0b11#2 ++ 0b011#3 ++ 0b111#3) = .ok (.vex2 ⟨4, 8, 4, 3, 3, 7⟩) ∧
    decode (0b110111#6 ++ 0b1000#4 ++ 0b1110#4 ++ 0b0000#4 ++ 0b101#3 ++ 0b011#3 ++ 0b01#2 ++ 0b001#3 ++ 0b010#3) = .ok (.vlg2 ⟨8, 14, 5, 1, 1, 2⟩) ∧
    decode (0b110111#6 ++ 0b0100#4 ++ 0b1011#4 ++ 0b0000#4 ++ 0b101#3 ++ 0b100#3 ++ 0b10#2 ++ 0b100#3 ++ 0b001#3) = .ok (.vsqrt ⟨4, 11, 5, 2, 4, 1⟩) := by decide

/-- Major 0x38 (R240, R241): one word of each row, its fields written out from the high bits down. -/
theorem test_decode_mx :
    decode (0b111000#6 ++ 0b01#2 ++ 0b1000#4 ++ 0b001011#6 ++ 0b0000#4 ++ 0b0100001#7 ++ 0b111#3) = .ok (.mldw ⟨1, 8, 11, 33, 7⟩) ∧
    decode (0b111000#6 ++ 0b01#2 ++ 0b0110#4 ++ 0b111100#6 ++ 0b0001#4 ++ 0b0100011#7 ++ 0b010#3) = .ok (.mma ⟨1, 6, 60, 35, 2⟩) ∧
    decode (0b111000#6 ++ 0b01#2 ++ 0b0111#4 ++ 0b101101#6 ++ 0b0010#4 ++ 0b1001101#7 ++ 0b100#3) = .ok (.mmaz ⟨1, 7, 45, 77, 4⟩) ∧
    decode (0b111000#6 ++ 0b11#2 ++ 0b0000#4 ++ 0b101110#6 ++ 0b0011000000#10 ++ 0b1#1 ++ 0b010#3) = .ok (.mst ⟨3, 46, true, 2⟩) ∧
    decode (0b1110000000000000000100#22 ++ 0b0000101#7 ++ 0b010#3) = .ok (.mhint ⟨5, 2⟩) ∧
    decode (0b1110000000#10 ++ 0b01#2 ++ 0b110010#6 ++ 0b01010000000#11 ++ 0b110#3) = .ok (.mfmt ⟨1, 50, 6⟩) ∧
    decode (0b111000#6 ++ 0b01#2 ++ 0b1011#4 ++ 0b0000000110000#13 ++ 0b0011#4 ++ 0b010#3) = .ok (.mrd ⟨1, 11, 3, 2⟩) := by decide

/-- Major 0x3a (R240, R241): one word of each row, its fields written out from the high bits down. -/
theorem test_decode_eng :
    decode (0b111010000000#12 ++ 0b011011#6 ++ 0b0000#4 ++ 0b01#2 ++ 0b00001#5 ++ 0b111#3) = .ok (.eset ⟨27, 1, 1, 7⟩) ∧
    decode (0b1110100000000000000001#22 ++ 0b01#2 ++ 0b00000#5 ++ 0b111#3) = .ok (.ego ⟨1, 7⟩) ∧
    decode (0b111010#6 ++ 0b101010#6 ++ 0b0000000010#10 ++ 0b01#2 ++ 0b00000#5 ++ 0b101#3) = .ok (.estat ⟨42, 1, 5⟩) ∧
    decode (0b1110100000000000000011#22 ++ 0b10#2 ++ 0b00000#5 ++ 0b010#3) = .ok (.ecan ⟨2, 2⟩) := by decide

/-- Major 0x3b (R240, R241): one word of each row, its fields written out from the high bits down. -/
theorem test_decode_msg :
    decode (0b111011#6 ++ 0b101000#6 ++ 0b100111#6 ++ 0b0000000000#10 ++ 0b1#1 ++ 0b100#3) = .ok (.send ⟨40, 39, true, 4⟩) ∧
    decode (0b111011#6 ++ 0b111011#6 ++ 0b001100#6 ++ 0b00010000000#11 ++ 0b111#3) = .ok (.recv ⟨59, 12, 7⟩) ∧
    decode (0b111011#6 ++ 0b101101#6 ++ 0b101100#6 ++ 0b0010000000#10 ++ 0b1#1 ++ 0b010#3) = .ok (.enq ⟨45, 44, true, 2⟩) ∧
    decode (0b111011#6 ++ 0b100000#6 ++ 0b00000000110000000#17 ++ 0b111#3) = .ok (.spawn ⟨32, 7⟩) ∧
    decode (0b11101100000000000001000000000#29 ++ 0b100#3) = .ok (.exit ⟨4⟩) ∧
    decode (0b111011#6 ++ 0b100001#6 ++ 0b0000000101000#13 ++ 0b1#1 ++ 0b001#3 ++ 0b110#3) = .ok (.widf ⟨33, true, 1, 6⟩) ∧
    decode (0b111011#6 ++ 0b001010#6 ++ 0b00000001100000000#17 ++ 0b011#3) = .ok (.ibxs ⟨10, 3⟩) := by decide

/-- Major 0x3c (R240, R241): one word of each row, its fields written out from the high bits down. -/
theorem test_decode_idx :
    decode (0b111100#6 ++ 0b111100#6 ++ 0b010100#6 ++ 0b00000000000#11 ++ 0b111#3) = .ok (.stvec ⟨60, 20, 7⟩) ∧
    decode (0b111100#6 ++ 0b011001#6 ++ 0b011010#6 ++ 0b000100#6 ++ 0b1#1 ++ 0b0001#4 ++ 0b011#3) = .ok (.ldnear ⟨25, 26, true, 1, 3⟩) ∧
    decode (0b111100#6 ++ 0b001111#6 ++ 0b001111#6 ++ 0b00100000000#11 ++ 0b010#3) = .ok (.delvec ⟨15, 15, 2⟩) ∧
    decode (0b111100#6 ++ 0b100111#6 ++ 0b001000#6 ++ 0b00110000000#11 ++ 0b110#3) = .ok (.ixpin ⟨39, 8, 6⟩) ∧
    decode (0b111100#6 ++ 0b100111#6 ++ 0b010110#6 ++ 0b01000000000#11 ++ 0b101#3) = .ok (.ixunpin ⟨39, 22, 5⟩) ∧
    decode (0b111100000000#12 ++ 0b001001#6 ++ 0b0101000#7 ++ 0b0011#4 ++ 0b111#3) = .ok (.ixstat ⟨9, 3, 7⟩) := by decide

/-- Major 0x3d (R240, R241): one word of each row, its fields written out from the high bits down. -/
theorem test_decode_pos :
    decode (0b111101#6 ++ 0b000011#6 ++ 0b000110#6 ++ 0b00000000000#11 ++ 0b110#3) = .ok (.setpos ⟨3, 6, 6⟩) ∧
    decode (0b111101#6 ++ 0b101011#6 ++ 0b001011#6 ++ 0b0001000#7 ++ 0b0110#4 ++ 0b100#3) = .ok (.neigh ⟨43, 11, 6, 4⟩) ∧
    decode (0b111101#6 ++ 0b010000#6 ++ 0b00000000100000000#17 ++ 0b010#3) = .ok (.cellq ⟨16, 2⟩) ∧
    decode (0b111101000000#12 ++ 0b000011#6 ++ 0b00110000000#11 ++ 0b011#3) = .ok (.migr ⟨3, 3⟩) ∧
    decode (0b11110100000000000001000000000#29 ++ 0b111#3) = .ok (.anchor ⟨7⟩) ∧
    decode (0b11110100000000000001010000000#29 ++ 0b110#3) = .ok (.unanchor ⟨6⟩) ∧
    decode (0b11110100000000000001100000000#29 ++ 0b100#3) = .ok (.cellsync ⟨4⟩) := by decide

/-- Majors with one row each (R240). -/
theorem test_decode_single1 :
    decode (0b000111#6 ++ 0b100101#6 ++ 0b010101#6 ++ 0b101011#6 ++ 0b10010#5 ++ 0b100#3) = .ok (.bfs ⟨37, 21, 43, 18, 4⟩) ∧
    decode (0b001000#6 ++ 0b000100#6 ++ 0b110001#6 ++ 0b1#1 ++ 0b1010010101#10 ++ 0b101#3) = .ok (.addi ⟨4, 49, true, 661, 5⟩) ∧
    decode (0b001001#6 ++ 0b010010#6 ++ 0b110111#6 ++ 0b1#1 ++ 0b1110011000#10 ++ 0b011#3) = .ok (.andi ⟨18, 55, true, 920, 3⟩) ∧
    decode (0b001010#6 ++ 0b010101#6 ++ 0b101001#6 ++ 0b1#1 ++ 0b1101111100#10 ++ 0b101#3) = .ok (.ori ⟨21, 41, true, 892, 5⟩) ∧
    decode (0b001011#6 ++ 0b111011#6 ++ 0b101110#6 ++ 0b1#1 ++ 0b0011101100#10 ++ 0b010#3) = .ok (.xori ⟨59, 46, true, 236, 2⟩) ∧
    decode (0b001110#6 ++ 0b010101#6 ++ 0b010011#6 ++ 0b1#1 ++ 0b0111100110#10 ++ 0b001#3) = .ok (.muli ⟨21, 19, true, 486, 1⟩) ∧
    decode (0b001111#6 ++ 0b001000#6 ++ 0b111110#6 ++ 0b010110#6 ++ 0b00001#5 ++ 0b101#3) = .ok (.bfx ⟨8, 62, 22, 1, 5⟩) := by decide

/-- Majors with one row each (R240). -/
theorem test_decode_single2 :
    decode (0b010000#6 ++ 0b000011#6 ++ 0b11111011001101011#17 ++ 0b011#3) = .ok (.movi ⟨3, 128619, 3⟩) ∧
    decode (0b010001#6 ++ 0b010100#6 ++ 0b0#1 ++ 0b1111010110011011#16 ++ 0b101#3) = .ok (.movh ⟨20, 62875, 5⟩) ∧
    decode (0b010010#6 ++ 0b000010#6 ++ 0b01000000101101001#17 ++ 0b100#3) = .ok (.pcrel ⟨2, 33129, 4⟩) ∧
    decode (0b010100#6 ++ 0b11010110110110111011011#23 ++ 0b101#3) = .ok (.br ⟨7040475, 5⟩) ∧
    decode (0b010101#6 ++ 0b00000001100110100110111#23 ++ 0b111#3) = .ok (.call ⟨52535, 7⟩) ∧
    decode (0b010111#6 ++ 0b001111#6 ++ 0b01#2 ++ 0b01#2 ++ 0b11#2 ++ 0b0111#4 ++ 0b0000000#7 ++ 0b101#3) = .ok (.repf ⟨15, 1, 1, 3, 7, 5⟩) ∧
    decode (0b100000#6 ++ 0b101000#6 ++ 0b101010#6 ++ 0b1#1 ++ 0b11#2 ++ 0b00000010#8 ++ 0b110#3) = .ok (.ldl ⟨40, 42, true, 3, 2, 6⟩) := by decide

/-- Majors with one row each (R240). -/
theorem test_decode_single3 :
    decode (0b100001#6 ++ 0b000110#6 ++ 0b100110#6 ++ 0b1#1 ++ 0b10#2 ++ 0b10010001#8 ++ 0b011#3) = .ok (.ldls ⟨6, 38, true, 2, 145, 3⟩) ∧
    decode (0b100010#6 ++ 0b011111#6 ++ 0b111001#6 ++ 0b1#1 ++ 0b01#2 ++ 0b10100000#8 ++ 0b010#3) = .ok (.stl ⟨31, 57, true, 1, 160, 2⟩) ∧
    decode (0b100011#6 ++ 0b101000#6 ++ 0b111110#6 ++ 0b1#1 ++ 0b11#2 ++ 0b00001011#8 ++ 0b010#3) = .ok (.ldg ⟨40, 62, true, 3, 11, 2⟩) ∧
    decode (0b100100#6 ++ 0b110001#6 ++ 0b011011#6 ++ 0b1#1 ++ 0b01#2 ++ 0b00110101#8 ++ 0b100#3) = .ok (.ldgs ⟨49, 27, true, 1, 53, 4⟩) ∧
    decode (0b100101#6 ++ 0b111110#6 ++ 0b100110#6 ++ 0b1#1 ++ 0b01#2 ++ 0b11110011#8 ++ 0b110#3) = .ok (.stg ⟨62, 38, true, 1, 243, 6⟩) ∧
    decode (0b101101#6 ++ 0b001011#6 ++ 0b110011#6 ++ 0b011#3 ++ 0b10100000#8 ++ 0b110#3) = .ok (.stgm ⟨11, 51, 160, 6⟩) := by decide

/-! ## Well-formedness: an ill-formed term for each check, and a neighbour that is well formed -/

theorem smoke_wellFormed_numbers :
    ([.csrr ⟨1, 0x2A, 0⟩, .csrw ⟨1, 2, 0x3F, 0⟩, .csrs ⟨1, 2, 0x51, 0⟩, .csrc ⟨1, 2, 0x7F, 0⟩] : List Instr).all (fun i => !i.wellFormed) = true ∧
    ([.csrr ⟨1, 0x29, 0⟩, .csrw ⟨1, 2, 0x40, 0⟩, .csrs ⟨1, 2, 0x50, 0⟩, .csrc ⟨1, 2, 0, 0⟩] : List Instr).all (·.wellFormed) = true := by decide

theorem smoke_wellFormed_types :
    ([.vfaVadd ⟨1, 2, 3, 3, 0, 0, 0⟩, .vfma ⟨1, 2, 3, 6, 0, 7, 0⟩, .viaVadd ⟨1, 2, 3, 4, 0, 0⟩, .vadds ⟨1, 2, 3, 2, 0, 2, 0⟩, .vshr ⟨1, 2, 3, 5, 0, 0, 0⟩,
      .vzip ⟨1, 2, 3, 0, 0, 2, 0⟩, .vldb ⟨1, 2, 0, 0, 5, 0⟩] : List Instr).all (fun i => !i.wellFormed) = true ∧
    ([.vfaVadd ⟨1, 2, 3, 4, 0, 0, 0⟩, .vfma ⟨1, 2, 3, 6, 0, 6, 0⟩, .viaVadd ⟨1, 2, 3, 3, 0, 0⟩, .vadds ⟨1, 2, 3, 2, 0, 1, 0⟩, .vshr ⟨1, 2, 3, 3, 0, 0, 0⟩,
      .vzip ⟨1, 2, 3, 0, 0, 1, 0⟩] : List Instr).all (·.wellFormed) = true := by decide

theorem smoke_wellFormed_subfields :
    ([.cmpEq ⟨4, 0, 2, 3, false, false, 0⟩, .bfx ⟨1, 2, 60, 8, 0⟩, .ldls ⟨1, 2, false, 3, 0, 0⟩, .ldgs ⟨1, 2, false, 3, 0, 0⟩, .kmov ⟨0, 1, 0⟩, .fence ⟨3, 0, 0⟩,
      .bar ⟨7, 0⟩, .qbind ⟨0, 5, 2, 0⟩, .qbind ⟨2, 0, 2, 0⟩, .mldw ⟨3, 0, 2, 0, 0⟩, .eset ⟨8, 0, 10, 0⟩, .eset ⟨8, 1, 5, 0⟩, .ego ⟨3, 0⟩, .ecan ⟨3, 0⟩,
      .estat ⟨1, 3, 0⟩, .widf ⟨1, true, 6, 0⟩, .ctxsave ⟨1, 2, 0, 0⟩, .ctxload ⟨1, 2, true, 2, 0⟩, .timer 0] : List Instr).all (fun i => !i.wellFormed) = true ∧
    ([.cmpEq ⟨3, 0, 2, 3, false, false, 0⟩, .bfx ⟨1, 2, 60, 3, 0⟩, .ldls ⟨1, 2, false, 2, 0, 0⟩, .kmov ⟨1, 1, 0⟩, .fence ⟨2, 0, 0⟩, .bar ⟨6, 0⟩, .qbind ⟨0, 3, 2, 0⟩,
      .qbind ⟨2, 4, 2, 0⟩, .mldw ⟨2, 0, 2, 0, 0⟩, .eset ⟨8, 0, 9, 0⟩, .ego ⟨2, 0⟩, .widf ⟨1, true, 5, 0⟩, .ctxload ⟨1, 2, true, 1, 0⟩] : List Instr).all
      (·.wellFormed) = true := by decide

/-- R241, R243: a word for each way in which the decoder refuses one, and what is ILL. -/
theorem test_decode_refusals :
    decode 0xFFFF_FFFF = .error .unassignedMajor ∧ decode (0b000000#6 ++ 0#12 ++ 15#4 ++ 0#7 ++ 0#3) = .error .reservedMinor ∧
    decode (0b000000#6 ++ 1#6 ++ 0#6 ++ 2#4 ++ 0x3F#7 ++ 0#3) = .error .reservedCsr ∧ decode (0b000000#6 ++ 1#6 ++ 1#6 ++ 2#4 ++ 0x10#7 ++ 0#3) = .error .reservedField ∧
    decode 0 = .ok .ill := by decide

namespace Sys2Proof.Machine

/-! ## A small machine -/

/-- A supervisor thread of the system context, anchored, all of whose registers are full: g n holds 64 n. -/
def sampleThread : Thread :=
  { Thread.init with
    kind := .anchored
    regs := { Regs.init with g := Vector.ofFn fun (n : Fin 24) => BitVec.ofNat 64 (64 * n.val), full := BitVec.allOnes 24 }
    sys := { SysRegs.init with xstat := { Xstat.init with sys := true, mode := true } } }

/-- The machine after reset with a thread on seat 0 of core 0, whose segment has 64 KiB and whose weight slots are its own. -/
def sample (t : Thread) : State :=
  (State.reset.setThread 7 t).setSeat 0 { Seat.init with occ := some 7, llim := 0x10000, wbseg := 0xFFFF }

/-- The conditions of `Issues`, as a test. -/
def issuesNow (s : State) (uid : Nat) (t : Thread) (i : Instr) : Bool :=
  decide ((s.seat s.cur).occ = some uid) && decide (s.thread? uid = some t) && (decide ((guardField i).toNat = 0) || t.regs.pwPoison.isNone)
    && guardTrue t i && (illOp i).isNone && (regBad i t).isNone && (privBad i s.cur (s.seat s.cur) t).isNone
    && decide (testSources s (coreOf s.cur) t i = .pass) && decide (testBindings s (coreOf s.cur) t i = .pass) && decide (testDests s s.cur (coreOf s.cur) t i = .pass)
    && !s.awaitsCheckpoint i s.cur && s.banksIdle (coreOf s.cur) (s.unread i s.cur t)

theorem issues_of_now {s : State} {uid : Nat} {t : Thread} {i : Instr} (h : issuesNow s uid t i = true) : Issues i s uid t := by
  simp only [issuesNow, Bool.and_eq_true, Bool.or_eq_true, decide_eq_true_eq, Option.isNone_iff_eq_none, Bool.not_eq_true'] at h
  obtain ⟨⟨⟨⟨⟨⟨⟨⟨⟨⟨⟨h1, h2⟩, h3⟩, h4⟩, h5⟩, h6⟩, h7⟩, h8⟩, h9⟩, h10⟩, h11⟩, h12⟩ := h
  exact ⟨⟨⟨h1, h2⟩, h3, h4, h5, h6, h7, h8, h9, h10, h11⟩, h12⟩

/-! ## Every instruction statement has a case: its instructions issue in the sample machine -/

/-- The instruction may issue on seat 0 of the sample machine. -/
def issuesInSample (i : Instr) : Bool := issuesNow (sample sampleThread) 7 sampleThread i

theorem witness_IntegerResults :
    ([.add ⟨1, 2, 3, false, false, 0⟩, .sub ⟨1, 2, 3, false, false, 0⟩, .and ⟨1, 2, 3, false, false, 0⟩, .or ⟨1, 2, 3, false, false, 0⟩,
      .xor ⟨1, 2, 3, false, false, 0⟩, .andn ⟨1, 2, 3, false, false, 0⟩, .orn ⟨1, 2, 3, false, false, 0⟩, .xnor ⟨1, 2, 3, false, false, 0⟩,
      .shl ⟨1, 2, 3, false, false, 0⟩, .shr ⟨1, 2, 3, false, false, 0⟩, .sar ⟨1, 2, 3, false, false, 0⟩, .rol ⟨1, 2, 3, false, false, 0⟩,
      .min ⟨1, 2, 3, false, false, 0⟩, .max ⟨1, 2, 3, false, false, 0⟩, .minu ⟨1, 2, 3, false, false, 0⟩, .maxu ⟨1, 2, 3, false, false, 0⟩,
      .shli ⟨1, 2, false, 3, 0⟩, .shri ⟨1, 2, false, 0, 0⟩, .sari ⟨1, 2, false, 1, 0⟩, .roli ⟨1, 2, false, 2, 0⟩] : List Instr).all issuesInSample = true := by decide +kernel

theorem witness_MulDivResults :
    ([.mul ⟨1, 2, 3, false, false, 0⟩, .mulh ⟨1, 2, 3, false, false, 0⟩, .mulhu ⟨1, 2, 3, false, false, 0⟩, .mulhsu ⟨1, 2, 3, false, false, 0⟩,
      .div ⟨1, 2, 3, false, false, 0⟩, .divu ⟨1, 2, 3, false, false, 0⟩, .rem ⟨1, 2, 3, false, false, 0⟩, .remu ⟨1, 2, 3, false, false, 0⟩] : List Instr).all issuesInSample = true := by decide +kernel

theorem witness_BitAddressImmediateResults :
    ([.clz ⟨1, 2, false, 0⟩, .ctz ⟨1, 2, false, 0⟩, .popc ⟨1, 2, false, 0⟩, .brev ⟨1, 2, false, 0⟩,
      .bswap ⟨1, 2, false, 0⟩, .sext ⟨1, 2, 3, false, false, 0⟩, .zext ⟨1, 2, 3, false, false, 0⟩, .abs ⟨1, 2, false, 0⟩,
      .lea1 ⟨1, 2, 3, false, false, 0⟩, .lea2 ⟨1, 2, 3, false, false, 0⟩, .lea4 ⟨1, 2, 3, false, false, 0⟩, .lea8 ⟨1, 2, 3, false, false, 0⟩,
      .adds ⟨1, 2, 3, false, false, 0⟩, .subs ⟨1, 2, 3, false, false, 0⟩, .addus ⟨1, 2, 3, false, false, 0⟩, .subus ⟨1, 2, 3, false, false, 0⟩,
      .bfx ⟨1, 2, 2, 2, 0⟩, .bfs ⟨1, 2, 2, 2, 0⟩, .addi ⟨1, 2, false, 5, 0⟩, .andi ⟨1, 2, false, 5, 0⟩,
      .ori ⟨1, 2, false, 5, 0⟩, .xori ⟨1, 2, false, 5, 0⟩, .muli ⟨1, 2, false, 5, 0⟩, .movi ⟨1, 5, 0⟩,
      .movh ⟨1, 5, 0⟩, .pcrel ⟨1, 5, 0⟩] : List Instr).all issuesInSample = true := by decide +kernel

theorem witness_PredicateWriteResults :
    ([.cmpEq ⟨0, 1, 2, 3, false, false, 0⟩, .cmpNe ⟨0, 1, 2, 3, false, false, 0⟩, .cmpLt ⟨0, 1, 2, 3, false, false, 0⟩, .cmpGe ⟨0, 1, 2, 3, false, false, 0⟩,
      .cmpLtu ⟨0, 1, 2, 3, false, false, 0⟩, .cmpGeu ⟨0, 1, 2, 3, false, false, 0⟩, .cmpTst ⟨0, 1, 2, 3, false, false, 0⟩, .cmpTstn ⟨0, 1, 2, 3, false, false, 0⟩,
      .cmpiEq ⟨0, 1, 2, false, 5, 0⟩, .cmpiNe ⟨0, 1, 2, false, 5, 0⟩, .cmpiLt ⟨0, 1, 2, false, 5, 0⟩, .cmpiGe ⟨0, 1, 2, false, 5, 0⟩,
      .cmpiLtu ⟨0, 1, 2, false, 5, 0⟩, .cmpiGeu ⟨0, 1, 2, false, 5, 0⟩, .cmpiTst ⟨0, 1, 2, false, 5, 0⟩, .cmpiTstn ⟨0, 1, 2, false, 5, 0⟩,
      .pand ⟨2, 1, 1, 0⟩, .por ⟨0, 3, 1, 0⟩, .pxor ⟨0, 2, 2, 0⟩, .pnot ⟨3, 3, 0⟩,
      .pget ⟨1, 0⟩, .pset ⟨2, false, 0⟩, .kmov ⟨3, 0, 0⟩] : List Instr).all issuesInSample = true := by decide +kernel

theorem witness_TransferResults :
    ([.br ⟨1, 0⟩, .call ⟨1, 0⟩, .jr ⟨2, false, 0⟩, .jalr ⟨1, 2, false, 0⟩,
      .ret ⟨0⟩] : List Instr).all issuesInSample = true := by decide +kernel

theorem witness_FrameCaptureAndReturn :
    ([.repf ⟨2, 0, 0, 0, 1, 0⟩, .eret ⟨0⟩] : List Instr).all issuesInSample = true := by decide +kernel

theorem witness_TrapAndHaltResults :
    ([.trap ⟨5, 0⟩, .nop ⟨0⟩, .halt ⟨0⟩, .dbgbrk ⟨0⟩,
      .wfe ⟨0⟩] : List Instr).all issuesInSample = true := by decide +kernel

theorem witness_LocalLoadStoreResults :
    ([.stl ⟨1, 2, false, 3, 1, 0⟩, .ldl ⟨1, 2, false, 3, 1, 0⟩, .ldls ⟨1, 2, false, 2, 1, 0⟩] : List Instr).all issuesInSample = true := by decide +kernel

theorem witness_SyncResults :
    ([.ldw ⟨1, 2, false, 1, 0⟩, .lde ⟨1, 2, false, 1, 0⟩, .stf ⟨1, 2, false, 1, 0⟩, .sete ⟨2, false, 1, 0⟩] : List Instr).all issuesInSample = true := by decide +kernel

theorem witness_SyncResults_atomics :
    ([.faal ⟨1, 2, 3, false, false, 0⟩, .swapl ⟨1, 2, 3, false, false, 0⟩, .casl ⟨1, 2, 3, false, false, 0⟩, .fandl ⟨1, 2, 3, false, false, 0⟩,
      .forl ⟨1, 2, 3, false, false, 0⟩, .fxorl ⟨1, 2, 3, false, false, 0⟩, .fminl ⟨1, 2, 3, false, false, 0⟩, .fmaxl ⟨1, 2, 3, false, false, 0⟩] : List Instr).all issuesInSample = true := by decide +kernel

theorem witness_LocalVectorResults :
    ([.vldl ⟨1, 2, 1, 0, 0⟩, .vstl ⟨1, 2, 1, 0, 0⟩, .vgatl ⟨1, 2, 1, 0, 0⟩, .vscal ⟨1, 2, 1, 0, 0⟩,
      .vldb ⟨1, 2, 1, 0, 3, 0⟩] : List Instr).all issuesInSample = true := by decide +kernel

theorem witness_GlobalLoadResults :
    ([.ldg ⟨1, 2, false, 3, 1, 0⟩, .ldgs ⟨1, 2, false, 2, 1, 0⟩, .vldg ⟨1, 2, 1, 0, 0⟩] : List Instr).all issuesInSample = true := by decide +kernel

theorem witness_GlobalStoreResults :
    ([.stg ⟨1, 2, false, 3, 1, 0⟩, .vstg ⟨1, 2, 1, 0, 0⟩, .stgm ⟨1, 2, 1, 0⟩] : List Instr).all issuesInSample = true := by decide +kernel

theorem witness_GlobalAtomicResults :
    ([.faa ⟨1, 2, 3, false, false, 0⟩, .swap ⟨1, 2, 3, false, false, 0⟩, .cas ⟨1, 2, 3, false, false, 0⟩, .sc ⟨1, 2, 3, false, false, 0⟩,
      .amax ⟨1, 2, 3, false, false, 0⟩, .lr ⟨1, 2, false, 0⟩, .rsvrel ⟨2, false, 0⟩, .raddI64 ⟨false, 2, 3, false, false, 0⟩,
      .raddF32 ⟨false, 2, 3, false, false, 0⟩, .raddF64 ⟨false, 2, 3, false, false, 0⟩, .rmin ⟨false, 2, 3, false, false, 0⟩, .rmax ⟨false, 2, 3, false, false, 0⟩,
      .rand ⟨false, 2, 3, false, false, 0⟩, .ror ⟨false, 2, 3, false, false, 0⟩, .rxor ⟨false, 2, 3, false, false, 0⟩, .waitrs ⟨1, 2, 3, false, false, 0⟩] : List Instr).all issuesInSample = true := by decide +kernel

theorem witness_MeshAccessResults :
    ([.ldr ⟨1, 2, false, 1, 0⟩, .str ⟨1, 2, false, 1, 0⟩, .ldre ⟨1, 2, false, 1, 0⟩, .strf ⟨1, 2, false, 1, 0⟩] : List Instr).all issuesInSample = true := by decide +kernel

theorem witness_FenceResults :
    ([.fence ⟨0, 0, 0⟩] : List Instr).all issuesInSample = true := by decide +kernel

theorem witness_BarrierResults :
    ([.bar ⟨0, 0⟩, .cellsync ⟨0⟩] : List Instr).all issuesInSample = true := by decide +kernel

theorem witness_ExitAndIfenceResults :
    ([.exit ⟨0⟩, .ifence ⟨0⟩] : List Instr).all issuesInSample = true := by decide +kernel

theorem witness_AnchorResults :
    ([.anchor ⟨0⟩, .unanchor ⟨0⟩] : List Instr).all issuesInSample = true := by decide +kernel

theorem witness_BoardAndMigrResults :
    ([.setpos ⟨1, 2, 0⟩, .neigh ⟨1, 2, 2, 0⟩, .cellq ⟨1, 0⟩, .migr ⟨2, 0⟩] : List Instr).all issuesInSample = true := by decide +kernel

theorem witness_SendResults :
    ([.send ⟨1, 2, true, 0⟩, .enq ⟨1, 2, false, 0⟩, .spawn ⟨1, 0⟩] : List Instr).all issuesInSample = true := by decide +kernel

theorem witness_InboxResults :
    ([.recv ⟨1, 2, 0⟩, .widf ⟨1, true, 3, 0⟩, .ibxs ⟨1, 0⟩] : List Instr).all issuesInSample = true := by decide +kernel

theorem witness_QueueRegisterResults :
    ([.qbind ⟨8, 2, 2, 0⟩, .qstat ⟨1, 0, 0⟩, .qflush ⟨1, 1, 0⟩, .qunbind ⟨1, 3, 0⟩] : List Instr).all issuesInSample = true := by decide +kernel

theorem witness_IndexResults :
    ([.stvec ⟨1, 2, 0⟩, .delvec ⟨1, 2, 0⟩, .ixpin ⟨1, 2, 0⟩, .ixunpin ⟨1, 2, 0⟩,
      .ldnear ⟨1, 2, true, 3, 0⟩, .ixstat ⟨2, 0, 0⟩] : List Instr).all issuesInSample = true := by decide +kernel

theorem witness_VectorElementResults :
    ([.viaVadd ⟨1, 2, 3, 2, 0, 0⟩, .viaVsub ⟨1, 2, 3, 1, 0, 0⟩, .viaVmul ⟨1, 2, 3, 2, 0, 0⟩, .vmad ⟨1, 2, 3, 0, 0, 0⟩,
      .vshl ⟨1, 2, 3, 3, 0, 0⟩, .viaVmin ⟨2, 2, 3, 1, 0, 0, 0⟩, .viaVmax ⟨1, 2, 3, 1, 0, 0, 0⟩, .vshr ⟨2, 2, 3, 2, 0, 1, 0⟩,
      .vabs ⟨1, 2, 6, 0, 0⟩, .vneg ⟨2, 2, 7, 0, 0⟩, .vand ⟨1, 2, 3, 0, 0⟩, .vor ⟨1, 2, 3, 0, 0⟩,
      .vxor ⟨1, 2, 3, 0, 0⟩, .vshuf ⟨1, 2, 3, 0, 0, 0⟩, .vzip ⟨2, 2, 3, 1, 0, 1, 0⟩, .vunzip ⟨1, 2, 3, 0, 0, 1, 0⟩,
      .vsel ⟨1, 2, 3, 0, 0⟩, .vbcst ⟨1, 2, 0, 1, 0⟩, .vins ⟨1, 2, 0, 5, 0⟩] : List Instr).all issuesInSample = true := by decide +kernel

theorem witness_VectorFloatResults :
    ([.vfaVadd ⟨2, 2, 3, 4, 0, 5, 0⟩, .vfaVsub ⟨2, 2, 3, 4, 0, 1, 0⟩, .vfaVmul ⟨2, 2, 3, 4, 0, 5, 0⟩, .vfma ⟨1, 2, 3, 4, 0, 2, 0⟩,
      .vfaVmin ⟨1, 2, 3, 4, 0, 0⟩, .vfaVmax ⟨1, 2, 3, 4, 0, 0⟩, .vrnd ⟨2, 2, 7, 0, 2, 0⟩, .vrcp ⟨1, 2, 4, 0, 6, 0⟩,
      .vrsq ⟨2, 2, 4, 0, 0, 0⟩, .vex2 ⟨1, 2, 5, 0, 2, 0⟩, .vlg2 ⟨1, 2, 4, 0, 6, 0⟩, .vsqrt ⟨1, 2, 4, 0, 5, 0⟩,
      .vadds ⟨2, 2, 3, 1, 0, 0, 0⟩, .cvt ⟨1, 2, 2, 0, 2, 0⟩, .qblk ⟨2, 2, 6, 2, 0⟩, .dqblk ⟨1, 2, 5, 0⟩] : List Instr).all issuesInSample = true := by decide +kernel

theorem witness_VectorCompareResults :
    ([.vcmpEq ⟨0, 2, 2, 3, 2, 0, 1, 0⟩, .vcmpNe ⟨0, 2, 2, 3, 3, 0, 1, 0⟩, .vcmpLt ⟨0, 3, 2, 3, 1, 0, 1, 0⟩, .vcmpLe ⟨0, 2, 2, 3, 2, 0, 1, 0⟩,
      .vcmpGt ⟨0, 2, 2, 3, 0, 0, 1, 0⟩, .vcmpGe ⟨0, 2, 2, 3, 1, 0, 1, 0⟩, .vcmpUnord ⟨0, 1, 2, 3, 7, 0, 0⟩] : List Instr).all issuesInSample = true := by decide +kernel

theorem witness_VectorToScalarResults :
    ([.vredadd ⟨1, 2, 0, 0, 0, 0⟩, .vredmax ⟨1, 2, 0, 1, 0⟩, .vredmin ⟨1, 2, 0, 3, 0⟩, .vext ⟨1, 2, 1, 5, 0⟩,
      .vdot8 ⟨1, 2, 0, 0⟩, .vpopk ⟨1, 0, 0, 0⟩] : List Instr).all issuesInSample = true := by decide +kernel

theorem witness_MatrixUnitResults :
    ([.mfmt ⟨3, 2, 0⟩, .mldw ⟨0, 3, 2, 1, 0⟩, .mmaz ⟨0, 0, 2, 3, 0⟩, .mma ⟨3, 2, 2, 2, 0⟩,
      .mst ⟨1, 2, false, 0⟩, .mrd ⟨1, 1, 0, 0⟩, .mhint ⟨1, 0⟩] : List Instr).all issuesInSample = true := by decide +kernel

theorem witness_EngineInstructionResults :
    ([.eset ⟨8, 0, 1, 0⟩, .ego ⟨0, 0⟩, .trap ⟨5, 0⟩, .estat ⟨1, 2, 0⟩,
      .ecan ⟨2, 0⟩] : List Instr).all issuesInSample = true := by decide +kernel

theorem witness_CsrResults :
    ([.csrr ⟨1, 2, 0⟩, .csrw ⟨1, 2, 2, 0⟩, .csrs ⟨1, 2, 2, 0⟩, .csrc ⟨1, 2, 2, 0⟩] : List Instr).all issuesInSample = true := by decide +kernel

theorem witness_SeatControlResults :
    ([.seatctlStat ⟨1, 2, 0⟩, .seatctlStop ⟨1, 2, 0⟩, .seatctlStart ⟨1, 2, 0⟩, .seatctlWake ⟨1, 2, 0⟩] : List Instr).all issuesInSample = true := by decide +kernel

theorem witness_ContextMoveResults :
    ([.ctxsave ⟨1, 2, 1, 0⟩, .ctxload ⟨1, 2, true, 1, 0⟩] : List Instr).all issuesInSample = true := by decide +kernel

/-! ## The steps between instructions -/

/-- A request of the sample machine's thread. -/
def wReq (op : ReqOp) (addr : Nat) : Req := Req.make (sample sampleThread) 0 7 sampleThread op addr 8

/-- A launch of two threads, with no core list and no board. -/
def wLaunch : Launch :=
  { asid := 0, hdr := (List.replicate 16 0).set 1 2, coreList := [], job := 0, station := 0, queue := 0, cores := [0], units := [], live := [7], pendingTasks := 0,
    exited := [], barriers := [], board := none, sent := [], received := [], lastSweep := none, cancelled := false }

/-- The sample machine with a change to its thread. -/
def sampleWith (f : Thread → Thread) : State := sample (f sampleThread)

/-- A thread that waits at a barrier, past its limit. -/
def wBarred (cell : Bool) : State :=
  let s := (sampleWith fun t =>
    { t with launch := 1, limit := 0, park := ⟨true, 0, true, 0, 0, false⟩, bar := { t.bar with barr := !cell, carr := cell, blev := 1 } }).setLaunch 1 wLaunch
  { s with cycle := 4096 }

/-- A thread whose job is cancelled. -/
def wCancelled : State :=
  let s := sampleWith fun t => { t with sys := { t.sys with job := 0x1_0000_0005 } }
  { s with fw := { s.fw with cancels := [(5, 0)] } }

/-- A parked roaming thread past PARKSWAP, with another in the run queue. -/
def wSwap : State :=
  let s := ((sampleWith fun t => { t with kind := .roaming, loc := .seat 0, park := ⟨true, 0, false, 0, 0, false⟩, sys := SysRegs.init }).setThread 8
    { sampleThread with kind := .roaming, loc := .runQueue 0 }).modCore 0 fun c => { c with runq := [⟨8, 5⟩] }
  { s with cycle := 5000 }

/-- A thread that has trapped with no vector: its seat is stopped; its core has an inbox of eight entries, with `n` of them taken. -/
def wTrapped (n : Nat) : State :=
  ((sample sampleThread).modSeat 0 fun x => { x with tstop := true }).modCore 0 fun c =>
    { c with inboxb := 0x0300_0000, inboxp := BitVec.ofNat 64 (n * 2 ^ 32) }

theorem witness_SeatStepResults_traps :
    ((let s := (sample sampleThread).modSeat 0 fun x => { x with timerDue := true, due := some ⟨0x08, 1, 0⟩ }
      (s.seat 0).occ = some 7 ∧ (s.seat 0).timerDue = true ∧ (s.seat 0).due = some ⟨0x08, 1, 0⟩) ∧
     (∀ cell ∈ [false, true], ∃ t, (wBarred cell).thread? 7 = some t ∧ t.park.parked = true ∧ t.park.counting = true ∧
       t.limit.toNat < t.park.units (wBarred cell).cycle ∧ t.bar.carr = cell ∧ (cell = false → t.bar.barr = true) ∧
       (wBarred cell).barrierGen t 7 0 = t.bar.bgen ∧ (wBarred cell).barrierGen t 1 ((wBarred cell).groupOf t 1 t.regs.wid) = t.bar.bgen) ∧
     (∃ t, wCancelled.thread? 7 = some t ∧ t.cancelTaken = false ∧ t.sys.job.getLsbD 32 = true ∧
       ∃ c ∈ wCancelled.fw.cancels, c.1 = t.sys.job.setWidth 32 ∧ c.2 ≤ wCancelled.cycle)) := by
  refine ⟨by decide +kernel, ?_, ⟨_, rfl, by decide +kernel⟩⟩
  intro cell h
  simp only [List.mem_cons, List.not_mem_nil, or_false] at h
  rcases h with rfl | rfl <;> exact ⟨_, rfl, by decide +kernel⟩

theorem witness_SeatStepResults_moves :
    (∃ t, wSwap.thread? 7 = some t ∧ (wSwap.seat 0).occ = some 7 ∧ wSwap.swapDue 0 t = true) ∧
    ((wTrapped 0).seat 0).tstop = true ∧ ((wTrapped 0).core 0).hasRoom = true ∧ ((wTrapped 8).core 0).hasRoom = false ∧
    ((wTrapped 0).core 0).held = [] ∧ (∃ p ∈ (wTrapped 0).coreThreads 0, p.2.2.sys.xstat.sys = true) ∧
    (let s := wSwap.modSeat 0 fun x => { x with occ := none }
     (s.seat 0).occ = none ∧ (s.seat 0).stopped = false ∧ (s.seat 0).dbgHalt = false ∧ ∃ e ∈ (s.core 0).runq, s.mayTake 0 e.uid = true) ∧
    (let s := (wSwap.setMig 9 ⟨8, .place, 0, 1, .going, false⟩)
     s.mig? 9 = some ⟨8, .place, 0, 1, .going, false⟩ ∧ (s.thread? 8).map (·.owed) = some [] ∧ s.coreLoad 1 < 64 ∧
     64 ≤ (s.modCore 1 fun c => { c with runq := List.replicate 64 ⟨8, 0⟩ }).coreLoad 1) ∧
    (let q := wReq .ifetch 0x1000
     let s := ((sample sampleThread).setReq 9 { q with stage := .answered, answer := some (.data 0 0 true true false) }).modSeat 0 fun x => { x with off := some (.fetch 9) }
     (s.req? 9).map (·.stage) = some .answered ∧ (s.req? 9).bind (·.answer) = some (.data 0 0 true true false) ∧ (s.seat 0).off = some (.fetch 9)) := by
  refine ⟨⟨_, rfl, by decide +kernel⟩, by decide +kernel⟩

/-! ## Clusters, stations, slices, answers -/

/-- The sample machine with one request of its thread, numbered 9. -/
def withReq (q : Req) : State := (sample sampleThread).setReq 9 q

/-- A block of cluster 0 whose owner is context 0, write enabled or not. -/
def wOwned (w : Bool) (s : State) : State := s.modCluster 0 fun c => { c with owners := [(0, ⟨true, w, 0⟩)] }

theorem witness_ClusterStepResults_access :
    (let v : BankWait := ⟨0, .seat 0, 0, ⟨0, .read, 0⟩⟩
     let s := ((sample sampleThread).setBank 0 ⟨[v], 0⟩).modSeat 0 fun x =>
       { x with localOp := some ⟨7, .load 1 8 false 0, 0, 0, 1, [], [], none, false, 0⟩ }
     (s.bank 0).free ≤ s.cycle ∧ (∃ v ∈ (s.bank 0).waiting, v.arrival ≤ s.cycle) ∧
       (s.seat 0).localOp = some ⟨7, .load 1 8 false 0, 0, 0, 1, [], [], none, false, 0⟩ ∧
       s.blockInUse 0 0 = false ∧ (s.setBank 0 ⟨[⟨0, .mesh 9, 0, ⟨0, .read, 0⟩⟩], 0⟩).blockInUse 0 0 = true) ∧
    ([ReqOp.ldr, .str, .ldre, .strf].all fun op =>
      let s := wOwned true (withReq (wReq op 0))
      let off := wOwned false (withReq (wReq op 0))
      let other := withReq (wReq op 0)
      decide (((s.req? 9).map (·.stage)) = some .going) && (s.cluster 0).owner 0 == ⟨true, true, 0⟩ && (off.cluster 0).owner 0 == ⟨true, false, 0⟩
        && !((other.cluster 0).owner 0).v && s.localFull 0 0 && !s.localPoisoned 0 0 && (s.setLocalPoison 0 0 true).localPoisoned 0 0
        && !(s.setFull 0 0 false).localFull 0 0 && decide ((s.cluster 0).waits.length < 256)
        && decide (256 ≤ ((s.modCluster 0 fun c => { c with waits := List.replicate 256 ⟨8, 0, 0, 0⟩ }).cluster 0).waits.length)) = true := by
  decide +kernel

theorem witness_ClusterStepResults_waits :
    ([ReqOp.ldre, .strf].all fun op =>
      let s := (wOwned true (withReq (wReq op 8))).modCluster 0 fun c => { c with waits := [⟨9, 8, 0, 1⟩] }
      decide ((s.cluster 0).waits.find? (fun e => e.off == 8 / 8 * 8) = some ⟨9, 8, 0, 1⟩) && !s.localPoisoned 0 (8 % 2 ^ 24)
        && !s.atBank (fun u => u == .attempt 9) && (s.setBank 1 ⟨[⟨1, .attempt 9, 0, ⟨8, .read, 0⟩⟩], 0⟩).atBank (fun u => u == .attempt 9)
        && decide ((s.cluster 0).waits.find? (fun e => e.req == 9) = some ⟨9, 8, 0, 1⟩)
        && decide (s.req? 9 = some (wReq op 8)) && decide ((wReq op 8).addr / 2 ^ 51 % 32 = 0)) = true ∧
    (∀ b ∈ [0, 1], let s : State := { (sample sampleThread).modCluster 0 fun c => { c with waits := [⟨9, 8, 0, b⟩] } with cycle := 1024 }
      (s.cluster 0).waits.find? (fun e => e.req == 9) = some ⟨9, 8, 0, b⟩ ∧ 0 + 1024 ≤ s.cycle) ∧
    (let s := withReq { wReq .ldre 8 with stage := .answered }
     (s.req? 9).map (fun r => (r.stage, r.uid)) = some (.answered, some 7)) ∧
    (let s := withReq (wReq .ldr (5 * 2 ^ 56))
     let t : Net := { s.net with routes := [(5, 2), (261, 2)] }
     FMap.find? s.net.routes (256 * ((s.pick 24).1 % 12) + 5 * 2 ^ 56 / 2 ^ 56 % 256) = none ∧
     FMap.find? t.routes (256 * (1 % 12) + 5 * 2 ^ 56 / 2 ^ 56 % 256) = some 2 ∧ FMap.find? t.routes (256 * (12 % 12) + 5 * 2 ^ 56 / 2 ^ 56 % 256) = some 2 ∧
     ({ s with picks := [1] }.pick 24).1 = 1 ∧ ({ s with picks := [12] }.pick 24).1 = 12) := by
  decide +kernel

/-- Context 0 with one page at VA 0, writable, in HBM frame 0, or on the host. -/
def wPage (host : Bool) (s : State) : State :=
  let c : Context := { fn := 0, table1 := 0x70_0000_0000, sys := true, debug := true, deleg := 0, faultq := 0, fatalovf := false, fqfail := false, scopes := [], boards := [],
                       dying := false, breakArmed := false }
  (s.setContext 0 c).setEntry 0 3 0 (if host then 0x117 else 0x107)

/-- A tier move of that page, at its first piece. -/
def wMove (copying : Bool) (s : State) : State :=
  { s with fw := { s.fw with moves := [⟨0, 0, 0x187, 0x1_0000_0187, 0, copying, [], 0, 1⟩] } }

theorem witness_StationStepResults_checks :
    (let s := withReq (wReq .load 0)
     let r := wReq .load 0
     r.home = 0 ∧ r.stage = .going ∧ (s.station 0).cached r.asid r.addr = none ∧
     ((s.modStation 0 fun x => { x with tcache := [⟨0, 3, 0, 0x107⟩] }).station 0).cached r.asid r.addr = some ⟨0, 3, 0, 0x107⟩ ∧
     (s.station 0).misses.length < 512 ∧ 512 ≤ ((s.modStation 0 fun x => { x with misses := List.replicate 512 8 }).station 0).misses.length) ∧
    (let s := wPage false ((withReq { wReq .load 0 with stage := .waiting }).modStation 0 fun x => { x with misses := [9] })
     (s.station 0).misses = [9] ∧ s.walk 0 0 = .leaf 3 0x107) ∧
    (let s := (withReq (wReq .load 0)).modStation 0 fun x => { x with holds := [⟨8, 0, 0⟩] }
     (s.station 0).holds.length < 1024 ∧ (∃ h ∈ (s.station 0).holds, h.asid = 0 ∧ h.page = 0 / 2 ^ 16) ∧ s.pieceQueue (wReq .load 0) = false ∧
     ((s.modStation 0 fun x => { x with recorded := [(0, s.absentPage 0 0)] }).station 0).recorded.contains (0, s.absentPage 0 0) = true ∧
     ({ s with fw := { s.fw with moves := [⟨0, 0, 0x187, 0x1_0000_0187, 0, true, [8], 0, 1⟩] } } : State).pieceQueue (wReq .load 0) = true) ∧
    (let s := wPage true ((withReq { wReq .load 0 with stage := .waiting }).modStation 0 fun x => { x with hostWait := [9] })
     (s.station 0).hostWait.contains 9 = true ∧
     (s.modStation 0 fun x => { x with hostWait := listErase (fun j => j == 9) x.hostWait }).access 0 0 false true false =
       .ok (2 * 2 ^ 52) true true true true) := by
  decide +kernel

theorem witness_StationStepResults_waits :
    (let s := (sample sampleThread).modStation 0 fun x => { x with rsv := [⟨0, some (⟨0, 0, 0⟩, 0), []⟩] }
     (s.station 0).rsvAt 0 = some ⟨0, some (⟨0, 0, 0⟩, 0), []⟩ ∧ s.cycle < 0 + s.fw.rsvtime ∧ 0 + s.fw.rsvtime ≤ State.cycle { s with cycle := 4096 } ∧
     (s.station 0).rsvIn 0 4096 = true) ∧
    (let s : State := { withReq (wReq (.waitrs [(0, 0, 0)]) 0) with cycle := 1024 }
     s.req? 9 = some (wReq (.waitrs [(0, 0, 0)]) 0) ∧ s.work = [] ∧ s.reporting 9 0 = false ∧
     (s.setReq 10 { wReq (.watch 9 0 0) 0 with stage := .answered }).reporting 9 0 = true ∧
     (wReq (.waitrs [(0, 0, 0)]) 0).issued + ((wReq (.waitrs [(0, 0, 0)]) 0).budget + 1) * 1024 ≤ s.cycle) ∧
    (∀ c ∈ [false, true], (wMove c (sample sampleThread)).fw.moves = [⟨0, 0, 0x187, 0x1_0000_0187, 0, c, [], 0, 1⟩]) ∧
    ((wMove false (sample sampleThread)).station 0).rsvIn 0 4096 = false ∧
    (∀ l ∈ ((sample sampleThread).cluster 0).ncache, l.va % 64 = 0) := by
  decide +kernel

/-- Another thread's reservation on the word at 0, in station 0. -/
def wHeld (k : HolderKey) (s : State) : State := s.modStation 0 fun x => { x with rsv := [⟨0, some (k, 0), []⟩] }

theorem witness_HomeSliceResults :
    ([ReqOp.store, .stgm, .atom 0 1 0, .atom 1 1 0, .atom 2 1 0, .atom 5 1 0, .red 0 1 false, .red 3 1 false, .red 4 1 false, .red 5 1 false,
      .red 6 1 false, .red 7 1 false].all fun op =>
      let s := withReq (wReq op 0)
      let h := wHeld ⟨1, 0, 0⟩ s
      (s.rsvBlock 0 (wReq op 0) 0).isNone && !s.physPoisoned 0 && ({ s with mem := { s.mem with physPoison := [0] } }).physPoisoned 0
        && (h.rsvBlock 0 (wReq op 0) 0).isSome && decide ((h.station 0).rsvEntries < 1024)) = true ∧
    (let s := withReq (wReq (.sc 1) 0)
     (s.station 0).rsvAt 0 = none ∧ ((wHeld (wReq (.sc 1) 0).key s).station 0).rsvAt 0 = some ⟨0, some ((wReq (.sc 1) 0).key, 0), []⟩) := by
  decide +kernel

/-- A merge entry of cluster 0 for FAAs at address 0, with the request 9 first and those of `recs` behind it. -/
def wComb (recs : List HoistRec) (sent : Option Nat) : CombEntry := ⟨some 0, 0, 0, 0, false, 0, 1, 9, recs, 0, sent, none⟩

theorem witness_AnswerStepResults_fills :
    (let t := { sampleThread with owed := [⟨9, .load, [], .g 1, false⟩] }
     (sample t).fab.doublets = [] ∧ (sample t).thread? 7 = some t ∧ t.owed.find? (fun o => o.req == 9) = some ⟨9, .load, [], .g 1, false⟩ ∧
     t.loc ≠ .gone) ∧
    (let t := { sampleThread with fsCopy := Vector.replicate 4 .pending, sys := { sampleThread.sys with fs := Vector.replicate 4 64 } }
     let r := { wReq (.descr 1 .start) 64 with stage := .answered, answer := some (.data 5 0 true true false), anchored := false }
     let s := (sample t).setReq 9 r
     s.req? 9 = some r ∧ s.thread? 7 = some t ∧ vget t.fsCopy 1 .invalid = .pending ∧ vget t.sys.fs 1 0 = BitVec.ofNat 64 r.addr ∧
       (descrFmt (lineWord 5 0)).toNat ≤ 10) ∧
    ([Answer.word 1, .data 0 0 true true false, .fault 0x06 0x10, .ack true false].all fun a =>
      [ReqOp.load, .store, .descr 1 .start].all fun op =>
        let r := { wReq op 0 with stage := .answered, answer := some a, anchored := false }
        decide ((withReq r).req? 9 = some r) && r.uid == some 7 && ((withReq r).ncFind 0 r.asid r.addr).isNone) = true ∧
    (∀ a ∈ [Answer.ack true false, .fault 0x06 0x04],
      let m : Msg := ⟨.send, 8, [], 0, some 7, 0, 0, 0, 0, true, .answered, some a, false, none⟩
      let s := (sample sampleThread).setMsg 9 m
      s.req? 9 = none ∧ s.msg? 9 = some m ∧ m.stage = .answered ∧ m.uid = some 7) := by
  decide +kernel

theorem witness_AnswerStepResults_resends :
    ([ReqOp.load, .ldre, .strf].all fun op =>
      let r := { wReq op 0 with stage := .nacked 128 }
      let s : State := { withReq r with cycle := 128 }
      decide (s.req? 9 = some r) && decide (128 ≤ s.cycle) && decide ((withReq r).cycle < 128)
        && decide ((s.cycle - r.issued) / 1024 ≤ r.budget) && decide (r.budget < ((State.cycle { s with cycle := 1024 }) - r.issued) / 1024)) = true ∧
    ([ReqOp.load, .store, .atom 0 1 0, .writeBack 0].all fun op =>
      [Stage.going, .silent].all fun g =>
      let r := { wReq op 0 with deadline := some 0, stage := g }
      let s := withReq r
      decide (s.req? 9 = some r) && decide (0 ≤ s.cycle) && r.uid == some 7) = true := by
  decide +kernel

theorem witness_AnswerStepResults_combines :
    (let r := wReq (.atom 0 1 0) 0
     let s := withReq r
     let pending (s : State) := s.net.combs.filter fun p => p.2.cluster == some 0 && p.2.sent.isNone
     r.stage = .going ∧ r.combinable = true ∧ s.earlierMerge r = false ∧ pending s = [] ∧ clusterOf (coreOf r.seat) = 0 ∧
     (pending (s.setComb 20 (wComb [⟨8, 1, false⟩] none))).find? (fun p => p.2.isFor r) = some (20, wComb [⟨8, 1, false⟩] none) ∧
     s.atEgress 9 = false ∧ (s.addWork 0 (.combinerMerge 9)).atEgress 9 = true ∧
     (let full := { s with net := { s.net with combs := (List.range 64).map fun k => (k, { wComb [] none with va := 64 }) } }
      64 ≤ (pending full).length ∧ (pending full).find? (fun p => p.2.isFor r) = none)) ∧
    (∀ recs ∈ [[], [(⟨8, 1, false⟩ : HoistRec)]],
      let s := (withReq (wReq (.atom 0 1 0) 0)).setComb 20 (wComb recs none)
      FMap.find? s.net.combs 20 = some (wComb recs none) ∧ s.req? 9 = some (wReq (.atom 0 1 0) 0) ∧
        (wComb recs none).opened + 16 ≤ State.cycle { s with cycle := 16 }) ∧
    (let s := (withReq (wReq (.atom 0 1 0) 0)).setReq 10 (wReq (.atom 0 2 0) 0)
     s.req? 9 = some (wReq (.atom 0 1 0) 0) ∧ s.req? 10 = some (wReq (.atom 0 2 0) 0) ∧ s.routerRecords 3 < 32) ∧
    (∀ d ∈ [false, true],
     let f := { wReq (.atom 0 3 0) 0 with answer := some (.word 5), stage := .answered, deadline := some 0 }
     let e := wComb [⟨8, 1, d⟩] (some 11)
     let s := (((withReq (wReq (.atom 0 1 0) 0)).setReq 8 (wReq (.atom 0 1 0) 0)).setReq 11 f).setComb 20 e
     FMap.find? s.net.combs 20 = some e ∧ s.req? 11 = some f ∧ 0 ≤ s.cycle ∧ ((∀ h ∈ e.recs, h.damaged = false) ↔ d = false) ∧
     ((((s.dropComb 20).dropReq 11).passAnswer 20 9 (.word 5)).req? 8).map (·.uid.isSome) = some true) := by
  decide +kernel

/-! ## Engines, arrivals, dispatch, boards, indexes -/

/-- A copy of two words by seat 0. -/
def wOp : EngOp :=
  { kind := .copy, seat := 0, uid := 7, asid := 0, launch := 0, fields := (List.replicate 32 0).set 3 16, segBase := 0, segLen := 0x10000, ccore := 0,
    committedAt := 0, done := 0, doneSet := [], started := [], status := none, cancelled := false, word := none }

/-- Engine 1 at work on an operation. -/
def wEngine (op : EngOp) : State := (sample sampleThread).setEngine 1 ⟨[], some op⟩

/-- A bound queue register of context 0. -/
def wQueue (kind : QKind) (n : Nat) : Queue :=
  { kind := kind, asid := 0, param := 0, words := List.replicate n (0, 0), binder := 7, spilledTotal := 0, spilled := [], base := 0, feeder := none, popped := 0, overflow := [], unwritten := [] }

/-- A collective of core 0 alone, whose reduction agrees or, as a broadcast from a device that is not this one, does not. -/
def wColl (agrees : Bool) : Collective :=
  ⟨0, 0, [0], false, [(0, { wOp with kind := .collective, fields := if agrees then (List.replicate 32 0).set 3 1 else ((List.replicate 32 0).set 0 3).set 4 0x10000 })],
    some 0, some 0, false, 0, false, [], 0, [], none, false⟩

/-- A message of the sample machine's thread, on its way. -/
def wMsg (kind : MsgKind) (dst : Word) : Msg := ⟨kind, dst, List.replicate 8 0, 0, some 7, 0, 0, 0, 0, true, .going, none, false, some 0⟩

theorem witness_EngineAndInboxStepResults_engines :
    (let s := (sample sampleThread).setEngine 1 ⟨[wOp], none⟩
     s.completionOut 1 = false ∧ (s.engine 1).active = none ∧ (s.engine 1).committed = wOp :: [] ∧ (s.setMsg 9 (wMsg (.completion 1) 0)).completionOut 1 = true) ∧
    ([({ wOp with status := some (2, 0, 0) } : EngOp), { wOp with done := 2 }, { wOp with cancelled := true }].all fun op =>
      let s := wEngine op
      decide ((s.engine 1).active = some op) && (s.engReqs 1).isEmpty && !s.engineAtBank 1 && op.word.isNone
        && (op.status.isSome || decide (op.done = op.units) || op.cancelled)) = true ∧
    wOp.done ≠ wOp.units ∧
    (∀ q ∈ [wQueue .fifo 0, wQueue .stream 0, wQueue .stream 16],
      let s := (wEngine { wOp with word := some 5 }).modCore 0 fun c => c.setQueue 0 (some q)
      (s.engine 1).active = some { wOp with word := some 5 } ∧ (s.core (streamOf wOp.fields (coreOf wOp.seat)).1).queue (streamOf wOp.fields (coreOf wOp.seat)).2 = some q ∧
        ({ wOp with word := some 5 } : EngOp).stopped = false ∧ q.asid = wOp.asid ∧ q.overflow = [] ∧ s.asidOn 0 0 = true) ∧
    (∀ b ∈ [true, false], let s := (sample sampleThread).setColl 20 (wColl b)
      FMap.find? s.fab.collectives 20 = some (wColl b) ∧ (wColl b).joined.length = (wColl b).cores.length ∧ collAgrees s (wColl b) (collFields (wColl b)) = b ∧
        (wColl b).joinDeadline = some 0 ∧ 0 ≤ s.cycle ∧ (wColl b).ready ≠ none ∧ enginesBusy s 20 (wColl b) = false) ∧
    (((sample sampleThread).setMsg 9 (wMsg (.completion 1) 0)).net.msgs = [(9, wMsg (.completion 1) 0)] ∧
      (wMsg (.completion 1) 0).deadline = some 0 ∧ 0 ≤ (sample sampleThread).cycle) := by
  decide +kernel

theorem witness_EngineAndInboxStepResults_inbox :
    (let s := (sample sampleThread).setMsg 9 (wMsg .send 0)
     s.msg? 9 = some (wMsg .send 0) ∧ (wMsg .send 0).stage = .going ∧ s.seatAccepts 0 0 = true ∧ s.seatAccepts 1 0 = false ∧ (s.core 0).ring = none ∧
     ((wTrapped 0).core 0).ring ≠ none ∧ ((wTrapped 0).core 0).hasRoom = true ∧ ((wTrapped 8).core 0).hasRoom = false ∧ ((wTrapped 8).core 0).held.length < 2 ∧
     2 ≤ (((wTrapped 8).modCore 0 fun c => { c with held := List.replicate 2 ([], 0, none) }).core 0).held.length) ∧
    (let s := (wTrapped 0).modCore 0 fun c => { c with held := [([], 0, none)] }
     (s.core 0).held = [([], 0, none)] ∧ (s.core 0).notices = [] ∧ (s.core 0).hasRoom = true ∧ (s.core 0).writing = [] ∧ (s.core 0).ring ≠ none ∧
     (let x := s.modCore 0 fun c => { c with held := [], writing := [⟨0, [], 0, 0, 0, none⟩] }
      (x.core 0).writing = [⟨0, [], 0, 0, 0, none⟩] ∧ (x.core 0).held = [] ∧ (x.core 0).notices = [] ∧ 0 ≤ x.cycle)) ∧
    (∀ q ∈ [none, some (wQueue .fifo 0), some (wQueue .port 0), some (wQueue .port 8)],
      let s := ((sample sampleThread).setMsg 9 (wMsg (.port 3) 0)).modCore 0 fun c => c.setQueue 3 q
      s.msg? 9 = some (wMsg (.port 3) 0) ∧ (s.core ((wMsg (.port 3) 0).dst.toNat % 2048)).queue 3 = q ∧
        (wQueue .port 0).param.toNat % 2048 = coreOf (wMsg (.port 3) 0).seat ∧ (wQueue .port 0).param.toNat / 2 ^ 16 % 256 = s.device.toNat) := by
  decide +kernel

/-- A queue of sixteen packets whose ring is the page at VA 0. -/
def wRec : QueueRec := { QueueRec.init with v := true, trig := true, log2n := 4 }
def wRing (q : QueueRec) : State := (wPage false (sample sampleThread)).setQueue 0 q

theorem witness_DispatchStepResults_queues :
    (let m := wMsg .enq 0
     let s := (wRing wRec).setMsg 9 m
     s.msg? 9 = some m ∧ m.stage = .going ∧ (sample sampleThread).queue? 0 = none ∧ s.queue? (m.dst.toNat % 2 ^ 17) = some wRec ∧ wRec.v = true ∧ wRec.asid = m.asid ∧
     (s.disp? (queueStation 0)).cancelled.contains (wRec.jobOf m.payload) = false ∧
     ((s.setDisp 0 { DispStation.init with cancelled := [0] }).disp? (queueStation 0)).cancelled.contains (wRec.jobOf m.payload) = true ∧
     (wRec.tail - wRec.head).toNat < 2 ^ wRec.log2n.toNat ∧ 2 ^ wRec.log2n.toNat ≤ (({ wRec with tail := 16 } : QueueRec).tail - wRec.head).toNat ∧
     (s.landPieces 0).access wRec.asid (wRec.ring + 64 * (wRec.tail.toNat % 2 ^ wRec.log2n.toNat)) false false true = .ok 0 true true false false) ∧
    (let q : QueueRec := { wRec with tail := 1 }
     let s := wRing q
     s.queue? 0 = some q ∧ (∀ p ∈ s.net.reqs, p.2.op ≠ .ring 0) ∧ q.wanted = some 0 ∧ q.head ≠ q.tail ∧
     ∀ p ∈ ([0, 1] : List (BitVec 8)),
       let r := { wReq (.ring 0) 0 with stage := .answered, answer := some (.data 0 p true true false) }
       let s := s.setReq 9 r
       s.net.reqs.find? (fun p => p.2.op == .ring 0 && p.2.stage == .answered) = some (9, r) ∧ r.off = q.head.toNat ∧ q.wanted = some r.off) ∧
    (let q : QueueRec := { wRec with tail := 1, headCache := [(0, List.replicate 8 0)] }
     let s := wRing q
     (s.disp? 0).slots.length < 4 ∧ s.winner 0 = some (0, q) ∧ q.headPacket = some (List.replicate 8 0) ∧ (s.disp? 0).cancelled.contains (q.jobOf (List.replicate 8 0)) = false ∧
     q.dropped.contains q.head.toNat = false) := by
  decide +kernel

/-- A packet of two threads in expansion, `next` of them placed, for a launch on core 1. -/
def wSlot (next : Nat) : Slot4 :=
  { queue := 0, packet := [0, 0, 2, 0, 0, 0, 0, 0], launch := 1, job := 0, task := 30, next := next, nextWid := 0, exhausted := false, lastPlaced := 0 }
def wExpand (next : Nat) : State :=
  ((sample sampleThread).setDisp 0 { DispStation.init with slots := [wSlot next] }).setLaunch 1
    { wLaunch with hdr := ((List.replicate 32 0).set 17 0x100).set 18 1, coreList := [1] }

theorem witness_DispatchStepResults_launches :
    (∀ k ∈ [0, 2], ((wExpand k).disp? 0).slots.find? (fun x => x.task == 30) = some (wSlot k) ∧ ((wExpand k).launch? (wSlot k).launch.toNat).isSome = true) ∧
    ((wSlot 2).packet.getD 2 0).toNat % 2 ^ 32 ≤ (wSlot 2).next ∧ (wSlot 0).next < ((wSlot 0).packet.getD 2 0).toNat % 2 ^ 32 ∧
    (wExpand 0).placeFor { wLaunch with hdr := ((List.replicate 32 0).set 17 0x100).set 18 1, coreList := [1] } 0 0 = some (1, 1, []) ∧
    (([⟨false, false, 4095, 0, 0, 0⟩, ⟨true, false, 4095, 0, 0, 2⟩, ⟨true, false, 4095, 0, 0, 1⟩, ⟨true, false, 4095, 0, 0, 0⟩] : List DepCtr).all fun d =>
      decide (((wRing { wRec with depv := true }).setDep 0 d).dep? 0 = d)) = true ∧
    ((wRing { wRec with depv := true }).gatedQueue 0 (BitVec.ofNat 12 0)).isSome = true ∧
    (let s := wRing { wRec with depv := true }
     s.selectsNow (s.gatedQueue 0 0) = false ∧ (s.addWork 0 (.dispatchSelection 0)).selectsNow ((s.addWork 0 (.dispatchSelection 0)).gatedQueue 0 0) = true) ∧
    (let l : Launch := { wLaunch with live := [] }
     let s := (sample sampleThread).setLaunch 1 l
     s.launch? 1 = some l ∧ s.launchIdle (BitVec.ofNat 32 1) l = true ∧ countSum l.sent = countSum l.received ∧ l.lastSweep ≠ some (countSum l.sent, countSum l.received) ∧
     s.launchIdle (BitVec.ofNat 32 1) wLaunch = false) ∧
    (let m := wMsg .launchDone 0
     ((sample sampleThread).setMsg 9 m).msg? 9 = some m ∧ m.deadline = some 0 ∧ 0 ≤ (sample sampleThread).cycle) := by
  decide +kernel

/-- A board of two by two squares on core 1, for launch 1; the thread 7 stands in the square at the origin. -/
def wBoard (n : Nat) (departing : Bool) (adm : List Nat) : Board :=
  { dims := 2, edge := [0, 0], count := [2, 2], origin := [0, 0], cores := [1], pool := [], spare := [],
    halves := [⟨0, [], 1, List.replicate n ⟨7, 5, 0, 0, departing⟩, adm⟩] }
def wOnBoard (b : Board) (src dst : Nat) : State :=
  ((sampleWith fun t => { t with launch := 1, kind := .roaming }).setLaunch 1 { wLaunch with board := some b }).setMig 9
    ⟨7, .setpos 0 0, src, dst, .going, false⟩

theorem witness_BoardAndLadderStepResults_board :
    (∀ n ∈ [1, 64], ∀ dst ∈ [0, 1], let s := wOnBoard (wBoard n false []) 0 dst
      (s.mig? 9).map (·.dst) = some dst ∧ s.board? 1 = some (wBoard n false []) ∧ (wBoard n false []).square ((wBoard n false []).rel 0 0) = some [0, 0] ∧
        ((wBoard n false []).halfAt 0 ((wBoard n false []).rel 0 0)).owner = 1 ∧ s.coreLoad 1 < 64 ∧ s.admissionLoad 1 < 16 ∧
        (n = 64 → s.splitHalf 1 (wBoard n false []) ((wBoard n false []).halfAt 0 ((wBoard n false []).rel 0 0)) = none) ∧
        s.boardTrap { sampleThread with launch := 1, kind := .roaming } = false ∧
        64 ≤ (s.modCore 1 fun c => { c with runq := List.replicate 64 ⟨8, 0⟩ }).coreLoad 1) ∧
    (let b := wBoard 1 true []
     b.halves.find? (fun h => h.morton == 0 && h.entries.any fun e => e.tid == BitVec.ofNat 64 5 && e.departing) = some ⟨0, [], 1, [⟨7, 5, 0, 0, true⟩], []⟩) ∧
    (∀ n ∈ [1, 64], let b := wBoard n false [9]
      let s := wOnBoard b 0 1
      s.board? (BitVec.ofNat 32 1) = some b ∧ (b.halves.filter fun h => h.morton == 0).map (·.admission) = [[9]] ∧
        (b.halfAt 0 (b.rel 0 0)).entries.length = n ∧ (b.halfAt 0 (b.rel 0 0)).owner = 1 ∧
        (s.mig? 9).map (fun g => (g.src, g.dst)) = some (0, 1) ∧ s.coreLoad 1 < 64) ∧
    (let r := { wReq (.neigh 0 2) 0 with key := ⟨0, 1, 0⟩ }
     let s := (wOnBoard (wBoard 1 false []) 0 1).setReq 10 r
     s.req? 10 = some r ∧ s.board? r.key.launch = some (wBoard 1 false []) ∧ r.results = [] ∧ r.answer = none ∧
     (wBoard 1 false []).nextHalf r 0 = some ⟨0, [], 1, [⟨7, 5, 0, 0, false⟩], []⟩ ∧ (wBoard 1 false []).nextHalf { r with snap := 100 } 0 = none ∧
     128 ≤ s.resultRoom r 2 ∧
     (s.modCore 0 fun c => c.setQueue 2 (some (wQueue .result 700))).resultRoom r 2 < 128) := by
  decide +kernel

/-- An index of 8-bit integers of dimension 1, with one entry of ordinal 0. -/
def wIndex (entries : FMap LEntry) : LIndex :=
  { asid := 0, dim := 1, fmt := 5, metric := 0, m := 2, bIns := 2, sb := 2, ethr := 0, cap := 2, storage := 0, size := 0, srn := 0, clusters := 0, n0 := 1, n1 := 1,
    offsets := [0, 0, 0, 0], proj := [], entries := entries, next := entries.length, pins := [], implicitPins := [], searches := 0, sampled := 0, samplek := 0,
    misses := 0, delmiss := 0, admitted := [], reruns := [], graphs := [], travels := [], destroying := false }
def wEntry : LEntry := ⟨[1], 5, none, 0, [], some [], false⟩

theorem witness_BoardAndLadderStepResults_ladder :
    ([ReqOp.ixpin, .delvec 0].all fun op =>
      let r := wReq op 3
      let s := (withReq r).setIndex 3 (wIndex [])
      decide (s.req? 9 = some r) && decide (r.stage = .going) && !s.laterArrival r && ((withReq r).index? r.addr).isNone
        && decide (s.index? r.addr = some (wIndex [])) && decide ((wIndex []).asid = r.asid)
        && decide (4096 ≤ ({ wIndex [] with pins := List.replicate 4096 0 } : LIndex).pins.length)) = true ∧
    ([(ReqOp.stvec, [(0, wEntry), (1, wEntry)]), (.stvec, []), (.delvec 0, [(0, wEntry)]), (.delvec 0, [])].all fun p =>
      let r := { wReq p.1 3 with seen := [1] }
      let ix : LIndex := { wIndex p.2 with admitted := [9] }
      let s := (withReq r).setIndex 3 ix
      decide (s.req? 9 = some r) && decide (s.index? r.addr = some ix)) = true ∧
    (wIndex [(0, wEntry), (1, wEntry)]).cap ≤ (wIndex [(0, wEntry), (1, wEntry)]).entries.length ∧ ((wIndex []).insert [1] 0).toOption.isSome = true ∧
    FMap.find? (wIndex [(0, wEntry)]).entries (0 : Word).toNat = some wEntry ∧ wEntry.del = none ∧
    (let r := { wReq .stvec 3 with reading := some 0 }
     let s := (withReq r).setIndex 3 (wIndex [])
     r.needsBlock = false ∧ (wReq .stvec 3).needsBlock = true ∧ (wIndex []).accept [1] = some [1] ∧
     (match readBlock s r (wIndex []) with | .ok _ _ _ => true | _ => false) = true ∧ s.laterArrival r = false) ∧
    (let r := { wReq (.ldnear true 2) 3 with stage := .waiting, seen := [1], mask := 1, snap := 0 }
     let ix := { wIndex [(0, wEntry)] with travels := [(9, [])] }
     FMap.find? ix.travels 9 = some [] ∧
     ix.damagedIn (ix.search r.seen r.snap (r.mask.toNat / 512 % 1024) (r.mask.toNat % 512) true).2.1 = none ∧
     (let bad := { ix with entries := [(0, { wEntry with damaged := true })] }
      bad.damagedIn (bad.search r.seen r.snap (r.mask.toNat / 512 % 1024) (r.mask.toNat % 512) true).2.1 = some 0) ∧
     ((withReq r).setIndex 3 ix).req? 9 = some r ∧ ix.damagedIn (ix.search r.seen r.snap (r.mask.toNat / 512 % 1024) (r.mask.toNat % 512) true).2.1 = none ∧
     (ix.search r.seen r.snap (r.mask.toNat / 512 % 1024) (r.mask.toNat % 512) true).1 ≠ []) ∧
    (let r := { wReq (.ixstat 2) 3 with results := [1, 2] }
     (withReq r).req? 9 = some r) ∧
    (let ix : LIndex := { wIndex [(0, { wEntry with del := some 0 })] with next := 2 }
     ix.reclaimable = [0] ∧ (wIndex [(0, wEntry)]).reclaimable = []) ∧
    (let ix : LIndex := { wIndex [(0, wEntry)] with reruns := [(9, [1], 0, 1, [0])] }
     ((sample sampleThread).setIndex 3 ix).indexes = [(3, ix)] ∧ ix.reruns = [(9, [1], 0, 1, [0])]) := by
  decide +kernel

/-! ## The matrix unit, doublets, the host -/

/-- A job of seat 0 at tile 0. -/
def wJob (op : MuOp) (taken : Bool) : MuJob :=
  { seat := 0, uid := 7, op := op, off := 0, base := 0, segLen := 0x10000, step := 0, taken := taken, issued := 0, completes := none, asked := 0, got := [],
    badOff := none, fetch := none, undo := [] }
/-- Tile 0 in a state of its unit, with one job and weight slot 0 holding a record or nothing. -/
def wTile (mu : MuState) (jobs : List MuJob) (r : Option SlotRec) : State :=
  (sample sampleThread).modTile 0 fun x => { x with mu := mu, jobs := jobs, slots := x.slots.setIfInBounds 0 ⟨r⟩ }
/-- An MMA of one step over 8-bit integers, and a weight record for it. -/
def wMma : MuOp := .mma true 0 0 1 5 0 0
def wRecord : SlotRec := ⟨5, 0, 1, List.replicate 64 0, false⟩

theorem witness_MatrixAndDoubletStepResults_unit :
    ([wMma, .mst 0 false 0 0, .mldw 0 0 1 5 0].all fun op => decide (((wTile .idle [wJob op false] none).tile 0).current = some (wJob op false))) = true ∧
    (wTile .idle [wJob wMma false] none).slotRec 0 0 = none ∧ (wTile .idle [wJob wMma false] (some wRecord)).slotRec 0 0 = some wRecord ∧
    pairOk 5 wRecord.fmt = true ∧ pairOk 0 wRecord.fmt = false ∧ 1 ≤ wRecord.kcnt ∧ wRecord.kcnt < 2 ∧
    (let s : State := { wTile .full [wJob wMma true] (some wRecord) with cycle := 1 }
     (s.tile 0).mayStep s.cycle s.fw.throttle = true ∧ ((wTile .idle [wJob wMma true] none).tile 0).mayStep 0 16 = false ∧
     (s.tile 0).operand ((wJob wMma true).entry 5 0 0) = none ∧ s.slotRec 0 0 = some wRecord ∧ wRecord.damaged = false ∧
     ((s.modTile 0 fun x => x.buffer ((wJob wMma true).entry 5 0 0)).tile 0).operand ((wJob wMma true).entry 5 0 0) =
       some ((wJob wMma true).entry 5 0 0) ∧
     ((wJob wMma true).entry 5 0 0).poison = none) ∧
    (∀ c ∈ [0, 8], let j := { wJob wMma true with completes := some c }
      let s := (wTile .full [j] none).modSeat 0 fun x => { x with off := some .matrix }
      (s.tile 0).jobs = [j] ∧ (s.seat 0).off = some .matrix) ∧
    (∀ mu ∈ [MuState.ramp 0, .full, .down 0], ((wTile mu [] none).tile 0).mu = mu ∧ ((wTile mu [] none).tile 0).working = false ∧
      ((wTile mu [wJob wMma true] none).tile 0).working = true ∧ ((wTile mu [] none).tile 0).windowEnd ≤ 0) := by
  decide +kernel

/-- A doublet on seats 0 and 8. -/
def wDoublet (d : Doublet) : State := (sample sampleThread).setDoublet 0 d

theorem witness_MatrixAndDoubletStepResults_doublets :
    (∀ d ∈ [(⟨0, [], [], [], some sampleThread, none, none, true⟩ : Doublet), ⟨0, [], [], [], some sampleThread, none, none, false⟩,
        ⟨0, [], [], [5], none, none, some 0, true⟩],
      (wDoublet d).doublet? 0 = some d ∧ (wDoublet d).heldReady 0 d = true ∧ ((wDoublet d).seat 0).occ = some 7 ∧ (wDoublet d).thread? 7 = some sampleThread ∧ sampleThread.regs.pc = 0 ∧
      0 + max 1 (((wDoublet d).seat 0).doubletc.toNat / 2 ^ 16 % 2 ^ 16) * 1024 ≤ State.cycle { wDoublet d with cycle := 1024 } ∧
      ¬ 0 + max 1 (((wDoublet d).seat 0).doubletc.toNat / 2 ^ 16 % 2 ^ 16) * 1024 ≤ (wDoublet d).cycle) ∧
    (let d : Doublet := ⟨0, [], [9], [], none, none, none, true⟩
     let s := ((wDoublet d).setReq 9 (wReq .store 0)).setReq 10 { wReq (.writeBack 0) 0 with uid := none }
     s.doublet? 0 = some d ∧ s.heldReady 0 d = false) := by
  decide +kernel

theorem witness_HostStepResults :
    (sample sampleThread).fw.powerCap < 2301 ∧ 2300 ≤ (sample sampleThread).fw.powerCap ∧ ((sample sampleThread).seat 0).occ = some 7 ∧
    (sample sampleThread).thread? 7 = some sampleThread ∧ (wRing wRec).queue? 0 = some wRec := by
  decide +kernel

theorem witness_SavedContext :
    let s := sample { sampleThread with kind := .roaming }
    (s.seat 0).occ = some 7 ∧ FMap.find? s.fab.doublets 0 = none ∧ sampleThread.owed = [] ∧ s.routeOf 7 = none ∧ sampleThread.cancelTaken = false ∧
    (∀ v ∈ s.disp.saved, v.uid ≠ 7) ∧ s.mem.wf = true := by
  decide +kernel

/-! ## Firmware commands -/

/-- Function 0, which has accepted every feature, has a command of sixteen words on queue 1 for context 0. -/
def wCmd (ws : List Word) (s : State) : State :=
  { wPage false s with fw := { (wPage false s).fw with features := [(0, 0x3F)], running := [(1, ws)] } }
def wWords (op : Nat) (args : List Word) : List Word := (BitVec.ofNat 64 op :: args) ++ List.replicate (15 - args.length) 0

/-- The words of a running command, its opcode and its reserved bits. -/
def commandedNow (s : State) (op : Nat) (ws : List Word) : Bool :=
  decide (FMap.find? s.fw.running 1 = some ws) && decide (ws.length = 16) && decide ((ws.getD 0 0).toNat % 2 ^ 16 = op)
    && decide ((ws.getD 0 0).toNat / 2 ^ 16 % 2 ^ 16 = 0)

theorem commanded_of_now {s : State} {op : Nat} {ws : List Word} (h : commandedNow s op ws = true) : Commanded s 0 1 op (ws.getD · 0) := by
  simp only [commandedNow, Bool.and_eq_true, decide_eq_true_eq] at h
  exact ⟨⟨ws, h.1.1.1, h.1.1.2, fun _ => rfl⟩, h.1.2, h.2⟩

theorem witness_CommandResults_opcodes :
    ([0x01, 0x02, 0x03, 0x04, 0x05, 0x10, 0x11, 0x12, 0x13, 0x14, 0x15, 0x16, 0x20, 0x21, 0x22, 0x23, 0x24, 0x25, 0x26, 0x30, 0x31, 0x32, 0x33,
      0x40, 0x41, 0x42, 0x43, 0x44, 0x45, 0x46, 0x47, 0x00, 0x48].all fun op =>
      let s := wCmd (wWords op []) (sample sampleThread)
      commandedNow s op (wWords op []) && s.owns 0 0 && (FMap.find? s.fw.features 0).isSome
        && (FMap.find? ({ s with fw := { s.fw with features := [] } } : State).fw.features 0).isNone && s.feature 0 4
        && ((s.context? 0).map (·.debug)).getD false && decide ((s.seat 0).occ = some 7) && decide (sampleThread.asid = 0)) = true := by
  decide +kernel

theorem witness_CommandResults_memory :
    (let s := wCmd (wWords 0x12 [0x10000, 0, 7, 0x10000, 1]) (sample sampleThread)
     rangeBad 0x10000 0 1 = false ∧ rangeBad 0 0 0 = true ∧ s.rangeMoving 0 0x10000 65536 = false ∧ s.rangeBusy 0 0x10000 65536 3 = false ∧
     (mapLeaves s 0 3 65536 7 0x10000 s.freeCtr 1 0x10000).toOption.isSome = true) ∧
    (let s := wCmd (wWords 0x14 [0, 0]) (sample sampleThread)
     s.leafAt 0 3 0 = some 0x107 ∧ s.leafAt 0 3 0x10000 = none ∧ entryV 0x107 = true ∧ entryTier 0x107 = 0 ∧ s.rangeMoving 0 0 (2 ^ 16) = false ∧ s.feature 0 2 = true ∧
     leafOk s.part 3 0 (mapLeaf ((setBits 0x107 3 2 1).toNat % 128) 0x20_0000) = false ∧
     leafOk .hm9m1 3 0 (mapLeaf ((setBits 0x107 3 2 1).toNat % 128) 0x20_0000) = true ∧ s.frameUsed 1 0x20_0000 (2 ^ 16) = false) ∧
    (let s := wCmd (wWords 0x15 [0, 0, 0x8000_0000]) (sample sampleThread)
     ((s.cluster 0).owner 0).v = false ∧ ((wOwned true s).cluster 0).owner 0 = ⟨true, true, 0⟩ ∧ s.owns 0 0 = true) ∧
    (let s := wCmd (wWords 0x16 [1, 0, 0, 8]) (sample sampleThread)
     s.span 0 0 8 true false = .ok ∧ s.span 0 0x10000 8 true false = .bad 0x10000 ∧ s.vaPoison 0 0 8 = none) := by
  decide +kernel

/-- The words of a launch header of one thread. -/
def wHeader (j : Nat) : Word := if 1 ≤ j ∧ j ≤ 6 then 1 else 0
/-- The header at VA 0, in frame 0. -/
def wWithHeader (s : State) : State := (List.range 6).foldl (fun s j => s.physWrite64 (8 * (j + 1)) 1) s

theorem witness_CommandResults_queues :
    (let s := wWithHeader (wCmd (wWords 0x20 [0, 0, 4, 0, 0]) (sample sampleThread))
     s.readable 0 0 256 = .ok ∧ headerBad (fun j => s.vaWord 0 (8 * j)) = false ∧ s.vaWord 0 (8 * 17) = 0 ∧ s.vaWord 0 (8 * 9) = 0 ∧
     (s.vaWord 0 (8 * 7)).getLsbD 23 = false ∧ (s.freeQueue 0).isSome = true) ∧
    (let s := (wCmd (wWords 0x22 []) (sample sampleThread)).setQueue 0 wRec
     s.ownQueue 0 0 = some (0, wRec) ∧ wRec.spawned = [] ∧ wRec.depv = false ∧
     (match s.admitPacket 0 wRec (List.replicate 8 0) none (!wRec.trig && !wRec.depv) with | .taken _ (some _) => true | _ => false) = true ∧
     (match s.admitPacket 0 { wRec with tail := 16 } (List.replicate 8 0) none false with | .full => true | _ => false) = true) ∧
    (let s := wCmd (wWords 0x23 [8, 0, 0]) (sample sampleThread)
     s.scopeHeld 0 8 = false ∧ (s.context? 0).isSome = true) ∧
    (let s := (wCmd (wWords 0x24 [0]) (sample sampleThread)).physWrite64 0 2
     let s := s.physWrite64 8 0x1_0001_0001
     s.readable 0 0 64 = .ok ∧ (boardOfWords (fun j => s.vaWord 0 (8 * j)) [] 0 0).isSome = true ∧ ((s.context? 0).map (·.boards)) = some []) := by
  decide +kernel

/-- Index parameters: number 3, dimension 4 of 8-bit integers, one page at VA 0x10000. -/
def wIxBlock (j : Nat) : Word :=
  match j with
  | 0 => 0x4_0003
  | 1 => 0x1_0002_0002
  | 3 => 16
  | 4 => 0x10000
  | 5 => 0x20000
  | 6 => 1
  | 7 => 0x101
  | 9 => 0x3F80_0000_3F80_0000
  | _ => 0

theorem witness_CommandResults_tables :
    ((indexOfBlock 0 wIxBlock).map fun p => (p.1, p.2.srn)) = some (3, 0) ∧ (indexOfBlock 0 fun _ => 0).isNone = true ∧
    (let s := wCmd (wWords 0x26 [3]) (sample sampleThread)
     s.index? 3 = none ∧ (s.setIndex 3 (wIndex [])).indexOpen 3 (wIndex []) = false ∧
     (s.setIndex 3 (wIndex [])).indexOpen 3 { wIndex [] with admitted := [9] } = true ∧ s.rangeMapped 0 0x10000 0x20000 = false) ∧
    (let s := (wCmd (wWords 0x30 [1, 1, 0]) (sample sampleThread)).setQueue 0 wRec
     let x : Node := { packet := List.replicate 8 0, queue := 0, preds := 0, succ := 0xFFFF }
     let g : Graph := { asid := 0, v0 := [x], v1 := [x], cur := false, replays := [] }
     let live (v : Bool) : Replay := ⟨v, [0], [], [], none, 1⟩
     (graphTable s 0 [(0, x)]).isSome = true ∧ FMap.find? s.disp.graphs 1 = none ∧ (s.setGraph 1 g).graph? 1 0 = some g ∧ g.table g.cur = [x] ∧
     g.liveOf g.cur = 0 ∧ ({ g with replays := [live false] } : Graph).liveOf false ≠ 0 ∧ ({ g with replays := [live false] } : Graph).liveOf true = 0 ∧
     ({ g with replays := [live false, live true] } : Graph).liveOf true ≠ 0 ∧ s.queue? x.queue = some wRec ∧
     (match (s.setGraph 1 { g with replays := [⟨false, [0], [0], [], none, 1⟩] }).admitPacket 0 wRec x.packet none true with
       | .taken _ (some _) => true | _ => false) = true) ∧
    (∀ k ∈ List.range 16, ((sample sampleThread).disp? k).cancelled.length < 1024) ∧
    (let s := sample sampleThread
     (debugExtent (s.seat 0) 0 8).toOption = some 0 ∧ (debugExtent (s.seat 0) 0x10000 8).toOption = none ∧ s.firstPoison 0 0 8 = none ∧
     (s.seat 0).dbgHalt = false ∧ ((s.modSeat 0 fun x => { x with dbgHalt := true }).seat 0).dbgHalt = true) := by
  decide +kernel

/-- A command of several phases that has reached one: its words, and the phase as word 16. -/
def wAt (op : Nat) (args : List Word) (phase : Nat) : State :=
  let s := wCmd [] (sample sampleThread)
  { s with fw := { s.fw with running := [(1, wWords op args ++ [BitVec.ofNat 64 phase])] } }
def commandAtNow (s : State) (op phase : Nat) (ws : List Word) : Bool :=
  decide (FMap.find? s.fw.running 1 = some ws) && decide (ws.length = 17) && decide ((ws.getD 0 0).toNat % 2 ^ 16 = op)
    && decide ((ws.getD 16 0).toNat = phase)

theorem commandAt_of_now {s : State} {op phase : Nat} {ws : List Word} (h : commandAtNow s op phase ws = true) :
    CommandAt s 0 1 op (ws.getD · 0) phase := by
  simp only [commandAtNow, Bool.and_eq_true, decide_eq_true_eq] at h
  exact ⟨⟨ws, h.1.1.1, h.1.1.2, fun _ => rfl⟩, h.1.2, h.2⟩

theorem witness_CommandResults_phases :
    ([(0x12, 1), (0x12, 2), (0x13, 2), (0x14, 5), (0x25, 2 * 3 + 2), (0x26, 2), (0x32, 1), (0x33, 1)].all fun p =>
      let s := wAt p.1 [0, 0, 0, 0, 1] p.2
      commandAtNow s p.1 p.2 (wWords p.1 [0, 0, 0, 0, 1] ++ [BitVec.ofNat 64 p.2]) && s.owns 0 0 && (FMap.find? s.fw.features 0).isSome
        && !s.probesOpen 0 0 (2 ^ 16) && !s.stationsOpen 0 0 (2 ^ 16) && !s.broadcasting 0
        && (s.addWork 8 (.cancelBroadcast 0 3)).broadcasting 0) = true ∧
    (((wAt 0x25 [] 8).setIndex 3 (wIndex [])).index? 3 = some (wIndex []) ∧ (wAt 0x25 [] 8).stationsOpen 0 0 0 = false) ∧
    (let r (a : Option Nat) : Replay := ⟨false, [], [], [], a, 1⟩
     let g (a : Option Nat) : Graph := { asid := 0, v0 := [], v1 := [], cur := false, replays := [r a] }
     ∀ a ∈ [none, some 0], ((wAt 0x32 [1] 1).setGraph 1 (g a)).graph? 1 0 = some (g a)) ∧
    (∀ k ∈ List.range 16, (sample sampleThread).cancelFull k 0 = false) := by
  decide +kernel

/-! ## Traps, guards, turns -/

/-- The sample thread with a general register of its own value. -/
def sampleG (n : Nat) (v : Word) : Thread := { sampleThread with regs := { sampleThread.regs with g := sampleThread.regs.g.setIfInBounds n v } }
/-- The instruction may issue, for a variant of the sample thread. -/
def issuesFor (t : Thread) (i : Instr) : Bool := issuesNow (sample t) 7 t i
/-- It may issue with g2 holding v, which is what it reads. -/
def issuesAt (v : Word) (i : Instr) : Bool := issuesFor (sampleG 2 v) i && src i (sample (sampleG 2 v)) (sampleG 2 v) 0 == v

/-- The line at VA 0 in the instruction cache of core 0, a word at its start. -/
def wCached (w : BitVec 32) (s : State) : State := s.modCore 0 fun c => { c with icache := [⟨0, 0, w.setWidth 512, 0⟩] }

theorem witness_StepRunsDecoded :
    ([encode (.add ⟨1, 2, 3, false, false, 0⟩), 0xFFFF_FFFF].all fun w => decide (
      let s : State := { wCached w (sample sampleThread) with sched := [.turn 0] }
      let s0 : State := ({ s with sched := [] } : State).inTurn 0 sampleThread
      State.allows { s with sched := [] } (.turn 0) = true ∧ State.allows { s with sched := [] } (.turn 1) = false ∧
      (s.seat 0).occ = some 7 ∧ s.thread? 7 = some sampleThread ∧ (s0.imageNow 0 sampleThread).nextWord (coreOf 0) sampleThread = some w ∧
      (s0.seat 0).secondary = false ∧ idleTurn (s0.seat 0) sampleThread (s0.inboxDue 0 sampleThread) = false ∧ (s0.seat 0).accessOpen s0.cycle = false ∧
      ((s0.seat 0).timerDue && timerRuns sampleThread) = false ∧ s0.cancelDue sampleThread = false ∧ s0.inboxDue 0 sampleThread = false ∧
      (s0.seat 0).due = none ∧ s0.barrierOverdue sampleThread = none ∧ s0.swapDue 0 sampleThread = false ∧ sampleThread.recaptures = false ∧
      sampleThread.acquireDue = none ∧ (s0.seat 0).off = none ∧ sampleThread.movable = false)) = true := by
  decide +kernel

theorem witness_FalseGuardOnlyRetires :
    (([BitVec.allOnes 24, 0] : List (BitVec 24)).all fun full => decide (
      let t := { sampleThread with regs := { sampleThread.regs with full := full } }
      let i : Instr := .add ⟨1, 2, 3, false, false, 2⟩
      (guardField i).toNat ≠ 0 ∧ guardTrue t i = false ∧ t.regs.pwPoison = none ∧
      (sourceRegs i).any (fun p => decide (p.1 < 24 ∧ t.regs.view p.1 = .pending)) = (full == 0))) = true ∧
    (guardField (.add ⟨1, 2, 3, false, false, 0⟩)).toNat = 0 ∧ (sample sampleThread).thread? 7 = some sampleThread := by
  decide +kernel

theorem witness_TrapsInOrder :
    illOp (.ldls ⟨1, 2, false, 3, 0, 0⟩) ≠ none ∧ illOp (.add ⟨1, 2, 3, false, false, 0⟩) = none ∧
    regBad (.add ⟨40, 2, 3, false, false, 0⟩) sampleThread ≠ none ∧ illOp (.add ⟨40, 2, 3, false, false, 0⟩) = none ∧
    (let t := { sampleThread with sys := SysRegs.init }
     let i : Instr := .csrr ⟨1, 0x10, 0⟩
     illOp i = none ∧ regBad i t = none ∧ privBad i 0 ((sample t).seat 0) t ≠ none) ∧
    (let t := { sampleThread with regs := sampleThread.regs.poison 2 (poisonRec 0x06 0x10 64) }
     let i : Instr := .add ⟨1, 2, 3, false, false, 0⟩
     illOp i = none ∧ regBad i t = none ∧ privBad i 0 ((sample t).seat 0) t = none ∧ testSources (sample t) 0 t i = .trap 0x06 0x10 64) := by
  decide +kernel

theorem witness_TrapEntry :
    (let t := { sampleThread with sys := { SysRegs.init with uxvec := 0x100 } }
     let s := (sample t).modSeat 0 fun x => { x with deleg := 0x80 }
     t.sys.xstat.mode = false ∧ t.sys.xstat.uh = false ∧ (s.seat 0).deleg.getLsbD (0x07 : BitVec 8).toNat = true ∧ t.sys.uxvec ≠ 0) ∧
    (sampleThread.sys.xstat.sys = true ∧ (((sample sampleThread).modSeat 0 fun x => { x with xvec := 0x100 }).seat 0).xvec ≠ 0) ∧
    ((sample sampleThread).seat 0).xvec = 0 ∧ (sample sampleThread).thread? 7 = some sampleThread := by
  decide +kernel

theorem witness_TransferResults_targets :
    (([Instr.jr ⟨2, false, 0⟩, .jalr ⟨1, 2, false, 0⟩] : List Instr).all fun i => ([0, 0xFFFF_FFFF_FFFC, 0x1_0000_0000_0000, 2] : List Word).all fun v => issuesAt v i) = true ∧
    (0xFFFF_FFFF_FFFC : Word).toNat % 4 = 0 ∧ (0xFFFF_FFFF_FFFC : Word).toNat < 2 ^ 48 ∧ 2 ^ 48 ≤ (0x1_0000_0000_0000 : Word).toNat ∧ (2 : Word).toNat % 4 ≠ 0 ∧
    ([Instr.br ⟨1, 0⟩, .call ⟨1, 0⟩].all fun i => ([0, 0xFFFF_FFFF_FFF8, 0xFFFF_FFFF_FFFC, 2] : List Word).all fun pc =>
      issuesFor { sampleThread with regs := { sampleThread.regs with pc := pc } } i) = true := by
  decide +kernel

theorem witness_FrameCaptureAndReturn_cases :
    (let good := encode (.add ⟨1, 2, 3, false, false, 0⟩)
     let line : Line := (good ++ 0#32).setWidth 512 ||| ((encode (.add ⟨1, 2, 3, false, false, 0⟩)).setWidth 512 <<< 64)
     let s := (sample sampleThread).modCore 0 fun c => { c with icache := [⟨0, 0, line, 0⟩] }
     s.icacheWord 0 0 4 = some good ∧ s.icacheWord 0 0 8 = some good ∧ frameMajor good = true ∧ s.icacheWord 0 0 12 = some 0 ∧ frameMajor 0 = false ∧
     issuesNow s 7 sampleThread (.repf ⟨2, 0, 0, 0, 1, 0⟩) = true) ∧
    (let t := { sampleThread with sys := SysRegs.init }
     t.sys.xstat.mode = false ∧ t.sys.xstat.uh = false) ∧
    (([0, 2, 0x1_0000_0000_0000] : List Word).all fun v =>
      let t := { sampleThread with sys := { sampleThread.sys with xpc := v } }
      issuesFor t (.eret ⟨0⟩) && !t.inFrame && t.sys.xcause.extractLsb' 0 8 != 0x13) = true := by
  decide +kernel

theorem witness_TrapAndHaltResults_cases :
    ((sample sampleThread).context? 0 = none ∧
     (let s := wPage false (sample sampleThread)
      (((s.setContext 0 { fn := 0, table1 := 0, sys := true, debug := true, deleg := 0, faultq := 0, fatalovf := false, fqfail := false, scopes := [], boards := [], dying := false,
                          breakArmed := true }).context? 0).map (·.breakArmed)).getD false = true) ∧
     issuesFor { sampleThread with bar := { sampleThread.bar with event := true } } (.wfe ⟨0⟩) = true) := by
  decide +kernel

theorem witness_TrapAndHaltResults_words :
    ([0xFFFF_FFFF, 0xF800_0000#32, 0xF800_0002#32].all fun w => match decode w with | .error _ => true | .ok _ => false) = true ∧
    sampleThread.pred (guardOf 0xF800_0000).toNat = true ∧ sampleThread.pred (guardOf 0xF800_0002).toNat = false ∧
    sampleThread.inFrame = false ∧ sampleThread.regs.pwPoison = none := by
  decide +kernel

/-! ## Addresses at the ends of their ranges -/

theorem witness_LocalAt_offsets :
    (([Instr.ldl ⟨1, 2, false, 3, 0, 0⟩, .ldls ⟨1, 2, false, 2, 0, 0⟩, .stl ⟨1, 2, false, 3, 0, 0⟩, .ldw ⟨1, 2, false, 0, 0⟩, .lde ⟨1, 2, false, 0, 0⟩,
      .stf ⟨1, 2, false, 0, 0⟩, .sete ⟨2, false, 0, 0⟩, .faal ⟨1, 2, 3, false, false, 0⟩] : List Instr).all fun i => ([0, 0xFFF8, 0x10000, 1] : List Word).all fun v => issuesAt v i) = true ∧
    (let s := sample (sampleG 2 0)
     (s.seat 0).lbase = 0 ∧ (s.seat 0).segLen = 0x10000 ∧ transit (coreOf s.cur) 0 = 0 ∧ s.bankIdle (bankOf (ownCluster s) 0) (coreOf s.cur) = true ∧
     s.localPoisoned 0 0 = false ∧ (s.setLocalPoison 0 0 true).localPoisoned 0 0 = true ∧ s.localFull 0 0 = true ∧
     (s.setFull 0 0 false).localFull 0 0 = false ∧ sampleThread.park.counting = false) := by
  decide +kernel

theorem witness_LocalVectorResults_offsets :
    (([Instr.vldl ⟨1, 2, 0, 0, 0⟩, .vstl ⟨1, 2, 0, 0, 0⟩, .vldb ⟨1, 2, 0, 0, 0, 0⟩, .vgatl ⟨1, 2, 0, 0, 0⟩, .vscal ⟨1, 2, 0, 0, 0⟩] : List Instr).all fun i => ([0, 0xFFC0, 0x10000, 8] : List Word).all fun v => issuesAt v i) = true ∧
    (let t := sampleG 2 0
     let s := sample t
     ((List.range 8).all fun j => decide (transit (coreOf s.cur) (8 * j) = 0) && s.bankIdle (bankOf (ownCluster s) (8 * j)) (coreOf s.cur)) = true ∧ s.mem.wf = true ∧
     ((List.range 16).all fun j => decide ((laneOff 0 (vget t.vec.v 1 0) j).toNat < (s.seat 0).segLen ∧ (laneOff 0 (vget t.vec.v 2 0) j).toNat < (s.seat 0).segLen)) = true) := by
  decide +kernel

/-- A near-cache line of context 0 at VA 0, with dirty bytes or none. -/
def wLine (dirty : BitVec 64) (s : State) : State :=
  s.modCluster 0 fun c => { c with ncache := [⟨0, 0, 0, BitVec.allOnes 64, dirty, true, 0, 0⟩] }

theorem witness_GlobalAt_addresses :
    (([Instr.ldg ⟨1, 2, false, 3, 0, 0⟩, .ldgs ⟨1, 2, false, 2, 0, 0⟩, .stg ⟨1, 2, false, 3, 0, 0⟩, .stgm ⟨1, 2, 1, 0⟩, .faa ⟨1, 2, 3, false, false, 0⟩,
      .lr ⟨1, 2, false, 0⟩, .sc ⟨1, 2, 3, false, false, 0⟩] : List Instr).all fun i => ([0, 0xFFFF_FFFF_FFF8, 0x1_0000_0000_0000, 1] : List Word).all fun v => issuesAt v i) = true ∧
    (([Instr.vldg ⟨1, 2, 0, 0, 0⟩, .vstg ⟨1, 2, 0, 0, 0⟩] : List Instr).all fun i => ([0, 0xFFFF_FFFF_FFC0, 0x1_0000_0000_0000, 8] : List Word).all fun v => issuesAt v i) = true ∧
    sampleThread.occupies (.global 0) = false ∧ ({ sampleThread with owed := [⟨9, .load, [.global 0], .none, false⟩] } : Thread).occupies (.global 0) = true ∧
    ((sample sampleThread).ncFind 0 0 0).isNone = true ∧ ((wLine 0 (sample sampleThread)).ncFind 0 0 0).map (·.dirty) = some 0 ∧
    ((wLine 1 (sample sampleThread)).ncFind 0 0 0).map (·.dirty) = some 1 ∧
    issuesFor { sampleThread with kind := .roaming } (.ldg ⟨1, 2, false, 3, 0, 0⟩) = true ∧
    ((wDoublet ⟨0, [], [], [], none, none, none, false⟩).doublet? 0).isSome = true := by
  decide +kernel

theorem witness_GlobalAtomicResults_waitrs :
    (let i : Instr := .waitrs ⟨1, 2, 12, false, false, 0⟩
     let t := (List.range 4).foldl (fun (t : Thread) k => { t with regs := { t.regs with g := t.regs.g.setIfInBounds (2 + k) (BitVec.allOnes 64) } }) sampleThread
     issuesFor t i = true ∧ ((List.range 4).all fun k => src i (sample t) t k == BitVec.allOnes 64) = true ∧
     (let u := { sampleG 2 0 with kind := .roaming }
      issuesFor u i = true ∧ src i (sample u) u 0 = 0 ∧ ((List.range 4).all fun k => decide ((src i (sample u) u k).toNat % 8 = 0 ∧ (src i (sample u) u k).toNat < 2 ^ 48)) = true ∧
        u.owed = []) ∧
     issuesAt 4 i = true ∧ issuesAt 0x1_0000_0000_0000 i = true) := by
  decide +kernel

theorem witness_MeshAccessResults_addresses :
    (([Instr.ldr ⟨1, 2, false, 0, 0⟩, .str ⟨1, 2, false, 0, 0⟩, .ldre ⟨1, 2, false, 0, 0⟩, .strf ⟨1, 2, false, 0, 0⟩] : List Instr).all fun i => ([8, 1, 0x100_0000] : List Word).all fun v => issuesAt v i) = true ∧
    (8 : Word).extractLsb' 24 27 = 0 ∧ (0x100_0000 : Word).extractLsb' 24 27 ≠ 0 ∧ sampleThread.occupies (.mesh 0) = false ∧
    (sample sampleThread).accessMove 0 sampleThread 8 = none ∧
    (let t := { sampleThread with kind := .roaming, launch := 1, sys := SysRegs.init }
     let s := (sample t).setLaunch 1 { wLaunch with cores := [0, 64], hdr := (List.replicate 32 0).set 7 0x40_0000 }
     s.accessMove 0 t (2 ^ 51 + 8) = some 64 ∧ t.owed = []) := by
  decide +kernel

/-! ## Releases, barriers, kinds, boards -/

/-- A thread that owes an answer; one with a deferred fault. -/
def wOwing (c : AnsClass) : Thread := { sampleThread with owed := [⟨9, c, [], .none, false⟩] }
def wDeferred : Thread := { sampleThread with defer := poisonRec 0x06 0x10 0 }

theorem witness_AfterRelease_cases :
    ([Instr.fence ⟨0, 0, 0⟩, .fence ⟨1, 0, 0⟩, .fence ⟨2, 0, 0⟩, .bar ⟨0, 0⟩, .cellsync ⟨0⟩, .exit ⟨0⟩, .ifence ⟨0⟩, .unanchor ⟨0⟩, .send ⟨1, 12, true, 0⟩, .ego ⟨0, 0⟩].all fun i =>
      issuesFor sampleThread i && issuesFor (wOwing .load) i && issuesFor wDeferred i) = true ∧
    ((wOwing .store).owed.all fun x => x.cls != .load) = true ∧ wDeferred.defer ≠ 0 ∧ sampleThread.defer = 0 ∧ (sample sampleThread).releaseLines 0 sampleThread = [] ∧
    (let t := { sampleThread with dirtyLines := ⟨[0], false⟩ }
     (wLine 1 (sample t)).releaseLines 0 t ≠ []) ∧
    (let t := { sampleThread with dirtyLines := ⟨[0], false⟩ }
     let s := (sample t).setReq 9 (wReq (.writeBack 0) 0)
     s.flyingFor 0 t ≠ [] ∧ s.mustWait 0 t 0 = true ∧ s.releaseLines 0 t = [] ∧ (sample sampleThread).flyingFor 0 sampleThread = [] ∧
     (sample sampleThread).mustWait 0 sampleThread 0 = false) ∧
    (sample sampleThread).boundaryClear 0 = true ∧ (wDoublet ⟨0, [(0, 0, true)], [], [], none, none, none, false⟩).boundaryClear 0 = false := by
  decide +kernel

theorem witness_BarrierResults_cases :
    (let t := { sampleThread with launch := 1 }
     let s := (sample t).setLaunch 1 wLaunch
     s.launchOf t = some wLaunch ∧ (sample sampleThread).launchOf sampleThread = none ∧ issuesNow s 7 t (.bar ⟨1, 0⟩) = true ∧ t.bar.barr = false ∧ t.bar.carr = false ∧
     (wLaunch.barrier 1 0).count + 1 + wLaunch.exitedIn 1 0 < wLaunch.members 1 ∧
     ({ wLaunch with hdr := [] } : Launch).members 1 ≤ (wLaunch.barrier 1 0).count + 1 + ({ wLaunch with hdr := [] } : Launch).exitedIn 1 0 ∧
     (wLaunch.barrier 7 0).count + 1 + wLaunch.exitedIn 6 0 < wLaunch.members 6 ∧ s.merging 1 = false ∧
     ({ wLaunch with hdr := [] } : Launch).members 6 ≤ (wLaunch.barrier 7 0).count + 1 + ({ wLaunch with hdr := [] } : Launch).exitedIn 6 0) ∧
    ([0, 1].all fun g => let t := { sampleThread with launch := 1, bar := { sampleThread.bar with barr := true, carr := true, blev := 1, bgen := g } }
      let s := (sample t).setLaunch 1 wLaunch
      issuesNow s 7 t (.bar ⟨1, 0⟩) && issuesNow s 7 t (.cellsync ⟨0⟩) && (s.barrierGen t 1 0 == t.bar.bgen) == (g == 0) &&
        (s.barrierGen t 7 0 == t.bar.bgen) == (g == 0)) = true := by
  decide +kernel

theorem witness_AnchorResults_cases :
    (let t := { sampleThread with kind := .roaming, launch := 1 }
     let s := (sample t).setLaunch 1 { wLaunch with hdr := (List.replicate 32 0).set 8 (BitVec.ofNat 64 (2 ^ 56)) }
     issuesNow s 7 t (.anchor ⟨0⟩) = true ∧ bitsOf (s.hdrWord t 8) 56 5 = 1 ∧
     ((List.range 16).filter fun k => !(List.range 32).any fun j => (s.seat j).wbseg.getLsbD k).length = 0 ∧
     ((List.range 16).filter fun k => !(List.range 32).any fun j => ((s.modSeat 0 fun x => { x with wbseg := 0x7FFF }).seat j).wbseg.getLsbD k).length = 1 ∧
     issuesNow s 7 t (.unanchor ⟨0⟩) = true) := by
  decide +kernel

/-- The thread stands on the board of its launch. -/
def wPlaced : Thread := { sampleThread with launch := 1, kind := .roaming, placed := true, sys := SysRegs.init }
def wStands : State := (sample wPlaced).setLaunch 1 { wLaunch with board := some (wBoard 1 false []), cores := [0, 1] }

theorem witness_BoardAndMigrResults_cases :
    (let t := { sampleThread with launch := 1 }
     (sample t).boardOf t = none) ∧
    (wStands.boardOf wPlaced = some (wBoard 1 false []) ∧ (wBoard 1 false []).entryOf 7 = some (⟨0, [], 1, [⟨7, 5, 0, 0, false⟩], []⟩, ⟨7, 5, 0, 0, false⟩) ∧
     issuesNow wStands 7 wPlaced (.setpos ⟨0, 0, 0⟩) = true ∧ (wBoard 1 false []).square ((wBoard 1 false []).rel 0 0) = some [0, 0] ∧
     (wBoard 1 false []).square ((wBoard 1 false []).rel 0x20000 0) = none ∧ wPlaced.kind ≠ .anchored ∧ wPlaced.role = false ∧
     (src (.setpos ⟨0, 0, 0⟩) wStands wPlaced 0, src (.setpos ⟨0, 0, 0⟩) wStands wPlaced 1) = (0, 0) ∧
     ((⟨0, [], 1, [⟨7, 5, 0, 0, false⟩], []⟩ : Half).same ((wBoard 1 false []).halfAt 0 ((wBoard 1 false []).rel 0 0))) = true ∧
     issuesNow wStands 7 wPlaced (.cellq ⟨1, 0⟩) = true) ∧
    (let s := wStands.modCore 0 fun c => c.setQueue 2 (some (wQueue .result 0))
     issuesNow s 7 wPlaced (.neigh ⟨1, 0, 2, 0⟩) = true ∧ checkResultQueue s 0 wPlaced 2 = .pass ∧ 0 ≤ (wBoard 1 false []).rhoBound) ∧
    (let t := { sampleG 2 1 with launch := 1, kind := .roaming, sys := SysRegs.init }
     let s := (sample t).setLaunch 1 { wLaunch with cores := [0, 1] }
     issuesNow s 7 t (.migr ⟨2, 0⟩) = true ∧ issuesAt 2048 (.migr ⟨2, 0⟩) = true ∧ t.inFrame = false ∧ t.placed = false ∧ s.doubletOf t = false ∧
     s.queueBound 0 = false ∧ t.dirtyShadow = false ∧ s.launchOf t = some { wLaunch with cores := [0, 1] } ∧ NSet.has [0, 1] 1 = true ∧ t.owed = []) := by
  decide +kernel

/-! ## Messages, queues, indexes, engines, contexts -/

theorem witness_SendResults_cases :
    (([Instr.send ⟨8, 2, false, 0⟩, .enq ⟨8, 2, false, 0⟩] : List Instr).all fun i => ([0, 0xFF_3FFF, 0x100_0000, 0x2_0000] : List Word).all fun v => issuesAt v i) = true ∧
    bitsOf (0x4000 : Word) 14 2 ≠ 0 ∧ bitsOf (0x2_0000 : Word) 17 39 ≠ 0 ∧ ((sample sampleThread).seat 0).sendq.length < 8 ∧
    8 ≤ (((sample sampleThread).modSeat 0 fun x => { x with sendq := List.range 8 }).seat 0).sendq.length ∧
    sampleThread.origin.queue = none ∧ issuesFor { sampleThread with origin := ⟨none, some 3⟩ } (.spawn ⟨8, 0⟩) = true := by
  decide +kernel

theorem witness_RequestAndPacketSent :
    (sample sampleThread).thread? 7 = some sampleThread ∧
    (let m : Msg := { wMsg .send 0 with injected := false }
     m.uid = some 7 ∧ m.injected = false ∧ (sample sampleThread).req? (sample sampleThread).net.nextId = none ∧ ((sample sampleThread).seat m.seat).sendq = []) := by
  decide +kernel

theorem witness_InboxResults_cases :
    ((sample sampleThread).recvEntries 0 0 true = [] ∧
     (let s := (wTrapped 1).modSeat 0 fun x => { x with tstop := false }
      let s := s.localWrite 0 (headerOff 3 0 0) 255 (headerWord 1 0 0 0)
      let place (j : Nat) : Nat := if j < 8 then slotOff 3 0 0 + 8 * j else headerOff 3 0 0
      s.recvEntries 0 0 true = [0] ∧ (s.core 0).ring = some (3, 0) ∧ issuesNow s 7 ((s.thread? 7).getD sampleThread) (.recv ⟨8, 2, 0⟩) = true ∧
        ((List.range 9).all fun j => decide (transit 0 (place j) = 0) && s.bankIdle (bankOf 0 (place j)) 0 && !s.localPoisoned 0 (place j)) = true ∧
        (s.setLocalPoison 0 (place 8) true).localPoisoned 0 (place 8) = true ∧ (s.setLocalPoison 0 (place 8) true).localPoisoned 0 (place 0) = false ∧
        s.mem.wf = true ∧ FMap.find? s.fab.doublets 0 = none ∧ (s.seat 0).pops = [])) ∧
    ([(⟨1, true, 3, 0⟩ : OpWidf), ⟨1, false, 0, 0⟩].all fun o => issuesFor sampleThread (.widf o) &&
      issuesFor { sampleThread with sys := { sampleThread.sys with widshape := 0x810 ||| (7 <<< 21) } } (.widf o)) = true := by
  decide +kernel

theorem witness_QueueRegisterResults_cases :
    (([0, 1, 3] : List (BitVec 3)).all fun k => issuesAt 0 (.qbind ⟨0, k, 2, 0⟩)) = true ∧
    (([2, 4] : List (BitVec 3)).all fun k => issuesAt 0 (.qbind ⟨2, k, 2, 0⟩) && issuesAt 0xE800 (.qbind ⟨2, k, 2, 0⟩)) = true ∧
    issuesAt 8 (.qbind ⟨2, 4, 2, 0⟩) = true ∧ portBad 0 = false ∧ portBad (BitVec.allOnes 64) = true ∧ (0xE800 : Word).toNat % 64 = 0 ∧ 0xE800 + 6144 ≤ 0x10000 ∧
    ([none, some (wQueue .fifo 2), some { wQueue .fifo 0 with asid := 5 }, some (wQueue .inbox 0)].all fun x =>
      let s := (sample sampleThread).modCore 0 fun c => c.setQueue 2 x
      decide ((s.core 0).queue 2 = x) && issuesNow s 7 sampleThread (.qstat ⟨1, 2, 0⟩) && issuesNow s 7 sampleThread (.qflush ⟨1, 2, 0⟩) &&
        issuesNow s 7 sampleThread (.qunbind ⟨1, 2, 0⟩)) = true ∧
    (sample sampleThread).delivers 0 2 (wQueue .fifo 0) = false := by
  decide +kernel

theorem witness_IndexResults_cases :
    (([Instr.stvec ⟨1, 2, 0⟩, .delvec ⟨1, 2, 0⟩, .ixpin ⟨1, 2, 0⟩, .ixunpin ⟨1, 2, 0⟩, .ldnear ⟨1, 2, true, 2, 0⟩, .ixstat ⟨2, 2, 0⟩] : List Instr).all fun i => ([0, BitVec.ofNat 64 (0xFFC0 * 2 ^ 12), BitVec.ofNat 64 (0x10000 * 2 ^ 12), BitVec.ofNat 64 (8 * 2 ^ 12)] : List Word).all fun v => issuesAt v i) = true ∧
    ([0, 0xFFC0, 0x10000, 8].all fun n => (List.range 64).any fun k => (blockOff (BitVec.ofNat 64 (n * 2 ^ k))).toNat == n) = true ∧
    sampleThread.occupies (.index 0) = false ∧ (wQueue .result 0).kind = .result ∧ (wQueue .result 0).feeder = none := by
  decide +kernel

theorem witness_ElementPass : 0 < 32 ∧ 32 * 16 ≤ 512 ∧ 0 < 64 ∧ 64 * 8 ≤ 512 := by decide

theorem witness_MatrixUnitResults_cases :
    (([0, 8, 0x1_0000_0000_0000] : List Word).all fun v => issuesAt v (.mfmt ⟨3, 2, 0⟩)) = true ∧
    ([FsCopy.invalid, .faulted 0x10, .word 11, .word 5].all fun c => let t := { sampleG 2 0 with fsCopy := Vector.replicate 4 c }
      issuesFor t (.mldw ⟨0, 0, 2, 1, 0⟩) && issuesFor t (.mma ⟨0, 0, 2, 2, 0⟩) && issuesFor t (.mst ⟨0, 2, false, 0⟩)) = true ∧
    (11 : Word).toNat % 16 > 10 ∧ mldwAccepts 0 (descrFmt 5) = true ∧ mldwAccepts 3 (descrFmt 0) = false ∧ mstAccepts .fp32 (descrFmt 5) = true ∧ mstAccepts .fp64 (descrFmt 5) = false ∧
    ((wLine 0 (sample sampleThread)).ncLoad 7 0 0 0 (BitVec.allOnes 64)).isSome = true ∧ ((sample sampleThread).ncLoad 7 0 0 0 (BitVec.allOnes 64)).isNone = true := by
  decide +kernel

theorem witness_EngineInstructionResults_cases :
    ((((sample sampleThread).modSeat 0 fun x => { x with committed := 1 }).seat 0).committed.getLsbD 0 = true ∧ ((sample sampleThread).seat 0).committed.getLsbD 0 = false ∧
     (let t := { sampleThread with shadows := ⟨(sampleThread.shadows.fields.setIfInBounds 3 16).setIfInBounds 4 1, 1⟩ }
      let passes (t : Thread) : Bool := match egoCheck (sample t) 0 t .copy (t.shadow 0) with | .pass => true | _ => false
      kindOfEngine (engineOf 0 0) = .copy ∧ passes t = true ∧ passes sampleThread = false)) := by
  decide +kernel

theorem witness_CsrResults_cases :
    ([Kind.roaming, .anchored].all fun k => issuesFor { sampleThread with kind := k } (.csrw ⟨1, 2, 0x0B, 0⟩)) = true ∧
    ((sample sampleThread).seat 0).occ = some 7 ∧ (sample sampleThread).thread? 7 = some sampleThread := by
  decide +kernel

theorem witness_SeatControlResults_cases :
    ((sample sampleThread).seat 1).quiet = true ∧ (((sample sampleThread).modSeat 1 fun x => { x with off := some .matrix }).seat 1).quiet = false ∧
    (([0, 7] : List Word).all fun v => issuesAt v (.seatctlStop ⟨1, 2, 0⟩)) = true := by
  decide +kernel

theorem witness_ContextMoveResults_cases :
    (let t := sampleG 2 1
     let i : Instr := .ctxsave ⟨2, 0, 1, 0⟩
     let s := ((sample t).modSeat 1 fun x => { x with occ := some 8, stop := true }).setThread 8 { sampleThread with kind := .roaming, loc := .seat 1 }
     issuesNow s 7 t i = true ∧ src i s t 0 = 0 ∧ src i s t 1 = 1 ∧ (s.seat 1).stopped = true ∧ (s.seat 1).occ = some 8 ∧ (s.seat 1).quiet = true ∧
     areaBytes 1 ≤ 0x10000 ∧ s.seatMoving 1 = false ∧ (s.thread? 8).map (·.loc) = some (.seat 1) ∧
     (s.modSeat 0 fun x => { x with localOp := some ⟨7, .save 1 8 0 1, 0, 0, 1, [], [], none, false, 0⟩ }).seatMoving 1 = true) ∧
    (let t := sampleG 2 1
     let i : Instr := .ctxload ⟨2, 0, true, 1, 0⟩
     let s := (sample t).modSeat 1 fun x => { x with stop := true }
     issuesNow s 7 t i = true ∧ src i s t 1 = 1 ∧ (s.seat 1).stopped = true ∧ (s.seat 1).occ = none ∧ s.seatMoving 1 = false ∧
     s.loadElsewhere 0 (fun k => s.localWord 0 (8 * k)) false = false ∧ s.loadElsewhere 0 (fun k => s.localWord 0 (8 * k)) true = false ∧
     discCheck (fun k => s.localWord 0 (8 * k)) = .pass) := by
  decide +kernel

/-! ## More cases of the statements -/

/-- R395: a pending source with its trap-on-empty bit, and none poisoned. -/
theorem witness_TrapsInOrder_pending :
    let t := { sampleThread with regs := { sampleThread.regs with full := BitVec.allOnes 24 &&& ~~~ 4 } }
    let i : Instr := .add ⟨1, 2, 3, true, true, 0⟩
    illOp i = none ∧ regBad i t = none ∧ privBad i 0 ((sample t).seat 0) t = none ∧ t.regs.pwPoison = none ∧ vsrcs i = [] ∧
    (sourceRegs i)[0]? = some (2, true) ∧ (sourceRegs i)[1]? = some (3, true) ∧ t.regs.view 2 = .pending ∧ t.regs.view 3 = .full 192 := by
  decide +kernel

/-- A thread of launch 1 that stands on the square at the origin and names the square beside it by g2 and g3. -/
def wLeaves (t : Thread) : Thread :=
  { t with regs := { t.regs with g := (t.regs.g.setIfInBounds 2 0x10000).setIfInBounds 3 0 }, launch := 1, placed := true, sys := SysRegs.init, kind := .roaming }
def wGoes (core hdr7 : Nat) (t : Thread) : State :=
  (sample t).setLaunch 1 { wLaunch with board := some { wBoard 1 false [] with cores := [core] }, hdr := (List.replicate 32 0).set 7 (BitVec.ofNat 64 hdr7) }

theorem witness_BoardAndMigrResults_setpos :
    (let t := wLeaves sampleThread
     let b : Board := { wBoard 1 false [] with cores := [1] }
     let xy := src (.setpos ⟨3, 2, 0⟩) (wGoes 1 0 t) t 0
     let zw := src (.setpos ⟨3, 2, 0⟩) (wGoes 1 0 t) t 1
     b.square (b.rel xy zw) = some [1, 0] ∧ (b.entryOf 7).map (fun e => e.1.same (b.halfAt (b.morton [1, 0]) (b.rel xy zw))) = some false ∧
     (b.halfAt (b.morton [1, 0]) (b.rel xy zw)).owner = 1 ∧ (b.halfAt (b.morton [1, 0]) (b.rel xy zw)).entries = [] ∧ (b.halfAt (b.morton [1, 0]) (b.rel xy zw)).admission = [] ∧
     (let c : Board := { b with cores := [0] }
      (c.halfAt (c.morton [1, 0]) (c.rel xy zw)).owner = 0 ∧ (wGoes 0 0 t).boardOf t = some c)) ∧
    ([wLeaves sampleThread, { wLeaves sampleThread with kind := .anchored }, { wLeaves sampleThread with role := true },
      { wLeaves sampleThread with sys := { SysRegs.init with xstat := { Xstat.init with uh := true } } },
      { wLeaves sampleThread with owed := [⟨9, .store, [], .none, false⟩] }, { wLeaves sampleThread with shadows := ⟨sampleThread.shadows.fields, 1⟩ }].all fun t =>
        issuesNow (wGoes 1 0 t) 7 t (.setpos ⟨3, 2, 0⟩) && issuesNow (wGoes 0 0 t) 7 t (.setpos ⟨3, 2, 0⟩) &&
          ((wGoes 1 0 t).boardOf t).isSome) = true ∧
    (let t := wLeaves sampleThread
     let s := (wGoes 1 0 t).modCore 0 fun c => c.setQueue 2 (some (wQueue .fifo 0))
     s.queueBound 0 = true ∧ issuesNow s 7 t (.setpos ⟨3, 2, 0⟩) = true ∧ (wGoes 1 0 t).queueBound 0 = false ∧ t.dirtyShadow = false ∧
     ({ t with shadows := ⟨t.shadows.fields, 1⟩ } : Thread).dirtyShadow = true ∧ (wGoes 1 0 t).doubletOf t = false ∧
     (wGoes 1 0x80_0000 t).doubletOf t = true ∧ issuesNow (wGoes 1 0x80_0000 t) 7 t (.setpos ⟨3, 2, 0⟩) = true) := by
  decide +kernel

/-- A core on which a thread that has trapped is still to be reported. -/
def wStopped (n : Nat) : State :=
  (wTrapped n).modCore 0 fun c => { c with stops := [(7, ⟨0, 0, List.replicate 8 0⟩)] }

theorem witness_SeatStepResults_stops :
    ([0, 8].all fun n => decide (((wStopped n).core 0).stops.find? (fun p => p.2.seat == 0) = some (7, ⟨0, 0, List.replicate 8 0⟩))) = true ∧
    ((wStopped 0).core 0).hasRoom = true ∧ ((wStopped 8).core 0).hasRoom = false ∧ ((wStopped 0).core 0).held = [] ∧
    (((wStopped 0).modCore 0 fun c => { c with inboxb := 0 }).core 0).ring = none ∧ (∃ p ∈ (wStopped 0).coreThreads 0, p.2.2.sys.xstat.sys = true) ∧
    2 ≤ (((wStopped 8).modCore 0 fun c => { c with held := List.replicate 2 ([], 0, none) }).core 0).held.length := by
  decide +kernel

/-- A bridge with a way to device 5, for a function that has accepted FABRIC or has not. -/
theorem witness_ClusterStepResults_bridge :
    ([1, 12].all fun p =>
      let s0 := withReq (wReq .ldr (5 * 2 ^ 56))
      let s : State := { s0 with picks := [p], net := { s0.net with routes := [(256 * (p % 12) + 5, 2)] }, fw := { s0.fw with features := [(0, 8)] } }
      decide (FMap.find? s.net.routes (256 * ((s.pick 24).1 % 12) + 5 * 2 ^ 56 / 2 ^ 56 % 256) = some 2) && decide ((s.pick 24).1 = p)
        && decide ((FMap.find? s.fw.features (s.fnOf 0)).map (·.getLsbD 3) = some true) && decide (FMap.find? s0.fw.features (s0.fnOf 0) = none)) = true := by
  decide +kernel

theorem witness_ClusterStepResults_served :
    ([ReqOp.ldr, .str, .ldre, .strf].all fun op =>
      let r := { wReq op 0 with stage := .waiting }
      let s := withReq r
      decide (s.req? 9 = some r) && !s.localPoisoned 0 0 && (s.setLocalPoison 0 0 true).localPoisoned 0 0 && s.localFull 0 0
        && !(s.setFull 0 0 false).localFull 0 0) = true ∧
    (let s := ((sample sampleThread).setBank 0 ⟨[], 0⟩).modCluster 0 fun c => { c with waits := [⟨9, 8, 0, 1⟩] }
     s.atBank (fun u => u == .attempt 9) = false) := by
  decide +kernel

/-- Another thread's reservation on the word at 0, or as many as a station holds. -/
theorem witness_HomeSliceResults_lr :
    (let r := wReq .lr 0
     let s := withReq r
     s.req? 9 = some r ∧ s.releaseHolder r.key = s ∧ (s.station 0).rsvEntries < 1024 ∧ (s.station 0).rsvAt 0 = none ∧ s.physPoisoned 0 = false ∧
     ({ s with mem := { s.mem with physPoison := [0] } }).physPoisoned 0 = true ∧
     ((wHeld ⟨1, 0, 0⟩ s).station 0).rsvAt 0 = some ⟨0, some (⟨1, 0, 0⟩, 0), []⟩ ∧ (wHeld ⟨1, 0, 0⟩ s).releaseHolder r.key = wHeld ⟨1, 0, 0⟩ s ∧
     (let full := s.modStation 0 fun x => { x with rsv := (List.range 1024).map fun k => ⟨8 * k, some (⟨1, 0, 0⟩, 0), []⟩ }
      1024 ≤ (full.station 0).rsvEntries)) ∧
    ([ReqOp.red 1 1 false, .red 2 1 false].all fun op =>
      let s := withReq (wReq op 0)
      (s.rsvBlock 0 (wReq op 0) 0).isNone && !s.physPoisoned 0) = true := by
  decide +kernel

theorem witness_AnswerStepResults_losses :
    (let r := { wReq .load 0 with stage := .waiting }
     (withReq r).req? 9 = some r) ∧
    ([Stage.going, .answered, .lost].all fun g =>
      let r := { wReq (.writeBack 0) 0 with deadline := some 0, stage := g }
      decide ((withReq r).req? 9 = some r) && decide (0 ≤ (withReq r).cycle) && r.uid == some 7) = true ∧
    (let r := wReq (.watch 10 0 0) 0
     (withReq r).req? 9 = some r) ∧
    (let t := { sampleThread with fsCopy := Vector.replicate 4 .invalid }
     let r := { wReq (.descr 1 .mfmt) 64 with stage := .answered, answer := some (.data 5 0 true true false), anchored := false }
     let s := ((sample t).setReq 9 r).modSeat 0 fun x => { x with off := some (.descriptor 9) }
     s.req? 9 = some r ∧ (s.seat r.seat).off = some (.descriptor 9) ∧ s.thread? 7 = some t ∧ (descrFmt (lineWord 5 0)).toNat ≤ 10) ∧
    ([false, true].all fun d =>
      let f := { wReq (.atom 0 3 0) 0 with deadline := some 0 }
      let e := wComb [⟨8, 1, d⟩] (some 11)
      let s := (((withReq (wReq (.atom 0 1 0) 0)).setReq 8 (wReq (.atom 0 1 0) 0)).setReq 11 f).setComb 20 e
      decide (FMap.find? s.net.combs 20 = some e) && decide (s.req? 11 = some f) && decide (0 ≤ s.cycle) &&
        (e.recs.all (fun h => h.damaged == d))) = true := by
  decide +kernel

theorem witness_SeatControlResults_stop :
    let s := (sample sampleThread).modSeat 0 fun x => { x with off := some (.stopping 1 1) }
    s.seatGroup 1 = [1] ∧ (s.seat 1).quiet = true ∧ s.seatGroup 0 = [0] := by
  decide +kernel

/-- Seat 1 is stopped; its thread 8 is of some kind and owes what it owes. -/
def wStoppedSeat (k : Kind) (owed : List Owed) (d : Option Doublet) : State :=
  let s := ((sample (sampleG 2 1)).modSeat 1 fun x => { x with occ := some 8, stop := true }).setThread 8 { sampleThread with kind := k, loc := .seat 1, owed := owed }
  match d with
  | some d => s.setDoublet 1 d
  | none => s

theorem witness_ContextMoveResults_save :
    let i : Instr := .ctxsave ⟨2, 0, 1, 0⟩
    let owes : List Owed := [⟨9, .store, [], .none, false⟩]
    let dirty : Doublet := ⟨0, [(0, 0, true)], [], [], none, none, none, false⟩
    ([wStoppedSeat .roaming [] none, wStoppedSeat .roaming owes none, wStoppedSeat .roaming owes (some dirty), wStoppedSeat .anchored [] none,
      wStoppedSeat .anchored owes none, (wStoppedSeat .roaming [] none).modSeat 1 fun x => { x with off := some .matrix }].all fun s =>
        issuesNow s 7 (sampleG 2 1) i && decide ((s.seat 1).stopped = true) && decide ((s.seat 1).occ = some 8)
          && decide ((s.thread? 8).map (·.loc) = some (.seat 1)) && !s.seatMoving 1) = true ∧
    ((wStoppedSeat .roaming [] none).boundaryClear 1 = true ∧ (wStoppedSeat .roaming [] (some dirty)).boundaryClear 1 = false) ∧
    ((wStoppedSeat .roaming [] none).seat 1).quiet = true ∧ (((wStoppedSeat .roaming [] none).modSeat 1 fun x => { x with off := some .matrix }).seat 1).quiet = false ∧
    (let s := (wStoppedSeat .roaming owes none).modCore 0 fun c => { c with routes := List.replicate 64 ⟨9, 0, 0, 0, [], false⟩ }
     (1 : BitVec 5).getLsbD 0 = true ∧ owes ≠ [] ∧ 64 ≤ (s.core 0).routes.length ∧ issuesNow s 7 (sampleG 2 1) i = true) ∧
    (let v := { sampleThread with kind := .anchored, loc := .seat 1, dirtyLines := ⟨[0], false⟩ }
     let s := (wLine 1 (wStoppedSeat .anchored [] none)).setThread 8 v
     s.releaseLines 0 v ≠ [] ∧ (wStoppedSeat .anchored [] none).releaseLines 0 { v with dirtyLines := ⟨[], false⟩ } = [] ∧
     (wStoppedSeat .anchored [] none).flyingFor 0 { v with dirtyLines := ⟨[], false⟩ } = []) := by
  decide +kernel

theorem witness_ContextMoveResults_load :
    let t := sampleG 2 1
    let i : Instr := .ctxload ⟨2, 0, true, 1, 0⟩
    let s := (sample t).modSeat 1 fun x => { x with stop := true }
    -- the area names launch 3, which has doublets, and seat 1 has an occupied secondary
    (let l := (s.localWrite 0 (8 * 30) 255 0x3_0000).setLaunch 3 { wLaunch with hdr := (List.replicate 32 0).set 7 0x80_0000 }
     let m := l.modSeat 9 fun x => { x with occ := some 9 }
     issuesNow l 7 t i = true ∧ BitVec.ofNat 32 ((l.localWord 0 (8 * 30)).toNat / 2 ^ 16 % 2 ^ 32) = 3 ∧
     l.doubletOf { Thread.init with launch := 3 } = true ∧ l.doubletPlace 1 = true ∧ m.doubletPlace 1 = false ∧
     s.doubletOf { Thread.init with launch := BitVec.ofNat 32 ((s.localWord 0 (8 * 30)).toNat / 2 ^ 16 % 2 ^ 32) } = false) ∧
    ([1, 3].all fun p => issuesNow s 7 t (.ctxload ⟨2, 0, true, p, 0⟩)) = true ∧ (s.seat 1).stopped = true ∧
    (let u : Saved := { uid := 8, core := 0, asid := 0, launch := 0, wid := 0, origin := ⟨none, none⟩, dirty := 0, pwPoison := none, cancelled := false, acquire := none }
     let e := { s with disp := { s.disp with saved := [u] } }
     e.savedAs 0 0 0 = some u) := by
  decide +kernel

/-- Core 1 has a full context cache. -/
def wFull (s : State) : State := s.modCore 1 fun c => { c with runq := List.replicate 64 ⟨8, 0⟩ }
/-- A mover to the origin's square at core 1, in transit on seat 0; launch 1 has board traps. -/
def wMover (b : Board) (traps : Bool) : State :=
  let t := { sampleThread with launch := 1, kind := .roaming, loc := .transit 0 }
  ((sample t).setLaunch 1 { wLaunch with board := some b, hdr := (List.replicate 32 0).set 7 (if traps then 0x100_0000 else 0) }).setMig 9
    ⟨7, .setpos 0 0, 0, 1, .going, false⟩

theorem witness_BoardAndLadderStepResults_handover :
    (∀ n ∈ [1, 64], ∀ adm ∈ [[], [8]],
      let b := wBoard n false adm
      let s := wMover b true
      s.board? 1 = some b ∧ (b.halfAt (b.morton [0, 0]) (b.rel 0 0)).owner = 1 ∧ (b.halfAt (b.morton [0, 0]) (b.rel 0 0)).entries.length = n ∧
        (b.halfAt (b.morton [0, 0]) (b.rel 0 0)).admission = adm ∧ s.cacheFull 1 = false ∧ (wFull s).cacheFull 1 = true ∧ (wFull s).board? 1 = some b ∧
        (s.thread? 7).map s.boardTrap = some true ∧ ((wMover b false).thread? 7).map (wMover b false).boardTrap = some false ∧
        (n = 64 → s.splitHalf 1 b (b.halfAt (b.morton [0, 0]) (b.rel 0 0)) = none) ∧ s.admissionLoad 1 < 16) ∧
    16 ≤ (wMover (wBoard 1 false (List.range 16)) false).admissionLoad 1 := by
  decide +kernel

theorem witness_BoardAndLadderStepResults_admission :
    ([(1, [9]), (64, [9])].all fun p =>
      let b := wBoard p.1 false p.2
      let s := wMover b false
      decide (s.board? (BitVec.ofNat 32 1) = some b) && decide (b.halves.filter (fun h => h.morton == 0) = [⟨0, [], 1, List.replicate p.1 ⟨7, 5, 0, 0, false⟩, p.2⟩])
        && decide ((s.mig? 9).map (·.kind) = some (.setpos 0 0)) && decide ((b.halfAt 0 (b.rel 0 0)).owner = 1)
        && decide (((b.putHalf ⟨0, [], 1, List.replicate p.1 ⟨7, 5, 0, 0, false⟩, []⟩).halfAt 0 (b.rel 0 0)).owner = 1)
        && !s.cacheFull 1 && (wFull s).cacheFull 1) = true ∧
    (let s := (wMover (wBoard 1 false [9]) false).setMig 9 ⟨7, .setpos 0 0, 1, 1, .going, true⟩
     (s.mig? 9).map (fun g => (g.src, g.dst)) = some (1, 1) ∧ (s.thread? 7).map (·.loc) = some (.transit 0)) ∧
    -- the mover waits at core 2, which no longer owns the square
    (let s := (wMover (wBoard 1 false [9]) false).setMig 9 ⟨7, .setpos 0 0, 0, 2, .going, true⟩
     (s.mig? 9).map (·.dst) = some 2 ∧ (s.thread? 7).map (·.owed) = some [] ∧
     ((s.setThread 7 { sampleThread with launch := 1, owed := [⟨8, .store, [], .none, false⟩] }).thread? 7).map (·.owed.length) = some 1) := by
  decide +kernel

theorem witness_BoardAndLadderStepResults_travels :
    (let r := { wReq (.ldnear true 2) 3 with stage := .waiting, seen := [1], mask := 1 }
     let ix := { wIndex [(0, wEntry)] with travels := [(9, [2, 4])] }
     let s := (withReq r).setIndex 3 ix
     s.req? 9 = some r ∧ s.index? r.addr = some ix ∧ FMap.find? ix.travels 9 = some [2, 4] ∧ s.packetAt 9 2 = false) ∧
    (let r := { wReq .stvec 3 with seen := [1] }
     let ix := { wIndex [] with admitted := [9], travels := [(9, [])] }
     let s := (withReq r).setIndex 3 ix
     s.req? 9 = some r ∧ s.index? r.addr = some ix ∧ FMap.find? ix.travels 9 = some [] ∧ ix.entries.length < ix.cap ∧
     FMap.find? (wIndex []).travels 9 = none ∧ (({ ix with admitted := [], travels := FMap.erase ix.travels 9 } : LIndex).insert r.seen r.snap).toOption.isSome = true) ∧
    (let s := (sample sampleThread).modCore 0 fun c => c.setQueue 2 (some (wQueue .result 16))
     (s.core 0).queue 2 = some (wQueue .result 16) ∧ (wQueue .result 16).kind = .result ∧ 16 ≤ (wQueue .result 16).words.length) := by
  decide +kernel

theorem witness_DispatchStepResults_cancel :
    ((sample sampleThread).jobOpen 5 = false ∧ ((sample sampleThread).setLaunch 1 { wLaunch with job := 5 }).jobOpen 5 = true) ∧
    (let s := wExpand 0
     (s.disp? 0).slots.find? (fun x => x.task == 30) = some (wSlot 0) ∧ (wSlot 0).exhausted = false ∧ (s.launch? (wSlot 0).launch.toNat).isSome = true) := by
  decide +kernel

theorem witness_CommandResults_busy :
    (let s := wCmd (wWords 0x12 [0x10000, 0, 7, 0x10000, 1]) (sample sampleThread)
     s.contextBusy 0 1 0x12 0 = false ∧
     -- queue 2 is changing the mappings of context 0
     (let busy := { s with fw := { s.fw with running := s.fw.running ++ [(2, wWords 0x13 [0, 0, 1, 1] ++ [1])] } }
      busy.contextBusy 0 1 0x12 0 = true ∧ busy.contextBusy 0 1 0x11 0 = true ∧ FMap.find? busy.fw.running 1 = some (wWords 0x12 [0x10000, 0, 7, 0x10000, 1]))) ∧
    -- context 5 belongs to function 1
    (let s := wCmd (wWords 0x15 [0, 0, 5]) (sample sampleThread)
     let c : Context := { fn := 1, table1 := 0x70_0000_1000, sys := false, debug := false, deleg := 0, faultq := 0, fatalovf := false, fqfail := false, scopes := [],
                          boards := [], dying := false, breakArmed := false }
     let x := s.setContext 5 c
     x.owns 0 5 = false ∧ x.owns 0 0 = true ∧ x.context? 5 ≠ none ∧
     ((x.modCluster 0 fun k => { k with owners := [(0, ⟨true, true, 5⟩)] }).cluster 0).owner 0 = ⟨true, true, 5⟩ ∧
     ((wOwned true x).cluster 0).owner 0 = ⟨true, true, 0⟩) ∧
    (let s := wCmd (wWords 0x16 [1, 0, 4, 8]) (sample sampleThread)
     s.span 0 4 8 true false = .ok ∧ s.vaPoison 0 4 8 = none) := by
  decide +kernel

theorem witness_HostStepResults_errors :
    (((wLine 0 (sample sampleThread)).ncFind 0 0 0).map (·.dirty) = some 0 ∧ ((wLine 1 (sample sampleThread)).ncFind 0 0 8).map (·.dirty) = some 1 ∧
     (maskWords 1).getLsbD 0 = true ∧ (maskWords 1).getLsbD (8 % 64 / 8) = false) ∧
    (let s := (sample sampleThread).setIndex 3 (wIndex [(0, wEntry)])
     s.index? 3 = some (wIndex [(0, wEntry)]) ∧ FMap.find? (wIndex [(0, wEntry)]).entries 0 = some wEntry) ∧
    (wTile .idle [] (some wRecord)).slotRec 0 0 = some wRecord ∧
    ((wSwap.core 0).runq[0]? = some ⟨8, 5⟩ ∧ (wSwap.thread? 8).isSome = true) ∧
    (let q : QueueRec := { wRec with tail := 1, headCache := [(0, List.replicate 8 0)] }
     (wRing q).queue? 0 = some q ∧ q.headPacket ≠ none) ∧
    (let s := (wRing { wRec with depv := true }).setDep 0 ⟨true, false, 4095, 0, 0, 2⟩
     (s.dep? 0).v = true ∧ (s.dep? 0).graph = 4095 ∧ (s.gatedQueue 0 0).isSome = true ∧ ((s.setDep 0 ⟨true, false, 3, 0, 0, 2⟩).dep? 0).graph ≠ 4095 ∧
     ((s.setDep 0 ⟨false, false, 3, 0, 0, 2⟩).dep? 0).v = false) ∧
    (let s := (sample sampleThread).setComb 20 (wComb [⟨8, 1, false⟩] none)
     FMap.find? s.net.combs 20 = some (wComb [⟨8, 1, false⟩] none) ∧ (wComb [⟨8, 1, false⟩] none).recs[0]? = some ⟨8, 1, false⟩) := by
  decide +kernel

/-- Engine 1 at work with an answered request for its unit 0; a collective with one. -/
def wAnswered (key : Nat) (wr mesh : Bool) (a : Answer) (s : State) : State :=
  s.setReq 9 { wReq (.eng key 0 wr mesh) 0 with uid := none, stage := .answered, answer := some a }

theorem witness_EngineAndInboxStepResults_replies :
    ([Answer.word 5, .data 5 0 true true false, .data 5 1 true true false, .ack true false, .fault 0x10 0x03, .fault 0x0A 0x01, .fault 0x06 0x04].all fun a =>
      [false, true].all fun mesh =>
        let s := wAnswered 1 false mesh a (wEngine wOp)
        decide ((s.engine 1).active = some wOp) && decide (((s.engReqs 1).find? (fun p => p.2.answer.isSome)).map (·.1) = some 9)
          && decide ((s.req? 9).map (·.op) = some (.eng 1 0 false mesh)) && !wOp.stopped && (s.ncFind 0 0 0).isNone) = true ∧
    linePoisoned 0 (wReq (.eng 1 0 false false) 0).mask = false ∧ linePoisoned 1 (wReq (.eng 1 0 false false) 0).mask = true ∧
    ([Answer.data 5 0 true true false, .ack true false, .fault 0x06 0x04].all fun a =>
      let s := wAnswered 1044 false false a ((sample sampleThread).setColl 20 (wColl true))
      decide (FMap.find? s.fab.collectives 20 = some (wColl true)) && decide (((s.engReqs 1044).find? (fun p => p.2.answer.isSome)).map (·.1) = some 9)
        && (wColl true).status.isNone) = true := by
  decide +kernel

theorem witness_EngineAndInboxStepResults_units :
    ((wEngine wOp).localPoisoned 0 8 = false ∧ ((wEngine wOp).setLocalPoison 0 8 true).localPoisoned 0 8 = true ∧
     clusterOf (coreOf wOp.seat) = 0 ∧ wOp.kind = .copy ∧ wOp.stopped = false) ∧
    ([({ wOp with kind := .gather } : EngOp), { wOp with fields := ((List.replicate 32 0).set 0 5).set 3 16 }].all fun op =>
      let s := wEngine op
      decide ((s.engine 1).active = some op) && (s.engReqs 1).isEmpty && !s.engineAtBank 1 && op.word.isNone && !op.stopped
        && decide (op.done ≠ op.units) && decide (op.lowest < op.units) && decide (op.kind ≠ .copy ∨ copyDst (copyOpc op.fields) = .stream)) = true ∧
    ([0, 1, 2, 5].map fun k => copyDst k) = [.localSpace, .global, .mesh, .stream] ∧
    (let op : EngOp := { wOp with fields := (((List.replicate 32 0).set 0 1).set 2 (BitVec.ofNat 64 (2 ^ 48))).set 3 16 }
     2 ^ 48 ≤ op.dst 0 ∧ op.target = .global) := by
  decide +kernel

theorem witness_EngineAndInboxStepResults_collectives :
    (let c : Collective := { wColl true with started := true, got := [(0, 5)] }
     let s := (sample sampleThread).setColl 20 c
     FMap.find? s.fab.collectives 20 = some c ∧ s.engReqs (1024 + 20) = [] ∧ c.status = none ∧ c.cancelled = false ∧ c.writing = false ∧ c.joined ≠ [] ∧
     collOpc (collFields c) = 0 ∧ c.got.length = c.joined.length ∧ (∀ j ∈ c.joined, fieldAt j.2.fields 2 + c.elem * collSize (collFields c) < 2 ^ 48)) ∧
    (∀ b ∈ [true, false], (wColl b).waits ((sample sampleThread).setColl 20 (wColl b)) = false) ∧
    (let s := ((sample sampleThread).setColl 20 (wColl true)).setMsg 9 (wMsg (.completion (engineOf 2 0)) 0)
     (wColl true).waits s = true) ∧
    (let c : Collective := { wColl true with joined := [], ready := none }
     c.joinDeadline = some 0 ∧ c.inTime (sample sampleThread) 0 = false ∧ 0 ≤ (sample sampleThread).cycle ∧ c.started = false) ∧
    (let c : Collective := { wColl true with cores := [0, 8] }
     let d : Collective := { c with started := true }
     let s := ((sample sampleThread).setColl 20 c).setColl 21 d
     enginesBusy s 20 c = true) := by
  decide +kernel

theorem witness_EngineAndInboxStepResults_entries :
    ((wTrapped 0).core 0).ring = some (3, 0) ∧
    (let s := (wTrapped 0).modCore 0 fun c => { c with writing := [⟨0, [], 0, 0, 0, some 9⟩] }
     (s.core 0).writing = [⟨0, [], 0, 0, 0, some 9⟩] ∧ (s.core 0).held = [] ∧ (s.core 0).notices = [] ∧ 0 ≤ s.cycle) := by
  decide +kernel

/-! ## Cases at the bounds of the statements -/

/-- An inbox view in queue register 0 of core 0, whose next word its bank serves now or later. -/
def wView (free : Nat) : State :=
  let s := ((wTrapped 1).modSeat 0 fun x => { x with tstop := false }).localWrite 0 (headerOff 3 0 0) 255 (headerWord 1 0 0 0)
  (s.modCore 0 fun c => c.setQueue 0 (some (wQueue .inbox 0))).setBank 0 ⟨[], free⟩

theorem witness_TrapsInOrder_fetch :
    let i : Instr := .add ⟨1, 24, 3, false, false, 0⟩
    issuesNow (wView 0) 7 sampleThread i = true ∧ (wView 1).unread i 0 sampleThread = [0] ∧ (wView 1).banksIdle 0 [0] = false ∧
    (let s := { wView 0 with cycle := 0 }
     s.unread i 0 sampleThread = [0] ∧ s.banksIdle 0 [0] = true) ∧
    (let s := wView 1
     (s.seat s.cur).occ = some 7 ∧ s.thread? 7 = some sampleThread ∧ (guardField i).toNat = 0 ∧ guardTrue sampleThread i = true ∧ illOp i = none ∧
       regBad i sampleThread = none ∧ privBad i s.cur (s.seat s.cur) sampleThread = none ∧ testSources s 0 sampleThread i = .pass ∧
       testBindings s 0 sampleThread i = .pass ∧ testDests s s.cur 0 sampleThread i = .pass ∧ s.awaitsCheckpoint i s.cur = false) := by
  decide +kernel

/-- The sample thread waits, counted or not, with LIMIT 0. -/
def wCounting (counting : Bool) : Thread := { sampleThread with limit := 0, park := ⟨true, 0, counting, 0, 0, false⟩ }

theorem witness_TrapAndHaltResults_waits :
    (([false, true] : List Bool).all fun k => ([0, 4096] : List Nat).all fun c =>
      issuesNow { sample (wCounting k) with cycle := c } 7 (wCounting k) (.wfe ⟨0⟩)) = true ∧
    (wCounting true).bar.event = false ∧ (wCounting true).limit.toNat < (wCounting true).park.units 4096 ∧ (wCounting true).park.units 0 ≤ (wCounting true).limit.toNat ∧
    (wCounting false).park.counting = false ∧
    (let s := wDoublet ⟨0, [], [], [], none, none, none, false⟩
     issuesNow s 7 sampleThread (.halt ⟨0⟩) = true ∧ issuesNow s 7 sampleThread (.dbgbrk ⟨0⟩) = true ∧ (FMap.find? s.fab.doublets s.cur).isSome = true ∧
     (FMap.find? (sample sampleThread).fab.doublets 0).isSome = false) := by
  decide +kernel

theorem witness_SyncResults_limits :
    (([false, true] : List Bool).all fun k => ([0, 4096] : List Nat).all fun c =>
      ([.ldw ⟨1, 2, false, 0, 0⟩, .lde ⟨1, 2, false, 0, 0⟩, .stf ⟨1, 2, false, 0, 0⟩] : List Instr).all fun i =>
        let t := { sampleG 2 0 with limit := 0, park := ⟨true, 0, k, 0, 0, false⟩ }
        issuesNow { sample t with cycle := c } 7 t i) = true ∧
    ((sample (sampleG 2 0)).setFull 0 0 false).localFull 0 0 = false := by
  decide +kernel

theorem witness_GlobalAtomicResults_anchored :
    let i : Instr := .waitrs ⟨1, 2, 12, false, false, 0⟩
    let t := { sampleG 2 0 with dirtyLines := ⟨[0], false⟩ }
    issuesFor t i = true ∧ t.kind = .anchored ∧ issuesNow (wLine 1 (sample t)) 7 t i = true ∧ issuesNow (wLine 0 (sample t)) 7 t i = true ∧
    ((wLine 1 (sample t)).ncFind 0 0 0).map (·.dirty) = some 1 ∧ ((wLine 0 (sample t)).ncFind 0 0 0).map (·.dirty) = some 0 ∧
    ((sample t).ncFind 0 0 0).isNone = true ∧
    (let s := (sample t).setReq 9 (wReq (.writeBack 0) 0)
     issuesNow s 7 t i = true ∧ s.mustWait 0 t 0 = true ∧ (sample t).mustWait 0 t 0 = false) := by
  decide +kernel

theorem witness_AnchorResults_owes :
    let i : Instr := .unanchor ⟨0⟩
    let vload : Owed := ⟨9, .load, [.global 0], .v 1 0, false⟩
    let count : Owed := ⟨9, .load, [], .g 1, false⟩
    let back : Owed := ⟨9, .writeBack, [], .none, false⟩
    ([vload, count, back].all fun o => issuesFor { sampleThread with owed := [o] } i) = true ∧ back.cls = .writeBack ∧ vload.dest = .v 1 0 ∧
    count.cls ≠ .writeBack ∧ count.dest = .g 1 ∧
    (let r := { wReq .store 0 with size := 64 }
     let t := { sampleThread with owed := [⟨9, .store, [], .none, false⟩] }
     let s := (sample t).setReq 9 r
     issuesNow s 7 t i = true ∧ s.req? 9 = some r ∧ r.op = .store ∧ r.size = 64) ∧
    (let t := { sampleThread with owed := [count] }
     let s := (sample t).setReq 9 (wReq (.neigh 0 2) 0)
     s.req? 9 = some (wReq (.neigh 0 2) 0) ∧ (wReq (.neigh 0 2) 0).op ≠ .store ∧ issuesNow s 7 t i = true) := by
  decide +kernel

theorem witness_BoardAndMigrResults_stays :
    -- MIGR to the thread's own core, with a queue register bound and with a dirty shadow
    (let t := { sampleG 2 0 with launch := 1, kind := .roaming, sys := SysRegs.init }
     let s := ((sample t).setLaunch 1 { wLaunch with cores := [0, 1] }).modCore 0 fun c => c.setQueue 2 (some (wQueue .fifo 0))
     issuesNow s 7 t (.migr ⟨2, 0⟩) = true ∧ src (.migr ⟨2, 0⟩) s t 0 = 0 ∧ s.queueBound 0 = true ∧ t.role = false ∧ t.placed = false ∧ s.doubletOf t = false) ∧
    -- and to another core, late refusals, an answer owed
    (let t := { sampleG 2 1 with launch := 1, kind := .roaming, sys := SysRegs.init }
     let s := (sample t).setLaunch 1 { wLaunch with cores := [0, 1] }
     ([{ t with owed := [⟨9, .store, [], .none, false⟩] }, { t with shadows := ⟨t.shadows.fields, 1⟩ }, { t with role := true }].all fun u =>
       issuesNow (s.setThread 7 u) 7 u (.migr ⟨2, 0⟩)) = true ∧
     (let b := s.modCore 0 fun c => c.setQueue 2 (some (wQueue .fifo 0))
      issuesNow b 7 t (.migr ⟨2, 0⟩) = true ∧ b.queueBound 0 = true) ∧ (sample t).launchOf t = none ∧
     NSet.has [0] 1 = false) := by
  decide +kernel

theorem witness_ContextMoveResults_refusals :
    let t := sampleG 2 1
    let i : Instr := .ctxload ⟨2, 0, true, 3, 0⟩
    let s := (sample t).modSeat 1 fun x => { x with stop := true }
    let rd (s : State) (k : Nat) : Word := s.localWord 0 (8 * k)
    let v (core : Nat) : Saved := { uid := 8, core := core, asid := 0, launch := 0, wid := 0, origin := ⟨none, none⟩, dirty := 0, pwPoison := none, cancelled := false, acquire := none }
    let kept (core : Nat) (s : State) : State := { s with disp := { s.disp with saved := [v core] } }
    let out := s.localWrite 0 (8 * 57) 255 1
    issuesNow s 7 t i = true ∧
    -- OUTST ≠ 0: on the core that saved it, on another one, with no record
    issuesNow (kept 0 out) 7 t i = true ∧ (kept 0 out).loadElsewhere 0 (rd out) true = false ∧ (kept 1 out).loadElsewhere 0 (rd out) true = true ∧
    out.loadElsewhere 0 (rd out) true = true ∧ (kept 1 s).loadElsewhere 0 (rd s) true = false ∧ out.loadElsewhere 0 (rd out) false = false ∧
    -- an anchored thread whose weight slot 0 is granted
    (let a := (s.localWrite 0 (8 * 29) 255 0x100_0000).localWrite 0 (8 * 48) 255 1
     issuesNow a 7 t i = true ∧ bitsOf (rd a 29) 24 2 = 1 ∧ (rd a 48).getLsbD 0 = true ∧ a.slotGranted 0 0 (some 1) = true ∧ s.slotGranted 0 0 (some 1) = true ∧
     bitsOf (rd s 29) 24 2 = 0) ∧
    -- a discardable region outside the segment of the area
    (let d := s.localWrite 0 (8 * 49) 255 (0x8000_0000_0000_0000 + 0x100_0000)
     issuesNow d 7 t i = true ∧ (match discCheck (rd d) with | .trap _ _ _ => true | _ => false) = true ∧ (match discCheck (rd s) with | .pass => true | _ => false) = true ∧
     discRegions (rd d) = [(0, 64)]) := by
  decide +kernel

/-- What a load has read of an area. -/
def wGot (got : List (Nat × Word)) (poison : Option Word) : LocalOp := ⟨7, .restore 1 0 none 3 true false, 0, 0, 0, [], got, poison, false, 0⟩

theorem witness_ContextMoveResults_restore :
    let s := (sample sampleThread).modSeat 1 fun x => { x with stop := true }
    let rd (op : LocalOp) (k : Nat) : Word := ((op.got.find? fun p => p.1 == k).map (·.2)).getD 0
    let region : Word := 0x8000_0000_0000_0000 + 0x100_0000
    (wGot [] (some 64)).poison = some 64 ∧ (wGot [] none).poison = none ∧
    (s.loadRefusal 1 (rd (wGot [(49, region)] none)) true).isSome = true ∧
    (s.loadRefusal 1 (rd (wGot [(49, region), (39, 0x1000)] none)) true).isSome = false ∧
    (clearParts 0 (rd (wGot [(49, region), (39, 0x1000)] none))).length = 8 ∧ (clearParts 0 (rd (wGot [] none))).length = 0 ∧
    (s.loadRefusal 1 (rd (wGot [] none)) true).isSome = false ∧ (s.seat 1).stopped = true := by
  decide +kernel

theorem witness_SeatStepResults_pairs :
    -- a doublet of launch 3 is being loaded into seat 0, so its secondary waits
    (let s := ((wSwap.localWrite 0 (8 * 30) 255 0x3_0000).setLaunch 3 { wLaunch with hdr := (List.replicate 32 0).set 7 0x80_0000 }).modSeat 1 fun x =>
       { x with localOp := some ⟨7, .restore 0 0 none 1 true false, 0, 0, 31, [], [], none, false, 0⟩ }
     s.pairLoading 8 = true ∧ s.pairLoading 0 = false ∧ wSwap.pairLoading 8 = false) ∧
    (let t := { sampleThread with kind := .roaming, loc := .transit 3 }
     let s := ((wSwap.setThread 8 t).setMig 9 ⟨8, .migr, 0, 1, .going, false⟩)
     s.thread? 8 = some t ∧ t.owed = [] ∧ t.loc = .transit 3 ∧ 64 ≤ (s.modCore 1 fun c => { c with runq := List.replicate 64 ⟨8, 0⟩ }).coreLoad 1 ∧
     (wSwap.thread? 8).map (·.loc) = some (.runQueue 0)) := by
  decide +kernel

/-- A vector store of seat 0 of whose parts one is left, with a poisoned word met or none; a load that keeps what it replaces for nobody. -/
def wVstore (poison : Option Word) : LocalOp := ⟨7, .vstore, 0, 0, 1, [], [], poison, false, 0⟩

theorem witness_ClusterStepResults_stores :
    ([none, some 8].all fun p => [1, 2].all fun n =>
      let op := { wVstore p with remaining := n }
      decide ((((sample sampleThread).modSeat 0 fun x => { x with localOp := some op }).seat 0).localOp = some op) && op.kind == .vstore &&
        (op.poison.isSome == p.isSome)) = true ∧
    -- a word of whose store something has been kept, and another requester that writes it
    (let s := (sample sampleThread).modSeat 0 fun x => { x with localOp := some { wVstore none with undo := [⟨8, 255, 5, false⟩] } }
     s.undoOpen (bankOf 0 8) = true ∧ (sample sampleThread).undoOpen (bankOf 0 8) = false ∧ s.accessMask ⟨0, .engine 1 0, 0, ⟨8, .write 255 1, 0⟩⟩ = 255) ∧
    (let r := { wReq .ldre 8 with stage := .answered }
     (withReq r).req? 9 = some r ∧ r.uid = some 7) := by
  decide +kernel

theorem witness_StationStepResults_replays :
    (let s := withReq (wReq .load 0)
     s.req? 9 = some (wReq .load 0) ∧ s.pieceQueue (wReq .load 0) = false ∧ (wPage false s).walk 0 0 = .leaf 3 0x107 ∧
     ({ s with fw := { s.fw with moves := [⟨0, 0, 0x187, 0x1_0000_0187, 0, true, [8], 0, 1⟩] } } : State).pieceQueue (wReq .load 0) = true) ∧
    -- a page of 32 MiB that is not present has one record
    (let s := (wPage false (sample sampleThread)).setEntry 0 2 0x200_0000 (notPresentEntry 2 0x200_0000)
     s.walk 0 0x200_0000 = .notPresent 2 ∧ s.absentPage 0 0x200_0000 = s.absentPage 0 0x3FF_0000) := by
  decide +kernel

theorem witness_AnswerStepResults_damage :
    -- a request behind a damaged record, itself or by the combined request before it, and one that is not
    (let r := { wReq .load 0 with deadline := some 0, comb := some 20 }
     let s (d : Bool) : State := (withReq r).setComb 20 { wComb [⟨9, 1, d⟩] (some 11) with first := 8 }
     (s true).req? 9 = some r ∧ (s true).behindDamage ((s true).net.combs.length + 1) 9 = true ∧ (s false).behindDamage ((s false).net.combs.length + 1) 9 = false ∧
     r.uid = some 7 ∧ r.stage ≠ .silent) ∧
    (let f := { wReq (.atom 0 3 0) 0 with deadline := some 0, comb := some 21 }
     let s (d : Bool) : State := ((((withReq (wReq (.atom 0 1 0) 0)).setReq 8 (wReq (.atom 0 1 0) 0)).setReq 11 f).setComb 20 (wComb [⟨8, 1, d⟩] (some 11))).setComb 21
       { wComb [⟨11, 1, true⟩] (some 12) with first := 10 }
     (s false).req? 11 = some f ∧ (s false).behindDamage ((s false).net.combs.length + 1) 11 = true ∧ (s true).behindDamage ((s true).net.combs.length + 1) 11 = true ∧
     FMap.find? (s true).net.combs 20 = some (wComb [⟨8, 1, true⟩] (some 11)) ∧
     (let g := { f with comb := none }
      let x := (((withReq (wReq (.atom 0 1 0) 0)).setReq 8 (wReq (.atom 0 1 0) 0)).setReq 11 g).setComb 20 (wComb [⟨8, 1, false⟩] (some 11))
      x.behindDamage (x.net.combs.length + 1) 11 = false ∧ FMap.find? x.net.combs 20 = some (wComb [⟨8, 1, false⟩] (some 11)) ∧ x.req? 11 = some g)) := by
  decide +kernel

theorem witness_EngineAndInboxStepResults_untaken :
    -- a shadow for the collective that its engine has not taken yet
    (let op := (wColl true).joined.map (·.2)
     let c : Collective := { wColl true with joined := [] }
     let s := ((sample sampleThread).setColl 20 c).setEngine (engineOf 2 0) ⟨op, none⟩
     FMap.find? s.fab.collectives 20 = some c ∧ c.untaken s = op ∧ op.length = 1 ∧ (op.map fun x => coreOf x.seat) = [0] ∧ (wColl true).untaken s = []) ∧
    -- the interface sees the registers that a CSR instruction wrote in this cycle from the next one on
    (let s := (wTrapped 8).modCore 0 fun c => { c with inboxp := c.inboxp + 8, before := some (0, c.inboxb, c.inboxp) }
     (s.iface 0).ring ≠ none ∧ (s.iface 0).hasRoom = false ∧ (s.core 0).hasRoom = true ∧ ({ s with cycle := 1 }).iface 0 = ({ s with cycle := 1 }).core 0) := by
  decide +kernel

theorem witness_DispatchStepResults_sweeps :
    (let l : Launch := { wLaunch with live := [], job := 5 }
     let s := { (sample sampleThread).setLaunch 1 l with fw := { (sample sampleThread).fw with cancels := [(9, 0)] } }
     s.launch? 1 = some l ∧ s.forgetJobs.fw.cancels = [] ∧ s.forgetJobs.launchIdle 1 l = true ∧ s.forgetJobs.launchIdle 1 wLaunch = false ∧
     ({ l with lastSweep := some (0, 0) } : Launch).lastSweep = some (countSum l.sent, countSum l.received)) ∧
    (sample sampleThread).jobOpen 5 = false ∧
    -- a thread of a task with its own job keeps it open
    (sampleWith fun t => { t with sys := { t.sys with job := 0x1_0000_0005 } }).jobOpen 5 = true := by
  decide +kernel

theorem witness_BoardAndLadderStepResults_home :
    -- the mover still stands at its own core, which the square has left, or not
    (let b := wBoard 1 false []
     let g (dst : Nat) : Mig := ⟨7, .setpos 0 0, dst, dst, .waiting, false⟩
     let t := { sampleThread with launch := 1, kind := .roaming, loc := .transit 0 }
     let s (dst : Nat) : State := (wMover b false).setMig 9 (g dst)
     (s 0).mig? 9 = some (g 0) ∧ (s 0).thread? 7 = some t ∧ (g 0).atHome t = true ∧ (g 1).atHome t = false ∧ t.owed = [] ∧
     (b.halfAt 0 (b.rel 0 0)).owner = 1 ∧ (b.halfAt 0 (b.rel 0 0)).admission = [] ∧ (g 1).admission = false) ∧
    (let t := { sampleThread with launch := 1, kind := .roaming, loc := .transit 8 }
     (⟨7, .setpos 0 0, 1, 1, .waiting, false⟩ : Mig).atHome t = true ∧
     (let u := { t with owed := [⟨8, .store, [], .none, false⟩] }
      ((wMover (wBoard 1 false []) false).setThread 7 u).thread? 7 = some u ∧ u.owed ≠ [])) ∧
    (let x := { wQueue .result 3 with spilled := [0] }
     let s := (sample sampleThread).modCore 0 fun c => c.setQueue 2 (some x)
     (s.core 0).queue 2 = some x ∧ x.words.length < 16 ∧ x.spilled ≠ []) := by
  decide +kernel

theorem witness_MatrixAndDoubletStepResults_undo :
    (let d : Doublet := ⟨0, [(64, 5, true)], [], [], some sampleThread, none, none, false⟩
     let s := wDoublet d
     s.doublet? 0 = some d ∧ (s.seat 0).undoing = false ∧ d.log ≠ [] ∧ d.lastMismatch ≠ some sampleThread.regs.pc ∧
     ({ d with lastMismatch := some 0 } : Doublet).lastMismatch = some sampleThread.regs.pc ∧
     ((s.modSeat 0 fun x => { x with localOp := some ⟨7, .rollback, 0, 0, 1, [], [], none, false, 0⟩ }).seat 0).undoing = true) ∧
    (let d : Doublet := ⟨0, [], [], [], none, none, none, true⟩
     let s := wDoublet d
     12288 ≤ (s.seat 0).llim.toNat ∧ d.held = [] ∧ s.heldReady 0 d = true ∧ (sampleThread.areaData (s.seat 0) 0 15).length ≠ 0) := by
  decide +kernel

theorem witness_HostStepResults_entries :
    let s := (sample sampleThread).setComb 20 (wComb [⟨8, 1, false⟩] none)
    FMap.find? s.net.combs 20 = some (wComb [⟨8, 1, false⟩] none) ∧ (wComb [⟨8, 1, false⟩] none).recs[0]? = some ⟨8, 1, false⟩ ∧
    (wComb [⟨8, 1, false⟩] none).recs[1]? = none := by
  decide +kernel

theorem witness_CommandResults_absent :
    (let s := ((wCmd (wWords 0x22 []) (sample sampleThread)).setEntry 0 3 0 (notPresentEntry 3 0)).setQueue 0 wRec
     s.ownQueue 0 0 = some (0, wRec) ∧
     (match s.admitPacket 0 wRec (List.replicate 8 0) none (!wRec.trig && !wRec.depv) with | .notPresent va => va == 0 | _ => false) = true) ∧
    (let s := wCmd (wWords 0x05 [0, 0, 8, 0, 0x1000]) (sample sampleThread)
     s.contextBusy 0 1 0x05 0 = false ∧ s.owns 0 0 = true ∧ s.span 0 0 8 true false = .ok ∧ s.vaPoison 0 0 8 = none) ∧
    (let s := wWithHeader (wCmd (wWords 0x20 [0, 0, 4, 0, 0]) (sample sampleThread))
     (s.vaWord 0 (8 * 15)).toNat % 16 ≠ 1 ∧
     (let x := (s.physWrite64 (8 * 15) 1).physWrite64 (8 * 16) (BitVec.ofNat 64 (s.device.toNat * 2 ^ 56))
      (x.vaWord 0 (8 * 15)).toNat % 16 = 1 ∧ (x.vaWord 0 (8 * 16)).toNat / 2 ^ 56 % 256 = x.device.toNat)) := by
  decide +kernel

theorem witness_CsrResults_readback :
    ([0x15, 0x16, 0x17, 0x21, 0x24, 0x28].all fun n => issuesFor sampleThread (.csrw ⟨1, 2, n, 0⟩)) = true := by
  decide +kernel

/-! ## Rounding: values that meet the hypotheses -/

theorem witness_RoundingResults :
    fF32 ∈ floatFmts ∧ (∃ x : ℝ, (false = true ↔ x < 0) ∧ |x| = (3 : Nat) * (2 : ℝ) ^ (-1 : Int)) ∧
    (∃ x : ℝ, (true = true ↔ x < 0) ∧ 2 ^ (fF32.fbits + 25) ≤ 2 ^ 60 ∧ ((2 ^ 60 : Nat) : ℝ) * (2 : ℝ) ^ (-60 : Int) < |x| ∧
      |x| < ((2 ^ 60 : Nat) + 1 : ℝ) * (2 : ℝ) ^ (-60 : Int)) := by
  refine ⟨by simp [floatFmts], ⟨3 / 2, by norm_num, by norm_num⟩, ⟨-(1 + 2⁻¹ * 2⁻¹ ^ 60), by norm_num, by decide, ?_, ?_⟩⟩ <;> norm_num [abs_of_neg, zpow_neg]

theorem witness_ArithmeticResults :
    -- values and their sums, zero or not; the signs of zeros
    (FVal.fin false 3 0).Is 3 ∧ (FVal.fin true 3 0).Is (-3) ∧ (FVal.fin false 0 0).Is 0 ∧ (FVal.fin true 0 0).Is 0 ∧ (3 : ℝ) + 3 ≠ 0 ∧ (3 : ℝ) + -3 = 0 ∧
    (FVal.fin true 0 0).neg? ≠ (FVal.fin false 0 0).neg? ∧ List.Forall₂ FVal.Is [.fin false 3 0, .fin true 3 0] [3, -3] ∧
    -- patterns of each kind
    (floatFmts.all fun f => (f.decode 0).isZero && f.hasInf == decide (f.decode (f.infBits false) = .inf false) &&
      (f.decode f.nanBits).isNan) = true ∧
    (fF32.decode 0x7F80_0001).isSig = true ∧ (fF32.decode 0x7FC0_0000).isSig = false ∧ fmtF64 ≠ 0 ∧ (5 : BitVec 4) ≠ fmtF64 ∧
    -- sums of INT8 products at and beyond the bounds
    (-2 ^ 31 ≤ toSigned 32 0x7FFF_FFFF + ([(-1, 1)].map fun z : Int × Int => z.1 * z.2).sum) ∧
    (2 ^ 31 ≤ toSigned 32 0x7FFF_FFFF + ([(1, 1)].map fun z : Int × Int => z.1 * z.2).sum) ∧
    (toSigned 32 0x8000_0000 + ([(-1, 1)].map fun z : Int × Int => z.1 * z.2).sum < -2 ^ 31) := by
  refine ⟨by norm_num [FVal.Is], by norm_num [FVal.Is], by norm_num [FVal.Is], by norm_num [FVal.Is], by norm_num, by norm_num, by decide, ?_, ?_⟩
  · refine .cons ?_ (.cons ?_ .nil) <;> norm_num [FVal.Is]
  · decide +kernel

/-! ## Frames and invariants -/

theorem witness_ComputationFrame :
    isScalar (.add ⟨1, 2, 3, false, false, 0⟩) = true ∧ mayCount (.adds ⟨1, 2, 3, false, false, 0⟩) = true ∧ issuesFor sampleThread (.add ⟨1, 2, 3, false, false, 0⟩) = true ∧
    (match exec (.add ⟨1, 2, 3, false, false, 0⟩) (sample sampleThread) with | .next _ => true | _ => false) = true := by
  decide +kernel

theorem witness_AccessFrame :
    ([Instr.ldl ⟨1, 2, false, 3, 0, 0⟩, .ldls ⟨1, 2, false, 2, 0, 0⟩, .stl ⟨1, 2, false, 3, 0, 0⟩, .ldw ⟨1, 2, false, 0, 0⟩, .lde ⟨1, 2, false, 0, 0⟩, .stf ⟨1, 2, false, 0, 0⟩,
      .sete ⟨2, false, 0, 0⟩, .faal ⟨1, 2, 3, false, false, 0⟩, .ldg ⟨1, 2, false, 3, 0, 0⟩].all fun i =>
      match exec i (sample sampleThread) with | .next _ => true | _ => false) = true ∧ (sample sampleThread).mem.wf = true ∧
    isRequest (.ldg ⟨1, 2, false, 3, 0, 0⟩) = true := by
  decide +kernel

theorem witness_StepKeepsMemory : State.reset.mem.wf = true ∧ (match Sys2Proof.Machine.step State.reset with | .next _ => true | _ => false) = true := by decide +kernel

theorem witness_StepKeepsModes : (sample sampleThread).ModesOk := by
  have h : (sample sampleThread).fab.threads = [(7, sampleThread)] := by decide +kernel
  have d : (sample sampleThread).fab.doublets = [] := by decide +kernel
  refine ⟨fun uid t hu => ?_, fun seat x i hx => ?_⟩
  · have ht : t = sampleThread := by
      simp only [State.thread?, h, FMap.find?] at hu
      split at hu <;> simp_all
    subst ht
    exact ⟨show sampleThread.regs.pw = pwOf sampleThread.regs.pw by decide +kernel, fun _ => rfl⟩
  · simp [State.doublet?, d, FMap.find?] at hx

/-! ## One step of an instruction, with results worked out from its rule -/

/-- The machine after one instruction of the sample machine's thread. -/
def ran (t : Thread) (i : Instr) : State := match exec i (sample t) with | .next s => s | _ => State.reset
/-- A general register of the thread then. -/
def regOf (s : State) (n : Nat) : Option GView := (s.thread? 7).map fun t => t.regs.view n
/-- The sample thread with g2 and g3. -/
def sample23 (a b : Word) : Thread := { sampleG 2 a with regs := { (sampleG 2 a).regs with g := (sampleG 2 a).regs.g.setIfInBounds 3 b } }

/-- R251: the sum wraps, and the PC moves on by four (R224). -/
theorem test_add_wraps :
    let s := ran (sample23 (BitVec.allOnes 64) 2) (.add ⟨1, 2, 3, false, false, 0⟩)
    regOf s 1 = some (.full 1) ∧ (s.thread? 7).map (·.regs.pc) = some 4 := by decide +kernel
/-- R252: the quotient by 0 is all ones, and the least number over −1 is itself. -/
theorem test_div_corners :
    regOf (ran (sample23 5 0) (.div ⟨1, 2, 3, false, false, 0⟩)) 1 = some (.full (BitVec.allOnes 64)) ∧
    regOf (ran (sample23 0x8000_0000_0000_0000 (BitVec.allOnes 64)) (.div ⟨1, 2, 3, false, false, 0⟩)) 1 = some (.full 0x8000_0000_0000_0000) := by decide +kernel
/-- R252: −7 rem 2 is −1, with the sign of the dividend. -/
theorem test_rem_sign : regOf (ran (sample23 (-7) 2) (.rem ⟨1, 2, 3, false, false, 0⟩)) 1 = some (.full (-1)) := by decide +kernel
/-- R254: a saturated sum is counted. -/
theorem test_adds_saturates :
    let s := ran (sample23 0x7FFF_FFFF_FFFF_FFFF 1) (.adds ⟨1, 2, 3, false, false, 0⟩)
    regOf s 1 = some (.full 0x7FFF_FFFF_FFFF_FFFF) ∧ (s.thread? 7).map (·.sys.satcnt) = some 1 := by decide +kernel
/-- R253: no one bit counts 64. -/
theorem test_clz_zero : regOf (ran (sampleG 2 0) (.clz ⟨1, 2, false, 0⟩)) 1 = some (.full 64) := by decide +kernel
/-- R257: a shift takes b[5:0]. -/
theorem test_shl_modulo : regOf (ran (sample23 3 65) (.shl ⟨1, 2, 3, false, false, 0⟩)) 1 = some (.full 6) := by decide +kernel
/-- R260: MOVH shifts its own register. -/
theorem test_movh : regOf (ran (sampleG 1 0xABCD) (.movh ⟨1, 0x1234, 0⟩)) 1 = some (.full 0xABCD1234) := by decide +kernel
/-- R261: signed less-than, with the result negated by mode 3. -/
theorem test_cmp_modes :
    ((ran (sample23 (-1) 0) (.cmpLt ⟨0, 1, 2, 3, false, false, 0⟩)).thread? 7).map (fun t => t.pred 1) = some true ∧
    ((ran (sample23 (-1) 0) (.cmpLt ⟨3, 1, 2, 3, false, false, 0⟩)).thread? 7).map (fun t => t.pred 1) = some false := by decide +kernel
/-- R265: CALL links to g23 and goes to PC + 4 × offset. -/
theorem test_call :
    let s := ran { sampleThread with regs := { sampleThread.regs with pc := 0x100 } } (.call ⟨-2, 0⟩)
    regOf s 23 = some (.full 0x104) ∧ (s.thread? 7).map (·.regs.pc) = some 0xF8 := by decide +kernel
/-- R358, R366: TRAP with no vector to go to stops its seat; XCAUSE holds the subcode and the cause. -/
theorem test_trap_stops :
    let s := ran sampleThread (.trap ⟨5, 0⟩)
    (s.thread? 7).map (·.sys.xcause) = some 0x0513 ∧ (s.seat 0).tstop = true := by decide +kernel
/-- R273: a byte stored, and nothing beside it. -/
theorem test_stl_byte :
    let s := ran (sample23 9 0x1FF) (.stl ⟨3, 2, false, 0, 0, 0⟩)
    (s.localWord 0 8) = 0xFF00 := by decide +kernel
/-- R273: LDLS extends the sign of what it reads. -/
theorem test_ldls_sign :
    let s := (sample (sampleG 2 8)).localWrite 0 8 255 0x80
    (match exec (.ldls ⟨1, 2, false, 0, 0, 0⟩) s with | .next s => regOf s 1 | _ => none) = some (.full 0xFFFF_FFFF_FFFF_FF80) := by decide +kernel
/-- R46: LDE empties the word that it reads. -/
theorem test_lde_empties :
    let s := ran (sampleG 2 8) (.lde ⟨1, 2, false, 0, 0⟩)
    regOf s 1 = some (.full 0) ∧ s.localFull 0 8 = false ∧ s.localFull 0 16 = true := by decide +kernel
/-- R127: CASL that matches writes, and returns the old word. -/
theorem test_casl :
    let s := ran { sample23 8 5 with regs := { (sample23 8 5).regs with g := (sample23 8 5).regs.g.setIfInBounds 1 0 } } (.casl ⟨1, 2, 3, false, false, 0⟩)
    s.localWord 0 8 = 5 ∧ regOf s 1 = some (.full 0) := by decide +kernel
/-- R274: the destination of a load from home is pending until its answer. -/
theorem test_ldg_pends :
    let s := ran { sampleG 2 0x1000 with kind := .roaming } (.ldg ⟨1, 2, false, 3, 0, 0⟩)
    regOf s 1 = some .pending ∧ (s.thread? 7).map (·.owed.length) = some 1 := by decide +kernel
/-- R361: HALT stops its own seat. -/
theorem test_halt : ((ran sampleThread (.halt ⟨0⟩)).seat 0).halt = true := by decide +kernel

end Sys2Proof.Machine

end
end

section
/-!
PROOFS. A false guard (R224): an instruction word is performed by `issue`, whose guard step comes before every other test.
-/

namespace Sys2Proof.Machine

/-! ## Instruction words -/

/-- An instruction word is performed by issuing it with a body of its own; the steps that are not so performed are events. -/
theorem exec_eq_issue {i : Instr} (h : i.isEvent = false) (s : State) : ∃ body : Body, exec i s = issue i s body := by
  cases i <;> cases h <;> exact ⟨_, rfl⟩

/-- An instruction word on a seat that holds a thread answers one attempt to issue. -/
theorem exec_seated {i : Instr} {s : State} {uid : Nat} {t : Thread} (h : i.isEvent = false) (hs : Seated s uid t) :
    ∃ body : Body, exec i s = .next (issueAt i s s.cur uid t body) := by
  obtain ⟨body, hb⟩ := exec_eq_issue h s
  exact ⟨body, hb.trans (issue_seated hs body)⟩

/-! ## The guard -/

/-- G = 0 names p0, which reads 1 (R202). -/
theorem guardTrue_of_unguarded {i : Instr} (t : Thread) (h : (guardField i).toNat = 0) : guardTrue t i = true := by
  simp only [guardTrue, Thread.pred, h, if_true]

theorem guardTrue_of_guarded {i : Instr} (t : Thread) (h : (guardField i).toNat ≠ 0) :
    guardTrue t i = t.regs.pw.getLsbD (guardField i).toNat := by
  simp only [guardTrue, Thread.pred, h, if_false]

/-- A clean predicate word does not trap. -/
theorem testPoisonG_pw {t : Thread} (h : t.regs.pwPoison = none) : testPoisonG t 40 = .pass := by
  simp [testPoisonG, h]

/-! ## What a false guard does -/

/-- A general or vector register that the instruction names as a source is pending. -/
def SourcePending (t : Thread) (i : Instr) : Prop :=
  (∃ p ∈ sourceRegs i, p.1 < 24 ∧ t.regs.view p.1 = .pending) ∨ (∃ v ∈ vsrcs i, vget t.vec.vst v.toNat .full = .pending)

theorem waitsFalse_iff (t : Thread) (i : Instr) : waitsFalse t i = true ↔ SourcePending t i := by
  simp [waitsFalse, SourcePending]

/-- With a false guard no test but that of the predicate word is made: the sources that have not arrived decide. -/
theorem gate_of_guard_false {i : Instr} {t : Thread} (s : State) (seat : Nat) (hg : guardTrue t i = false) (hp : t.regs.pwPoison = none) :
    gate i s seat t = if waitsFalse t i then .park else .skip := by
  have hpw : (if (guardField i).toNat = 0 then Test.pass else testPoisonG t 40) = .pass := by
    rw [testPoisonG_pw hp, ite_self]
  simp [gate, hpw, hg]

section
variable {i : Instr} {s : State} {uid : Nat} {t : Thread}

theorem issueAt_parks_of_guard_false (seat : Nat) (body : Body) (hg : guardTrue t i = false) (hp : t.regs.pwPoison = none)
    (hw : SourcePending t i) : issueAt i s seat uid t body = parkAt s seat uid := by
  have hgate : gate i s seat t = .park := by
    rw [gate_of_guard_false s seat hg hp, if_pos ((waitsFalse_iff t i).2 hw)]
  simp only [issueAt, hgate]

theorem issueAt_retires_of_guard_false (seat : Nat) (body : Body) (hg : guardTrue t i = false) (hp : t.regs.pwPoison = none)
    (hw : ¬ SourcePending t i) : issueAt i s seat uid t body = retire s seat uid := by
  have hgate : gate i s seat t = .skip := by
    rw [gate_of_guard_false s seat hg hp, if_neg (mt (waitsFalse_iff t i).1 hw)]
  simp only [issueAt, hgate]

end

/-- Settles O6: every instruction word goes through `issue`, and there a false guard is decided before any decode step, source or
destination is looked at. -/
theorem falseGuardOnlyRetires : Obligations.FalseGuardOnlyRetires := by
  intro i s uid t hi hs
  refine ⟨guardTrue_of_unguarded t, guardTrue_of_guarded t, fun hg hp => ?_⟩
  obtain ⟨body, he⟩ := exec_seated hi hs
  rw [he]
  constructor
  · intro hw
    rw [issueAt_parks_of_guard_false s.cur body hg hp hw]
  · intro hw
    rw [issueAt_retires_of_guard_false s.cur body hg hp hw]

end Sys2Proof.Machine
end

section
/-!
PROOFS. Products, quotients and remainders (R251, R252): MUL is a function of two sources written to D, so each instruction's claim is an
equation between the model's result function and the arithmetic of the rule.
-/

namespace Sys2Proof.Machine

/-! ## Instructions that write a function of two sources -/

/-- An instruction whose meaning is to issue with the body `binary` gives the function of that body. -/
theorem gives2_of_binary {α : Type} {c : α → Instr} {d : α → BitVec 6} (f : Word → Word → Word) {r : Word → Word → Word}
    (hx : ∀ o s, exec (c o) s = issue (c o) s (binary (d o) f)) (hr : ∀ a b, f a b = r a b) : Gives2 c d (fun _ a b => r a b) := by
  intro o s uid t h
  have hb : binary (d o) f (popSources (c o) s s.cur t) uid t (takeSources (c o) s s.cur t)
      = .done ((afterRead (c o) s t).putD s.cur uid (d o) (r (src (c o) s t 0) (src (c o) s t 1))) := by
    simp only [binary, popSources_cur, hr, afterRead, src]
  exact (hx o s).trans (issue_done h hb)

/-! ## Products -/

/-- The low half of a product is taken of the operands as unsigned words. -/
theorem mul_eq_ofNat (a b : Word) : a * b = BitVec.ofNat 64 (a.toNat * b.toNat) := by
  rw [BitVec.ofNat_mul, BitVec.ofNat_toNat, BitVec.ofNat_toNat, BitVec.setWidth_eq, BitVec.setWidth_eq]

/-- The high half of a product of two unsigned words is a quotient of natural numbers. -/
theorem mulHi_natCast (x y : Nat) : mulHi x y = BitVec.ofNat 64 (x * y / 2 ^ 64) := by
  have hq : ((x : Int) * y) / 2 ^ 64 = ((x * y / 2 ^ 64 : Nat) : Int) := by push_cast; rfl
  rw [mulHi, hq, BitVec.ofInt_natCast]

/-! ## Signed quotients and remainders -/

/-- The quotient of the only division that overflows, −2^63 by −1, wraps to the dividend. -/
theorem divS_overflow : divS 0x8000_0000_0000_0000 0xFFFF_FFFF_FFFF_FFFF = 0x8000_0000_0000_0000 := by decide

theorem divS_eq (a b : Word) : divS a b =
    if b = 0 then 0xFFFF_FFFF_FFFF_FFFF
    else if a = 0x8000_0000_0000_0000 ∧ b = 0xFFFF_FFFF_FFFF_FFFF then 0x8000_0000_0000_0000
    else BitVec.ofInt 64 (a.toInt.tdiv b.toInt) := by
  by_cases hb : b = 0
  · rw [divS, if_pos hb, if_pos hb]; rfl
  · rw [if_neg hb]
    split
    · next hc =>
      obtain ⟨rfl, rfl⟩ := hc
      exact divS_overflow
    · rw [divS, if_neg hb]

/-- What the truncated quotient leaves over is the remainder with the sign of the dividend. -/
theorem remS_of_ne_zero {b : Word} (a : Word) (hb : b ≠ 0) : remS a b = BitVec.ofInt 64 (a.toInt.tmod b.toInt) := by
  rw [remS, if_neg hb, Int.tmod_def]

/-- The division that overflows leaves no remainder. -/
theorem remS_overflow : remS 0x8000_0000_0000_0000 0xFFFF_FFFF_FFFF_FFFF = 0 := by decide

theorem remS_eq (a b : Word) : remS a b =
    if b = 0 then a
    else if a = 0x8000_0000_0000_0000 ∧ b = 0xFFFF_FFFF_FFFF_FFFF then 0
    else BitVec.ofInt 64 (a.toInt.tmod b.toInt) := by
  by_cases hb : b = 0
  · rw [remS, if_pos hb, if_pos hb]
  · rw [if_neg hb]
    split
    · next hc =>
      obtain ⟨rfl, rfl⟩ := hc
      exact remS_overflow
    · exact remS_of_ne_zero a hb

/-- Settles O2: each instruction of MUL issues with a body `binary`, whose function is the product, quotient or remainder of the rule. -/
theorem mulDivResults : Obligations.MulDivResults :=
  ⟨gives2_of_binary (fun a b => a * b) (fun _ _ => rfl) mul_eq_ofNat,
   gives2_of_binary (fun a b => mulHi a.toInt b.toInt) (fun _ _ => rfl) fun _ _ => rfl,
   gives2_of_binary (fun a b => mulHi a.toNat b.toNat) (fun _ _ => rfl) fun a b => mulHi_natCast a.toNat b.toNat,
   gives2_of_binary (fun a b => mulHi a.toInt b.toNat) (fun _ _ => rfl) fun _ _ => rfl,
   gives2_of_binary divS (fun _ _ => rfl) divS_eq,
   gives2_of_binary divU (fun _ _ => rfl) fun _ _ => rfl,
   gives2_of_binary remS (fun _ _ => rfl) remS_eq,
   gives2_of_binary remU (fun _ _ => rfl) fun _ _ => rfl⟩

end Sys2Proof.Machine
end
